-- ==== Sys2Proof/Word.lean ====
section
/-! DEFINITION. Words of the machine (spec 00 R4, 03 R98, 01 R109 lanes) and the sparse maps that hold its
state: lists of key and value in one canonical form. -/

namespace Sys2Proof

abbrev Byte := BitVec 8
abbrev Word64 := BitVec 64
abbrev Lane := BitVec 36

/-- A sparse map from natural numbers, its keys strictly rising; a key that is not listed holds a default
value which the reader names. -/
abbrev NatMap (α : Type) := List (Nat × α)

namespace NatMap
variable {α : Type}

/-- The value at `k`, or `d` where the map does not list `k`. -/
def get (d : α) : NatMap α → Nat → α
  | [], _ => d
  | (j, v) :: m, k => if j = k then v else get d m k

/-- The value at `k` where listed. -/
def find? : NatMap α → Nat → Option α
  | [], _ => none
  | (j, v) :: m, k => if j = k then some v else find? m k

/-- Put `v` at `k`, keeping the keys in rising order. -/
def insert : NatMap α → Nat → α → NatMap α
  | [], k, v => [(k, v)]
  | (j, w) :: m, k, v =>
    if k < j then (k, v) :: (j, w) :: m
    else if k = j then (k, v) :: m
    else (j, w) :: insert m k v

/-- Take `k` out of the map. -/
def erase : NatMap α → Nat → NatMap α
  | [], _ => []
  | (j, w) :: m, k => if j = k then erase m k else (j, w) :: erase m k

/-- Put `v` at `k` in canonical form: the default value is never listed. -/
def set [DecidableEq α] (d : α) (m : NatMap α) (k : Nat) (v : α) : NatMap α :=
  if v = d then erase m k else insert m k v

/-- The keys rise strictly, each above `lo`. -/
def risesFrom : Nat → NatMap α → Bool
  | _, [] => true
  | lo, (j, _) :: m => decide (lo ≤ j) && risesFrom (j + 1) m

/-- No listed value equals the default. -/
def noDefault [DecidableEq α] (d : α) (m : NatMap α) : Bool := m.all fun e => decide (e.2 ≠ d)

/-- The canonical form. -/
def wf [DecidableEq α] (d : α) (m : NatMap α) : Bool := risesFrom 0 m && noDefault d m

end NatMap

/-- Replace the element at `i` of a list; a list too short is unchanged. -/
def listSet {α : Type} : List α → Nat → α → List α
  | [], _, _ => []
  | _ :: xs, 0, v => v :: xs
  | x :: xs, n + 1, v => x :: listSet xs n v

/-- The first element of a list that meets a test, and the list without it. -/
def takeFirst {α : Type} (p : α → Bool) : List α → Option (α × List α)
  | [] => none
  | x :: xs => if p x then some (x, xs) else (takeFirst p xs).map fun r => (r.1, x :: r.2)

/-- Replace every element that meets a test by its image. -/
def mapWhere {α : Type} (p : α → Bool) (f : α → α) (xs : List α) : List α :=
  xs.map fun x => if p x then f x else x

/-- Insert into a list kept in ascending order of a key, after the elements of equal key. -/
def insertBy {α : Type} (key : α → Nat) (x : α) : List α → List α
  | [] => [x]
  | y :: ys => if key x < key y then x :: y :: ys else y :: insertBy key x ys

/-- The element of least key, the first among equals. -/
def leastBy {α : Type} (key : α → Nat) : List α → Option α
  | [] => none
  | x :: xs =>
    match leastBy key xs with
    | none => some x
    | some y => if key y < key x then some y else some x

/-- The bits `[hi:lo]` of a natural number. -/
def bits (x hi lo : Nat) : Nat := (x >>> lo) % 2 ^ (hi + 1 - lo)

/-- One bit of a natural number. -/
def bit (x i : Nat) : Bool := x.testBit i

/-- A truth value as one bit. -/
def b2n (b : Bool) : Nat := if b then 1 else 0

/-- `x` read as a two's complement number of `w` bits. -/
def sext (w x : Nat) : Int :=
  let y := x % 2 ^ w
  if 2 * y < 2 ^ w then (y : Int) else (y : Int) - (2 ^ w : Nat)

/-- An integer modulo `2 ^ w`. -/
def wrapNat (w : Nat) (x : Int) : Nat := (x % ((2 ^ w : Nat) : Int)).toNat

/-- The largest multiple of `m` not above `x` (`m` at least 1). -/
def alignDown (m x : Nat) : Nat := x - x % m

/-- Least multiple of `m` at or above `x`. -/
def alignUp (m x : Nat) : Nat := alignDown m (x + (m - 1))

/-- Ceiling of a quotient. -/
def ceilDiv (x m : Nat) : Nat := (x + (m - 1)) / m

/-- The natural number whose little-endian bytes are given (R4). -/
def ofBytes : List Byte → Nat
  | [] => 0
  | b :: bs => b.toNat + 256 * ofBytes bs

/-- The `n` little-endian bytes of a number (R4). -/
def toBytes : Nat → Nat → List Byte
  | 0, _ => []
  | n + 1, x => BitVec.ofNat 8 x :: toBytes n (x / 256)

end Sys2Proof
end

