-- ==== Sys2Proof/Machine/Flags.lean ====
section
/-! DEFINITION. The five exception flags (spec 04 R127, bit numbers of R74) and how they gather (R128). -/

namespace Sys2Proof.Machine

/-- The exception flags, in the order of their bits (R74): bit 0 overflow to bit 4 invalid. -/
structure ExFlags where
  overflow : Bool
  underflow : Bool
  inexact : Bool
  divz : Bool
  invalid : Bool
deriving DecidableEq, Repr

namespace ExFlags

/-- No flag. -/
def none : ExFlags := ⟨false, false, false, false, false⟩

/-- Only invalid. -/
def inv : ExFlags := ⟨false, false, false, false, true⟩

/-- Only divide-by-zero. -/
def dz : ExFlags := ⟨false, false, false, true, false⟩

/-- Only inexact. -/
def inx : ExFlags := ⟨false, false, true, false, false⟩

/-- Overflow and inexact, which a saturation raises (R115, R119). -/
def ovf : ExFlags := ⟨true, false, true, false, false⟩

/-- Flags gather by OR (R128). -/
def or (a b : ExFlags) : ExFlags :=
  ⟨a.overflow || b.overflow, a.underflow || b.underflow, a.inexact || b.inexact, a.divz || b.divz, a.invalid || b.invalid⟩

/-- Invalid where the condition holds. -/
def invIf (b : Bool) : ExFlags := ⟨false, false, false, false, b⟩

/-- Inexact where the condition holds. -/
def inxIf (b : Bool) : ExFlags := ⟨false, false, b, false, false⟩

/-- The OR of a list. -/
def all : List ExFlags → ExFlags
  | [] => none
  | f :: fs => or f (all fs)

/-- The flags as the bits [4:0] of XFLAGS and of MT_FLAGS (R74, R246). -/
def toNat (f : ExFlags) : Nat :=
  b2n f.overflow + 2 * b2n f.underflow + 4 * b2n f.inexact + 8 * b2n f.divz + 16 * b2n f.invalid

/-- The flags of bits [4:0]. -/
def ofNat (x : Nat) : ExFlags := ⟨bit x 0, bit x 1, bit x 2, bit x 3, bit x 4⟩

end ExFlags

end Sys2Proof.Machine
end

