-- ==== Sys2Proof/Machine/Number.lean ====
section
/-! DEFINITION. IF36 (spec 04 R109 to R111): exact values, rounding to a binary format, the basic arithmetic. -/

namespace Sys2Proof.Machine

/-- Rounding modes (R95, R111); stochastic rounding carries its 24-bit random number (R123). -/
inductive Rm where
  | rne | rtz | rup | rdn
  | sr (r : Nat)
deriving DecidableEq, Repr

/-- A value of a floating format: a NaN, an infinity, or the exact number (-1)^neg * mant * 2^exp, zero included
with its sign (R109). -/
inductive FVal where
  | nan (sig : Bool)
  | inf (neg : Bool)
  | fin (neg : Bool) (mant : Nat) (exp : Int)
deriving DecidableEq, Repr

/-- A result and the flags it raises. -/
structure Flagged (α : Type) where
  val : α
  flags : ExFlags
deriving DecidableEq, Repr

/-- A binary floating format: significand width, exponents of its smallest and its largest normal binade. -/
structure BinFmt where
  p : Nat
  emin : Int
  emax : Int
deriving DecidableEq, Repr

/-- IF36 (R109). -/
def BinFmt.if36 : BinFmt := ⟨25, -1022, 1023⟩
/-- binary32 (R112). -/
def BinFmt.fp32 : BinFmt := ⟨24, -126, 127⟩
/-- binary16 (R112). -/
def BinFmt.fp16 : BinFmt := ⟨11, -14, 15⟩
/-- bfloat16 (R112). -/
def BinFmt.bf16 : BinFmt := ⟨8, -126, 127⟩

/-- Bits of a number: 0 for 0. -/
def bitLen (m : Nat) : Nat := if m = 0 then 0 else Nat.log2 m + 1

/-- Round `m / 2^sh` to an integer as magnitude of a number of sign `neg` (R111, R123): the integer, and whether it
differs from the quotient. A shift past the number's length by more than 26 bits gives the same answer as 26, also
against SR's 24-bit random number. -/
def roundShift (md : Rm) (neg : Bool) (m sh : Nat) : Nat × Bool :=
  let sh := Nat.min sh (bitLen m + 26)
  let q := m >>> sh
  let r := m % 2 ^ sh
  let up := match md with
    | .rne => decide (2 ^ sh < 2 * r) || (decide (2 * r = 2 ^ sh) && q % 2 == 1)
    | .rtz => false
    | .rup => !neg && decide (r ≠ 0)
    | .rdn => neg && decide (r ≠ 0)
    | .sr x =>
      decide (r ≠ 0) &&
        (if neg then !decide (x * 2 ^ sh < (2 ^ sh - r) * 2 ^ 24) else decide (x * 2 ^ sh < r * 2 ^ 24))
  (if up then q + 1 else q, decide (r ≠ 0))

/-- The largest finite value of a format. -/
def BinFmt.largest (f : BinFmt) (neg : Bool) : FVal := .fin neg (2 ^ f.p - 1) (f.emax - (f.p - 1))

/-- What an overflow delivers (table of R111; R123 under SR). -/
def overflowVal (f : BinFmt) (md : Rm) (neg : Bool) : FVal :=
  match md, neg with
  | .rne, _ => .inf neg
  | .rtz, _ => f.largest neg
  | .rup, false => .inf false
  | .rup, true => f.largest true
  | .rdn, false => f.largest false
  | .rdn, true => .inf true
  | .sr _, _ => f.largest neg

/-- Whether (neg, m, e), nonzero and with its highest bit at exponent `top`, is tiny in the format (R111, R113): its
rounding to the significand width with unbounded exponent lies below the smallest normal; under SR the value itself. -/
def tinyIn (f : BinFmt) (md : Rm) (neg : Bool) (m : Nat) (top : Int) : Bool :=
  if f.emin ≤ top then false
  else if top + 1 < f.emin then true
  else match md with
    | .sr _ => true
    | _ => decide ((roundShift md neg m (bitLen m - f.p)).1 ≠ 2 ^ f.p)

/-- Whether SR clamps a number whose highest bit stands at `top` and whose last kept bit at `sh`: it is above the largest finite (R123). -/
def clamps (f : BinFmt) (md : Rm) (top : Int) (m sh : Nat) : Bool :=
  match md with
  | .sr _ => decide (top = f.emax) && decide (m >>> sh = 2 ^ f.p - 1) && decide (m % 2 ^ sh ≠ 0)
  | _ => false

/-- The exact number (-1)^neg * m * 2^e rounded to a binary format (R111, R113), a zero keeping its sign. -/
def roundBin (f : BinFmt) (md : Rm) (neg : Bool) (m : Nat) (e : Int) : Flagged FVal :=
  if m = 0 then ⟨.fin neg 0 0, .none⟩
  else
    let top := e + (bitLen m : Int) - 1
    let g := max (top - (f.p - 1)) (f.emin - (f.p - 1))
    if f.emax < top then ⟨overflowVal f md neg, .ovf⟩
    else if g ≤ e then ⟨.fin neg m e, .none⟩
    else
      let r := roundShift md neg m (g - e).toNat
      if f.emax < g + (bitLen r.1 : Int) - 1 || clamps f md top m (g - e).toNat then
        ⟨overflowVal f md neg, .ovf⟩
      else ⟨.fin neg r.1 (if r.1 = 0 then 0 else g), ⟨false, r.2 && tinyIn f md neg m top, r.2, false, false⟩⟩

/-- RoundIF36 (R9, R111) of an exact dyadic number. -/
def roundIF36 (md : Rm) (neg : Bool) (m : Nat) (e : Int) : Flagged FVal := roundBin .if36 md neg m e

/-- The IF36 reading of a lane (R109). -/
def ofIF36 (x : Lane) : FVal :=
  let n := x.toNat
  let s := bit n 35
  let e := bits n 34 24
  let f := bits n 23 0
  if e = 2047 then (if f = 0 then .inf s else .nan (!bit f 23))
  else if e = 0 then .fin s f (if f = 0 then 0 else -1046)
  else .fin s (2 ^ 24 + f) ((e : Int) - 1047)

/-- The canonical quiet NaN (R109, R110). -/
def canonicalNaN : Lane := 0x7FF800000#36

/-- The fields of a binary format for a value it holds exactly: exponent field and fraction field (R109, R112). -/
def binFields (f : BinFmt) (m : Nat) (e : Int) : Nat × Nat :=
  if m = 0 then (0, 0)
  else
    let top := e + (bitLen m : Int) - 1
    if f.emin ≤ top then
      let sig := if bitLen m ≤ f.p then m <<< (f.p - bitLen m) else m >>> (bitLen m - f.p)
      ((top - f.emin + 1).toNat, sig - 2 ^ (f.p - 1))
    else
      let d := e - (f.emin - (f.p - 1))
      (0, if 0 ≤ d then m <<< d.toNat else m >>> (-d).toNat)

/-- The IF36 lane of a value that IF36 holds; every NaN is the canonical one (R110). -/
def toIF36 : FVal → Lane
  | .nan _ => canonicalNaN
  | .inf s => BitVec.ofNat 36 (b2n s * 2 ^ 35 + 2047 * 2 ^ 24)
  | .fin s m e =>
    let p := binFields .if36 m e
    BitVec.ofNat 36 (b2n s * 2 ^ 35 + p.1 * 2 ^ 24 + p.2)

/-- A flagged value as a flagged lane. -/
def Flagged.lane (r : Flagged FVal) : Flagged Lane := ⟨toIF36 r.val, r.flags⟩

/-- The quiet NaN an operation delivers, invalid where told. -/
def nanResult (invalid : Bool) : Flagged FVal := ⟨.nan false, .invIf invalid⟩

/-- A signalling NaN. -/
def FVal.isSig : FVal → Bool
  | .nan s => s
  | _ => false

/-- A NaN of either kind. -/
def FVal.isNaN : FVal → Bool
  | .nan _ => true
  | _ => false

/-- The sign. -/
def FVal.isNeg : FVal → Bool
  | .nan _ => false
  | .inf s => s
  | .fin s _ _ => s

/-- A zero of either sign. -/
def FVal.isZero : FVal → Bool
  | .fin _ m _ => m == 0
  | _ => false

/-- The value with its sign inverted. -/
def FVal.neg : FVal → FVal
  | .nan s => .nan s
  | .inf s => .inf !s
  | .fin s m e => .fin (!s) m e

/-- An exact signed dyadic number: `num * 2^exp`. -/
structure Dyadic where
  num : Int
  exp : Int
deriving DecidableEq, Repr

/-- Signed numerator of a sign and magnitude. -/
def signed (neg : Bool) (m : Nat) : Int := if neg then -(m : Int) else m

/-- Exact sum of two dyadic numbers. -/
def Dyadic.add (a b : Dyadic) : Dyadic :=
  let e := min a.exp b.exp
  ⟨a.num * 2 ^ (a.exp - e).toNat + b.num * 2 ^ (b.exp - e).toNat, e⟩

/-- Exact product. -/
def Dyadic.mul (a b : Dyadic) : Dyadic := ⟨a.num * b.num, a.exp + b.exp⟩

/-- Comparison of the exact values. -/
def Dyadic.lt (a b : Dyadic) : Bool :=
  let e := min a.exp b.exp
  decide (a.num * 2 ^ (a.exp - e).toNat < b.num * 2 ^ (b.exp - e).toNat)

/-- `a ≤ b` on the exact values. -/
def Dyadic.le (a b : Dyadic) : Bool := !Dyadic.lt b a

/-- Round an exact number, an exact zero taking the sign given (R111). -/
def Dyadic.round (f : BinFmt) (md : Rm) (zneg : Bool) (d : Dyadic) : Flagged FVal :=
  if d.num = 0 then ⟨.fin zneg 0 0, .none⟩ else roundBin f md (decide (d.num < 0)) d.num.natAbs d.exp

/-- Exact sum of two finite values (sign, magnitude, exponent) rounded once; the sign of an exact zero by R111 step 3. -/
def addFin (f : BinFmt) (md : Rm) (s : Bool) (m : Nat) (e : Int) (t : Bool) (n : Nat) (g : Int) : Flagged FVal :=
  let zneg := if s = t then s else decide (md = .rdn)
  (Dyadic.add ⟨signed s m, e⟩ ⟨signed t n, g⟩).round f md zneg

/-- a + b rounded once (R110, R111, R127). -/
def fAdd (f : BinFmt) (md : Rm) (a b : FVal) : Flagged FVal :=
  match a, b with
  | .nan s, y => nanResult (s || y.isSig)
  | _, .nan s => nanResult s
  | .inf s, .inf t => if s = t then ⟨.inf s, .none⟩ else nanResult true
  | .inf s, .fin _ _ _ => ⟨.inf s, .none⟩
  | .fin _ _ _, .inf t => ⟨.inf t, .none⟩
  | .fin s m e, .fin t n g => addFin f md s m e t n g

/-- The exact product, before any rounding: a value, and whether it is invalid (R127). -/
def fMulExact (a b : FVal) : FVal × Bool :=
  match a, b with
  | .nan s, y => (.nan false, s || y.isSig)
  | _, .nan s => (.nan false, s)
  | .inf s, .inf t => (.inf (s != t), false)
  | .inf s, .fin t n _ => if n = 0 then (.nan false, true) else (.inf (s != t), false)
  | .fin s m _, .inf t => if m = 0 then (.nan false, true) else (.inf (s != t), false)
  | .fin s m e, .fin t n g => (.fin (s != t) (m * n) (e + g), false)

/-- Round a value once, keeping infinities and NaNs. -/
def FVal.round (f : BinFmt) (md : Rm) : FVal → Flagged FVal
  | .nan _ => nanResult false
  | .inf s => ⟨.inf s, .none⟩
  | .fin s m e => roundBin f md s m e

/-- a * b rounded once (R174). -/
def fMul (md : Rm) (a b : FVal) : Flagged FVal :=
  let p := fMulExact a b
  let r := p.1.round .if36 md
  ⟨r.val, r.flags.or (.invIf p.2)⟩

/-- a * b + c, the product exact, rounded once (R174); 0 times infinity is invalid even where c is a quiet NaN. -/
def fMulAdd (md : Rm) (a b c : FVal) : Flagged FVal :=
  let p := fMulExact a b
  let r := fAdd .if36 md p.1 c
  ⟨r.val, r.flags.or (.invIf p.2)⟩

/-- The exact sum of two exact products rounded once (FLDOT's first level, R185). -/
def fDotPair (a b c d : FVal) : Flagged FVal :=
  let p := fMulExact a b
  let q := fMulExact c d
  let r := fAdd .if36 .rne p.1 q.1
  ⟨r.val, r.flags.or (.invIf (p.2 || q.2))⟩

/-- The quotient of two positive numbers as a dyadic magnitude of at least 64 significant bits whose last bit says
that something lies below it: rounding it to 25 bits or fewer gives what rounding the exact quotient gives. -/
def quotJam (m n : Nat) : Nat × Int :=
  let k := 66 + bitLen n
  let x := m <<< k
  (2 * (x / n) + (if x % n = 0 then 0 else 1), -(k : Int) - 1)

/-- a / b rounded once (R174). -/
def fDiv (md : Rm) (a b : FVal) : Flagged FVal :=
  match a, b with
  | .nan s, y => nanResult (s || y.isSig)
  | _, .nan s => nanResult s
  | .inf _, .inf _ => nanResult true
  | .inf s, .fin t _ _ => ⟨.inf (s != t), .none⟩
  | .fin s _ _, .inf t => ⟨.fin (s != t) 0 0, .none⟩
  | .fin s m e, .fin t n g =>
    if n = 0 then (if m = 0 then nanResult true else ⟨.inf (s != t), .dz⟩)
    else
      let q := quotJam m n
      roundIF36 md (s != t) q.1 (e - g + q.2)

/-- One step of the digit-by-digit integer square root: bring down two bits `d` of the radicand. -/
def sqrtStep (st : Nat × Nat) (d : Nat) : Nat × Nat :=
  let rem := 4 * st.2 + d
  let t := 4 * st.1 + 1
  if t ≤ rem then (2 * st.1 + 1, rem - t) else (2 * st.1, rem)

/-- The integer square root of a number below `4^k`, and the remainder. -/
def sqrtBits : Nat → Nat → Nat × Nat
  | 0, _ => (0, 0)
  | k + 1, x => sqrtStep (sqrtBits k (x / 4)) (x % 4)

/-- The square root of `m * 2^e` (`m` positive) as a dyadic magnitude whose last bit says that something lies below
it, at least 60 bits long. -/
def sqrtJam (m : Nat) (e : Int) : Nat × Int :=
  let k : Nat := if e % 2 = 0 then 120 else 121
  let r := sqrtBits (bitLen m / 2 + 62) (m <<< k)
  (2 * r.1 + (if r.2 = 0 then 0 else 1), (e - k) / 2 - 1)

/-- The square root rounded once (R174). -/
def fSqrt (md : Rm) (a : FVal) : Flagged FVal :=
  match a with
  | .nan s => nanResult s
  | .inf s => if s then nanResult true else ⟨.inf false, .none⟩
  | .fin s m e =>
    if m = 0 then ⟨.fin s 0 0, .none⟩
    else if s then nanResult true
    else
      let r := sqrtJam m e
      roundIF36 md false r.1 r.2

/-- 1 / √(m * 2^e) as a jammed magnitude: the square root of the reciprocal taken to many bits. -/
def rsqrtJam (m : Nat) (e : Int) : Nat × Int :=
  -- 1/√(m·2^e) = √(2^(2k) / m) · 2^(-k) · 2^(-e/2), e even
  let odd := decide (e % 2 ≠ 0)
  let m := if odd then 2 * m else m
  let e := if odd then e - 1 else e
  let k := bitLen m + 64
  let x := 2 ^ (2 * k)
  let r := sqrtBits (k + 1) (x / m)
  let exact := decide (r.2 = 0) && decide (x % m = 0)
  (2 * r.1 + (if exact then 0 else 1), -(k : Int) - e / 2 - 1)

/-- The reciprocal square root rounded once (R174). -/
def fRsqrt (md : Rm) (a : FVal) : Flagged FVal :=
  match a with
  | .nan s => nanResult s
  | .inf s => if s then nanResult true else ⟨.fin false 0 0, .none⟩
  | .fin s m e =>
    if m = 0 then ⟨.inf s, .dz⟩
    else if s then nanResult true
    else
      let r := rsqrtJam m e
      roundIF36 md false r.1 r.2

/-- a * 2^n rounded once (R174). -/
def fScale (md : Rm) (a : FVal) (n : Int) : Flagged FVal :=
  match a with
  | .nan s => nanResult s
  | .inf s => ⟨.inf s, .none⟩
  | .fin s m e => roundIF36 md s m (e + n)

/-- A finite magnitude `m * 2^e` rounded to an integer, and whether that changed it. -/
def roundInt (md : Rm) (neg : Bool) (m : Nat) (e : Int) : Nat × Bool :=
  if 0 ≤ e then (m <<< e.toNat, false) else roundShift md neg m (-e).toNat

/-- Rounding to an integral value, which carries the sign of its operand and raises inexact only (R174). -/
def fRound (md : Rm) (a : FVal) : Flagged FVal :=
  match a with
  | .nan s => nanResult s
  | .inf s => ⟨.inf s, .none⟩
  | .fin s m e =>
    let r := roundInt md s m e
    ⟨.fin s r.1 0, .inxIf r.2⟩

/-- How two values compare (R94): unordered, or the order of their exact values, +0 equal to -0. -/
inductive FOrder where
  | lt | eq | gt | un
deriving DecidableEq, Repr

/-- Compare two values. -/
def fOrder (a b : FVal) : FOrder :=
  match a, b with
  | .nan _, _ => .un
  | _, .nan _ => .un
  | .inf s, .inf t => if s = t then .eq else if s then .lt else .gt
  | .inf s, .fin _ _ _ => if s then .lt else .gt
  | .fin _ _ _, .inf t => if t then .gt else .lt
  | .fin s m e, .fin t n g =>
    let x : Dyadic := ⟨signed s m, e⟩
    let y : Dyadic := ⟨signed t n, g⟩
    if x.lt y then .lt else if y.lt x then .gt else .eq

/-- The lesser of two values that are not NaN, -0 below +0 (R175, R244). -/
def fLess (a b : FVal) : Bool :=
  match fOrder a b with
  | .lt => true
  | .gt => false
  | .un => false
  | .eq => a.isNeg && !b.isNeg

end Sys2Proof.Machine
end

