-- ==== Sys2Proof/Syntax.lean ====
section
/-! DEFINITION. The instruction set of the Merredy 960 as syntax: one constructor per row of
spec/opcode_table.json. Fabric words (spec 03 R89) and sequencer words (R98) carry the fields of their encoding,
read once by the decoder; the table's other rows are steps the part takes of itself or that its surroundings
cause (spec 95), and carry what they name. -/

namespace Sys2Proof

/-- Lane types of a fabric word (R90). -/
inductive LaneTy where
  | none | i8 | i16 | i32 | n8 | n16 | n32 | f | b32
deriving DecidableEq, Repr

/-- Gap rules (R66, R89). -/
inductive Gap where
  | refuse | hold | interp | once
deriving DecidableEq, Repr

/-- Predicate match (R69). -/
inductive Pm where
  | none | onTrue | onFalse
deriving DecidableEq, Repr

/-- Ports of a block slot (R7, R91). -/
inductive Port where
  | a | b | c | p
deriving DecidableEq, Repr

/-- A target: a slot and a port of it (R91). -/
structure Target where
  slot : BitVec 7
  port : Port
deriving DecidableEq, Repr

/-- The fields of a fabric word under its opcode (R89): type, gap rules, predicate match, targets, the immediate-form
bit I, mod[2:0] and the immediate. -/
structure Fab where
  ty : LaneTy
  ga : Gap
  gb : Gap
  pm : Pm
  t0 : Option Target
  t1 : Option Target
  imf : Bool
  sub : BitVec 3
  imm : BitVec 24
deriving DecidableEq, Repr

/-- The wait and signal fields of a sequencer word (R98). -/
structure Hdr where
  we : Bool
  wsem : BitVec 8
  wthr : BitVec 15
  se : Bool
  ssem : BitVec 8
  inc : BitVec 7
deriving DecidableEq, Repr

/-- Operand layout A (R101), bit 64 included so that a word with it set can be told from one without. -/
structure OpA where
  qd : BitVec 5
  qs : BitVec 5
  qt : BitVec 5
  b64 : Bool
  imm : BitVec 64
deriving DecidableEq, Repr

/-- Operand layout E (R101). -/
structure OpE where
  qd : BitVec 5
  qs : BitVec 5
  qt : BitVec 5
  qv : BitVec 5
  unit : BitVec 4
  sub : BitVec 8
  imm : BitVec 48
deriving DecidableEq, Repr

/-- A register write by the system cores or the PF (R407, R410): register address and value. -/
structure RegWrite where
  addr : Nat
  value : Word64
deriving DecidableEq, Repr

/-- A decoded video frame as its decoder puts it out (R385, R386): capture time, size, planes' bytes, and whether an
error was concealed. -/
structure Frame where
  capns : Word64
  width : Nat
  height : Nat
  luma : List Byte
  chroma : List Byte
  concealed : Bool
deriving DecidableEq, Repr

/-- A function of the host interface (R437). -/
inductive HostFn where
  | pf
  | vf (p : Nat)
deriving DecidableEq, Repr

/-- A read of `n` bytes or a write of bytes, at a byte offset (R437, R447). -/
inductive HostAcc where
  | read (off n : Nat)
  | write (off : Nat) (data : List Byte)
deriving DecidableEq, Repr

/-- One constructor per row of spec/opcode_table.json. -/
inductive Instr where
  /-- POWER_ON_RESET (R456): The module applies power and releases reset; every register takes its reset value and system core 0 runs the boot ROM. -/
  | powerOnReset (writes : List RegWrite)
  /-- THERMAL_LIMIT (R463): A junction sensor passes its limit and the module removes power, which is a cold reset. -/
  | thermalLimit
  /-- ATTESTATION_REPORT (R462): On a system-core request the security engine signs a 128-byte report body with both identity keys. -/
  | attestationReport (nonce : List Byte)
  /-- DTIME_ADJUST (R461): A write to SYS_DTADJ adds a positive offset at once, or absorbs a negative offset at half rate; a new write replaces any remainder. -/
  | dtimeAdjust (off : Word64)
  /-- TSYNC_START (R461): A write to LNK_TSYNC starts one time-sync exchange on port k. -/
  | tsyncStart (port : Nat) (v : Word64)
  /-- TSYNC_REQUEST_ARRIVAL (R461): The answering port stamps T2 on a time-sync request and returns a reply carrying T1, T2 and T3. -/
  | tsyncRequestArrival (port : Nat) (t1 : Word64)
  /-- TSYNC_REPLY (R461): A time-sync reply arrives; the port records T4 and writes T1 to T4 and a done word to the HBM block. -/
  | tsyncReply (port : Nat) (t1 t2 t3 : Word64)
  /-- LAUNCH_DOORBELL (R440): A write to SYS_LQWIDX advances a launch queue's write index, or is refused and sets ERR. -/
  | launchDoorbell (p k : Nat) (v : Word64)
  /-- LAUNCH_RECORD_TAKE (R440): The arbiter reads record RIDX with an acquire, advances RIDX and judges the launch record and its graph. -/
  | launchRecordTake (p k : Nat)
  /-- LAUNCH_START (R45): Once every reservation of a waiting launch succeeds, the arbiter reserves them, places and configures its stages and starts it. -/
  | launchStart (l : Nat)
  /-- PRIORITY_AGING (R79): Every 2 ms of waiting raises a launch's effective priority by one, up to 7. -/
  | priorityAging (l : Nat)
  /-- LAUNCH_END (R73): When every sink holds END of level 0 and every acknowledgement count is zero, the arbiter releases reservations, gathers flags and writes the completion record. -/
  | launchEnd (l : Nat)
  /-- PHASE_END (R51): The region's quiescence tree and owed acknowledgements reach empty; the next configuration context is chosen from the last select token, or the region stops. -/
  | phaseEnd (r : Nat)
  /-- REPLICA_ADD (R53): After 4,096 cycles with input occupancy above HIGH, a stage below max gains an instance at a cut. -/
  | replicaAdd (l stage : Nat)
  /-- REPLICA_REMOVE (R53): After 4,096 cycles with input occupancy below LOW, a stage above min loses its highest instance. -/
  | replicaRemove (l stage : Nat)
  /-- RANGE_SPLIT_REQUEST (R272): A request from an idle RANGE expand reaches its home sequencer, which splits the longest remaining range of a victim. -/
  | rangeSplitRequest (r slot : Nat)
  /-- TURN_CHANGE (R57): At the end of a 65,536-cycle quantum, or at once when a quad has nothing to run, the physical quad saves the outgoing logical quad and restores the next. -/
  | turnChange (pq : Nat)
  /-- TOKEN_ARRIVAL (R65): A token arrives at a port; its order is checked, it joins the waiting list, firings are found and used tokens are discarded. -/
  | tokenArrival (r slot port : Nat)
  /-- SPILL_RETURN (R135): A spilled token returns to a freed way of its set, after 6 or 20 cycles. -/
  | spillReturn (r pe set : Nat)
  /-- DEADLOCK_DETECT (R404): After 2^20 consecutive cycles with a full buffer, no firing and no work in progress, the region faults DEADLOCK. -/
  | deadlockDetect (r : Nat)
  /-- REPLAY_POINT (R400): At a cycle boundary where the region holds only held tokens and owes nothing, it copies its state into the replay copy and empties its retention. -/
  | replayPoint (r : Nat)
  /-- FAULT_RECORD_WRITE (R393): A waiting fault, trap or event record is written to the partition's fault ring when room exists, and WIDX rises. -/
  | faultRecordWrite (p : Nat)
  /-- MEMORY_REQUEST_ACCEPT (R226): A request token reaches its entry MT, which translates it, checks alignment and access tables and forwards its parts to their homes. -/
  | memoryRequestAccept (lq mt : Nat)
  /-- PAGE_WALK_COMPLETE (R201): A page walk returns and every request waiting on its miss-status entry that the page covers proceeds. -/
  | pageWalkComplete (pq n : Nat)
  /-- ACCESS_PERFORM_AT_HOME (R206): A read or write is performed at the home of its bytes and its reply or acknowledgement returns. -/
  | accessPerformAtHome (id : Nat)
  /-- RMW_PIPELINE_UPDATE (R230): An ATOM or RED enters the home read-modify-write pipeline and its update is applied in sequence. -/
  | rmwPipelineUpdate (id : Nat)
  /-- MT_REPLY_RELEASE (R227): The entry MT releases a slot's replies, acknowledgements and FAULT tokens in firing order from its reorder window. -/
  | mtReplyRelease (r slot : Nat)
  /-- STAIR_TRANSFER_FAILURE (R221): A stair transfer fails its retry; the segment is retired and the bank's evacuation to HBM begins, stalling its accesses. -/
  | stairTransferFailure (pq bank : Nat)
  /-- EVACUATION_COMPLETE (R221): The 4 ms bank copy ends; the redirect entry is set and stalled accesses proceed to the slot. -/
  | evacuationComplete (hall slot : Nat)
  /-- PREEMPTION_DECISION (R415): The arbiter chooses victims for a higher-priority waiting launch and freezes them. -/
  | preemptionDecision (l : Nat)
  /-- PREEMPT_READOUT_COMPLETE (R422): A quad's readout over the CFN ends and the quad is released to other work. -/
  | preemptReadoutComplete (image lq : Nat)
  /-- LATE_REPLY_INTO_IMAGE (R419): A reply arriving after readout of its MT is written into the image as a late reply. -/
  | lateReplyIntoImage (image id : Nat)
  /-- LAUNCH_RESTORE (R427): When the image's resources are free, the restore writes back tags, state, tokens and commands and ungates the clocks. -/
  | launchRestore (l : Nat)
  /-- BCE_COMMAND_START (R281): A BCE channel starts its next command, reads and checks its records and raises SEQ of its write pointer. -/
  | bceCommandStart (lq ch : Nat)
  /-- BCE_GRANULE_TRANSFER (R284): The BCE moves one granule of a command and advances BYTES, fencing the command if an owner tag refuses a write. -/
  | bceGranuleTransfer (lq ch : Nat)
  /-- BCE_COMMAND_COMPLETE (R278): All writes of a BCE command are performed; any publication is made, a COPYMX follow-on is submitted and the signal applies. -/
  | bceCommandComplete (lq ch : Nat)
  /-- MXT_COMMAND_START (R316): An MXT starts its next command, checks the node and the operands, and may join a multicast. -/
  | mxtCommandStart (lq m : Nat)
  /-- MXT_GROUP_APPLY (R308): At a group boundary the MXT applies a group of 8 K-steps to the node, or stalls when the overflow buffer cannot take it. -/
  | mxtGroupApply (lq m : Nat)
  /-- ACCOUT_TOKEN_EMIT (R319): An ACCOUT emits its next row-group token, or its END, when the target accepts. -/
  | accoutTokenEmit (lq m : Nat)
  /-- CRU_LEAF_ARRIVAL (R337): A leaf reaches the root CRU and is matched to its instance; when all leaves are present, or as a correction, the root delivers. -/
  | cruLeafArrival (p n : Nat)
  /-- CRU_DEADLINE (R337): DTIME reaches DEADLINE at the root while leaves are missing, and the root delivers by MODE. -/
  | cruDeadline (p gid : Nat)
  /-- PSE_COMMAND_PERFORM (R352): A tree performs its next command in sequence order, with its whole effect, and the command completes. -/
  | pseCommandPerform (hall tree : Nat)
  /-- GME_COMMAND_PERFORM (R364): A GME performs its next accepted command whole, and the command completes. -/
  | gmeCommandPerform (hall : Nat)
  /-- VIE_FRAME_DECODED (R385): A decoder outputs a frame, which takes its span, size check and slot, is written and is queued to the bound input. -/
  | vieFrameDecoded (stream : Nat) (frame : Frame)
  /-- VIE_FRAME_JUDGE (R387): A frame token reaching its bound INPUT is judged stale and dropped, or delivered. -/
  | vieFrameJudge (stream : Nat)
  /-- HOST_ACCESS (R438): A posted write, read or doorbell from a host function is received and performed in order. -/
  | hostAccess (fn : HostFn) (acc : HostAcc)
  /-- CXL_MEM_ACCESS (R447): An incoming host CXL.mem access is translated through the export window and checked at its target. -/
  | cxlMemAccess (p off : Nat) (acc : HostAcc)
  /-- LINK_FLIT_RECEIVE (R452): A port receives a flit, checks its CRC and drops a malformed one, or has it resent once. -/
  | linkFlitReceive (port : Nat) (flit : List Byte)
  /-- PEER_REQUEST_ARRIVAL (R453): A peer request passes the replay filter: it is performed, answered from the cache, or dropped as stale. -/
  | peerRequestArrival (port : Nat)
  /-- LINK_RESEND_TIMEOUT (R453): A source with no reply after 20 us resends the request; after the third resend the port is lost. -/
  | linkResendTimeout (port seq : Nat)
  /-- LINK_RETRAIN_TIMEOUT (R452): A port that does not retrain within 1 ms is lost. -/
  | linkRetrainTimeout (port : Nat)
  /-- PARTITION_RESET (R455): A GO write to SYS_PRESET stops launches, discards work, drains traffic and scrubs the partition's state. -/
  | partitionReset (p : Nat)
  /-- PARTITION_RESET_DONE (R455): Once traffic has drained, BUSY clears, PF vector 0 is raised and held vectors send. -/
  | partitionResetDone (p : Nat)
  /-- QSQ_START (R253): A write to QSQ_START sets each named halted or trapped queue running at its PC. -/
  | qsqStart (lq : Nat) (v : Word64)
  /-- QSQ_PC_WRITE (R253): A write to QSQ_PC takes effect only while the queue is HALTED or TRAPPED. -/
  | qsqPcWrite (lq q : Nat) (v : Word64)
  /-- QSQ_QCTL_WRITE (R451): A write to QSQ_QCTL sets PRIO and changes CTX only to a context held for the queue's partition. -/
  | qsqQctlWrite (lq q : Nat) (v : Word64)
  /-- SEM_WRITE (R253): A write to a SEM register acts as SEMSET. -/
  | semWrite (lq n : Nat) (v : Word64)
  /-- QSQ_MXMODE_WRITE (R299): A SYSWR to QSQ_MXMODE is ignored where MXCFG mode would refuse the value. -/
  | qsqMxmodeWrite (lq q : Nat) (v : Word64)
  /-- BCE_RESUME (R297): RESUME in BCE_CHCTL reissues a fenced command, or drops a faulted command and starts the next. -/
  | bceResume (lq ch : Nat)
  /-- BCE_DISCARD (R297): DISCARD in BCE_CHCTL drops the current and queued commands of a fenced or faulted channel without signals. -/
  | bceDiscard (lq ch : Nat)
  /-- PE_BRK_RELEASE (R406): A write to PE_BRK releases every held BRK firing of the PE. -/
  | peBrkRelease (pq pe : Nat)
  /-- SYS_LQPART_WRITE (R450): A write assigning a logical quad takes effect only on an idle quad, and resets its sequencer state. -/
  | sysLqpartWrite (lq : Nat) (v : Word64)
  /-- SYS_CTXOWN_WRITE (R451): A write may hold a free context for system software or free one so held, and is otherwise ignored. -/
  | sysCtxownWrite (c : Nat) (v : Word64)
  /-- SYS_SAVE_WRITE (R416): A write to SYS_SAVE is ignored while any image occupies the save area. -/
  | sysSaveWrite (p : Nat) (v : Word64)
  /-- SYS_LQBASE_WRITE (R439): A write to a launch queue's ring base is ignored while the queue holds records. -/
  | sysLqbaseWrite (p k : Nat) (v : Word64)
  /-- QOS_WORD_WRITE (R445): A QoS word write is ignored if the MIN values would sum above 255. -/
  | qosWordWrite (a : Nat) (v : Word64)
  /-- REGISTER_WRITE (R410): A write to any register without a row of its own takes effect at a cycle boundary of its unit. -/
  | registerWrite (a : Nat) (v : Word64)
  /-- INPUT (R141): Delivers an input's tokens in channel order, or an argument token and END for an unfed input. -/
  | input (f : Fab)
  /-- OUTPUT (R142): Sends every token on port a into its output channel or the phase-select output. -/
  | output (f : Fab)
  /-- CONST (R143): Emits a DATA token with the immediate in every lane for each trigger. -/
  | const (f : Fab)
  /-- NULLGEN (R143): Emits a NULL token for each trigger. -/
  | nullgen (f : Fab)
  /-- COPY (R144): Forwards each token on port a to one or two targets. -/
  | copy (f : Fab)
  /-- DROP (R144): Consumes each token on port a and emits nothing. -/
  | drop (f : Fab)
  /-- STEER (R145): Routes a data token to the true or false arm by the control predicate, with NULLs in paired mode. -/
  | steer (f : Fab)
  /-- MERGE (R146): Joins two streams in paired, arrival or round-robin mode. -/
  | merge (f : Fab)
  /-- OMERGE (R147): Interleaves two streams by span, keeping each span. -/
  | omerge (f : Fab)
  /-- LCARRY (R150): Starts a loop instance and carries its back-edge values with advancing spans. -/
  | lcarry (f : Fab)
  /-- LEXIT (R151): Sends a value to the exit or the back edge by the condition predicate. -/
  | lexit (f : Fab)
  /-- ENDS (R152): Forwards a token and, on a true marker, emits END of the given level. -/
  | ends (f : Fab)
  /-- GATE (R149): Passes a's token over each overlap with a token on port b. -/
  | gate (f : Fab)
  /-- SEL (R148): Chooses port a or b per token or per lane under control of port c. -/
  | sel (f : Fab)
  /-- JOIN (R149): Emits a BARRIER token over the overlap of its ports. -/
  | join (f : Fab)
  /-- BARTOK (R153): Counts a task's arrival at a launch-level barrier and emits BARRIER tokens when a generation completes. -/
  | bartok (f : Fab)
  /-- SPANSET (R154): Forwards a token with a span taken from its lanes. -/
  | spanset (f : Fab)
  /-- SPANSHIFT (R154): Forwards a token with its span shifted by d times 16^k. -/
  | spanshift (f : Fab)
  /-- SPANCLIP (R154): Forwards a token with its span clipped to length L. -/
  | spanclip (f : Fab)
  /-- STALE (R155): Tests a token against DTIME and drops or marks a stale one. -/
  | stale (f : Fab)
  /-- RANGE_MAKE (R156): Converts a DATA token into a closed RANGE token. -/
  | rangeMake (f : Fab)
  /-- RANGE_EXPAND (R156): Expands a RANGE into one DATA token per iteration and an END, asking for more work when empty. -/
  | rangeExpand (f : Fab)
  /-- CTXNEW (R157): Draws a context from the pool and emits its number, or CTX_EXHAUSTED. -/
  | ctxnew (f : Fab)
  /-- CTXFREE (R158): Returns a context drawn by CTXNEW to the pool. -/
  | ctxfree (f : Fab)
  /-- SPAWN (R159): Submits a child launch and emits its status when it completes. -/
  | spawn (f : Fab)
  /-- ADD (R163): Adds lanes, wrapping at the type width. -/
  | add (f : Fab)
  /-- SUB (R163): Subtracts lanes, wrapping at the type width. -/
  | sub (f : Fab)
  /-- MUL (R163): Multiplies lanes, keeping the low bits. -/
  | mul (f : Fab)
  /-- MULH (R163): Returns the high half of the exact lane product. -/
  | mulh (f : Fab)
  /-- MAD (R163): Computes a times b plus c exactly, then wraps once. -/
  | mad (f : Fab)
  /-- DIV (R164): Divides lanes toward zero, with fixed results for zero divisors. -/
  | div (f : Fab)
  /-- REM (R164): Returns the remainder taking the sign of the dividend. -/
  | rem (f : Fab)
  /-- NEG (R163): Negates signed lanes. -/
  | neg (f : Fab)
  /-- ABS (R163): Takes the absolute value of signed lanes. -/
  | abs (f : Fab)
  /-- MIN (R163): Returns the lesser lane value. -/
  | min (f : Fab)
  /-- MAX (R163): Returns the greater lane value. -/
  | max (f : Fab)
  /-- ADDS (R163): Adds lanes with saturation. -/
  | adds (f : Fab)
  /-- SUBS (R163): Subtracts lanes with saturation. -/
  | subs (f : Fab)
  /-- AVG (R163): Averages lanes, rounding halves up. -/
  | avg (f : Fab)
  /-- CMP (R167): Compares lanes under a condition and sets the predicate from lane 0. -/
  | cmp (f : Fab)
  /-- IDX (R168): Forms four addresses from base, scaled index and offset. -/
  | idx (f : Fab)
  /-- AND (R165): Bitwise AND of lanes. -/
  | and (f : Fab)
  /-- OR (R165): Bitwise OR of lanes. -/
  | or (f : Fab)
  /-- XOR (R165): Bitwise XOR of lanes. -/
  | xor (f : Fab)
  /-- NOT (R165): Bitwise complement of lanes. -/
  | not (f : Fab)
  /-- SHL (R165): Shifts lanes left. -/
  | shl (f : Fab)
  /-- SHR (R165): Shifts lanes right, unsigned. -/
  | shr (f : Fab)
  /-- SAR (R165): Shifts lanes right arithmetically. -/
  | sar (f : Fab)
  /-- ROT (R165): Rotates lanes left. -/
  | rot (f : Fab)
  /-- POPC (R165): Counts set bits of each lane. -/
  | popc (f : Fab)
  /-- CLZ (R165): Counts leading zeros of each lane. -/
  | clz (f : Fab)
  /-- CTZ (R165): Counts trailing zeros of each lane. -/
  | ctz (f : Fab)
  /-- BFE (R166): Extracts a bit field. -/
  | bfe (f : Fab)
  /-- BFI (R166): Inserts a bit field. -/
  | bfi (f : Fab)
  /-- FADD (R174): Adds IF36 lanes with one rounding. -/
  | fadd (f : Fab)
  /-- FSUB (R174): Subtracts IF36 lanes with one rounding. -/
  | fsub (f : Fab)
  /-- FMUL (R174): Multiplies IF36 lanes with one rounding. -/
  | fmul (f : Fab)
  /-- FMA (R174): Fused multiply-add with one rounding. -/
  | fma (f : Fab)
  /-- FMIN (R175): Returns the lesser IF36 lane, preferring non-NaN. -/
  | fmin (f : Fab)
  /-- FMAX (R175): Returns the greater IF36 lane, preferring non-NaN. -/
  | fmax (f : Fab)
  /-- FABS (R175): Clears the sign bit. -/
  | fabs (f : Fab)
  /-- FNEG (R175): Inverts the sign bit. -/
  | fneg (f : Fab)
  /-- FCMP (R176): Compares IF36 lanes and sets the predicate from lane 0. -/
  | fcmp (f : Fab)
  /-- FDIV (R174): Divides IF36 lanes with one rounding. -/
  | fdiv (f : Fab)
  /-- FRCP (R174): Computes the reciprocal with one rounding. -/
  | frcp (f : Fab)
  /-- FSQRT (R174): Computes the square root with one rounding. -/
  | fsqrt (f : Fab)
  /-- FRSQ (R174): Computes the reciprocal square root with one rounding. -/
  | frsq (f : Fab)
  /-- FEXP2 (R179): Evaluates 2^x by the table and polynomial algorithm. -/
  | fexp2 (f : Fab)
  /-- FLOG2 (R180): Evaluates log2 by the table and polynomial algorithm. -/
  | flog2 (f : Fab)
  /-- FSIG (R181): Evaluates the sigmoid by the defined algorithm. -/
  | fsig (f : Fab)
  /-- FTANH (R182): Evaluates tanh by the defined algorithm. -/
  | ftanh (f : Fab)
  /-- FSCALE (R174): Multiplies by 2^n with one rounding. -/
  | fscale (f : Fab)
  /-- FCLASS (R177): Writes a class word and sets the predicate by a mask. -/
  | fclass (f : Fab)
  /-- FRND (R174): Rounds to an integral IF36 value. -/
  | frnd (f : Fab)
  /-- PERM (R184): Permutes whole lanes by a pattern. -/
  | perm (f : Fab)
  /-- BCAST (R184): Broadcasts one lane to all lanes. -/
  | bcast (f : Fab)
  /-- LROT (R184): Rotates the lanes of a token. -/
  | lrot (f : Fab)
  /-- LSUM (R185): Sums integer lanes, wrapping once. -/
  | lsum (f : Fab)
  /-- LMAX (R185): Takes the largest lane. -/
  | lmax (f : Fab)
  /-- FLSUM (R185): Sums IF36 lanes in the fixed tree. -/
  | flsum (f : Fab)
  /-- FLDOT (R185): Dot product of two tokens' lanes in the fixed tree. -/
  | fldot (f : Fab)
  /-- CVT (R186): Converts between IF36, integer lanes and storage codes. -/
  | cvt (f : Fab)
  /-- PACK (R187): Packs lane fields into narrower fields. -/
  | pack (f : Fab)
  /-- UNPACK (R187): Unpacks narrow fields into lanes. -/
  | unpack (f : Fab)
  /-- LD (R240): Sends a load request and delivers the converted elements as a reply. -/
  | ld (f : Fab)
  /-- LDC (R240): Loads like LD, performed at home, and taints the reply as a consume. -/
  | ldc (f : Fab)
  /-- ST (R241): Sends a store of converted lanes and receives an acknowledgement. -/
  | st (f : Fab)
  /-- ORD (R239): Turns tokens into an ORDER token for memory ordering. -/
  | ord (f : Fab)
  /-- ATOM (R243): Performs an atomic update at home and replies with the old value. -/
  | atom (f : Fab)
  /-- RED (R245): Performs a reduction at home and returns an acknowledgement. -/
  | red (f : Fab)
  /-- ACQ (R247): Reads at home as an acquire at the given scope. -/
  | acq (f : Fab)
  /-- FENCE (R247): Emits an ORDER token once all earlier accesses of the context are performed. -/
  | fence (f : Fab)
  /-- PUBLISH (R248): Exchanges FRONT and SHADOW of a publish entry after its shadow writes are performed. -/
  | publish (f : Fab)
  /-- PREF (R249): Warms the entry MT's read buffering without a result. -/
  | pref (f : Fab)
  /-- WPTR (R250): Emits the BCE channel's write pointer. -/
  | wptr (f : Fab)
  /-- WAITWP (R250): Holds a token until the BCE write pointer reaches a threshold, then forwards it as an acquire. -/
  | waitwp (f : Fab)
  /-- TRAP (R406): Raises TRAP as a region fault with the immediate. -/
  | trap (f : Fab)
  /-- BRK (R406): Holds the firing and writes a BREAK record until PE_BRK releases it. -/
  | brk (f : Fab)
  /-- LI (R258): Loads a 64-bit immediate into a scalar register. -/
  | li (h : Hdr) (o : OpA)
  /-- ADDI (R258): Adds an immediate to a scalar register. -/
  | addi (h : Hdr) (o : OpA)
  /-- SCALAR_ADD (R258): Adds two scalar registers. -/
  | scalarAdd (h : Hdr) (o : OpA)
  /-- SCALAR_SUB (R258): Subtracts two scalar registers. -/
  | scalarSub (h : Hdr) (o : OpA)
  /-- SCALAR_AND (R258): Bitwise AND of scalar registers. -/
  | scalarAnd (h : Hdr) (o : OpA)
  /-- SCALAR_OR (R258): Bitwise OR of scalar registers. -/
  | scalarOr (h : Hdr) (o : OpA)
  /-- SCALAR_XOR (R258): Bitwise XOR of scalar registers. -/
  | scalarXor (h : Hdr) (o : OpA)
  /-- SCALAR_SHL (R258): Shifts a scalar register left. -/
  | scalarShl (h : Hdr) (o : OpA)
  /-- SCALAR_SHR (R258): Shifts a scalar register right, unsigned. -/
  | scalarShr (h : Hdr) (o : OpA)
  /-- SCALAR_SAR (R258): Shifts a scalar register right, signed. -/
  | scalarSar (h : Hdr) (o : OpA)
  /-- SCALAR_MUL (R258): Multiplies scalar registers mod 2^64. -/
  | scalarMul (h : Hdr) (o : OpA)
  /-- SLT (R258): Sets 1 if less than, signed. -/
  | slt (h : Hdr) (o : OpA)
  /-- SLTU (R258): Sets 1 if less than, unsigned. -/
  | sltu (h : Hdr) (o : OpA)
  /-- LDQ (R259): Loads 8 bytes of memory into a scalar register. -/
  | ldq (h : Hdr) (o : OpA)
  /-- STQ (R259): Stores a scalar register as 8 bytes of memory. -/
  | stq (h : Hdr) (o : OpA)
  /-- BR (R260): Branches by a word offset. -/
  | br (h : Hdr) (o : OpA)
  /-- BRC (R260): Branches when a condition on two registers holds. -/
  | brc (h : Hdr) (o : OpA)
  /-- CALL (R260): Saves the return PC and branches. -/
  | call (h : Hdr) (o : OpA)
  /-- RET (R260): Sets the PC from a register. -/
  | ret (h : Hdr) (o : OpA)
  /-- LOOP (R261): Pushes a hardware loop frame or skips its body. -/
  | loop (h : Hdr) (o : OpA)
  /-- YIELD (R434): Ends a time-slice turn or offers the launch for pre-emption. -/
  | yield (h : Hdr) (o : OpA)
  /-- HALT (R260): Stops the queue. -/
  | halt (h : Hdr) (o : OpA)
  /-- WAIT (R264): Waits on a semaphore by its wait field or an operand wait. -/
  | wait (h : Hdr) (o : OpA)
  /-- SIG (R264): Adds a value to a semaphore at retirement. -/
  | sig (h : Hdr) (o : OpA)
  /-- SEMSET (R264): Sets a semaphore. -/
  | semset (h : Hdr) (o : OpA)
  /-- SEMRD (R264): Reads a semaphore into a register. -/
  | semrd (h : Hdr) (o : OpA)
  /-- NBARR (R266): Arrives at a named barrier, completing a generation when all arrive. -/
  | nbarr (h : Hdr) (o : OpA)
  /-- NBWAIT (R266): Waits until the queue's barrier generation completes. -/
  | nbwait (h : Hdr) (o : OpA)
  /-- TASKDEF (R268): Defines a task table entry. -/
  | taskdef (h : Hdr) (o : OpA)
  /-- TASKDONE (R269): Completes a task and decrements its successors' counters. -/
  | taskdone (h : Hdr) (o : OpA)
  /-- TASKNEXT (R270): Takes the head ready task and branches to it, waits, or falls through. -/
  | tasknext (h : Hdr) (o : OpA)
  /-- LAUNCH (R273): Copies a launch record into a launch queue ring and advances its doorbell. -/
  | launch (h : Hdr) (o : OpE)
  /-- CFGLOAD (R274): Loads a block image into a region's configuration context, optionally starting it. -/
  | cfgload (h : Hdr) (o : OpE)
  /-- QWAIT (R275): Waits until a region stops and returns its stop code. -/
  | qwait (h : Hdr) (o : OpE)
  /-- BCE_COPY (R284): Issues a strided tensor copy to a BCE channel. -/
  | bceCopy (h : Hdr) (o : OpE)
  /-- COPYMX (R288): Issues a copy followed by a matrix command. -/
  | copymx (h : Hdr) (o : OpE)
  /-- COPYSH (R285): Issues a copy to N destinations. -/
  | copysh (h : Hdr) (o : OpE)
  /-- GATHER (R286): Issues a copy whose outer source index comes from a list. -/
  | gather (h : Hdr) (o : OpE)
  /-- SCATTER (R286): Issues a copy whose outer destination index comes from a list. -/
  | scatter (h : Hdr) (o : OpE)
  /-- FILL (R287): Issues a fill of the destination with a value. -/
  | fill (h : Hdr) (o : OpE)
  /-- MMA (R316): Issues a matrix multiply-accumulate into a node. -/
  | mma (h : Hdr) (o : OpE)
  /-- MMAT (R316): Issues a matrix multiply-accumulate with A transposed. -/
  | mmat (h : Hdr) (o : OpE)
  /-- ACCINIT (R317): Initialises an accumulator node and records its destination. -/
  | accinit (h : Hdr) (o : OpE)
  /-- ACCCNT (R318): Sets the release count of a node. -/
  | acccnt (h : Hdr) (o : OpE)
  /-- ACCOUT (R319): Streams a node's rows into a fabric block. -/
  | accout (h : Hdr) (o : OpE)
  /-- ACCDRAIN (R320): Releases a node at once. -/
  | accdrain (h : Hdr) (o : OpE)
  /-- ACCPART (R321): Performs a partial drain of an integer node. -/
  | accpart (h : Hdr) (o : OpE)
  /-- MXCFG_MODE (R322): Writes the queue's matrix mode register. -/
  | mxcfgMode (h : Hdr) (o : OpE)
  /-- MXCFG_POLICY (R322): Writes an MXT's overflow policy and event semaphore. -/
  | mxcfgPolicy (h : Hdr) (o : OpE)
  /-- OVFSTAT (R323): Reads an MXT's overflow state. -/
  | ovfstat (h : Hdr) (o : OpE)
  /-- CRED (R345): Contributes a vector to a collective instance and receives its result. -/
  | cred (h : Hdr) (o : OpE)
  /-- CRFIX (R346): Decides a CHOOSE instance by rescale, await or close. -/
  | crfix (h : Hdr) (o : OpE)
  /-- CRSTAT (R347): Reads the root's state for a group. -/
  | crstat (h : Hdr) (o : OpE)
  /-- STINIT (R357): Makes a priority tree valid, or frees it. -/
  | stinit (h : Hdr) (o : OpE)
  /-- STINS (R358): Inserts priorities into slots, raising generations. -/
  | stins (h : Hdr) (o : OpE)
  /-- STDRAW (R359): Draws a stratified batch of slots. -/
  | stdraw (h : Hdr) (o : OpE)
  /-- STUPD (R358): Updates priorities of slots whose generation matches. -/
  | stupd (h : Hdr) (o : OpE)
  /-- STWGT_BETA (R360): Sets a tree's beta and N. -/
  | stwgtBeta (h : Hdr) (o : OpE)
  /-- STWGT (R360): Writes importance weights for a draw buffer. -/
  | stwgt (h : Hdr) (o : OpE)
  /-- STSTAT (R361): Reads a tree statistic. -/
  | ststat (h : Hdr) (o : OpE)
  /-- PDALOAD (R378): Loads a grammar image into a slot. -/
  | pdaload (h : Hdr) (o : OpE)
  /-- PDASTEP (R376): Advances sequence records by sampled tokens. -/
  | pdastep (h : Hdr) (o : OpE)
  /-- MASK (R373): Writes legal-token masks for sequence records. -/
  | mask (h : Hdr) (o : OpE)
  /-- SAMPLE (R374): Draws one token per record from masked logits. -/
  | sample (h : Hdr) (o : OpE)
  /-- GMCFG (R377): Makes a sampling configuration valid. -/
  | gmcfg (h : Hdr) (o : OpE)
  /-- GMSTAT (R379): Reads a GME count or index. -/
  | gmstat (h : Hdr) (o : OpE)
  /-- VOPEN (R390): Opens a video stream from a descriptor. -/
  | vopen (h : Hdr) (o : OpE)
  /-- VBIND (R390): Binds a stream to a stream input and starts decoding. -/
  | vbind (h : Hdr) (o : OpE)
  /-- VCLOSE (R390): Closes a stream, sending END to its input. -/
  | vclose (h : Hdr) (o : OpE)
  /-- VSTAT (R390): Reads a stream's state or counter. -/
  | vstat (h : Hdr) (o : OpE)
  /-- SYSRD (R410): Reads a device register into a scalar register. -/
  | sysrd (h : Hdr) (o : OpA)
  /-- SYSWR (R410): Writes a device register. -/
  | syswr (h : Hdr) (o : OpA)
  /-- TLBINV (R411): Removes translations of a range and waits until accesses through them are performed. -/
  | tlbInv (h : Hdr) (o : OpA)
  /-- QFLUSH (R412): Halts named queues, discarding their words at issue. -/
  | qflush (h : Hdr) (o : OpA)
  /-- CTXSAVE (R435): Saves a running launch into an image at a given address. -/
  | ctxsave (h : Hdr) (o : OpA)
  /-- CTXLOAD (R436): Restores a launch from a CTXSAVE image. -/
  | ctxload (h : Hdr) (o : OpA)
  /-- EVENT (R413): Writes a software event record and raises it to the system cores. -/
  | event (h : Hdr) (o : OpA)
  /-- MODULE_POWER_LOSS (R30): The module removes power from the package, and every device state is lost. -/
  | modulePowerLoss
  /-- PORT_RETRAINED (R452): A link port that was retraining after a second CRC failure completes its retrain within 1 ms and returns to service. -/
  | portRetrained (port : Nat)
  /-- ACCESS_UNIT_TAKEN (R384): The VIE finds a whole access unit below the acquired write index and advances its read index; it either decodes the unit or, if the unit is undecodable, discards the ring bytes, counts ERR and marks a discontinuity. -/
  | accessUnitTaken (stream : Nat) (decodes : Bool)
deriving DecidableEq, Repr

end Sys2Proof
end

