-- ==== Sys2Proof/Machine/Storage.lean ====
section
/-! DEFINITION. Storage formats and the conversions at the memory edge (spec 04 R112 to R126), and the counter
generator (R124, R125). -/

namespace Sys2Proof.Machine

/-- The four b4 block types, in the order of TYPE (R116). -/
inductive B4 where
  | int | e2m1 | pow2 | hyb
deriving DecidableEq, Repr

/-- Storage formats, in the order of FMT (R112, R233). -/
inductive StFmt where
  | fp32 | fp16 | bf16 | f8e4 | f8e5
  | b4 (t : B4)
  | i32 | i8 | n8 | i4
deriving DecidableEq, Repr

/-- The format of a FMT code; 13 to 15 are reserved (R233). -/
def StFmt.ofCode (c : Nat) : Option StFmt :=
  match c with
  | 0 => some .fp32
  | 1 => some .fp16
  | 2 => some .bf16
  | 3 => some .f8e4
  | 4 => some .f8e5
  | 5 => some (.b4 .int)
  | 6 => some (.b4 .e2m1)
  | 7 => some (.b4 .pow2)
  | 8 => some (.b4 .hyb)
  | 9 => some .i32
  | 10 => some .i8
  | 11 => some .n8
  | 12 => some .i4
  | _ => none

/-- A format whose elements are floating values. -/
def StFmt.isFloat : StFmt → Bool
  | .i32 => false
  | .i8 => false
  | .n8 => false
  | .i4 => false
  | _ => true

/-- The narrow formats, which SR may round to (R120). -/
def StFmt.isNarrow : StFmt → Bool
  | .fp16 => true
  | .bf16 => true
  | .f8e4 => true
  | .f8e5 => true
  | .b4 _ => true
  | _ => false

/-- The three formats that follow IEEE 754 (R113). -/
def StFmt.bin : StFmt → Option BinFmt
  | .fp32 => some .fp32
  | .fp16 => some .fp16
  | .bf16 => some .bf16
  | _ => none

/-- Width in bits of one code in a lane (R186). -/
def StFmt.width : StFmt → Nat
  | .fp32 => 32
  | .fp16 => 16
  | .bf16 => 16
  | .f8e4 => 8
  | .f8e5 => 8
  | .b4 _ => 4
  | .i32 => 32
  | .i8 => 8
  | .n8 => 8
  | .i4 => 4

/-- The value of an IEEE code, with `w` bits in all (R113). -/
def ofBin (f : BinFmt) (w x : Nat) : FVal :=
  let fb := f.p - 1
  let eb := w - f.p
  let s := bit x (w - 1)
  let e := (x >>> fb) % 2 ^ eb
  let m := x % 2 ^ fb
  if e = 2 ^ eb - 1 then (if m = 0 then .inf s else .nan (!bit m (fb - 1)))
  else if e = 0 then .fin s m (if m = 0 then 0 else f.emin - fb)
  else .fin s (2 ^ fb + m) (f.emin + (e : Int) - 1 - fb)

/-- The IEEE code of a value the format holds, its NaN being the canonical quiet one (R113). -/
def toBin (f : BinFmt) (w : Nat) : FVal → Nat
  | .nan _ => (2 ^ (w - f.p) - 1) * 2 ^ (f.p - 1) + 2 ^ (f.p - 2)
  | .inf s => b2n s * 2 ^ (w - 1) + (2 ^ (w - f.p) - 1) * 2 ^ (f.p - 1)
  | .fin s m e =>
    let q := binFields f m e
    b2n s * 2 ^ (w - 1) + q.1 * 2 ^ (f.p - 1) + q.2

/-- An IEEE rounding of a value, infinities and NaNs kept (R113). -/
def cvtBin (f : BinFmt) (w : Nat) (md : Rm) (v : FVal) : Nat × ExFlags :=
  match v with
  | .nan s => (toBin f w v, .invIf s)
  | .inf _ => (toBin f w v, .none)
  | .fin s m e =>
    let r := roundBin f md s m e
    (toBin f w r.val, r.flags)

/-- A finite value set with codes: integers in units of `2^unit`, each with its code; the member 0 has code 0. -/
structure ValSet where
  unit : Int
  vals : List (Int × Nat)
deriving DecidableEq, Repr

/-- The value of an f8 byte in units of `2^(-bias-mb)` (R114). -/
def f8Units (mb x : Nat) : Int :=
  if x = 0 then 0
  else signed (bit x 7) ((2 ^ mb + x % 2 ^ mb) * 2 ^ ((x % 128) >>> mb))

/-- The value set of f8e4 or f8e5: every byte but the NaN (R114, R115). -/
def f8Set (mb : Nat) (bias : Int) : ValSet :=
  ⟨-bias - mb, ((List.range 256).filter fun x => x ≠ 128).map fun x => (f8Units mb x, x)⟩

/-- The code values of R117 in eighths, codes 0 to 15; the NaN of b4.e2m1 stands as `none`. -/
def b4Eighths : B4 → List (Option Int)
  | .int => [0, 8, 16, 24, 32, 40, 48, 56, -64, -56, -48, -40, -32, -24, -16, -8].map some
  | .e2m1 => ([0, 6, 8, 12, 16, 24, 32, 48].map some) ++ none :: ([-6, -8, -12, -16, -24, -32, -48].map some)
  | .pow2 => [0, 1, 2, 4, 8, 16, 32, 64, 0, -1, -2, -4, -8, -16, -32, -64].map some
  | .hyb => [0, 8, 16, 24, 32, 48, 64, 96, -4, -8, -16, -24, -32, -48, -64, -96].map some

/-- The value set of a b4 type, its zero only under code 0 (R117, R119). -/
def b4Set (t : B4) : ValSet :=
  ⟨-3, ((b4Eighths t).zipIdx.filterMap fun e => e.1.map fun v => (v, e.2)).filter fun e => e.1 ≠ 0 || e.2 == 0⟩

/-- The fit range of a b4 type (R117). -/
def b4Fit : B4 → Int × Int
  | .int => (-8, 7)
  | .e2m1 => (-6, 6)
  | .pow2 => (-8, 8)
  | .hyb => (-12, 12)

/-- The greatest member at or below `y`, compared as `v * k ≤ y`. -/
def floorIn (k y : Int) : List (Int × Nat) → Option (Int × Nat)
  | [] => none
  | v :: vs =>
    let r := floorIn k y vs
    if v.1 * k ≤ y then
      match r with
      | some u => if u.1 < v.1 then some v else some u
      | none => some v
    else r

/-- The least member at or above `y`. -/
def ceilIn (k y : Int) : List (Int × Nat) → Option (Int × Nat)
  | [] => none
  | v :: vs =>
    let r := ceilIn k y vs
    if y ≤ v.1 * k then
      match r with
      | some u => if v.1 < u.1 then some v else some u
      | none => some v
    else r

/-- The choice between two neighbours `lo < y < hi`, values scaled by `k` (R121 to R123). -/
def pickNeighbour (md : Rm) (k y : Int) (lo hi : Int × Nat) : Int × Nat :=
  let twice := 2 * y - (lo.1 + hi.1) * k
  match md with
  | .rne =>
    if twice < 0 then lo else if 0 < twice then hi
    else if lo.2 % 2 = 0 && hi.2 % 2 = 0 then (if lo.1.natAbs ≤ hi.1.natAbs then lo else hi)
    else if lo.2 % 2 = 0 then lo else hi
  | .rtz => if 0 ≤ lo.1 then lo else hi
  | .rup => hi
  | .rdn => lo
  | .sr r => if (r : Int) * ((hi.1 - lo.1) * k) < (y - lo.1 * k) * 2 ^ 24 then hi else lo

/-- The smallest nonzero magnitude of a set, in its units (R127). -/
def ValSet.least (s : ValSet) : Nat :=
  (s.vals.map fun v => v.1.natAbs).foldl (fun a b => if b = 0 then a else if a = 0 then b else Nat.min a b) 0

/-- Round a number within the range of a value set (R121): its code and flags (R127). -/
def ValSet.round (s : ValSet) (md : Rm) (d : Dyadic) : Nat × ExFlags :=
  let e := min s.unit d.exp
  let y := d.num * 2 ^ (d.exp - e).toNat
  let k : Int := 2 ^ (s.unit - e).toNat
  match floorIn k y s.vals, ceilIn k y s.vals with
  | some lo, some hi =>
    if lo.1 = hi.1 then (lo.2, .none)
    else
      let v := pickNeighbour md k y lo hi
      -- below the smallest nonzero member, or a nonzero number that rounds to zero (R127)
      let small := decide ((y.natAbs : Int) < s.least * k) || decide (v.1 = 0)
      (v.2, ⟨false, small, true, false, false⟩)
  | some lo, none => (lo.2, .ovf)
  | none, some hi => (hi.2, .ovf)
  | none, none => (0, .none)

/-- IF36 to f8e4 or f8e5 (R115), given by its mantissa bits and bias. -/
def cvtF8 (mb : Nat) (bias : Int) (md : Rm) (v : FVal) : Nat × ExFlags :=
  match v with
  | .nan sig => (0x80, .invIf sig)
  | .inf neg => (if neg then 0xFF else 0x7F, .ovf)
  | .fin neg m e =>
    if m = 0 then (0, .none)
    else if Dyadic.lt ⟨f8Units mb 0x7F, -bias - mb⟩ ⟨m, e⟩ then (if neg then 0xFF else 0x7F, .ovf)
    else (f8Set mb bias).round md ⟨signed neg m, e⟩

/-- Whether an exact number lies within a fit range scaled by `2^s` (R118). -/
def fits (t : B4) (s : Int) (d : Dyadic) : Bool :=
  Dyadic.le ⟨(b4Fit t).1, s⟩ d && Dyadic.le d ⟨(b4Fit t).2, s⟩

/-- The scale exponent of a b4 store (R118): the least that fits every finite element. -/
def b4Scale (t : B4) (xs : List FVal) : Int :=
  let cand := xs.filterMap fun x => match x with
    | .fin n m e => some (⟨signed n m, e⟩ : Dyadic)
    | _ => none
  if cand.all fun d => d.num = 0 then -32
  else
    match ((List.range 64).map fun (i : Nat) => (i : Int) - 32).find? fun s => cand.all (fits t s) with
    | some s => s
    | none => 31

/-- The code of the nearer end of a b4 type's range, with its flags (R119). -/
def b4End (t : B4) (neg : Bool) : Nat × ExFlags :=
  ((b4Set t).round .rne ⟨if neg then (b4Fit t).1 else (b4Fit t).2, 0⟩ |>.1, .ovf)

/-- One element of a b4 block with scale `2^s` (R119). -/
def cvtB4 (t : B4) (s : Int) (md : Rm) (v : FVal) : Nat × ExFlags :=
  match v with
  | .nan sig => if t = .e2m1 then (8, .invIf sig) else (0, .inv)
  | .inf neg => b4End t neg
  | .fin neg m e =>
    if m = 0 then (0, .none)
    else
      let d : Dyadic := ⟨signed neg m, e - s⟩
      if fits t 0 d then (b4Set t).round md d else b4End t neg

/-- The exact value of a b4 code under scale `2^s`; no code is -0 (R117). -/
def ofB4 (t : B4) (s : Int) (c : Nat) : FVal :=
  match (b4Eighths t)[c % 16]? with
  | some (some v) => .fin (decide (v < 0)) v.natAbs (if v = 0 then 0 else s - 3)
  | _ => .nan false

/-- The value of an f8 byte (R114). -/
def ofF8 (mb : Nat) (bias : Int) (x : Nat) : FVal :=
  if x = 0 then .fin false 0 0
  else if x = 128 then .nan false
  else .fin (bit x 7) (f8Units mb x).natAbs (-bias - mb)

/-- The value of a code of a float format; b4 codes take the scale `s` (R113, R114, R117). -/
def ofCode (f : StFmt) (s : Int) (x : Nat) : FVal :=
  match f with
  | .fp32 => ofBin .fp32 32 (x % 2 ^ 32)
  | .fp16 => ofBin .fp16 16 (x % 2 ^ 16)
  | .bf16 => ofBin .bf16 16 (x % 2 ^ 16)
  | .f8e4 => ofF8 3 7 (x % 256)
  | .f8e5 => ofF8 2 15 (x % 256)
  | .b4 t => ofB4 t s x
  | .i32 => .nan false
  | .i8 => .nan false
  | .n8 => .nan false
  | .i4 => .nan false

/-- A float code loaded into a lane (R113): a signalling NaN raises invalid. -/
def loadFloat (f : StFmt) (s : Int) (x : Nat) : Flagged Lane :=
  let v := ofCode f s x
  ⟨toIF36 v, .invIf v.isSig⟩

/-- The code of a value in a float format (R113, R115, R119). -/
def toCode (f : StFmt) (s : Int) (md : Rm) (v : FVal) : Nat × ExFlags :=
  match f with
  | .fp32 => cvtBin .fp32 32 md v
  | .fp16 => cvtBin .fp16 16 md v
  | .bf16 => cvtBin .bf16 16 md v
  | .f8e4 => cvtF8 3 7 md v
  | .f8e5 => cvtF8 2 15 md v
  | .b4 t => cvtB4 t s md v
  | .i32 => (0, .none)
  | .i8 => (0, .none)
  | .n8 => (0, .none)
  | .i4 => (0, .none)

/-- Multipliers and increments of Philox-4×32-10 on one round (R124). -/
structure PhiloxState where
  k0 : Nat
  k1 : Nat
  c0 : Nat
  c1 : Nat
  c2 : Nat
  c3 : Nat
deriving DecidableEq, Repr

/-- One round on the counter words with the keys as they stand. -/
def philoxRound (s : PhiloxState) : PhiloxState :=
  let p := 0xD2511F53 * s.c0
  let q := 0xCD9E8D57 * s.c2
  { s with
    c0 := ((bits q 63 32) ^^^ s.c1) ^^^ s.k0
    c1 := bits q 31 0
    c2 := ((bits p 63 32) ^^^ s.c3) ^^^ s.k1
    c3 := bits p 31 0 }

/-- The key schedule between rounds. -/
def philoxBump (s : PhiloxState) : PhiloxState :=
  { s with k0 := (s.k0 + 0x9E3779B9) % 2 ^ 32, k1 := (s.k1 + 0xBB67AE85) % 2 ^ 32 }

/-- `n` further rounds, each after a key step. -/
def philoxRounds : Nat → PhiloxState → PhiloxState
  | 0, s => s
  | n + 1, s => philoxRounds n (philoxRound (philoxBump s))

/-- Philox(K, C) as its four words (R9, R124). -/
def philox (key ctr : Nat) : List Nat :=
  let s := philoxRounds 9 (philoxRound
    ⟨bits key 31 0, bits key 63 32, bits ctr 31 0, bits ctr 63 32, bits ctr 95 64, bits ctr 127 96⟩)
  [s.c0, s.c1, s.c2, s.c3]

/-- Word `j` of Philox(K, C). -/
def philoxWord (key ctr j : Nat) : Nat := (philox key ctr).getD j 0

/-- The 24-bit random number of stochastic rounding for lane `l` of a token of a context starting at `lo` (R123, R125). -/
def srRandom (ctx lo l : Nat) : Nat :=
  philoxWord (0x5352 * 2 ^ 32 + ctx) (lo + (l / 4) * 2 ^ 64) (l % 4) / 256

/-- The rounding mode of a mod[2:0] code (R95); SR draws for lane `l`. -/
def rmOf (code : Nat) (ctx lo l : Nat) : Rm :=
  match code with
  | 0 => .rne
  | 1 => .rtz
  | 2 => .rup
  | 3 => .rdn
  | _ => .sr (srRandom ctx lo l)

end Sys2Proof.Machine
end

