-- ==== Sys2Proof/Machine/FloatFns.lean ====
section
/-! DEFINITION. The four functions defined by algorithm (spec 07 R178 to R182), with their constants and tables. -/

namespace Sys2Proof.Machine

/-- T[j] = 2^(j/64), rounded RNE to IF36, as lanes (R178). -/
def expTable : List Nat :=
  [0x3FF000000, 0x3FF02C9A4, 0x3FF059B0D, 0x3FF087452, 0x3FF0B5587, 0x3FF0E3EC3, 0x3FF11301D, 0x3FF1429AB] ++
  [0x3FF172B84, 0x3FF1A35BF, 0x3FF1D4873, 0x3FF2063B9, 0x3FF2387A7, 0x3FF26B456, 0x3FF29E9DF, 0x3FF2D285A] ++
  [0x3FF306FE1, 0x3FF33C08B, 0x3FF371A73, 0x3FF3A7DB3, 0x3FF3DEA65, 0x3FF4160A2, 0x3FF44E086, 0x3FF486A2B] ++
  [0x3FF4BFDAD, 0x3FF4F9B27, 0x3FF5342B5, 0x3FF56F473, 0x3FF5AB07E, 0x3FF5E76F1, 0x3FF6247EB, 0x3FF662388] ++
  [0x3FF6A09E6, 0x3FF6DFB24, 0x3FF71F75F, 0x3FF75FEB5, 0x3FF7A1147, 0x3FF7E2F33, 0x3FF82589A, 0x3FF868D9A] ++
  [0x3FF8ACE54, 0x3FF8F1AEA, 0x3FF93737B, 0x3FF97D82A, 0x3FF9C4918, 0x3FFA0C668, 0x3FFA5503B, 0x3FFA9E6B5] ++
  [0x3FFAE89FA, 0x3FFB33A2C, 0x3FFB7F76F, 0x3FFBCC1E9, 0x3FFC199BE, 0x3FFC67F13, 0x3FFCB720E, 0x3FFD072D5] ++
  [0x3FFD5818E, 0x3FFDA9E60, 0x3FFDFC973, 0x3FFE502EE, 0x3FFEA4AFA, 0x3FFEFA1BF, 0x3FFF50766, 0x3FFFA7C18]

/-- G[j] = log2((64 + j) / 64), rounded RNE to IF36, as lanes (R178). -/
def logTable : List Nat :=
  [0x000000000, 0x3F96E7968, 0x3FA6BAD37, 0x3FB0EB38A, 0x3FB663F70, 0x3FBBC8424, 0x3FC08C589, 0x3FC32AE9E] ++
  [0x3FC5C01A4, 0x3FC84C2BD, 0x3FCACF5E3, 0x3FCD49EE5, 0x3FCFBC16C, 0x3FD11307E, 0x3FD24407B, 0x3FD37124D] ++
  [0x3FD49A785, 0x3FD5C01A4, 0x3FD6E221D, 0x3FD800A56, 0x3FD91BBA9, 0x3FDA33761, 0x3FDB47EBF, 0x3FDC592FB] ++
  [0x3FDD6753E, 0x3FDE726AA, 0x3FDF7A857, 0x3FE03FDA9, 0x3FE0C1050, 0x3FE140CA0, 0x3FE1BF312, 0x3FE23C41D] ++
  [0x3FE2B8034, 0x3FE3327C7, 0x3FE3ABB40, 0x3FE423B08, 0x3FE49A785, 0x3FE510118, 0x3FE584822, 0x3FE5F7CFF] ++
  [0x3FE66A009, 0x3FE6DB197, 0x3FE74B1FD, 0x3FE7BA190, 0x3FE82809D, 0x3FE894F75, 0x3FE900E61, 0x3FE96BDAD] ++
  [0x3FE9D5DA0, 0x3FEA3EE7F, 0x3FEAA708F, 0x3FEB0E412, 0x3FEB74949, 0x3FEBDA072, 0x3FEC3E9CA, 0x3FECA258E] ++
  [0x3FED053F7, 0x3FED6753E, 0x3FEDC899B, 0x3FEE29143, 0x3FEE88C6B, 0x3FEEE7B47, 0x3FEF45E09, 0x3FEFA34E1]

/-- The exact number an IF36 code stands for, where it is finite. -/
def dyadicOf (x : Nat) : Dyadic :=
  match ofIF36 (BitVec.ofNat 36 x) with
  | .fin s m e => ⟨signed s m, e⟩
  | _ => ⟨0, 0⟩

/-- T[j]. -/
def expT (j : Nat) : Dyadic := dyadicOf (expTable.getD j 0)

/-- G[j]. -/
def logG (j : Nat) : Dyadic := dyadicOf (logTable.getD j 0)

/-- A dyadic number rounded RNE to IF36, and whether that changed it. -/
def rneStep (d : Dyadic) : Dyadic × Bool :=
  let r := d.round .if36 .rne false
  match r.val with
  | .fin s m e => (⟨signed s m, e⟩, r.flags.inexact)
  | _ => (d, r.flags.inexact)

/-- Q[j] = 64 / (64 + j), rounded RNE to IF36 (R178). -/
def logQ (j : Nat) : Dyadic :=
  let q := quotJam 64 (64 + j)
  (rneStep ⟨q.1, q.2⟩).1

/-- C1 of R178: 0.693147180559945309 rounded to IF36. -/
def constC1 : Dyadic := dyadicOf 0x3FE62E430
/-- C2 of R178: 0.240226506959100712 rounded to IF36. -/
def constC2 : Dyadic := dyadicOf 0x3FCEBFBE0
/-- C3 of R178: 0.0555041086648215800 rounded to IF36. -/
def constC3 : Dyadic := dyadicOf 0x3FAC6B08D
/-- L, also D1, of R178: 1.44269504088896341 rounded to IF36. -/
def constL : Dyadic := dyadicOf 0x3FF715476
/-- D2 of R178: -0.721347520444481703 rounded to IF36. -/
def constD2 : Dyadic := dyadicOf 0xBFE715476
/-- D3 of R178: 0.480898346962987802 rounded to IF36. -/
def constD3 : Dyadic := dyadicOf 0x3FDEC709E

/-- The floor of a dyadic number. -/
def Dyadic.floor (d : Dyadic) : Int := if 0 ≤ d.exp then d.num * 2 ^ d.exp.toNat else d.num / 2 ^ (-d.exp).toNat

/-- One Horner step: c + p * f, rounded once (R179, R180). -/
def horner (c p f : Dyadic) : Dyadic := (rneStep (Dyadic.add c (Dyadic.mul p f))).1

/-- FEXP2 of a finite number in range (R179). -/
def exp2Core (x : Dyadic) : Flagged FVal :=
  let n := Dyadic.floor ⟨x.num, x.exp + 6⟩
  let k := n / 64
  let j := (n % 64).toNat
  let f := Dyadic.add x ⟨-n, -6⟩
  let p := horner ⟨1, 0⟩ (horner constC1 (horner constC2 constC3 f) f) f
  let t := Dyadic.mul (expT j) p
  let r := Dyadic.round .if36 .rne false ⟨t.num, t.exp + k⟩
  ⟨r.val, r.flags.or (.inxIf (decide (f.num ≠ 0) || decide (j ≠ 0)))⟩

/-- FEXP2 (R179). -/
def fExp2 (a : FVal) : Flagged FVal :=
  match a with
  | .nan s => nanResult s
  | .inf s => if s then ⟨.fin false 0 0, .none⟩ else ⟨.inf false, .none⟩
  | .fin s m e =>
    let x : Dyadic := ⟨signed s m, e⟩
    if Dyadic.le ⟨1024, 0⟩ x then ⟨.inf false, .ovf⟩
    else if Dyadic.lt x ⟨-1100, 0⟩ then ⟨.fin false 0 0, ⟨false, true, true, false, false⟩⟩
    else exp2Core x

/-- FLOG2 (R180). -/
def fLog2 (a : FVal) : Flagged FVal :=
  match a with
  | .nan s => nanResult s
  | .inf s => if s then nanResult true else ⟨.inf false, .none⟩
  | .fin s m x =>
    if m = 0 then ⟨.inf true, .dz⟩
    else if s then nanResult true
    else
      let l := bitLen m - 1
      let e := x + l
      let j := ((m * 64) >>> l) - 64
      let d : Dyadic := ⟨(m * 64 : Nat) - ((64 + j) * 2 ^ l : Nat), -(l : Int) - 6⟩
      let t := (rneStep (Dyadic.mul d (logQ j))).1
      let q := horner constL (horner constD2 constD3 t) t
      let r := (Dyadic.add (Dyadic.add ⟨e, 0⟩ (logG j)) (Dyadic.mul q t)).round .if36 .rne false
      ⟨r.val, r.flags.or (.inxIf (decide (j ≠ 0) || decide (d.num ≠ 0)))⟩

/-- A dyadic constant as a value. -/
def Dyadic.val (d : Dyadic) : FVal := .fin (decide (d.num < 0)) d.num.natAbs d.exp

/-- One. -/
def fOne : FVal := .fin false 1 0

/-- FSIG (R181). -/
def fSigmoid (a : FVal) : Flagged FVal :=
  match a with
  | .nan s => nanResult s
  | x =>
    let u := fMul .rne x.neg constL.val
    let v := fExp2 u.val
    let w := fAdd .if36 .rne fOne v.val
    let r := fDiv .rne fOne w.val
    ⟨r.val, r.flags.or (.inxIf (u.flags.inexact || v.flags.inexact || w.flags.inexact))⟩

/-- The general range of FTANH (R182), for the magnitude `m * 2^e` and sign `s`. -/
def tanhCore (s : Bool) (m : Nat) (e : Int) : Flagged FVal :=
  let u := fMul .rne (.fin false m (e + 1)) constL.val
  let v := fExp2 u.val
  let w := fAdd .if36 .rne fOne v.val
  let z := fDiv .rne fOne w.val
  let r := fAdd .if36 .rne fOne (fScale .rne z.val.neg 1).val
  let r' : FVal := match r.val with
    | .fin _ k g => .fin s k g
    | y => y
  ⟨r', r.flags.or (.inxIf (u.flags.inexact || v.flags.inexact || w.flags.inexact || z.flags.inexact))⟩

/-- FTANH (R182). -/
def fTanh (a : FVal) : Flagged FVal :=
  match a with
  | .nan s => nanResult s
  | .inf s => ⟨.fin s 1 0, .none⟩
  | .fin s m e =>
    if m = 0 then ⟨.fin s 0 0, .none⟩
    else if Dyadic.lt ⟨m, e⟩ ⟨1, -12⟩ then
      ⟨.fin s m e, ⟨false, decide (e + (bitLen m : Int) - 1 < -1022), true, false, false⟩⟩
    else if Dyadic.le ⟨16, 0⟩ ⟨m, e⟩ then ⟨.fin s 1 0, .inx⟩
    else tanhCore s m e

end Sys2Proof.Machine
end

