-- ==== Sys2Proof/Machine/Operands.lean ====
section
/-! DEFINITION. Operand forms: the eight lanes of a token, lanes as integers (spec 06 R160), immediates (03 R93,
06 R161), addresses in a token (06 R168), interpolated values (02 R67). -/

namespace Sys2Proof.Machine

/-- The eight lanes of a token (R60). -/
structure Lanes where
  l0 : Lane
  l1 : Lane
  l2 : Lane
  l3 : Lane
  l4 : Lane
  l5 : Lane
  l6 : Lane
  l7 : Lane
deriving DecidableEq, Repr

namespace Lanes

/-- The same lane eight times. -/
def all (x : Lane) : Lanes := ⟨x, x, x, x, x, x, x, x⟩

/-- Eight zero lanes. -/
def zero : Lanes := all 0

/-- Lane `i` by a function. -/
def ofFn (f : Nat → Lane) : Lanes := ⟨f 0, f 1, f 2, f 3, f 4, f 5, f 6, f 7⟩

/-- Lane `i` (0 to 7). -/
def get (v : Lanes) (i : Nat) : Lane :=
  match i with
  | 0 => v.l0
  | 1 => v.l1
  | 2 => v.l2
  | 3 => v.l3
  | 4 => v.l4
  | 5 => v.l5
  | 6 => v.l6
  | _ => v.l7

/-- Lane by lane. -/
def map (f : Lane → Lane) (a : Lanes) : Lanes := ⟨f a.l0, f a.l1, f a.l2, f a.l3, f a.l4, f a.l5, f a.l6, f a.l7⟩

/-- Lane by lane over two tokens. -/
def map2 (f : Lane → Lane → Lane) (a b : Lanes) : Lanes :=
  ⟨f a.l0 b.l0, f a.l1 b.l1, f a.l2 b.l2, f a.l3 b.l3, f a.l4 b.l4, f a.l5 b.l5, f a.l6 b.l6, f a.l7 b.l7⟩

/-- Lane by lane over three tokens. -/
def map3 (f : Lane → Lane → Lane → Lane) (a b c : Lanes) : Lanes :=
  ⟨f a.l0 b.l0 c.l0, f a.l1 b.l1 c.l1, f a.l2 b.l2 c.l2, f a.l3 b.l3 c.l3, f a.l4 b.l4 c.l4, f a.l5 b.l5 c.l5,
    f a.l6 b.l6 c.l6, f a.l7 b.l7 c.l7⟩

/-- The lanes in order. -/
def toList (a : Lanes) : List Lane := [a.l0, a.l1, a.l2, a.l3, a.l4, a.l5, a.l6, a.l7]

/-- Lane `i` by a function that may raise flags; the flags of all lanes are ORed (R171). -/
def ofFlagged (f : Nat → Flagged Lane) : Flagged Lanes :=
  ⟨ofFn fun i => (f i).val, .all ((List.range 8).map fun i => (f i).flags)⟩

/-- The first lanes of a list, the others zero. -/
def ofList (xs : List Nat) : Lanes := ofFn fun i => BitVec.ofNat 36 (xs.getD i 0)

end Lanes

/-- Width of a lane type (R160); a port that interprets nothing is read as .b32 (R67). -/
def laneWidth : LaneTy → Nat
  | .i8 => 8
  | .n8 => 8
  | .i16 => 16
  | .n16 => 16
  | _ => 32

/-- The signed lane types. -/
def isSigned : LaneTy → Bool
  | .i8 => true
  | .i16 => true
  | .i32 => true
  | _ => false

/-- The unsigned lane types .n. -/
def isUnsigned : LaneTy → Bool
  | .n8 => true
  | .n16 => true
  | .n32 => true
  | _ => false

/-- The w-bit field of a lane, read unsigned (R165). -/
def field (t : LaneTy) (x : Lane) : Nat := x.toNat % 2 ^ laneWidth t

/-- rd (R160). -/
def rd (t : LaneTy) (x : Lane) : Int :=
  if isSigned t then sext (laneWidth t) x.toNat else (field t x : Int)

/-- wr (R160): wrapped at the width, extended into bits [31:0], bits [35:32] zero. -/
def wr (t : LaneTy) (v : Int) : Lane :=
  let w := laneWidth t
  if isSigned t then BitVec.ofNat 36 (wrapNat 32 (sext w (wrapNat w v))) else BitVec.ofNat 36 (wrapNat w v)

/-- The range of a lane type. -/
def tyRange (t : LaneTy) : Int × Int :=
  let w := laneWidth t
  if isSigned t then (-(2 ^ (w - 1) : Nat), (2 ^ (w - 1) : Nat) - 1) else (0, (2 ^ w : Nat) - 1)

/-- A number clamped to a range. -/
def clamp (r : Int × Int) (v : Int) : Int := if v < r.1 then r.1 else if r.2 < v then r.2 else v

/-- Sat(v, type) (R9). -/
def sat (t : LaneTy) (v : Int) : Int := clamp (tyRange t) v

/-- The lane an immediate of `n` bits stands for (R93): .i sign-extended, .n and .b32 zero-extended, .f the high bits
of an IF36 value. -/
def immLane (t : LaneTy) (n : Nat) (imm : BitVec 24) : Lane :=
  let x := imm.toNat % 2 ^ n
  if t = .f then BitVec.ofNat 36 (x * 2 ^ (36 - n))
  else if isSigned t then BitVec.ofNat 36 (wrapNat 32 (sext n x))
  else BitVec.ofNat 36 x

/-- The address in lane pair `j` of a token (R168). -/
def laneAddr (v : Lanes) (j : Nat) : Nat :=
  ((v.get (2 * j + 1)).toNat % 2 ^ 25) * 2 ^ 32 + (v.get (2 * j)).toNat % 2 ^ 32

/-- The two lanes of an address (R168). -/
def addrLanes (a : Nat) : Lane × Lane := (BitVec.ofNat 36 (a % 2 ^ 32), BitVec.ofNat 36 (a / 2 ^ 32 % 2 ^ 25))

/-- The weight of an interpolation at `x` between samples at `t0` and `t1` (R67). -/
def interpWeight (x t0 t1 : Nat) : Nat := (x - t0) * 2 ^ 16 / (t1 - t0)

/-- One float lane between two samples with weight `w` (R67). -/
def interpFloat (w : Nat) (a b : Lane) : Flagged Lane :=
  let x := ofIF36 a
  let y := ofIF36 b
  if w = 0 then (if x.isNaN then ⟨canonicalNaN, .invIf x.isSig⟩ else ⟨a, .none⟩)
  else if x.isNaN || y.isNaN then ⟨canonicalNaN, .invIf (x.isSig || y.isSig)⟩
  else
    match x, y with
    | .inf s, .inf t => if s = t then ⟨a, .none⟩ else ⟨canonicalNaN, .inv⟩
    | .inf _, _ => ⟨a, .none⟩
    | _, .inf _ => ⟨b, .none⟩
    | .fin s m e, .fin t n g =>
      let p : Dyadic := ⟨signed s m, e⟩
      let q : Dyadic := ⟨signed t n, g⟩
      let d := Dyadic.add q ⟨-p.num, p.exp⟩
      let v := Dyadic.add p ⟨d.num * w, d.exp - 16⟩
      let r := v.round .if36 .rne false
      -- a zero result is -0 only when both samples are -0
      if r.val.isZero then ⟨toIF36 (.fin (x.isZero && y.isZero && s && t) 0 0), r.flags⟩ else r.lane
    | _, _ => ⟨canonicalNaN, .none⟩

/-- A quotient truncated toward zero. -/
def truncDiv (a b : Int) : Int := Int.tdiv a b

/-- One integer lane between two samples with weight `w` (R67). -/
def interpInt (t : LaneTy) (w : Nat) (a b : Lane) : Lane :=
  if w = 0 then wr t (rd t a)
  else wr t (truncDiv (rd t a * 65536 + (rd t b - rd t a) * w) 65536)

/-- The lanes an INTERP port supplies (R67), read as `t`. -/
def interpLanes (t : LaneTy) (w : Nat) (a b : Lanes) : Flagged Lanes :=
  if t = .f then Lanes.ofFlagged fun i => interpFloat w (a.get i) (b.get i)
  else ⟨Lanes.map2 (interpInt t w) a b, .none⟩

end Sys2Proof.Machine
end

