-- ==== Sys2Proof/Machine/LaneValues.lean ====
section
/-! DEFINITION. What each compute instruction makes of lanes: integers (spec 06 R163 to R168), internal float (07 R174
to R182), lane movement and reduction (R184, R185), conversions (R126, R186, R187). -/

namespace Sys2Proof.Machine

/-- DIV's quotient (R164). -/
def divQuot (t : LaneTy) (a b : Int) : Int :=
  if b = 0 then (if isUnsigned t then (2 ^ laneWidth t : Nat) - 1 else 0)
  else if isSigned t && decide (a = -(2 ^ (laneWidth t - 1) : Nat)) && decide (b = -1) then a
  else truncDiv a b

/-- REM's remainder (R164). -/
def divRem (t : LaneTy) (a b : Int) : Int :=
  if b = 0 then a
  else if isSigned t && decide (a = -(2 ^ (laneWidth t - 1) : Nat)) && decide (b = -1) then 0
  else a - b * truncDiv a b

/-- The shift count of R165. -/
def shiftCount (b : Lane) : Nat := b.toNat % 256

/-- SHL, SHR, SAR, ROT (R165). -/
def shlLane (t : LaneTy) (a b : Lane) : Lane :=
  if shiftCount b < laneWidth t then wr t (field t a * 2 ^ shiftCount b : Nat) else wr t 0

/-- SHR (R165). -/
def shrLane (t : LaneTy) (a b : Lane) : Lane :=
  if shiftCount b < laneWidth t then wr t (field t a / 2 ^ shiftCount b : Nat) else wr t 0

/-- SAR (R165). -/
def sarLane (t : LaneTy) (a b : Lane) : Lane :=
  let x := sext (laneWidth t) a.toNat
  if shiftCount b < laneWidth t then wr t (x / (2 ^ shiftCount b : Nat)) else wr t (if x < 0 then -1 else 0)

/-- ROT (R165). -/
def rotLane (t : LaneTy) (a b : Lane) : Lane :=
  let w := laneWidth t
  let s := shiftCount b % w
  let x := field t a
  wr t ((x * 2 ^ s % 2 ^ w + x / 2 ^ (w - s) : Nat) : Int)

/-- Number of set bits among the low `n`. -/
def popcount : Nat → Nat → Nat
  | 0, _ => 0
  | n + 1, x => x % 2 + popcount n (x / 2)

/-- Zero bits below the lowest set bit, at most `n`. -/
def trailing : Nat → Nat → Nat
  | 0, _ => 0
  | n + 1, x => if x % 2 = 1 then 0 else trailing n (x / 2) + 1

/-- BFE (R166). -/
def bfeLane (t : LaneTy) (pos len : Nat) (a : Lane) : Lane :=
  let f := a.toNat % 2 ^ 32 / 2 ^ pos % 2 ^ len
  wr t (if t = .i32 then sext len f else (f : Int))

/-- BFI (R166). -/
def bfiLane (t : LaneTy) (pos len : Nat) (a b : Lane) : Lane :=
  let x := a.toNat % 2 ^ 32
  let low := x % 2 ^ pos
  let high := x / 2 ^ (pos + len)
  wr t ((high * 2 ^ (pos + len) + (b.toNat % 2 ^ 32 % 2 ^ len) * 2 ^ pos + low : Nat) : Int)

/-- The condition codes of R94 on integers. -/
def condInt (cc : Nat) (a b : Int) : Bool :=
  match cc with
  | 0 => decide (a = b)
  | 1 => decide (a ≠ b)
  | 2 => decide (a < b)
  | 3 => decide (a ≤ b)
  | 4 => decide (b < a)
  | 5 => decide (b ≤ a)
  | _ => false

/-- The condition codes of R94 on values. -/
def condFloat (cc : Nat) (o : FOrder) : Bool :=
  match cc with
  | 0 => o == .eq
  | 1 => o != .eq
  | 2 => o == .lt
  | 3 => o == .lt || o == .eq
  | 4 => o == .gt
  | 5 => o == .gt || o == .eq
  | 6 => o == .un
  | _ => o != .un

/-- A truth value as a lane (R167). -/
def boolLane (b : Bool) : Lane := BitVec.ofNat 36 (b2n b)

/-- IDX: address `j` (R168). -/
def idxAddr (t : LaneTy) (k : Nat) (d : BitVec 24) (a b : Lanes) (j : Nat) : Nat :=
  wrapNat 57 ((laneAddr a j : Int) + rd t (b.get (2 * j)) * (2 ^ k : Nat) + sext 24 d.toNat)

/-- IDX's lanes (R168). -/
def idxLanes (t : LaneTy) (k : Nat) (d : BitVec 24) (a b : Lanes) : Lanes :=
  Lanes.ofFn fun i =>
    let p := addrLanes (idxAddr t k d a b (i / 2))
    if i % 2 = 0 then p.1 else p.2

/-! ### Internal float -/

/-- A binary float operation on lanes. -/
def onF2 (f : FVal → FVal → Flagged FVal) (a b : Lane) : Flagged Lane := (f (ofIF36 a) (ofIF36 b)).lane

/-- A unary float operation on a lane. -/
def onF1 (f : FVal → Flagged FVal) (a : Lane) : Flagged Lane := (f (ofIF36 a)).lane

/-- FMIN and FMAX on lanes (R175). -/
def fMinMax (isMin : Bool) (a b : Lane) : Flagged Lane :=
  let x := ofIF36 a
  let y := ofIF36 b
  let inv := ExFlags.invIf (x.isSig || y.isSig)
  if x.isNaN && y.isNaN then ⟨canonicalNaN, inv⟩
  else if x.isNaN then ⟨b, inv⟩
  else if y.isNaN then ⟨a, inv⟩
  else if fLess x y = isMin then ⟨a, inv⟩ else ⟨b, inv⟩

/-- FCMP in one lane: the condition and the flags (R176). -/
def fcmpLane (cc : Nat) (a b : Lane) : Bool × ExFlags :=
  let x := ofIF36 a
  let y := ofIF36 b
  let ordered := decide (2 ≤ cc) && decide (cc ≤ 5)
  (condFloat cc (fOrder x y), .invIf (x.isSig || y.isSig || (ordered && (x.isNaN || y.isNaN))))

/-- The class word of a lane (R177). -/
def classWord (a : Lane) : Nat :=
  match ofIF36 a with
  | .nan s => if s then 256 else 512
  | .inf s => if s then 1 else 128
  | .fin s m e =>
    let sub := decide (e + (bitLen m : Int) - 1 < -1022)
    if m = 0 then (if s then 8 else 16)
    else if sub then (if s then 4 else 32)
    else if s then 2 else 64

/-- The fixed tree of R129 over a flagged operation. -/
def laneTree (f : Lane → Lane → Flagged Lane) (v : Lanes) : Flagged Lane :=
  let a := f v.l0 v.l1
  let b := f v.l2 v.l3
  let c := f v.l4 v.l5
  let d := f v.l6 v.l7
  let p := f a.val b.val
  let q := f c.val d.val
  let r := f p.val q.val
  ⟨r.val, .all [a.flags, b.flags, c.flags, d.flags, p.flags, q.flags, r.flags]⟩

/-- FLDOT (R185). -/
def dotTree (u v : Lanes) : Flagged Lane :=
  let pr (i : Nat) : Flagged Lane :=
    (fDotPair (ofIF36 (u.get i)) (ofIF36 (v.get i)) (ofIF36 (u.get (i + 1))) (ofIF36 (v.get (i + 1)))).lane
  let add := onF2 (fAdd .if36 .rne)
  let a := pr 0
  let b := pr 2
  let c := pr 4
  let d := pr 6
  let p := add a.val b.val
  let q := add c.val d.val
  let r := add p.val q.val
  ⟨r.val, .all [a.flags, b.flags, c.flags, d.flags, p.flags, q.flags, r.flags]⟩

/-- The exact sum of the lanes read as integers. -/
def sumLanes (t : LaneTy) (v : Lanes) : Int := (v.toList.map (rd t)).foldl (· + ·) 0

/-- The largest lane read as an integer. -/
def maxLanes (t : LaneTy) (v : Lanes) : Int := (v.toList.map (rd t)).foldl max (rd t v.l0)

/-! ### Conversions -/

/-- The lane type of a type code (R90). -/
def tyOfCode (c : Nat) : Option LaneTy :=
  match c with
  | 0 => some .none
  | 1 => some .i8
  | 2 => some .i16
  | 3 => some .i32
  | 4 => some .n8
  | 5 => some .n16
  | 6 => some .n32
  | 7 => some .f
  | 8 => some .b32
  | _ => none

/-- IF36 to an integer type (R126). -/
def cvtToInt (t : LaneTy) (md : Rm) (a : Lane) : Flagged Lane :=
  match ofIF36 a with
  | .nan _ => ⟨wr t 0, .inv⟩
  | .inf s => ⟨wr t (if s then (tyRange t).1 else (tyRange t).2), .inv⟩
  | .fin s m e =>
    -- a magnitude of 2^40 or more is out of every range whatever its lower bits
    if 40 < e + (bitLen m : Int) then ⟨wr t (if s then (tyRange t).1 else (tyRange t).2), .inv⟩
    else
      let r := roundInt md s m e
      let v := signed s r.1
      if sat t v = v then ⟨wr t v, .inxIf r.2⟩ else ⟨wr t (sat t v), .inv⟩

/-- An integer to IF36 (R126). -/
def cvtFromInt (md : Rm) (v : Int) : Flagged Lane := (roundIF36 md (decide (v < 0)) v.natAbs 0).lane

/-- CVT on lane `l` of a token (R186): `src`, `fmt` and `sexp` as encoded, `rm` from mod[2:0]. -/
def cvtLane (t : LaneTy) (src fmt sexp rm ctx lo l : Nat) (a : Lane) : Flagged Lane :=
  let md := rmOf rm ctx lo l
  let s : Int := (sexp : Int) - 32
  let f := (StFmt.ofCode fmt).getD .fp32
  match tyOfCode src with
  | some .f => if t = .b32 then (let r := toCode f s md (ofIF36 a); ⟨BitVec.ofNat 36 r.1, r.2⟩) else cvtToInt t md a
  | some .b32 => loadFloat f s (a.toNat % 2 ^ f.width)
  | some u => if t = .f then cvtFromInt md (rd u a) else ⟨wr t (sat t (rd u a)), .none⟩
  | none => ⟨0, .none⟩

/-- The field width of PACK and UNPACK (R187). -/
def packWidth (w : Nat) : Nat := 16 / 2 ^ w

/-- Lanes 0 to 7 concatenated, bits [31:0] of each, lane 0 lowest. -/
def concatLanes (v : Lanes) : Nat := v.toList.foldr (fun x acc => x.toNat % 2 ^ 32 + 2 ^ 32 * acc) 0

/-- PACK (R187). -/
def packLanes (w : Nat) (v : Lanes) : Lanes :=
  let n := packWidth w
  let whole := v.toList.foldr (fun x acc => x.toNat % 2 ^ n + 2 ^ n * acc) 0
  Lanes.ofFn fun i => BitVec.ofNat 36 (whole / 2 ^ (32 * i) % 2 ^ 32)

/-- UNPACK (R187). -/
def unpackLanes (w : Nat) (sx : Bool) (v : Lanes) : Lanes :=
  let n := packWidth w
  Lanes.ofFn fun k =>
    let f := concatLanes v / 2 ^ (n * k) % 2 ^ n
    BitVec.ofNat 36 (if sx then wrapNat 32 (sext n f) else f)

/-- PERM by a selector for each lane (R184). -/
def permLanes (sel : Nat → Nat) (v : Lanes) : Lanes := Lanes.ofFn fun i => v.get (sel i % 8)

end Sys2Proof.Machine
end

