-- ==== Sys2Proof/Machine/Element.lean ====
section
/-! DEFINITION. Elements of an access (spec 09 R233, R240, R241): where they lie, their conversion to and from lanes, the update of ATOM and
RED (R243, R244), the block of a b4 store (R242). -/

namespace Sys2Proof.Machine

/-- Bytes of one element, where elements are whole bytes (R233). -/
def StFmt.bytes (f : StFmt) : Nat := f.width / 8

/-- The elements a mask selects. -/
def maskElems (mask : Nat) : List Nat := (List.range 8).filter fun e => bit mask e

/-- Offsets of the bytes of element `e` from the address of the access; `g` is the group of a b4 access (R116, R233). -/
def elemOffs (f : StFmt) (g e : Nat) : List Nat :=
  match f with
  | .b4 _ => [(8 * g + e) / 2, 16]
  | .i4 => [e / 2]
  | _ => (List.range f.bytes).map (e * f.bytes + ·)

/-- Whether an address is aligned for a format (R233). -/
def alignedFor (f : StFmt) (a : Nat) : Bool :=
  match f with
  | .fp32 => decide (a % 4 = 0)
  | .i32 => decide (a % 4 = 0)
  | .fp16 => decide (a % 2 = 0)
  | .bf16 => decide (a % 2 = 0)
  | _ => true

/-- The byte read at an offset. -/
def gotAt (got : List (Nat × Byte)) (off : Nat) : Nat := ((got.find? fun e => e.1 = off).map fun e => e.2.toNat).getD 0

/-- The little-endian number of the bytes read at offsets. -/
def gotNum (got : List (Nat × Byte)) : List Nat → Nat
  | [] => 0
  | o :: os => gotAt got o + 256 * gotNum got os

/-- The block types in the order of TYPE (R116). -/
def b4OfType (t : Nat) : B4 := match t with
  | 0 => .int
  | 1 => .e2m1
  | 2 => .pow2
  | _ => .hyb

/-- Element `e` of the bytes read, as a lane (R113, R117, R240). The type of a b4 block is read from its scale byte. -/
def loadElem (f : StFmt) (g : Nat) (got : List (Nat × Byte)) (e : Nat) : Flagged Lane :=
  match f with
  | .b4 _ =>
    let c := gotAt got 16
    loadFloat (.b4 (b4OfType (c / 64))) ((c % 64 : Nat) - 32 : Int) (gotAt got ((8 * g + e) / 2) / 2 ^ (4 * (e % 2)) % 16)
  | .i4 => ⟨BitVec.ofNat 36 (wrapNat 32 (sext 4 (gotAt got (e / 2) / 2 ^ (4 * (e % 2)) % 16))), .none⟩
  | .i32 => ⟨BitVec.ofNat 36 (gotNum got (elemOffs f g e)), .none⟩
  | .i8 => ⟨BitVec.ofNat 36 (wrapNat 32 (sext 8 (gotAt got e))), .none⟩
  | .n8 => ⟨BitVec.ofNat 36 (gotAt got e), .none⟩
  | _ => loadFloat f 0 (gotNum got (elemOffs f g e))

/-- The range of a stored integer format (R113). -/
def StFmt.range : StFmt → Int × Int
  | .i8 => (-128, 127)
  | .n8 => (0, 255)
  | _ => (-8, 7)

/-- The code a lane is stored as (R113, R115, R241). -/
def storeElem (f : StFmt) (ty : LaneTy) (md : Rm) (x : Lane) : Nat × ExFlags :=
  match f with
  | .i32 => (x.toNat % 2 ^ 32, .none)
  | .i8 => (wrapNat 8 (clamp f.range (rd ty x)), .none)
  | .n8 => (wrapNat 8 (clamp f.range (rd ty x)), .none)
  | .i4 => (wrapNat 4 (clamp f.range (rd ty x)), .none)
  | _ => toCode f 0 md (ofIF36 x)

/-- A byte to write: its offset, which of its bits, and their values. -/
structure ByteWrite where
  off : Nat
  mask : Nat
  val : Nat
deriving DecidableEq, Repr

/-- The byte after a write. -/
def ByteWrite.apply (w : ByteWrite) (old : Byte) : Byte := BitVec.ofNat 8 (old.toNat - (old.toNat &&& w.mask) + w.val)

/-- The byte writes of a code of element `e`. -/
def codeWrites (f : StFmt) (e code : Nat) : List ByteWrite :=
  match f with
  | .i4 => [⟨e / 2, 15 * 2 ^ (4 * (e % 2)), code * 2 ^ (4 * (e % 2))⟩]
  | _ => (List.range f.bytes).map fun i => ⟨e * f.bytes + i, 255, code / 256 ^ i % 256⟩

/-- The byte writes of a store and its flags (R241): lane e as element e for each set bit of the mask. -/
def storeWrites (f : StFmt) (ty : LaneTy) (rm ctx lo mask : Nat) (v : Lanes) : List ByteWrite × ExFlags :=
  let xs := (maskElems mask).map fun e => (e, storeElem f ty (rmOf rm ctx lo e) (v.get e))
  (xs.flatMap fun x => codeWrites f x.1 x.2.1, .all (xs.map fun x => x.2.2))

/-- One group of a b4 block: its number, its lanes, the rounding mode, context and span start of its firing (R242). -/
structure B4Group where
  group : Nat
  rm : Nat
  ctx : Nat
  lo : Nat
  lanes : Lanes
deriving DecidableEq, Repr

/-- The value of element `j` of a block: +0 where its group is missing (R242). -/
def b4Elem (gs : List B4Group) (j : Nat) : FVal :=
  match gs.find? fun g => g.group = j / 8 with
  | some g => ofIF36 (g.lanes.get (j % 8))
  | none => .fin false 0 0

/-- The code of element `j` of a block with its flags (R119, R242). -/
def b4Code (t : B4) (s : Int) (gs : List B4Group) (j : Nat) : Nat × ExFlags :=
  let md := match gs.find? fun g => g.group = j / 8 with
    | some g => rmOf g.rm g.ctx g.lo (j % 8)
    | none => .rne
  cvtB4 t s md (b4Elem gs j)

/-- The TYPE code of a block type (R116). -/
def b4Type : B4 → Nat
  | .int => 0
  | .e2m1 => 1
  | .pow2 => 2
  | .hyb => 3

/-- The 17 bytes of a block and its flags (R116, R118, R119, R242). -/
def b4Block (t : B4) (gs : List B4Group) : List Nat × ExFlags :=
  let s := b4Scale t ((List.range 32).map (b4Elem gs))
  let cs := (List.range 32).map (b4Code t s gs)
  let at' := fun j => ((cs[j]?).map (·.1)).getD 0
  ((List.range 16).map (fun i => at' (2 * i) + 16 * at' (2 * i + 1)) ++ [b4Type t * 64 + (s + 32).toNat], .all (cs.map (·.2)))

/-! ## The update of ATOM and RED -/

/-- The combinations ATOM and RED support (R238). -/
def atomSupported (op : Nat) (f : StFmt) (ty : LaneTy) : Bool :=
  if op ≤ 2 then
    ((decide (f = .fp32) || decide (f = .bf16)) && decide (ty = .f)) || (decide (f = .i32) && (decide (ty = .i32) || decide (ty = .n32)))
  else decide (f = .i32) && (decide (ty = .i32) || decide (ty = .n32) || decide (ty = .b32))

/-- The lesser or greater of two values, -0 below +0, neither a NaN (R244). -/
def pickFloat (isMin : Bool) (a b : FVal) : FVal := if fLess a b = isMin then a else b

/-- The new code of a float element (R244): computed on the widened value, rounded once, RNE. -/
def floatUpdate (op : Nat) (f : StFmt) (old v : FVal) : Nat × ExFlags :=
  let bf := (f.bin).getD .fp32
  if old.isNaN || v.isNaN then (toBin bf f.width (.nan false), .invIf (old.isSig || v.isSig))
  else if op = 0 then
    match old, v with
    | .inf a, .inf b => if a = b then (toBin bf f.width old, .none) else (toBin bf f.width (.nan false), .inv)
    | _, _ =>
      let r := fAdd bf .rne old v
      (toBin bf f.width r.val, r.flags)
  else cvtBin bf f.width .rne (pickFloat (decide (op = 1)) old v)

/-- The new 32 bits of an integer element for op 0 to 6 (R243). -/
def intUpdate (op : Nat) (ty : LaneTy) (old v : Lane) : Nat :=
  let a := rd ty old
  let b := rd ty v
  match op with
  | 0 => wrapNat 32 (a + b)
  | 1 => wrapNat 32 (min a b)
  | 2 => wrapNat 32 (max a b)
  | 3 => (old &&& v).toNat % 2 ^ 32
  | 4 => (old ||| v).toNat % 2 ^ 32
  | 5 => (old ^^^ v).toNat % 2 ^ 32
  | _ => v.toNat % 2 ^ 32

/-- The new code of an element whose old code is given (R243): none where a cas fails. `v` and `w` are the operand lanes: the value, or
for cas the value compared and the value swapped in. -/
def updateElem (op : Nat) (f : StFmt) (ty : LaneTy) (old : Nat) (v w : Lane) : Option Nat × ExFlags :=
  if op = 7 then (if old = v.toNat % 2 ^ 32 then some (w.toNat % 2 ^ 32) else none, .none)
  else if f = .i32 then (some (intUpdate op ty (BitVec.ofNat 36 old) v), .none)
  else
    let r := floatUpdate op f (ofCode f 0 old) (ofIF36 v)
    (some r.1, r.2)

/-- The operand lanes of element `e`: lanes 2j and 2j + 1 for cas, lane e otherwise (R243). -/
def atomOperands (op e : Nat) (v : Lanes) : Lane × Lane := if op = 7 then (v.get (2 * e), v.get (2 * e + 1)) else (v.get e, 0)

/-- The reply of an ATOM (R243): old values, and for cas whether each compare held. -/
def atomReply (op : Nat) (f : StFmt) (mask : Nat) (v : Lanes) (got : List (Nat × Byte)) : Lanes :=
  Lanes.ofFn fun i =>
    let e := if op = 7 then i / 2 else i
    if !bit mask e then 0
    else
      let old := loadElem f 0 got e
      if op = 7 ∧ i % 2 = 1 then boolLane (decide (gotNum got (elemOffs f 0 e) = (v.get (2 * e)).toNat % 2 ^ 32)) else old.val

end Sys2Proof.Machine
end

