-- ==== Sys2Proof/Config.lean ====
section
/-! DEFINITION. What an implementation fixes and what the spec leaves open. Every constant below is opaque: nothing in Lean can
evaluate it, so a claim holds whatever its value is. -/

namespace Sys2Proof

/-- A physical upset in the step that is taken (18 R397): none, a correctable pattern, one that the retry of a check corrects, or one that
the retry finds again; `memory`, an uncorrectable pattern in a read of memory of a step that makes another check too, lasting or not. -/
inductive Upset where
  | none | corrected | transient | lasting
  | memory (lasting : Bool)
deriving DecidableEq, Repr, Inhabited

/-- What takes the next step: a queue of a logical quad, the firing selector of a PE of a region, or the part of the machine that takes
the event named. -/
inductive Act where
  | queue (lq q : Nat)
  | pe (region pe : Nat)
  | event (i : Instr)
  /-- system core `n` reads or writes memory of a partition, by virtual address (R216, R442) -/
  | core (n p : Nat) (acc : HostAcc)
  /-- the host writes bytes of its own memory, at an offset in the host window (R190, R437) -/
  | host (off : Nat) (data : List Byte)
  /-- the firmware enables the PF (R459) -/
  | enablePf
deriving DecidableEq, Repr

/-- One turn: how many fabric cycles and nanoseconds pass before it, the upset that strikes it, and who takes it. -/
structure Turn where
  cycles : Nat
  ns : Nat
  upset : Upset
  act : Act
deriving DecidableEq, Repr

/-- Some turn: queue 0 of logical quad 0. -/
theorem Turn.nonempty : Nonempty Turn := ⟨⟨1, 1, .none, .queue 0 0⟩⟩

namespace Machine

/-- A collective descriptor (R334). -/
structure CollDesc where
  src : Nat
  dst : Nat
  rcd : Nat
  deadline : Nat
  count : Nat
  gid : Nat
  seq : Nat
  cidx : Nat
  ncon : Nat
  op : Nat
  fmt : Nat
  ty : Nat
  mode : Nat
  root : Nat
deriving DecidableEq, Repr

/-- A delivery (R340): the values written, STATUS, FLAGS, POP, bitmap and time. -/
structure Delivery where
  vals : List Nat
  status : Nat
  flags : Nat
  pop : Nat
  bitmap : Nat
  time : Nat
deriving DecidableEq, Repr

/-- What the package-level CRUs of linked devices tell each other of a collective (R342): a contribution, the choice of a CRFIX, or what the root
delivers to contributor `cidx`, and whether it is that contributor's last; that a contributor's delivery has been performed; that a CRFIX has
completed, or the code with which it traps. `det` says that a contribution is that of a deterministic task. -/
inductive CruNews where
  | leaf (d : CollDesc) (elems : List Nat) (det : Bool)
  | fix (gid seq choice : Nat)
  | delivery (gid seq cidx : Nat) (last : Bool) (x : Delivery)
  | performed (gid seq cidx : Nat)
  | fixed (gid seq : Nat) (code : Option Nat)
deriving DecidableEq, Repr

/-- The private halves of the identity keys (R462): RSA-3072's modulus and private exponent, and of SLH-DSA-SHA2-192s the secret seed, the seed of the
randomizer and the public seed, 24 bytes each. -/
structure IdentityKeys where
  modulus : Nat
  exponent : Nat
  seeds : List Byte
deriving DecidableEq, Repr, Inhabited

end Machine

namespace Config

/-- The turn the machine takes at its `n`th step where State does not name it (log 2): any agent, after any time, with any upset. -/
opaque turn (n : Nat) : Option Turn

/-- The free value of index `n`: a word that the spec leaves open (log 1, 11). -/
opaque freeWord (n : Nat) : Word64

/-- What the data of CRU transactions (TYPE 6) received over a link say together: nothing yet, or a whole message. Their layout is not given (R452; log
53); the instance is that of their headers. -/
opaque cruNews (data : List (List Byte)) : Option Machine.CruNews

/-- The data of the CRU transactions that carry a message (R342, R452; log 53). -/
opaque cruData (m : Machine.CruNews) : List (List Byte)

/-- The identity keys that the security engine derives from its fused secrets (R462): how it does is not given (log 12). -/
opaque identityKeys (secrets : List Byte) : Machine.IdentityKeys

end Config

end Sys2Proof
end

