-- ==== Sys2Proof/Machine/Types.lean ====
section
/-! DEFINITION. The data that move and wait in the machine: tokens (spec 02 R60, 03 R104), firings (02 R63), memory requests
(09 R226), fault records (18 R394). -/

namespace Sys2Proof.Machine

/-- A 57-bit virtual address (R189). -/
abbrev VAddr := BitVec 57
/-- A 52-bit physical address as a number: the key of a memory byte (R189). -/
abbrev PAddr := Nat

/-- The open marker of a span (R8). -/
def openHi : Nat := 0xFFFFFFFFFF
/-- A reach that is unbounded (R62): above every hi. -/
def unbounded : Nat := 2 ^ 40

/-- Token kinds (R60), in the order of their codes. -/
inductive Kind where
  | data | null | fin | barrier | order | range | fault
deriving DecidableEq, Repr

/-- Predicate values (R104), in the order of their codes. -/
inductive Pred where
  | none | true | false | null
deriving DecidableEq, Repr

/-- A token (R60, R104): tag, flags and payload; `level` is the nesting level. -/
structure Token where
  ctx : Nat
  lo : Nat
  hi : Nat
  kind : Kind
  interp : Bool
  level : Nat
  pred : Pred
  poison : Bool
  taint : Bool
  lanes : Lanes
deriving DecidableEq, Repr

/-- A span [lo, hi) (R8). -/
structure Span where
  lo : Nat
  hi : Nat
deriving DecidableEq, Repr

/-- Where a waiting token rests (R132, R134): the matching store, an accumulator column (MXT, node, column) of a quad, or
the vault spill area of its context; `operand`, a spilled token that has returned to the firing that needs it while its set is full (R135;
log 56). -/
inductive Place where
  | store
  | operand
  | column (lq mxt node col : Nat)
  | vault
deriving DecidableEq, Repr

/-- Whether a token is spilled (R134). -/
def Place.spilled : Place → Bool
  | .store => false
  | .operand => false
  | .column _ _ _ _ => true
  | .vault => true

/-- A waiting token and where it rests. -/
structure Waiting where
  tok : Token
  place : Place
deriving DecidableEq, Repr

/-- What a port holds in one context (R61, R62, R68, R72): the waiting tokens of the stream that firings use, the END that closed it,
the tokens and ENDs that arrived behind that END, which wait in the store too; the order check's memory of the latest arrival; whether an
ONCE port has latched its token; where the last waiting token is covered no further because its successor was discarded at once (R65), the successor's lo. -/
structure PortState where
  waiting : List Waiting
  reach : Nat
  ended : Option (Nat × Nat)
  behind : List Waiting
  lastHi : Nat
  lastOpen : Bool
  closed : Bool
  latched : Bool
  cut : Option Nat
deriving DecidableEq, Repr

/-- A port that nothing has reached. -/
def PortState.init : PortState := ⟨[], 0, none, [], 0, false, false, false, none⟩

/-- A span firing: I, the token on each used port, and the waiting tokens that supply them, in port order. -/
structure Firing where
  span : Span
  a : Option Token
  b : Option Token
  c : Option Token
  p : Option Token
  interpFlags : ExFlags
  weighted : Bool
  images : List (Nat × Token)
deriving DecidableEq, Repr

/-- A firing of BRK that is held until PE_BRK releases it (R406): the token it forwards then, and whether it has been released. -/
structure Held where
  tok : Token
  span : Span
  freed : Bool
deriving DecidableEq, Repr

/-- The state of one slot in one context (R132): its ports, how far firings have been emitted, and the registers its
entry names: MERGE's k and turn (R146), LCARRY's live, cur, last_hi (R150), RANGE expand's current range (R156), OMERGE's
last emission (R147), the count of tokens an unfed INPUT has emitted (R141), BARTOK's arrivals whose token has still to leave, as that
token, its completed generations, and in `count` those whose token has left (R153), the firings held by BRK, and the order in which tokens reached the ports of a
MERGE in arrival mode (true for port b). -/
structure Node where
  a : PortState
  b : PortState
  c : PortState
  p : PortState
  done : Nat
  count : Nat
  turnB : Bool
  live : Bool
  cur : Nat
  lastHi : Nat
  range : Option Token
  arrivals : List Token
  generation : Nat
  left : Bool
  held : List Held
  order : List Bool
deriving DecidableEq, Repr

/-- A slot nothing has reached. -/
def Node.init : Node :=
  ⟨.init, .init, .init, .init, 0, 0, false, false, 0, 0, none, [], 0, false, [], []⟩

/-- A token on its way to a port of a region (R138). -/
structure Flight where
  slot : Nat
  port : Port
  tok : Token
deriving DecidableEq, Repr

/-- Memory operations of fabric requests (R232, R243). -/
inductive MemOp where
  | load | consume | store
  | atomic (op : Nat)
  | reduce (op : Nat)
  | acquire (scope : Nat)
  | prefetch
deriving DecidableEq, Repr

/-- The access codes of FAULT tokens (R200). -/
def MemOp.code : MemOp → Nat
  | .load => 0
  | .consume => 1
  | .store => 2
  | .atomic _ => 3
  | .reduce _ => 4
  | .acquire _ => 5
  | .prefetch => 0

/-- Whether the access counts as a write (R228). -/
def MemOp.isWrite : MemOp → Bool
  | .store => true
  | .atomic _ => true
  | .reduce _ => true
  | _ => false

/-- Where a result goes: a port of a slot of a region (R91, R235). -/
structure Dest where
  region : Nat
  slot : Nat
  port : Port
deriving DecidableEq, Repr

/-- The request of one firing of a memory instruction (R226, R235): what it asks, and the span and flags its result takes. -/
structure Request where
  id : Nat
  region : Nat
  slot : Nat
  lq : Nat
  mt : Nat
  part : Nat
  ctx : Nat
  span : Span
  op : MemOp
  addr : Nat
  fmt : Nat
  ty : LaneTy
  lmask : Nat
  group : Nat
  rm : Nat
  data : Lanes
  dests : List Dest
  taint : Bool
  poison : Bool
  dataPoison : Bool
  level : Nat
  interp : Bool
  /-- the stage whose instance fires it, 0 outside a launch -/
  stage : Nat
deriving DecidableEq, Repr

/-- One step of an access: bytes of one 64-byte granule (R229), with the offsets in the access that they cover. -/
structure Part where
  id : Nat
  req : Nat
  pa : PAddr
  off : Nat
  len : Nat
deriving DecidableEq, Repr

/-- How far a request has come at its entry MT. -/
inductive ReqState where
  /-- in the MT's input -/
  | input
  /-- checked, waiting for a miss-status entry (R201) -/
  | retry
  /-- waiting on a miss-status entry, by its key (R201) -/
  | miss (key : Nat)
  /-- waiting on a held page, by its virtual page number of 64 KiB (R203) -/
  | hold (vpn : Nat)
  /-- in a b4 assembly entry (R242) -/
  | assembling
  /-- part of the block that the request named writes (R242) -/
  | joined (leader : Nat)
  /-- translated; its parts are at their homes; the offsets read so far with their bytes, and whether one was poisoned -/
  | homes (left : Nat) (got : List (Nat × Byte)) (bad : Bool)
deriving DecidableEq, Repr

/-- A request and how far it has come. -/
structure Pending where
  req : Request
  st : ReqState
deriving DecidableEq, Repr

/-- An entry of a slot's reorder window (R227): a request still out, or a result ready to be released. -/
inductive WindowEntry where
  | out (req : Nat) (ctx : Nat) (counts : Bool)
  | ready (tok : Option Token) (dests : List Dest) (ctx : Nat) (counts : Bool) (flags : ExFlags) (ack : Option Span)
deriving DecidableEq, Repr

/-- A fault record before its bytes are written (R394). -/
structure FaultRecord where
  kind : Nat
  code : Nat
  rflags : Nat
  part : Nat
  lid : Nat
  dtime : Nat
  /-- the cycle in which it was raised, by which records are ordered (R392) -/
  cycle : Nat
  lq : Nat
  pq : Nat
  pe : Nat
  cctx : Nat
  slot : Nat
  stage : Nat
  inst : Nat
  port : Nat
  word : Nat
  seqWord : Nat
  ctx : Nat
  span : Span
  arg0 : Nat
  arg1 : Nat
  toks : List Token
  ntok : Nat
  frames : List (Nat × Nat × Nat)
  tasks : List (List Nat)
  /-- the unit that goes on once the record is written: a queue (R395) -/
  queue : Option (Nat × Nat)
  /-- the region that is rolled back once it is written (R401), with the physical quad to retire -/
  replays : Option (Nat × Option Nat)
  /-- the launch that ends once it is written, or the region that stops where no launch holds it (R392) -/
  ends : Option Nat
  stops : Option Nat
deriving DecidableEq, Repr

end Sys2Proof.Machine
end

