-- ==== Sys2Proof/Machine/FabricData.lean ====
section
/-! DEFINITION. Launches, stages, channels, regions (spec 02, 03 R81 to R88, 05 R132, 18 R400): the data the launch arbiter and
the fabric hold. -/

namespace Sys2Proof.Machine

/-- A level entry of a launch record (R37). -/
structure Level where
  count : Nat
  scope : Nat
  domain : Nat
deriving DecidableEq, Repr

/-- A launch record (R36). -/
structure LaunchRec where
  graph : Nat
  lid : Nat
  prio : Nat
  det : Bool
  peer : Bool
  levels : List Level
  done : Nat
  nctx : Nat
  args : Nat
deriving DecidableEq, Repr

/-- A block as configuration load reads it (R86, R88, R83): header and occupancy fields, the words of its slots, and where each
slot is placed: PE index in the region and local slot. -/
structure Block where
  nin : Nat
  nout : Nat
  tshift : Nat
  det : Bool
  spill : Bool
  psr : Bool
  tfr : Bool
  minpe : Nat
  wsb : Nat
  mse : Nat
  high : Nat
  low : Nat
  imax : Nat
  imin : Nat
  inocc : List Nat
  words : List Nat
  places : List (Nat × Nat)
deriving DecidableEq, Repr

/-- Who feeds a region (R141, R170): a stage instance of a launch, or nobody. -/
structure Role where
  launch : Nat
  stage : Nat
  inst : Nat
deriving DecidableEq, Repr

/-- What a region keeps for a replay (R400): the slot state and tokens of its last replay point, the select token it had, and the order of the
contexts at its OUTPUTs. -/
structure ReplayCopy where
  nodes : NatMap Node
  select : Option Nat
  outOrder : NatMap (List Nat)
deriving DecidableEq, Repr

/-- A region (R50, R51): the launch it belongs to, if any, and the stage instance it is; the address of its argument block (R141, R329); its
nodes keyed by (128 * configuration context + slot) * 4096 + context; the contexts that CTXNEW drew and CTXFREE returned where no launch
holds them; whether a CFGLOAD has configured it (R275); its windows and counts keyed by slot, the sticky flags of
its PEs keyed by context (R128); by the code of a fault that rolled it back the largest lo of the spans it replays (R401); the contexts of the operands that wait at each OUTPUT slot, in the order of their
arrival (R142); the writes (slot, context, span) that had been performed, or begun, when a rollback took their acknowledgements (R401); `flags` of a PE and a context live with the region that runs on the PE. -/
structure Region where
  part : Nat
  ctx0 : Nat
  gal : Nat
  mask : Nat
  blocks : NatMap Block
  active : Nat
  running : Bool
  stop : Option Nat
  frozen : Bool
  launch : Option Nat
  role : Option Role
  args : Nat
  drawn : List Nat
  freed : List Nat
  calls : Nat
  configured : Bool
  nodes : NatMap Node
  flight : List Flight
  select : Option Nat
  windows : NatMap (List WindowEntry)
  ackMarks : NatMap Span
  performed : List (Nat × Nat × Span)
  flags : NatMap ExFlags
  retained : List (Nat × Token)
  outMarks : NatMap Nat
  unreplayable : Bool
  replay : ReplayCopy
  replaying : NatMap Nat
  pendingReplay : List (Nat × Token)
  stuck : Nat
  stuckAt : Option Nat
  asked : NatMap Nat
  outOrder : NatMap (List Nat)
deriving DecidableEq, Repr

/-- The handle's region before anything is configured. -/
def Region.init : Region :=
  { part := 0, ctx0 := 0, gal := 0, mask := 0, blocks := [], active := 0, running := false, stop := none, frozen := false
    launch := none, role := none, args := 0, drawn := [], freed := [], calls := 0, configured := false, nodes := [], flight := [], select := none, windows := [], ackMarks := [], performed := [], flags := [], retained := []
    outMarks := [], unreplayable := false, replay := ⟨[], none, []⟩, replaying := [], pendingReplay := []
    stuck := 0, stuckAt := none, asked := [], outOrder := [] }

/-- A channel of a graph (R84) with its tokens (R41). -/
structure Channel where
  src : Nat
  sout : Nat
  dst : Nat
  din : Nat
  depth : Nat
  toks : List Token
deriving DecidableEq, Repr

/-- A stage of a running launch (R53, R54): its block and configuration context, the regions of its instances, the cuts taken (from which place
on the distributor deals among how many instances, the newest first; a place is 2^41 times the number of nested streams passed, plus lo), the nested
streams passed by input and context, a change waiting for its cut, the tokens dealt to each
instance's inputs (keyed by 32 * instance + input) and the results of its instances waiting to rejoin (same key with the output), and
since when the input occupancy has been above HIGH or below LOW. -/
structure Stage where
  block : Block
  cctx : Nat
  insts : List Nat
  deals : List (Nat × Nat)
  streams : NatMap Nat
  change : Option Nat
  dealt : NatMap (List Token)
  rejoin : NatMap (List Token)
  aboveSince : Option Nat
  belowSince : Option Nat
deriving DecidableEq, Repr

/-- How far a launch has come: it waits, runs, is saved, or is over and owes only its completion record, whose 32 bytes and STATUS these
are. -/
inductive LaunchPhase where
  | waiting | running | saved
  | owed (bytes : List Byte) (status : Nat)
deriving DecidableEq, Repr

/-- A reduction queued in a deterministic task (R219), with the stage that issued it and the bytes it covers: address, offset in the
access, length. -/
structure QueuedRed where
  stage : Nat
  req : Request
  runs : List (Nat × Nat × Nat)
deriving DecidableEq, Repr

/-- The private memory of a task of a deterministic launch (R76, R218, R219, R220): its snapshot, its written bytes, its queued reductions,
the publish entries it has published, and the granules that its poisoned data have marked (R241) or a write over all 64 bytes has cleared (R221). -/
structure TaskView where
  snapshot : NatMap Byte
  writes : NatMap Byte
  reds : List QueuedRed
  pubs : List Nat
  marks : NatMap Bool
deriving DecidableEq, Repr

/-- A task at its start: its snapshot is shared memory (R218). -/
def TaskView.init : TaskView := ⟨[], [], [], [], []⟩

/-- Who waits for a child launch (R159): the parent launch, where there is one, the region and SPAWN slot, the window entry that its result
fills with its destinations, the result without its lanes, and the call index. -/
structure Parent where
  launch : Option Nat
  region : Nat
  slot : Nat
  id : Nat
  dests : List Dest
  tok : Token
  call : Nat
deriving DecidableEq, Repr

/-- A child that a deterministic task has spawned and whose start waits for its synchronisation point (R159): the address of its record and
the stage of its SPAWN. -/
structure HeldSpawn where
  va : Nat
  stage : Nat
  parent : Parent
deriving DecidableEq, Repr

/-- A launch the arbiter has taken (R36 to R47, R73, R79, R92, R159): its record; its partition, launch queue and index in the ring; the
cycle of its doorbell; DTIME when its wait began and by how much its priority has risen since; how far it has come; whether a block of
it is invalid; its contexts, those that CTXNEW drew and CTXFREE returned; its stages and channels; the ENDs of level 0 at its sinks,
as (stage, output, context); its parent and task identifier; the next call index by task, and the spawns held; DTIME at its start;
the cycle of its start or last restore, and of its last restore after the arbiter or YIELD saved it (R415); the memory of its tasks in deterministic operation;
the exception flags of instances and contexts that it has given up (R73, R128). -/
structure Launch where
  rcd : LaunchRec
  part : Nat
  queue : Nat
  index : Nat
  bell : Nat
  since : Nat
  raised : Nat
  phase : LaunchPhase
  invalid : Bool
  ctxs : List Nat
  drawn : List Nat
  freed : List Nat
  stages : List Stage
  chans : List Channel
  sinkEnds : List (Nat × Nat × Nat)
  parent : Option Parent
  task : List Nat
  calls : NatMap Nat
  spawns : List HeldSpawn
  started : Nat
  placed : Nat
  restoredAt : Option Nat
  views : NatMap TaskView
  flags : ExFlags
deriving DecidableEq, Repr

end Sys2Proof.Machine
end

