-- ==== Sys2Proof/Machine/QuadData.lean ====
section
/-! DEFINITION. What a logical quad holds: the four queues of its sequencer (spec 10 R252, R253, R276), its semaphores, named
barriers and task table (R265, R267), its copy engine (11 R277, R296) and its matrix tiles (12 R304, R307, R312, R322). -/

namespace Sys2Proof.Machine

/-- States of a queue (R253). -/
inductive QState where
  | halted | running | trapped
deriving DecidableEq, Repr

/-- A frame of a loop stack (R252, R261). -/
structure LoopFrame where
  count : Nat
  start : VAddr
  last : VAddr
deriving DecidableEq, Repr

/-- Why the word at issue waits (R276), in the order of the KIND codes. -/
inductive WaitKind where
  | sem | nbwait | tasknext | region | port | ring | access
deriving DecidableEq, Repr

/-- QSQ_WAITSTATE (R276). CYCLES is `base` plus the cycles since `since` while the count runs; `live` says that the wait is of the word now
at issue (the count stands still while the quad is stopped); `word1` is the second word as the last read of the first latched
it. -/
structure WaitState where
  w : Bool
  kind : WaitKind
  sem : Nat
  thr : Nat
  nbn : Nat
  base : Nat
  since : Option Nat
  live : Bool
  word1 : Nat
deriving DecidableEq, Repr

/-- The wait state at reset. -/
def WaitState.init : WaitState := ⟨false, .sem, 0, 0, 0, 0, none, false, 0⟩

/-- How far the word at issue has come, where it takes effect in more than one step: a word whose wait is met and whose unit has taken it, and that
waits for its own condition (R254); an LDQ or STQ that is outstanding (R412), and an STQ whose store a peer has still to perform; a word that its engine has
taken, by the tag of its command, and has still to answer (R361); TLBINV waits for the accesses through the translations it removed (R202); CTXSAVE waits for its image to be complete
(R435); CTXLOAD for its restore (R436). A restored word tests its wait field again before it goes on (R427). -/
inductive IssuePhase where
  | fresh
  | issued
  | access
  | storing
  | answering (tag : Nat)
  | draining (ids : List Nat)
  | saving (image : Nat)
  | restoring (image : Nat)
  | again (p : IssuePhase)
deriving DecidableEq, Repr

/-- A queue of a sequencer (R252, R253, R276, R299); `ctl` is the CTX and PRIO that a write of QSQ_QCTL gives its next issue, while a word has issued. -/
structure Queue where
  pc : VAddr
  regs : NatMap Word64
  loops : List LoopFrame
  ctx : Nat
  prio : Nat
  st : QState
  tvec : VAddr
  mxmode : Word64
  wait : WaitState
  phase : IssuePhase
  ctl : Option (Nat × Nat)
deriving DecidableEq, Repr

/-- A queue at reset (R252, R456). -/
def Queue.init : Queue := ⟨0, [], [], 0, 0, .halted, 0, 0, .init, .fresh, none⟩

/-- A named barrier (R265): GEN, the queues that have arrived, EXP, ARR. -/
structure NamedBarrier where
  gen : Nat
  pend : NatMap Bool
  exp : Nat
  arr : Nat
deriving DecidableEq, Repr

/-- A named barrier at reset. -/
def NamedBarrier.init : NamedBarrier := ⟨0, [], 0, 0⟩

/-- States of a task table entry (R267), in the order of their codes. -/
inductive TaskState where
  | free | wait | ready | run | done
deriving DecidableEq, Repr

/-- A task table entry (R267). `succ` lists s0 to s3. -/
structure TaskEntry where
  prio : Nat
  svalid : Nat
  succ : List Nat
  cnt : Nat
  st : TaskState
  entry : VAddr
deriving DecidableEq, Repr

/-- A task table entry at reset: FREE, all fields zero. -/
def TaskEntry.init : TaskEntry := ⟨0, 0, [0, 0, 0, 0], 0, .free, 0⟩

/-- An engine command as its engine accepted it: the word, who issued it and for which context and partition, the values its
register fields named and the mode register, all at issue (R277, R288, R299), and the signal it owes (R99). -/
structure Cmd where
  word : Nat
  lq : Nat
  q : Nat
  ctx : Nat
  part : Nat
  mode : Word64
  d : Word64
  s : Word64
  t : Word64
  v : Word64
  sig : Option (Nat × Nat)
  /-- the values of all scalar registers at issue, for the follow-on word of COPYMX (R288) -/
  regs : NatMap Word64
  /-- the model's own: which issue it is of, by which an answer finds its word -/
  tag : Nat
deriving DecidableEq, Repr

/-- States of a copy channel (R296). -/
inductive ChanState where
  | idle | run | fenced | fault
deriving DecidableEq, Repr

/-- What a copy command read when it started (R279, R281, R288): stride and size by dimension of its source and of its destination, the
follow-on word of COPYMX; and of the index list of GATHER and SCATTER the entry last read, with its number (R286). -/
structure BceJob where
  src : List (Int × Nat)
  dst : List (Int × Nat)
  follow : Nat
  index : Option (Nat × Nat)
deriving DecidableEq, Repr

/-- A command of a channel that has started and that a restored one has gone ahead of (R427): what its channel was to it. -/
structure SetAside where
  cmd : Cmd
  st : ChanState
  wasFenced : Bool
  bytes : Nat
  fcode : Nat
  fva : VAddr
  cover : NatMap Nat
deriving DecidableEq, Repr

/-- A copy channel (R277, R290, R294, R296): its current command, the commands queued behind it, whether SEQ has risen for the current command, whether
that command has been fenced, the bytes of its last element whose writes a peer has still to perform,
what it read at its start or reissue, its write pointer in SEQ and BYTES, its registers, and the bytes FILL has written of
each granule, as a mask by physical granule (R292), and the queued commands that have started already: a restored command has gone ahead of them (R427). -/
structure Channel8 where
  st : ChanState
  cur : Option Cmd
  queue : List Cmd
  started : Bool
  wasFenced : Bool
  posted : Option Nat
  job : Option BceJob
  seq : Nat
  bytes : Nat
  fcode : Nat
  fva : VAddr
  ctx : Nat
  cover : NatMap Nat
  aside : List SetAside
deriving DecidableEq, Repr

/-- A channel at reset. -/
def Channel8.init : Channel8 := ⟨.idle, none, [], false, false, none, none, 0, 0, 0, 0, 0, [], []⟩

/-- States of an accumulator node (R304), in the order of their codes. -/
inductive NodeState where
  | free | armed | poison
deriving DecidableEq, Repr

/-- An accumulator node (R304, R306): MXT_NODE, the destination record of ACCINIT, and the positions, keyed by 128 * i + j, a float
node's as IF36, an integer node's as 20 bits in two's complement. -/
structure AccNode where
  ctx : Nat
  isInt : Bool
  st : NodeState
  parted : Bool
  count : Nat
  contrib : Nat
  ownq : Nat
  drm : Nat
  dest : VAddr
  stride : Int
  dfmt : Nat
  rows : Nat
  cols : Nat
  pub : Option Nat
  lq : Nat
  part : Nat
  acc : NatMap Lane
deriving DecidableEq, Repr

/-- A node at reset: FREE, every position zero. -/
def AccNode.init : AccNode := ⟨0, false, .free, false, 0, 0, 0, 0, 0, 0, 15, 1, 1, none, 0, 0, []⟩

/-- An MXT command and how far it has come: checked or not, its step index (R328), the token an ACCOUT emits next (16 * row + group, and
one beyond the last for its END); of a command that releases a node, 1 once the drain has been written and only writes that a peer performs are
out (R305); whether it is stalled and its event has been delivered, and whether an ACCPART or ACCINIT has taken effect since, so that its group is
retried (R311). -/
structure MxCmd where
  cmd : Cmd
  started : Bool
  step : Nat
  out : Nat
  stalled : Bool
  retry : Bool
deriving DecidableEq, Repr

/-- A matrix tile (R304, R307, R312, R322, R324): nodes, overflow entries keyed by 16384 * node + position, MXT_CFG, the transient
count, the queue with the running command at its head, and the bypass slot. -/
structure Mxt where
  nodes : NatMap AccNode
  ovf : NatMap Int
  evsem : Nat
  even : Bool
  pol : Bool
  transient : Word64
  queue : List MxCmd
  bypass : Option MxCmd
  /-- commands of the bypass slot that a restore has brought back behind another (R420) -/
  more : List MxCmd
deriving DecidableEq, Repr

/-- An MXT at reset. -/
def Mxt.init : Mxt := ⟨[], [], 0, false, false, 0, [], none, []⟩

/-- Whether a tile is stalled (R311): its running command is. -/
def Mxt.stalled (x : Mxt) : Bool := (x.queue.head?.map (·.stalled)).getD false

/-- A signal that waits for its quad to be in turn (R432): the semaphore, the amount, the queue whose command or word owes it with the context
it was issued in, and the word. -/
structure Signal where
  sem : Nat
  inc : Nat
  q : Nat
  ctx : Nat
  word : Nat
deriving DecidableEq, Repr

/-- A logical quad (R252, R255, R264, R270, R277, R304): beside its semaphores their values at the end of the previous cycle (R100), beside the task
table the tasks made READY in this cycle. `portRR`, `sysRR` and `taskRR` are the queues after which the round robin of the engine
port, the system port and TASKNEXT starts: 3 after reset, so that queue 0 comes first. -/
structure Quad where
  queues : NatMap Queue
  sem : NatMap Nat
  semPrev : NatMap Nat
  nb : NatMap NamedBarrier
  tasks : NatMap TaskEntry
  fresh : List Nat
  portRR : Nat
  sysRR : Nat
  taskRR : Nat
  signals : List Signal
  bce : NatMap Channel8
  mxt : NatMap Mxt
deriving DecidableEq, Repr

/-- A logical quad at reset. -/
def Quad.init : Quad := ⟨[], [], [], [], [], [], 3, 3, 3, [], [], []⟩

/-- A translation that a buffer holds (R201): the partition, the first virtual address, the page's size in bytes, the page table entry
that maps it. -/
structure TlbEntry where
  part : Nat
  base : Nat
  size : Nat
  pte : Word64
deriving DecidableEq, Repr

/-- A miss-status entry (R201): a walk under way for a 64 KiB page of a partition, and its place in the order in which walks were requested. -/
structure MissEntry where
  key : Nat
  part : Nat
  vpn : Nat
  since : Nat
deriving DecidableEq, Repr

/-- A physical quad (R57, R201, R203, R246, R398, R402): first-level translations and walks under way, the pages (partition, VA[56:16]) whose
miss-status entries accesses of queues and engines hold on HOLD, its counters, PE status by PE index,
MT_FLAGS keyed by 16 * bank + partition, the sticky flags of its MTs keyed by 4096 * bank + context, whether it is
retired, the logical quad in turn and the cycle its turn began. -/
structure PhysQuad where
  tlb : List TlbEntry
  misses : List MissEntry
  missNext : Nat
  held : List (Nat × Nat)
  peTransient : NatMap Word64
  peCode : NatMap Nat
  eccCorr : NatMap Word64
  eccTransient : NatMap Word64
  mtFlags : NatMap ExFlags
  mtCtxFlags : NatMap ExFlags
  retired : Bool
  turn : Option Nat
  turnStart : Nat
deriving DecidableEq, Repr

/-- A physical quad at reset. -/
def PhysQuad.init : PhysQuad := ⟨[], [], 0, [], [], [], [], [], [], [], false, none, 0⟩

end Sys2Proof.Machine
end

