-- ==== Sys2Proof/Machine/EngineData.lean ====
section
/-! DEFINITION. What the engines outside the quads hold: collective reduction units (spec 14 R334 to R340), priority sampling engines
(15 R348 to R361), grammar mask engines (16 R363 to R379), the video ingest engine (17 R382 to R390). -/

namespace Sys2Proof.Machine

/-- A contribution on its way or at the root: the CRED, its descriptor, the elements as read (R345), whether a deterministic task made it (R343), whether
its deadline was over when it reached the root (R337). One that came from a linked device stands under a command that is none of this device's
(`farCmd`). -/
structure Leaf where
  cmd : Cmd
  desc : CollDesc
  elems : List Nat
  det : Bool
  late : Bool
deriving DecidableEq, Repr

/-- What travels to the root of a partition's collectives: CREDs that have been accepted and have still to read their operands, contributions, CRFIXes
(R345, R346), in the order they were sent. -/
inductive CruItem where
  | cred (c : Cmd)
  | leaf (l : Leaf)
  | fix (c : Cmd) (gid seq choice : Nat)
deriving DecidableEq, Repr

/-- The command of an item. -/
def CruItem.cmd : CruItem → Cmd
  | .cred c => c
  | .leaf l => l.cmd
  | .fix c _ _ _ => c

/-- A partition of a linked device, and the port it is reached by (R448). -/
structure Far where
  port : Nat
  node : Nat
  part : Nat
deriving DecidableEq, Repr

/-- In place of the command of a CRED or CRFIX of a linked device, which issued it (R342): no context, no quad, and the port it came by for its queue; its
word names the node and the partition there. -/
def farCmd (part : Nat) (f : Far) : Cmd :=
  { word := f.node + 4096 * f.part, lq := 128, q := f.port, ctx := 4096, part := part, mode := 0, d := 0, s := 0, t := 0, v := 0, sig := none, regs := [], tag := 0 }

/-- Where the command of a linked device comes from. -/
def Cmd.far (c : Cmd) : Far := ⟨c.q, c.word % 4096, c.word / 4096⟩

/-- Whether a command is a linked device's. -/
def Cmd.isFar (c : Cmd) : Bool := decide (c.ctx = 4096)

/-- A contribution whose root is a linked device (R342): where it went, whether its CRED has completed, whether its last delivery has come, whether the
root is to be told of it once peers have performed its writes (R346), and the CRFIXes sent after it whose end the root has still to tell. -/
structure AbroadLeaf where
  far : Far
  leaf : Leaf
  done : Bool
  closed : Bool
  tells : Bool
  fixes : List Cmd
deriving DecidableEq, Repr

/-- States of an instance (R337, R339, R347). -/
inductive CollState where
  | opened | partialOut | awaiting | closed
deriving DecidableEq, Repr

/-- An instance at the root (R335, R336, R339): the values its first CRED fixed, the physical addresses of the 64 KiB units it has reserved, the leaves
that have reached the root in order of arrival, the contributor indices present in the value, those whose CRED has completed, the last delivery, the
CRFIXes that the final delivery completes, and the contributors on linked devices that have still to perform it. -/
structure CollInst where
  gid : Nat
  seq : Nat
  fixed : CollDesc
  area : List Nat
  st : CollState
  leaves : List Leaf
  present : List Nat
  served : List Nat
  delivery : Option Delivery
  fixes : List Cmd
  owed : List Nat
deriving DecidableEq, Repr

/-- A priority tree (R348 to R361), slots keyed by number. `area` is the physical address of its area, `qsum` and
`qmin` follow from the slots. -/
structure PseTree where
  valid : Bool
  part : Nat
  depth : Nat
  pshift : Nat
  area : Nat
  q : NatMap Nat
  g : NatMap Nat
  seed : Word64
  draws : Word64
  stale : Word64
  bad : Word64
  beta : Nat
  nm1 : Nat
  nextSeq : Nat
  /-- another master has written a word of the area since the tree was made (R349) -/
  tampered : Bool
deriving DecidableEq, Repr

/-- A tree at reset: not valid. -/
def PseTree.init : PseTree := ⟨false, 0, 0, 0, 0, [], [], 0, 0, 0, 0, 0, 0, 0, false⟩

/-- A PSE command with the tree it names and its sequence number (R352). -/
structure PseCmd where
  cmd : Cmd
  tree : Nat
  seq : Nat
deriving DecidableEq, Repr

/-- A grammar slot (R363, R368, R379): the tables of its image, and its counts. -/
structure GmeSlot where
  valid : Bool
  part : Nat
  start : Nat
  nsym : Nat
  states : List Nat
  trans : List Nat
  toks : List Nat
  pool : List Byte
  area : Nat
  areaLen : Nat
  tampered : Bool
  /-- combinations of state and stack whose legality sets the mask cache holds (R373) -/
  cache : List (Nat × List Nat)
  hits : Word64
  misses : Word64
  nolegal : Word64
  reject : Word64
deriving DecidableEq, Repr

/-- A grammar slot at reset: not valid. -/
def GmeSlot.init : GmeSlot := ⟨false, 0, 0, 0, [], [], [], [], 0, 0, false, [], 0, 0, 0, 0⟩

/-- A sampling configuration (R377). -/
structure GmeCfg where
  valid : Bool
  part : Nat
  scale : Lane
  wmin : Nat
  fallback : Nat
  lfmt : Nat
  seed : Word64
deriving DecidableEq, Repr

/-- A sampling configuration at reset: not valid. -/
def GmeCfg.init : GmeCfg := ⟨false, 0, 0, 0, 0, 0, 0⟩

/-- The engines of one hall base: the PSE with its trees and queue, the GME with its slots, configurations, queue and the
index SEL 5 reads (R348, R352, R363, R364, R379), and the commands of deterministic tasks that the PSE holds (R354); `staged` is what a tree becomes once
a peer has performed the writes of its current command (R352, R362). -/
structure Hall where
  trees : NatMap PseTree
  staged : NatMap PseTree
  pseQ : List PseCmd
  pseHeld : List Cmd
  slots : NatMap GmeSlot
  cfgs : NatMap GmeCfg
  gmeQ : List Cmd
  gmeLast : Nat
deriving DecidableEq, Repr

/-- A hall base at reset. -/
def Hall.init : Hall := ⟨[], [], [], [], [], [], [], 0⟩

/-- A stream descriptor (R383). -/
structure StreamDesc where
  ring : Nat
  rsize : Nat
  widx : Nat
  fbuf : Nat
  slotsz : Nat
  nslot : Nat
  codec : Nat
  shift : Nat
  ofmt : Nat
  period : Nat
  ctx : Nat
  reladdr : Nat
deriving DecidableEq, Repr

/-- States of a stream (R390). -/
inductive StreamState where
  | closed | opened | bound | closing
deriving DecidableEq, Repr

/-- The input a stream is bound to (R390): a launch, stage, instance and input index. -/
structure StreamTarget where
  launch : Nat
  stage : Nat
  inst : Nat
  input : Nat
deriving DecidableEq, Repr

/-- A video stream (R382 to R390): its descriptor, read index, the number of frames that have passed the size step, the FSEQ of
the frame in each busy slot, the bound input and staleness bound, access units taken and not yet decoded by the capture
time of each and the skips before it, frame tokens (the first 16 stand in the input's buffer, the others wait in the VIE in frame order: R386), the hi of
the last frame that passed the span step and of the last queued, the skips so far and those that a decoded frame has already followed, the counters, the
VCLOSE that waits for its END to be accepted, and whether the launch of the bound input has ended (R390). -/
structure Stream where
  st : StreamState
  part : Nat
  decoder : Nat
  desc : StreamDesc
  ridx : Nat
  k : Nat
  busy : NatMap Nat
  target : StreamTarget
  bound : Nat
  taken : List (Nat × Nat)
  queue : List Token
  lastHi : Nat
  queuedHi : Nat
  skips : Nat
  shown : Nat
  delivered : Word64
  dropStale : Word64
  dropFull : Word64
  dropOrder : Word64
  dropSize : Word64
  err : Word64
  closeCmd : Option Cmd
  ended : Bool
deriving DecidableEq, Repr

/-- A stream at reset: closed. -/
def Stream.init : Stream :=
  { st := .closed, part := 0, decoder := 0, desc := ⟨0, 0, 0, 0, 0, 0, 0, 0, 0, 0, 0, 0⟩, ridx := 0, k := 0, busy := []
    target := ⟨0, 0, 0, 0⟩, bound := 0, taken := [], queue := [], lastHi := 0, queuedHi := 0, skips := 0, shown := 0, delivered := 0
    dropStale := 0, dropFull := 0, dropOrder := 0, dropSize := 0, err := 0, closeCmd := none, ended := false }

end Sys2Proof.Machine
end

