-- ==== Sys2Proof/Machine/SystemData.lean ====
section
/-! DEFINITION. What the package holds beside quads and engines: partition blocks (spec 18 R407; 20 R439 to R455), link ports and the
replay filter (20 R452 to R454), images of pre-empted launches (19 R420 to R424), boot and identity (21 R456 to R462), and
the messages that leave the device. -/

namespace Sys2Proof.Machine

/-- A launch queue (R439, R440): SYS_LQBASE, WIDX, RIDX, the fields of SYS_LQCTL, and the cycles at which WIDX first exceeded the index
of each record not yet taken. -/
structure LaunchQ where
  base : Word64
  widx : Nat
  ridx : Nat
  ien : Bool
  vec : Nat
  err : Bool
  bells : List Nat
deriving DecidableEq, Repr

/-- A launch queue at reset. -/
def LaunchQ.init : LaunchQ := ⟨0, 0, 0, false, 0, false, []⟩

/-- A publish entry, its four words (08 R215). -/
structure PubEntry where
  w0 : Word64
  w1 : Word64
  w2 : Word64
  w3 : Word64
deriving DecidableEq, Repr

/-- A publish entry at reset. -/
def PubEntry.init : PubEntry := ⟨0, 0, 0, 0⟩

/-- What a partition block holds (R198, R215, R336, R393, R416, R439, R446 to R449, R455), the records that wait for room in the fault
ring, the MSI-X table, masks and pending bits of its host function (R437), its collectives on their way to the root, at the
root and waiting there (R335), and the QoS writes that wait for the end of a reset (R455). -/
structure Partition where
  ptroot : Word64
  cruarea : Word64
  fring : Word64
  fridx : Nat
  fwidx : Nat
  save : Word64
  busy : Bool
  irq : Word64
  expbase : Word64
  expsize : Word64
  peers : NatMap Word64
  lost : NatMap Bool
  hbmr : NatMap Word64
  pub : NatMap PubEntry
  lqs : NatMap LaunchQ
  records : List FaultRecord
  msixTable : NatMap Word64
  msixPend : NatMap Bool
  cruWay : List CruItem
  cruRoot : List CruItem
  insts : NatMap CollInst
  /-- contributions sent to roots on linked devices (R342) -/
  abroad : List AbroadLeaf
  /-- instances that another of their group has displaced while a CRFIX of theirs still waits for deliveries (R335, R346) -/
  parting : List CollInst
  qosLater : List (Nat × Word64)
deriving DecidableEq, Repr

/-- A partition block at reset. -/
def Partition.init : Partition :=
  { ptroot := 0, cruarea := 0, fring := 0, fridx := 0, fwidx := 0, save := 0, busy := false, irq := 0, expbase := 0, expsize := 0
    peers := [], lost := [], hbmr := [], pub := [], lqs := [], records := [], msixTable := [], msixPend := [], cruWay := []
    cruRoot := [], insts := [], abroad := [], parting := [], qosLater := [] }

/-- Whether a link port is in service (R452). -/
inductive PortUp where
  | up | retraining | lost
deriving DecidableEq, Repr

/-- A link port (R452 to R454): its state and registers, a flit that is being resent, a header that waits for its continuation. -/
structure LinkPort where
  st : PortUp
  /-- DTIME when its retraining began (R452) -/
  since : Nat
  bad : Word64
  transient : Word64
  stale : Word64
  /-- the last flit failed its CRC and is being resent -/
  resent : Bool
  header : Option (List Byte)
  /-- complete requests waiting to be taken, oldest first -/
  arrived : List (List Byte)
  /-- CRU transactions received whose message is not whole yet (R342) -/
  cru : List (List Byte)
  /-- the address of the block of an outstanding time-sync exchange and its T1 (R461) -/
  tsync : Option (Nat × Nat)
deriving DecidableEq, Repr

/-- A link port at reset: in service. -/
def LinkPort.init : LinkPort := ⟨.up, 0, 0, 0, 0, false, none, [], [], none⟩

/-- The replay filter's memory of one source at one port (R453): the newest sequence number seen and the cached replies. -/
structure SeqSource where
  port : Nat
  node : Nat
  part : Nat
  newest : Option Nat
  cache : NatMap (List Byte)
deriving DecidableEq, Repr

/-- Who waits for a peer to perform a write (R206): a fabric request; the STQ of a queue in a context, or a command of a copy channel, with the virtual
address written; a command of another engine; a vector of a partition that a record raises (R446), the completion record of a launch (R441), and a frame token of a stream
(R386), each the first and last with a number of their own; the doorbells of the VF of a partition (R438); system core `n` (R216); a read (`PeerRead`); the request of another peer
that this device passes on, by the port it came by and its flits, with what has come of it: bytes by offset, whether they are poisoned, the code of its refusal
(R447); nobody. -/
inductive PeerOwner where
  | request
  | store (lq q ctx va : Nat)
  | copy (lq ch va : Nat)
  | command (c : Cmd) (va : Nat)
  | vector (p v id : Nat)
  | done (n : Nat)
  | frame (n id : Nat) (t : Token)
  | host (p : Nat)
  | core (n : Nat)
  | read
  | passed (port : Nat) (flits : List Byte) (got : List (Nat × Byte)) (bad : Bool) (code : Option Nat)
  | nobody
deriving DecidableEq, Repr

/-- Whether what waits for a request is work that the reset of its partition discards (R455): not a fabric request, which is performed yet, the host, another
peer, or the vector of a record that has been written. -/
def PeerOwner.isWork : PeerOwner → Bool
  | .request => false
  | .vector _ _ _ => false
  | .host _ => false
  | .core _ => false
  | .passed _ _ _ _ _ => false
  | _ => true

/-- A request sent to a peer and not answered (R453). -/
structure PeerOut where
  port : Nat
  part : Nat
  node : Nat
  seq : Nat
  flits : List (List Byte)
  resends : Nat
  sentAt : Nat
  /-- it has still to leave: 1,024 requests of its sequence are outstanding -/
  held : Bool
  /-- the part of a memory request that it performs -/
  acc : Part
  owner : PeerOwner
deriving DecidableEq, Repr

/-- How far a read of a peer has come (R206, R453): its reply is still to come; the bytes, and whether they are poisoned; it was refused, or lost with its
port. -/
inductive ReadState where
  | out
  | got (bytes : List Byte) (bad : Bool)
  | refused (code : Nat)
deriving DecidableEq, Repr

/-- A read of a run of bytes of a peer by a queue, an engine or the arbiter (R448): who reads, as its access names it (partition, logical quad,
context, master, tag), the virtual address of its read, the physical address and the length of the run, the number of the request. -/
structure PeerRead where
  part : Nat
  lq : Nat
  ctx : Nat
  master : Nat
  tag : Nat
  va : Nat
  pa : Nat
  n : Nat
  id : Nat
  st : ReadState
deriving DecidableEq, Repr

/-- An access of the host for a VF that has still to be performed (R438): one through its export window at an offset, or one of BAR0 behind such. -/
inductive HostPosted where
  | window (off : Nat) (acc : HostAcc)
  | bar (acc : HostAcc)
deriving DecidableEq, Repr

/-- What a target of R445 has served: the cycle its window began, the services in it by partition, the partition served last and how often in succession,
and the cycle of the last service. -/
structure Service where
  since : Nat
  counts : NatMap Nat
  last : Nat
  run : Nat
  at' : Option Nat
deriving DecidableEq, Repr

/-- A target that has served nothing. -/
def Service.init : Service := ⟨0, [], 15, 0, none⟩

/-- STATE of an image (R421). -/
inductive ImageState where
  | saving | complete | restored | abandoned
deriving DecidableEq, Repr

/-- An image of a saved launch (R419 to R424): the header's fields; the launch; the physical 64 KiB pages it lies in; the index of the free values
that its sections hold; the quads still to be read out; owner tags by (physical quad, bank, frame); regions by handle; requests that no
MT had taken or that waited in a b4 assembly entry; queues by 4 * logical quad + queue; copy commands by 8 * logical quad + channel with the
channels that the fenced ones left; MXT commands by 8 * logical quad + MXT, the bypass slot 4 further; MXT_CFG of those tiles (EVSEM, EVEN, POL: R328); nodes by 16 * logical quad + 4 * MXT + node with their overflow entries; the requests whose late replies are owed. -/
structure Image where
  cause : Nat
  st : ImageState
  part : Nat
  lid : Nat
  freeze : Nat
  size : Nat
  nq : Nat
  ntag : Nat
  check : Nat
  launch : Nat
  pages : List Nat
  seed : Nat
  reading : List Nat
  tags : List (Nat × Word64)
  regions : NatMap Region
  asked : List Pending
  queues : NatMap Queue
  bce : NatMap (List Cmd)
  bceCur : NatMap Channel8
  mxcmds : NatMap (List MxCmd)
  mxcfg : NatMap (Nat × Bool × Bool)
  nodes : NatMap AccNode
  ovf : NatMap Int
  late : List Nat
deriving DecidableEq, Repr

/-- How far boot has come (R456 to R459): the boot ROM has not run; it rejected both slots, the last at the step named; the firmware
runs and has not enabled the PF; it has. -/
inductive BootPhase where
  | rom
  | failed (step : Nat)
  | firmware
  | running
deriving DecidableEq, Repr

/-- The boot state and the fused values (R456 to R462). -/
structure Boot where
  phase : BootPhase
  slot : Nat
  digest : List Byte
  version : Nat
  flash : NatMap Byte
  rsaHash : List Byte
  slhHash : List Byte
  rollback : Nat
  /-- the public keys that SIGR and SIGS are verified under (R458; log 12) -/
  rsaKey : List Byte
  slhKey : List Byte
  /-- the fused secrets of the security engine, and the private halves of the identity keys it derives from them at boot (R462) -/
  secrets : List Byte
  identity : IdentityKeys
deriving DecidableEq, Repr

/-- What the device sends out (R437, R446, R452, R462; log 17), oldest first. -/
inductive Msg where
  /-- an MSI-X message of a partition's vector; partition 16 is the PF -/
  | msix (p v : Nat)
  /-- a record shown to the system cores: its partition, kind, code and address, 0 where it was dropped -/
  | record (p kind code addr : Nat)
  /-- TIER_SHRINK to the system cores (R225): hall, physical quad, bank, and the slot, 0xFF for none -/
  | tierShrink (hall pq bank slot : Nat)
  /-- a flit leaving a link port -/
  | flit (port : Nat) (bytes : List Byte)
  /-- the bytes a host read returns -/
  | hostData (bytes : List Byte)
  /-- a host access refused with a code -/
  | hostFault (code : Nat)
  /-- the bytes that a read of system core `n` brings it -/
  | coreData (n : Nat) (bytes : List Byte)
  /-- an access of system core `n` refused with a code -/
  | coreFault (n code : Nat)
  /-- a signed report -/
  | report (bytes : List Byte)
  /-- the boot step that failed, to the management interface -/
  | bootFailure (step : Nat)
deriving DecidableEq, Repr

/-- A vault bank whose stair segment has been retired (08 R221 to R224): its contents are being copied to an evacuation slot, are there,
or are lost for want of a slot. -/
inductive BankState where
  | evacuating (hall slot : Nat)
  | evacuated (hall slot : Nat)
  | lost
deriving DecidableEq, Repr

/-- SYS_REDIR[h][n] (R222). -/
structure Redirect where
  valid : Bool
  done : Bool
  pq : Nat
  bank : Nat
deriving DecidableEq, Repr

/-- An evacuation slot at reset: unused. -/
def Redirect.init : Redirect := ⟨false, false, 0, 0⟩

/-- Whose instruction is being run: a queue's word, a slot of a region in a context, or none (an event). -/
inductive Focus where
  | idle
  | queue (lq q : Nat)
  | slot (region slot ctx : Nat)
deriving DecidableEq, Repr

end Sys2Proof.Machine
end

