-- ==== Sys2Proof/Machine/State.lean ====
section
/-! DEFINITION. The state of the machine: everything the spec gives it, as plain data (INVENTORY.md lists each piece with its rule), and
the few fields of the model's own that say who moves next. -/

namespace Sys2Proof.Machine

/-- Why a step stops. -/
inductive Fault where
  /-- Raised by step alone, when the package has no power (01 R30, 21 R463) and the turn is not POWER_ON_RESET: the spec gives an unpowered
  package no behaviour. Safe: the hardware does nothing either. -/
  | noPower
deriving DecidableEq, Repr

/-- Why an instruction has no meaning. -/
inductive Refusal where
  /-- Raised by an arm of exec whose instruction has no meaning yet. Safe. -/
  | notModelled (mnemonic : String)
deriving DecidableEq, Repr

/-- The state of the machine. -/
structure State where
  /-- the model's own: the turns to come (log 2) -/
  agenda : List Turn
  /-- the model's own: how many steps and free values have been taken (log 2) -/
  stepNo : Nat
  /-- the model's own: what has been done in this cycle, as (order, place in it), by which turns of one cycle keep the order of R100, R255 (log 2) -/
  taken : List (Nat × Nat)
  /-- the model's own: whose instruction runs -/
  focus : Focus
  /-- the model's own: the upset that strikes this step (log 16) -/
  upset : Upset
  /-- the model's own: what has left the device (log 17) -/
  out : List Msg
  /-- R30, R463 -/
  powered : Bool
  /-- R28, R35: true on the Merredy 930 -/
  is930 : Bool
  /-- R456 to R462 -/
  boot : Boot
  /-- R6 -/
  cycle : Nat
  /-- R461 -/
  dtime : Nat
  /-- R337: DTIME at the end of the previous cycle -/
  prevDtime : Nat
  /-- R461: nanoseconds of a negative offset not yet absorbed, and whether a half nanosecond is pending -/
  absorb : Nat
  halfTick : Bool
  /-- R448 -/
  sysNode : Nat
  /-- R190: bytes by physical address; an unlisted byte reads 0 (log 1) -/
  mem : NatMap Byte
  /-- R221: poisoned granules by number -/
  poison : NatMap Bool
  /-- R293: by 1024 * physical quad + 256 * bank + frame -/
  own : NatMap Word64
  /-- R221 to R224: by 4 * physical quad + bank -/
  banks : NatMap BankState
  /-- R222: by 16 * hall + slot -/
  redir : NatMap Redirect
  /-- R252: by logical quad -/
  quads : NatMap Quad
  /-- R398: by physical quad -/
  pquads : NatMap PhysQuad
  /-- R201: second-level translations by gallery -/
  tlb2 : NatMap (List TlbEntry)
  /-- R348, R363: by hall -/
  halls : NatMap Hall
  /-- R407: by partition -/
  parts : NatMap Partition
  /-- R403: by logical quad; an entry not listed is as boot sets it (log 6) -/
  remap : NatMap Word64
  /-- R450: by logical quad -/
  lqpart : NatMap Word64
  /-- R451: by context -/
  ctxown : NatMap Word64
  /-- R443, R445: access tables and QoS words, by register address in SPACE 5 and 6 -/
  tables : NatMap Word64
  /-- R452: by port -/
  ports : NatMap LinkPort
  /-- R453 -/
  sources : List SeqSource
  /-- R453: next SEQ by 4096 * partition + target node -/
  nextSeq : NatMap Nat
  /-- R453 -/
  peerOut : List PeerOut
  /-- R206: commands that have done all but the writes a peer has still to perform -/
  owing : List Cmd
  /-- R448, R453: reads of peers by queues, engines and the arbiter -/
  peerReads : List PeerRead
  /-- R438: by partition, the accesses of its VF that wait, oldest first -/
  posted : NatMap (List HostPosted)
  /-- R445: by the register address of the target's table -/
  served : NatMap Service
  /-- R100: completions that a word or a firing has brought about and that signal in the place of their unit, with that place -/
  late : List (Nat × Cmd)
  /-- R36 to R47: by the arbiter's own number -/
  launches : NatMap Launch
  nextLaunch : Nat
  /-- R50: by handle -/
  regions : NatMap Region
  /-- R226: memory requests at their entry MTs, and their parts at the homes of their bytes -/
  pending : List Pending
  homes : List Part
  nextId : Nat
  /-- R272: the ranges that the home sequencers held at the end of the previous cycle: region, slot, context, iterations left -/
  ranges : List (Nat × Nat × Nat × Nat)
  /-- R420 -/
  images : NatMap Image
  nextImage : Nat
  /-- R354: by 4096 * launch + task, the priority trees of each hall as of the task's last synchronisation point -/
  taskTrees : NatMap (NatMap (NatMap PseTree))
  /-- R382: by stream number -/
  streams : NatMap Stream
deriving DecidableEq, Repr

/-- The machine right after reset (R456). Values the spec does not give are named in the assumption log (1, 2, 4, 5, 6, 7). -/
def State.reset : State :=
  { agenda := [], stepNo := 0, taken := [], focus := .idle, upset := .none, out := [], powered := true, is930 := false
    boot := ⟨.rom, 0, [], 0, [], [], [], 0, [], [], [], ⟨0, 0, []⟩⟩, cycle := 0, dtime := 0, prevDtime := 0, absorb := 0, halfTick := false, sysNode := 0, mem := [], poison := []
    own := [], banks := [], redir := [], quads := [], pquads := [], tlb2 := [], halls := [], parts := [], remap := [], lqpart := []
    ctxown := [], tables := [], ports := [], sources := [], nextSeq := [], peerOut := [], owing := [], peerReads := [], posted := [], served := [], late := [], launches := [], nextLaunch := 0
    regions := [], pending := [], homes := [], nextId := 0, ranges := [], images := [], nextImage := 0, taskTrees := [], streams := [] }

/-- A next state of the machine. -/
abbrev Result := Host.Outcome State Fault Refusal

end Sys2Proof.Machine
end

