-- ==== Sys2Proof/Machine/Memory.lean ====
section
/-! DEFINITION. Memory by physical address: the map of the address space (spec 08 R190 to R193), reads and writes of bytes with poison
marks (R221), and which target's access table an address belongs to (20 R443, R444). Byte order is decided here once: little-endian
(R4). -/

namespace Sys2Proof.Machine

/-- A list in ascending order of a key, equals in the order in which they stand. -/
def sortBy {α : Type} (key : α → Nat) (xs : List α) : List α := xs.foldl (fun acc x => insertBy key x acc) []

/-- The part's parameters (R35, R190, R464). -/
def State.numPq (s : State) : Nat := if s.is930 then 64 else 128
/-- Link ports of the part (R464). -/
def State.numPorts (s : State) : Nat := if s.is930 then 18 else 36
/-- Halls of the part (R464). -/
def State.numHalls (s : State) : Nat := if s.is930 then 1 else 2

/-- First address of the HBM range (R190). -/
def hbmBase : Nat := 0x10000000000
/-- Bytes of HBM that one hall's stacks hold (R190). -/
def hbmHall : Nat := 384000000000
/-- First address of the capacity tier (R190). -/
def capBase : Nat := 0x20000000000
/-- First address of the peer window (R190). -/
def peerBase : Nat := 2 ^ 50
/-- First address of the host window (R190). -/
def hostBase : Nat := 2 ^ 51

/-- The ranges of the physical address map (R190). -/
inductive Range where
  | vault | hbm | cap | peer | host | hole
deriving DecidableEq, Repr

/-- The range of a physical address (R190). -/
def rangeOf (s : State) (pa : Nat) : Range :=
  if pa < 2 ^ 26 * s.numPq then .vault
  else if hbmBase ≤ pa ∧ pa < hbmBase + s.numHalls * hbmHall then .hbm
  else if capBase ≤ pa ∧ pa < capBase + s.numHalls * 256000000000 then .cap
  else if peerBase ≤ pa ∧ pa < 2 * peerBase then .peer
  else if hostBase ≤ pa ∧ pa < 2 * hostBase then .host
  else .hole

/-- The physical quad of a vault address (R192). -/
def vaultPq (pa : Nat) : Nat := bits pa 32 26
/-- The bank of a vault address (R192). -/
def vaultBank (pa : Nat) : Nat := bits pa 9 8
/-- The offset in the bank of a vault address (R192). -/
def vaultOff (pa : Nat) : Nat := bits pa 25 10 * 256 + bits pa 7 0
/-- The peer index of a peer-window address (R190). -/
def peerIndex (pa : Nat) : Nat := bits pa 49 44

/-- The base of slice `m` of the near-vault backing area of the 930 (R193, R460). -/
def backingSlice (m : Nat) : Nat := 0x158582F0000 + 2 ^ 26 * m

/-- SYS_REMAP[lq] as boot sets it (R403): the identity on the 960; on the 930 two logical quads on each physical quad. -/
def bootRemap (s : State) (lq : Nat) : Word64 :=
  if s.is930 then
    if lq < 64 then BitVec.ofNat 64 (lq * 2 ^ 16 + 2 * 2 ^ 8 + lq)
    else BitVec.ofNat 64 (2 ^ 23 + (lq - 64) * 2 ^ 16 + 2 * 2 ^ 8 + (lq - 64))
  else BitVec.ofNat 64 (lq * 2 ^ 16 + 2 ^ 8 + lq)

/-- SYS_REMAP[lq] (R403). -/
def State.remapOf (s : State) (lq : Nat) : Nat := ((NatMap.find? s.remap lq).getD (bootRemap s lq)).toNat

/-- The physical quad that hosts a logical quad (R403). -/
def State.pqOf (s : State) (lq : Nat) : Nat := bits (s.remapOf lq) 6 0

/-- The first byte of the near vault of a logical quad (R193). -/
def State.nearBase (s : State) (lq : Nat) : Nat :=
  let r := s.remapOf lq
  if bit r 23 then backingSlice (bits r 22 16) else bits r 22 16 * 2 ^ 26

/-- What an unlisted byte of memory reads as (log 1). -/
def unlisted : Byte := 0

/-- The byte at a physical address. -/
def State.byteAt (s : State) (pa : Nat) : Byte := NatMap.get unlisted s.mem pa

/-- `n` bytes from a physical address. -/
def State.bytesAt (s : State) (pa : Nat) : Nat → List Byte
  | 0 => []
  | n + 1 => s.byteAt pa :: s.bytesAt (pa + 1) n

/-- The `n`-byte little-endian number at a physical address (R4). -/
def State.numAt (s : State) (pa n : Nat) : Nat := ofBytes (s.bytesAt pa n)

/-- Bytes put into a memory map from an address upward. -/
def putBytes : NatMap Byte → Nat → List Byte → NatMap Byte
  | m, _, [] => m
  | m, pa, b :: bs => putBytes (NatMap.set unlisted m pa b) (pa + 1) bs

/-- Whether any of the granules of `n` bytes from `pa` is marked poisoned (R221). -/
def State.poisonedAt (s : State) (pa n : Nat) : Bool :=
  (List.range (if n = 0 then 0 else (pa + n - 1) / 64 + 1 - pa / 64)).any fun i => NatMap.get false s.poison (pa / 64 + i)

/-- The memory of the state in canonical form (NatMap). -/
def Memory.wf (s : State) : Bool := NatMap.wf unlisted s.mem

/-- Clear the marks of the granules that a write of `n` bytes at `pa` covers whole (R221). -/
def clearMarks (p : NatMap Bool) (pa n : Nat) : NatMap Bool :=
  ((List.range (n / 64 + 2)).map (pa / 64 + ·)).foldl
    (fun p g => if pa ≤ 64 * g ∧ 64 * g + 64 ≤ pa + n then NatMap.set false p g false else p) p

/-- Mark or clear the granule of an address as poisoned. -/
def State.markGranule (s : State) (pa : Nat) (b : Bool) : State := { s with poison := NatMap.set false s.poison (pa / 64) b }

/-- Words of the private areas of trees and grammar slots that a write of another master touches are known by their checks (15 R349, 16
R370). -/
def tamper (h : Hall) (pa n : Nat) : Hall :=
  { h with
    trees := h.trees.map fun e =>
      (e.1, if e.2.valid && decide (pa < e.2.area + alignUp (2 ^ 16) (24 * 2 ^ e.2.depth)) && decide (e.2.area < pa + n) then { e.2 with tampered := true } else e.2)
    slots := h.slots.map fun e =>
      (e.1, if e.2.valid && decide (pa < e.2.area + e.2.areaLen) && decide (e.2.area < pa + n) then { e.2 with tampered := true } else e.2) }

/-- A write of bytes at a physical address (R206, R208): the bytes, the marks it clears, and the checks it breaks. -/
def State.writeAt (s : State) (pa : Nat) (bs : List Byte) : State :=
  { s with
    mem := putBytes s.mem pa bs
    poison := clearMarks s.poison pa bs.length
    halls := s.halls.map fun e => (e.1, tamper e.2 pa bs.length) }

/-- A little-endian number written in `n` bytes (R4). -/
def State.putNum (s : State) (pa n x : Nat) : State := s.writeAt pa (toBytes n x)

/-- Register address of an access table or QoS word (R407, R444). -/
def regAddr (space index off : Nat) : Nat := space * 2 ^ 36 + index * 2 ^ 28 + off

/-- The stack of an HBM address (R190, log 9: how a hall's addresses are spread over its eight stacks is the model's choice: in equal runs
of 48 GB). -/
def hbmStack (pa : Nat) : Nat := (pa - hbmBase) / 48000000000

/-- The base register address of the access table of the target that holds an address, where it has one (R444): the bank's MT, the HBM
stack's controller, the capacity-tier controller, or the link port of the peer. -/
def tableOf (s : State) (part pa : Nat) : Option Nat :=
  match rangeOf s pa with
  | .vault => some (regAddr 5 (vaultPq pa) (0x800 * vaultBank pa))
  | .hbm => some (regAddr 6 (hbmStack pa) 0)
  | .cap => some (regAddr 6 16 0)
  | .peer => some (regAddr 6 (64 + bits (NatMap.get 0 (NatMap.get .init s.parts part).peers (peerIndex pa)).toNat 41 36) 0)
  | _ => none

/-- The rights of an access-table entry (R443). -/
inductive Right where
  | rd | wr | atm | cfg
deriving DecidableEq, Repr

/-- The bit of a right in an entry (R443). -/
def Right.bit : Right → Nat
  | .rd => 0
  | .wr => 1
  | .atm => 2
  | .cfg => 3

/-- Entry `m` of the table at a register address (R443). -/
def State.tableEntry (s : State) (base m : Nat) : Nat :=
  ((NatMap.get 0 s.tables (base + 8 * (m / 4))).toNat >>> (16 * (m % 4))) % 2 ^ 16

/-- Whether an access-table entry lets an access of a partition pass (R443). -/
def entryPasses (e part : Nat) (r : Right) : Bool :=
  bit e 15 && (bit e 10 || decide (bits e 14 11 = part)) && bit e r.bit

/-- The areas at the top of each hall's part of HBM that boot firmware reserves (R190, R460): the evacuation area of each hall and, in hall 0, the
turn area and, on the 930, the near-vault backing area. They lie in no partition's range. -/
def bootReserved (s : State) (pa : Nat) : Bool :=
  if s.is930 then decide (0x158482F0000 ≤ pa) && decide (pa < 0x159682F0000)
  else (decide (0x159482F0000 ≤ pa) && decide (pa < 0x159682F0000)) || (decide (0x1B2C05E0000 ≤ pa) && decide (pa < 0x1B2D05E0000))

/-- Whether an HBM access of a partition lies in one of its valid ranges (R449), outside the areas that boot reserves (R190). -/
def inRanges (s : State) (part pa : Nat) : Bool :=
  !bootReserved s pa && (NatMap.get .init s.parts part).hbmr.any fun e =>
    let v := e.2.toNat
    bit v 0 && decide (bits v 51 30 ≤ pa / 2 ^ 30) && decide (pa / 2 ^ 30 ≤ bits v 29 8)

/-- The launch arbiter, whose reads are not subject to access tables (R48) and whose identifier no master has (R442; log 85). -/
def masterArbiter : Nat := 0x400

/-- Whether the target of an address lets an access pass (R443, R449). The near-vault backing area of the 930 is an area of no
partition's range (R193, R449): it is reached only as the near vault of a logical quad. -/
def targetPasses (s : State) (part master pa : Nat) (near : Bool) (r : Right) : Bool :=
  (decide (master = masterArbiter) || match tableOf s part pa with
    | some t => entryPasses (s.tableEntry t master) part r
    | none => true) &&
  (if rangeOf s pa = .hbm ∧ ¬near then inRanges s part pa else true)

end Sys2Proof.Machine
end

