-- ==== Sys2Proof/Machine/Translate.lean ====
section
/-! DEFINITION. Translation and rights (spec 08 R191 to R203), publish ranges (R215 to R217), access tables (20 R443), in the order the spec
gives them. -/

namespace Sys2Proof.Machine

/-- What an access asks for (R199, R443): a read, a write, an atomic or reduction. -/
inductive Want where
  | read | write | atm
deriving DecidableEq, Repr

/-- How an access meets a publish range (R216): an engine result write (or the read half of an integer drain's add) goes to SHADOW, a
read to FRONT, any other write faults. -/
inductive PubUse where
  | plain | result
deriving DecidableEq, Repr

/-- An access: for which partition and context, from which logical quad, by which master (R442), asking what. The tag is the model's own: for which issue
of that master it is, by which the reply of a peer finds it (log 18). -/
structure Access where
  part : Nat
  lq : Nat
  ctx : Nat
  master : Nat
  want : Want
  pub : PubUse
  tag : Nat
deriving DecidableEq, Repr

/-- What translation answers: a physical address (with its MTYPE), a page under HOLD, a fault with its code and the level of R200. -/
inductive Translated where
  | ok (pa mtype : Nat)
  | hold (vpn : Nat)
  | fault (code level : Nat)
deriving DecidableEq, Repr

/-- TRANSLATION (R391). -/
def codeTranslation : Nat := 0x10
/-- PERMISSION (R391). -/
def codePermission : Nat := 0x11
/-- ACCESS_DENIED (R391). -/
def codeDenied : Nat := 0x12
/-- ALIGNMENT (R391). -/
def codeAlignment : Nat := 0x13
/-- ILLEGAL_CMD (R391). -/
def codeIllegal : Nat := 0x02
/-- UNCORRECTABLE (R391). -/
def codeUncorrectable : Nat := 0x42

/-- Page sizes by level of the leaf (R196). -/
def pageSize : Nat → Nat
  | 0 => 2 ^ 16
  | 1 => 2 ^ 21
  | _ => 2 ^ 30

/-- The index a virtual address gives into the table of a level (R196). -/
def tableIndex (va : Nat) : Nat → Nat
  | 0 => bits va 20 16
  | 1 => bits va 29 21
  | 2 => bits va 38 30
  | 3 => bits va 47 39
  | _ => bits va 56 48

/-- Bytes of the table of a level (R196). -/
def tableBytes (level : Nat) : Nat := if level = 0 then 256 else 4096

/-- The partition block of a partition. -/
def State.partOf (s : State) (p : Nat) : Partition := NatMap.get .init s.parts p

/-- Whether a peer index is enabled for a partition (R191, R448): V is set and its port is present on the part. -/
def peerEnabled (s : State) (part n : Nat) : Bool :=
  let v := (NatMap.get 0 (s.partOf part).peers n).toNat
  bit v 63 && decide (bits v 41 36 < s.numPorts)

/-- Whether the MTYPE of a leaf agrees with its address and page size (R191), an address in a hole agreeing with none. -/
def mtypeOk (s : State) (part mtype pa size : Nat) : Bool :=
  if mtype = 0 then decide (pa < 2 ^ 26) && decide (size ≤ 2 ^ 21)
  else if mtype = 1 then decide (rangeOf s pa = .vault) && decide (size ≤ 2 ^ 21)
  else if mtype = 2 then decide (rangeOf s pa = .hbm) && decide (rangeOf s (pa + size - 1) = .hbm)
  else if mtype = 3 then decide (rangeOf s pa = .cap) && decide (rangeOf s (pa + size - 1) = .cap)
  else if mtype = 4 then decide (rangeOf s pa = .host)
  else if mtype = 5 then decide (rangeOf s pa = .peer) && peerEnabled s part (peerIndex pa)
  else false

/-- Whether an entry is a leaf that R197, R199 let stand at a level. -/
def leafOk (s : State) (part e level : Nat) : Bool :=
  decide (level ≤ 2) && decide (e / 2 ^ 53 = 0) && decide (bits e 51 8 * 2 ^ 8 % pageSize level = 0) &&
  mtypeOk s part (bits e 7 5) (bits e 51 8 * 2 ^ 8) (pageSize level)

/-- Whether an entry names a next table that R197, R199 let stand at a level. -/
def tableOk (s : State) (e level : Nat) : Bool :=
  decide (1 ≤ level) && decide (e / 2 ^ 52 = 0) && decide (bits e 7 2 = 0) &&
  decide (bits e 51 8 * 2 ^ 8 % tableBytes (level - 1) = 0) && decide (rangeOf s (bits e 51 8 * 2 ^ 8) = .hbm)

/-- What a walk answers: the leaf with its level, or a stop with the fault code and the level (R199, R200). -/
inductive Walked where
  | leaf (pte level : Nat)
  | stop (code level : Nat)
deriving DecidableEq, Repr

/-- The walk from the table at `tbl` of `level` (R199). The walker of a hall reads as its own master (R442); a refused read ends the walk
with ACCESS_DENIED (log 30). -/
def walkFrom (s : State) (part walker va : Nat) : Nat → Nat → Walked
  | level, tbl =>
    let pa := tbl + 8 * tableIndex va level
    if !targetPasses s part walker pa false .rd then .stop codeDenied 7
    else
      let e := s.numAt pa 8
      if !bit e 0 then .stop codeTranslation level
      else if bit e 1 then
        if leafOk s part e level then .leaf e level else .stop codeTranslation level
      else if !tableOk s e level then .stop codeTranslation level
      else
        match level with
        | 0 => .stop codeTranslation 0
        | l + 1 => walkFrom s part walker va l (bits e 51 8 * 2 ^ 8)

/-- A walk of a partition's page tables (R198, R199), by the walker of the hall of the asking quad. -/
def walk (s : State) (part lq va : Nat) : Walked :=
  let root := (s.partOf part).ptroot.toNat
  if !bit root 0 then .stop codeTranslation 4
  else if rangeOf s (bits root 51 12 * 2 ^ 12) ≠ .hbm then .stop codeTranslation 4
  else walkFrom s part (0x216 + s.pqOf lq / 64) va 4 (bits root 51 12 * 2 ^ 12)

/-- Whether a translation buffer entry covers an address of a partition. -/
def TlbEntry.covers (t : TlbEntry) (part va : Nat) : Bool :=
  decide (t.part = part) && decide (t.base ≤ va) && decide (va < t.base + t.size)

/-- The translations of a physical quad. -/
def State.pquadOf (s : State) (pq : Nat) : PhysQuad := NatMap.get .init s.pquads pq

/-- A translation held for an address in the buffers that a logical quad's accesses go through (R201). -/
def tlbHit (s : State) (lq part va : Nat) : Option TlbEntry :=
  let pq := s.pqOf lq
  match (s.pquadOf pq).tlb.find? (·.covers part va) with
  | some t => some t
  | none => (NatMap.get [] s.tlb2 (pq / 16)).find? (·.covers part va)

/-- The leaf an access goes by: from the buffers, else by a walk; with EN = 0 every access of the partition stops (R198). -/
def leafFor (s : State) (lq part va : Nat) : Walked :=
  if !bit (s.partOf part).ptroot.toNat 0 then .stop codeTranslation 4
  else
    match tlbHit s lq part va with
    | some t => .leaf t.pte.toNat (if t.size = 2 ^ 16 then 0 else if t.size = 2 ^ 21 then 1 else 2)
    | none => walk s part lq va

/-- Whether an access through a logical quad's translation finds a miss-status entry that an earlier access to the page holds on HOLD: it waits with
that access for the TLBINV that covers the page (R201, R203). -/
def heldPage (s : State) (lq part va : Nat) : Bool :=
  (s.pquadOf (s.pqOf lq)).held.contains (part, va / 2 ^ 16) ||
  s.pending.any fun p => decide (p.st = .hold (va / 2 ^ 16)) && decide (p.req.part = part) && decide (s.pqOf p.req.lq = s.pqOf lq)

/-- Whether a leaf grants what an access asks (R199). -/
def grants (pte : Nat) : Want → Bool
  | .read => bit pte 2
  | .write => bit pte 3
  | .atm => bit pte 4

/-- The publish entry whose range holds an address, with its number: the lowest valid one (R215). -/
def pubEntryAt (s : State) (part va : Nat) : Option (Nat × PubEntry) :=
  List.find? (fun e =>
    bit e.2.w0.toNat 0 && decide (bits e.2.w0.toNat 56 16 * 2 ^ 16 ≤ va) &&
    decide (va < bits e.2.w0.toNat 56 16 * 2 ^ 16 + bits e.2.w1.toNat 19 0 * 2 ^ 16)) (s.partOf part).pub

/-- FRONT of a publish entry as an address (R215). -/
def PubEntry.front (e : PubEntry) : Nat := bits e.w2.toNat 51 16 * 2 ^ 16
/-- SHADOW of a publish entry as an address (R215). -/
def PubEntry.shadow (e : PubEntry) : Nat := bits e.w3.toNat 51 16 * 2 ^ 16
/-- LEN of a publish entry in bytes (R215). -/
def PubEntry.bytes (e : PubEntry) : Nat := bits e.w1.toNat 19 0 * 2 ^ 16
/-- VBASE of a publish entry (R215). -/
def PubEntry.base (e : PubEntry) : Nat := bits e.w0.toNat 56 16 * 2 ^ 16

/-- Whether the MTYPE of a page that maps part of an entry's range agrees with FRONT and SHADOW (R215). -/
def pubTypeOk (s : State) (e : PubEntry) (mtype : Nat) : Bool :=
  decide (1 ≤ mtype) && decide (mtype ≤ 3) && decide (1 ≤ bits e.w1.toNat 19 0) &&
  mtypeOk s 0 mtype e.front (2 ^ 16) && mtypeOk s 0 mtype e.shadow (2 ^ 16) &&
  mtypeOk s 0 mtype (e.front + e.bytes - 2 ^ 16) (2 ^ 16) && mtypeOk s 0 mtype (e.shadow + e.bytes - 2 ^ 16) (2 ^ 16)

/-- Whether a valid entry meets R215's conditions: for the page an access meets, and for every page that maps [VBASE, VBASE + LEN). -/
def pubOk (s : State) (a : Access) (e : PubEntry) (mtype : Nat) : Bool :=
  pubTypeOk s e mtype &&
  (List.range (bits e.w1.toNat 19 0)).all fun i =>
    match leafFor s a.lq a.part ((e.base + 2 ^ 16 * i) % 2 ^ 57) with
    | .leaf pte _ => pubTypeOk s e (bits pte 7 5)
    | .stop _ _ => true

/-- The right an access needs at the access table of its target (R443). -/
def Want.right : Want → Right
  | .read => .rd
  | .write => .wr
  | .atm => .atm


/-- The check of the target, after translation (R199, R443, R454): a port that is lost since the partition's peer entry was written
refuses every request. -/
def atTarget (s : State) (a : Access) (pa mtype : Nat) (r : Right) : Translated :=
  if rangeOf s pa = .peer ∧ NatMap.get false (s.partOf a.part).lost (peerIndex pa) then .fault codeDenied 7
  else if targetPasses s a.part a.master pa (decide (mtype = 0)) r = true then .ok pa mtype
  else .fault codeDenied 7

/-- Whether a context belongs to a running launch in deterministic operation (R75). -/
def detLaunchOf (s : State) (ctx : Nat) : Option (Nat × Launch) :=
  List.find? (fun e => e.2.rcd.det && e.2.ctxs.contains ctx) s.launches

/-- The physical address that a leaf and the publish table give an access (R193, R216), before the target's check. -/
def place (s : State) (a : Access) (va pte level : Nat) : Translated :=
  let mtype := bits pte 7 5
  let pa0 := bits pte 51 8 * 2 ^ 8 + va % pageSize level
  let pa := if mtype = 0 then s.nearBase a.lq + pa0 else pa0
  match pubEntryAt s a.part va with
  | none => atTarget s a pa mtype a.want.right
  | some (_, e) =>
    if !pubOk s a e mtype then .fault codeTranslation level
    else
      match a.pub, a.want with
      | .result, _ => atTarget s a (e.shadow + (va - e.base)) mtype a.want.right
      | .plain, .read => atTarget s a (e.front + (va - e.base)) mtype .rd
      | .plain, _ => .fault codePermission 7

/-- Translation of one address for an access (R199): the walk or a held translation, HOLD (R203), rights, the pages a deterministic task may
not reach (R218), the publish table (R216), the target's access table (R443). -/
def translate (s : State) (a : Access) (va : Nat) : Translated :=
  match leafFor s a.lq a.part va with
  | .stop c l => .fault c l
  | .leaf pte level =>
    if bit pte 52 || heldPage s a.lq a.part va then .hold (va / 2 ^ 16)
    else if !grants pte a.want then .fault codePermission 7
    else if (bits pte 7 5 = 4 ∨ bits pte 7 5 = 5) ∧ (detLaunchOf s a.ctx).isSome then .fault codePermission 7
    else place s a va pte level

/-- The translation of a whole access of `n` bytes, granule by granule in ascending address (R229): the physical address of each granule's
bytes with its length, or the first fault with the address it is for. -/
inductive Spread where
  | ok (runs : List (Nat × Nat))
  | hold (vpn : Nat)
  | fault (code level va : Nat)
deriving DecidableEq, Repr

/-- Put a run before the runs of the rest. -/
def Spread.cons (pa n : Nat) : Spread → Spread
  | .ok rs => .ok ((pa, n) :: rs)
  | x => x

/-- The runs of `n` bytes from `va`; `fuel` bounds the granules. -/
def spreadFuel (s : State) (a : Access) : Nat → Nat → Nat → Spread
  | 0, _, _ => .ok []
  | fuel + 1, va, n =>
    if n = 0 then .ok []
    else
      let k := min n (64 - va % 64)
      match translate s a (va % 2 ^ 57) with
      | .fault c l => .fault c l (va % 2 ^ 57)
      | .hold v => .hold v
      | .ok pa _ => (spreadFuel s a fuel (va + k) (n - k)).cons pa k

/-- The runs of `n` bytes from `va` (R229). -/
def spread (s : State) (a : Access) (va n : Nat) : Spread := spreadFuel s a (n / 64 + 2) va n

/-- The master of fabric requests, LDQ and STQ of a logical quad (R442). -/
def masterQuad (lq : Nat) : Nat := lq
/-- The master of a BCE (R442). -/
def masterBce (lq : Nat) : Nat := 0x080 + lq
/-- The master of the MXTs of a quad (R442). -/
def masterMxt (lq : Nat) : Nat := 0x100 + lq
/-- The master of a quad-level CRU (R442). -/
def masterCru (lq : Nat) : Nat := 0x180 + lq
/-- The master of a PSE (R442). -/
def masterPse (hall : Nat) : Nat := 0x210 + hall
/-- The master of a GME (R442). -/
def masterGme (hall : Nat) : Nat := 0x212 + hall
/-- The master of the VIE (R442). -/
def masterVie : Nat := 0x214
/-- The master of system core 0 (R442). -/
def masterCore : Nat := 0x220

end Sys2Proof.Machine
end

