-- ==== Sys2Proof/Machine/Flits.lean ====
section
/-! DEFINITION. Flits of Cardaow Link (spec 20 R452, R453): the CRC, the header flit, and a request to a peer. -/

namespace Sys2Proof.Machine

/-- One bit of a CRC-32C, least significant bit first. -/
def crcBit (c : Nat) : Nat := if c % 2 = 1 then (c / 2) ^^^ 0x82F63B78 else c / 2

/-- One byte of a CRC-32C. -/
def crcByte (c : Nat) (b : Byte) : Nat :=
  let x := c ^^^ b.toNat
  crcBit (crcBit (crcBit (crcBit (crcBit (crcBit (crcBit (crcBit x)))))))

/-- CRC-32C of a byte string (R421, R452). -/
def crc32c (bs : List Byte) : Nat := (bs.foldl crcByte 0xFFFFFFFF) ^^^ 0xFFFFFFFF

/-- Bytes padded with zeros, or cut, to a length. -/
def padTo (n : Nat) (bs : List Byte) : List Byte := (bs ++ List.replicate (n - bs.length) 0).take n

/-- A flit: 60 bytes and their CRC (R452). -/
def flitOf (bs : List Byte) : List Byte := padTo 60 bs ++ toBytes 4 (crc32c (padTo 60 bs))

/-- The fields of a header flit (R452). -/
structure FlitHeader where
  type : Nat
  srcPart : Nat
  dstPart : Nat
  node : Nat
  seq : Nat
  off : Nat
  fmt : Nat
  op : Nat
  lmask : Nat
  data : List Byte
deriving DecidableEq, Repr

/-- The flits of a transaction: the header flit with the first 36 data bytes, and a continuation flit where there are more (R452). -/
def FlitHeader.flits (f : FlitHeader) : List (List Byte) :=
  let n := f.data.length
  let head := toBytes 1 f.type ++ toBytes 1 (f.srcPart + 16 * f.dstPart) ++ toBytes 2 (f.node % 4096) ++ toBytes 4 f.seq ++ toBytes 6 f.off ++
    toBytes 1 (f.fmt + 16 * f.op) ++ toBytes 1 f.lmask ++ toBytes 1 n ++ toBytes 1 (b2n (36 < n)) ++ toBytes 6 0 ++ f.data.take 36
  flitOf head :: (if 36 < n then [flitOf (f.data.drop 36)] else [])

/-- Read a header flit and the data of its continuation (R452). -/
def parseHeader (h cont : List Byte) : FlitHeader :=
  let at' := fun i n => Sys2Proof.ofBytes ((h.drop i).take n)
  { type := at' 0 1, srcPart := at' 1 1 % 16, dstPart := at' 1 1 / 16, node := at' 2 2 % 4096, seq := at' 4 4, off := at' 8 6 % 2 ^ 44
    fmt := at' 14 1 % 16, op := at' 14 1 / 16, lmask := at' 15 1
    data := (((h.drop 24).take 36) ++ (cont.take 60)).take (at' 16 1) }

/-- The op of a write of poisoned data (logs 31, 52). -/
def opPoison : Nat := 0xE

/-- Send flits by a port; none leave by a port that retrains or is lost. -/
def State.sendFlits (s : State) (port : Nat) (fs : List (List Byte)) : State :=
  if (NatMap.get .init s.ports port).st = .up then { s with out := s.out ++ fs.map fun f => Msg.flit port f } else s

/-- The requests of a partition to a node that are outstanding (R453). -/
def State.outstanding (s : State) (part node : Nat) : Nat :=
  (s.peerOut.filter fun o => decide (o.part = part) && decide (o.node = node) && !o.held).length

/-- A request of a partition to a partition of a linked device (R453): it takes the next SEQ of its sequence, leaves once fewer than 1,024 of the sequence
are outstanding, and stays outstanding until it is answered. -/
def State.sendFar (s : State) (part : Nat) (dst : Far) (type off fmt op lmask : Nat) (data : List Byte) (acc : Part) (owner : PeerOwner) : State :=
  let key := 4096 * part + dst.node
  let seq := NatMap.get 0 s.nextSeq key
  let fs := FlitHeader.flits ⟨type, part, dst.part, s.sysNode, seq, off, fmt, op, lmask, data⟩
  let full := decide (1024 ≤ s.outstanding part dst.node)
  { (if full then s else s.sendFlits dst.port fs) with
    nextSeq := NatMap.set 0 s.nextSeq key ((seq + 1) % 2 ^ 32)
    peerOut := s.peerOut ++ [⟨dst.port, part, dst.node, seq, fs, 0, s.dtime, full, acc, owner⟩] }

/-- Where the entry of a peer index leads (R448). -/
def Partition.farOf (x : Partition) (n : Nat) : Far :=
  let e := (NatMap.get 0 x.peers n).toNat
  ⟨bits e 41 36, bits e 11 0, bits e 35 32⟩

/-- A request of a partition to the peer that holds an address (R448, R453). Its offset lies `back` bytes before the address: an access names its own first
byte, whichever part of it the request asks for. -/
def State.sendPeer (s : State) (part pa back type op fmt lmask : Nat) (data : List Byte) (acc : Part) : State :=
  s.sendFar part ((s.partOf part).farOf (peerIndex pa)) type ((bits pa 43 0 + 2 ^ 44 - back) % 2 ^ 44) fmt op lmask data acc .request

/-- The oldest request of a sequence that waits for room leaves, where there is room (R453). -/
def State.sendNext (s : State) (part node : Nat) : State :=
  if 1024 ≤ s.outstanding part node then s
  else
    match s.peerOut.find? fun o => decide (o.part = part) && decide (o.node = node) && o.held with
    | none => s
    | some o => { s with peerOut := mapWhere (fun x => decide (x = o)) (fun x => { x with held := false, sentAt := s.dtime }) s.peerOut }.sendFlits o.port o.flits

end Sys2Proof.Machine
end

