-- ==== Sys2Proof/Machine/Ops.lean ====
section
/-! DEFINITION. The operations that the meanings share: the parts of the state by name, time, memory as a context sees it (spec 08
R205 to R220), scalar registers (10 R252), signals (03 R99, R100), fault records and interrupts (18 R393, R394; 20 R446), and
TAKING A TRAP (18 R395) with the return from it. -/

namespace Sys2Proof.Machine

/-! ## The parts of the state -/

/-- A logical quad. -/
def State.quadOf (s : State) (lq : Nat) : Quad := NatMap.get .init s.quads lq
/-- Put a logical quad. -/
def State.setQuad (s : State) (lq : Nat) (x : Quad) : State := { s with quads := NatMap.set .init s.quads lq x }
/-- Put a physical quad. -/
def State.setPquad (s : State) (pq : Nat) (x : PhysQuad) : State := { s with pquads := NatMap.set .init s.pquads pq x }
/-- Put a partition block. -/
def State.setPart (s : State) (p : Nat) (x : Partition) : State := { s with parts := NatMap.set .init s.parts p x }
/-- A hall base. -/
def State.hallOf (s : State) (h : Nat) : Hall := NatMap.get .init s.halls h
/-- Put a hall base. -/
def State.setHall (s : State) (h : Nat) (x : Hall) : State := { s with halls := NatMap.set .init s.halls h x }
/-- A link port. -/
def State.portOf (s : State) (k : Nat) : LinkPort := NatMap.get .init s.ports k
/-- Put a link port. -/
def State.setPort (s : State) (k : Nat) (x : LinkPort) : State := { s with ports := NatMap.set .init s.ports k x }
/-- A queue of a logical quad (R252). -/
def State.queueOf (s : State) (lq q : Nat) : Queue := NatMap.get .init (s.quadOf lq).queues q
/-- Put a queue of a quad. -/
def Quad.setQueue (x : Quad) (q : Nat) (y : Queue) : Quad := { x with queues := NatMap.set .init x.queues q y }
/-- Put a queue of a logical quad. -/
def State.setQueue (s : State) (lq q : Nat) (y : Queue) : State := s.setQuad lq ((s.quadOf lq).setQueue q y)
/-- A region, where the handle names one. -/
def State.region? (s : State) (r : Nat) : Option Region := NatMap.find? s.regions r
/-- Put a region. -/
def State.setRegion (s : State) (r : Nat) (x : Region) : State := { s with regions := NatMap.insert s.regions r x }
/-- A launch, where the number names one. -/
def State.launch? (s : State) (l : Nat) : Option Launch := NatMap.find? s.launches l
/-- Put a launch. -/
def State.setLaunch (s : State) (l : Nat) (x : Launch) : State := { s with launches := NatMap.insert s.launches l x }
/-- SYS_LQPART of a logical quad: its partition where V is set (R450). -/
def State.lqOwner (s : State) (lq : Nat) : Option Nat :=
  let v := (NatMap.get 0 s.lqpart lq).toNat
  if bit v 4 then some (bits v 3 0) else none
/-- The partition a queue of a logical quad acts for; 0 where none is assigned, in which case no queue runs (R253). -/
def State.partOfLq (s : State) (lq : Nat) : Nat := (s.lqOwner lq).getD 0
/-- A channel of the copy engine of a quad (R277). -/
def Quad.chan (x : Quad) (k : Nat) : Channel8 := NatMap.get .init x.bce k
/-- Put a channel. -/
def Quad.setChan (x : Quad) (k : Nat) (c : Channel8) : Quad := { x with bce := NatMap.set .init x.bce k c }
/-- A matrix tile of a quad (R304). -/
def Quad.mx (x : Quad) (m : Nat) : Mxt := NatMap.get .init x.mxt m
/-- Put a matrix tile. -/
def Quad.setMx (x : Quad) (m : Nat) (y : Mxt) : Quad := { x with mxt := NatMap.set .init x.mxt m y }
/-- Something leaves the device (log 17). -/
def State.emit (s : State) (m : Msg) : State := { s with out := s.out ++ [m] }

/-- The running launch that holds a context, with its number (R58). -/
def State.launchOfCtx (s : State) (ctx : Nat) : Option (Nat × Launch) :=
  List.find? (fun e => e.2.ctxs.contains ctx || e.2.drawn.contains ctx) s.launches

/-- The LID a record names for a context, 0xFFFFFFFF outside a launch (R394). -/
def State.lidOfCtx (s : State) (ctx : Nat) : Nat := ((s.launchOfCtx ctx).map (·.2.rcd.lid)).getD 0xFFFFFFFF

/-- A context held by system software: SYS_CTXOWN STATE 2 (R451). -/
def State.heldCtx (s : State) (c : Nat) : Bool := decide (bits (NatMap.get 0 s.ctxown c).toNat 17 16 = 2)
/-- A context held by a launch, drawn at its start or by CTXNEW (R58, R451): its partition. -/
def State.drawnCtx (s : State) (c : Nat) : Option Nat :=
  match s.launchOfCtx c with
  | some (_, l) => some l.part
  | none => (List.find? (fun e => e.2.drawn.contains c) s.regions).map fun e => e.2.part
/-- A free context of the pool (R58, R451). -/
def State.freeCtx (s : State) (c : Nat) : Bool := !s.heldCtx c && (s.drawnCtx c).isNone
/-- The lowest free context (R58, R157). -/
def State.lowestFree (s : State) : Option Nat := (List.range 4096).find? s.freeCtx
/-- The lowest `n` free contexts (R58). -/
def State.lowestFreeN (s : State) (n : Nat) : List Nat := ((List.range 4096).filter s.freeCtx).take n

/-! ## Time -/

/-- DTIME, a 64-bit counter (R6), after `ns` nanoseconds, a negative offset being absorbed at half rate (R461). -/
def State.advance (s : State) (cycles ns : Nat) : State :=
  let t := ns + b2n s.halfTick
  let k := min (t / 2) s.absorb
  if s.absorb = 0 then { s with cycle := s.cycle + cycles, dtime := (s.dtime + ns) % 2 ^ 64 }
  else if k = s.absorb then
    { s with cycle := s.cycle + cycles, dtime := (s.dtime + k + (t - 2 * k)) % 2 ^ 64, absorb := 0, halfTick := false }
  else { s with cycle := s.cycle + cycles, dtime := (s.dtime + k) % 2 ^ 64, absorb := s.absorb - k, halfTick := decide (t % 2 = 1) }

/-- The nanoseconds from one value of DTIME, a 64-bit counter, to another (R6): none where an adjustment has put it back. -/
def timeSince (now t : Nat) : Nat :=
  let d := (now + 2 ^ 64 - t) % 2 ^ 64
  if d < 2 ^ 63 then d else 0
/-- The nanoseconds since a value of DTIME. -/
def State.elapsed (s : State) (t : Nat) : Nat := timeSince s.dtime t

/-- A value the spec leaves open, and the state with the next one (log 2). -/
def State.freeValue (s : State) : Word64 × State := (Config.freeWord s.stepNo, { s with stepNo := s.stepNo + 1 })
/-- `n` free bytes, and the state that will give others next. -/
def State.freeBytes (s : State) (n : Nat) : List Byte × State :=
  ((List.range n).map fun i => BitVec.ofNat 8 ((Config.freeWord (s.stepNo + i / 8)).toNat / 256 ^ (i % 8)), { s with stepNo := s.stepNo + n / 8 + 1 })

/-- A write of the system cores or the PF (R408). Until the boot ROM has run the system cores wait (R456), and the PF is not enabled (R459); where the ROM
has rejected both slots the device stays in its reset state (R458). -/
def State.byCore (s : State) (f : State → State) : Result :=
  match s.boot.phase with
  | .rom => .next s
  | .failed _ => .next s
  | .firmware => .next (f s)
  | .running => .next (f s)

/-- An event of the surroundings: where the boot ROM has rejected both slots the device stays in its reset state (R458). -/
def State.unlessFailed (s : State) (f : State → State) : Result :=
  match s.boot.phase with
  | .failed _ => .next s
  | _ => .next (f s)

/-- The logical quads that a physical quad hosts, in ascending order (R57). -/
def State.hosted (s : State) (pq : Nat) : List Nat := (List.range 128).filter fun lq => s.pqOf lq = pq

/-- Whether a logical quad is in its turn (R57); before the first turn change of a physical quad the lowest of its logical quads is. -/
def State.inTurn (s : State) (lq : Nat) : Bool :=
  let r := s.remapOf lq
  if bits r 15 8 ≤ 1 then true
  else
    match (s.pquadOf (bits r 6 0)).turn with
    | some t => decide (t = lq)
    | none => decide ((s.hosted (bits r 6 0)).head? = some lq)

/-! ## Memory as a context sees it -/

/-- The deterministic task a context is, with its launch and its private memory (R76, R218; log 15: the tasks of a launch are its contexts
in order). -/
def State.task? (s : State) (ctx : Nat) : Option (Nat × Nat × TaskView) :=
  (detLaunchOf s ctx).map fun e =>
    let i := e.2.ctxs.idxOf ctx
    (e.1, i, NatMap.get .init e.2.views i)

/-- A byte as a deterministic task sees it: its own write, else its snapshot (R218). -/
def TaskView.byteAt (v : TaskView) (pa : Nat) : Byte :=
  match NatMap.find? v.writes pa with
  | some b => b
  | none => NatMap.get unlisted v.snapshot pa

/-- The bytes of a run as a context sees them (R207, R218; log 3: outside deterministic operation the last write performed). -/
def State.viewBytes (s : State) (ctx : Nat) (pa n : Nat) : List Byte :=
  match s.task? ctx with
  | some (_, _, v) => (List.range n).map fun i => v.byteAt (pa + i)
  | none => s.bytesAt pa n

/-- The granules a write set covers (R219). -/
def granules (m : NatMap Byte) : List Nat := (m.map fun e => e.1 / 64).eraseDups

/-- The write-set bound of a task, in granules (R88, R219): the bounds of the stages' blocks added up, the model's choice (log 135). -/
def Launch.wsb (l : Launch) : Nat := (l.stages.map fun g => g.block.wsb).foldl (· + ·) 0

/-- The marks of a task's view after a write of `n` bytes: one that covers a granule clears its mark (R221). -/
def coverMarks (m : NatMap Bool) (pa n : Nat) : NatMap Bool :=
  ((List.range (n / 64 + 2)).map (pa / 64 + ·)).foldl
    (fun m g => if pa ≤ 64 * g ∧ 64 * g + 64 ≤ pa + n then NatMap.insert m g false else m) m

/-- Bytes written for a context: into shared memory, or into the write set of the deterministic task; none where the write set would pass
its bound (R219). -/
def State.viewWrite (s : State) (ctx : Nat) (pa : Nat) (bs : List Byte) : Option State :=
  match detLaunchOf s ctx with
  | none => some (s.writeAt pa bs)
  | some (n, l) =>
    let i := l.ctxs.idxOf ctx
    let v := NatMap.get .init l.views i
    let w := (List.range bs.length).foldl (fun m j => NatMap.insert m (pa + j) (bs.getD j 0)) v.writes
    if l.wsb < (granules w).length then none
    else some (s.setLaunch n { l with views := NatMap.insert l.views i { v with writes := w, marks := coverMarks v.marks pa bs.length } })

/-- How a bank stands towards an access (R221, R223). -/
def bankOf (s : State) (pa : Nat) : Option BankState :=
  if rangeOf s pa = .vault then NatMap.find? s.banks (4 * vaultPq pa + vaultBank pa) else none

/-- What an access that must wait has met: a held page (R203), by the physical quad whose miss-status entry it holds, the partition, VA[56:16]; or runs of
bytes that a peer holds and that it has still to ask for, with the virtual address it reads (R206, R448). -/
inductive PageHold where
  | page (pq part vpn : Nat)
  | peer (a : Access) (va : Nat) (runs : List (Nat × Nat))
deriving DecidableEq, Repr

/-- What a memory access for an engine, a queue or the system answers: bytes and whether any was poisoned; to wait, for a held page, a peer's reply or a bank that
is being evacuated; a fault with the address it is for. -/
inductive Access.Answer (α : Type) where
  | done (x : α)
  | wait (h : Option PageHold)
  | fault (code va : Nat)

/-- Whether an access has faulted. -/
def Access.Answer.faults {α : Type} : Access.Answer α → Bool
  | .fault _ _ => true
  | _ => false

/-- Whether a read of a peer is one that an access has asked for. -/
def PeerRead.isOf (e : PeerRead) (a : Access) : Bool :=
  decide (e.part = a.part) && decide (e.lq = a.lq) && decide (e.ctx = a.ctx) && decide (e.master = a.master) && decide (e.tag = a.tag)

/-- An access asks a peer for a run of bytes, by a request of its own (R448, R453). -/
def State.askPeer (s : State) (a : Access) (va : Nat) (r : Nat × Nat) : State :=
  let s1 := { s with nextId := s.nextId + 1 }.sendPeer a.part r.1 0 0 0 0 0 (toBytes 1 r.2) ⟨s.nextId, s.nextId, r.1, 0, r.2⟩
  { s1 with
    peerOut := mapWhere (fun o => decide (o.acc.id = s.nextId)) (fun o => { o with owner := .read }) s1.peerOut
    peerReads := s1.peerReads ++ [⟨a.part, a.lq, a.ctx, a.master, a.tag, va, r.1, r.2, s.nextId, .out⟩] }

/-- An access waits: on a held page it holds a miss-status entry until a TLBINV that covers the page completes (R203); of a peer it asks what it has not
asked yet. -/
def State.noteHold (s : State) : Option PageHold → State
  | none => s
  | some (.page pq part vpn) =>
    let p := s.pquadOf pq
    if p.held.contains (part, vpn) then s else s.setPquad pq { p with held := p.held ++ [(part, vpn)] }
  | some (.peer a va runs) => runs.foldl (fun s r => s.askPeer a va r) s

/-- What the reads that an access has sent to peers have brought is of no more use: its command or word has taken it or is over. -/
def State.dropReads (s : State) (p : PeerRead → Bool) : State := { s with peerReads := s.peerReads.filter fun e => !p e }

/-- What is done whole, or must wait and for what. -/
abbrev OrWait := Except (Option PageHold) State

/-- Do something for each in turn, where none must wait. -/
def eachOf {α : Type} (f : State → α → OrWait) : List α → State → OrWait
  | [], s => .ok s
  | x :: xs, s => (f s x).bind (eachOf f xs)

/-- The state after something done whole; where it must wait, the hold it has met is noted (R203). -/
def OrWait.orElse (r : OrWait) (s : State) : State :=
  match r with
  | .ok t => t
  | .error h => s.noteHold h

/-- The hold an access meets at a page. -/
def Access.holdAt (s : State) (a : Access) (vpn : Nat) : PageHold := .page (s.pqOf a.lq) a.part vpn

/-- Whether some run lies in a bank that is being evacuated, or is lost (R221, R223). -/
def runsStand (s : State) (runs : List (Nat × Nat)) : Option Bool :=
  if runs.any fun r => decide (bankOf s r.1 = some .lost) then some false
  else if runs.any fun r => match bankOf s r.1 with | some (.evacuating _ _) => true | _ => false then some true
  else none

/-- Whether a run lies in the peer window (R190). -/
def inPeer (s : State) (r : Nat × Nat) : Bool := decide (rangeOf s r.1 = .peer)

/-- The read of a run that an access has sent to a peer. -/
def State.peerRead? (s : State) (a : Access) (r : Nat × Nat) : Option PeerRead :=
  s.peerReads.find? fun e => e.isOf a && decide (e.pa = r.1) && decide (e.n = r.2)

/-- The bytes that a peer's reply has brought of a run, with whether they are poisoned. -/
def State.peerGot (s : State) (a : Access) (r : Nat × Nat) : List Byte × Bool :=
  match (s.peerRead? a r).map PeerRead.st with
  | some (.got bs bad) => (padTo r.2 bs, bad)
  | _ => (List.replicate r.2 0, false)

/-- The bytes of runs as the context of an access sees them: those of a peer are what its reply has brought. -/
def State.readRuns (s : State) (a : Access) : List (Nat × Nat) → List Byte
  | [] => []
  | r :: rs => (if inPeer s r then (s.peerGot a r).1 else s.viewBytes a.ctx r.1 r.2) ++ s.readRuns a rs

/-- Whether a read of runs must wait for peers (R206), and for what it has still to ask. -/
def unread (s : State) (a : Access) (va : Nat) (runs : List (Nat × Nat)) : Option (Option PageHold) :=
  let ps := runs.filter (inPeer s)
  let missing := ps.filter fun r => (s.peerRead? a r).isNone
  if !missing.isEmpty then some (some (.peer a va missing))
  else if ps.any fun r => (s.peerRead? a r).map PeerRead.st = some ReadState.out then some none
  else none

/-- Whether a read of an access at `va` has been refused by a peer, or was lost with its port (R443, R454): the code. -/
def peerRefusal (s : State) (a : Access) (va : Nat) : Option Nat :=
  s.peerReads.findSome? fun e => match e.st with
    | .refused c => if e.isOf a && decide (e.va = va) then some c else none
    | _ => none

/-- Whether a granule of `n` bytes at an address is poisoned for a context (R221, R241): a deterministic task sees its own marks too. -/
def State.poisonedFor (s : State) (ctx pa n : Nat) : Bool :=
  match s.task? ctx with
  | some (_, _, v) =>
    (List.range (if n = 0 then 0 else (pa + n - 1) / 64 + 1 - pa / 64)).any fun i =>
      (NatMap.find? v.marks (pa / 64 + i)).getD (NatMap.get false s.poison (pa / 64 + i))
  | none => s.poisonedAt pa n

/-- Set or clear the mark of the granule of an address for a context (R221, R241): in shared memory, or in the write set of a deterministic task. -/
def State.putMarkFor (s : State) (ctx pa : Nat) (b : Bool) : State :=
  match detLaunchOf s ctx with
  | none => s.markGranule pa b
  | some (n, l) =>
    let i := l.ctxs.idxOf ctx
    let v := NatMap.get .init l.views i
    s.setLaunch n { l with views := NatMap.insert l.views i { v with marks := NatMap.insert v.marks (pa / 64) b } }

/-- Mark the granule of an address as poisoned for a context (R241). -/
def State.markFor (s : State) (ctx pa : Nat) : State := s.putMarkFor ctx pa true

/-- Whether a run holds a poisoned granule (R221), as its peer tells of one there (R292). -/
def State.runsPoisoned (s : State) (a : Access) (runs : List (Nat × Nat)) : Bool :=
  runs.any fun r => if inPeer s r then (s.peerGot a r).2 else s.poisonedFor a.ctx r.1 r.2

/-- A read of runs of bytes, once each is translated: what it waits for, or the bytes, and whether a granule was poisoned (R206, R221, R223). -/
def State.readAt (s : State) (a : Access) (va : Nat) (runs : List (Nat × Nat)) : Access.Answer (List Byte × Bool) :=
  match runsStand s runs, unread s a va runs with
  | some true, _ => .wait none
  | some false, _ => .fault codeUncorrectable va
  | none, some w => .wait w
  | none, none => .done (s.readRuns a runs, s.runsPoisoned a runs)

/-- A read of `n` bytes at `va` (R199, R229): the bytes, and whether a granule was poisoned. -/
def State.readVa (s : State) (a : Access) (va n : Nat) : Access.Answer (List Byte × Bool) :=
  match peerRefusal s a va, spread s { a with want := .read } va n with
  | some c, _ => .fault c va
  | none, .hold v => .wait (some (a.holdAt s v))
  | none, .fault c _ v => .fault c v
  | none, .ok runs => s.readAt a va runs

/-- The write of one run; none where the write set of a deterministic task would pass its bound (R219). A write to a peer leaves the device as a request
of its own, with `op` in its header (R448, R453). -/
def State.writeRun (s : State) (part ctx : Nat) (r : Nat × Nat) (bs : List Byte) (op : Nat) : Option State :=
  if inPeer s r then
    some ({ s with nextId := s.nextId + 1 }.sendPeer part r.1 0 1 op 0 0 bs ⟨s.nextId, s.nextId, r.1, 0, r.2⟩)
  else s.viewWrite ctx r.1 bs

/-- The writes of runs, in order. -/
def State.writeRuns (s : State) (part ctx : Nat) : List (Nat × Nat) → List Byte → Option State
  | [], _ => some s
  | r :: rs, bs => (s.writeRun part ctx r (bs.take r.2) 0).bind fun s' => s'.writeRuns part ctx rs (bs.drop r.2)

/-- SNAPSHOT_FULL (R391). -/
def codeSnapshot : Nat := 0x16

/-- Whether an engine's result write must wait for reads that chose a publish entry's buffer while it was FRONT (R217 step 3). -/
def pubHeld (s : State) (a : Access) (va : Nat) : Bool :=
  decide (a.pub = .result) &&
  match pubEntryAt s a.part va with
  | none => false
  | some (_, e) => s.homes.any fun p => decide (e.shadow ≤ p.pa) && decide (p.pa < e.shadow + e.bytes)

/-- Whether a write of runs must wait (R217, R221), or meets a lost bank (R223). -/
def writeStand (s : State) (a : Access) (va : Nat) (runs : List (Nat × Nat)) : Option Bool :=
  if pubHeld s a va then some true else runsStand s runs

/-- A write of bytes at `va`: the whole spread is translated before any byte is written. -/
def State.writeVa (s : State) (a : Access) (va : Nat) (bs : List Byte) : Access.Answer State :=
  match spread s { a with want := .write } va bs.length with
  | .hold v => .wait (some (a.holdAt s v))
  | .fault c _ v => .fault c v
  | .ok runs =>
    match writeStand s a va runs with
    | some true => .wait none
    | some false => .fault codeUncorrectable va
    | none =>
      match s.writeRuns a.part a.ctx runs bs with
      | none => .fault codeSnapshot va
      | some s' => .done s'

/-- Who waits for the peer writes that have been sent since the state `s0` (R206). -/
def State.ownedBy (s : State) (s0 : State) (o : PeerOwner) : State :=
  { s with peerOut := s.peerOut.map fun e => if s0.nextId ≤ e.acc.id then { e with owner := o } else e }

/-- Count an event at a bank: the corrected patterns (`false`) or the transient ones (`true`) of R398. -/
def countEcc (s : State) (pa : Nat) (transient : Bool) : State :=
  if rangeOf s pa ≠ .vault then s
  else
    let p := s.pquadOf (vaultPq pa)
    let b := vaultBank pa
    s.setPquad (vaultPq pa) (if transient then { p with eccTransient := NatMap.set 0 p.eccTransient b (NatMap.get 0 p.eccTransient b + 1) }
      else { p with eccCorr := NatMap.set 0 p.eccCorr b (NatMap.get 0 p.eccCorr b + 1) })

/-- The upset of a read (R397): corrected or transient patterns are counted, a lasting one leaves the granule poisoned. What a peer holds is not this
device's. -/
def readUpset (s : State) (pa : Nat) : State :=
  if rangeOf s pa = .peer then s
  else match s.upset with
  | .none => s
  | .corrected => countEcc s pa false
  | .transient => countEcc s pa true
  | .lasting => s.markGranule pa true
  | .memory false => countEcc s pa true
  | .memory true => s.markGranule pa true

/-- The upset of a step strikes a read of a queue or an engine at a virtual address (R397), in the granule it starts in. -/
def State.struck (s : State) (a : Access) (va : Nat) : State :=
  if s.upset = .none then s
  else
    match translate s { a with want := .read } (va % 2 ^ 57) with
    | .ok pa _ => readUpset s pa
    | _ => s

/-- The upset of a step strikes one of the reads of an engine, which read runs of bytes at virtual addresses (R397): the run and the granule are free. -/
def State.struckIn (s : State) (a : Access) (rs : List (Nat × Nat)) : State :=
  if s.upset = .none then s
  else
    let v := s.freeValue
    let k := v.1.toNat
    match rs[k % rs.length]? with
    | none => s
    | some r => v.2.struck a (r.1 + min (64 * (k / rs.length % (r.2 / 64 + 1))) (r.2 - 1))

/-- The lowest logical quad of a partition (log 37). -/
def State.lowestLq (s : State) (p : Nat) : Nat := ((List.range 128).find? fun lq => s.lqOwner lq = some p).getD 0

/-- An access of the launch arbiter for a partition (R48): it goes by the near vault of the partition's lowest logical quad (log 37). -/
def arbAccess (s : State) (p : Nat) : Access := ⟨p, s.lowestLq p, 4096, masterArbiter, .read, .plain, 0⟩

/-! ## Scalar registers -/

/-- A scalar register; q0 reads zero (R101, R252). -/
def Queue.reg (x : Queue) (i : Nat) : Word64 := if i = 0 then 0 else NatMap.get 0 x.regs i
/-- A write of a scalar register; a write to q0 is discarded (R101). -/
def Queue.setReg (x : Queue) (i : Nat) (v : Word64) : Queue := if i = 0 then x else { x with regs := NatMap.set 0 x.regs i v }
/-- A virtual address modulo 2^57 (R260). -/
def vaOf (x : Nat) : VAddr := BitVec.ofNat 57 x
/-- The next word's address (R260). -/
def Queue.next (x : Queue) : VAddr := x.pc + 16

/-! ## Interrupts and records -/

/-- Whether a vector of a partition is masked: bit 0 of the control word of its MSI-X table entry (R437, R446). -/
def Partition.masked (x : Partition) (v : Nat) : Bool := bit (NatMap.get 0x100000000 x.msixTable (2 * v + 1)).toNat 32

/-- Raise a vector (R446): its pending bit is set; a message is sent unless the vector is masked or the partition is being reset (R455),
and sending clears the bit. A vector already pending merges. -/
def State.raiseVector (s : State) (p v : Nat) : State :=
  let x := s.partOf p
  if x.busy || x.masked v then s.setPart p { x with msixPend := NatMap.set false x.msixPend v true }
  else (s.setPart p { x with msixPend := NatMap.set false x.msixPend v false }).emit (.msix p v)

/-- Raise a vector once what it reports has been performed (R446): where writes of it have gone to a peer since the state `s0`, with the last of their
acknowledgements. -/
def State.raiseAfter (s : State) (s0 : State) (p v : Nat) : State :=
  if s.nextId = s0.nextId then s.raiseVector p v else s.ownedBy s0 (.vector p v s0.nextId)

/-- The vector image of a token in storage (R104): 64 bytes. -/
def Token.kindCode : Kind → Nat
  | .data => 0
  | .null => 1
  | .fin => 2
  | .barrier => 3
  | .order => 4
  | .range => 5
  | .fault => 6

/-- Predicate codes (R104). -/
def Pred.code : Pred → Nat
  | .none => 0
  | .true => 1
  | .false => 2
  | .null => 3

/-- The 392-bit vector of a token (R104). -/
def Token.vector (t : Token) : Nat :=
  let payload := t.lanes.toList.foldr (fun x acc => x.toNat + 2 ^ 36 * acc) 0
  payload + 2 ^ 288 * (b2n t.taint + 2 * b2n t.poison + 4 * t.pred.code + 16 * t.level + 128 * b2n t.interp +
    256 * (Token.kindCode t.kind) + 2 ^ 12 * t.hi + 2 ^ 52 * t.lo + 2 ^ 92 * t.ctx)

/-- The 64-byte image of a token (R104). -/
def Token.image (t : Token) : List Byte := toBytes 64 t.vector

/-- The bytes of a record (R394). -/
def FaultRecord.bytes (f : FaultRecord) : List Byte :=
  let head := toBytes 1 f.code ++ toBytes 1 f.kind ++ toBytes 1 f.rflags ++ toBytes 1 f.part ++ toBytes 4 f.lid ++ toBytes 8 f.dtime ++
    toBytes 1 f.lq
  let body :=
    if f.kind = 0 then
      head ++ toBytes 1 f.pq ++ toBytes 1 (f.pe + 16 * f.cctx) ++ toBytes 1 f.slot ++ toBytes 2 f.stage ++ toBytes 1 f.inst ++
        toBytes 1 f.port ++ toBytes 8 f.word ++ toBytes 2 f.ctx ++ toBytes 1 f.ntok ++ toBytes 1 0 ++ toBytes 5 f.span.lo ++
        toBytes 5 f.span.hi ++ toBytes 2 0
    else if f.kind = 1 then
      head ++ toBytes 1 f.slot ++ toBytes 1 f.frames.length ++ toBytes 1 0 ++ toBytes 2 f.ctx ++ toBytes 2 0 ++ toBytes 8 f.word ++
        toBytes 16 f.seqWord
    else head ++ toBytes 1 f.slot ++ toBytes 6 0 ++ toBytes 8 f.word
  let tail :=
    padTo 16 (if f.kind = 2 then [] else toBytes 8 f.arg0 ++ toBytes 8 f.arg1) ++
    padTo 512 (if f.kind = 0 then f.toks.foldr (fun t acc => t.image ++ acc) []
      else f.frames.foldr (fun e acc => toBytes 8 e.1 ++ toBytes 8 e.2.1 ++ toBytes 8 e.2.2 ++ acc) []) ++
    padTo 448 (f.tasks.foldr (fun t acc => padTo 16 (t.foldr (fun i acc => toBytes 2 i ++ acc) []) ++ acc) [])
  padTo 48 body ++ tail

/-- A record with every field the spec leaves zero (R394). -/
def FaultRecord.blank : FaultRecord :=
  { kind := 0, code := 0, rflags := 0, part := 0, lid := 0xFFFFFFFF, dtime := 0, cycle := 0, lq := 0xFF, pq := 0, pe := 0, cctx := 0, slot := 0xFF
    stage := 0, inst := 0, port := 0xFF, word := 0, seqWord := 0, ctx := 0, span := ⟨0, 0⟩, arg0 := 0, arg1 := 0, toks := []
    ntok := 0, frames := [], tasks := [], queue := none, replays := none, ends := none, stops := none }

/-- Add a record to those that wait for room in its partition's ring (R393). -/
def State.addRecord (s : State) (f : FaultRecord) : State :=
  let x := s.partOf f.part
  s.setPart f.part { x with records := x.records ++ [{ f with dtime := s.dtime, cycle := s.cycle }] }

/-- An event record (KIND 2) of the device with its payload (R394). -/
def State.addEvent (s : State) (p code payload lq : Nat) : State :=
  s.addRecord { FaultRecord.blank with kind := 2, code := code, part := p, lq := lq, word := payload }

/-- Whether the fault ring of a partition is enabled and has room (R393). -/
def Partition.ringRoom (x : Partition) : Bool :=
  let n := bits x.fring.toNat 4 0
  decide (6 ≤ n) && decide (n ≤ 20) && decide ((x.fwidx + 2 ^ 32 - x.fridx) % 2 ^ 32 ≠ 2 ^ n)

/-- The address of the next record slot (R393). -/
def Partition.ringSlot (x : Partition) : Nat :=
  bits x.fring.toNat 56 16 * 2 ^ 16 + 1024 * (x.fwidx % 2 ^ bits x.fring.toNat 4 0)

/-- The access that writes a record: for the partition, by the quad the record names, or by system core 0 (R442; log 19). -/
def recordAccess (f : FaultRecord) : Access :=
  ⟨f.part, if f.lq < 128 then f.lq else 0, 0, if f.lq < 128 then masterQuad f.lq else masterCore, .write, .plain, 0⟩

/-- Whether the page of a record slot has MTYPE VAULT-NEAR, to which a record may not go (R393). -/
def ringNear (s : State) (a : Access) (va : Nat) : Bool :=
  match translate s a va with
  | .ok _ m => decide (m = 0)
  | _ => false

/-- Whether the write of a record for a partition by a quad, 0xFF for none, must wait for a held page or a bank that is being evacuated (R203, R221). -/
def State.ringWaits (s : State) (p lq : Nat) : Bool :=
  let a := recordAccess { FaultRecord.blank with part := p, lq := lq }
  let va := (s.partOf p).ringSlot
  !ringNear s a va &&
  match spread s a va 1024 with
  | .hold _ => true
  | .ok runs => decide (runsStand s runs = some true)
  | .fault _ _ _ => false

/-- Write a record into the ring, WIDX rising, or drop it where the write faults (R393); the address of the record, 0 where it was dropped.
The event then reaches the system cores and, once the record has been performed, the vector that SYS_IRQ routes it to (R393, R446). -/
def State.writeRecord (s : State) (f : FaultRecord) : State × Nat :=
  let x := s.partOf f.part
  let va := x.ringSlot
  let a := recordAccess f
  let r : State × Nat :=
    if ringNear s a va then (s, 0)
    else
      match spread s a va 1024 with
      | .ok runs => if runsStand s runs = some false then (s, 0) else
        match s.writeRuns f.part 4096 runs f.bytes with
        | some s' => (s'.setPart f.part { (s'.partOf f.part) with fwidx := (x.fwidx + 1) % 2 ^ 32 }, va)
        | none => (s, 0)
      | _ => (s, 0)
  let s1 := r.1.emit (.record f.part f.kind f.code r.2)
  let irq := x.irq.toNat
  let s2 := if r.2 = 0 then s1
    else if f.kind = 2 ∧ bit irq 17 then s1.raiseAfter s f.part (bits irq 13 8)
    else if f.kind ≠ 2 ∧ bit irq 16 then s1.raiseAfter s f.part (bits irq 5 0) else s1
  (s2, r.2)

/-! ## Taking a trap -/

/-- CYCLES at a cycle count (R276). -/
def WaitState.cycles (w : WaitState) (cycle : Nat) : Nat :=
  min (w.base + (match w.since with | some c => cycle - c | none => 0)) (2 ^ 48 - 1)

/-- The count stands still while the quad is stopped (R276). -/
def WaitState.stop (w : WaitState) (cycle : Nat) : WaitState := { w with base := w.cycles cycle, since := none }

/-- The count goes on after a stop (R276). -/
def WaitState.resume (w : WaitState) (cycle : Nat) : WaitState := if w.live then { w with since := some cycle } else w

/-- The wait state of a queue whose word has left issue: W and CYCLES hold their last values until the next word reaches issue (R276). -/
def WaitState.hold (w : WaitState) (cycle : Nat) : WaitState := { w with base := w.cycles cycle, since := none, live := false }

/-- The CTX and PRIO that QSQ_QCTL of a queue holds (R253): those of its next issue. -/
def Queue.control (x : Queue) : Nat × Nat := x.ctl.getD (x.ctx, x.prio)

/-- A queue whose word has left issue: CTX and PRIO are those that its next issue has (R253). -/
def Queue.settled (x : Queue) : Queue :=
  { x with phase := .fresh, ctx := (x.ctl.map (·.1)).getD x.ctx, prio := (x.ctl.map (·.2)).getD x.prio, ctl := none }

/-- A queue that has trapped (R256). -/
def Queue.trapped (x : Queue) (cycle : Nat) : Queue := { x.settled with st := .trapped, wait := x.wait.hold cycle }

/-- RESIDUE_MISMATCH (R391). -/
def codeResidue : Nat := 0x41

/-- The record of a trap of a queue (R394): the word, its PC, the context and the loop stack; RETIRED where a check that failed for good has retired a
quad (R402). -/
def State.trapRecord (s : State) (x : Queue) (lq q code word arg0 arg1 : Nat) : FaultRecord :=
  { FaultRecord.blank with
    kind := 1, code := code, rflags := if code = codeResidue then 4 else 0, part := s.partOfLq lq, lid := s.lidOfCtx x.ctx, lq := lq, slot := q, ctx := x.ctx, word := x.pc.toNat
    seqWord := word, arg0 := arg0, arg1 := arg1
    frames := x.loops.reverse.map fun f => (f.count, f.start.toNat, f.last.toNat), queue := some (lq, q) }

/-- What the word of a queue has read of peers is of no more use once the word has left issue. -/
def State.dropWordReads (s : State) (lq q : Nat) : State := s.dropReads fun e => decide (e.master = masterQuad lq) && decide (e.tag = q)

/-- TAKING A TRAP (R256, R395): the queue stops at its word, STATE becomes TRAPPED, and the record waits for the fault ring. `word` is the word
the record holds: the word at issue, or an engine command. -/
def State.trap (s : State) (lq q code word arg0 arg1 : Nat) : State :=
  let x := s.queueOf lq q
  ((s.dropWordReads lq q).setQueue lq q (x.trapped s.cycle)).addRecord (s.trapRecord x lq q code word arg0 arg1)

/-- Entry of the trap vector once the record is written or dropped (R395): q29 takes the code, q30 the PC of the word, q31 the address of the
record; the vector is cleared and the queue runs at its old value. With no vector the queue stays TRAPPED. -/
def Queue.vector (x : Queue) (code : Nat) (pc : VAddr) (addr : Nat) : Queue :=
  if x.tvec = 0 then { x with st := .trapped }
  else
    { (((x.setReg 29 (BitVec.ofNat 64 code)).setReg 30 (BitVec.ofNat 64 pc.toNat)).setReg 31 (BitVec.ofNat 64 addr)) with
      tvec := 0, st := .running, pc := x.tvec }

/-- The return from a trap handler (R395): `RET q30` sets the PC from a register. -/
def Queue.returnTo (x : Queue) (pc : Nat) : Queue := { x with pc := vaOf pc }

/-! ## Signals -/

/-- SEM_OVERFLOW (R391). -/
def codeSemOverflow : Nat := 0x20

/-- A semaphore of a quad. -/
def Quad.semOf (x : Quad) (n : Nat) : Nat := NatMap.get 0 x.sem n
/-- A semaphore as waits, SEMRD and SYSRD see it: its value at the end of the previous cycle (R100, R264, R410). -/
def Quad.semSeen (x : Quad) (n : Nat) : Nat := NatMap.get 0 x.semPrev n
/-- Put a semaphore. -/
def Quad.setSem (x : Quad) (n v : Nat) : Quad := { x with sem := NatMap.set 0 x.sem n v }

/-- Add to a semaphore; none where the sum would pass 65,535 (R99). -/
def Quad.addSem (x : Quad) (n v : Nat) : Option Quad := if x.semOf n + v ≤ 65535 then some (x.setSem n (x.semOf n + v)) else none

/-- The image that holds the queue which issued a command in a context, where that queue has been saved (R420). -/
def State.savedQueue? (s : State) (lq q ctx : Nat) : Option (Nat × Image × Queue) :=
  s.images.findSome? fun e =>
    match e.2.st, NatMap.find? e.2.queues (4 * lq + q) with
    | .saving, some x => if x.ctx = ctx then some (e.1, e.2, x) else none
    | .complete, some x => if x.ctx = ctx then some (e.1, e.2, x) else none
    | _, _ => none

/-- Put a queue of an image. -/
def State.setSavedQueue (s : State) (k lq q : Nat) (im : Image) (x : Queue) : State :=
  { s with images := NatMap.insert s.images k { im with queues := NatMap.insert im.queues (4 * lq + q) x } }

/-- A trap of the queue that issued an engine command (R99, R295): of the saved queue, where it has been saved. -/
def State.trapIssuer (s : State) (lq q ctx code word arg0 arg1 : Nat) : State :=
  match s.savedQueue? lq q ctx with
  | none => s.trap lq q code word arg0 arg1
  | some (k, im, x) => (s.setSavedQueue k lq q im (x.trapped s.cycle)).addRecord (s.trapRecord x lq q code word arg0 arg1)

/-- A completion's signal (R99, R432): applied to its quad, or held in the pending list of a quad out of its turn; one that would overflow
is not applied and traps the queue that issued the command, whose record holds the command word. -/
def State.signal (s : State) (lq q ctx word : Nat) : Option (Nat × Nat) → State
  | none => s
  | some (sem, inc) =>
    let x := s.quadOf lq
    if !s.inTurn lq then s.setQuad lq { x with signals := x.signals ++ [⟨sem, inc, q, ctx, word⟩] }
    else
      match x.addSem sem inc with
      | some y => s.setQuad lq y
      | none => s.trapIssuer lq q ctx codeSemOverflow word 0 0

/-- Whether writes of a command to a peer are still to be performed (R206). -/
def State.awaitsPeer (s : State) (c : Cmd) : Bool :=
  s.peerOut.any fun e => match e.owner with
    | .command d _ => decide (d = c)
    | _ => false

/-- A command waits no more for writes that a peer has still to perform. -/
def disownCmd (s : State) (c : Cmd) : State :=
  { s with peerOut := mapWhere (fun o => match o.owner with | .command d _ => decide (d = c) | _ => false) (fun o => { o with owner := .nobody }) s.peerOut }

/-- What a command has read of peers is of no more use. -/
def State.dropCmdReads (s : State) (c : Cmd) : State :=
  s.dropReads fun e => decide (e.tag = c.tag) && decide (e.lq = c.lq) && decide (128 ≤ e.master) && decide (e.master ≠ masterArbiter)

/-- The completion of an engine command (R99, R206): its signal applies, once every write it sent to a peer has been performed. -/
def State.complete (s : State) (c : Cmd) : State :=
  let s := s.dropCmdReads c
  if s.awaitsPeer c then { s with owing := s.owing ++ [c] } else s.signal c.lq c.q c.ctx c.word c.sig

/-- The abort of an engine command (R295): the issuing queue traps, its record holding the command word; ARG0 is the failing address and ARG1
the engine's unit field, or the quad that a lasting check retires (R394). -/
def State.abort (s : State) (c : Cmd) (code va : Nat) : State :=
  (s.dropCmdReads c).trapIssuer c.lq c.q c.ctx code c.word va (if code = codeResidue then s.pqOf c.lq else bits c.word 59 56)

end Sys2Proof.Machine
end

