-- ==== Sys2Proof/Decode.lean ====
section
/-! DEFINITION. The decoder of fabric words (spec 03 R89 to R97) and of sequencer words (R98 to R103), total and
refusing by name, and after it the encoder, both from the spec's field tables. -/

namespace Sys2Proof

/-- Why bits are no instruction. -/
inductive DecodeError where
  /-- The opcode is reserved or unassigned (R97, R102). -/
  | opcode (op : Nat)
  /-- The type code is reserved (R90). -/
  | laneType (code : Nat)
  /-- The predicate match 0b11 (R69). -/
  | predicate
  /-- Fewer bytes than a word has. -/
  | short
deriving DecidableEq, Repr

/-- What a decoder answers. -/
inductive Decoded where
  | ok (i : Instr)
  | refused (e : DecodeError)
deriving DecidableEq, Repr

/-- The instruction, where there is one. -/
def Decoded.instr? : Decoded → Option Instr
  | .ok i => some i
  | .refused _ => none

/-- Field `[hi:lo]` of a word as a bit vector. -/
def wfield (w lo n : Nat) : BitVec n := BitVec.ofNat n (w / 2 ^ lo)

/-- The lane type of a ty code (R90). -/
def laneTyOf (c : Nat) : Option LaneTy :=
  match c with
  | 0 => some .none
  | 1 => some .i8
  | 2 => some .i16
  | 3 => some .i32
  | 4 => some .n8
  | 5 => some .n16
  | 6 => some .n32
  | 7 => some .f
  | 8 => some .b32
  | _ => none

/-- The ty code of a lane type (R90). -/
def laneTyCode : LaneTy → Nat
  | .none => 0
  | .i8 => 1
  | .i16 => 2
  | .i32 => 3
  | .n8 => 4
  | .n16 => 5
  | .n32 => 6
  | .f => 7
  | .b32 => 8

/-- The gap rule of a code (R89). -/
def gapOf (c : Nat) : Gap :=
  match c with
  | 0 => .refuse
  | 1 => .hold
  | 2 => .interp
  | _ => .once

/-- The code of a gap rule (R89). -/
def gapCode : Gap → Nat
  | .refuse => 0
  | .hold => 1
  | .interp => 2
  | .once => 3

/-- The predicate match of a pm code (R69). -/
def pmOf (c : Nat) : Option Pm :=
  match c with
  | 0 => some .none
  | 1 => some .onTrue
  | 2 => some .onFalse
  | _ => none

/-- The pm code (R69). -/
def pmCode : Pm → Nat
  | .none => 0
  | .onTrue => 1
  | .onFalse => 2

/-- The port of a code (R91). -/
def portOf (c : Nat) : Port :=
  match c with
  | 0 => .a
  | 1 => .b
  | 2 => .c
  | _ => .p

/-- The code of a port (R91). -/
def portCode : Port → Nat
  | .a => 0
  | .b => 1
  | .c => 2
  | .p => 3

/-- The target of a 9-bit field; 0x1FF is none (R91). -/
def targetOf (t : Nat) : Option Target :=
  if t = 0x1FF then none else some ⟨BitVec.ofNat 7 (t / 4), portOf (t % 4)⟩

/-- The 9-bit field of a target (R91). -/
def targetCode : Option Target → Nat
  | none => 0x1FF
  | some t => t.slot.toNat * 4 + portCode t.port

/-- The instruction of a fabric opcode (R97); mod[0] of RANGE tells its two forms apart (R140). -/
def fabricInstr (op : Nat) (f : Fab) : Option Instr :=
  match op with
  | 0x00 => some (.input f)
  | 0x01 => some (.output f)
  | 0x02 => some (.const f)
  | 0x03 => some (.nullgen f)
  | 0x04 => some (.copy f)
  | 0x05 => some (.drop f)
  | 0x06 => some (.steer f)
  | 0x07 => some (.merge f)
  | 0x08 => some (.omerge f)
  | 0x09 => some (.lcarry f)
  | 0x0A => some (.lexit f)
  | 0x0B => some (.ends f)
  | 0x0C => some (.gate f)
  | 0x0D => some (.sel f)
  | 0x0E => some (.join f)
  | 0x0F => some (.bartok f)
  | 0x10 => some (.spanset f)
  | 0x11 => some (.spanshift f)
  | 0x12 => some (.spanclip f)
  | 0x13 => some (.stale f)
  | 0x20 => some (.add f)
  | 0x21 => some (.sub f)
  | 0x22 => some (.mul f)
  | 0x23 => some (.mulh f)
  | 0x24 => some (.mad f)
  | 0x25 => some (.div f)
  | 0x26 => some (.rem f)
  | 0x27 => some (.neg f)
  | 0x28 => some (.abs f)
  | 0x29 => some (.min f)
  | 0x2A => some (.max f)
  | 0x2B => some (.adds f)
  | 0x2C => some (.subs f)
  | 0x2D => some (.avg f)
  | 0x2E => some (.cmp f)
  | 0x2F => some (.idx f)
  | 0x30 => some (.and f)
  | 0x31 => some (.or f)
  | 0x32 => some (.xor f)
  | 0x33 => some (.not f)
  | 0x34 => some (.shl f)
  | 0x35 => some (.shr f)
  | 0x36 => some (.sar f)
  | 0x37 => some (.rot f)
  | 0x38 => some (.popc f)
  | 0x39 => some (.clz f)
  | 0x3A => some (.ctz f)
  | 0x3B => some (.bfe f)
  | 0x3C => some (.bfi f)
  | 0x40 => some (.fadd f)
  | 0x41 => some (.fsub f)
  | 0x42 => some (.fmul f)
  | 0x43 => some (.fma f)
  | 0x44 => some (.fmin f)
  | 0x45 => some (.fmax f)
  | 0x46 => some (.fabs f)
  | 0x47 => some (.fneg f)
  | 0x48 => some (.fcmp f)
  | 0x49 => some (.fdiv f)
  | 0x4A => some (.frcp f)
  | 0x4B => some (.fsqrt f)
  | 0x4C => some (.frsq f)
  | 0x4D => some (.fexp2 f)
  | 0x4E => some (.flog2 f)
  | 0x4F => some (.fsig f)
  | 0x50 => some (.ftanh f)
  | 0x51 => some (.fscale f)
  | 0x52 => some (.fclass f)
  | 0x53 => some (.frnd f)
  | 0x60 => some (.perm f)
  | 0x61 => some (.bcast f)
  | 0x62 => some (.lrot f)
  | 0x63 => some (.lsum f)
  | 0x64 => some (.lmax f)
  | 0x65 => some (.flsum f)
  | 0x66 => some (.fldot f)
  | 0x70 => some (.cvt f)
  | 0x71 => some (.pack f)
  | 0x72 => some (.unpack f)
  | 0x80 => some (.ld f)
  | 0x81 => some (.ldc f)
  | 0x82 => some (.st f)
  | 0x83 => some (.ord f)
  | 0x84 => some (.atom f)
  | 0x85 => some (.red f)
  | 0x86 => some (.acq f)
  | 0x87 => some (.fence f)
  | 0x88 => some (.publish f)
  | 0x89 => some (.pref f)
  | 0x8A => some (.wptr f)
  | 0x8B => some (.waitwp f)
  | 0xA0 => some (.ctxnew f)
  | 0xA1 => some (.ctxfree f)
  | 0xA2 => some (.spawn f)
  | 0xB0 => some (.trap f)
  | 0xB1 => some (.brk f)
  | 0x14 => some (if f.sub.getLsbD 0 then .rangeExpand f else .rangeMake f)
  | _ => none

/-- The instruction of a sequencer opcode (R102): `a` and `e` are the operand field read in the two layouts. sub[0] tells
the forms of MXCFG (R322) and of STWGT (R360) apart. -/
def sequencerInstr (op : Nat) (h : Hdr) (a : OpA) (e : OpE) : Option Instr :=
  match op with
  | 0x00 => some (.li h a)
  | 0x01 => some (.addi h a)
  | 0x02 => some (.scalarAdd h a)
  | 0x03 => some (.scalarSub h a)
  | 0x04 => some (.scalarAnd h a)
  | 0x05 => some (.scalarOr h a)
  | 0x06 => some (.scalarXor h a)
  | 0x07 => some (.scalarShl h a)
  | 0x08 => some (.scalarShr h a)
  | 0x09 => some (.scalarSar h a)
  | 0x0A => some (.scalarMul h a)
  | 0x0B => some (.slt h a)
  | 0x0C => some (.sltu h a)
  | 0x0D => some (.ldq h a)
  | 0x0E => some (.stq h a)
  | 0x10 => some (.br h a)
  | 0x11 => some (.brc h a)
  | 0x12 => some (.call h a)
  | 0x13 => some (.ret h a)
  | 0x14 => some (.loop h a)
  | 0x15 => some (.yield h a)
  | 0x16 => some (.halt h a)
  | 0x20 => some (.wait h a)
  | 0x21 => some (.sig h a)
  | 0x22 => some (.semset h a)
  | 0x23 => some (.semrd h a)
  | 0x24 => some (.nbarr h a)
  | 0x25 => some (.nbwait h a)
  | 0x26 => some (.taskdef h a)
  | 0x27 => some (.taskdone h a)
  | 0x28 => some (.tasknext h a)
  | 0x30 => some (.launch h e)
  | 0x31 => some (.cfgload h e)
  | 0x32 => some (.qwait h e)
  | 0x40 => some (.bceCopy h e)
  | 0x41 => some (.copymx h e)
  | 0x42 => some (.copysh h e)
  | 0x43 => some (.gather h e)
  | 0x44 => some (.scatter h e)
  | 0x45 => some (.fill h e)
  | 0x50 => some (.mma h e)
  | 0x51 => some (.mmat h e)
  | 0x52 => some (.accinit h e)
  | 0x53 => some (.acccnt h e)
  | 0x54 => some (.accout h e)
  | 0x55 => some (.accdrain h e)
  | 0x56 => some (.accpart h e)
  | 0x57 => some (if e.sub.getLsbD 0 then .mxcfgPolicy h e else .mxcfgMode h e)
  | 0x58 => some (.ovfstat h e)
  | 0x60 => some (.cred h e)
  | 0x61 => some (.crfix h e)
  | 0x62 => some (.crstat h e)
  | 0x70 => some (.stinit h e)
  | 0x71 => some (.stins h e)
  | 0x72 => some (.stdraw h e)
  | 0x73 => some (.stupd h e)
  | 0x74 => some (if e.sub.getLsbD 0 then .stwgtBeta h e else .stwgt h e)
  | 0x75 => some (.ststat h e)
  | 0x80 => some (.pdaload h e)
  | 0x81 => some (.pdastep h e)
  | 0x82 => some (.mask h e)
  | 0x83 => some (.sample h e)
  | 0x84 => some (.gmcfg h e)
  | 0x85 => some (.gmstat h e)
  | 0x90 => some (.vopen h e)
  | 0x91 => some (.vbind h e)
  | 0x92 => some (.vclose h e)
  | 0x93 => some (.vstat h e)
  | 0xA0 => some (.sysrd h a)
  | 0xA1 => some (.syswr h a)
  | 0xA2 => some (.tlbInv h a)
  | 0xA3 => some (.qflush h a)
  | 0xA4 => some (.ctxsave h a)
  | 0xA5 => some (.ctxload h a)
  | 0xA6 => some (.event h a)
  | _ => none

/-- The fields of a fabric word under its opcode (R89), where ty and pm are not reserved. -/
def fabFields (w : Nat) (t : LaneTy) (pm : Pm) : Fab :=
  { ty := t, ga := gapOf (w / 2 ^ 50 % 4), gb := gapOf (w / 2 ^ 48 % 4), pm
    t0 := targetOf (w / 2 ^ 37 % 512), t1 := targetOf (w / 2 ^ 28 % 512)
    imf := (w / 2 ^ 27 % 2 == 1), sub := wfield w 24 3, imm := wfield w 0 24 }

/-- The instruction of a 64-bit fabric word (R89). -/
def decodeFabric (w : Nat) : Decoded :=
  match laneTyOf (w / 2 ^ 52 % 16), pmOf (w / 2 ^ 46 % 4) with
  | some t, some pm =>
    match fabricInstr (w / 2 ^ 56 % 256) (fabFields w t pm) with
    | some i => .ok i
    | none => .refused (.opcode (w / 2 ^ 56 % 256))
  | none, _ => .refused (.laneType (w / 2 ^ 52 % 16))
  | _, none => .refused .predicate

/-- The wait and signal fields of a sequencer word (R98). -/
def hdrFields (w : Nat) : Hdr :=
  { we := (w / 2 ^ 119 % 2 == 1), wsem := wfield w 111 8, wthr := wfield w 96 15
    se := (w / 2 ^ 95 % 2 == 1), ssem := wfield w 87 8, inc := wfield w 80 7 }

/-- Operand layout A (R101). -/
def opAFields (w : Nat) : OpA :=
  { qd := wfield w 75 5, qs := wfield w 70 5, qt := wfield w 65 5, b64 := (w / 2 ^ 64 % 2 == 1), imm := wfield w 0 64 }

/-- Operand layout E (R101). -/
def opEFields (w : Nat) : OpE :=
  { qd := wfield w 75 5, qs := wfield w 70 5, qt := wfield w 65 5, qv := wfield w 60 5, unit := wfield w 56 4
    sub := wfield w 48 8, imm := wfield w 0 48 }

/-- The instruction of a 128-bit sequencer word (R98, R101, R102). -/
def decodeSequencer (w : Nat) : Decoded :=
  match sequencerInstr (w / 2 ^ 120 % 256) (hdrFields w) (opAFields w) (opEFields w) with
  | some i => .ok i
  | none => .refused (.opcode (w / 2 ^ 120 % 256))

/-- The word of the first `n` bytes of a list, little-endian (R89, R98), where there are as many. -/
def wordOfBytes : Nat → List Byte → Option Nat
  | 0, _ => some 0
  | _ + 1, [] => none
  | n + 1, b :: bs => (wordOfBytes n bs).map fun x => b.toNat + 256 * x

/-- The decoder of fabric code, total on any bytes. -/
def decodeFabricBytes (bs : List Byte) : Decoded :=
  match wordOfBytes 8 bs with
  | some w => decodeFabric w
  | none => .refused .short

/-- The decoder of sequencer code, total on any bytes. -/
def decodeSequencerBytes (bs : List Byte) : Decoded :=
  match wordOfBytes 16 bs with
  | some w => decodeSequencer w
  | none => .refused .short

/-- The instruction of `nbits` bits numbered as the opcode table numbers them: 64 bits are a fabric word, 128 bits a
sequencer word, laid out in bytes as memory holds them. The table gives no other length to a word. -/
def decodeTableWord (nbits w : Nat) : Option Instr :=
  if nbits = 64 then (decodeFabricBytes (toBytes 8 w)).instr?
  else if nbits = 128 then (decodeSequencerBytes (toBytes 16 w)).instr?
  else none

/-! ### The encoder -/

/-- The opcode and fields of a fabric instruction (R97). -/
def fabricParts : Instr → Option (Nat × Fab)
  | .input f => some (0x00, f)
  | .output f => some (0x01, f)
  | .const f => some (0x02, f)
  | .nullgen f => some (0x03, f)
  | .copy f => some (0x04, f)
  | .drop f => some (0x05, f)
  | .steer f => some (0x06, f)
  | .merge f => some (0x07, f)
  | .omerge f => some (0x08, f)
  | .lcarry f => some (0x09, f)
  | .lexit f => some (0x0A, f)
  | .ends f => some (0x0B, f)
  | .gate f => some (0x0C, f)
  | .sel f => some (0x0D, f)
  | .join f => some (0x0E, f)
  | .bartok f => some (0x0F, f)
  | .spanset f => some (0x10, f)
  | .spanshift f => some (0x11, f)
  | .spanclip f => some (0x12, f)
  | .stale f => some (0x13, f)
  | .rangeMake f => some (0x14, f)
  | .rangeExpand f => some (0x14, f)
  | .ctxnew f => some (0xA0, f)
  | .ctxfree f => some (0xA1, f)
  | .spawn f => some (0xA2, f)
  | .add f => some (0x20, f)
  | .sub f => some (0x21, f)
  | .mul f => some (0x22, f)
  | .mulh f => some (0x23, f)
  | .mad f => some (0x24, f)
  | .div f => some (0x25, f)
  | .rem f => some (0x26, f)
  | .neg f => some (0x27, f)
  | .abs f => some (0x28, f)
  | .min f => some (0x29, f)
  | .max f => some (0x2A, f)
  | .adds f => some (0x2B, f)
  | .subs f => some (0x2C, f)
  | .avg f => some (0x2D, f)
  | .cmp f => some (0x2E, f)
  | .idx f => some (0x2F, f)
  | .and f => some (0x30, f)
  | .or f => some (0x31, f)
  | .xor f => some (0x32, f)
  | .not f => some (0x33, f)
  | .shl f => some (0x34, f)
  | .shr f => some (0x35, f)
  | .sar f => some (0x36, f)
  | .rot f => some (0x37, f)
  | .popc f => some (0x38, f)
  | .clz f => some (0x39, f)
  | .ctz f => some (0x3A, f)
  | .bfe f => some (0x3B, f)
  | .bfi f => some (0x3C, f)
  | .fadd f => some (0x40, f)
  | .fsub f => some (0x41, f)
  | .fmul f => some (0x42, f)
  | .fma f => some (0x43, f)
  | .fmin f => some (0x44, f)
  | .fmax f => some (0x45, f)
  | .fabs f => some (0x46, f)
  | .fneg f => some (0x47, f)
  | .fcmp f => some (0x48, f)
  | .fdiv f => some (0x49, f)
  | .frcp f => some (0x4A, f)
  | .fsqrt f => some (0x4B, f)
  | .frsq f => some (0x4C, f)
  | .fexp2 f => some (0x4D, f)
  | .flog2 f => some (0x4E, f)
  | .fsig f => some (0x4F, f)
  | .ftanh f => some (0x50, f)
  | .fscale f => some (0x51, f)
  | .fclass f => some (0x52, f)
  | .frnd f => some (0x53, f)
  | .perm f => some (0x60, f)
  | .bcast f => some (0x61, f)
  | .lrot f => some (0x62, f)
  | .lsum f => some (0x63, f)
  | .lmax f => some (0x64, f)
  | .flsum f => some (0x65, f)
  | .fldot f => some (0x66, f)
  | .cvt f => some (0x70, f)
  | .pack f => some (0x71, f)
  | .unpack f => some (0x72, f)
  | .ld f => some (0x80, f)
  | .ldc f => some (0x81, f)
  | .st f => some (0x82, f)
  | .ord f => some (0x83, f)
  | .atom f => some (0x84, f)
  | .red f => some (0x85, f)
  | .acq f => some (0x86, f)
  | .fence f => some (0x87, f)
  | .publish f => some (0x88, f)
  | .pref f => some (0x89, f)
  | .wptr f => some (0x8A, f)
  | .waitwp f => some (0x8B, f)
  | .trap f => some (0xB0, f)
  | .brk f => some (0xB1, f)
  | _ => none

/-- The operands of a sequencer word in whichever layout it has (R101). -/
inductive SeqOperands where
  | formatA (a : OpA)
  | formatE (e : OpE)
deriving DecidableEq, Repr

/-- The opcode, wait and signal fields and operands of a sequencer word (R102). -/
def sequencerParts : Instr → Option (Nat × Hdr × SeqOperands)
  | .li h o => some (0x00, h, .formatA o)
  | .addi h o => some (0x01, h, .formatA o)
  | .scalarAdd h o => some (0x02, h, .formatA o)
  | .scalarSub h o => some (0x03, h, .formatA o)
  | .scalarAnd h o => some (0x04, h, .formatA o)
  | .scalarOr h o => some (0x05, h, .formatA o)
  | .scalarXor h o => some (0x06, h, .formatA o)
  | .scalarShl h o => some (0x07, h, .formatA o)
  | .scalarShr h o => some (0x08, h, .formatA o)
  | .scalarSar h o => some (0x09, h, .formatA o)
  | .scalarMul h o => some (0x0A, h, .formatA o)
  | .slt h o => some (0x0B, h, .formatA o)
  | .sltu h o => some (0x0C, h, .formatA o)
  | .ldq h o => some (0x0D, h, .formatA o)
  | .stq h o => some (0x0E, h, .formatA o)
  | .br h o => some (0x10, h, .formatA o)
  | .brc h o => some (0x11, h, .formatA o)
  | .call h o => some (0x12, h, .formatA o)
  | .ret h o => some (0x13, h, .formatA o)
  | .loop h o => some (0x14, h, .formatA o)
  | .yield h o => some (0x15, h, .formatA o)
  | .halt h o => some (0x16, h, .formatA o)
  | .wait h o => some (0x20, h, .formatA o)
  | .sig h o => some (0x21, h, .formatA o)
  | .semset h o => some (0x22, h, .formatA o)
  | .semrd h o => some (0x23, h, .formatA o)
  | .nbarr h o => some (0x24, h, .formatA o)
  | .nbwait h o => some (0x25, h, .formatA o)
  | .taskdef h o => some (0x26, h, .formatA o)
  | .taskdone h o => some (0x27, h, .formatA o)
  | .tasknext h o => some (0x28, h, .formatA o)
  | .launch h o => some (0x30, h, .formatE o)
  | .cfgload h o => some (0x31, h, .formatE o)
  | .qwait h o => some (0x32, h, .formatE o)
  | .bceCopy h o => some (0x40, h, .formatE o)
  | .copymx h o => some (0x41, h, .formatE o)
  | .copysh h o => some (0x42, h, .formatE o)
  | .gather h o => some (0x43, h, .formatE o)
  | .scatter h o => some (0x44, h, .formatE o)
  | .fill h o => some (0x45, h, .formatE o)
  | .mma h o => some (0x50, h, .formatE o)
  | .mmat h o => some (0x51, h, .formatE o)
  | .accinit h o => some (0x52, h, .formatE o)
  | .acccnt h o => some (0x53, h, .formatE o)
  | .accout h o => some (0x54, h, .formatE o)
  | .accdrain h o => some (0x55, h, .formatE o)
  | .accpart h o => some (0x56, h, .formatE o)
  | .mxcfgMode h o => some (0x57, h, .formatE o)
  | .mxcfgPolicy h o => some (0x57, h, .formatE o)
  | .ovfstat h o => some (0x58, h, .formatE o)
  | .cred h o => some (0x60, h, .formatE o)
  | .crfix h o => some (0x61, h, .formatE o)
  | .crstat h o => some (0x62, h, .formatE o)
  | .stinit h o => some (0x70, h, .formatE o)
  | .stins h o => some (0x71, h, .formatE o)
  | .stdraw h o => some (0x72, h, .formatE o)
  | .stupd h o => some (0x73, h, .formatE o)
  | .stwgtBeta h o => some (0x74, h, .formatE o)
  | .stwgt h o => some (0x74, h, .formatE o)
  | .ststat h o => some (0x75, h, .formatE o)
  | .pdaload h o => some (0x80, h, .formatE o)
  | .pdastep h o => some (0x81, h, .formatE o)
  | .mask h o => some (0x82, h, .formatE o)
  | .sample h o => some (0x83, h, .formatE o)
  | .gmcfg h o => some (0x84, h, .formatE o)
  | .gmstat h o => some (0x85, h, .formatE o)
  | .vopen h o => some (0x90, h, .formatE o)
  | .vbind h o => some (0x91, h, .formatE o)
  | .vclose h o => some (0x92, h, .formatE o)
  | .vstat h o => some (0x93, h, .formatE o)
  | .sysrd h o => some (0xA0, h, .formatA o)
  | .syswr h o => some (0xA1, h, .formatA o)
  | .tlbInv h o => some (0xA2, h, .formatA o)
  | .qflush h o => some (0xA3, h, .formatA o)
  | .ctxsave h o => some (0xA4, h, .formatA o)
  | .ctxload h o => some (0xA5, h, .formatA o)
  | .event h o => some (0xA6, h, .formatA o)
  | _ => none

/-- The 64-bit word of opcode and fields (R89). -/
def encodeFab (op : Nat) (f : Fab) : Nat :=
  op * 2 ^ 56 + laneTyCode f.ty * 2 ^ 52 + gapCode f.ga * 2 ^ 50 + gapCode f.gb * 2 ^ 48 + pmCode f.pm * 2 ^ 46 +
    targetCode f.t0 * 2 ^ 37 + targetCode f.t1 * 2 ^ 28 + b2n f.imf * 2 ^ 27 + f.sub.toNat * 2 ^ 24 + f.imm.toNat

/-- The bits [127:80] of a sequencer word (R98). -/
def encodeHdr (op : Nat) (h : Hdr) : Nat :=
  op * 2 ^ 120 + b2n h.we * 2 ^ 119 + h.wsem.toNat * 2 ^ 111 + h.wthr.toNat * 2 ^ 96 + b2n h.se * 2 ^ 95 +
    h.ssem.toNat * 2 ^ 87 + h.inc.toNat * 2 ^ 80

/-- The bits [79:0] of a sequencer word (R101). -/
def encodeOperands : SeqOperands → Nat
  | .formatA a => a.qd.toNat * 2 ^ 75 + a.qs.toNat * 2 ^ 70 + a.qt.toNat * 2 ^ 65 + b2n a.b64 * 2 ^ 64 + a.imm.toNat
  | .formatE e =>
    e.qd.toNat * 2 ^ 75 + e.qs.toNat * 2 ^ 70 + e.qt.toNat * 2 ^ 65 + e.qv.toNat * 2 ^ 60 + e.unit.toNat * 2 ^ 56 +
      e.sub.toNat * 2 ^ 48 + e.imm.toNat

/-- The word of a sequencer instruction. -/
def encodeSeq (op : Nat) (h : Hdr) (x : SeqOperands) : Nat := encodeHdr op h + encodeOperands x

/-- The words of an instruction, as the number of its bits and their value; the events have none. -/
def encode (i : Instr) : Option (Nat × Nat) :=
  match fabricParts i with
  | some (op, f) => some (64, encodeFab op f)
  | none =>
    match sequencerParts i with
    | some (op, h, x) => some (128, encodeSeq op h x)
    | none => none

end Sys2Proof
end

