-- ==== Sys2Proof/WellFormed.lean ====
section
/-! DEFINITION. Which instructions are well formed: the checks a slot's word must meet at load (spec 03 R92 with the tables
R140, R162, R172, R173, R232 to R234, R405) and a sequencer word at issue (R103 with R257, R282, R315, R344, R356, R381,
R389, R409, R433), and bounds on what an event names. -/

namespace Sys2Proof

/-- Which targets an entry allows (R140, R234, R405). -/
inductive TargetRule where
  | any | needed | absent | exitBack
deriving DecidableEq, Repr

/-- What the entry of a fabric instruction says of its word: lane types, gap rules of each used port (an empty list: the
port is not used), whether a predicate port, the immediate form, this mod[2:0] and this imm are allowed, and its targets. -/
structure Form where
  tys : List LaneTy
  a : List Gap
  b : List Gap
  c : List Gap
  pm : Bool
  imf : Bool
  subOk : Bool
  immOk : Bool
  tgt : TargetRule
deriving DecidableEq, Repr

/-- Types .i8, .i16, .i32 (R162). -/
def tyI : List LaneTy := [.i8, .i16, .i32]
/-- Types .n8, .n16, .n32 (R162). -/
def tyN : List LaneTy := [.n8, .n16, .n32]
/-- I and N. -/
def tyIN : List LaneTy := tyI ++ tyN
/-- I, N and B. -/
def tyINB : List LaneTy := tyIN ++ [.b32]

/-- REFUSE only. -/
def gapR : List Gap := [.refuse]
/-- REFUSE or HOLD. -/
def gapRH : List Gap := [.refuse, .hold]
/-- REFUSE, HOLD or ONCE. -/
def gapRHO : List Gap := [.refuse, .hold, .once]
/-- Any gap rule. -/
def gapAll : List Gap := [.refuse, .hold, .interp, .once]

/-- imm[23:22], the gap rule of port c (R89). -/
def Fab.gcCode (f : Fab) : Nat := f.imm.toNat / 2 ^ 22

/-- The gap rule of port c where it is used (R89). -/
def Fab.gc (f : Fab) : Gap := gapOf f.gcCode

/-- imm[21:0]. -/
def Fab.imm22 (f : Fab) : Nat := f.imm.toNat % 2 ^ 22

/-- A two-operand compute instruction whose port b an immediate may replace (R93, R162, R172). -/
def formB (tys : List LaneTy) (subOk : Bool) (f : Fab) : Form :=
  { tys, a := gapAll, b := if f.imf then [] else gapAll, c := [], pm := true, imf := true, subOk
    immOk := f.imf || decide (f.imm = 0), tgt := .any }

/-- A three-operand one whose port c an immediate may replace (MAD, FMA). -/
def formC (tys : List LaneTy) (subOk : Bool) (f : Fab) : Form :=
  { tys, a := gapAll, b := gapAll, c := if f.imf then [] else gapAll, pm := true, imf := true, subOk
    immOk := if f.imf then decide (f.gcCode = 0) else decide (f.imm22 = 0), tgt := .any }

/-- A one-operand compute instruction without an immediate form. -/
def formA (tys : List LaneTy) (gaps : List Gap) (subOk immOk : Bool) : Form :=
  { tys, a := gaps, b := [], c := [], pm := true, imf := false, subOk, immOk, tgt := .any }

/-- A stream instruction of R140, without an immediate form. -/
def formS (a b c : List Gap) (pm subOk immOk : Bool) (tgt : TargetRule) : Form :=
  { tys := [.none], a, b, c, pm, imf := false, subOk, immOk, tgt }

/-- BFE and BFI: pos and len within the lane, the other bits zero (R162). -/
def bitFieldOk (imm : BitVec 24) : Bool :=
  let n := imm.toNat
  let pos := bits n 12 8
  let len := bits n 5 0
  decide (bits n 23 13 = 0) && decide (bits n 7 6 = 0) && decide (1 ≤ len) && decide (pos + len ≤ 32)

/-- CVT: the pairs of R186 with their mod[2:0], FMT and SEXP. -/
def cvtOk (f : Fab) : Bool :=
  let n := f.imm.toNat
  let src := bits n 3 0
  let fmt := bits n 7 4
  let sexp := bits n 13 8
  let rm := f.sub.toNat
  let codeOk := decide (fmt ≤ 8) && (decide (5 ≤ fmt) || decide (sexp = 0))
  let plain := decide (fmt = 0) && decide (sexp = 0)
  decide (bits n 23 14 = 0) &&
    match f.ty with
    | .f =>
      (decide (1 ≤ src) && decide (src ≤ 6) && decide (rm ≤ 3) && plain) || (decide (src = 8) && decide (rm = 0) && codeOk)
    | .b32 => decide (src = 7) && codeOk && (decide (rm ≤ 3) || (decide (rm = 4) && decide (1 ≤ fmt)))
    | .none => false
    | _ =>
      (decide (src = 7) && decide (rm ≤ 3) && plain) ||
        (decide (1 ≤ src) && decide (src ≤ 6) && decide (rm = 0) && plain)

/-- CVT's gap rules on port a: no INTERP from a storage code (R173). -/
def cvtGaps (f : Fab) : List Gap := if bits f.imm.toNat 3 0 = 8 then gapRHO else gapAll

/-- The FMT field of an access (R232). -/
def Fab.fmt (f : Fab) : Nat := bits f.imm.toNat 21 18
/-- XR (R232). -/
def Fab.xr (f : Fab) : Bool := bit f.imm.toNat 15
/-- REL (R232). -/
def Fab.rel (f : Fab) : Bool := bit f.imm.toNat 14
/-- RSC (R232). -/
def Fab.rsc (f : Fab) : Nat := bits f.imm.toNat 13 11
/-- OE (R232). -/
def Fab.oe (f : Fab) : Bool := bit f.imm.toNat 10
/-- LMASK (R232). -/
def Fab.lmask (f : Fab) : Nat := bits f.imm.toNat 7 0

/-- The lane types a storage format allows (R233). -/
def fmtTys (fmt : Nat) : List LaneTy :=
  if fmt ≤ 8 then [.f] else if fmt = 9 then [.i32, .n32, .b32] else if fmt ≤ 12 then tyIN else []

/-- The imm layout of an access (R232): `rels` where REL and RSC may be set. DESIGN CHOICE (log 164): without REL a scope in RSC is refused, the field then
having no meaning; R232 does not say. -/
def accessImmOk (rels : Bool) (f : Fab) : Bool :=
  decide (f.gcCode = 0) && decide (f.fmt ≤ 12) && decide (bits f.imm.toNat 17 16 = 0) && decide (bits f.imm.toNat 9 8 = 0) &&
    decide (f.lmask ≠ 0) && (!(decide (5 ≤ f.fmt) && decide (f.fmt ≤ 8)) || decide (f.lmask = 0xFF)) &&
    (if f.rel then rels && decide (f.rsc ≤ 5) else decide (f.rsc = 0))

/-- A memory access of R234 with port b or without. -/
def formM (tys : List LaneTy) (useB subOk rels extra : Bool) (f : Fab) : Form :=
  { tys, a := gapRHO, b := if useB then gapAll else [], c := if f.oe then gapR else [], pm := true, imf := false, subOk
    immOk := accessImmOk rels f && extra, tgt := if f.xr then .absent else .any }

/-- The other memory words of R234: port a (and b). -/
def formMisc (b : List Gap) (subOk immOk : Bool) (tgt : TargetRule) : Form :=
  { tys := [.none], a := gapRHO, b, c := [], pm := true, imf := false, subOk, immOk, tgt }

/-- The form of a fabric instruction. -/
def fabricForm : Instr → Option (Fab × Form)
  | .input f => some (f, formS [] [] [] false (decide (f.sub = 0)) (decide (f.imm.toNat < 8192)) .needed)
  | .output f => some (f, formS gapR [] [] false (decide (f.sub = 0))
      (decide (f.imm.toNat < 32) && (!bit f.imm.toNat 4 || decide (f.imm.toNat % 16 = 0))) .absent)
  | .const f => some (f, { formS gapRH [] [] true (decide (f.sub = 0)) true .needed with tys := tyINB ++ [.f] })
  | .nullgen f => some (f, formS gapRH [] [] true (decide (f.sub = 0)) (decide (f.imm = 0)) .needed)
  | .copy f => some (f, formS gapR [] [] true (decide (f.sub = 0)) (decide (f.imm = 0)) .needed)
  | .drop f => some (f, formS gapR [] [] true (decide (f.sub = 0)) (decide (f.imm = 0)) .absent)
  | .steer f => some (f, formS gapRH gapRH [] true (decide (f.sub.toNat ≤ 1)) (decide (f.imm = 0)) .any)
  | .merge f => some (f, formS gapR gapR [] false (decide (f.sub.toNat ≤ 2)) (decide (f.imm = 0)) .needed)
  | .omerge f => some (f, formS gapR gapR [] false (decide (f.sub = 0)) (decide (f.imm = 0)) .needed)
  | .lcarry f => some (f, formS gapR gapR [] false (decide (f.sub = 0)) (decide (f.imm = 0)) .needed)
  | .lexit f => some (f, formS gapRH gapRH [] false (decide (f.sub = 0)) (decide (f.imm = 0)) .exitBack)
  | .ends f => some (f, formS gapR gapR [] false (decide (f.sub = 0)) (decide (f.imm.toNat < 8)) .needed)
  | .gate f => some (f, formS gapR gapRHO [] true (decide (f.sub = 0)) (decide (f.imm = 0)) .needed)
  | .sel f => some (f, formS gapRH gapRH gapRH true (decide (f.sub.toNat ≤ 1)) (decide (f.imm22 = 0)) .needed)
  | .join f => some (f, formS gapRHO gapRHO (if f.sub = 1 then gapRHO else []) true (decide (f.sub.toNat ≤ 1))
      (if f.sub = 1 then decide (f.imm22 = 0) else decide (f.imm = 0)) .needed)
  | .bartok f => some (f, formS gapR [] [] true (decide (f.sub = 0)) (decide (f.imm.toNat < 8)) .needed)
  | .spanset f => some (f, formS gapR [] [] true (decide (f.sub.toNat ≤ 1)) (if f.sub = 1 then decide (f.imm = 0) else decide (f.imm ≠ 0)) .needed)
  | .spanshift f => some (f, formS gapR [] [] true (decide (f.sub.toNat ≤ 5)) true .needed)
  | .spanclip f => some (f, formS gapR [] [] true (decide (f.sub = 0)) (decide (f.imm ≠ 0)) .needed)
  | .stale f => some (f, formS gapR [] [] true (decide (f.sub.toNat ≤ 1)) true .needed)
  | .rangeMake f => some (f, formS gapR [] [] false (decide (f.sub = 0)) (decide (f.imm = 0)) .needed)
  | .rangeExpand f => some (f, formS gapR [] [] false (decide (f.sub = 1)) (decide (f.imm.toNat < 8) && decide (f.imm ≠ 0)) .needed)
  | .ctxnew f => some (f, formS gapR [] [] true (decide (f.sub = 0)) (decide (f.imm = 0)) .needed)
  | .ctxfree f => some (f, formS gapR [] [] true (decide (f.sub = 0)) (decide (f.imm = 0)) .any)
  | .spawn f => some (f, formS gapR [] [] true (decide (f.sub = 0)) (decide (f.imm = 0)) .needed)
  | .add f => some (f, formB tyIN (decide (f.sub = 0)) f)
  | .sub f => some (f, formB tyIN (decide (f.sub = 0)) f)
  | .mul f => some (f, formB tyIN (decide (f.sub = 0)) f)
  | .mulh f => some (f, formB tyIN (decide (f.sub = 0)) f)
  | .mad f => some (f, formC tyIN (decide (f.sub = 0)) f)
  | .div f => some (f, formB tyIN (decide (f.sub = 0)) f)
  | .rem f => some (f, formB tyIN (decide (f.sub = 0)) f)
  | .neg f => some (f, formA tyI gapAll (decide (f.sub = 0)) (decide (f.imm = 0)))
  | .abs f => some (f, formA tyI gapAll (decide (f.sub = 0)) (decide (f.imm = 0)))
  | .min f => some (f, formB tyIN (decide (f.sub = 0)) f)
  | .max f => some (f, formB tyIN (decide (f.sub = 0)) f)
  | .adds f => some (f, formB tyIN (decide (f.sub = 0)) f)
  | .subs f => some (f, formB tyIN (decide (f.sub = 0)) f)
  | .avg f => some (f, formB tyIN (decide (f.sub = 0)) f)
  | .cmp f => some (f, formB tyIN (decide (f.sub.toNat ≤ 5)) f)
  | .idx f => some (f, { formA [.i32, .n32] gapAll true true with b := gapAll })
  | .and f => some (f, formB tyINB (decide (f.sub = 0)) f)
  | .or f => some (f, formB tyINB (decide (f.sub = 0)) f)
  | .xor f => some (f, formB tyINB (decide (f.sub = 0)) f)
  | .not f => some (f, formA tyINB gapAll (decide (f.sub = 0)) (decide (f.imm = 0)))
  | .shl f => some (f, formB tyINB (decide (f.sub = 0)) f)
  | .shr f => some (f, formB (tyN ++ [.b32]) (decide (f.sub = 0)) f)
  | .sar f => some (f, formB (tyI ++ [.b32]) (decide (f.sub = 0)) f)
  | .rot f => some (f, formB tyINB (decide (f.sub = 0)) f)
  | .popc f => some (f, formA tyINB gapAll (decide (f.sub = 0)) (decide (f.imm = 0)))
  | .clz f => some (f, formA tyINB gapAll (decide (f.sub = 0)) (decide (f.imm = 0)))
  | .ctz f => some (f, formA tyINB gapAll (decide (f.sub = 0)) (decide (f.imm = 0)))
  | .bfe f => some (f, formA [.i32, .n32, .b32] gapAll (decide (f.sub = 0)) (bitFieldOk f.imm))
  | .bfi f => some (f, { formA [.b32] gapAll (decide (f.sub = 0)) (bitFieldOk f.imm) with b := gapAll })
  | .fadd f => some (f, formB [.f] (decide (f.sub.toNat ≤ 3)) f)
  | .fsub f => some (f, formB [.f] (decide (f.sub.toNat ≤ 3)) f)
  | .fmul f => some (f, formB [.f] (decide (f.sub.toNat ≤ 3)) f)
  | .fma f => some (f, formC [.f] (decide (f.sub.toNat ≤ 3)) f)
  | .fmin f => some (f, formB [.f] (decide (f.sub = 0)) f)
  | .fmax f => some (f, formB [.f] (decide (f.sub = 0)) f)
  | .fabs f => some (f, formA [.f] gapAll (decide (f.sub = 0)) (decide (f.imm = 0)))
  | .fneg f => some (f, formA [.f] gapAll (decide (f.sub = 0)) (decide (f.imm = 0)))
  | .fcmp f => some (f, formB [.f] true f)
  | .fdiv f => some (f, formB [.f] (decide (f.sub.toNat ≤ 3)) f)
  | .frcp f => some (f, formA [.f] gapAll (decide (f.sub.toNat ≤ 3)) (decide (f.imm = 0)))
  | .fsqrt f => some (f, formA [.f] gapAll (decide (f.sub.toNat ≤ 3)) (decide (f.imm = 0)))
  | .frsq f => some (f, formA [.f] gapAll (decide (f.sub.toNat ≤ 3)) (decide (f.imm = 0)))
  | .fexp2 f => some (f, formA [.f] gapAll (decide (f.sub = 0)) (decide (f.imm = 0)))
  | .flog2 f => some (f, formA [.f] gapAll (decide (f.sub = 0)) (decide (f.imm = 0)))
  | .fsig f => some (f, formA [.f] gapAll (decide (f.sub = 0)) (decide (f.imm = 0)))
  | .ftanh f => some (f, formA [.f] gapAll (decide (f.sub = 0)) (decide (f.imm = 0)))
  | .fscale f => some (f, formB [.f] (decide (f.sub.toNat ≤ 3)) f)
  | .fclass f => some (f, formA [.f] gapAll (decide (f.sub = 0)) (decide (f.imm.toNat < 1024)))
  | .frnd f => some (f, formA [.f] gapAll (decide (f.sub.toNat ≤ 3)) (decide (f.imm = 0)))
  | .perm f => some (f, { formB [.none] (decide (f.sub = 0)) f with a := gapRHO, b := if f.imf then [] else gapRHO })
  | .bcast f => some (f, formA [.none] gapRHO (decide (f.sub = 0)) (decide (f.imm.toNat < 8)))
  | .lrot f => some (f, { formB [.none] (decide (f.sub = 0)) f with
      a := gapRHO, b := if f.imf then [] else gapRHO, immOk := if f.imf then decide (f.imm.toNat < 8) else decide (f.imm = 0) })
  | .lsum f => some (f, formA tyIN gapAll (decide (f.sub = 0)) (decide (f.imm = 0)))
  | .lmax f => some (f, formA (tyIN ++ [.f]) gapAll (decide (f.sub = 0)) (decide (f.imm = 0)))
  | .flsum f => some (f, formA [.f] gapAll (decide (f.sub = 0)) (decide (f.imm = 0)))
  | .fldot f => some (f, { formA [.f] gapAll (decide (f.sub = 0)) (decide (f.imm = 0)) with b := gapAll })
  | .cvt f => some (f, formA [f.ty] (cvtGaps f) true (cvtOk f))
  | .pack f => some (f, formA [.none] gapRHO (decide (f.sub = 0)) (decide (f.imm.toNat < 4) && decide (f.imm ≠ 3)))
  | .unpack f => some (f, formA [.none] gapRHO (decide (f.sub = 0)) (decide (f.imm.toNat < 8) && decide (f.imm.toNat % 4 ≠ 3)))
  | .ld f => some (f, formM (fmtTys f.fmt) false (decide (f.sub = 0)) false true f)
  | .ldc f => some (f, formM (fmtTys f.fmt) false (decide (f.sub = 0)) false true f)
  | .st f => some (f, formM (fmtTys f.fmt) true (decide (f.sub.toNat ≤ 3) || (decide (f.sub = 4) && decide (1 ≤ f.fmt) && decide (f.fmt ≤ 8))) true true f)
  | .ord f => some (f, formMisc (if f.sub = 1 then gapAll else []) (decide (f.sub.toNat ≤ 1)) (decide (f.imm = 0)) .needed)
  | .atom f => some (f, formM (tyINB ++ [.f]) true true true (decide (f.sub ≠ 7) || decide (f.lmask < 16)) f)
  | .red f => some (f, formM (tyINB ++ [.f]) true (decide (f.sub.toNat ≤ 5)) true true f)
  | .acq f => some (f, formM (fmtTys f.fmt) false (decide (f.sub.toNat ≤ 5)) false (!(decide (5 ≤ f.fmt) && decide (f.fmt ≤ 8))) f)
  | .fence f => some (f, formMisc [] (decide (f.sub.toNat ≤ 5)) (decide (f.imm = 0)) .needed)
  | .publish f => some (f, formMisc [] (decide (f.sub = 0)) (decide (f.imm.toNat < 64)) .any)
  | .pref f => some (f, { formM (fmtTys f.fmt) false (decide (f.sub = 0)) false (!f.xr) f with tgt := .absent })
  | .wptr f => some (f, formMisc [] (decide (f.sub = 0)) (decide (f.imm.toNat < 8)) .needed)
  | .waitwp f => some (f, formMisc [] (decide (f.sub = 0)) (decide (f.imm.toNat < 8)) .needed)
  | .trap f => some (f, formS gapR [] [] true (decide (f.sub = 0)) true .absent)
  | .brk f => some (f, formS gapR [] [] true (decide (f.sub = 0)) true .needed)
  | _ => none

/-- A port's gap rule is one its entry allows; an unused port carries code 0 (R92 items 6 and 7). -/
def gapOk (allowed : List Gap) (g : Gap) : Bool := if allowed.isEmpty then decide (g = .refuse) else allowed.contains g

/-- A target that a 9-bit field can hold: port p of slot 127 has none (R91). -/
def targetOk : Option Target → Bool
  | none => true
  | some t => !(decide (t.slot = 127) && decide (t.port = .p))

/-- The targets of a word by themselves (R92 item 8, R140). -/
def targetsOk (r : TargetRule) (f : Fab) : Bool :=
  targetOk f.t0 && targetOk f.t1 && (f.t0.isSome || f.t1.isNone) && (f.t0.isNone || decide (f.t0 ≠ f.t1)) &&
    match r with
    | .any => true
    | .needed => f.t0.isSome
    | .absent => f.t0.isNone
    | .exitBack => match f.t1 with
      | some t => decide (t.port = .b)
      | none => false

/-- A fabric word that its own entry allows (R92 items 2 to 8). -/
def Form.ok (m : Form) (f : Fab) : Bool :=
  m.tys.contains f.ty && m.subOk && (m.imf || !f.imf) && (m.pm || decide (f.pm = .none)) && gapOk m.a f.ga &&
    gapOk m.b f.gb && (m.c.isEmpty || m.c.contains f.gc) && m.immOk && targetsOk m.tgt f

/-- The ports a fabric instruction uses (R63): a, b, c by its entry, p where pm is not none. -/
def portUsed (i : Instr) (p : Port) : Bool :=
  match fabricForm i with
  | none => false
  | some (f, m) =>
    match p with
    | .a => !m.a.isEmpty
    | .b => !m.b.isEmpty
    | .c => !m.c.isEmpty
    | .p => decide (f.pm ≠ .none)

/-- The gap rule of a port (R66); the predicate port uses REFUSE. -/
def gapRule (i : Instr) (p : Port) : Gap :=
  match fabricForm i with
  | none => .refuse
  | some (f, _) =>
    match p with
    | .a => f.ga
    | .b => f.gb
    | .c => f.gc
    | .p => .refuse

/-! ### Sequencer words -/

/-- WSEM, WTHR, SSEM and INC are zero where their enable is clear (R98). -/
def Hdr.ok (h : Hdr) : Bool :=
  (h.we || (decide (h.wsem = 0) && decide (h.wthr = 0))) && (h.se || (decide (h.ssem = 0) && decide (h.inc = 0)))

/-- Layout A: which register fields the entry uses, the others zero, and bit 64 zero (R101, R257). -/
def OpA.uses (o : OpA) (d s t : Bool) : Bool :=
  !o.b64 && (d || decide (o.qd = 0)) && (s || decide (o.qs = 0)) && (t || decide (o.qt = 0))

/-- Layout E: which register fields the entry uses, the others zero (R101). -/
def OpE.uses (o : OpE) (d s t v : Bool) : Bool :=
  (d || decide (o.qd = 0)) && (s || decide (o.qs = 0)) && (t || decide (o.qt = 0)) && (v || decide (o.qv = 0))

/-- imm[47:0] outside the bits `[hi:lo]` of the list is zero. -/
def immOnly (n : Nat) : List (Nat × Nat) → Bool
  | [] => decide (n = 0)
  | (hi, lo) :: fs => immOnly (n - bits n hi lo * 2 ^ lo) fs

/-- The fields common to the BCE words (R282, R283). -/
def bceOk (o : OpE) (upper : Bool) : Bool :=
  decide (o.unit.toNat ≤ 7) && decide (bits o.sub.toNat 2 0 ≤ 5) && decide (bits o.sub.toNat 7 6 = 0) && upper &&
    (bit o.imm.toNat 6 || decide (bits o.imm.toNat 5 0 = 0))

/-- MMA and MMAT (R315). -/
def mmaOk (o : OpE) : Bool :=
  o.uses true true true false && decide (o.unit.toNat ≤ 2) && decide (o.sub.toNat ≤ 3) &&
    (decide (bits o.imm.toNat 9 8 = 0) == decide (bits o.imm.toNat 17 10 = 0)) && decide (bits o.imm.toNat 7 0 = 0)

/-- An MXT command whose sub names a node (R315). -/
def mxtNodeOk (o : OpE) : Bool := decide (o.unit.toNat ≤ 2) && decide (o.sub.toNat ≤ 3)

/-- The fields of a sequencer word that its entry checks at issue (R103 items 2 and 3). -/
def sequencerFields : Instr → Option (Hdr × Bool)
  | .li h o =>
    some (h, o.uses true false false)
  | .addi h o =>
    some (h, o.uses true true false)
  | .scalarAdd h o =>
    some (h, o.uses true true true && decide (o.imm = 0))
  | .scalarSub h o =>
    some (h, o.uses true true true && decide (o.imm = 0))
  | .scalarAnd h o =>
    some (h, o.uses true true true && decide (o.imm = 0))
  | .scalarOr h o =>
    some (h, o.uses true true true && decide (o.imm = 0))
  | .scalarXor h o =>
    some (h, o.uses true true true && decide (o.imm = 0))
  | .scalarShl h o =>
    some (h, o.uses true true true && decide (o.imm = 0))
  | .scalarShr h o =>
    some (h, o.uses true true true && decide (o.imm = 0))
  | .scalarSar h o =>
    some (h, o.uses true true true && decide (o.imm = 0))
  | .scalarMul h o =>
    some (h, o.uses true true true && decide (o.imm = 0))
  | .slt h o =>
    some (h, o.uses true true true && decide (o.imm = 0))
  | .sltu h o =>
    some (h, o.uses true true true && decide (o.imm = 0))
  | .ldq h o =>
    some (h, o.uses true true false)
  | .stq h o =>
    some (h, o.uses false true true)
  | .br h o =>
    some (h, o.uses false false false)
  | .brc h o =>
    some (h, o.uses true true true && decide (o.qd.toNat ≤ 5))
  | .call h o =>
    some (h, o.uses true false false)
  | .ret h o =>
    some (h, o.uses false true false && decide (o.imm = 0))
  | .loop h o =>
    some (h, o.uses false true false && decide (1 ≤ bits o.imm.toNat 15 0) && decide (bits o.imm.toNat 31 16 = 0) &&
        (decide (o.qs = 0) || decide (bits o.imm.toNat 63 32 = 0)))
  | .yield h o =>
    some (h, o.uses false false false && decide (o.imm = 0))
  | .halt h o =>
    some (h, o.uses false false false && decide (o.imm = 0))
  | .wait h o =>
    some (h, o.uses false false false && decide (bits o.imm.toNat 63 33 = 0) && decide (bits o.imm.toNat 15 8 = 0) &&
        (bit o.imm.toNat 32 || decide (bits o.imm.toNat 31 0 = 0)))
  | .sig h o =>
    some (h, o.uses false true false && decide (bits o.imm.toNat 63 32 = 0) && decide (bits o.imm.toNat 15 8 = 0))
  | .semset h o =>
    some (h, o.uses false true false && decide (bits o.imm.toNat 63 32 = 0) && decide (bits o.imm.toNat 15 8 = 0))
  | .semrd h o =>
    some (h, o.uses true false false && decide (bits o.imm.toNat 63 8 = 0))
  | .nbarr h o =>
    some (h, o.uses false false false && decide (bits o.imm.toNat 63 11 = 0) && decide (bits o.imm.toNat 7 5 = 0) &&
        decide (1 ≤ bits o.imm.toNat 10 8) && decide (bits o.imm.toNat 10 8 ≤ 4))
  | .nbwait h o =>
    some (h, o.uses false false false && decide (bits o.imm.toNat 63 5 = 0))
  | .taskdef h o =>
    some (h, o.uses false true false && immOnly o.imm.toNat [(53, 48), (45, 40), (37, 32), (29, 24), (23, 20), (19, 16), (15, 8), (5, 0)])
  | .taskdone h o =>
    some (h, o.uses false true false && decide (bits o.imm.toNat 63 6 = 0))
  | .tasknext h o =>
    some (h, o.uses true false false && decide (o.imm = 0))
  | .launch h o =>
    some (h, o.uses false true false false && decide (o.unit = 0) && decide (o.sub = 0) && decide (o.imm.toNat < 64))
  | .cfgload h o =>
    some (h, o.uses true true true true && decide (o.unit = 0) && decide (o.sub.toNat ≤ 1) && decide (o.imm.toNat < 4))
  | .qwait h o =>
    some (h, o.uses true true false false && decide (o.unit = 0) && decide (o.sub = 0) && decide (o.imm = 0))
  | .bceCopy h o =>
    some (h, bceOk o (decide (bits o.imm.toNat 47 7 = 0)))
  | .copymx h o =>
    some (h, bceOk o (decide (bits o.imm.toNat 47 7 = 0)))
  | .copysh h o =>
    some (h, bceOk o (decide (bits o.imm.toNat 11 11 = 0) && decide (bits o.imm.toNat 7 7 = 0) &&
        decide (bits o.imm.toNat 10 8 ≠ 0)))
  | .gather h o =>
    some (h, bceOk o (decide (bits o.imm.toNat 15 7 = 0) && decide (bits o.imm.toNat 47 16 ≠ 0)))
  | .scatter h o =>
    some (h, bceOk o (decide (bits o.imm.toNat 15 7 = 0) && decide (bits o.imm.toNat 47 16 ≠ 0)))
  | .fill h o =>
    some (h, bceOk o (decide (bits o.imm.toNat 47 7 = 0) && decide (o.qd = 0) && decide (bits o.sub.toNat 2 0 ≤ 3)))
  | .mma h o =>
    some (h, mmaOk o)
  | .mmat h o =>
    some (h, mmaOk o)
  | .accinit h o =>
    some (h, o.uses false true true false && mxtNodeOk o && decide (bits o.imm.toNat 47 25 = 0) &&
        !(decide (10 ≤ bits o.imm.toNat 3 0) && decide (bits o.imm.toNat 3 0 ≤ 14)) &&
        (bit o.imm.toNat 4 || decide (bits o.imm.toNat 10 5 = 0)))
  | .acccnt h o =>
    some (h, o.uses false true false false && mxtNodeOk o && decide (bits o.imm.toNat 47 16 = 0))
  | .accout h o =>
    some (h, o.uses false false true false && mxtNodeOk o && decide (bits o.imm.toNat 47 13 = 0))
  | .accdrain h o =>
    some (h, o.uses false false false false && mxtNodeOk o && decide (o.imm = 0))
  | .accpart h o =>
    some (h, o.uses false false false false && mxtNodeOk o && decide (o.imm = 0))
  | .mxcfgMode h o =>
    some (h, o.uses false true false false && decide (o.unit = 0) && decide (o.sub = 0) && decide (o.imm = 0))
  | .mxcfgPolicy h o =>
    some (h, o.uses false false false false && decide (o.unit.toNat ≤ 2) && decide (o.sub = 1) && immOnly o.imm.toNat [(15, 8), (1, 0)])
  | .ovfstat h o =>
    some (h, o.uses true false false false && decide (o.unit.toNat ≤ 2) && decide (o.sub = 0) && decide (o.imm = 0))
  | .cred h o =>
    some (h, o.uses false true false false && decide (o.unit = 0) && decide (o.sub = 0) && decide (o.imm = 0))
  | .crfix h o =>
    some (h, o.uses false false false false && decide (o.unit = 0) && decide (o.sub.toNat ≤ 2) && decide (bits o.imm.toNat 47 24 = 0))
  | .crstat h o =>
    some (h, o.uses true false false false && decide (o.unit = 0) && decide (o.sub = 0) && decide (o.imm.toNat < 256))
  | .stinit h o =>
    some (h, o.uses false true true false && decide (o.unit.toNat ≤ 1) && decide (o.sub = 0) && immOnly o.imm.toNat [(20, 16), (12, 8), (5, 0)] &&
        decide (bits o.imm.toNat 20 16 ≤ 28) && (decide (bits o.imm.toNat 20 16 ≠ 0) ||
        (decide (o.qs = 0) && decide (o.qt = 0) && decide (bits o.imm.toNat 12 8 = 0))))
  | .stins h o =>
    some (h, o.uses false true false false && decide (o.unit.toNat ≤ 1) && decide (o.sub = 0) && immOnly o.imm.toNat [(31, 16), (5, 0)])
  | .stdraw h o =>
    some (h, o.uses false true false false && decide (o.unit.toNat ≤ 1) && decide (o.sub = 0) && immOnly o.imm.toNat [(25, 16), (5, 0)])
  | .stupd h o =>
    some (h, o.uses false true false false && decide (o.unit.toNat ≤ 1) && decide (o.sub = 0) && immOnly o.imm.toNat [(31, 16), (5, 0)])
  | .stwgtBeta h o =>
    some (h, o.uses false true true false && decide (o.unit.toNat ≤ 1) && decide (o.sub = 1) && decide (o.imm.toNat < 64))
  | .stwgt h o =>
    some (h, o.uses false true true false && decide (o.unit.toNat ≤ 1) && decide (o.sub = 0) && decide (o.imm.toNat < 64))
  | .ststat h o =>
    some (h, o.uses true false false false && decide (o.unit.toNat ≤ 1) && decide (o.sub.toNat ≤ 5) && decide (o.imm.toNat < 64))
  | .pdaload h o =>
    some (h, o.uses false true true false && decide (o.unit.toNat ≤ 1) && decide (o.sub = 0) && decide (o.imm.toNat < 16))
  | .pdastep h o =>
    some (h, o.uses false true true false && decide (o.unit.toNat ≤ 1) && decide (o.sub = 0) && decide (o.imm.toNat < 1024))
  | .mask h o =>
    some (h, o.uses false true true false && decide (o.unit.toNat ≤ 1) && decide (o.sub = 0) && decide (o.imm.toNat < 1024))
  | .sample h o =>
    some (h, o.uses true true true true && decide (o.unit.toNat ≤ 1) && decide (o.sub = 0) && decide (bits o.imm.toNat 15 14 = 0))
  | .gmcfg h o =>
    some (h, o.uses false true false false && decide (o.unit.toNat ≤ 1) && decide (o.sub = 0) && decide (o.imm.toNat < 16))
  | .gmstat h o =>
    some (h, o.uses true false false false && decide (o.unit.toNat ≤ 1) && decide (o.sub.toNat ≤ 5) && decide (o.imm.toNat < 16))
  | .vopen h o =>
    some (h, o.uses false true false false && decide (o.unit = 0) && decide (o.sub = 0) && decide (o.imm.toNat < 1024))
  | .vbind h o =>
    some (h, o.uses false true true false && decide (o.unit = 0) && decide (o.sub = 0) && decide (o.imm.toNat < 1024))
  | .vclose h o =>
    some (h, o.uses false false false false && decide (o.unit = 0) && decide (o.sub = 0) && decide (o.imm.toNat < 1024))
  | .vstat h o =>
    some (h, o.uses true false false false && decide (o.unit = 0) && decide (o.sub.toNat < 8) && decide (o.imm.toNat < 1024))
  | .sysrd h o =>
    some (h, o.uses true true false)
  | .syswr h o =>
    some (h, o.uses false true true)
  | .tlbInv h o =>
    some (h, o.uses false true true && decide (o.imm = 0))
  | .qflush h o =>
    some (h, o.uses false true false && decide (o.imm.toNat < 16))
  | .ctxsave h o =>
    some (h, o.uses true true true && decide (bits o.imm.toNat 63 32 = 0) && decide (bits o.imm.toNat 31 0 ≠ 0))
  | .ctxload h o =>
    some (h, o.uses true true false && decide (o.imm = 0))
  | .event h o =>
    some (h, o.uses false true false && decide (o.imm.toNat < 256))
  | _ => none

/-- A sequencer word that R103 lets through to its effect, but for what the part and the machine's state decide. -/
def sequencerOk (i : Instr) : Bool :=
  match sequencerFields i with
  | some (h, b) => h.ok && b
  | none => false

/-! ### All instructions -/

/-- An instruction the machine may run: a fabric word that R92 lets a slot hold, a sequencer word that R103 lets through, or
an event. -/
def Instr.wellFormed (i : Instr) : Bool :=
  match fabricForm i with
  | some (f, m) => m.ok f
  | none =>
    match sequencerFields i with
    | some (h, b) => h.ok && b
    | none => true

end Sys2Proof
end

