-- ==== Sys2Proof/Machine/Fabric.lean ====
section
/-! DEFINITION. The processing element (spec 02 R60 to R72; 05 R132 to R138): the nodes of a region, the order check, coverage and the sets
of a firing, arrival, spilling, discarding, and the emission of results. -/

namespace Sys2Proof.Machine

/-! ## Regions and nodes -/

/-- The key of a slot of a configuration context in a context. -/
def nodeKey (cctx slot ctx : Nat) : Nat := 4096 * (128 * cctx + slot) + ctx
/-- The state of a slot of the active configuration context in a context (R132). -/
def Region.node (r : Region) (slot ctx : Nat) : Node := NatMap.get .init r.nodes (nodeKey r.active slot ctx)
/-- Put the state of a slot. -/
def Region.setNode (r : Region) (slot ctx : Nat) (n : Node) : Region :=
  { r with nodes := NatMap.set .init r.nodes (nodeKey r.active slot ctx) n }
/-- The block of the active configuration context (R51). -/
def Region.block? (r : Region) : Option Block := NatMap.find? r.blocks r.active
/-- The configuration word of a slot. -/
def Region.wordAt (r : Region) (slot : Nat) : Nat := ((r.block?).map fun b => b.words.getD slot 0).getD 0
/-- The instruction of a slot. -/
def Region.instrAt (r : Region) (slot : Nat) : Option Instr :=
  match r.block? with
  | none => none
  | some b => if slot < b.words.length then (decodeFabric (b.words.getD slot 0)).instr? else none
/-- The PEs of a region as bits of its mask, ascending (R83, R274). -/
def Region.pes (r : Region) : List Nat := (List.range 144).filter fun i => bit r.mask i
/-- The PE a slot is placed on: its index in the region and the local slot (R50, R83). -/
def Region.placeOf (r : Region) (slot : Nat) : Nat × Nat := ((r.block?).map fun b => b.places.getD slot (0, 0)).getD (0, 0)
/-- The bit of the mask of the PE a slot is placed on. -/
def Region.peBit (r : Region) (slot : Nat) : Nat := r.pes.getD (r.placeOf slot).1 0
/-- The logical quad of a PE bit (R274). -/
def Region.lqOfBit (r : Region) (b : Nat) : Nat := 16 * r.gal + b / 9
/-- The logical quad a slot is placed in. -/
def Region.lqAt (r : Region) (slot : Nat) : Nat := r.lqOfBit (r.peBit slot)
/-- Whether a region's clocks run (R50, R392, R417). -/
def Region.live (r : Region) : Bool := r.running && !r.frozen

/-- A port of a node. -/
def Node.port (n : Node) : Port → PortState
  | .a => n.a
  | .b => n.b
  | .c => n.c
  | .p => n.p
/-- Put a port of a node. -/
def Node.setPort (n : Node) (k : Port) (x : PortState) : Node :=
  match k with
  | .a => { n with a := x }
  | .b => { n with b := x }
  | .c => { n with c := x }
  | .p => { n with p := x }
/-- The ports in the order of their codes (R91). -/
def ports : List Port := [.a, .b, .c, .p]
/-- The port of a code (R91). -/
def portOfNat (n : Nat) : Port := portOf n

/-! ## Region faults -/

/-- Codes of region faults (R391). -/
def codeSpanOrder : Nat := 0x04
/-- SPAN_EMPTY (R391). -/
def codeSpanEmpty : Nat := 0x05
/-- MATCH_OVERFLOW (R391). -/
def codeMatchOverflow : Nat := 0x06
/-- CHECK_MISMATCH (R391). -/
def codeCheck : Nat := 0x40
/-- TRAP (R391, R406). -/
def codeTrap : Nat := 0x60
/-- BREAK (R391, R406). -/
def codeBreak : Nat := 0x61

/-- What a region fault record names (R394); `first` are the tokens the fault consumed or met, with their ports. -/
structure FaultAt where
  slot : Nat
  port : Nat
  ctx : Nat
  span : Span
  first : List (Nat × Token)
  arg0 : Nat
  arg1 : Nat
deriving DecidableEq, Repr

/-- The tokens waiting at a node, with their ports. -/
def Node.waitingToks (n : Node) : List (Nat × Token) :=
  ports.flatMap fun k => ((n.port k).waiting ++ (n.port k).behind).map fun w => (portCode k, w.tok)

/-- The tokens waiting on a slot of the active configuration context, in every context, with their ports (R394). -/
def Region.waitingOn (r : Region) (slot : Nat) : List (Nat × Token) :=
  (r.nodes.filter fun e => decide (e.1 / 4096 = 128 * r.active + slot)).flatMap fun e => e.2.waitingToks

/-- The launch a region belongs to. -/
def State.launchOfRegion (s : State) (r : Region) : Option Launch :=
  match r.launch with
  | some x => s.launch? x
  | none => none

/-- The tokens of a list but, for each of another, the first that is the same. -/
def withoutEach (xs ys : List (Nat × Token)) : List (Nat × Token) := ys.foldl (fun acc y => acc.erase y) xs

/-- The tokens a region fault record names (R394): those the fault consumed or met and those that wait on the slot, in ascending key, lo then port (R134); in
the record of TRAP or BRK the token of port a is the first (R406). -/
def faultToks (r : Region) (code : Nat) (a : FaultAt) : List Token :=
  let key := fun (x : Nat × Token) => 4 * x.2.lo + x.1
  let rest := if a.slot < 128 then withoutEach (r.waitingOn a.slot) a.first else []
  (if code = codeTrap ∨ code = codeBreak then a.first ++ sortBy key rest else sortBy key (a.first ++ rest)).map (·.2)

/-- The record of a fault of a region (R394). -/
def regionRecord (s : State) (r : Region) (code rflags : Nat) (a : FaultAt) : FaultRecord :=
  let toks := faultToks r code a
  let lq := if a.slot < 128 then r.lqAt a.slot else r.lqOfBit (r.pes.getD 0 0)
  { FaultRecord.blank with
    kind := 0, code := code, rflags := rflags + b2n (8 < toks.length), part := r.part
    lid := ((s.launchOfRegion r).map (·.rcd.lid)).getD 0xFFFFFFFF, lq := lq, pq := s.pqOf lq
    pe := if a.slot < 128 then r.peBit a.slot % 9 else 0, cctx := r.active, slot := a.slot
    stage := (r.role.map (·.stage)).getD 0, inst := (r.role.map (·.inst)).getD 0, port := a.port
    word := if a.slot < 128 then r.wordAt a.slot else 0, ctx := a.ctx, span := a.span, arg0 := a.arg0, arg1 := a.arg1
    toks := toks.take 8, ntok := min 8 toks.length }

/-- A REGION FAULT (R392): the region's clock freezes and the record waits for the ring; when it is written the region's launch ends, or, for
a region outside any launch, the region stops with the code; the record says ENDED (R394; log 57). -/
def State.regionFault (s : State) (rid code : Nat) (a : FaultAt) : State :=
  match s.region? rid with
  | none => s
  | some r =>
    let f := { regionRecord s r code 8 a with ends := r.launch, stops := if r.launch.isNone then some rid else none }
    (s.setRegion rid { r with frozen := true }).addRecord f

/-- Whether a span of a region was being replayed already after a code (R401). -/
def Region.replays (r : Region) (code lo : Nat) : Bool :=
  match NatMap.find? r.replaying code with
  | some m => decide (lo ≤ m)
  | none => false

/-- A rollback of a region after a code at a span, `lo` its start, replays the spans of its retained tokens (R400, R401). -/
def Region.replayFrom (r : Region) (code lo : Nat) : Region :=
  { r with replaying := NatMap.insert r.replaying code ((r.retained.map fun e => e.2.lo).foldl max (max lo (NatMap.get 0 r.replaying code))) }

/-- A fault that rolls back (R401): CHECK_MISMATCH, or UNCORRECTABLE from consumption. Where the region is unreplayable, or this span was
already being replayed after the same code, the launch ends instead. `retire` is the physical quad of a lasting check failure. -/
def State.containedFault (s : State) (rid code : Nat) (retire : Option Nat) (a : FaultAt) : State :=
  match s.region? rid with
  | none => s
  | some r =>
    let again := r.unreplayable || r.replays code a.span.lo
    let a := match retire with | some q => { a with arg1 := q } | none => a
    let f := regionRecord s r code ((if again then 8 else 2) + (if retire.isSome then 4 else 0)) a
    let f := if again then { f with ends := r.launch, stops := if r.launch.isNone then some rid else none,
                                    replays := retire.map fun q => (rid, some q) }
      else { f with replays := some (rid, retire) }
    (s.setRegion rid { (if again then r else r.replayFrom code a.span.lo) with frozen := true }).addRecord f

/-! ## The order check -/

/-- The order check of R61 for an arrival on a port: the fault it raises. The span of a token that an ONCE port has latched is open (R68). An arrival that fails
in two ways gets the first code of: SPAN_ORDER for a port closed by END of level 0, SPAN_EMPTY, SPAN_ORDER for its lo; R61 gives no priority: DESIGN CHOICE
(log 156). -/
def PortState.check (x : PortState) (t : Token) : Option Nat :=
  if x.closed then some codeSpanOrder
  else if t.kind = .fin then (if t.lo < x.lastHi ∧ !x.lastOpen ∧ !x.latched then some codeSpanOrder else none)
  else if t.hi ≤ t.lo then some codeSpanEmpty
  else if t.lo < x.lastHi ∨ x.lastOpen ∨ x.latched then some codeSpanOrder
  else none

/-- The order check's memory after an arrival (R61, R68, R72): a nested END starts it afresh, an END of level 0 closes the port, an ONCE port
latches its first token (log 130). -/
def PortState.saw (x : PortState) (g : Gap) (t : Token) : PortState :=
  if t.kind = .fin then { x with lastHi := 0, lastOpen := false, closed := decide (t.level = 0) }
  else { x with lastHi := t.hi, lastOpen := decide (t.hi = openHi), latched := x.latched || decide (g = .once) }

/-- The reach of a port (R62): after END it is unbounded. -/
def PortState.reachOf (x : PortState) : Nat := if x.ended.isSome then unbounded else x.reach

/-- A token other than END joins the waiting tokens of the current stream (R62, R65). -/
def PortState.add (x : PortState) (g : Gap) (w : Waiting) : PortState :=
  let reach := match g with
    | .once => unbounded
    | .hold => max (max x.reach w.tok.hi) w.tok.lo
    | .interp => max (max x.reach w.tok.hi) w.tok.lo
    | .refuse => max x.reach w.tok.hi
  { x with waiting := x.waiting ++ [w], reach := reach }

/-- A token joins a port in its current stream (R62, R65, R72): an END ends the stream. -/
def PortState.join (x : PortState) (g : Gap) (t : Token) : PortState :=
  let y := x.saw g t
  if t.kind = .fin then { y with ended := some (t.lo, t.level) } else y.add g ⟨t, .store⟩

/-- The tokens behind an END up to the next END become those of the current stream (R72). -/
def PortState.promote (g : Gap) (x : PortState) : List Waiting → PortState
  | [] => { x with behind := [] }
  | w :: ws =>
    if w.tok.kind = .fin then { x with ended := some (w.tok.lo, w.tok.level), behind := ws } else PortState.promote g (x.add g w) ws

/-- A port at the start of a nested stream (R68, R72): its reach starts afresh; the token an ONCE port has latched stays until END of level 0; then
the tokens that waited behind the END. -/
def PortState.afresh (x : PortState) (g : Gap) : PortState :=
  let y := if g = .once ∧ x.latched = true then { x with ended := none, reach := unbounded } else { x with ended := none, waiting := [], reach := 0, cut := none }
  y.promote g x.behind

/-! ## Coverage and the sets of a firing -/

/-- The coverage of a waiting token (R62): where it starts and ends; an end not yet known is `none`, with the hi below which it is sure. -/
structure Cover where
  lo : Nat
  hi : Option Nat
  sure : Nat
deriving DecidableEq, Repr

/-- Where the coverage of the last waiting token of a HOLD or INTERP port ends, where that is known (R62): at the lo of the successor that was discarded at once
(R65), else at that of END. -/
def PortState.ends (x : PortState) : Option Nat := x.cut.orElse fun _ => x.ended.map (·.1)

/-- The coverages of a port's waiting tokens, oldest first (R62); `fin` is where the last of them ends. -/
def covers (g : Gap) (fin : Option Nat) : List Waiting → List (Waiting × Cover)
  | [] => []
  | w :: ws =>
    let t := w.tok
    let next : Option Nat := match ws with
      | x :: _ => some x.tok.lo
      | [] => fin
    let c : Cover := match g with
      | .refuse => ⟨t.lo, some t.hi, t.hi⟩
      | .hold => ⟨t.lo, next, if t.hi = openHi then t.lo else t.hi⟩
      | .interp => ⟨t.lo, next, t.lo⟩
      | .once => ⟨0, some unbounded, unbounded⟩
    (w, c) :: covers g fin ws

/-- A candidate set: its tokens by port, on an INTERP port with the sample that follows, the interval of its coverages so far (none before a port
that counts towards it), whether its end is known, and whether every token is in the store. -/
structure CandSet where
  toks : List (Port × Waiting × Cover × Option Waiting)
  lo : Nat
  hi : Option Nat
  sure : Nat
  counted : Bool
deriving DecidableEq, Repr

/-- The meet of a set with one more coverage, where they overlap (R63). An ONCE port does not count towards I. -/
def CandSet.meet (x : CandSet) (k : Port) (g : Gap) (w : Waiting) (c : Cover) (nxt : Option Waiting) : Option CandSet :=
  let y := { x with toks := x.toks ++ [(k, w, c, nxt)] }
  if g = .once then some y
  else
    let lo := max x.lo c.lo
    let hi := match x.hi, c.hi with
      | some a, some b => some (min a b)
      | some a, none => if a ≤ c.sure then some a else none
      | none, some b => if b ≤ x.sure then some b else none
      | none, none => none
    let sure := min x.sure c.sure
    let top := match x.hi, c.hi with
      | some a, some b => min a b
      | some a, none => a
      | none, some b => b
      | none, none => unbounded
    if lo < top then some { y with lo := lo, hi := hi, sure := sure, counted := true } else none

/-- The interval no port has narrowed. -/
def CandSet.start : CandSet := ⟨[], 0, some unbounded, unbounded, false⟩

/-- Every set of one waiting token per port whose coverages intersect (R63), over the ports given. -/
def candSets (gap : Port → Gap) (n : Node) : List Port → List CandSet
  | [] => [.start]
  | k :: ks =>
    let x := n.port k
    let cs := covers (gap k) x.ends x.waiting
    (candSets gap n ks).flatMap fun s =>
      (List.range cs.length).filterMap fun i =>
        match cs[i]? with
        | none => none
        | some (w, c) => s.meet k (gap k) w c (if gap k = .interp then (cs[i + 1]?).map (·.1) else none)

/-- The ports an instruction uses (R63). -/
def usedPorts (i : Instr) : List Port := ports.filter (portUsed i)

/-- The sets not yet emitted, ascending in the lo of I (R63). -/
def openSets (i : Instr) (n : Node) : List CandSet :=
  let all := (candSets (gapRule i) n (usedPorts i).reverse).filter fun s => decide (n.done ≤ s.lo)
  sortBy (fun x => x.lo) all

/-- I of a set whose end is known; a set that no port bounds is open (R8, R63). -/
def CandSet.span? (s : CandSet) : Option Span := s.hi.map fun h => ⟨s.lo, if openHi ≤ h then openHi else h⟩

/-- Whether no token that a set's operands need is spilled (R67, R135). -/
def CandSet.inStore (s : CandSet) : Bool :=
  s.toks.all fun e => !e.2.1.place.spilled && !((e.2.2.2.map fun w => w.place.spilled).getD false)

/-- The firing that a node issues next: the set of lowest lo, where its end is known and its operands are in the store (R63, R135). -/
def nextSet (i : Instr) (n : Node) : Option CandSet :=
  match openSets i n with
  | [] => none
  | s :: _ => if s.hi.isSome && s.inStore then some s else none

/-- The value an INTERP port supplies at the start of I (R67), with the flags and whether the sample that follows has a weight. Where sample k, or
at a weight above 0 sample k + 1, is no DATA token, the operand is that token: the model's choice, since R67 speaks of DATA only (log 131). -/
def interpOperand (ty : LaneTy) (x : Nat) (t : Token) (c : Cover) (nxt : Option Token) : Token × ExFlags × Bool :=
  match nxt with
  | none =>
    let v := interpLanes ty 0 t.lanes t.lanes
    ({ t with lanes := if t.kind = .data then v.val else t.lanes }, v.flags, false)
  | some u =>
    let w := interpWeight x t.lo (c.hi.getD (u.lo))
    let v := interpLanes ty w t.lanes u.lanes
    if t.kind ≠ .data then (t, .none, false)
    else if w ≠ 0 ∧ u.kind ≠ .data then
      ({ u with poison := t.poison || u.poison, taint := t.taint || u.taint }, .none, false)
    else
      ({ t with
          lanes := v.val
          poison := t.poison || (decide (w ≠ 0) && u.poison)
          taint := t.taint || (decide (w ≠ 0) && u.taint) }, v.flags, decide (w ≠ 0))

/-- The type with which an instruction reads a port: `.b32` where its ty is 0 (R67). -/
def readTy (t : LaneTy) : LaneTy := if t = .none then .b32 else t

/-- The operand of a set on a port. -/
def CandSet.operand (gap : Port → Gap) (ty : LaneTy) (s : CandSet) (k : Port) : Option (Token × ExFlags × Bool) :=
  (s.toks.find? fun e => e.1 = k).map fun e =>
    if gap k = .interp then interpOperand (readTy ty) s.lo e.2.1.tok e.2.2.1 (e.2.2.2.map (·.tok)) else (e.2.1.tok, .none, false)

/-- The firing of a set (R63, R64, R67). -/
def CandSet.firing (i : Instr) (ty : Port → LaneTy) (s : CandSet) (span : Span) : Firing :=
  let op := fun k => s.operand (gapRule i) (ty k) k
  let flags := ExFlags.all ([Port.a, .b, .c].map fun k => ((op k).map fun e => e.2.1).getD .none)
  let w := [Port.a, .b, .c].any fun k => ((op k).map fun e => e.2.2).getD false
  ⟨span, (op .a).map (·.1), (op .b).map (·.1), (op .c).map (·.1), (op .p).map (·.1), flags, w,
    ports.flatMap fun k => (s.toks.filter fun e => decide (e.1 = k)).flatMap fun e =>
      (e.2.1.tok :: (e.2.2.2.map (·.tok)).toList).map fun t => (portCode k, t)⟩

/-! ## Discarding and the end of a stream -/

/-- Whether an un-emitted set uses a token of a port, as its operand or as the sample that follows an INTERP operand (R65, R67). -/
def usedBy (sets : List CandSet) (k : Port) (w : Waiting) : Bool :=
  sets.any fun s => s.toks.any fun e => decide (e.1 = k) && (decide (e.2.1 = w) || decide (e.2.2.2 = some w))

/-- Whether a waiting token is discarded (R65): no set still needs it; an open or held token waits for END on its own port, a latched one for
END of level 0 (R68); every other used port has a reach at least the end of its coverage. -/
def discards (sets : List CandSet) (n : Node) (used : List Port) (g : Gap) (k : Port) (w : Waiting) (c : Cover) : Bool :=
  let x := n.port k
  !usedBy sets k w &&
  (if (w.tok.hi = openHi ∨ c.hi.isNone) ∧ x.ended.isNone then false
    else if g = .once ∧ x.ended.map (·.2) ≠ some 0 then false
    else (used.filter (· ≠ k)).all fun r => decide ((c.hi.getD unbounded) ≤ (n.port r).reachOf ∨ (n.port r).ended.isSome))

/-- Drop what a port need no longer hold (R65). -/
def sweepPort (sets : List CandSet) (used : List Port) (g : Gap) (k : Port) (n : Node) : Node :=
  let x := n.port k
  let keep := (covers g x.ends x.waiting).filter fun e => !discards sets n used g k e.1 e.2
  n.setPort k { x with waiting := keep.map (·.1) }

/-- Discard every waiting token of a node that is past its last firing (R65). -/
def sweep (i : Instr) (n : Node) : Node :=
  let sets := openSets i n
  (usedPorts i).foldl (fun m k => sweepPort sets (usedPorts i) (gapRule i k) k m) n

/-- The END a node emits (R72), once every used port holds END and no set is left: its lo, and its level where the ENDs agree. -/
def endReady (i : Instr) (n : Node) : Option (Nat × Option Nat) :=
  let es := (usedPorts i).map fun k => (n.port k).ended
  if es.isEmpty ∨ es.any (·.isNone) ∨ !(openSets i n).isEmpty then none
  else
    let ls := es.filterMap id
    let lv := (ls.head?.map (·.2)).getD 0
    some ((ls.map (·.1)).foldl max 0, if ls.all (fun e => e.2 = lv) then some lv else none)

/-! ## Emission -/

/-- Send a token to a target of a word (R91). -/
def Region.send (r : Region) (t : Option Target) (tok : Token) : Region :=
  match t with
  | none => r
  | some x => { r with flight := r.flight ++ [⟨x.slot.toNat, x.port, tok⟩] }

/-- Send a token to t0 and then to t1 (R91). -/
def Region.sendBoth (r : Region) (f : Fab) (tok : Token) : Region := (r.send f.t0 tok).send f.t1 tok

/-- An END token: its hi is written equal to its lo (R141). -/
def endToken (ctx lo level : Nat) : Token := ⟨ctx, lo, lo, .fin, false, level, .none, false, false, .zero⟩

/-- A NULL token (R60). -/
def nullToken (ctx : Nat) (s : Span) (level : Nat) (poison taint interp : Bool) : Token :=
  ⟨ctx, s.lo, s.hi, .null, interp, level, .null, poison, taint, .zero⟩

/-- Raise exception flags in the PE of a slot for a context (R128): the sticky flags live with the region, keyed by PE and context. -/
def Region.raise (r : Region) (slot ctx : Nat) (f : ExFlags) : Region :=
  if f = .none then r
  else
    let k := 4096 * r.peBit slot + ctx
    { r with flags := NatMap.set .none r.flags k (ExFlags.or (NatMap.get .none r.flags k) f) }

/-- The operands of a firing in port order (R71). -/
def Firing.operands (f : Firing) : List Token := [f.a, f.b, f.c, f.p].filterMap id

/-- The OR of the operands' taint, of their poison, the interpolation mark and the level of port a (R64). -/
def Firing.result (f : Firing) (ctx : Nat) (kind : Kind) (pred : Pred) (lanes : Lanes) : Token :=
  { ctx := ctx, lo := f.span.lo, hi := f.span.hi, kind := kind, interp := f.weighted, level := (f.a.map (·.level)).getD 0, pred := pred
    poison := f.operands.any (·.poison), taint := f.operands.any (·.taint), lanes := lanes }

/-- The NULL result of a firing (R60, R64, R71). -/
def Firing.nullResult (f : Firing) (ctx : Nat) : Token := f.result ctx .null .null .zero

/-- The FAULT result of a fault firing: the payload of the first FAULT operand in port order (R71). -/
def Firing.faultResult (f : Firing) (ctx : Nat) : Token :=
  f.result ctx .fault .none (((f.operands.find? fun t => t.kind = .fault).map (·.lanes)).getD .zero)

/-- How a firing is treated (R70, R71). -/
inductive Judged where
  | consumed | fault | null | ordinary
deriving DecidableEq, Repr

/-- The value a predicate match asks for (R69). -/
def pmPred : Pm → Pred
  | .none => .none
  | .onTrue => .true
  | .onFalse => .false

/-- R71 on the operands other than the predicate. -/
def judgeOperands (f : Firing) : Judged :=
  let ts := [f.a, f.b, f.c].filterMap id
  if ts.any fun t => t.kind = .fault then .fault
  else if ts.any fun t => t.kind = .null then .null
  else .ordinary

/-- R70 and R71. -/
def judge (pm : Pm) (f : Firing) : Judged :=
  match f.p with
  | none => judgeOperands f
  | some t =>
    if t.kind = .fault then .fault
    else if t.pred = .null then (if judgeOperands f = .fault then .fault else .null)
    else if t.pred = pmPred pm then judgeOperands f
    else .consumed

end Sys2Proof.Machine
end

