-- ==== Sys2Proof/Machine/Fire.lean ====
section
/-! DEFINITION. Arrival of tokens, spilling (spec 05 R133 to R135), and the firing of a slot: checks (18 R396, R397), consumption of poison
(R399), the judging of R70 and R71, and END (R72). -/

namespace Sys2Proof.Machine

/-! ## The matching store -/

/-- The set of a waiting token (R133). -/
def storeSet (lo loc ctx : Nat) : Nat := (lo % 32) ^^^ (loc % 32) ^^^ (ctx % 32)

/-- A waiting token of a region with where it waits. -/
structure Spot where
  slot : Nat
  ctx : Nat
  port : Port
  w : Waiting
deriving DecidableEq, Repr

/-- The tokens waiting in a region, those behind an END among them. -/
def Region.spots (r : Region) : List Spot :=
  r.nodes.flatMap fun e => ports.flatMap fun k => ((e.2.port k).waiting ++ (e.2.port k).behind).map fun w => ⟨e.1 / 4096 % 128, e.1 % 4096, k, w⟩

/-- The waiting tokens that take entries of the matching store: all but ENDs, which close their port (R132; log 132). -/
def Region.storeSpots (r : Region) : List Spot := r.spots.filter fun x => decide (x.w.tok.kind ≠ .fin)

/-- The key of a waiting token in its set: lo, local slot, port (R133, R134). -/
def Spot.key (r : Region) (x : Spot) : Nat := (x.w.tok.lo * 32 + (r.placeOf x.slot).2) * 4 + portCode x.port

/-- Whether a token waits on a PE (by index in the region) in a set. -/
def Region.inSet (r : Region) (pe set : Nat) (x : Spot) : Bool :=
  decide ((r.placeOf x.slot).1 = pe) && decide (storeSet x.w.tok.lo (r.placeOf x.slot).2 x.ctx = set)

/-- Where the spilled tokens of all regions rest in accumulator columns (R134). -/
def spillColumns (s : State) : List Place :=
  s.regions.flatMap fun e => e.2.storeSpots.filterMap fun x => match x.w.place with
    | .column lq m n c => some (.column lq m n c)
    | _ => none

/-- The first column of an unallocated node of a quad with room for one more token; a column holds 8 (R134). -/
def freeColumn (s : State) (lq : Nat) : Option Place :=
  let used := spillColumns s
  ((List.range 3).flatMap fun m => (List.range 4).filterMap fun n =>
      if (NatMap.get AccNode.init ((s.quadOf lq).mx m).nodes n).st = .free then
        ((List.range 128).map fun c => Place.column lq m n c).find? fun p => decide (used.count p < 8)
      else none).head?

/-- The first of a list of waiting tokens that is a given one changes. -/
def changeFirst (w : Waiting) (f : Waiting → Waiting) : List Waiting → List Waiting
  | [] => []
  | x :: xs => if x = w then f x :: xs else x :: changeFirst w f xs

/-- Change a waiting token: of equal ones in the streams of a port, that of the earliest stream. -/
def Region.changeSpot (r : Region) (x : Spot) (f : Waiting → Waiting) : Region :=
  let n := r.node x.slot x.ctx
  let y := n.port x.port
  r.setNode x.slot x.ctx (n.setPort x.port
    (if y.waiting.contains x.w then { y with waiting := changeFirst x.w f y.waiting } else { y with behind := changeFirst x.w f y.behind }))

/-- Change where a waiting token rests. -/
def Region.moveSpot (r : Region) (x : Spot) (p : Place) : Region := r.changeSpot x fun w => { w with place := p }

/-- Tokens of a context of a region in the vault spill area (R134, R137). -/
def Region.inVault (r : Region) (ctx : Nat) : Nat :=
  (r.storeSpots.filter fun x => decide (x.ctx = ctx) && decide (x.w.place = .vault)).length

/-- Spilling after an arrival (R134): where the set of the token holds more than eight tokens, the one with the greatest key goes to an
accumulator column, else to the vault spill area of its context, which a region outside any launch does not have (R329); where there is
no room, MATCH_OVERFLOW. Tokens can have equal keys, in contexts that agree modulo 32 or in successive nested streams of a port, and R134 does not say which of
them moves: the first in the order of the store's list, DESIGN CHOICE (log 157). -/
def spill (s : State) (rid : Nat) (r : Region) (slot ctx : Nat) (t : Token) : State :=
  let pe := (r.placeOf slot).1
  let set := storeSet t.lo (r.placeOf slot).2 ctx
  let here := r.storeSpots.filter fun x => r.inSet pe set x && decide (x.w.place = .store)
  if here.length ≤ 8 then s.setRegion rid r
  else
    match leastBy (fun x => 2 ^ 60 - x.key r) here with
    | none => s.setRegion rid r
    | some x =>
      match freeColumn s (r.lqAt slot) with
      | some p => s.setRegion rid (r.moveSpot x p)
      | none =>
        if r.launch.isSome ∧ r.inVault x.ctx < ((r.block?).map (·.mse)).getD 0 then s.setRegion rid (r.moveSpot x .vault)
        else (s.setRegion rid r).regionFault rid codeMatchOverflow ⟨slot, 0xFF, ctx, ⟨t.lo, t.hi⟩, [], 0, 0⟩

/-! ## Arrival -/

/-- Whether every used port of an instruction has the gap rule ONCE: its one firing is that of the context (R63, R68). -/
def allOnce (i : Instr) : Bool := (usedPorts i).all fun k => decide (gapRule i k = .once)

/-- The next stream of every used port (R68, R72). -/
def restart (i : Instr) (n : Node) : Node :=
  (usedPorts i).foldl (fun m k => m.setPort k ((m.port k).afresh (gapRule i k))) { n with done := if allOnce i then n.done else 0 }

/-- Whether an instruction takes tokens in its own way, keeping even those behind an END in one list (R146, R147, R150, R156). -/
def ownIntake : Instr → Bool
  | .merge f => decide (f.sub ≠ 0)
  | .omerge _ => true
  | .lcarry _ => true
  | .rangeExpand _ => true
  | .output _ => true
  | _ => false

/-- MERGE in arrival mode (R146). -/
def arrivalMode : Instr → Bool
  | .merge f => decide (f.sub = 1)
  | _ => false

/-- Intake of a token by an instruction that keeps a queue: the order check is made as for any port, a nested END starting it afresh (R61,
R72, R146). -/
def queueIn (x : PortState) (t : Token) : PortState := { (x.saw .refuse t) with waiting := x.waiting ++ [⟨t, .store⟩] }

/-- PERMISSION for a token of a freed context (R158). -/
def freedCtx (s : State) (r : Region) (ctx : Nat) : Bool :=
  match s.launchOfRegion r with
  | some l => l.freed.contains ctx && !l.drawn.contains ctx && !l.ctxs.contains ctx
  | none => r.freed.contains ctx && !r.drawn.contains ctx

/-- Whether an arrival is discarded at once (R65): every other used port holds END and no token of theirs covers it. -/
def uncovered (i : Instr) (n : Node) (k : Port) (t : Token) : Bool :=
  let others := (usedPorts i).filter (· ≠ k)
  !others.isEmpty && (others.all fun q => (n.port q).ended.isSome) && !usedBy (openSets i n) k ⟨t, .store⟩

/-- A token behind an END of its port waits in the store with those of its stream (R61, R72, R134). -/
def PortState.hind (x : PortState) (g : Gap) (t : Token) : PortState := { (x.saw g t) with behind := x.behind ++ [⟨t, .store⟩] }

/-- A port from which the tokens of its stream that nothing covers have been discarded at once (R65): a held token before them ends at the first (R62). -/
def PortState.shed (x : PortState) (used : Waiting → Bool) : PortState :=
  match (x.waiting.dropWhile used).head? with
  | none => x
  | some w => { x with waiting := x.waiting.filter used, cut := if x.waiting.any used then x.cut.orElse fun _ => some w.tok.lo else x.cut }

/-- The tokens that a nested stream starts with arrive while every other used port holds END: those that nothing covers are discarded at once (R65, R72). -/
def shed (i : Instr) (n : Node) : Node :=
  (usedPorts i).foldl (fun m k =>
    let others := (usedPorts i).filter (· ≠ k)
    if others.isEmpty || (m.port k).ended.isSome || others.any fun q => (m.port q).ended.isNone then m
    else m.setPort k ((m.port k).shed (usedBy (openSets i m) k))) n

/-- A token that has passed the checks joins its port (R65, R72). -/
def accept (i : Instr) (n : Node) (k : Port) (t : Token) : Node :=
  let x := n.port k
  if x.ended.isSome then n.setPort k (x.hind (gapRule i k) t)
  else
    let n1 := n.setPort k (x.join (gapRule i k) t)
    if t.kind ≠ .fin ∧ uncovered i n1 k t = true then
      sweep i (n1.setPort k { (n1.port k) with waiting := x.waiting, cut := if x.waiting.isEmpty then x.cut else x.cut.orElse fun _ => some t.lo })
    else sweep i n1

/-- A spilled token of a set returns before a new arrival where the set has a free way, the one of lowest key first (R135). `fuel` bounds the ways. -/
def returnFirst (pe set : Nat) : Nat → Region → Region
  | 0, r => r
  | fuel + 1, r =>
    let here := r.storeSpots.filter (r.inSet pe set)
    if 8 ≤ (here.filter fun x => decide (x.w.place = .store)).length then r
    else
      match leastBy (Spot.key r) (here.filter fun x => x.w.place.spilled) with
      | none => r
      | some x => returnFirst pe set fuel (r.moveSpot x .store)

/-- The operands of an OUTPUT leave in the order of their arrival, whatever their contexts (R142): the context of one more. -/
def Region.arrivedAt (r : Region) (i : Instr) (slot ctx : Nat) : Region :=
  match i with
  | .output _ => { r with outOrder := NatMap.set [] r.outOrder slot (NatMap.get [] r.outOrder slot ++ [ctx]) }
  | _ => r

/-- An OUTPUT has taken the operand of a context. -/
def Region.tookAt (r : Region) (slot ctx : Nat) : Region :=
  { r with outOrder := NatMap.set [] r.outOrder slot ((NatMap.get [] r.outOrder slot).erase ctx) }

/-- ARRIVAL of a token at a port (R61, R65): its context is checked (R158), its order is checked, it joins the waiting tokens, and used tokens
are discarded. A spilled token of its set returns first (R135). -/
def arrive (s : State) (rid slot : Nat) (k : Port) (t : Token) : State :=
  match s.region? rid with
  | none => s
  | some r =>
    let at' : FaultAt := ⟨slot, portCode k, t.ctx, ⟨t.lo, t.hi⟩, [(portCode k, t)], 0, 0⟩
    match r.instrAt slot with
    | none => s
    | some i =>
      let r := returnFirst (r.placeOf slot).1 (storeSet t.lo (r.placeOf slot).2 t.ctx) 8 r
      let n := r.node slot t.ctx
      let x := n.port k
      if freedCtx s r t.ctx then s.regionFault rid codePermission at'
      else
        match x.check t with
        | some c => s.regionFault rid c at'
        | none =>
          let n1 :=
            if ownIntake i then { (n.setPort k (queueIn x t)) with order := if arrivalMode i then n.order ++ [decide (k = .b)] else n.order }
            else accept i n k t
          spill s rid ((r.setNode slot t.ctx n1).arrivedAt i slot t.ctx) slot t.ctx t

/-! ## Firing -/

/-- The ports on which a poisoned token is consumed (R399): the address port of a memory instruction, the predicate port, the control of
STEER, LEXIT and SEL, port a of CTXFREE and SPAWN. -/
def consumePorts : Instr → List Port
  | .ld _ | .ldc _ | .st _ | .atom _ | .red _ | .acq _ | .pref _ | .ctxfree _ | .spawn _ => [.a, .p]
  | .steer _ | .lexit _ => [.b, .p]
  | .sel _ => [.c, .p]
  | _ => [.p]

/-- The operand of a firing on a port. -/
def Firing.on (f : Firing) : Port → Option Token
  | .a => f.a
  | .b => f.b
  | .c => f.c
  | .p => f.p

/-- Whether a firing consumes poison (R399). -/
def consumesPoison (i : Instr) (f : Firing) : Bool :=
  (consumePorts i).any fun k => match f.on k with
    | some t => t.poison
    | none => false

/-- Whether a firing makes its region unreplayable (R400). -/
def breaksReplay : Instr → Bool
  | .atom _ | .red _ | .publish _ | .ctxnew _ | .ctxfree _ | .spawn _ | .bartok _ => true
  | _ => false

/-- Count a transient dual-firing failure at the PE of a slot (R397, R398). -/
def countTransient (s : State) (r : Region) (slot : Nat) : State :=
  let pq := s.pqOf (r.lqAt slot)
  let p := s.pquadOf pq
  let pe := r.peBit slot % 9
  s.setPquad pq { p with peTransient := NatMap.set 0 p.peTransient pe (NatMap.get 0 p.peTransient pe + 1) }

/-- A node after the firing of a set: it is emitted, and tokens past their last firing are discarded (R63, R65). -/
def afterFiring (i : Instr) (n : Node) (set : CandSet) : Node := sweep i { n with done := set.lo + 1 }

/-- The END of a slot (R72): it goes to the targets in order; a nested END starts the next stream. -/
def emitEnd (i : Instr) (s : State) (rid slot ctx : Nat) (r : Region) (deliver : State → Nat → Nat → Token → State) : State :=
  let n := r.node slot ctx
  match endReady i n with
  | none => s
  | some (lo, none) => s.regionFault rid codeSpanOrder ⟨slot, 0xFF, ctx, ⟨lo, lo⟩, [], 0, 0⟩
  | some (lo, some level) =>
    let n1 := if level = 0 then (usedPorts i).foldl (fun m k => m.setPort k { (m.port k) with ended := none, waiting := [] }) { n with left := true }
      else sweep i (shed i (restart i n))
    deliver (s.setRegion rid (r.setNode slot ctx n1)) rid slot (endToken ctx lo level)

/-- Send a token of a region to both targets of a word. -/
def toBoth (f : Fab) (s : State) (rid : Nat) (t : Token) : State :=
  match s.region? rid with
  | none => s
  | some r => s.setRegion rid (r.sendBoth f t)

/-- Send a token to one target. -/
def toOne (x : Option Target) (s : State) (rid : Nat) (t : Token) : State :=
  match s.region? rid with
  | none => s
  | some r => s.setRegion rid (r.send x t)

/-- The entries of a slot's reorder window (R227). -/
def Region.window (r : Region) (slot : Nat) : List WindowEntry := NatMap.get [] r.windows slot

/-- Put a slot's reorder window. -/
def Region.setWindow (r : Region) (slot : Nat) (w : List WindowEntry) : Region := { r with windows := NatMap.set [] r.windows slot w }

/-- The access forms, whose results go through the reorder window (R227); PREF has none (R249). -/
def windowed : Instr → Bool
  | .ld _ | .ldc _ | .st _ | .atom _ | .red _ | .acq _ => true
  | _ => false

/-- The write pointer of a channel of the copy engine of a quad (R250). -/
def State.writePointer (s : State) (lq ch : Nat) : Nat :=
  let c := (s.quadOf lq).chan ch
  c.seq % 2 ^ 16 * 2 ^ 48 + c.bytes % 2 ^ 48

/-- The arrivals of BARTOK whose generation is not complete (R153). -/
def Node.unreleased (n : Node) : List Token := n.arrivals.drop (n.generation - n.count)

/-- What a firing waits for, or END (`none`), beyond its operands: room in the reorder window (R227); the write pointer of WAITWP (R250); a
barrier generation not too far ahead (R153); the release of held BRK firings, so that BRK
changes no result (R406; log 35). -/
def slotReady (i : Instr) (s : State) (r : Region) (slot ctx : Nat) (fr : Option Firing) : Bool :=
  if windowed i then decide ((r.window slot).length < 16)
  else
    match i, fr with
    | .waitwp f, some x =>
      decide (judge f.pm x ≠ .ordinary) ||
        (let v := x.a.map (·.lanes)
         let t := (v.map fun l => (l.get 1).toNat % 2 ^ 32 * 2 ^ 32 + (l.get 0).toNat % 2 ^ 32).getD 0
         decide (t ≤ s.writePointer (r.lqAt slot) (bits f.imm.toNat 2 0)))
    | .bartok _, some _ => decide ((r.node slot ctx).unreleased.length < 2)
    | .bartok _, none => (r.node slot ctx).arrivals.isEmpty
    | .brk _, none => (r.node slot ctx).held.isEmpty
    | .brk f, some x => (r.node slot ctx).held.isEmpty || decide (judge f.pm x = .ordinary) || decide (judge f.pm x = .consumed)
    | _, _ => true

/-- A firing of a slot in focus: the next set, checked (R396, R397), judged and acted on; where no set is left, END. `ty` gives the type of
each port; `judged` says how the firing is treated; `act` is the effect of an ordinary firing, `other` that of a null or fault firing;
`fin` delivers END. With no slot in focus, or nothing to do, nothing happens. -/
def fireWith (i : Instr) (ty : Port → LaneTy) (judged : Firing → Judged) (act : State → Nat → Nat → Nat → Firing → State)
    (other : State → Nat → Nat → Firing → Token → State) (fin : State → Nat → Nat → Token → State) (s : State) : Result :=
  match s.focus with
  | .slot rid slot ctx =>
    match s.region? rid with
    | none => .next s
    | some r =>
      if !r.live then .next s
      else
        let n := r.node slot ctx
        match nextSet i n with
        | none => if slotReady i s r slot ctx none then .next (emitEnd i s rid slot ctx r fin) else .next s
        | some set =>
          match set.span? with
          | none => .next s
          | some span =>
            let fr := set.firing i ty span
            let at' : FaultAt := ⟨slot, 0xFF, ctx, span, fr.images, 0, 0⟩
            if !slotReady i s r slot ctx (some fr) then .next s
            else if s.upset = .lasting then .next (s.containedFault rid codeCheck (some (s.pqOf (r.lqAt slot))) at')
            else if consumesPoison i fr then .next (s.containedFault rid codeUncorrectable none at')
            else
              let s := if s.upset = .transient then countTransient s r slot else s
              let r1 := r.setNode slot ctx (afterFiring i n set)
              let r1 := if breaksReplay i then { r1 with unreplayable := true } else r1
              match judged fr with
              | .consumed => .next (s.setRegion rid r1)
              | .fault => .next (other (s.setRegion rid r1) rid slot fr (fr.faultResult ctx))
              | .null => .next (other (s.setRegion rid r1) rid slot fr (fr.nullResult ctx))
              | .ordinary => .next (act (s.setRegion rid (r1.raise slot ctx fr.interpFlags)) rid slot ctx fr)
  | _ => .next s

/-- A firing whose null and fault results and END go to both targets (R71, R72). -/
def fire (i : Instr) (f : Fab) (ty : Port → LaneTy) (s : State) (act : State → Nat → Nat → Nat → Firing → State) : Result :=
  fireWith i ty (judge f.pm) act (fun s rid _ _ t => toBoth f s rid t) (fun s rid _ t => toBoth f s rid t) s

/-- The value of a firing: lanes, flags, and the predicate value where the entry sets one. -/
structure Computed where
  lanes : Lanes
  flags : ExFlags
  pred : Pred
deriving DecidableEq, Repr

/-- A value with no flag and no predicate. -/
def Computed.plain (v : Lanes) : Computed := ⟨v, .none, .none⟩

/-- The lanes of the operand of a port. -/
def Firing.lanesOf (f : Firing) (k : Port) : Lanes := ((f.on k).map (·.lanes)).getD .zero

/-- A firing that computes a DATA token (R64). `ty` gives the type of each port. -/
def computeFire (i : Instr) (f : Fab) (ty : Port → LaneTy) (s : State) (val : Nat → Firing → Computed) : Result :=
  fire i f ty s fun s rid slot ctx fr =>
    let v := val ctx fr
    let s1 := match s.region? rid with
      | some r => s.setRegion rid (r.raise slot ctx v.flags)
      | none => s
    toBoth f s1 rid (fr.result ctx .data v.pred v.lanes)

end Sys2Proof.Machine
end

