-- ==== Sys2Proof/Machine/MemOps.lean ====
section
/-! DEFINITION. Memory instructions in the PE (spec 09 R226, R227, R232 to R251): a firing makes a request to its entry MT, or a result that
takes its place in the reorder window. What the MTs do stands in MemTile.lean. -/

namespace Sys2Proof.Machine

/-- The entry MT of a PE (R226). -/
def entryMt (pe : Nat) : Nat :=
  if pe = 0 ∨ pe = 2 then 0 else if pe = 1 ∨ pe = 3 then 1 else if pe = 4 ∨ pe = 7 then 2 else 3

/-- The entry MT of a slot (R226). -/
def Region.mtAt (r : Region) (slot : Nat) : Nat := entryMt (r.peBit slot % 9)

/-- A target of a word as a destination. -/
def destOf (rid : Nat) (t : Option Target) : List Dest :=
  match t with
  | none => []
  | some x => [⟨rid, x.slot.toNat, x.port⟩]

/-- The targets of a word as destinations. -/
def destsOf (rid : Nat) (f : Fab) : List Dest := destOf rid f.t0 ++ destOf rid f.t1

/-- Deliver a token to destinations, in order. -/
def State.deliver (s : State) (ds : List Dest) (t : Token) : State :=
  ds.foldl (fun s d => match s.region? d.region with
    | some r => s.setRegion d.region { r with flight := r.flight ++ [⟨d.slot, d.port, t⟩] }
    | none => s) s

/-- The tokens that the router of a PE, by its index in the region, holds (R426). -/
def Region.routed (r : Region) (pe : Nat) : Nat := (r.flight.filter fun x => decide ((r.placeOf x.slot).1 = pe)).length

/-- Whether the routers of some destinations take a token for each: a router holds 8 (R426). -/
def routersTake (s : State) (ds : List Dest) : Bool :=
  ds.all fun d => match s.region? d.region with
    | some r =>
      let pe := (r.placeOf d.slot).1
      decide (r.routed pe + (ds.filter fun x => decide (x.region = d.region) && decide ((r.placeOf x.slot).1 = pe)).length ≤ 8)
    | none => true

/-- The region of an instance of a stage of a launch (R235); outside any launch a region is stage 0, instance 0 of itself (09 R235, 11 R329). -/
def instanceRegion (s : State) (rid : Nat) (r : Region) (stage inst : Nat) : Option Nat :=
  match r.role with
  | none => if stage = 0 ∧ inst = 0 then some rid else none
  | some x =>
    match s.launch? x.launch with
    | none => none
    | some l => match l.stages[stage]? with
      | none => none
      | some g => g.insts[inst]?

/-- The third-party target that lanes 6 and 7 of an address token name, where it is one (R235). -/
def thirdParty (s : State) (rid : Nat) (r : Region) (v : Lanes) : Option Dest :=
  let a := (v.get 6).toNat
  let b := (v.get 7).toNat
  if bits a 35 26 ≠ 0 ∨ bits a 15 9 ≠ 0 ∨ b / 8 ≠ 0 then none
  else
    match instanceRegion s rid r (bits a 25 16) (b % 8) with
    | none => none
    | some d =>
      match s.region? d with
      | none => none
      | some q =>
        match q.instrAt (bits a 8 2) with
        | none => none
        | some i => if portUsed i (portOfNat (bits a 1 0)) then some ⟨d, bits a 8 2, portOfNat (bits a 1 0)⟩ else none

/-- Raise the fault a FAULT token carries as a region fault (R71, R142, R251). -/
def raiseToken (s : State) (rid slot port : Nat) (t : Token) : State :=
  s.regionFault rid ((t.lanes.get 0).toNat % 256) ⟨slot, port, t.ctx, ⟨t.lo, t.hi⟩, [(port, t)], (t.lanes.get 2).toNat % 2 ^ 25 * 2 ^ 32 + (t.lanes.get 1).toNat % 2 ^ 32, 0⟩

/-- A result that needs no request takes its place in the window (R227). -/
def pushReady (s : State) (rid slot : Nat) (t : Token) (ds : List Dest) : State :=
  match s.region? rid with
  | none => s
  | some r => s.setRegion rid (r.setWindow slot (r.window slot ++ [.ready (some t) ds t.ctx false .none none]))

/-- The null or fault result of an access (R235, R236): through the window to its targets; with XR to the target that a DATA address token
names; a FAULT with no target is a region fault. -/
def accessOther (f : Fab) (s : State) (rid slot : Nat) (fr : Firing) (t : Token) : State :=
  match s.region? rid with
  | none => s
  | some r =>
    let isData := (fr.a.map fun x => decide (x.kind = .data)).getD false
    if f.xr && isData then
      match thirdParty s rid r (fr.lanesOf .a) with
      | none => s.regionFault rid codePermission ⟨slot, 0xFF, t.ctx, fr.span, fr.images, laneAddr (fr.lanesOf .a) 0, 0⟩
      | some d => pushReady s rid slot t [d]
    else
      let ds := if f.xr then [] else destsOf rid f
      if t.kind = .fault ∧ ds = [] then raiseToken s rid slot 0xFF t else pushReady s rid slot t ds

/-- The END of an access slot follows its results through the window (R72, R227). -/
def accessEnd (f : Fab) (s : State) (rid slot : Nat) (t : Token) : State := pushReady s rid slot t (destsOf rid f)

/-- Whether a replayed store has been performed before the rollback: its span is at or below the mark of its slot, or it was performed while its
acknowledgement had still to be released (R400, R401). -/
def replayedStore (r : Region) (slot ctx : Nat) (span : Span) : Bool :=
  !r.replaying.isEmpty && (r.performed.contains (slot, ctx, span) ||
  match NatMap.find? r.ackMarks slot with
  | some m => decide (span.hi ≤ m.hi)
  | none => false)

/-- The acknowledgement of a write (R236, R241). -/
def ackToken (q : Request) : Token :=
  { ctx := q.ctx, lo := q.span.lo, hi := q.span.hi, kind := .order, interp := q.interp, level := q.level, pred := .none
    poison := q.poison || q.dataPoison, taint := q.taint, lanes := .zero }

/-- The request of an ordinary firing (R226, R235). -/
def requestOf (s : State) (rid slot ctx : Nat) (r : Region) (f : Fab) (op : MemOp) (fr : Firing) (ds : List Dest) : Request :=
  { id := s.nextId, region := rid, slot := slot, lq := r.lqAt slot, mt := r.mtAt slot, part := r.part, ctx := ctx, span := fr.span, op := op
    addr := laneAddr (fr.lanesOf .a) 0, fmt := f.fmt, ty := f.ty, lmask := f.lmask, group := ((fr.lanesOf .a).get 2).toNat % 4
    rm := f.sub.toNat, data := fr.lanesOf .b, dests := ds, taint := fr.operands.any (·.taint), poison := fr.operands.any (·.poison)
    dataPoison := ((fr.b).map (·.poison)).getD false, level := ((fr.a).map (·.level)).getD 0, interp := fr.weighted
    stage := (r.role.map (·.stage)).getD 0 }

/-- An ordinary firing of an access: its target is checked, a store already performed before a rollback is acknowledged again, otherwise the
request goes to the entry MT and takes a place in the window (R226, R227, R235, R401). -/
def accessAct (f : Fab) (op : MemOp) (s : State) (rid slot ctx : Nat) (fr : Firing) : State :=
  match s.region? rid with
  | none => s
  | some r =>
    let target : Option (List Dest) := if f.xr then (thirdParty s rid r (fr.lanesOf .a)).map fun d => [d] else some (destsOf rid f)
    match target with
    | none => s.regionFault rid codePermission ⟨slot, 0xFF, ctx, fr.span, fr.images, laneAddr (fr.lanesOf .a) 0, 0⟩
    | some ds =>
      let q := requestOf s rid slot ctx r f op fr ds
      if op.isWrite && replayedStore r slot ctx fr.span then
        s.setRegion rid (r.setWindow slot (r.window slot ++ [.ready (some (ackToken q)) ds ctx false .none (some fr.span)]))
      else
        let r1 := if op = .prefetch then r else r.setWindow slot (r.window slot ++ [.out q.id ctx false])
        let s1 := s.setRegion rid r1
        { s1 with nextId := s.nextId + 1, pending := s.pending ++ [⟨q, .input⟩] }

/-- An access form. -/
def accessFire (i : Instr) (f : Fab) (op : MemOp) (s : State) : Result :=
  fireWith i (fun _ => f.ty) (judge f.pm) (accessAct f op) (accessOther f) (accessEnd f) s

/-- LD (R240). -/
def execLd (f : Fab) (s : State) : Result := accessFire (.ld f) f .load s
/-- LDC (R240): the consume of R214. -/
def execLdc (f : Fab) (s : State) : Result := accessFire (.ldc f) f .consume s
/-- ST (R241). -/
def execSt (f : Fab) (s : State) : Result := accessFire (.st f) f .store s
/-- ATOM.op (R243). -/
def execAtom (f : Fab) (s : State) : Result := accessFire (.atom f) f (.atomic f.sub.toNat) s
/-- RED.op (R245). -/
def execRed (f : Fab) (s : State) : Result := accessFire (.red f) f (.reduce f.sub.toNat) s
/-- ACQ.scope (R247): a read at home that acts as an acquire. -/
def execAcq (f : Fab) (s : State) : Result := accessFire (.acq f) f (.acquire f.sub.toNat) s
/-- PREF (R249): no result; null and fault firings have none either, and END goes no further. -/
def execPref (f : Fab) (s : State) : Result :=
  fireWith (.pref f) (fun _ => f.ty) (judge f.pm) (accessAct f .prefetch) (fun s _ _ _ _ => s) (fun s _ _ _ => s) s

/-- ORD (R239): any token becomes an ORDER token; port b is read as its type, .b32. -/
def execOrd (f : Fab) (s : State) : Result :=
  fire (.ord f) f (fun _ => .b32) s fun s rid _ ctx fr => toBoth f s rid (fr.result ctx .order .none .zero)

/-- FENCE.scope (R212, R247): the accesses that its token derives from have been performed when it fires, since their results were; it forwards
an ORDER token (log 3). -/
def execFence (f : Fab) (s : State) : Result :=
  fire (.fence f) f (fun _ => .b32) s fun s rid _ ctx fr => toBoth f s rid (fr.result ctx .order .none .zero)

/-- The exchange of a publish entry (R217): FRONT and SHADOW change places and GEN rises by 1, in one step. -/
def PubEntry.exchange (e : PubEntry) : PubEntry :=
  { e with
    w1 := BitVec.ofNat 64 ((bits e.w1.toNat 63 32 + 1) % 2 ^ 32 * 2 ^ 32 + e.w1.toNat % 2 ^ 32)
    w2 := e.w3
    w3 := e.w2 }

/-- Exchange entry `n` of a partition. -/
def State.publish (s : State) (p n : Nat) : State :=
  let x := s.partOf p
  s.setPart p { x with pub := NatMap.set .init x.pub n (NatMap.get .init x.pub n).exchange }

/-- Whether entry `n` of a partition is valid (R215). -/
def State.pubValid (s : State) (p n : Nat) : Bool := bit (NatMap.get .init (s.partOf p).pub n).w0.toNat 0

/-- A publication by a context: at once, or at its merge in deterministic operation (R217, R220, R248). -/
def State.publishFor (s : State) (ctx p n : Nat) : State :=
  match detLaunchOf s ctx with
  | none => s.publish p n
  | some (k, l) =>
    let i := l.ctxs.idxOf ctx
    let v := NatMap.get .init l.views i
    s.setLaunch k { l with views := NatMap.insert l.views i { v with pubs := v.pubs ++ [n] } }

/-- A FAULT token of an access (R200). -/
def faultToken (ctx : Nat) (span : Span) (code va access level : Nat) (base : Token) : Token :=
  { base with
    ctx := ctx, lo := span.lo, hi := span.hi, kind := .fault, pred := .none
    lanes := ⟨BitVec.ofNat 36 code, BitVec.ofNat 36 (va % 2 ^ 32), BitVec.ofNat 36 (va / 2 ^ 32 % 2 ^ 25), BitVec.ofNat 36 (access + 16 * level), 0, 0, 0, 0⟩ }

/-- Whether a region's block raises translation faults as region faults (R86). -/
def Region.tfr (r : Region) : Bool := ((r.block?).map (·.tfr)).getD false

/-- A fault of an instruction delivered as TFR chooses, or as a region fault where there is no target (R200, R251). -/
def faultBy (f : Fab) (s : State) (rid slot ctx code va access level : Nat) (fr : Firing) : State :=
  match s.region? rid with
  | none => s
  | some r =>
    if r.tfr || f.t0.isNone then s.regionFault rid code ⟨slot, 0xFF, ctx, fr.span, fr.images, va, access + 16 * level⟩
    else toBoth f s rid (faultToken ctx fr.span code va access level (fr.result ctx .fault .none .zero))

/-- PUBLISH (R217, R248): an entry that is not valid gives a FAULT token with access code 6, or a region fault where no target is set. -/
def execPublish (f : Fab) (s : State) : Result :=
  fireWith (.publish f) (fun _ => .b32) (judge f.pm)
    (fun s rid slot ctx fr =>
      match s.region? rid with
      | none => s
      | some r =>
        let n := bits f.imm.toNat 5 0
        if s.pubValid r.part n then toBoth f (s.publishFor ctx r.part n) rid (fr.result ctx .order .none .zero)
        else faultBy f s rid slot ctx codePermission (laneAddr (fr.lanesOf .a) 0) 6 7 fr)
    (fun s rid slot _ t => if t.kind = .fault ∧ f.t0.isNone then raiseToken s rid slot 0xFF t else toBoth f s rid t)
    (fun s rid _ t => toBoth f s rid t) s

/-- WPTR (R250): the write pointer of a channel of the quad's copy engine. -/
def execWptr (f : Fab) (s : State) : Result :=
  fire (.wptr f) f (fun _ => .b32) s fun s rid slot ctx fr =>
    match s.region? rid with
    | none => s
    | some r =>
      let p := s.writePointer (r.lqAt slot) (bits f.imm.toNat 2 0)
      toBoth f s rid (fr.result ctx .data .none ⟨BitVec.ofNat 36 (p % 2 ^ 32), BitVec.ofNat 36 (p / 2 ^ 32), 0, 0, 0, 0, 0, 0⟩)

/-- A token of port a forwarded with span I (R139): its kind, payload and predicate value, the other flags by R64. -/
def Firing.forward (fr : Firing) (ctx : Nat) (t : Token) : Token := fr.result ctx t.kind t.pred t.lanes

/-- WAITWP (R250): waits for the pointer (slotReady), then forwards a's token with span I. -/
def execWaitwp (f : Fab) (s : State) : Result :=
  fire (.waitwp f) f (fun _ => .b32) s fun s rid _ ctx fr =>
    match fr.a with
    | some t => toBoth f s rid (fr.forward ctx t)
    | none => s

end Sys2Proof.Machine
end

