-- ==== Sys2Proof/Machine/MemTile.lean ====
section
/-! DEFINITION. Memory tiles (spec 08 R201 to R209, R229; 09 R226 to R231, R240 to R246, R251): the acceptance of a request, page walks, the
parts of an access at the homes of their bytes, the read-modify-write pipeline, the reorder windows. -/

namespace Sys2Proof.Machine

/-! ## Requests and windows -/

/-- The format of a request. -/
def Request.format (q : Request) : StFmt := (StFmt.ofCode q.fmt).getD .i32

/-- The offsets of the bytes a request covers: those of its selected elements; the whole block for a b4 store (R229, R233, R242). -/
def Request.offs (q : Request) : List Nat :=
  match q.op, q.format with
  | .store, .b4 _ => List.range 17
  | _, f => (((maskElems q.lmask).flatMap (elemOffs f q.group)).foldr (fun o acc => insertBy (fun x => x) o acc) []).eraseDups

/-- What a request asks of translation. -/
def Request.want (q : Request) : Want :=
  match q.op with
  | .store => .write
  | .atomic _ => .atm
  | .reduce _ => .atm
  | _ => .read

/-- The access of a request (R442). -/
def Request.access (q : Request) : Access := ⟨q.part, q.lq, q.ctx, masterQuad q.lq, q.want, .plain, 0⟩

/-- Replace the window entry of a request, where it is still out. -/
def setEntry (id : Nat) (e : WindowEntry) : List WindowEntry → List WindowEntry
  | [] => []
  | w :: ws => match w with
    | .out i _ _ => if i = id then e :: ws else w :: setEntry id e ws
    | _ => w :: setEntry id e ws

/-- The handle of the region that a request came from, which for one of a saved launch stands beside the number of its image (R419). -/
def Request.home (q : Request) : Nat := q.region % 2 ^ 64

/-- The image that is owed the reply of a request (R419). -/
def State.lateImage? (s : State) (id : Nat) : Option (Nat × Image) := List.find? (fun e => e.2.late.contains id) s.images

/-- A result in the window of its slot. -/
def Region.readyEntry (r : Region) (q : Request) (t : Option Token) (flags : ExFlags) (ack : Option Span) : Region :=
  r.setWindow q.slot (setEntry q.id (.ready t q.dests q.ctx q.op.isWrite flags ack) (r.window q.slot))

/-- The result of a request of a launch that is being saved (R419): it enters the window of the saved region; before the readout of its quad
ends it is no late reply. -/
def Image.readyEntry (im : Image) (q : Request) (t : Option Token) (flags : ExFlags) (ack : Option Span) : Image :=
  match NatMap.find? im.regions q.home with
  | none => im
  | some r => { im with
      regions := NatMap.insert im.regions q.home (r.readyEntry q t flags ack)
      late := if im.reading.contains q.lq then im.late.filter (· ≠ q.id) else im.late }

/-- The result of a request stands ready in its slot's window (R227). -/
def State.ready (s : State) (q : Request) (t : Option Token) (flags : ExFlags) (ack : Option Span) : State :=
  match s.lateImage? q.id with
  | some (k, im) => { s with images := NatMap.insert s.images k (im.readyEntry q t flags ack) }
  | none =>
    match s.region? q.region with
    | none => s
    | some r => s.setRegion q.region (r.readyEntry q t flags ack)

/-- The region of a request, in place or in the image that is owed its reply. -/
def State.regionOf (s : State) (q : Request) : Option Region :=
  match s.lateImage? q.id with
  | some (_, im) => NatMap.find? im.regions q.home
  | none => s.region? q.region

/-- A region fault of a request: of a saved region, its record ends the launch as any other (R392, R430). -/
def requestFault (s : State) (q : Request) (r : Region) (code : Nat) (a : FaultAt) : State :=
  match s.lateImage? q.id with
  | some _ => s.addRecord { regionRecord s r code 8 a with ends := r.launch }
  | none => s.regionFault q.region code a

/-- A request leaves its MT. -/
def State.dropRequest (s : State) (id : Nat) : State :=
  { s with pending := s.pending.filter (fun p => p.req.id ≠ id), homes := s.homes.filter (fun p => p.req ≠ id) }

/-- Change how far a request has come. -/
def State.setPending (s : State) (id : Nat) (st : ReqState) : State :=
  { s with pending := mapWhere (fun p => decide (p.req.id = id)) (fun p => { p with st := st }) s.pending }

/-- The requests that end with a request: itself, and the groups of the b4 block it writes (R242). -/
def State.partners (s : State) (id : Nat) : List Request :=
  (s.pending.filter fun p => decide (p.req.id = id) || decide (p.st = .joined id)).map (·.req)

/-- A fault of a request (R200, R251): a FAULT token in place of its result, or a region fault, by TFR or for want of a target; a prefetch is
dropped (R249). `forced` faults are region faults whatever TFR says. The record of another holds in ARG1 what lane 3 of the token would (log 134). -/
def faultRequest (s : State) (q : Request) (code va level : Nat) (forced : Bool) : State :=
  let s1 := s.dropRequest q.id
  if q.op = .prefetch then s1
  else
    match s.regionOf q with
    | none => s1
    | some r =>
      if forced || r.tfr || q.dests.isEmpty then
        (requestFault s1 q r code ⟨q.slot, 0xFF, q.ctx, q.span, [], va, if forced then 0 else q.op.code + 16 * level⟩).ready q none .none none
      else
        let base : Token := { ctx := q.ctx, lo := q.span.lo, hi := q.span.hi, kind := .fault, interp := q.interp, level := q.level, pred := .none
                              poison := q.poison, taint := q.taint, lanes := .zero }
        s1.ready q (some (faultToken q.ctx q.span code va q.op.code level base)) .none none

/-- A fault of a request and of the groups of the block it writes. -/
def faultAll (s : State) (id code va level : Nat) (forced : Bool) : State :=
  (s.partners id).foldl (fun s q => faultRequest s q code va level forced) s

/-- Flags raised at an MT for a context and a partition (R246). -/
def edgeFlags (s : State) (lq mt ctx part : Nat) (f : ExFlags) : State :=
  if f = .none then s
  else
    let pq := s.pqOf lq
    let p := s.pquadOf pq
    let a := 16 * mt + part
    let b := 4096 * mt + ctx
    s.setPquad pq { p with
      mtFlags := NatMap.set .none p.mtFlags a (ExFlags.or (NatMap.get .none p.mtFlags a) f)
      mtCtxFlags := NatMap.set .none p.mtCtxFlags b (ExFlags.or (NatMap.get .none p.mtCtxFlags b) f) }

/-- The granules of an access (R229): offset and length of each run of its bytes that lies in one 64-byte granule. -/
def granuleRuns (addr : Nat) (offs : List Nat) : List (Nat × Nat) :=
  (((offs.map fun o => (addr + o) / 64).eraseDups).filterMap fun g =>
    match offs.filter fun o => (addr + o) / 64 = g with
    | [] => none
    | o :: os => some (o, (os.foldl max o) + 1 - o))

/-- The parts of an access by translation (R199, R229): physical address, offset and length of each. -/
inductive Cut where
  | ok (parts : List (Nat × Nat × Nat))
  | hold (vpn : Nat)
  | fault (code level va : Nat)
deriving DecidableEq, Repr

/-- Translate the granules of an access one by one. -/
def cutRuns (s : State) (a : Access) (addr : Nat) : List (Nat × Nat) → Cut
  | [] => .ok []
  | (o, n) :: rs =>
    let va := (addr + o) % 2 ^ 57
    match translate s a va with
    | .fault c l => .fault c l va
    | .hold v => .hold v
    | .ok pa _ =>
      match cutRuns s a addr rs with
      | .ok ps => .ok ((pa, o, n) :: ps)
      | x => x

/-- The 64 KiB pages an access touches. -/
def pagesOf (addr : Nat) (offs : List Nat) : List Nat := ((offs.map fun o => (addr + o) % 2 ^ 57 / 2 ^ 16)).eraseDups

/-! ## Acceptance -/

/-- The first part of an access that lies in the host window, by its offset (R191, R238): a page of MTYPE HOST takes no atomics. -/
def hostPart (s : State) (ps : List (Nat × Nat × Nat)) : Option Nat := (ps.find? fun p => rangeOf s p.1 = .host).map (·.2.1)

/-- TYPE of a request to a peer (R452). -/
def peerType : MemOp → Nat
  | .store => 1
  | .atomic _ => 2
  | .reduce _ => 3
  | _ => 0

/-- The op code of a request to a peer (R234, R452), with bit 3 set for the n32 type (log 31). -/
def peerOp (ty : LaneTy) : MemOp → Nat
  | .atomic n => n % 8 + 8 * b2n (decide (ty = .n32))
  | .reduce n => n % 8 + 8 * b2n (decide (ty = .n32))
  | _ => 0

/-- The elements of an access that lie in one part of it, as its mask (log 31). -/
def partMask (f : StFmt) (mask off len : Nat) : Nat :=
  (maskElems mask).foldl (fun m e => if (elemOffs f 0 e).all fun o => decide (off ≤ o) && decide (o < off + len) then m + 2 ^ e else m) 0

/-- The operand lanes of an atomic as the data of a flit: eight bytes a lane (log 31). -/
def laneBytes (v : Lanes) : List Byte := v.toList.foldr (fun x acc => toBytes 8 x.toNat ++ acc) []

/-- The lanes of the data of a flit (log 31). -/
def bytesLanes (bs : List Byte) : Lanes := Lanes.ofFn fun i => BitVec.ofNat 36 (ofBytes ((bs.drop (8 * i)).take 8))

/-- The byte writes of a store request, with its flags (R241, R242). -/
def requestWrites (s : State) (q : Request) : List ByteWrite × ExFlags :=
  match q.format with
  | .b4 t =>
    let r := b4Block t ((s.partners q.id).map fun x => ⟨x.group, x.rm, x.ctx, x.span.lo, x.data⟩)
    ((List.range 17).map fun i => ⟨i, 255, r.1.getD i 0⟩, r.2)
  | f => storeWrites f q.ty q.rm q.ctx q.span.lo q.lmask q.data

/-- The bytes a store puts into a part whose bytes are given. -/
def partBytes (ws : List ByteWrite) (off : Nat) (old : List Byte) : List Byte :=
  (List.range old.length).map fun i =>
    (ws.filter fun w => w.off = off + i).foldl (fun b w => w.apply b) (old.getD i 0)

/-- The bytes of a part that writes touch, by their place in the part, with their new values (R241, R243): a byte between selected elements is not
written. -/
def writtenBytes (ws : List ByteWrite) (off : Nat) (old : List Byte) : List (Nat × Byte) :=
  (List.range old.length).filterMap fun i =>
    match ws.filter fun w => w.off = off + i with
    | [] => none
    | us => some (i, us.foldl (fun b w => w.apply b) (old.getD i 0))

/-- Send one part of a request home: it waits there to be performed, or leaves the device for a peer (R226, R453). There a read and a b4 store
name plain bytes, mask 0; any other request names its format, the elements of the part, and eight bytes an operand lane; poisoned data
have op 0xE (logs 31, 52). -/
def sendPart (s : State) (q : Request) (p : Nat × Nat × Nat) : State :=
  let part : Part := ⟨s.nextId, q.id, p.1, p.2.1, p.2.2⟩
  let s1 := { s with nextId := s.nextId + 1, homes := s.homes ++ [part] }
  if rangeOf s p.1 = .peer then
    let poison := (s.partners q.id).any (·.dataPoison)
    let op := if q.op = .store ∧ poison then opPoison else peerOp q.ty q.op
    let typed := fun bs => s1.sendPeer q.part p.1 p.2.1 (peerType q.op) op q.fmt (partMask q.format q.lmask p.2.1 p.2.2) bs part
    match q.op, q.format with
    | .store, .b4 _ => s1.sendPeer q.part p.1 0 1 op 0 0 (partBytes (requestWrites s q).1 p.2.1 (List.replicate p.2.2 0)) part
    | .store, _ => typed (partBytes (requestWrites s q).1 p.2.1 (List.replicate p.2.2 0))
    | .atomic _, _ => typed (laneBytes q.data)
    | .reduce _, _ => typed (laneBytes q.data)
    | _, _ => s1.sendPeer q.part p.1 0 0 0 0 0 (toBytes 1 p.2.2) part
  else s1

/-- The plain loads of RED wait in a deterministic task for the merge (R219, R245); its acknowledgement is ready at once. -/
def queueRed (s : State) (q : Request) (ps : List (Nat × Nat × Nat)) : State :=
  match detLaunchOf s q.ctx with
  | none => s
  | some (n, l) =>
    let i := l.ctxs.idxOf q.ctx
    let v := NatMap.get .init l.views i
    let reds := insertBy (fun x : QueuedRed => (x.req.span.lo * 2 ^ 16 + x.stage) * 128 + x.req.slot) ⟨q.stage, q, ps⟩ v.reds
    ((s.setLaunch n { l with views := NatMap.insert l.views i { v with reds := reds } }).dropRequest q.id).ready q (some (ackToken q)) .none (some q.span)

/-- Whether an earlier ATOM or RED of the same slot is still on its way to its home: the updates of a slot leave in firing order (R227, R231). -/
def behindSlot (s : State) (q : Request) : Bool :=
  s.pending.any fun y => decide (y.req.id < q.id) && decide (y.req.region = q.region) && decide (y.req.slot = q.slot) && decide (y.req.want = .atm) &&
    (match y.st with
      | .homes _ _ _ => false
      | _ => true)

/-- The parts of a write that one peer holds next to each other go to it as one request: it performs all of it or nothing (R251). -/
def joinPeer (s : State) (w : Want) : List (Nat × Nat × Nat) → List (Nat × Nat × Nat)
  | a :: b :: ps =>
    if w ≠ .read ∧ rangeOf s a.1 = .peer ∧ b.1 = a.1 + (b.2.1 - a.2.1) then (a.1, a.2.1, b.2.1 + b.2.2 - a.2.1) :: ps else a :: joinPeer s w (b :: ps)
  | ps => ps

/-- A translated request goes to the homes of its bytes, an ATOM or RED behind the earlier ones of its slot. -/
def forwardRequest (s : State) (q : Request) (ps : List (Nat × Nat × Nat)) : State :=
  if q.op = .prefetch then s.dropRequest q.id
  else
    match q.op, (detLaunchOf s q.ctx).isSome with
    | .reduce _, true => queueRed s q ps
    | _, _ =>
      if q.want = .atm ∧ behindSlot s q then s.setPending q.id .retry
      else
        let ps := joinPeer s q.want ps
        let s1 := s.setPending q.id (.homes ps.length [] false)
        ps.foldl (fun s p => sendPart s q p) s1

/-- The first-level translation of a physical quad for a page (R201). -/
def firstLevel (s : State) (pq part vpn : Nat) : Option TlbEntry := (s.pquadOf pq).tlb.find? (·.covers part (vpn * 2 ^ 16))

/-- The second-level translation of the gallery of a physical quad for a page (R201). -/
def secondLevel (s : State) (pq part vpn : Nat) : Option TlbEntry := (NatMap.get [] s.tlb2 (pq / 16)).find? (·.covers part (vpn * 2 ^ 16))

/-- The entry on which a miss for a page waits (R201): one for the same 64 KiB page, or one whose walk is outstanding and may return a page that covers
both. -/
def walkShared (s : State) (pq part vpn : Nat) : Option MissEntry :=
  let ms := (s.pquadOf pq).misses
  match ms.find? fun m => decide (m.part = part) && decide (m.vpn = vpn) with
  | some m => some m
  | none => ms.find? fun m => decide (m.part = part) && decide (m.vpn / 32 = vpn / 32) && (secondLevel s pq part m.vpn).isNone

/-- The miss-status entries of a physical quad that are taken (R201, R203): those of its walks, and one for each held page that an access waits on. -/
def missTaken (s : State) (pq : Nat) : Nat :=
  let held := s.pending.filterMap fun p => match p.st with
    | .hold v => if s.pqOf p.req.lq = pq then some (p.req.part, v) else none
    | _ => none
  (s.pquadOf pq).misses.length + (held ++ (s.pquadOf pq).held).eraseDups.length

/-- A request misses the first level for a page (R201): it waits on a walk under way, takes an entry of its own, or waits while
all 64 entries are taken. -/
def missRequest (s : State) (q : Request) (vpn : Nat) : State :=
  let pq := s.pqOf q.lq
  let p := s.pquadOf pq
  match walkShared s pq q.part vpn with
  | some m => s.setPending q.id (.miss m.key)
  | none =>
    if 64 ≤ missTaken s pq then s.setPending q.id .retry
    else
      let s1 : State := { s with nextId := s.nextId + 1 }
      (s1.setPquad pq { p with misses := p.misses ++ [⟨p.missNext, q.part, vpn, s.nextId⟩], missNext := p.missNext + 1 }).setPending q.id (.miss p.missNext)

/-- Translate a request and send it on (R199, R203, R229, R251). A page in `walked` has just been walked: what the walk says stands. -/
def proceed (s : State) (q : Request) (walked : List Nat) : State :=
  let miss := (pagesOf q.addr q.offs).find? fun v => (firstLevel s (s.pqOf q.lq) q.part v).isNone && !walked.contains v
  match miss with
  | some v => missRequest s q v
  | none =>
    match cutRuns s q.access q.addr (granuleRuns q.addr q.offs) with
    | .hold v => if q.op = .prefetch then s.dropRequest q.id else s.setPending q.id (.hold v)
    | .fault c l va => faultAll s q.id c va l false
    | .ok ps =>
      match (if q.want = .atm then hostPart s ps else none) with
      | some o => faultAll s q.id codePermission ((q.addr + o) % 2 ^ 57) 7 false
      | none => forwardRequest s q ps

/-- The contexts whose writes an MT counts (R228). -/
def countedCtxs (s : State) (lq mt : Nat) : List Nat :=
  ((s.regions ++ s.images.flatMap fun e => e.2.regions).flatMap fun e => e.2.windows.flatMap fun w =>
    if e.2.lqAt w.1 = lq ∧ e.2.mtAt w.1 = mt then
      w.2.filterMap fun x => match x with
        | .out _ c true => some c
        | .ready _ _ c true _ _ => some c
        | _ => none
    else []).eraseDups

/-- Whether an MT can count a write of a context (R228). -/
def canCount (s : State) (q : Request) : Bool :=
  !q.op.isWrite || (let cs := countedCtxs s q.lq q.mt; cs.contains q.ctx || decide (cs.length < 64))

/-- Count an accepted write (R228). -/
def countRequest (s : State) (q : Request) : State :=
  match s.region? q.region with
  | none => s
  | some r => s.setRegion q.region (r.setWindow q.slot (setEntry q.id (.out q.id q.ctx q.op.isWrite) (r.window q.slot)))

/-- ATOMIC_TYPE (R391). -/
def codeAtomicType : Nat := 0x18

/-- The combination of an ATOM or RED (R238). -/
def typeOk (q : Request) : Bool :=
  match q.op with
  | .atomic op => atomSupported op q.format q.ty
  | .reduce op => atomSupported op q.format q.ty
  | _ => true

/-- A group of a b4 block joins its assembly entry; the fourth writes the block (R242). -/
def assemble (s : State) (q : Request) : State :=
  let open' := s.pending.filter fun p =>
    decide (p.st = .assembling) && decide (p.req.lq = q.lq) && decide (p.req.mt = q.mt) && decide (p.req.ctx = q.ctx) && decide (p.req.addr = q.addr)
  if open'.any fun p => decide (p.req.group = q.group) || decide (p.req.fmt ≠ q.fmt) then faultRequest s q codeAlignment q.addr 7 false
  else if open'.length = 3 then
    let s1 := { s with
      pending := mapWhere (fun p => open'.any fun o => decide (o.req.id = p.req.id)) (fun p => { p with st := .joined q.id }) s.pending }
    proceed s1 q []
  else s.setPending q.id .assembling

/-- Whether a b4 group finds an assembly entry, of which an MT has 8 (R242). -/
def canAssemble (s : State) (q : Request) : Bool :=
  let mine := (s.pending.filter fun p => decide (p.st = .assembling) && decide (p.req.lq = q.lq) && decide (p.req.mt = q.mt))
  let keys := (mine.map fun p => (p.req.ctx, p.req.addr)).eraseDups
  keys.contains (q.ctx, q.addr) || decide (keys.length < 8)

/-- Whether a request is a group of a b4 store (R242). -/
def isB4Store (q : Request) : Bool :=
  match q.op, q.format with
  | .store, .b4 _ => true
  | _, _ => false

/-- Whether a request in its MT's input can be accepted now: an earlier one of its slot goes first. -/
def acceptable (s : State) (q : Request) : Bool :=
  canCount s q && (!isB4Store q || canAssemble s q) &&
  !(s.pending.any fun p => (decide (p.st = .input) || decide (p.st = .retry)) && decide (p.req.region = q.region) && decide (p.req.slot = q.slot) && decide (p.req.id < q.id))

/-- MEMORY_REQUEST_ACCEPT (R226): the next request of an entry MT is checked, translated and sent on. -/
def execMemoryRequestAccept (lq mt : Nat) (s : State) : Result :=
  match s.pending.find? fun p => decide (p.req.lq = lq) && decide (p.req.mt = mt) &&
    ((decide (p.st = .retry) && !(decide (p.req.want = .atm) && behindSlot s p.req)) || (decide (p.st = .input) && s.inTurn lq && acceptable s p.req)) with
  | none => .next s
  | some p =>
    let q := p.req
    let s := countRequest s q
    if p.st = .retry then .next (proceed s q [])
    else if !typeOk q then .next (faultRequest s q codeAtomicType q.addr 7 true)
    else if !alignedFor q.format q.addr then .next (faultRequest s q codeAlignment q.addr 7 false)
    else if isB4Store q then .next (assemble s q)
    else .next (proceed s q [])

/-! ## Page walks -/

/-- Put a translation into a buffer of a given size; the oldest leaves where it is full (log 32). -/
def fillTlb (n : Nat) (t : TlbEntry) (m : List TlbEntry) : List TlbEntry :=
  if m.contains t then m else (m ++ [t]).drop (m.length + 1 - n)

/-- Whether two miss-status entries share one walk: second-level misses of quads of one gallery to one VA[56:16] (R201). -/
def sharesWalk (a b : Nat × MissEntry) : Bool :=
  decide (a.1 / 16 = b.1 / 16) && decide (a.2.part = b.2.part) && decide (a.2.vpn = b.2.vpn)

/-- The miss-status entries of a hall that need a walk, the second level having no translation for them, with their physical quads. -/
def hallMisses (s : State) (hall : Nat) : List (Nat × MissEntry) :=
  s.pquads.flatMap fun e =>
    if e.1 / 64 = hall then (e.2.misses.filter fun m => (secondLevel s e.1 m.part m.vpn).isNone).map fun m => (e.1, m) else []

/-- Whether an entry asked for its walk first among those that share it. -/
def firstAsked (es : List (Nat × MissEntry)) (a : Nat × MissEntry) : Bool := !(es.any fun b => sharesWalk a b && decide (b.2.since < a.2.since))

/-- Whether the walk of an entry is one of the 64 that the walkers of its hall have outstanding: the others queue in the order of their requests (R201). -/
def walkOut (s : State) (a : Nat × MissEntry) : Bool :=
  let es := hallMisses s (a.1 / 64)
  let mine := es.filter fun b => sharesWalk a b
  decide ((es.filter fun b => firstAsked es b && mine.all fun m => decide (b.2.since < m.2.since)).length < 64)

/-- A walk returns to an entry: it leaves, and the buffers take what the walk has found (R201). -/
def landWalk (w : Walked) (s : State) (a : Nat × MissEntry) : State :=
  let p := s.pquadOf a.1
  let p1 := { p with misses := p.misses.filter fun x => x.key ≠ a.2.key }
  match w with
  | .stop _ _ => s.setPquad a.1 p1
  | .leaf pte level =>
    let t : TlbEntry := ⟨a.2.part, alignDown (pageSize level) (a.2.vpn * 2 ^ 16), pageSize level, BitVec.ofNat 64 pte⟩
    let s1 := s.setPquad a.1 { p1 with tlb := fillTlb 256 t p1.tlb }
    { s1 with tlb2 := NatMap.set [] s1.tlb2 (a.1 / 16) (fillTlb 8192 t (NatMap.get [] s1.tlb2 (a.1 / 16))) }

/-- The second level answers an entry (R201): it leaves, and the first level takes the translation. -/
def landSecond (t : TlbEntry) (s : State) (a : Nat × MissEntry) : State :=
  let p := s.pquadOf a.1
  s.setPquad a.1 { p with misses := p.misses.filter fun x => x.key ≠ a.2.key, tlb := fillTlb 256 t p.tlb }

/-- The requests waiting on entries for a page go on in their order (R201). -/
def goOn (s : State) (es : List (Nat × MissEntry)) (vpn : Nat) : State :=
  (s.pending.filter fun x => es.any fun a => decide (x.st = .miss a.2.key) && decide (s.pqOf x.req.lq = a.1)).foldl
    (fun s x => proceed s x.req [vpn]) s

/-- PAGE_WALK_COMPLETE (R201): a miss-status entry is answered by the second level, or its walk and that of those that share it returns; the requests
waiting on the entries go on in their order. -/
def execPageWalkComplete (pq n : Nat) (s : State) : Result :=
  match (s.pquadOf pq).misses.find? fun m => m.key = n with
  | none => .next s
  | some m =>
    match secondLevel s pq m.part m.vpn with
    | some t => .next (goOn (landSecond t s (pq, m)) [(pq, m)] m.vpn)
    | none =>
      if !walkOut s (pq, m) then .next s
      else
        let es := (hallMisses s (pq / 64)).filter fun b => sharesWalk (pq, m) b
        .next (goOn (es.foldl (landWalk (walk s m.part (((s.hosted pq).head?).getD 0) (m.vpn * 2 ^ 16))) s) es m.vpn)

/-! ## Performing at home -/

/-- The result of a read (R236, R240): its lanes, its flags, the reply. DESIGN CHOICE (log 161): a reply that is poisoned raises no conversion flag, its
lanes being zero; R240 does not say. -/
def readReply (q : Request) (got : List (Nat × Byte)) (bad : Bool) : Token × ExFlags :=
  let v := Lanes.ofFlagged fun e => if bit q.lmask e then loadElem q.format q.group got e else ⟨0, .none⟩
  ({ ctx := q.ctx, lo := q.span.lo, hi := q.span.hi, kind := .data, interp := q.interp, level := q.level, pred := .none
     poison := q.poison || bad, taint := q.taint || decide (q.op = .consume), lanes := if bad then .zero else v.val },
   if bad then .none else v.flags)

/-- Flags of the updates of an ATOM or RED, given the old bytes (R243, R244). -/
def updateFlags (op : Nat) (q : Request) (got : List (Nat × Byte)) : ExFlags :=
  .all ((maskElems q.lmask).map fun e =>
    (updateElem op q.format q.ty (gotNum got (elemOffs q.format 0 e)) (atomOperands op e q.data).1 (atomOperands op e q.data).2).2)

/-- The reply of an ATOM. -/
def atomToken (q : Request) (v : Lanes) : Token :=
  { ctx := q.ctx, lo := q.span.lo, hi := q.span.hi, kind := .data, interp := q.interp, level := q.level, pred := .none, poison := q.poison
    taint := q.taint, lanes := v }

/-- The end of an access whose last part has been performed (R227, R246): the result stands ready, its flags are recorded. -/
def finishRequest (s : State) (q : Request) (got : List (Nat × Byte)) (bad : Bool) : State :=
  match q.op with
  | .store =>
    let fl := (requestWrites s q).2
    let s1 := (s.partners q.id).foldl (fun s x => s.ready { x with dataPoison := bad || x.dataPoison } (some (ackToken { x with dataPoison := bad || x.dataPoison })) .none (some x.span)) s
    edgeFlags ((s.partners q.id).foldl (fun s x => s.dropRequest x.id) s1) q.lq q.mt q.ctx q.part fl
  | .atomic op =>
    if bad then (s.dropRequest q.id).ready q (some { atomToken q .zero with poison := true }) .none none
    else
      let fl := updateFlags op q got
      edgeFlags ((s.dropRequest q.id).ready q (some (atomToken q (atomReply op q.format q.lmask q.data got))) fl none) q.lq q.mt q.ctx q.part fl
  | .reduce op =>
    let x := { q with dataPoison := bad || q.dataPoison }
    edgeFlags ((s.dropRequest q.id).ready q (some (ackToken x)) .none (some q.span)) q.lq q.mt q.ctx q.part (if bad then .none else updateFlags op q got)
  | .prefetch => s.dropRequest q.id
  | .load =>
    let r := readReply q got bad
    edgeFlags ((s.dropRequest q.id).ready q (some r.1) r.2 none) q.lq q.mt q.ctx q.part r.2
  | .consume =>
    let r := readReply q got bad
    edgeFlags ((s.dropRequest q.id).ready q (some r.1) r.2 none) q.lq q.mt q.ctx q.part r.2
  | .acquire _ =>
    let r := readReply q got bad
    edgeFlags ((s.dropRequest q.id).ready q (some r.1) r.2 none) q.lq q.mt q.ctx q.part r.2

/-- One part of a request is done: with the bytes it gave and whether they were poisoned. -/
def partDone (s : State) (p : Part) (bs : List Byte) (bad : Bool) : State :=
  let s := { s with homes := s.homes.filter (fun x => x.id ≠ p.id) }
  match s.pending.find? fun x => x.req.id = p.req with
  | none => s
  | some x =>
    match x.st with
    | .homes left got b =>
      let got := got ++ (List.range bs.length).map fun i => (p.off + i, bs.getD i 0)
      if left ≤ 1 then finishRequest s x.req got (b || bad) else s.setPending p.req (.homes (left - 1) got (b || bad))
    | _ => s

/-- Bytes put at places from an address for a context, one by one (R208, R219); none where the write set of a deterministic task would pass its
bound. -/
def putEach (s : State) (ctx pa : Nat) : List (Nat × Byte) → Option State
  | [] => some s
  | (i, b) :: bs => match s.viewWrite ctx (pa + i) [b] with
    | none => none
    | some s' => putEach s' ctx pa bs

/-- Writes put into parts of an access, given the old bytes of each; none where the write set of a deterministic task would pass its bound (R219). -/
def putWrites (ctx : Nat) (ws : State → Part → List ByteWrite) : List Part → State → Option State
  | [], s => some s
  | p :: ps, s =>
    (putEach s ctx p.pa (writtenBytes (ws s p) p.off (s.viewBytes ctx p.pa p.len))).bind (putWrites ctx ws ps)

/-- Whether a part of a request is at a peer: the parts here wait for it, since an access that faults performs none of its elements (R251). -/
def atPeer (s : State) (req : Nat) : Bool := s.homes.any fun x => decide (x.req = req) && decide (rangeOf s x.pa = .peer)

/-- The parts of a store that are performed at once: the one at its home; all of them for a deterministic task, whose write set may have no room for one
(R219, R251). -/
def storeParts (s : State) (q : Request) (p : Part) : List Part :=
  if (detLaunchOf s q.ctx).isSome then s.homes.filter fun x => decide (x.req = q.id) else [p]

/-- The part of a store at its home (R206, R208, R241): the bytes of the selected elements; poisoned data marks the granule. -/
def storePart (s : State) (q : Request) (p : Part) : State :=
  let bad := (s.partners q.id).any (·.dataPoison)
  let ps := storeParts s q p
  match putWrites q.ctx (fun s _ => (requestWrites s q).1) ps s with
  | none => faultAll s q.id codeSnapshot q.addr 7 true
  | some s1 => ps.foldl (fun s x => partDone (if bad then s.markFor q.ctx x.pa else s) x [] bad) s1

/-- The byte writes of the updates of a part, given the old bytes of its elements (R243). -/
def updateWrites (op : Nat) (q : Request) (p : Part) (got : List (Nat × Byte)) : List ByteWrite :=
  (maskElems q.lmask).flatMap fun e =>
    let o := e * q.format.bytes
    if p.off ≤ o ∧ o < p.off + p.len then
      match (updateElem op q.format q.ty (gotNum got (elemOffs q.format 0 e)) (atomOperands op e q.data).1 (atomOperands op e q.data).2).1 with
      | some c => codeWrites q.format e c
      | none => []
    else []

/-- The bytes of a part as the context of its request sees them, with their offsets in the access. -/
def partGot (s : State) (q : Request) (p : Part) : List (Nat × Byte) :=
  let old := s.viewBytes q.ctx p.pa p.len
  (List.range old.length).map fun i => (p.off + i, old.getD i 0)

/-- The parts of a request whose bytes this device holds. -/
def partsHere (s : State) (req : Nat) : List Part := s.homes.filter fun x => decide (x.req = req) && decide (rangeOf s x.pa ≠ .peer)

/-- The parts of an ATOM or RED enter the pipelines of their homes together (R209, R230, R243, R251): where a granule is poisoned, or the write set of a
deterministic task has no room, none of its elements is updated and the region faults. -/
def updateParts (s : State) (op : Nat) (q : Request) (p : Part) : State :=
  let s := readUpset s p.pa
  if s.homes.any (fun x => decide (x.req = q.id) && s.poisonedFor q.ctx x.pa x.len) then faultAll s q.id codeUncorrectable q.addr 7 true
  else
    match putWrites q.ctx (fun s x => updateWrites op q x (partGot s q x)) (partsHere s q.id) s with
    | none => faultAll s q.id codeSnapshot q.addr 7 true
    | some s1 => (partsHere s q.id).foldl (fun t x => partDone t x (s.viewBytes q.ctx x.pa x.len) false) s1

/-- A part that can be performed now, with its request: its bank is neither being evacuated nor lost, and it is not at a peer. -/
def partAt (s : State) (id : Nat) : Option (Part × Request) :=
  match s.homes.find? fun p => p.id = id with
  | none => none
  | some p =>
    match s.pending.find? fun x => x.req.id = p.req with
    | none => none
    | some x => if rangeOf s p.pa = .peer then none else some (p, x.req)

/-- Whether a part of a request that is still to be performed lies in a bank whose contents are lost (R223, R251). -/
def lostHome (s : State) (req : Nat) : Bool := s.homes.any fun x => decide (x.req = req) && decide (bankOf s x.pa = some .lost)

/-- The home of an address (R206, R230): a vault bank, an HBM stack, or a range. -/
def homeOf (s : State) (pa : Nat) : Range × Nat :=
  match rangeOf s pa with
  | .vault => (.vault, 4 * vaultPq pa + vaultBank pa)
  | .hbm => (.hbm, hbmStack pa)
  | x => (x, 0)

/-- Whether an ATOM or RED of the same entry MT was sent to the same home earlier and is still to be performed (R231). -/
def behindInput (s : State) (p : Part) (q : Request) : Bool :=
  s.homes.any fun x => decide (x.id < p.id) && decide (x.req ≠ q.id) && decide (homeOf s x.pa = homeOf s p.pa) &&
    s.pending.any fun y => decide (y.req.id = x.req) && decide (s.pqOf y.req.lq = s.pqOf q.lq) && decide (y.req.mt = q.mt) && decide (y.req.want = .atm)

/-- Whether the bank of an address is being evacuated (R221). -/
def evacuating (s : State) (pa : Nat) : Bool :=
  match bankOf s pa with
  | some (.evacuating _ _) => true
  | _ => false

/-- Whether nothing but its target's service keeps a part from being performed (R221, R231, R251): an ATOM or RED enters with all its parts here. -/
def canPerform (s : State) (p : Part) (q : Request) : Bool :=
  if q.want = .atm then !atPeer s q.id && (partsHere s q.id).all fun x => !evacuating s x.pa && !behindInput s x q
  else !evacuating s p.pa && !(decide (q.want = .write) && atPeer s q.id)

/-! ## Quality of service -/

/-- Where the QoS words of the target of an address begin (R444, R445). -/
def qosBase (s : State) (pa : Nat) : Option Nat :=
  match rangeOf s pa with
  | .vault => some (regAddr 5 (vaultPq pa) (0x2800 + 0x80 * vaultBank pa))
  | .hbm => some (regAddr 6 (hbmStack pa) 0x800)
  | .cap => some (regAddr 6 16 0x800)
  | _ => none

/-- MIN of a partition at a target (R445). -/
def qosMin (s : State) (base p : Nat) : Nat := bits (NatMap.get 0 s.tables (base + 8 * p)).toNat 7 0
/-- WEIGHT of a partition at a target (R445). -/
def qosWeight (s : State) (base p : Nat) : Nat := bits (NatMap.get 0 s.tables (base + 8 * p)).toNat 15 8

/-- The partitions with a request waiting at a target, in ascending order. -/
def waitingAt (s : State) (base : Nat) : List Nat :=
  (List.range 16).filter fun p => s.homes.any fun x => decide (qosBase s x.pa = some base) &&
    s.pending.any fun y => decide (y.req.id = x.req) && decide (y.req.part = p) && canPerform s x y.req

/-- What a target has served, in the window of a cycle (R445): windows begin at the multiples of 4,096 cycles (log 171). -/
def Service.inWindow (x : Service) (cycle : Nat) : Service := if x.since = cycle / 4096 then x else { x with since := cycle / 4096, counts := [] }

/-- What the target at a table address has served. -/
def State.serviceOf (s : State) (base : Nat) : Service := (NatMap.get .init s.served base).inWindow s.cycle

/-- The first of ascending numbers after one of them, round again where none is. -/
def nextRound (ps : List Nat) (last : Nat) : Option Nat := (ps.find? fun p => decide (last < p)).or ps.head?

/-- The partition that a target serves next (R445): the lowest whose count is below 16 * MIN; else by round robin, each in its turn up to WEIGHT times (log 171); one
of WEIGHT 0 where no other waits. -/
def qosChoice (s : State) (base : Nat) : Option Nat :=
  let x := s.serviceOf base
  let ps := waitingAt s base
  let ws := ps.filter fun p => decide (0 < qosWeight s base p)
  match ps.find? fun p => decide (NatMap.get 0 x.counts p < 16 * qosMin s base p) with
  | some p => some p
  | none => if ws.contains x.last && decide (x.run < qosWeight s base x.last) then some x.last else (nextRound ws x.last).or (nextRound ps x.last)

/-- Whether the target of an address serves a partition now (R445): one request a cycle. The host has no QoS words. -/
def isServed (s : State) (pa part : Nat) : Bool :=
  match qosBase s pa with
  | none => true
  | some base => decide ((s.serviceOf base).at' ≠ some s.cycle) && decide (qosChoice s base = some part)

/-- The target of an address has served a partition (R445). -/
def State.serve (s : State) (pa part : Nat) : State :=
  match qosBase s pa with
  | none => s
  | some base =>
    let x := s.serviceOf base
    { s with served := NatMap.set .init s.served base { x with
        counts := NatMap.set 0 x.counts part (NatMap.get 0 x.counts part + 1)
        run := if x.last = part ∧ x.run < qosWeight s base part then x.run + 1 else 1
        last := part
        at' := some s.cycle } }

/-! ## Performing -/

/-- ACCESS_PERFORM_AT_HOME (R206 to R208, R221, R223, R445): a read or a write of one granule is performed at the home of its bytes, when its target serves it. -/
def execAccessPerformAtHome (id : Nat) (s : State) : Result :=
  match partAt s id with
  | none => .next s
  | some (p, q) =>
    if lostHome s p.req then .next (faultAll s q.id codeUncorrectable q.addr 7 true)
    else if q.want = .atm ∨ !canPerform s p q ∨ !isServed s p.pa q.part then .next s
    else
      let s := s.serve p.pa q.part
      match q.op with
      | .store => .next (storePart s q p)
      | _ =>
        let s := readUpset s p.pa
        .next (partDone s p (s.viewBytes q.ctx p.pa p.len) (s.poisonedFor q.ctx p.pa p.len))

/-- RMW_PIPELINE_UPDATE (R230, R231, R445): an ATOM or RED enters the pipeline of its home, each input in the order it accepted. -/
def execRmwPipelineUpdate (id : Nat) (s : State) : Result :=
  match partAt s id with
  | none => .next s
  | some (p, q) =>
    if lostHome s p.req then .next (faultAll s q.id codeUncorrectable q.addr 7 true)
    else if !canPerform s p q ∨ !isServed s p.pa q.part then .next s
    else match q.op with
      | .atomic op => .next (updateParts (s.serve p.pa q.part) op q p)
      | .reduce op => .next (updateParts (s.serve p.pa q.part) op q p)
      | _ => .next s

/-! ## Release -/

/-- MT_REPLY_RELEASE (R227, R228, R246): the oldest entry of a slot's window is released where it is ready; the flags of a reply are raised in
the PE that stores it; a full router holds it (R426). -/
def execMtReplyRelease (rid slot : Nat) (s : State) : Result :=
  match s.region? rid with
  | none => .next s
  | some r =>
    if r.frozen || !s.inTurn (r.lqAt slot) then .next s
    else
      match r.window slot with
      | .ready t ds ctx _ flags ack :: ws =>
        if t.isSome && !routersTake s ds then .next s else
        let r1 := r.setWindow slot ws
        let r2 := match ack with
          | some sp => { r1 with ackMarks := NatMap.insert r1.ackMarks slot sp }
          | none => r1
        let s1 := s.setRegion rid r2
        let s2 := match s1.region? ((ds.head?.map (·.region)).getD rid) with
          | some q => s1.setRegion ((ds.head?.map (·.region)).getD rid) (q.raise ((ds.head?.map (·.slot)).getD slot) ctx flags)
          | none => s1
        match t with
        | some x => .next (s2.deliver ds x)
        | none => .next s2
      | _ => .next s

end Sys2Proof.Machine
end

