-- ==== Sys2Proof/Machine/Issue.lean ====
section
/-! DEFINITION. The issue of sequencer words (spec 03 R98 to R103; 10 R254 to R256, R261 to R263, R276): fetch, the wait field, shared
ports, retirement with the loop-end test and the signal, traps. -/

namespace Sys2Proof.Machine

/-- What a retiring word does to the PC (R262, R263): go on to the next word, take a branch, set the PC without touching a frame, or stop
the queue. -/
inductive Flow where
  | next
  | branch (t : VAddr)
  | jump (t : VAddr)
  | halt
deriving DecidableEq, Repr

/-- What the effect of a word comes to: it retires, with its signal; it retires with its engine's acceptance, which owes the signal, and the
engine may complete or abort the command at once; it waits; it traps (R254, R256). -/
inductive WordResult where
  | retire (s : State) (f : Flow)
  | accepted (s : State)
  | completed (s : State) (c : Cmd)
  | aborted (s : State) (c : Cmd) (code va : Nat)
  | wait (s : State) (kind : WaitKind) (sem thr nbn : Nat)
  | trap (s : State) (code arg0 arg1 : Nat)

/-- LOOP_ENTRY (R391). -/
def codeLoopEntry : Nat := 0x22
/-- ABSENT_UNIT (R391). -/
def codeAbsent : Nat := 0x03

/-- Whether a word's address lies in the body of a frame (R261). -/
def LoopFrame.has (f : LoopFrame) (a : VAddr) : Bool := decide (f.start.toNat ≤ a.toNat) && decide (a.toNat ≤ f.last.toNat)

/-- The loop-end test of R262 for the word at `pc`, on frames listed top first. -/
def loopEnd (pc : VAddr) : List LoopFrame → List LoopFrame × VAddr
  | [] => ([], pc + 16)
  | f :: fs =>
    if f.last = pc then
      if f.count - 1 > 0 then ({ f with count := f.count - 1 } :: fs, f.start) else loopEnd pc fs
    else (f :: fs, pc + 16)

/-- How many frames from the top a branch from `src` to `dst` discards (R263): a frame that it leaves goes with every frame above it, and so does one
that ends at the branch, where every frame above it goes. -/
def dropCount (src dst : VAddr) (i : Nat) (acc : Nat) : List LoopFrame → Nat
  | [] => acc
  | f :: fs =>
    let leaves := f.has src && !f.has dst
    let ends := decide (acc = i) && decide (f.last = src)
    dropCount src dst (i + 1) (if leaves || ends then i + 1 else acc) fs

/-- The frames after a branch, or none where it enters a body (R263). -/
def branchLoops (src dst : VAddr) (fs : List LoopFrame) : Option (List LoopFrame) :=
  if fs.any fun f => !f.has src && f.has dst then none else some (fs.drop (dropCount src dst 0 0 fs))

/-- The queue at the end of a word's retirement, none where a branch enters a loop body. -/
def Queue.flow (x : Queue) (f : Flow) : Option Queue :=
  match f with
  | .next => some { x with loops := (loopEnd x.pc x.loops).1, pc := (loopEnd x.pc x.loops).2 }
  | .branch t => (branchLoops x.pc t x.loops).map fun l => { x with loops := l, pc := t }
  | .jump t => some { x with pc := t }
  | .halt => some { x with pc := x.pc + 16, st := .halted }

/-- The signal of a word (R99). -/
def sigOf (h : Hdr) : Option (Nat × Nat) := if h.se then some (h.ssem.toNat, h.inc.toNat) else none

/-- Retirement (R99, R254, R262, R263): the signal applies, the PC and the loop stack move. A branch into a loop body traps and changes
nothing; a signal that would overflow is not applied and traps, the word's own effect standing (log 20). `s0` is the state before the
word's effect, `s` the state after it. -/
def retireWord (s0 s : State) (lq q raw : Nat) (sig : Option (Nat × Nat)) (f : Flow) : State :=
  let x := s.queueOf lq q
  match x.flow f with
  | none => s0.trap lq q codeLoopEntry raw 0 0
  | some y =>
    let y := { y.settled with wait := y.wait.hold s.cycle }
    match sig with
    | none => (s.dropWordReads lq q).setQueue lq q y
    | some (sem, inc) =>
      match (s.quadOf lq).addSem sem inc with
      | none => s.trap lq q codeSemOverflow raw 0 0
      | some z => (s.dropWordReads lq q).setQuad lq (z.setQueue q y)

/-- The word at issue waits (R276): its wait begins, with CYCLES at 0, in the first cycle it could not issue or retire, and is one wait whatever it
waits for in turn. -/
def WaitState.begin (w : WaitState) (kind : WaitKind) (sem thr nbn cycle : Nat) : WaitState :=
  if w.live then { w with w := true, kind := kind, sem := sem, thr := thr, nbn := nbn }
  else { w with w := true, kind := kind, sem := sem, thr := thr, nbn := nbn, base := 0, since := some cycle, live := true }

/-- A word that is at issue in a phase of its own waits. -/
def staysAt (s : State) (lq q : Nat) (p : IssuePhase) (kind : WaitKind) : WordResult :=
  .wait (s.setQueue lq q { (s.queueOf lq q) with phase := p }) kind 0 0 0

/-- The queue's word waits. -/
def waitWord (s : State) (lq q : Nat) (kind : WaitKind) (sem thr nbn : Nat) : State :=
  let x := s.queueOf lq q
  s.setQueue lq q { x with wait := x.wait.begin kind sem thr nbn s.cycle }

/-- A word reaches issue and need not wait: W and CYCLES leave the values of the last wait (R276). -/
def clearWait (s : State) (lq q : Nat) : State :=
  let x := s.queueOf lq q
  if x.wait.live then s else s.setQueue lq q { x with wait := { x.wait with w := false, base := 0, since := none } }

/-- A word that has issued waits for its own condition (R254): its wait field is not tested again. -/
def stays (s : State) (lq q : Nat) (kind : WaitKind) (nbn : Nat) : WordResult :=
  .wait (s.setQueue lq q { (s.queueOf lq q) with phase := .issued }) kind 0 0 nbn

/-- The opcode of a command. -/
def Cmd.opcode (c : Cmd) : Nat := bits c.word 127 120

/-- The place of a command's engine in the order in which the signals of one cycle apply (R100): BCE, MXT0 to MXT2, CRU, PSE, GME, VIE, after the words. -/
def unitPlace (c : Cmd) : Nat :=
  let k := bits c.word 127 124
  let unit := bits c.word 59 56
  if k = 4 then 2000 + 8 * c.lq + unit else if k = 5 then 4000 + 4 * c.lq + unit else 1000 * k

/-- A command that completes within a word or a firing signals in the place of its engine (R100). -/
def State.completeLate (s : State) (c : Cmd) : State := { s with late := s.late ++ [(unitPlace c, c)] }

/-- The completions that go before a place of the cycle apply their signals, in the order of their places. -/
def State.flushLate (s : State) (place : Nat) : State :=
  let due := s.late.filter fun e => decide (e.1 < place)
  (sortBy Prod.fst due).foldl (fun s e => s.complete e.2) { s with late := s.late.filter fun e => !decide (e.1 < place) }

/-- The end of a word's turn. -/
def finishWord (s0 : State) (lq q raw : Nat) (h : Hdr) : WordResult → State
  | .retire s f => retireWord s0 s lq q raw (sigOf h) f
  | .accepted s => retireWord s0 s lq q raw none .next
  | .completed s c => (retireWord s0 s lq q raw none .next).completeLate c
  | .aborted s c code va => (retireWord s0 s lq q raw none .next).abort c code va
  | .wait s k sem thr nbn => waitWord s lq q k sem thr nbn
  | .trap s code a0 a1 => s.trap lq q code raw a0 a1

/-- Run the effect of a sequencer word for the queue in focus; with no queue in focus nothing happens. `raw` is the word itself, which its
trap record would hold. -/
def runWord (raw : Nat) (h : Hdr) (s : State) (f : Nat → Nat → Queue → WordResult) : Result :=
  match s.focus with
  | .queue lq q => .next (finishWord s lq q raw h (f lq q (s.queueOf lq q)))
  | _ => .next s

/-- A word that only writes the queue's registers and goes on (R258). -/
def regWord (raw : Nat) (h : Hdr) (s : State) (f : Queue → Queue) : Result :=
  runWord raw h s fun lq q x => .retire (s.setQueue lq q (f x)) .next

/-! ## Fetch and waits -/

/-- The access of a queue's fetches, LDQ and STQ (R256, R442); the queue in focus tells its reads of peers from those of the others. -/
def queueAccess (s : State) (lq : Nat) (x : Queue) : Access :=
  ⟨s.partOfLq lq, lq, x.ctx, masterQuad lq, .read, .plain, match s.focus with | .queue _ q => q | _ => 0⟩

/-- The word at a queue's PC (R98), read through its partition's translation. -/
def fetchWord (s : State) (lq q : Nat) : Access.Answer Nat :=
  let x := s.queueOf lq q
  match s.readVa { (queueAccess s lq x) with ctx := 4096, tag := q } x.pc.toNat 16 with
  | .done (bs, bad) => if bad then .fault codeUncorrectable x.pc.toNat else .done (ofBytes bs)
  | .wait k => .wait k
  | .fault c v => .fault c v

/-- Whether the wait field of a word is met (R99), on the value at the end of the previous cycle (R100); the fields are read from the word (R98). -/
def waitMet (x : Quad) (h : Hdr) : Bool := !h.we || decide (h.wthr.toNat ≤ x.semSeen h.wsem.toNat)

/-- The shared ports of a quad (R255) and the service of TASKNEXT (R270). -/
inductive PortKind where
  | engine | system | task
deriving DecidableEq, Repr

/-- The shared port a word needs, by its opcode (R255, R270). -/
def portKind (w : Nat) : Option PortKind :=
  let c := bits w 127 124
  if 4 ≤ c ∧ c ≤ 9 then some .engine else if c = 10 then some .system else if bits w 127 120 = 0x28 then some .task else none

/-- Whether the unit a class 4 to 9 word needs can accept it (R277, R312, R352, R364). -/
def canAccept (s : State) (lq w : Nat) : Bool :=
  let c := bits w 127 124
  let op := bits w 127 120
  let unit := bits w 59 56
  if c = 4 then
    let k := (s.quadOf lq).chan unit
    k.cur.isNone || decide (k.queue.length < 3)
  else if c = 5 then
    let sub0 := bit w 48
    if op = 0x57 ∧ sub0 = false then true
    else if op = 0x56 ∨ op = 0x58 then ((s.quadOf lq).mx unit).bypass.isNone
    else decide (((s.quadOf lq).mx unit).queue.length < 4)
  else if c = 7 then decide ((s.hallOf unit).pseQ.length < 16)
  else if c = 8 then decide ((s.hallOf unit).gmeQ.length < 16)
  else true

/-- Whether a queue's LDQ or STQ is outstanding (R412). -/
def accessOut (x : Queue) : Bool := decide (x.st = .running) && (decide (x.phase = .access) || decide (x.phase = .storing))

/-- Whether a QFLUSH of a queue finds an LDQ or STQ of the queues it names outstanding, for which it waits (R412). -/
def flushWaits (s : State) (x : Queue) (w : Nat) : Bool :=
  let n := (x.reg (bits w 74 70)).toNat
  decide (n < 128) && [0, 1, 2, 3].any fun k => bit w k && accessOut (s.queueOf n k)

/-- Whether a class A word can take the system port (R255): an EVENT waits while the fault ring is full (R413), a QFLUSH for an outstanding LDQ or STQ
(R412). -/
def systemReady (s : State) (lq : Nat) (x : Queue) (w : Nat) : Bool :=
  if bits w 127 120 = 0xA6 then (s.partOf (s.partOfLq lq)).ringRoom && !s.ringWaits (s.partOfLq lq) lq
  else if bits w 127 120 = 0xA3 then !flushWaits s x w
  else true

/-- Whether a context is one of a launch being saved, in a quad that has still to be read out (R417, R420). -/
def frozenCtx (s : State) (lq ctx : Nat) : Bool :=
  s.images.any fun e => decide (e.2.st = .saving) && e.2.reading.contains lq &&
    (match s.launch? e.2.launch with
      | some l => l.ctxs.contains ctx || l.drawn.contains ctx
      | none => false)

/-- Whether a queue belongs to the save set of a launch being saved (R417, R420): it stands still until its quad has been read out, but for an outstanding
LDQ or STQ, which completes (R419). -/
def frozenQueue (s : State) (lq : Nat) (x : Queue) : Bool := frozenCtx s lq x.ctx && !accessOut x

/-- Whether a word that has come so far still asks for a port (R254, R255): one that has not issued does, and TASKNEXT until it retires (R270). -/
def IssuePhase.asks (k : PortKind) : IssuePhase → Bool
  | .fresh => true
  | .issued => decide (k = .task)
  | .again p => p.asks k
  | _ => false

/-- Whether another queue of the quad is ready for a port. -/
def readyFor (s : State) (lq q : Nat) (k : PortKind) : Bool :=
  let x := s.queueOf lq q
  decide (x.st = .running) && x.phase.asks k && !frozenQueue s lq x &&
  (match fetchWord s lq q with
    | .done w =>
      decide (portKind w = some k) && (decide (x.phase = .issued) || waitMet (s.quadOf lq) (hdrFields w)) &&
      (if k = .engine then canAccept s lq w else if k = .system then systemReady s lq x w else true)
    | _ => false)

/-- The queue after which a port's round robin starts (R255, R270). -/
def Quad.rr (x : Quad) : PortKind → Nat
  | .engine => x.portRR
  | .system => x.sysRR
  | .task => x.taskRR

/-- Whether queue `a` goes before queue `b` at a port (R255): higher PRIO first, then round robin from the queue after the last served. -/
def goesBefore (x : Quad) (k : PortKind) (a b : Nat) : Bool :=
  let pa := (NatMap.get .init x.queues a).prio
  let pb := (NatMap.get .init x.queues b).prio
  decide (pb < pa) || (decide (pa = pb) && decide ((a + 3 - x.rr k) % 4 < (b + 3 - x.rr k) % 4))

/-- Whether a port serves another queue of the quad first (R255, R270). -/
def rival (s : State) (lq q : Nat) (k : PortKind) : Bool :=
  ([0, 1, 2, 3].filter (· ≠ q)).any fun r => goesBefore (s.quadOf lq) k r q && readyFor s lq r k

/-- The port has served a queue. -/
def served (s : State) (lq q : Nat) : PortKind → State
  | .engine => s.setQuad lq { (s.quadOf lq) with portRR := q }
  | .system => s.setQuad lq { (s.quadOf lq) with sysRR := q }
  | .task => s.setQuad lq { (s.quadOf lq) with taskRR := q }

/-! ## Engine commands -/

/-- The command an engine accepts from a word of format E: register values, context, partition and mode at issue (R277, R288, R299). -/
def mkCmd (s : State) (lq q : Nat) (x : Queue) (raw : Nat) (h : Hdr) (o : OpE) : Cmd :=
  { word := raw, lq := lq, q := q, ctx := x.ctx, part := s.partOfLq lq, mode := x.mxmode, d := x.reg o.qd.toNat, s := x.reg o.qs.toNat
    t := x.reg o.qt.toNat, v := x.reg o.qv.toNat, sig := (sigOf h), regs := x.regs, tag := s.stepNo }

/-- Whether the part lacks the unit a word is addressed to (R27, R103, R348, R363): the 930 has no PSE, and the GME of hall 0 only. -/
def absentUnit (s : State) (raw : Nat) : Bool :=
  s.is930 && (decide (bits raw 127 124 = 7) || (decide (bits raw 127 124 = 8) && decide (bits raw 59 56 = 1)))

/-- The command target's access table, where it has one: the quad's BCE and MXTs, the PSEs, the GMEs, the VIE, the CRUs (R443, R444). -/
def commandTable (s : State) (lq raw : Nat) : Nat :=
  let c := bits raw 127 124
  if c = 4 ∨ c = 5 then regAddr 5 (s.pqOf lq) 0x2000
  else if c = 6 then regAddr 6 37 0
  else if c = 7 then regAddr 6 (32 + bits raw 59 56) 0
  else if c = 8 then regAddr 6 (34 + bits raw 59 56) 0
  else regAddr 6 36 0

/-- Whether the target of an engine command lets its master command it (R443: the right CFG). -/
def commandPasses (s : State) (lq raw : Nat) : Bool :=
  entryPasses (s.tableEntry (commandTable s lq raw) (masterQuad lq)) (s.partOfLq lq) .cfg

/-- The word of a command waits at issue for its engine's answer. -/
def awaitAnswer (s : State) (c : Cmd) : WordResult :=
  .wait (s.setQueue c.lq c.q { (s.queueOf c.lq c.q) with phase := .answering c.tag }) .port 0 0 0

/-- Whether a queue's word at issue waits for an engine's answer. -/
def Queue.isAnswering (x : Queue) : Bool :=
  match x.phase with
  | .answering _ => true
  | _ => false

/-- Whether a queue's word at issue is the one that waits for the answer of a command. -/
def Queue.awaits (x : Queue) (c : Cmd) : Bool := decide (x.st = .running) && decide (x.phase = .answering c.tag)

/-- The engine's answer to the word of a queue that has been saved (R419, R431): the word retires in the image. -/
def answerSaved (s : State) (c : Cmd) (v : Word64) : State :=
  match s.savedQueue? c.lq c.q c.ctx with
  | none => s
  | some (k, im, x) =>
    if !x.awaits c then s
    else
      match (x.setReg (bits c.word 79 75) v).flow .next with
      | none => s
      | some y => (s.setSavedQueue k c.lq c.q im { y.settled with wait := y.wait.hold s.cycle }).signal c.lq c.q c.ctx c.word c.sig

/-- Whether the word of a command still waits for its answer, in its queue or in the image that holds the queue. -/
def State.awaited (s : State) (c : Cmd) : Bool :=
  (s.queueOf c.lq c.q).awaits c ||
  match s.savedQueue? c.lq c.q c.ctx with
  | some (_, _, x) => x.awaits c
  | none => false

/-- The engine's answer: the word retires with its result register (R361), its signal waiting where its quad is out of its turn (R432). A word that has
been discarded or whose queue has trapped takes no effect any more (R395, R412). -/
def answerWord (s : State) (c : Cmd) (v : Word64) : State :=
  let x := s.queueOf c.lq c.q
  if !x.awaits c then answerSaved s c v else
  let s1 := s.setQueue c.lq c.q (x.setReg (bits c.word 79 75) v)
  if s.inTurn c.lq then retireWord s1 s1 c.lq c.q c.word c.sig .next
  else (retireWord s1 s1 c.lq c.q c.word none .next).signal c.lq c.q c.ctx c.word c.sig

/-- An engine word (R103, R254, R255, R443): an absent unit traps; a failure of the checks the engine makes at issue traps; the command
target's table may refuse it; the word waits at the engine port while another queue goes before it or the engine cannot accept it;
then `accept` gives its effect. -/
def engineWord (raw : Nat) (h : Hdr) (o : OpE) (s : State) (check : Cmd → Option (Nat × Nat)) (accept : State → Cmd → WordResult) : Result :=
  runWord raw h s fun lq q x =>
    let c := mkCmd s lq q x raw h o
    if absentUnit s raw then .trap s codeAbsent 0 0
    else
      match check c with
      | some (code, va) => .trap s code va 0
      | none =>
        if !commandPasses s lq raw then .trap s codeDenied 0 0
        else if rival s lq q .engine || !canAccept s lq raw then .wait s .port 0 0 0
        else accept (served s lq q .engine) c

/-! ## The turn of a queue -/

/-- What a queue's turn comes to before its word is run: nothing to run, a state without a word run, or a word to run. -/
inductive Turned where
  | idle
  | done (s : State)
  | run (i : Instr) (s : State)

/-- The upset of a queue's turn strikes the fetch of its word, or the read of an LDQ (R397). -/
def fetchStruck (s : State) (lq q : Nat) : State :=
  let x := s.queueOf lq q
  match fetchWord s lq q with
  | .done w => if bits w 127 120 = 0x0D then s else s.struck { (queueAccess s lq x) with ctx := 4096, tag := q } x.pc.toNat
  | _ => s

/-- Whether the wait field of the word at issue is still to be tested: the word has not issued, or it has been restored (R254, R427). -/
def IssuePhase.untested : IssuePhase → Bool
  | .fresh => true
  | .again _ => true
  | _ => false

/-- The word at issue goes on, its wait field being met. -/
def goesOn (s : State) (lq q : Nat) : State :=
  let x := s.queueOf lq q
  match x.phase with
  | .again p => s.setQueue lq q { x with phase := p }
  | _ => s

/-- The turn of a queue (R99, R103, R253, R254, R260): a queue that runs, of an assigned logical quad in its turn, fetches; a fetch that
translation refuses traps; the wait field is tested; then the word is decoded, and a word that decoding or its entry's fields refuse
traps ILLEGAL_CMD. -/
def queueTurn (s : State) (lq q : Nat) : Turned :=
  let x := s.queueOf lq q
  if x.st ≠ .running ∨ s.lqOwner lq = none ∨ !s.inTurn lq ∨ x.isAnswering = true ∨ frozenQueue s lq x then .idle
  else
    let s := fetchStruck s lq q
    match fetchWord s lq q with
    | .wait h => .done (s.noteHold h)
    | .fault c v => .done (s.trap lq q c 0 v 0)
    | .done w =>
      let h := hdrFields w
      if x.phase.untested ∧ !waitMet (s.quadOf lq) h then .done (waitWord s lq q .sem h.wsem.toNat h.wthr.toNat 0)
      else
        match decodeSequencer w with
        | .refused _ => .done ((clearWait s lq q).trap lq q codeIllegal w 0 0)
        | .ok i =>
          if i.wellFormed then .run i { (goesOn (clearWait s lq q) lq q) with focus := .queue lq q }
          else .done ((clearWait s lq q).trap lq q codeIllegal w 0 0)

end Sys2Proof.Machine
end

