-- ==== Sys2Proof/Machine/Pse.lean ====
section
/-! DEFINITION. The priority sampling engines (spec 15 R348 to R362). -/

namespace Sys2Proof.Machine

/-- What performing an engine command comes to: it waits (a page under HOLD, an evacuation), it aborts with a code and an address, the state
holding what stays, or it is done. -/
inductive Performed where
  | wait (h : Option PageHold)
  | abort (s : State) (code va : Nat)
  | done (s : State)

/-- A read of an engine (R199): bytes, or why not; a poisoned operand aborts UNCORRECTABLE (R295, R362). -/
def engineRead (s : State) (a : Access) (va n : Nat) : Access.Answer (List Byte) :=
  match s.readVa a va n with
  | .done (bs, bad) => if bad then .fault codeUncorrectable va else .done bs
  | .wait k => .wait k
  | .fault c v => .fault c v

/-- Free bytes of the private area of a unit, whose layout the spec leaves to the unit (R349, R370): what another master would read there. -/
def State.scramble (s : State) (pa n : Nat) : State :=
  let r := s.freeBytes n
  r.2.writeAt pa r.1

/-! ## Trees -/

/-- A tree of a hall. -/
def Hall.tree (h : Hall) (t : Nat) : PseTree := NatMap.get .init h.trees t
/-- Put a tree. -/
def Hall.setTree (h : Hall) (t : Nat) (x : PseTree) : Hall := { h with trees := NatMap.set .init h.trees t x }
/-- Put a tree of a hall. -/
def State.setTree (s : State) (h t : Nat) (x : PseTree) : State := s.setHall h ((s.hallOf h).setTree t x)

/-- S (R351). -/
def PseTree.sum (x : PseTree) : Nat := (x.q.map (·.2)).foldl (· + ·) 0
/-- QMIN (R351). -/
def PseTree.qmin (x : PseTree) : Nat := ((x.q.filter fun e => e.2 ≠ 0).map (·.2)).foldl (fun a b => if a = 0 then b else min a b) 0
/-- Bytes of a tree area (R349). -/
def areaBytes (d : Nat) : Nat := alignUp (2 ^ 16) (24 * 2 ^ d)

/-- A priority as fixed point, and whether it was a NaN (R350). -/
def priorityOf (pshift : Nat) (code : Nat) : Nat × Bool :=
  match ofBin .fp32 32 (code % 2 ^ 32) with
  | .nan _ => (0, true)
  | .inf n => (if n then 0 else 2 ^ 32 - 1, false)
  | .fin n m e => if n then (0, false) else (min (roundInt .rne false m (e + pshift)).1 (2 ^ 32 - 1), false)

/-- The access of a PSE command (R353). -/
def pseAccess (hall : Nat) (c : Cmd) (ctx : Nat) (pub : PubUse) : Access := ⟨c.part, c.lq, ctx, masterPse hall, .read, pub, c.tag⟩

/-- The area's pages map one run of HBM (R349, R357): the physical address of its first byte, or the fault. -/
def areaRun (s : State) (a : Access) (va : Nat) : Nat → Option Nat → Access.Answer (Option Nat)
  | 0, _ => .done none
  | n + 1, want =>
    match translate s { a with want := .read } va, translate s { a with want := .write } va with
    | .hold v, _ => .wait (some (a.holdAt s v))
    | .fault c _, _ => .fault c va
    | _, .hold v => .wait (some (a.holdAt s v))
    | _, .fault c _ => .fault c va
    | .ok pa m, .ok _ _ =>
      if m ≠ 2 ∨ (want.isSome ∧ want ≠ some pa) then .fault codeTranslation va
      else
        match areaRun s a ((va + 2 ^ 16) % 2 ^ 57) n (some (pa + 2 ^ 16)) with
        | .done _ => .done (some pa)
        | x => x

/-- STINIT (R357). -/
def pseInit (s : State) (hall t : Nat) (c : Cmd) (ctx : Nat) : Performed :=
  let x := (s.hallOf hall).tree t
  let d := bits c.word 20 16
  let va := c.s.toNat % 2 ^ 57
  if x.valid ∧ x.part ≠ c.part then .abort s codePermission 0
  else if d = 0 then
    .done (s.setTree hall t { x with valid := false, q := [], g := [] })
  else if c.s.toNat % 2 ^ 16 ≠ 0 then .abort s codeAlignment c.s.toNat
  else
    match areaRun s (pseAccess hall c ctx .plain) va (areaBytes d / 2 ^ 16) none with
    | .wait k => .wait k
    | .fault code v => .abort s code v
    | .done none => .wait none
    | .done (some pa) =>
      let s1 := s.scramble pa (areaBytes d)
      .done (s1.setTree hall t
        { valid := true, part := c.part, depth := d, pshift := bits c.word 12 8, area := pa, q := [], g := [], seed := c.t, draws := 0, stale := 0
          bad := 0, beta := 0, nm1 := 0, nextSeq := x.nextSeq, tampered := false })

/-- An entry of a list (R358). -/
structure PseEntry where
  slot : Nat
  gen : Nat
  prio : Nat
  status : Nat
deriving DecidableEq, Repr

/-- The entries of a list from its bytes. -/
def pseEntries (bs : List Byte) (n : Nat) : List PseEntry :=
  (List.range n).map fun m =>
    let f := fun o => ofBytes ((bs.drop (16 * m + o)).take 4)
    ⟨f 0, f 4, f 8, f 12⟩

/-- Apply one entry of STINS: priority and generation (R358). -/
def insEntry (x : PseTree) (e : PseEntry) : PseTree :=
  let p := priorityOf x.pshift e.prio
  { x with
    q := NatMap.set 0 x.q e.slot p.1, g := NatMap.set 0 x.g e.slot ((NatMap.get 0 x.g e.slot + 1) % 2 ^ 32)
    bad := if p.2 then x.bad + 1 else x.bad }

/-- PSE_STALE (R391). -/
def codeStale : Nat := 0x38

/-- Apply one entry of STUPD: its status with the tree after it (R358). -/
def updEntry (x : PseTree) (e : PseEntry) : PseTree × Nat :=
  let p := priorityOf x.pshift e.prio
  let x := { x with bad := if p.2 then x.bad + 1 else x.bad }
  if NatMap.get 0 x.g e.slot = e.gen then ({ x with q := NatMap.set 0 x.q e.slot p.1 }, 0)
  else ({ x with stale := x.stale + 1 }, codeStale)

/-- Apply the entries of STUPD in ascending order. -/
def updEntries (x : PseTree) : List PseEntry → PseTree × List Nat
  | [] => (x, [])
  | e :: es =>
    let r := updEntry x e
    let q := updEntries r.1 es
    (q.1, r.2 :: q.2)

/-- The checks of a command that reads its tree's area (R348, R349): of another partition or not valid, PERMISSION; a word another master
wrote, UNCORRECTABLE, after which the tree is not valid. -/
def treeCheck (s : State) (hall t : Nat) (c : Cmd) (reads : Bool) : Option Performed :=
  let x := (s.hallOf hall).tree t
  if !x.valid || decide (x.part ≠ c.part) then some (.abort s codePermission 0)
  else if reads && x.tampered then some (.abort (s.setTree hall t { x with valid := false }) codeUncorrectable x.area)
  else none

/-- The tree is rewritten after a command: the bytes of its area are the unit's own (R349). -/
def rewriteTree (s : State) (hall t : Nat) (x : PseTree) : State := (s.scramble x.area (areaBytes x.depth)).setTree hall t { x with tampered := false }

/-- The statuses of STUPD, the first at `va`, can be written, all of them, before any entry is applied (R353, R358). -/
def statusWrites (s : State) (a : Access) (va n : Nat) : Access.Answer Unit :=
  match spread s { a with want := .write } va (16 * n - 12) with
  | .hold v => .wait (some (a.holdAt s v))
  | .fault c _ v => .fault c v
  | .ok runs => match runsStand s runs with
    | some true => .wait none
    | some false => .fault codeUncorrectable va
    | none => .done ()

/-- Write the statuses of STUPD, each at its entry. -/
def writeStatuses (s : State) (a : Access) (va : Nat) : List Nat → Access.Answer State
  | [] => .done s
  | x :: xs =>
    match s.writeVa a va (toBytes 4 x) with
    | .done s' => writeStatuses s' a (va + 16) xs
    | r => r

/-- STINS and STUPD (R358): the whole list is read and checked before any entry applies. -/
def pseList (s : State) (hall t : Nat) (c : Cmd) (ctx : Nat) (upd : Bool) : Performed :=
  match treeCheck s hall t c true with
  | some r => r
  | none =>
    let x := (s.hallOf hall).tree t
    let va := c.s.toNat % 2 ^ 57
    let n := bits c.word 31 16 + 1
    let a := pseAccess hall c ctx .plain
    if c.s.toNat % 16 ≠ 0 then .abort s codeAlignment c.s.toNat
    else
      let s := s.struckIn a [(va, 16 * n)]
      match engineRead s a va (16 * n) with
      | .wait k => .wait k
      | .fault code v => .abort s code v
      | .done bs =>
        let es := pseEntries bs n
        if es.any fun e => decide (2 ^ x.depth ≤ e.slot) || decide (e.status ≠ 0) || (!upd && decide (e.gen ≠ 0)) then .abort s codeIllegal 0
        else if !upd then .done (rewriteTree s hall t (es.foldl insEntry x))
        else
          match statusWrites s a (va + 12) n with
          | .wait k => .wait k
          | .fault code v => .abort s code v
          | .done _ =>
            let r := updEntries x es
            match writeStatuses (rewriteTree s hall t r.1) a (va + 12) r.2 with
            | .wait k => .wait k
            | .fault code v => .abort s code v
            | .done s1 => .done s1

/-- The least slot whose prefix sum exceeds a target (R359), with its priority. -/
def prefixSlot (target : Nat) : Nat → NatMap Nat → Nat × Nat
  | _, [] => (0xFFFFFFFF, 0)
  | acc, (i, q) :: m => if target < acc + q then (i, q) else prefixSlot target (acc + q) m

/-- A quotient of naturals rounded once to fp32 in RNE, as its bits. -/
def ratioFp32 (m n : Nat) : Nat := let q := quotJam m n; toBin .fp32 32 (roundBin .fp32 .rne false q.1 q.2).val

/-- Entry `j` of a draw (R359). -/
def drawEntry (x : PseTree) (total dn k j : Nat) : List Byte :=
  if total = 0 then toBytes 4 0xFFFFFFFF ++ toBytes 12 0
  else
    let w := philox x.seed.toNat (dn % 2 ^ 64 + j * 2 ^ 64 + 0x5053 * 2 ^ 96)
    let rand := w.getD 0 0 + 2 ^ 32 * w.getD 1 0
    let target := (j * total + rand % total) / k
    let e := prefixSlot target 0 x.q
    toBytes 4 e.1 ++ toBytes 4 (NatMap.get 0 x.g e.1) ++ toBytes 4 (ratioFp32 e.2 total) ++ toBytes 4 e.2

/-- STDRAW (R359). -/
def pseDraw (s : State) (hall t : Nat) (c : Cmd) (seq ctx : Nat) : Performed :=
  match treeCheck s hall t c true with
  | some r => r
  | none =>
    let x := (s.hallOf hall).tree t
    let k := bits c.word 25 16 + 1
    let dn := x.draws.toNat
    let total := x.sum
    let bs := toBytes 8 total ++ toBytes 4 x.qmin ++ toBytes 4 dn ++ toBytes 8 seq ++ toBytes 1 (b2n (decide (total = 0))) ++ toBytes 1 0 ++
      toBytes 2 k ++ toBytes 4 0 ++ (List.range k).flatMap (drawEntry x total dn k)
    if c.s.toNat % 16 ≠ 0 then .abort s codeAlignment c.s.toNat
    else
      match s.writeVa (pseAccess hall c ctx .result) (c.s.toNat % 2 ^ 57) bs with
      | .wait k => .wait k
      | .fault code v => .abort s code v
      | .done s1 => .done (rewriteTree s1 hall t { x with draws := x.draws + 1 })

/-- STWGT beta (R360). -/
def pseBeta (s : State) (hall t : Nat) (c : Cmd) : Performed :=
  match treeCheck s hall t c false with
  | some r => r
  | none =>
    let b := c.s.toNat
    let ok := decide (b < 2 ^ 32) && match ofBin .fp32 32 (b % 2 ^ 32) with
      | .nan _ => false
      | .inf _ => false
      | .fin n m e => !n && Dyadic.le ⟨m, e⟩ ⟨16, 0⟩
    if !ok || decide (c.t.toNat = 0) || decide (2 ^ 32 < c.t.toNat) then .abort s codeIllegal 0
    else .done (s.setTree hall t { ((s.hallOf hall).tree t) with beta := b, nm1 := c.t.toNat - 1 })

/-- A natural number as an exact value. -/
def natVal (n : Nat) : FVal := .fin false n 0

/-- RoundIF36(N * p, RNE) and its binary logarithm (R360). -/
def logScaled (n : Nat) (p : FVal) : FVal := (fLog2 (fMul .rne (natVal n) p).val).val

/-- The weight of one entry of a draw buffer (R360). -/
def weightOf (beta n : Nat) (b : FVal) (total : Nat) (e : PseEntry) : Nat :=
  if e.slot = 0xFFFFFFFF ∨ e.status = 0 then 0
  else
    let p := (fDiv .rne (natVal e.status) (natVal total)).val
    let d := (fAdd .if36 .rne (logScaled n p) b.neg).val
    let w := (fExp2 ((fMul .rne (ofBin .fp32 32 beta) d).val.neg)).val
    (cvtBin .fp32 32 .rne w).1

/-- STWGT (R360): q of an entry is its last word. -/
def pseWeights (s : State) (hall t : Nat) (c : Cmd) (ctx : Nat) : Performed :=
  match treeCheck s hall t c false with
  | some r => r
  | none =>
    let x := (s.hallOf hall).tree t
    let a := pseAccess hall c ctx .plain
    if c.s.toNat % 16 ≠ 0 then .abort s codeAlignment c.s.toNat
    else if c.t.toNat % 4 ≠ 0 then .abort s codeAlignment c.t.toNat
    else
      let s := s.struck a c.s.toNat
      match engineRead s a (c.s.toNat % 2 ^ 57) 32 with
      | .wait k => .wait k
      | .fault code v => .abort s code v
      | .done hd =>
        let k := ofBytes ((hd.drop 26).take 2)
        let total := ofBytes (hd.take 8)
        let qmin := ofBytes ((hd.drop 8).take 4)
        if k = 0 ∨ 1024 < k then .abort s codeIllegal 0
        else
          match engineRead s a ((c.s.toNat + 32) % 2 ^ 57) (16 * k) with
          | .wait k => .wait k
          | .fault code v => .abort s code v
          | .done bs =>
            let n := x.nm1 + 1
            let b := logScaled n (fDiv .rne (natVal qmin) (natVal total)).val
            let out := (pseEntries bs k).flatMap fun e => toBytes 4 (weightOf x.beta n b total e)
            match s.writeVa { a with pub := .result } (c.t.toNat % 2 ^ 57) out with
            | .wait k => .wait k
            | .fault code v => .abort s code v
            | .done s1 => .done s1

/-- The value STSTAT answers (R361); `seq` is the next sequence number. -/
def statValue (x : PseTree) (sel seq : Nat) : Word64 :=
  match sel with
  | 0 => BitVec.ofNat 64 x.sum
  | 1 => BitVec.ofNat 64 x.qmin
  | 2 => BitVec.ofNat 64 seq
  | 3 => x.draws
  | 4 => x.stale
  | _ => x.bad

/-- STSTAT (R361): retires the word that waits for it. -/
def pseStat (s : State) (hall t : Nat) (c : Cmd) (seq : Nat) : Performed :=
  match treeCheck s hall t c false with
  | some r => r
  | none => .done (answerWord s c (statValue ((s.hallOf hall).tree t) (bits c.word 50 48) seq))

/-- The effect of a command on its tree as it is held, with its accesses as those of a context (R352 to R361). -/
def pseEffect (s : State) (hall : Nat) (p : PseCmd) (ctx : Nat) : Performed :=
  let op := bits p.cmd.word 127 120
  if op = 0x70 then pseInit s hall p.tree p.cmd ctx
  else if op = 0x71 then pseList s hall p.tree p.cmd ctx false
  else if op = 0x72 then pseDraw s hall p.tree p.cmd p.seq ctx
  else if op = 0x73 then pseList s hall p.tree p.cmd ctx true
  else if op = 0x74 then (if bit p.cmd.word 48 then pseBeta s hall p.tree p.cmd else pseWeights s hall p.tree p.cmd ctx)
  else pseStat s hall p.tree p.cmd p.seq

/-- A word of a tree's area that another master has written stays there for a later command to find. -/
def stillTampered (hall t : Nat) : Performed → Performed
  | .wait k => .wait k
  | .abort s code va => .abort (s.setTree hall t { ((s.hallOf hall).tree t) with tampered := true }) code va
  | .done s => .done (s.setTree hall t { ((s.hallOf hall).tree t) with tampered := true })

/-- The effect of a command on its tree (R352 to R361). Where another master has written in the tree's area, two free bits say whether a command that
reads the area meets the word, does not read it, or rewrites it (R349). -/
def psePerform (s : State) (hall : Nat) (p : PseCmd) (ctx : Nat) : Performed :=
  let x := (s.hallOf hall).tree p.tree
  if !x.tampered then pseEffect s hall p ctx
  else
    let v := s.freeValue
    if v.1.getLsbD 0 ∨ bits p.cmd.word 127 120 = 0x70 then pseEffect v.2 hall p ctx
    else
      let r := pseEffect (v.2.setTree hall p.tree { x with tampered := false }) hall p ctx
      if v.1.getLsbD 1 then stillTampered hall p.tree r else r

/-- Whether a command is STSTAT, whose word answers for its own signal. -/
def PseCmd.isStat (p : PseCmd) : Bool := decide (bits p.cmd.word 127 120 = 0x75)

/-- What a command of class 7 works on: its hall and its tree (R348). -/
def Cmd.treeOf (c : Cmd) : Nat × Nat := (bits c.word 59 56, bits c.word 5 0)

/-- Whether a command of a tree has still writes that a peer has to perform: the next one starts after them (R352). -/
def treeOwes (s : State) (hall tree : Nat) : Bool := s.owing.any fun c => decide (c.opcode / 16 = 7) && decide (c.treeOf = (hall, tree))

/-- The effect of a command on its tree waits for the writes that a peer has to perform (R352, R362): until then the tree is what it was in `s`. -/
def stageTree (s s' : State) (c : Cmd) : State :=
  if !s'.awaitsPeer c then s'
  else
    let h := s'.hallOf c.treeOf.1
    s'.setHall c.treeOf.1 { (h.setTree c.treeOf.2 { ((s.hallOf c.treeOf.1).tree c.treeOf.2) with tampered := false }) with
      staged := NatMap.insert h.staged c.treeOf.2 (h.tree c.treeOf.2) }

/-- The writes of a command of class 7 have been performed, and its tree has its effect; or one has been refused or lost, and nothing of the command is
applied (R352, R362). -/
def settleTree (s : State) (c : Cmd) (performed : Bool) : State :=
  let h := s.hallOf c.treeOf.1
  match NatMap.find? h.staged c.treeOf.2 with
  | none => s
  | some x =>
    let old := h.tree c.treeOf.2
    let h1 : Hall := { h with staged := h.staged.filter fun e => e.1 ≠ c.treeOf.2 }
    s.setHall c.treeOf.1 (if performed then h1.setTree c.treeOf.2 { x with nextSeq := old.nextSeq, tampered := old.tampered } else h1)

/-- The end of a command (R352, R362): it signals, or traps its queue; a command that waits leaves the state as it was; a STSTAT whose word is
gone traps nobody (R412). -/
def pseFinish (s : State) (p : PseCmd) : Performed → State
  | .wait k => s.noteHold k
  | .abort s' code va => if p.isStat && !s.awaited p.cmd then s' else s'.abort p.cmd code va
  | .done s' => if p.isStat then s' else (stageTree s (s'.ownedBy s (.command p.cmd (p.cmd.s.toNat % 2 ^ 57))) p.cmd).complete p.cmd

/-- Take a command off the queue of its hall. -/
def pseTake (s : State) (hall : Nat) (p : PseCmd) : State :=
  let h := s.hallOf hall
  s.setHall hall { h with pseQ := (takeFirst (fun x => decide (x = p)) h.pseQ).elim h.pseQ (·.2) }

/-- PSE_COMMAND_PERFORM (R352): the first command of a tree's sequence is performed whole. -/
def execPseCommandPerform (hall tree : Nat) (s : State) : Result :=
  match (s.hallOf hall).pseQ.find? fun p => p.tree = tree with
  | none => .next s
  | some p =>
    let ctx := if (detLaunchOf s p.cmd.ctx).isSome then 4096 else p.cmd.ctx
    if treeOwes s hall tree then .next s else
    .next (pseFinish s p (psePerform (pseTake s hall p) hall p ctx))

/-- The sequence number a command of a tree takes, and the tree after it (R352): STINIT restarts the numbering. -/
def numberCmd (x : PseTree) (init : Bool) : Nat × PseTree :=
  let n := if init then 0 else x.nextSeq
  (n, { x with nextSeq := n + 1 })

/-- A command takes its number and joins the queue of its hall (R352). -/
def pseEnqueue (s : State) (hall : Nat) (c : Cmd) : State :=
  let t := bits c.word 5 0
  let h := s.hallOf hall
  let r := numberCmd (h.tree t) (decide (bits c.word 127 120 = 0x70))
  s.setHall hall { (h.setTree t r.2) with pseQ := h.pseQ ++ [⟨c, t, r.1⟩] }

/-- Acceptance of a class 7 word (R352, R354): the commands of a deterministic task are held until its synchronisation point. -/
def pseAccept (s : State) (c : Cmd) : WordResult :=
  let hall := bits c.word 59 56
  if (detLaunchOf s c.ctx).isSome then
    let h := s.hallOf hall
    .accepted (s.setHall hall { h with pseHeld := h.pseHeld ++ [c] })
  else .accepted (pseEnqueue s hall c)

/-- No check beyond those of decoding is made at issue. -/
def noCheck (_ : Cmd) : Option (Nat × Nat) := none

/-- STINIT (R357). -/
def execStinit (h : Hdr) (o : OpE) (s : State) : Result := engineWord (encodeSeq 0x70 h (.formatE o)) h o s noCheck pseAccept
/-- STINS (R358). -/
def execStins (h : Hdr) (o : OpE) (s : State) : Result := engineWord (encodeSeq 0x71 h (.formatE o)) h o s noCheck pseAccept
/-- STDRAW (R359). -/
def execStdraw (h : Hdr) (o : OpE) (s : State) : Result := engineWord (encodeSeq 0x72 h (.formatE o)) h o s noCheck pseAccept
/-- STUPD (R358). -/
def execStupd (h : Hdr) (o : OpE) (s : State) : Result := engineWord (encodeSeq 0x73 h (.formatE o)) h o s noCheck pseAccept
/-- STWGT beta (R360). -/
def execStwgtBeta (h : Hdr) (o : OpE) (s : State) : Result := engineWord (encodeSeq 0x74 h (.formatE o)) h o s noCheck pseAccept
/-- STWGT (R360). -/
def execStwgt (h : Hdr) (o : OpE) (s : State) : Result := engineWord (encodeSeq 0x74 h (.formatE o)) h o s noCheck pseAccept
/-- STSTAT (R361): takes its number at issue and waits for its turn; in deterministic operation it answers at once, with the
state as of the task's last synchronisation point (R354). -/
def execStstat (h : Hdr) (o : OpE) (s : State) : Result :=
  engineWord (encodeSeq 0x75 h (.formatE o)) h o s noCheck fun s c =>
    let hall := bits c.word 59 56
    let t := bits c.word 5 0
    match detLaunchOf s c.ctx with
    | some (n, l) =>
      let x := NatMap.get PseTree.init (NatMap.get [] (NatMap.get [] s.taskTrees (4096 * n + l.ctxs.idxOf c.ctx)) hall) t
      if !x.valid || decide (x.part ≠ c.part) then .trap s codePermission 0 (bits c.word 59 56)
      else .retire (s.setQueue c.lq c.q ((s.queueOf c.lq c.q).setReg (bits c.word 79 75) (statValue x (bits c.word 50 48) x.nextSeq))) .next
    | none => awaitAnswer (pseEnqueue s hall c) c

end Sys2Proof.Machine
end

