-- ==== Sys2Proof/Machine/Bce.lean ====
section
/-! DEFINITION. The bulk copy engines (spec 11 R277 to R298). -/

namespace Sys2Proof.Machine

/-! ## Shapes and addresses -/

/-- COPY_BOUNDS (R391). -/
def codeBounds : Nat := 0x31
/-- COPY_OWNER (R391). -/
def codeOwner : Nat := 0x30
/-- PREEMPT (R391). -/
def codePreempt : Nat := 0x70

/-- ESZ in bytes (R280). -/
def Cmd.esz (c : Cmd) : Nat := [1, 2, 4, 8, 17, 64].getD (bits c.word 50 48) 64
/-- The rank (R282). -/
def Cmd.rank (c : Cmd) : Nat := bits c.word 53 51 + 1
/-- The eight entries of a shape record (R279): stride and size. -/
def shapeEntries (bs : List Byte) : List (Int × Nat) :=
  (List.range 8).map fun d =>
    let e := ofBytes ((bs.drop (8 * d)).take 8)
    (sext 40 (e / 2 ^ 24), e % 2 ^ 24)

/-- Elements of a shape (R280). -/
def sizeProd (ds : List (Int × Nat)) : Nat := (ds.map (·.2)).foldl (· * ·) 1

/-- The dense layout of a list of sizes (R280). -/
def denseShape (step : Nat) : List Nat → List (Int × Nat)
  | [] => []
  | n :: ns => ((step : Int), n) :: denseShape (step * n) ns

/-- The offset of element `j` (R280). -/
def offsetOf : List (Int × Nat) → Nat → Int
  | [], _ => 0
  | (st, n) :: ds, j => ((j % n : Nat) : Int) * st + offsetOf ds (j / n)

/-- The offset of element `j` with `k` in place of the outermost index (R286). -/
def offsetAt (ds : List (Int × Nat)) (j k : Nat) : Int :=
  offsetOf ds.dropLast (j % sizeProd ds.dropLast) + (k : Int) * (ds.getLast?.map (·.1)).getD 0

/-- Whether every byte that elements of a shape can touch lies in the address space (R281). -/
def inSpace (base : Int) (esz : Nat) (ds : List (Int × Nat)) : Bool :=
  let lo := ds.foldl (fun a d => a + min 0 (d.1 * ((d.2 : Int) - 1))) base
  let hi := ds.foldl (fun a d => a + max 0 (d.1 * ((d.2 : Int) - 1))) base
  decide (0 ≤ lo) && decide (hi + esz ≤ (2 : Int) ^ 57)

/-- A shape with its outermost dimension at index 0 only (R286). -/
def atIndex0 (ds : List (Int × Nat)) : List (Int × Nat) := ds.dropLast ++ (ds.getLast?.map fun d => (d.1, 1)).toList

/-- The destination bases of a command (R285). -/
def Cmd.bases (c : Cmd) : List Int :=
  if c.opcode = 0x42 then (List.range (bits c.word 10 8 + 1)).map fun (k : Nat) => (c.t.toNat : Int) + (k : Int) * sext 36 (bits c.word 47 12) * 64
  else [(c.t.toNat : Int)]

/-! ## Acceptance -/

/-- The checks of a BCE word at issue beyond its fields (R283): the alignment of its records and index list. -/
def bceCheck (c : Cmd) : Option (Nat × Nat) :=
  let op := c.opcode
  if c.v.toNat % 64 ≠ 0 then some (codeAlignment, c.v.toNat)
  else if op ≤ 0x42 ∧ c.d.toNat % 64 ≠ 0 then some (codeAlignment, c.d.toNat)
  else if (op = 0x43 ∨ op = 0x44) ∧ c.d.toNat % 4 ≠ 0 then some (codeAlignment, c.d.toNat)
  else none

/-- Put a channel of a logical quad. -/
def State.setChan (s : State) (lq k : Nat) (c : Channel8) : State := s.setQuad lq ((s.quadOf lq).setChan k c)

/-- The current command of a channel as it is set aside, where it has started (R427). -/
def Channel8.setAside (k : Channel8) : List SetAside :=
  k.cur.toList.filterMap fun c => if k.started then some ⟨c, k.st, k.wasFenced, k.bytes, k.fcode, k.fva, k.cover⟩ else none

/-- A command becomes the current one of its channel (R277): one that was set aside stands as it stood, FENCED or in FAULT among others (R294, R295). -/
def Channel8.load (k : Channel8) (c : Cmd) : Channel8 :=
  let f : Channel8 := { k with st := .run, cur := some c, started := false, wasFenced := false, posted := none, job := none, ctx := c.ctx, cover := [] }
  match takeFirst (fun e => decide (e.cmd = c)) k.aside with
  | none => f
  | some (e, rest) =>
    { f with
      st := e.st, started := true, wasFenced := e.wasFenced, bytes := e.bytes, fcode := if e.st = .run then k.fcode else e.fcode
      fva := if e.st = .run then k.fva else e.fva, cover := e.cover, aside := rest }

/-- The channel goes on to its next queued command, or is idle (R277). -/
def Channel8.next (k : Channel8) : Channel8 :=
  match k.queue with
  | [] => { k with st := .idle, cur := none, started := false, wasFenced := false, posted := none, job := none, cover := [] }
  | c :: cs => { (k.load c) with queue := cs }

/-- A channel takes a command (R277). -/
def Channel8.take (k : Channel8) (c : Cmd) : Channel8 := if k.cur.isNone then k.load c else { k with queue := k.queue ++ [c] }

/-- Acceptance of a BCE word by its channel (R277). -/
def bceAccept (s : State) (c : Cmd) : WordResult :=
  let k := bits c.word 59 56
  .accepted (s.setChan c.lq k (((s.quadOf c.lq).chan k).take c))

/-- COPY (R284). -/
def execBceCopy (h : Hdr) (o : OpE) (s : State) : Result := engineWord (encodeSeq 0x40 h (.formatE o)) h o s bceCheck bceAccept
/-- COPYMX (R288). -/
def execCopymx (h : Hdr) (o : OpE) (s : State) : Result := engineWord (encodeSeq 0x41 h (.formatE o)) h o s bceCheck bceAccept
/-- COPYSH (R285). -/
def execCopysh (h : Hdr) (o : OpE) (s : State) : Result := engineWord (encodeSeq 0x42 h (.formatE o)) h o s bceCheck bceAccept
/-- GATHER (R286). -/
def execGather (h : Hdr) (o : OpE) (s : State) : Result := engineWord (encodeSeq 0x43 h (.formatE o)) h o s bceCheck bceAccept
/-- SCATTER (R286). -/
def execScatter (h : Hdr) (o : OpE) (s : State) : Result := engineWord (encodeSeq 0x44 h (.formatE o)) h o s bceCheck bceAccept
/-- FILL (R287). -/
def execFill (h : Hdr) (o : OpE) (s : State) : Result := engineWord (encodeSeq 0x45 h (.formatE o)) h o s bceCheck bceAccept

/-! ## The start of a command -/

/-- The access of a BCE command (R277, R442). -/
def bceAccess (c : Cmd) : Access := ⟨c.part, c.lq, c.ctx, masterBce c.lq, .read, .plain, c.tag⟩

/-- A word of class 5 that COPYMX may carry as its follow-on (R288). -/
def followOk (w : Nat) : Bool :=
  decide (0x50 ≤ bits w 127 120) && decide (bits w 127 120 ≤ 0x58) && decide (bits w 119 96 = 0) &&
  match decodeSequencer w with
  | .ok (.mxcfgMode _ _) => false
  | .ok (.ovfstat _ _) => false
  | .ok i => i.wellFormed
  | .refused _ => false

/-- What a command reads when it starts (R279, R281, R286, R288): the eight entries of its source and destination records, a record it does
not have being taken from the other densely, and its follow-on word. -/
def bceRead (s : State) (c : Cmd) : Access.Answer (List (Int × Nat) × List (Int × Nat) × Nat) :=
  let a := bceAccess c
  let op := c.opcode
  match engineRead s a (c.v.toNat % 2 ^ 57) 64 with
  | .wait h => .wait h
  | .fault code v => .fault code v
  | .done b1 =>
    let r1 := shapeEntries b1
    let other : Access.Answer (List (Int × Nat)) :=
      if op ≤ 0x42 ∧ bits c.word 79 75 ≠ 0 then
        match engineRead s a (c.d.toNat % 2 ^ 57) 64 with
        | .wait h => .wait h
        | .fault code v => .fault code v
        | .done b2 => .done (shapeEntries b2)
      else .done (denseShape c.esz ((r1.take c.rank).map (·.2)))
    let follow : Access.Answer Nat :=
      if op = 0x41 then
        match engineRead s a ((c.v.toNat + 64) % 2 ^ 57) 16 with
        | .wait h => .wait h
        | .fault code v => .fault code v
        | .done b3 => .done (ofBytes b3)
      else .done 0
    match other, follow with
    | .wait h, _ => .wait h
    | .fault code v, _ => .fault code v
    | .done _, .wait h => .wait h
    | .done _, .fault code v => .fault code v
    | .done r2, .done w => .done (if op = 0x44 ∨ op = 0x45 then (r2, r1, w) else (r1, r2, w))

/-- A record with an entry that R281 refuses: one at or above the rank that is not zero, or one below it of size 0. -/
def badRecord (c : Cmd) (r : List (Int × Nat)) : Bool := ((r.take c.rank).any fun d => d.2 = 0) || ((r.drop c.rank).any fun d => decide (d ≠ (0, 0)))

/-- The checks of R281 and R288 on what was read: the code and address of the abort. -/
def bceRefuses (c : Cmd) (src dst : List (Int × Nat)) (w : Nat) : Option (Nat × Nat) :=
  let op := c.opcode
  let sd := src.take c.rank
  let dd := dst.take c.rank
  if badRecord c src || badRecord c dst || decide (sd.map (·.2) ≠ dd.map (·.2)) then some (codeBounds, c.v.toNat % 2 ^ 57)
  else if 2 ^ 48 - 1 < sizeProd dd * c.esz then some (codeBounds, c.v.toNat % 2 ^ 57)
  else if op ≠ 0x45 ∧ !inSpace c.s.toNat c.esz (if op = 0x43 then atIndex0 sd else sd) then some (codeBounds, c.s.toNat % 2 ^ 57)
  else if c.bases.any fun b => !inSpace b c.esz (if op = 0x44 then atIndex0 dd else dd) then some (codeBounds, c.t.toNat % 2 ^ 57)
  else if op = 0x41 ∧ !followOk w then some (codeIllegal, (c.v.toNat + 64) % 2 ^ 57)
  else none

/-- Whether a write that a peer has still to perform is one of a channel's element (R206, R290). -/
def PeerOut.isCopy (o : PeerOut) (lq k : Nat) : Bool :=
  match o.owner with
  | .copy l c _ => decide (l = lq) && decide (c = k)
  | _ => false

/-- Nobody waits any more for the writes that a channel has sent to peers, nor for what its command reads there. -/
def disown (s : State) (lq k : Nat) : State :=
  { (((s.quadOf lq).chan k).cur.elim s fun c => s.dropCmdReads c) with peerOut := mapWhere (fun o => o.isCopy lq k) (fun o => { o with owner := .nobody }) s.peerOut }

/-- AN ABORT of a channel's command (R295): the channel is in FAULT, and the queue that issued the command traps. -/
def bceAbort (s : State) (lq k : Nat) (c : Cmd) (code va : Nat) : State :=
  ((disown s lq k).setChan lq k { ((s.quadOf lq).chan k) with st := .fault, posted := none, fcode := code, fva := vaOf va }).abort c code va

/-- A channel that is fenced (R294): the writes of its last element that peers have still to perform are not counted. -/
def Channel8.fence (c : Channel8) (code : Nat) : Channel8 := { c with st := .fenced, wasFenced := true, posted := none, fcode := code }

/-- A FENCE (R294, R419): the channel is FENCED, nothing is signalled and no queue traps. -/
def bceFence (s : State) (lq k code va : Nat) : State :=
  (disown s lq k).setChan lq k { (((s.quadOf lq).chan k).fence code) with fva := vaOf va }

/-- The start of a channel's current command (R290): SEQ rises and BYTES is zero; a reissue is no start. -/
def Channel8.begin (k : Channel8) : Channel8 := if k.started then k else { k with started := true, seq := (k.seq + 1) % 2 ^ 16, bytes := 0 }

/-- BCE_COMMAND_START (R281, R288, R290, R294): the records are read and checked. -/
def execBceCommandStart (lq ch : Nat) (s : State) : Result :=
  let k := (s.quadOf lq).chan ch
  match k.cur with
  | none => .next s
  | some c =>
    if k.st ≠ .run ∨ k.job.isSome ∨ !s.inTurn lq then .next s
    else
      let s := s.struck (bceAccess c) c.v.toNat
      match bceRead s c with
      | .wait h => .next (s.noteHold h)
      | .fault code v => .next (bceAbort (s.setChan lq ch k.begin) lq ch c code v)
      | .done (src, dst, w) =>
        match bceRefuses c src dst w with
        | some (code, v) => .next (bceAbort (s.setChan lq ch k.begin) lq ch c code v)
        | none => .next ((s.dropCmdReads c).setChan lq ch { k.begin with job := some ⟨src.take c.rank, dst.take c.rank, w, none⟩ })

/-! ## Moving elements -/

/-- What moving one element comes to. -/
inductive Moved where
  | done (s : State)
  | wait (h : Option PageHold)
  | fence (s : State) (va : Nat)
  | abort (s : State) (code va : Nat)

/-- The row of an element in the outermost dimension, by which GATHER and SCATTER read their index list (R286). -/
def BceJob.row (b : BceJob) (j : Nat) : Nat := j / sizeProd b.dst.dropLast

/-- The job of a command with the index of an element's row, which is read once for each row; an entry at or above LIMIT aborts (R286). -/
def withIndex (s : State) (c : Cmd) (b : BceJob) (j : Nat) : Access.Answer BceJob :=
  let m := b.row j
  if (c.opcode ≠ 0x43 ∧ c.opcode ≠ 0x44) ∨ b.index.map (·.1) = some m then .done b
  else
    let ia := (c.d.toNat + 4 * m) % 2 ^ 57
    match engineRead s (bceAccess c) ia 4 with
    | .wait h => .wait h
    | .fault code v => .fault code v
    | .done bs => if bits c.word 47 16 ≤ ofBytes bs then .fault codeBounds ia else .done { b with index := some (m, ofBytes bs) }

/-- The addresses of an element: its source and its destinations (R280, R286). -/
def elemAddrs (c : Cmd) (b : BceJob) (j : Nat) : Int × List Int :=
  let x := (b.index.map (·.2)).getD 0
  if c.opcode = 0x43 then ((c.s.toNat : Int) + offsetAt b.src j x, [(c.t.toNat : Int) + offsetOf b.dst j])
  else if c.opcode = 0x44 then ((c.s.toNat : Int) + offsetOf b.src j, [(c.t.toNat : Int) + offsetAt b.dst j x])
  else ((c.s.toNat : Int) + offsetOf b.src j, c.bases.map (· + offsetOf b.dst j))

/-- Whether an address of an element lies outside the address space (R286). -/
def outside (esz : Nat) (a : Int) : Bool := decide (a < 0) || decide ((2 : Int) ^ 57 < a + esz)

/-- Bytes of an access with, for each, whether its granule is poisoned (R292). -/
def markedBytes (s : State) (a : Access) (runs : List (Nat × Nat)) : List (Byte × Bool) :=
  runs.flatMap fun r => (s.readRuns a [r]).map fun b => (b, s.runsPoisoned a [r])

/-- The source bytes of an element (R284, R287, R292). -/
def sourceBytes (s : State) (c : Cmd) (src : Int) : Access.Answer (List (Byte × Bool)) :=
  if c.opcode = 0x45 then .done ((toBytes c.esz c.s.toNat).map fun b => (b, false))
  else
    let a := bceAccess c
    match peerRefusal s a src.toNat, spread s a src.toNat c.esz with
    | some code, _ => .fault code src.toNat
    | none, .hold v => .wait (some (a.holdAt s v))
    | none, .fault code _ v => .fault code v
    | none, .ok runs =>
      match s.readAt a src.toNat runs with
      | .wait h => .wait h
      | .fault code v => .fault code v
      | .done _ => .done (markedBytes s a runs)

/-- Whether the owner tag of a vault frame lets a write of a command pass (R293, R294). -/
def tagPasses (s : State) (c : Cmd) (pa : Nat) : Bool :=
  if rangeOf s pa = .vault then
    let v := (NatMap.get 0 s.own (1024 * vaultPq pa + 256 * vaultBank pa + vaultOff pa / 2 ^ 16)).toNat
    bit v 16 && decide (bits v 15 12 = c.part) && (decide (bits v 11 0 = c.ctx) || decide (bits v 11 0 = 0xFFF))
  else true

/-- The mask of bytes of a granule that `n` bytes at `pa` cover. -/
def coverMask (pa n : Nat) : Nat := (2 ^ n - 1) * 2 ^ (pa % 64)

/-- FILL has written bytes of a granule (R292): a granule all of whose bytes it has written is not poisoned, in the view of the command's context. -/
def coverRun (s : State) (lq ch : Nat) (c : Cmd) (r : Nat × Nat) : State :=
  let k := (s.quadOf lq).chan ch
  let m := NatMap.get 0 k.cover (r.1 / 64) ||| coverMask r.1 r.2
  if m = 2 ^ 64 - 1 then (s.setChan lq ch { k with cover := NatMap.erase k.cover (r.1 / 64) }).putMarkFor c.ctx r.1 false
  else s.setChan lq ch { k with cover := NatMap.insert k.cover (r.1 / 64) m }

/-- The writes of one run of an element, in a granule: its bytes, then its mark (R292), which a peer is told of (log 52). -/
def bceWriteRun (s : State) (lq ch : Nat) (c : Cmd) (r : Nat × Nat) (bs : List (Byte × Bool)) : Option State :=
  let bad := bs.any (·.2)
  match s.writeRun c.part c.ctx r (bs.map (·.1)) (if bad then opPoison else 0) with
  | none => none
  | some s1 =>
    if inPeer s r then some s1
    else
      let s2 := if c.opcode = 0x45 then coverRun s1 lq ch c r else s1
      some (if bad then s2.markFor c.ctx r.1 else s2)

/-- The runs of one write in order; the first whose owner tag refuses it drops it and all after it (R294). -/
def bceWriteRuns (lq ch : Nat) (c : Cmd) (va : Nat) : List (Nat × Nat) → List (Byte × Bool) → State → Moved
  | [], _, s => .done s
  | r :: rs, bs, s =>
    if (detLaunchOf s c.ctx).isNone && !tagPasses s c r.1 then .fence s va
    else
      match bceWriteRun s lq ch c r (bs.take r.2) with
      | none => .abort s codeSnapshot va
      | some s1 => bceWriteRuns lq ch c ((va + r.2) % 2 ^ 57) rs (bs.drop r.2) s1

/-- One write of an element. -/
def bceWrite (s : State) (lq ch : Nat) (c : Cmd) (dst : Int) (bs : List (Byte × Bool)) : Moved :=
  let a := { (bceAccess c) with want := .write, pub := .result }
  let va := dst.toNat
  match spread s a va bs.length with
  | .hold v => .wait (some (a.holdAt s v))
  | .fault code _ v => .abort s code v
  | .ok runs =>
    match writeStand s a va runs with
    | some true => .wait none
    | some false => .abort s codeUncorrectable va
    | none =>
      match bceWriteRuns lq ch c va runs bs s with
      | .done s1 => .done (s1.ownedBy s (.copy lq ch va))
      | x => x

/-- The writes of an element to its destinations in order (R285); one that waits leaves the whole element to be moved again. -/
def bceWrites (lq ch : Nat) (c : Cmd) (bs : List (Byte × Bool)) : List Int → State → Moved
  | [], s => .done s
  | d :: ds, s =>
    match bceWrite s lq ch c d bs with
    | .done s1 => bceWrites lq ch c bs ds s1
    | x => x

/-- One element is moved (R284 to R287). -/
def moveElem (s : State) (lq ch : Nat) (c : Cmd) (b : BceJob) (j : Nat) : Moved :=
  let x := elemAddrs c b j
  if c.opcode ≠ 0x45 && outside c.esz x.1 then .abort s codeBounds (x.1.toNat % 2 ^ 57)
  else
    match x.2.find? (outside c.esz) with
    | some d => .abort s codeBounds (d.toNat % 2 ^ 57)
    | none =>
      match sourceBytes s c x.1 with
      | .wait h => .wait h
      | .fault code v => .abort s code v
      | .done bs => bceWrites lq ch c bs x.2 s

/-- Elements counted: BYTES follows the prefix performed (R290). -/
def countElem (s : State) (lq ch esz : Nat) : State :=
  let k := (s.quadOf lq).chan ch
  s.setChan lq ch { k with bytes := k.bytes + esz }

/-- The 64-byte granule of the destination of an element, by which a turn of the channel is measured (R277). -/
def granuleOf (c : Cmd) (b : BceJob) (j : Nat) : Int := ((c.t.toNat : Int) + offsetOf b.dst j) / 64

/-- An element whose writes have been made counts; one that wrote to a peer counts when the peer has performed it (R206, R290). -/
def elemMoved (s : State) (lq ch esz : Nat) : State :=
  if s.peerOut.any fun o => o.isCopy lq ch then s.setChan lq ch { ((s.quadOf lq).chan ch) with posted := some esz } else countElem s lq ch esz

/-- One turn of a channel (R277): elements from `j` are moved while their destinations lie in one granule, at most `fuel`; the turn ends at an element
that a peer has still to perform. DESIGN CHOICE (log 166): the reads and writes of one command, which R284 leaves unordered but for each write after its own read,
are performed in ascending j. -/
def moveGranule (lq ch : Nat) (c : Cmd) (g : Int) : Nat → Nat → BceJob → State → State
  | 0, _, _, s => s
  | fuel + 1, j, b, s =>
    if sizeProd b.dst ≤ j ∨ granuleOf c b j ≠ g ∨ ((s.quadOf lq).chan ch).posted.isSome then s
    else
      match withIndex s c b j with
      | .wait h => s.noteHold h
      | .fault code v => bceAbort s lq ch c code v
      | .done b1 =>
        let s0 := s.setChan lq ch { ((s.quadOf lq).chan ch) with job := some b1 }
        match moveElem s0 lq ch c b1 j with
        | .wait h => s0.noteHold h
        | .fence s1 va => bceFence s1 lq ch codeOwner va
        | .abort s1 code va => bceAbort s1 lq ch c code va
        | .done s1 => moveGranule lq ch c g fuel (j + 1) b1 (elemMoved (s1.dropCmdReads c) lq ch c.esz)

/-- The upset of a read of a command (R397) strikes the element it reads first. -/
def bceUpset (s : State) (c : Cmd) (b : BceJob) (j : Nat) : State :=
  if c.opcode = 0x45 then s
  else
    match withIndex s c b j with
    | .done b1 => s.struck (bceAccess c) (elemAddrs c b1 j).1.toNat
    | _ => s

/-- A peer has performed a write of a channel's element (R206, R290): with the last of them the element counts. -/
def copyAnswered (s : State) (lq ch : Nat) : State :=
  let k := (s.quadOf lq).chan ch
  match k.posted with
  | none => s
  | some n => if s.peerOut.any fun o => o.isCopy lq ch then s else s.setChan lq ch { k with posted := none, bytes := k.bytes + n }

/-- A peer has refused or lost a write of a channel's element (R295, R454): its command aborts. -/
def copyFailed (s : State) (lq ch code va : Nat) : State :=
  let k := (s.quadOf lq).chan ch
  match k.cur with
  | some c => if k.posted.isSome then bceAbort s lq ch c code va else s
  | none => s

/-- BCE_GRANULE_TRANSFER (R277, R284, R290, R294). -/
def execBceGranuleTransfer (lq ch : Nat) (s : State) : Result :=
  let k := (s.quadOf lq).chan ch
  match k.cur, k.job with
  | some c, some b =>
    if k.st ≠ .run ∨ !s.inTurn lq ∨ k.posted.isSome then .next s
    else
      let j := k.bytes / c.esz
      .next (moveGranule lq ch c (granuleOf c b j) 64 j b (bceUpset s c b j))
  | _, _ => .next s

/-! ## The end of a command -/

/-- The follow-on of COPYMX as a command of its issuing queue, with the registers and the mode of its issue (R288). -/
def Cmd.followOn (c : Cmd) (w : Nat) : Cmd :=
  let r := fun i => if i = 0 then (0 : Word64) else NatMap.get 0 c.regs i
  { c with
    word := w, d := r (bits w 79 75), s := r (bits w 74 70), t := r (bits w 69 65), v := r (bits w 64 60)
    sig := if bit w 95 then some (bits w 94 87, bits w 86 80) else none }

/-- A matrix tile takes a command: ACCPART and OVFSTAT into the bypass slot, the others into its queue (R312). -/
def Mxt.take (x : Mxt) (c : Cmd) : Mxt :=
  if c.opcode = 0x56 ∨ c.opcode = 0x58 then { x with bypass := some ⟨c, false, 0, 0, false, false⟩ } else { x with queue := x.queue ++ [⟨c, false, 0, 0, false, false⟩] }

/-- BCE_COMMAND_COMPLETE (R278, R288, R289): every element is written; the entry is exchanged, the follow-on submitted once its matrix tile can take it,
and the signal applies. -/
def execBceCommandComplete (lq ch : Nat) (s : State) : Result :=
  let k := (s.quadOf lq).chan ch
  match k.cur, k.job with
  | some c, some b =>
    let n := bits c.word 5 0
    if k.st ≠ .run ∨ !s.inTurn lq ∨ k.bytes ≠ sizeProd b.dst * c.esz then .next s
    else if bit c.word 6 && !s.pubValid c.part n then .next (bceAbort s lq ch c codePermission (c.t.toNat % 2 ^ 57))
    else if c.opcode = 0x41 && !canAccept s lq b.follow then .next s
    else
      let s1 := s.setChan lq ch k.next
      let s2 := if bit c.word 6 then s1.publishFor c.ctx c.part n else s1
      let m := bits b.follow 59 56
      let s3 := if c.opcode = 0x41 then s2.setQuad lq ((s2.quadOf lq).setMx m (((s2.quadOf lq).mx m).take (c.followOn b.follow))) else s2
      .next (s3.complete c)
  | _, _ => .next s

/-! ## Channel control -/

/-- RESUME (R294, R297): a fenced command is reissued, but for one that a save fenced; a faulted command is dropped and the next starts. -/
def Channel8.resume (k : Channel8) : Channel8 :=
  match k.st with
  | .fenced => if k.fcode = codePreempt then k else { k with st := .run, job := none }
  | .fault => k.next
  | _ => k

/-- DISCARD (R297). -/
def Channel8.discard (k : Channel8) : Channel8 :=
  match k.st with
  | .fenced | .fault => { k with st := .idle, cur := none, queue := [], started := false, wasFenced := false, job := none, cover := [], aside := [] }
  | _ => k

/-- BCE_RESUME (R297). -/
def execBceResume (lq ch : Nat) (s : State) : Result := .next (s.setChan lq ch ((s.quadOf lq).chan ch).resume)
/-- BCE_DISCARD (R297). -/
def execBceDiscard (lq ch : Nat) (s : State) : Result := .next (s.setChan lq ch ((s.quadOf lq).chan ch).discard)

end Sys2Proof.Machine
end

