-- ==== Sys2Proof/Machine/Crypto.lean ====
section
/-! DEFINITION. The hash and signature schemes that boot and attestation name (spec 21 R457, R458, R462): SHA-384, RSASSA-PSS with SHA-384 and MGF1, and
SLH-DSA-SHA2-192s of FIPS 205. What the standards fix that the spec names is presumed from them (log 12). -/

namespace Sys2Proof.Machine

/-! ## SHA-2 -/

/-- The big-endian bytes of a number. -/
def toBe (n x : Nat) : List Byte := (toBytes n x).reverse
/-- The number that big-endian bytes are. -/
def ofBe (bs : List Byte) : Nat := ofBytes bs.reverse

/-- A member of the SHA-2 family: its word width, its rounds, and the shifts of its four mixing functions. -/
structure Sha2 where
  width : Nat
  rounds : Nat
  upper0 : Nat × Nat × Nat
  upper1 : Nat × Nat × Nat
  lower0 : Nat × Nat × Nat
  lower1 : Nat × Nat × Nat

/-- SHA-256's form. -/
def sha2Small : Sha2 := ⟨32, 64, (2, 13, 22), (6, 11, 25), (7, 18, 3), (17, 19, 10)⟩
/-- SHA-512's form. -/
def sha2Large : Sha2 := ⟨64, 80, (28, 34, 39), (14, 18, 41), (1, 8, 7), (19, 61, 6)⟩

/-- The round constants: the first 64 bits of the fractional parts of the cube roots of the first 80 primes. The small form takes their upper halves. -/
def sha2Consts : List Nat :=
  [0x428A2F98D728AE22, 0x7137449123EF65CD, 0xB5C0FBCFEC4D3B2F, 0xE9B5DBA58189DBBC,
   0x3956C25BF348B538, 0x59F111F1B605D019, 0x923F82A4AF194F9B, 0xAB1C5ED5DA6D8118,
   0xD807AA98A3030242, 0x12835B0145706FBE, 0x243185BE4EE4B28C, 0x550C7DC3D5FFB4E2,
   0x72BE5D74F27B896F, 0x80DEB1FE3B1696B1, 0x9BDC06A725C71235, 0xC19BF174CF692694] ++
  [0xE49B69C19EF14AD2, 0xEFBE4786384F25E3, 0x0FC19DC68B8CD5B5, 0x240CA1CC77AC9C65,
   0x2DE92C6F592B0275, 0x4A7484AA6EA6E483, 0x5CB0A9DCBD41FBD4, 0x76F988DA831153B5,
   0x983E5152EE66DFAB, 0xA831C66D2DB43210, 0xB00327C898FB213F, 0xBF597FC7BEEF0EE4,
   0xC6E00BF33DA88FC2, 0xD5A79147930AA725, 0x06CA6351E003826F, 0x142929670A0E6E70] ++
  [0x27B70A8546D22FFC, 0x2E1B21385C26C926, 0x4D2C6DFC5AC42AED, 0x53380D139D95B3DF,
   0x650A73548BAF63DE, 0x766A0ABB3C77B2A8, 0x81C2C92E47EDAEE6, 0x92722C851482353B,
   0xA2BFE8A14CF10364, 0xA81A664BBC423001, 0xC24B8B70D0F89791, 0xC76C51A30654BE30,
   0xD192E819D6EF5218, 0xD69906245565A910, 0xF40E35855771202A, 0x106AA07032BBD1B8] ++
  [0x19A4C116B8D2D0C8, 0x1E376C085141AB53, 0x2748774CDF8EEB99, 0x34B0BCB5E19B48A8,
   0x391C0CB3C5C95A63, 0x4ED8AA4AE3418ACB, 0x5B9CCA4F7763E373, 0x682E6FF3D6B2B8A3,
   0x748F82EE5DEFB2FC, 0x78A5636F43172F60, 0x84C87814A1F0AB72, 0x8CC702081A6439EC,
   0x90BEFFFA23631E28, 0xA4506CEBDE82BDE9, 0xBEF9A3F7B2C67915, 0xC67178F2E372532B] ++
  [0xCA273ECEEA26619C, 0xD186B8C721C0C207, 0xEADA7DD6CDE0EB1E, 0xF57D4F7FEE6ED178,
   0x06F067AA72176FBA, 0x0A637DC5A2C898A6, 0x113F9804BEF90DAE, 0x1B710B35131C471B,
   0x28DB77F523047D84, 0x32CAAB7B40C72493, 0x3C9EBE0A15C9BEBC, 0x431D67C49C100D4C,
   0x4CC5D4BECB3E42B6, 0x597F299CFC657E2A, 0x5FCB6FAB3AD6FAEC, 0x6C44198C4A475817]

/-- The initial value of SHA-512, whose upper halves are that of SHA-256. -/
def sha512Init : List Nat :=
  [0x6A09E667F3BCC908, 0xBB67AE8584CAA73B, 0x3C6EF372FE94F82B, 0xA54FF53A5F1D36F1,
   0x510E527FADE682D1, 0x9B05688C2B3E6C1F, 0x1F83D9ABFB41BD6B, 0x5BE0CD19137E2179]
/-- The initial value of SHA-384. -/
def sha384Init : List Nat :=
  [0xCBBB9D5DC1059ED8, 0x629A292A367CD507, 0x9159015A3070DD17, 0x152FECD8F70E5939,
   0x67332667FFC00B31, 0x8EB44A8768581511, 0xDB0C2E0D64F98FA7, 0x47B5481DBEFA4FA4]

/-- A constant in a form's width. -/
def Sha2.const (p : Sha2) (x : Nat) : Nat := x / 2 ^ (64 - p.width)
/-- Rotation right in a form's width. -/
def Sha2.rot (p : Sha2) (x n : Nat) : Nat := (x / 2 ^ n + x * 2 ^ (p.width - n)) % 2 ^ p.width
/-- A mixing function of three rotations. -/
def Sha2.mix (p : Sha2) (t : Nat × Nat × Nat) (x : Nat) : Nat := p.rot x t.1 ^^^ p.rot x t.2.1 ^^^ p.rot x t.2.2
/-- A mixing function of the schedule: two rotations and a shift. -/
def Sha2.stir (p : Sha2) (t : Nat × Nat × Nat) (x : Nat) : Nat := p.rot x t.1 ^^^ p.rot x t.2.1 ^^^ (x / 2 ^ t.2.2)

/-- The message schedule, the latest word first, grown by a number of words. -/
def Sha2.schedule (p : Sha2) : Nat → List Nat → List Nat
  | 0, ws => ws
  | n + 1, ws =>
    p.schedule n (((p.stir p.lower1 (ws.getD 1 0) + ws.getD 6 0 + p.stir p.lower0 (ws.getD 14 0) + ws.getD 15 0) % 2 ^ p.width) :: ws)

/-- One round on the eight working variables, with the sum of its constant and its word. -/
def Sha2.round (p : Sha2) (v : List Nat) (kw : Nat) : List Nat :=
  let at' := fun i => v.getD i 0
  let e := at' 4
  let t := at' 7 + p.mix p.upper1 e + ((e &&& at' 5) ^^^ ((2 ^ p.width - 1 - e) &&& at' 6)) + kw
  let u := p.mix p.upper0 (at' 0) + ((at' 0 &&& at' 1) ^^^ (at' 0 &&& at' 2) ^^^ (at' 1 &&& at' 2))
  [(t + u) % 2 ^ p.width, at' 0, at' 1, at' 2, (at' 3 + t) % 2 ^ p.width, e, at' 5, at' 6]

/-- One block into the chaining value. -/
def Sha2.block (p : Sha2) (v : List Nat) (bs : List Byte) : List Nat :=
  let ws := (List.range 16).map fun i => ofBe ((bs.drop (p.width / 8 * i)).take (p.width / 8))
  let kws := List.zipWith (fun k w => p.const k + w) (sha2Consts.take p.rounds) (p.schedule (p.rounds - 16) ws.reverse).reverse
  List.zipWith (fun x y => (x + y) % 2 ^ p.width) v (kws.foldl p.round v)

/-- Blocks in order. -/
def Sha2.blocks (p : Sha2) : Nat → List Byte → List Nat → List Nat
  | 0, _, v => v
  | n + 1, bs, v => p.blocks n (bs.drop (2 * p.width)) (p.block v (bs.take (2 * p.width)))

/-- The hash of a message from an initial value, cut to a number of bytes. -/
def Sha2.hash (p : Sha2) (init : List Nat) (n : Nat) (m : List Byte) : List Byte :=
  let size := 2 * p.width
  let tail := p.width / 4
  let zeros := (2 * size - (m.length + 1 + tail) % size) % size
  let bs := m ++ 0x80 :: (List.replicate zeros 0 ++ toBe tail (8 * m.length))
  ((p.blocks (bs.length / size) bs (init.map p.const)).flatMap (toBe (p.width / 8))).take n

/-- SHA-256. -/
def sha256 (m : List Byte) : List Byte := sha2Small.hash sha512Init 32 m
/-- SHA-384 (R457). -/
def sha384 (m : List Byte) : List Byte := sha2Large.hash sha384Init 48 m
/-- SHA-512. -/
def sha512 (m : List Byte) : List Byte := sha2Large.hash sha512Init 64 m

/-- MGF1 with a hash of `h` bytes. -/
def mgf1 (hash : List Byte → List Byte) (h : Nat) (seed : List Byte) (n : Nat) : List Byte :=
  ((List.range ((n + h - 1) / h)).flatMap fun i => hash (seed ++ toBe 4 i)).take n

/-! ## RSASSA-PSS -/

/-- The power `b ^ e` modulo `m`, of whose exponent `fuel` bits count. -/
def powMod (b m : Nat) : Nat → Nat → Nat
  | 0, _ => 1 % m
  | fuel + 1, e =>
    let h := powMod b m fuel (e / 2)
    if e % 2 = 0 then h * h % m else h * h % m * b % m

/-- Bytes combined by exclusive or. -/
def xorBytes (a b : List Byte) : List Byte := List.zipWith (· ^^^ ·) a b

/-- The masked block of a salt, under the hash of its message block (R457). -/
def pssBlock (m salt : List Byte) : List Byte × List Byte :=
  let h := sha384 (List.replicate 8 0 ++ sha384 m ++ salt)
  let db := List.replicate 286 0 ++ 1 :: salt
  match xorBytes db (mgf1 sha384 48 h 335) with
  | b :: bs => ((b &&& 0x7F) :: bs, h)
  | [] => ([], h)

/-- The encoded message of a signature (R457): the top bit of 3,072 is clear. -/
def pssEncode (m salt : List Byte) : List Byte := (pssBlock m salt).1 ++ (pssBlock m salt).2 ++ [0xBC]

/-- Whether an encoded message is one of a message under some salt of 48 bytes (R457). -/
def pssOk (m em : List Byte) : Bool :=
  let h := (em.drop 335).take 48
  let salt := xorBytes ((em.drop 287).take 48) ((mgf1 sha384 48 h 335).drop 287)
  decide (em.length = 384) && decide (em = pssEncode m salt)

/-- Whether an RSASSA-PSS signature of a message verifies under a key (R457, R458): 384 bytes of modulus and the exponent, big-endian (log 12). -/
def rsaVerifies (key sig m : List Byte) : Bool :=
  let n := ofBe (key.take 384)
  let e := ofBe (key.drop 384)
  decide (sig.length = 384) && decide (2 ^ 3071 ≤ n) && decide (ofBe sig < n) && pssOk m (toBe 384 (powMod (ofBe sig) n 3072 e))

/-- The RSASSA-PSS signature of a message under a modulus and a private exponent, with the salt given (R462). -/
def rsaSign (n d : Nat) (m salt : List Byte) : List Byte := toBe 384 (powMod (ofBe (pssEncode m salt)) n 3072 d)

/-! ## SLH-DSA-SHA2-192s -/

/-- Bytes of a node (FIPS 205: n = 24; h = 63 in d = 7 layers of height 9; k = 17 FORS trees of height a = 14; w = 16; m = 39). -/
def slhN : Nat := 24

/-- An address, whose last three words depend on its kind: 0 WOTS hash, 1 WOTS key, 2 tree, 3 FORS tree, 4 FORS roots, 5 WOTS secret, 6 FORS secret. -/
structure Adrs where
  layer : Nat
  tree : Nat
  kind : Nat
  pair : Nat
  height : Nat
  index : Nat

/-- The compressed address. -/
def Adrs.bytes (a : Adrs) : List Byte := toBe 1 a.layer ++ toBe 8 a.tree ++ toBe 1 a.kind ++ toBe 4 a.pair ++ toBe 4 a.height ++ toBe 4 a.index

/-- F: one node, by SHA-256. -/
def slhF (seed : List Byte) (a : Adrs) (m : List Byte) : List Byte := (sha256 (seed ++ List.replicate 40 0 ++ a.bytes ++ m)).take slhN
/-- H and T: more than one node, by SHA-512. -/
def slhT (seed : List Byte) (a : Adrs) (m : List Byte) : List Byte := (sha512 (seed ++ List.replicate 104 0 ++ a.bytes ++ m)).take slhN

/-- Node `i` of a list of nodes. -/
def nodeAt (bs : List Byte) (i : Nat) : List Byte := (bs.drop (slhN * i)).take slhN

/-- `n` digits of `b` bits from the most significant bits of bytes. -/
def digits (bs : List Byte) (b n : Nat) : List Nat :=
  let x := ofBe bs
  (List.range n).map fun i => x / 2 ^ (8 * bs.length - b * (i + 1)) % 2 ^ b

/-- A chain of F from step `i`, `n` steps on. -/
def chain (seed : List Byte) (a : Adrs) : Nat → Nat → List Byte → List Byte
  | 0, _, x => x
  | n + 1, i, x => chain seed a n (i + 1) (slhF seed { a with index := i } x)

/-- The 51 digits of a node that WOTS signs: 48 of the node, 3 of the checksum. -/
def wotsDigits (m : List Byte) : List Nat :=
  let ds := digits m 4 48
  ds ++ digits (toBe 2 (16 * (ds.map fun d => 15 - d).foldl (· + ·) 0)) 4 3

/-- The WOTS key of a signature. -/
def wotsKey (seed sig m : List Byte) (a : Adrs) : List Byte :=
  let tops := (wotsDigits m).zipIdx.flatMap fun d => chain seed { a with kind := 0, height := d.2, index := 0 } (15 - d.1) d.1 (nodeAt sig d.2)
  slhT seed { a with kind := 1, height := 0, index := 0 } tops

/-- Up a path of siblings from node `i` at a height. -/
def climb (seed : List Byte) (a : Adrs) : List (List Byte) → Nat → Nat → List Byte → List Byte
  | [], _, _, x => x
  | y :: ys, h, i, x => climb seed a ys (h + 1) (i / 2) (slhT seed { a with height := h + 1, index := i / 2 } (if i % 2 = 0 then x ++ y else y ++ x))

/-- The root that the signature of one layer leads to: 51 chains, then 9 siblings. -/
def layerRoot (seed sig m : List Byte) (layer tree leaf : Nat) : List Byte :=
  let x := wotsKey seed sig m ⟨layer, tree, 0, leaf, 0, 0⟩
  climb seed ⟨layer, tree, 2, 0, 0, 0⟩ ((List.range 9).map fun i => nodeAt sig (51 + i)) 0 leaf x

/-- The root that a hypertree signature leads to, from a layer on. -/
def hyperRoot (seed sig : List Byte) : Nat → Nat → Nat → Nat → List Byte → List Byte
  | 0, _, _, _, x => x
  | n + 1, layer, tree, leaf, x => hyperRoot seed (sig.drop (60 * slhN)) n (layer + 1) (tree / 512) (tree % 512) (layerRoot seed sig x layer tree leaf)

/-- The FORS key that a FORS signature leads to: each of the 17 trees gives a secret and 14 siblings. -/
def forsKey (seed sig md : List Byte) (tree leaf : Nat) : List Byte :=
  let a : Adrs := ⟨0, tree, 3, leaf, 0, 0⟩
  let roots := (digits md 14 17).zipIdx.flatMap fun d =>
    let at' := fun j => nodeAt sig (15 * d.2 + j)
    let i := 2 ^ 14 * d.2 + d.1
    climb seed a ((List.range 14).map fun j => at' (j + 1)) 0 i (slhF seed { a with index := i } (at' 0))
  slhT seed { a with kind := 4 } roots

/-- What the digest of a message selects: the 30 bytes that FORS signs, the tree and the leaf. -/
def slhSelect (r seed root m : List Byte) : List Byte × Nat × Nat :=
  let d := mgf1 sha512 64 (r ++ seed ++ sha512 (r ++ seed ++ root ++ m)) 39
  (d.take 30, ofBe ((d.drop 30).take 7) % 2 ^ 54, ofBe ((d.drop 37).take 2) % 2 ^ 9)

/-- The message of the pure form under an empty context. -/
def slhPure (m : List Byte) : List Byte := 0 :: 0 :: m

/-- Whether an SLH-DSA signature of a message verifies under a key (R457, R458): its seed and its root. -/
def slhVerifies (key sig m : List Byte) : Bool :=
  let seed := key.take slhN
  let root := key.drop slhN
  let s := slhSelect (sig.take slhN) seed root (slhPure m)
  decide (key.length = 48) && decide (sig.length = 16224) &&
    decide (hyperRoot seed (sig.drop (256 * slhN)) 7 0 s.2.1 s.2.2 (forsKey seed (sig.drop slhN) s.1 s.2.1 s.2.2) = root)

/-- A secret value of a private key. -/
def slhSecret (seed sk : List Byte) (a : Adrs) : List Byte := slhF seed a sk

/-- The WOTS key of a leaf. -/
def wotsOwn (seed sk : List Byte) (a : Adrs) : List Byte :=
  let tops := (List.range 51).flatMap fun i =>
    chain seed { a with kind := 0, height := i, index := 0 } 15 0 (slhSecret seed sk { a with kind := 5, height := i, index := 0 })
  slhT seed { a with kind := 1, height := 0, index := 0 } tops

/-- The WOTS signature of a node. -/
def wotsSign (seed sk m : List Byte) (a : Adrs) : List Byte :=
  (wotsDigits m).zipIdx.flatMap fun d =>
    chain seed { a with kind := 0, height := d.2, index := 0 } d.1 0 (slhSecret seed sk { a with kind := 5, height := d.2, index := 0 })

/-- A node of a tree over leaves. -/
def treeAt (seed : List Byte) (a : Adrs) (leaf : Nat → List Byte) : Nat → Nat → List Byte
  | 0, i => leaf i
  | h + 1, i => slhT seed { a with height := h + 1, index := i } (treeAt seed a leaf h (2 * i) ++ treeAt seed a leaf h (2 * i + 1))

/-- The siblings of leaf `i` up to a height. -/
def siblingPath (seed : List Byte) (a : Adrs) (leaf : Nat → List Byte) (n i : Nat) : List Byte :=
  (List.range n).flatMap fun h => treeAt seed a leaf h ((i / 2 ^ h) ^^^ 1)

/-- A leaf of a tree of one layer. -/
def layerLeaf (seed sk : List Byte) (layer tree i : Nat) : List Byte := wotsOwn seed sk ⟨layer, tree, 0, i, 0, 0⟩

/-- The hypertree signature of a node. -/
def hyperSign (seed sk : List Byte) : Nat → Nat → Nat → Nat → List Byte → List Byte
  | 0, _, _, _, _ => []
  | n + 1, layer, tree, leaf, x =>
    let sig := wotsSign seed sk x ⟨layer, tree, 0, leaf, 0, 0⟩ ++ siblingPath seed ⟨layer, tree, 2, 0, 0, 0⟩ (layerLeaf seed sk layer tree) 9 leaf
    sig ++ hyperSign seed sk n (layer + 1) (tree / 512) (tree % 512) (layerRoot seed sig x layer tree leaf)

/-- The FORS signature of 30 bytes. -/
def forsSign (seed sk md : List Byte) (tree leaf : Nat) : List Byte :=
  let a : Adrs := ⟨0, tree, 3, leaf, 0, 0⟩
  let secret := fun i => slhSecret seed sk { a with kind := 6, index := i }
  (digits md 14 17).zipIdx.flatMap fun d =>
    let i := 2 ^ 14 * d.2 + d.1
    secret i ++ siblingPath seed a (fun j => slhF seed { a with index := j } (secret j)) 14 i

/-- The root of a private key's top tree. -/
def slhRoot (seed sk : List Byte) : List Byte := treeAt seed ⟨6, 0, 2, 0, 0, 0⟩ (layerLeaf seed sk 6 0) 9 0

/-- HMAC with SHA-512 under a key of at most a block. -/
def hmac512 (key m : List Byte) : List Byte :=
  let pad := fun (b : Byte) => (List.range 128).map fun i => key.getD i 0 ^^^ b
  sha512 (pad 0x5C ++ sha512 (pad 0x36 ++ m))

/-- The SLH-DSA signature of a message (R462) under a private key: the secret seed, the seed of its randomizer, and the public seed, with the randomness
given. -/
def slhSign (key m rand : List Byte) : List Byte :=
  let sk := key.take slhN
  let prf := nodeAt key 1
  let seed := nodeAt key 2
  let x := slhPure m
  let r := (hmac512 prf (rand ++ x)).take slhN
  let s := slhSelect r seed (slhRoot seed sk) x
  let fors := forsSign seed sk s.1 s.2.1 s.2.2
  r ++ fors ++ hyperSign seed sk 7 0 s.2.1 s.2.2 (forsKey seed fors s.1 s.2.1 s.2.2)

end Sys2Proof.Machine
end

