-- ==== Sys2Proof/Machine/Block.lean ====
section
/-! DEFINITION. Block images and what configuration load checks (spec 03 R86 to R88, R92; 05 R140). -/

namespace Sys2Proof.Machine

/-- One bit of a CRC-16/CCITT-FALSE, most significant bit first. -/
def crc16Bit (c : Nat) : Nat := if bit c 15 then ((2 * c) % 2 ^ 16) ^^^ 0x1021 else (2 * c) % 2 ^ 16

/-- One byte of it. -/
def crc16Byte (c : Nat) (b : Byte) : Nat :=
  crc16Bit (crc16Bit (crc16Bit (crc16Bit (crc16Bit (crc16Bit (crc16Bit (crc16Bit (c ^^^ (b.toNat * 2 ^ 8)))))))))

/-- HCHK over the header bytes 2 to 15 (R87). -/
def headerCheck (header : List Byte) : Nat := ((header.drop 2).take 14).foldl crc16Byte 0xFFFF

/-- A block image as its bytes say (R86, R88): the header as a number, and the words of slots and of the occupancy table. -/
structure BlockImage where
  header : Nat
  check : Nat
  words : List Nat
  occ : List Nat
deriving DecidableEq, Repr

/-- Instructions of a block, from its header. -/
def icnt (header : Nat) : Nat := bits header 123 117 + 1

/-- Bytes of a block image, from its header (R86). The bytes between the last instruction and the occupancy table, which are ignored, are read with the
others, so that a page there which cannot be read faults: the model's choice (log 144). -/
def imageLength (header : Nat) : Nat := max (16 + 8 * icnt header) (8 * bits header 95 87 + 8 * (2 + bits header 116 112))

/-- Eight-byte words of an image. -/
def wordsAt (bs : List Byte) (off : Nat) : Nat → List Nat
  | 0 => []
  | n + 1 => ofBytes ((bs.drop off).take 8) :: wordsAt bs (off + 8) n

/-- Read an image of bytes. -/
def blockImage (bs : List Byte) : BlockImage :=
  let h := ofBytes (bs.take 16)
  ⟨h, headerCheck (bs.take 16), wordsAt bs 16 (icnt h), wordsAt bs (8 * bits h 95 87) (2 + bits h 116 112)⟩

/-- Header and occupancy table within their limits (R86 to R88, R92 item 12). -/
def BlockImage.headerOk (x : BlockImage) : Bool :=
  let h := x.header
  let o1 := x.occ.getD 1 0
  decide (bits h 127 124 = 1) && decide (bits h 116 112 ≤ 16) && decide (bits h 111 107 ≤ 16) && decide (bits h 97 96 = 0) &&
  decide (bits h 78 16 = 0) && decide (icnt h + 2 ≤ bits h 95 87) && decide (ceilDiv (icnt h) 32 ≤ bits h 86 79) &&
  decide (bits h 86 79 ≤ 144) && decide (bits h 15 0 = x.check) &&
  decide (bits o1 63 47 ≤ 65536) && decide (bits o1 46 30 ≤ bits o1 63 47) && decide (bits o1 26 24 ≤ bits o1 29 27) &&
  decide (bits o1 23 0 = 0) &&
  (x.occ.drop 2).all fun w => decide (1 ≤ w) && decide (w ≤ 65536)

/-- The block that an image and the entries of a placement table give (R83, R86, R88). -/
def BlockImage.block (x : BlockImage) (places : List Nat) : Block :=
  let h := x.header
  let o0 := x.occ.getD 0 0
  let o1 := x.occ.getD 1 0
  { nin := bits h 116 112, nout := bits h 111 107, tshift := bits h 106 102, det := bit h 101, spill := bit h 100, psr := bit h 99
    tfr := bit h 98, minpe := bits h 86 79, wsb := bits o0 63 32, mse := bits o0 31 0, high := bits o1 63 47, low := bits o1 46 30
    imax := bits o1 29 27, imin := bits o1 26 24, inocc := x.occ.drop 2, words := x.words
    places := places.map fun p => (bits p 15 8, bits p 4 0) }

/-- The instruction of a word, where decoding and its own entry allow it (R92 items 1 to 8). -/
def slotInstr (w : Nat) : Option Instr :=
  match (decodeFabric w).instr? with
  | none => none
  | some i => if i.wellFormed then some i else none

/-- The targets of a fabric word. -/
def wordTargets (w : Nat) : List Target :=
  match (decodeFabric w).instr?.bind fun i => fabricForm i with
  | none => []
  | some (f, _) => f.t0.toList ++ f.t1.toList

/-- A word with another type, and with a predicate match in place of the reserved one. -/
def retyped (w ty : Nat) : Nat :=
  let pm := if bits w 47 46 = 3 then 1 else bits w 47 46
  w / 2 ^ 56 * 2 ^ 56 + ty * 2 ^ 52 + bits w 51 48 * 2 ^ 48 + pm * 2 ^ 46 + w % 2 ^ 46

/-- The instruction whose ports a word uses (R91): its own, or, where its type or predicate match is reserved, that of its opcode, whose ports are
defined all the same. -/
def portsInstr (w : Nat) : Option Instr :=
  ((decodeFabric w).instr?).orElse fun _ => (bits w 55 52 :: List.range 16).findSome? fun ty => (decodeFabric (retyped w ty)).instr?

/-- A target names a slot of the block and a port its instruction uses (R92 item 9). -/
def targetLands (words : List Nat) (t : Target) : Bool :=
  decide (t.slot.toNat < words.length) &&
  match portsInstr (words.getD t.slot.toNat 0) with
  | none => false
  | some i => portUsed i t.port

/-- The index that an INPUT or a data OUTPUT takes (R140), with whether it is an input. -/
def portIndex (i : Instr) : Option (Bool × Nat) :=
  match i with
  | .input f => some (true, bits f.imm.toNat 3 0)
  | .output f => if bit f.imm.toNat 4 then none else some (false, bits f.imm.toNat 3 0)
  | _ => none

/-- The rules of R92 items 11 and R140 that look at the block around an instruction. -/
def blockRules (b : Block) (i : Instr) : Bool :=
  match i with
  | .steer f => !b.psr || bit f.sub.toNat 0
  | .stale _ => !b.det
  | .ctxnew _ => !b.det
  | .input f => decide (bits f.imm.toNat 3 0 < b.nin) && (decide (bits f.imm.toNat 12 5 ≠ 255) || !bit f.imm.toNat 4)
  | .output f => bit f.imm.toNat 4 || decide (bits f.imm.toNat 3 0 < b.nout)
  | .lexit f => match f.t1 with
    | none => false
    | some t => match (decodeFabric (b.words.getD t.slot.toNat 0)).instr? with
      | some (.lcarry _) => true
      | _ => false
  | _ => true

/-- A slot of a block against R92 items 1 to 11, 13 and R140; `pes` is the region's PE count, `raw` the entries of the placement table. DESIGN CHOICE (log 160): of
two slots that share a defect (two targets of one port, two slots in one place, two INPUTs or OUTPUTs of one index) the later fails; R92 does not say. -/
def slotOk (b : Block) (raw : List Nat) (pes s : Nat) : Bool :=
  match slotInstr (b.words.getD s 0) with
  | none => false
  | some i =>
    let mine := wordTargets (b.words.getD s 0)
    let before := (b.words.take s).flatMap wordTargets
    let earlier := (b.words.take s).filterMap fun w => (slotInstr w).bind portIndex
    let p := raw.getD s 0
    mine.all (fun t => targetLands b.words t && !before.contains t) && blockRules b i &&
    (match portIndex i with
      | none => true
      | some x => !earlier.contains x) &&
    decide (bits p 7 5 = 0) && decide (bits p 15 8 < pes) && !((b.places.take s).contains (b.places.getD s (0, 0)))

/-- The first slot that fails, or 0xFF where the header or the occupancy table does (R92); none where the block is valid. -/
def checkBlock (x : BlockImage) (raw : List Nat) (pes : Nat) : Option Nat :=
  if !x.headerOk then some 0xFF
  else (List.range x.words.length).find? fun s => !slotOk (x.block raw) raw pes s

end Sys2Proof.Machine
end

