-- ==== Sys2Proof/Machine/Arbiter.lean ====
section
/-! DEFINITION. How the launch arbiter judges a launch (spec 02 R36 to R49; 03 R81 to R85; 05 R137) and writes completion records (02 R47; 20
R441); the results of child launches (05 R159). -/

namespace Sys2Proof.Machine

/-- BLOCK_INVALID (R391). -/
def codeInvalid : Nat := 0x01
/-- LAUNCH_REFUSED (R391). -/
def codeRefused : Nat := 0x07

/-- Why a launch is not taken on: a read must wait, or it is refused with a reason, a stage and, where the reason has one, a quantity needed and
offered (R46, R47). -/
inductive Verdict where
  | wait (h : Option PageHold)
  | refuse (reason stage : Nat) (short : Option (Nat × Nat))
deriving DecidableEq, Repr

/-- No single stage (R47). -/
def noStage : Nat := 0xFFFF

/-! ## Reading images -/

/-- Read bytes of an image, granule by granule; the first fault is a refusal FETCH with the address and the code (R48). -/
def fetchFuel (s : State) (a : Access) (stage : Nat) : Nat → Nat → Nat → Except Verdict (List Byte)
  | 0, _, _ => .ok []
  | fuel + 1, va, n =>
    if n = 0 then .ok []
    else
      let k := min n (64 - va % 64)
      match s.readVa a (va % 2 ^ 57) k with
      | .wait h => .error (.wait h)
      | .fault c v => .error (.refuse 10 stage (some (v, c % 256)))
      | .done (bs, bad) =>
        if bad then .error (.refuse 10 stage (some (va % 2 ^ 57, codeUncorrectable)))
        else (fetchFuel s a stage fuel (va + k) (n - k)).map fun r => bs ++ r

/-- Read `n` bytes of an image. -/
def fetch (s : State) (a : Access) (stage va n : Nat) : Except Verdict (List Byte) := fetchFuel s a stage (n / 64 + 2) va n

/-- A little-endian field of bytes. -/
def fieldAt (bs : List Byte) (off n : Nat) : Nat := ofBytes ((bs.drop off).take n)

/-! ## The launch record -/

/-- How wide a domain is, the widest first (R38). -/
def domainRank (d : Nat) : Nat := if d = 6 then 0 else d + 1

/-- Instances of a hardware domain in a device (R38). -/
def domainUnits : Nat → Nat
  | 0 => 1
  | 1 => 2
  | 2 => 8
  | _ => 128

/-- A level entry (R37), where its codes and reserved fields are allowed (R38). -/
def levelOf (e : Nat) (first peer : Bool) : Option Level :=
  if e / 2 ^ 24 ≠ 0 ∨ bits e 7 6 ≠ 0 ∨ bits e 2 0 = 7 ∨ 6 ≤ bits e 5 3 ∨ bits e 23 8 = 0 ∨ (bits e 2 0 = 6 ∧ ¬(first && peer)) then none
  else some ⟨bits e 23 8, bits e 5 3, bits e 2 0⟩

/-- A level nests in the level before it (R38). The bound on COUNT holds between two hardware domains; a level 0 with a hardware domain, and a child of
a peer-set level, have none: the model's choice, since R38 names no parent domain for them (log 136). -/
def levelNests (p l : Level) : Bool :=
  decide (domainRank p.domain ≤ domainRank l.domain) && decide (l.scope ≤ p.scope) &&
  (decide (3 < l.domain) || decide (3 < p.domain) || decide (l.count ≤ domainUnits l.domain / domainUnits p.domain))

/-- The level table (R37, R38). -/
def levelsOf (peer : Bool) (prev : Option Level) : List Nat → Option (List Level)
  | [] => some []
  | e :: es =>
    match levelOf e prev.isNone peer with
    | none => none
    | some l =>
      if (prev.map fun p => levelNests p l).getD true then (levelsOf peer (some l) es).map fun ls => l :: ls else none

/-- A launch record (R36), where it breaks no rule of R38. -/
def recordOf (bs : List Byte) : Option LaunchRec :=
  let u := fieldAt bs
  let nlev := u 14 1
  let nctx := u 24 2
  if nlev = 0 ∨ 8 < nlev ∨ nctx = 0 ∨ 4096 < nctx ∨ 8 ≤ u 12 1 ∨ 4 ≤ u 13 1 ∨ u 15 1 ≠ 0 ∨ u 26 6 ≠ 0 ∨ u 104 24 ≠ 0 ∨ u 0 8 % 64 ≠ 0 then none
  else
    (levelsOf (bit (u 13 1) 1) none (wordsAt bs 32 nlev)).map fun ls =>
      { graph := u 0 8, lid := u 8 4, prio := u 12 1, det := bit (u 13 1) 0, peer := bit (u 13 1) 1, levels := ls, done := u 16 8, nctx := nctx
        args := u 96 8 }

/-! ## The graph -/

/-- A stage as the graph image gives it, with whether its block is valid. An entry of its placement table that breaks R83 refuses the launch (R85); two slots at one
place make the block invalid (R92). -/
def stageAt (s : State) (a : Access) (graph i : Nat) (e : List Byte) : Except Verdict (Stage × Bool) :=
  let u := fieldAt e
  if u 0 4 % 64 ≠ 0 ∨ u 4 4 % 8 ≠ 0 ∨ 3 < u 8 1 ∨ u 9 23 ≠ 0 then .error (.refuse 8 i none)
  else do
    let h ← fetch s a i (graph + u 0 4) 16
    let img ← fetch s a i (graph + u 0 4) (imageLength (ofBytes h))
    let x := blockImage img
    let pl ← fetch s a i (graph + u 4 4) (2 * x.words.length)
    let raw := (List.range x.words.length).map fun k => fieldAt pl (2 * k) 2
    let b := x.block raw
    if raw.any fun e => decide (bits e 7 5 ≠ 0) || (x.headerOk && decide (b.minpe ≤ bits e 15 8)) then .error (.refuse 8 i none) else
    .ok (⟨b, u 8 1, [], [(0, b.imin + 1)], [], none, [], [], none, none⟩, (checkBlock x raw b.minpe).isNone)

/-- A channel of the channel table (R84, R85), judged against the stages and the channels before it. STAGE names the source stage where its output, a
reserved field or the depth is at fault, the destination stage where its input is, and where one of the two stages does not exist the other one: the
model's choice (log 38). -/
def channelAt (stages : List Stage) (before : List Channel) (e : List Byte) : Except Verdict Channel :=
  let u := fieldAt e
  let c : Channel := ⟨u 0 2, u 2 1, u 4 2, u 6 1, u 8 4, []⟩
  match stages[c.src]?, stages[c.dst]? with
  | some x, some y =>
    if x.block.nout ≤ c.sout ∨ before.any (fun d => decide (d.src = c.src) && decide (d.sout = c.sout)) = true then .error (.refuse 8 c.src none)
    else if y.block.nin ≤ c.din ∨ before.any (fun d => decide (d.dst = c.dst) && decide (d.din = c.din)) = true then .error (.refuse 8 c.dst none)
    else if u 3 1 ≠ 0 ∨ u 7 1 ≠ 0 ∨ u 12 4 ≠ 0 ∨ c.depth = 0 ∨ 65536 < c.depth then .error (.refuse 8 c.src none)
    else .ok c
  | some _, none => .error (.refuse 8 c.src none)
  | none, some _ => .error (.refuse 8 c.dst none)
  | none, none => .error (.refuse 8 noStage none)

/-- The channel table. -/
def channelsOf (stages : List Stage) (before : List Channel) : List (List Byte) → Except Verdict (List Channel)
  | [] => .ok before
  | e :: es =>
    match channelAt stages before e with
    | .error v => .error v
    | .ok c => channelsOf stages (before ++ [c]) es

/-- Entries of a table of bytes. -/
def entriesOf (bs : List Byte) (size : Nat) : Nat → List (List Byte)
  | 0 => []
  | n + 1 => bs.take size :: entriesOf (bs.drop size) size n

/-- The graph image (R81 to R85): stages, channels, and whether every block is valid. -/
def graphOf (s : State) (a : Access) (graph : Nat) : Except Verdict (List Stage × List Channel × Bool) := do
  let h ← fetch s a noStage graph 64
  let u := fieldAt h
  let nstg := u 2 2
  let nch := u 4 2
  if u 0 2 ≠ 1 ∨ nstg = 0 ∨ 1024 < nstg ∨ 8192 < nch ∨ u 6 2 ≠ 0 ∨ u 8 4 % 8 ≠ 0 ∨ u 12 4 % 8 ≠ 0 ∨ u 16 48 ≠ 0 then
    .error (.refuse 8 noStage none)
  else
    let st ← fetch s a noStage (graph + u 8 4) (32 * nstg)
    let ch ← fetch s a noStage (graph + u 12 4) (16 * nch)
    let es := entriesOf st 32 nstg
    let gs ← (List.range nstg).mapM fun i => stageAt s a graph i (es.getD i [])
    let cs ← channelsOf (gs.map (·.1)) [] (entriesOf ch 16 nch)
    .ok (gs.map (·.1), cs, gs.all (·.2))

/-- The reads of a launch record at `va` and of the images it names (R48), as the upset of a step may strike them (R397). -/
def launchReads (s : State) (a : Access) (va : Nat) : List (Nat × Nat) :=
  let field := fun (at' n : Nat) => match s.readVa a (at' % 2 ^ 57) n with
    | .done (bs, _) => ofBytes bs
    | _ => 0
  let g := field va 8
  let stages := (List.range (min (field (g + 2) 2) 1024)).flatMap fun i =>
    let e := g + field (g + 8) 4 + 32 * i
    let image := g + field e 4
    [(image, imageLength (field image 16)), (g + field (e + 4) 4, 2 * icnt (field image 16))]
  (va, 128) :: (g, 64) :: (g + field (g + 8) 4, 32 * field (g + 2) 2) :: (g + field (g + 12) 4, 16 * field (g + 4) 2) :: stages

/-! ## Rules of the launch -/

/-- Whether an instruction names a level or scope that the launch has not (R40). -/
def beyondLaunch (nlev scope : Nat) (i : Instr) : Bool :=
  match i with
  | .bartok f => decide (nlev ≤ bits f.imm.toNat 2 0)
  | .fence f => decide (scope < f.sub.toNat)
  | .acq f => decide (scope < f.sub.toNat)
  | .st f => f.rel && decide (scope < f.rsc)
  | .atom f => f.rel && decide (scope < f.rsc)
  | .red f => f.rel && decide (scope < f.rsc)
  | _ => false

/-- Whether an instruction is an LCARRY. -/
def isLcarry (i : Instr) : Bool :=
  match i with
  | .lcarry _ => true
  | _ => false

/-- Whether an INPUT that a channel feeds names arguments or a stream (R141, R388). -/
def fedWithArgs (chans : List Channel) (stage : Nat) (i : Instr) : Bool :=
  match i with
  | .input f => decide (bits f.imm.toNat 12 4 ≠ 0) && chans.any fun c => decide (c.dst = stage) && decide (c.din = bits f.imm.toNat 3 0)
  | _ => false

/-- The refusal a stage's block meets (R40, R53, R59, R75, R85, R137). Where several reasons hold, the first in the order 8, 1, 4, 7, 9, 6 of the
lowest stage is reported, and those of the whole launch (2, 3, 4, 5, 7) after them: the model's choice (log 137). -/
def stageRefusal (r : LaunchRec) (chans : List Channel) (shift i : Nat) (b : Block) : Option Verdict :=
  let is := b.words.filterMap slotInstr
  let scope := (r.levels.head?.map (·.scope)).getD 0
  if is.any (fedWithArgs chans i) then some (.refuse 8 i none)
  else if !b.spill && decide (256 * b.minpe < b.mse) then some (.refuse 1 i (some (b.mse, 256 * b.minpe)))
  else if decide (0 < b.imax) && is.any isLcarry then some (.refuse 4 i none)
  else if r.det && !b.det then some (.refuse 7 i none)
  else if b.tshift ≠ shift then some (.refuse 9 i none)
  else if is.any (beyondLaunch r.levels.length scope) then some (.refuse 6 i none)
  else none

/-! ## Placement -/

/-- The PEs of a region, as 144 * gallery + bit. -/
def Region.allPes (r : Region) : List Nat := r.pes.map fun b => 144 * r.gal + b

/-- The PEs that regions keep (R45, R50, R424): those of regions that run and of launches, and of saved launches on the quads still being read out;
the launches in `gone` are taken as having given theirs up. -/
def busyPes (s : State) (gone : List Nat) : List Nat :=
  let out := fun (l : Option Nat) => match l with
    | some n => gone.contains n
    | none => false
  (s.regions.flatMap fun e => if (e.2.running || e.2.launch.isSome) && !out e.2.launch then e.2.allPes else []) ++
  s.images.flatMap fun e =>
    if e.2.st = .saving ∧ !gone.contains e.2.launch then
      e.2.regions.flatMap fun x => (x.2.pes.filter fun b => e.2.reading.contains (x.2.lqOfBit b)).map fun b => 144 * x.2.gal + b
    else []

/-- The PEs of a partition, as 9 * logical quad + PE, ascending (R450), those left without a host excepted (R402); `live` leaves out those that are taken. -/
def partitionPes (s : State) (p : Nat) (live : Bool) : List Nat :=
  let all := ((List.range 128).filter fun lq => decide (s.lqOwner lq = some p) && !(s.pquadOf (s.pqOf lq)).retired).flatMap fun lq => (List.range 9).map fun k => 9 * lq + k
  if live then (let b := busyPes s []; all.filter fun x => !b.contains x) else all

/-- `n` PEs of one gallery, the lowest first (R50; log 39). -/
def placeOne (free : List Nat) (n : Nat) : Option (List Nat) :=
  ((List.range 8).map fun g => free.filter fun x => x / 144 = g).findSome? fun xs => if n ≤ xs.length then some (xs.take n) else none

/-- A placement of instances, each in one gallery, the lowest galleries first, where there is one at all (R45, R46). -/
def placement (free : List Nat) : List Nat → Option (List (List Nat))
  | [] => some []
  | n :: ns =>
    ((List.range 8).map fun g => free.filter fun x => x / 144 = g).findSome? fun xs =>
      if n ≤ xs.length then (placement (free.filter fun x => !(xs.take n).contains x) ns).map fun r => xs.take n :: r else none

/-- The first instance that does not fit, where each in turn takes the lowest gallery that has room (log 39). -/
def firstMisfit (free : List Nat) (i : Nat) : List Nat → Nat
  | [] => i
  | n :: ns =>
    match placeOne free n with
    | none => i
    | some xs => firstMisfit (free.filter fun x => !xs.contains x) (i + 1) ns

/-- Place instances; where they cannot all be placed, the place in the list of one that does not fit. -/
def placeAll (free : List Nat) (ns : List Nat) : Except Nat (List (List Nat)) :=
  match placement free ns with
  | some r => .ok r
  | none => .error (firstMisfit free 0 ns)

/-- The minimum instances of every stage (R45, R53): stage and PE count. -/
def instancesOf (stages : List Stage) : List (Nat × Nat) :=
  (List.range stages.length).flatMap fun i => match stages[i]? with
    | some g => List.replicate (g.block.imin + 1) (i, g.block.minpe)
    | none => []

/-- Bytes of near vault that a partition's logical quads have (R43, R137; log 40). -/
def vaultBytes (s : State) (p : Nat) : Nat := ((List.range 128).filter fun lq => s.lqOwner lq = some p).length * 2 ^ 26

/-- Channel entries that lie in near vaults (R43). -/
def channelEntries (chans : List Channel) : Nat := (chans.map fun c => c.depth - 16).foldl (· + ·) 0

/-- Bytes of the spill areas of a launch (R137): of the instances it has, or at first of those it must have. -/
def spillBytes (r : LaunchRec) (stages : List Stage) : Nat :=
  (stages.map fun g => 64 * g.block.mse * max g.insts.length (g.block.imin + 1) * r.nctx).foldl (· + ·) 0

/-- The write-set bound of a task of stages, in granules (R88, R219; log 135: the blocks of a launch's stages share its tasks, so their bounds add up). -/
def wsbOf (stages : List Stage) : Nat := (stages.map fun g => g.block.wsb).foldl (· + ·) 0

/-- Bytes of the vault snapshot pages for the write sets of a deterministic launch's tasks (R219). -/
def writeSetBytes (r : LaunchRec) (stages : List Stage) : Nat := if r.det then 64 * wsbOf stages * r.nctx else 0

/-- Bytes of near vault that a launch keeps: for its channels, its spill areas, its write sets (R43, R45, R137, R219). -/
def areaBytesOf (r : LaunchRec) (stages : List Stage) (chans : List Channel) : Nat :=
  64 * channelEntries chans + spillBytes r stages + writeSetBytes r stages

/-- Bytes of near vault that the launches of a partition keep, those that run (R45) and those that are saved (R424). -/
def areaHeld (s : State) (p : Nat) : Nat :=
  ((s.launches.filter fun e => (decide (e.2.phase = .running) || decide (e.2.phase = .saved)) && decide (e.2.part = p)).map fun e =>
    areaBytesOf e.2.rcd e.2.stages e.2.chans).foldl (· + ·) 0

/-- Whether a partition has room for the areas of a launch beside those that others keep (R45). -/
def areaFits (s : State) (p : Nat) (r : LaunchRec) (stages : List Stage) (chans : List Channel) : Bool :=
  decide (areaHeld s p + areaBytesOf r stages chans ≤ vaultBytes s p)

/-- What an idle partition cannot offer (R46, R58). -/
def shortfall (s : State) (p : Nat) (r : LaunchRec) (stages : List Stage) (chans : List Channel) : Option Verdict :=
  let pool := ((List.range 4096).filter fun c => !s.heldCtx c).length
  let es := instancesOf stages
  let pes := partitionPes s p false
  let best := ((List.range 8).map fun g => (pes.filter fun x => x / 144 = g).length).foldl max 0
  let area := vaultBytes s p
  let chan := channelEntries chans
  let spill := spillBytes r stages
  if area < 64 * chan then some (.refuse 2 noStage (some (chan, area / 64)))
  else if pool < r.nctx then some (.refuse 3 noStage (some (r.nctx, pool)))
  else
    match placeAll pes (es.map (·.2)) with
    | .error k => some (.refuse 4 ((es.getD k (0, 0)).1) (some ((es.getD k (0, 0)).2, best)))
    | .ok _ =>
      if area < 64 * chan + spill then some (.refuse 5 noStage (some (spill, area - 64 * chan)))
      else if area < 64 * chan + spill + writeSetBytes r stages then some (.refuse 7 noStage none)
      else none

/-! ## Judging -/

/-- Judge the bytes of a launch record (R36 to R47): a launch that waits to start. The wait that raises its priority (R79) begins when the arbiter has
taken its record, not at its doorbell: the model's choice (log 145). -/
def judgeLaunch (s : State) (p queue index bell : Nat) (parent : Option Parent) (task : List Nat) (bs : List Byte) : Except Verdict Launch :=
  match recordOf bs with
  | none => .error (.refuse 8 noStage none)
  | some r =>
    match graphOf s (arbAccess s p) r.graph with
    | .error v => .error v
    | .ok (stages, chans, valid) =>
      let shift := (stages.head?.map (·.block.tshift)).getD 0
      let bad := if valid then (List.range stages.length).findSome? fun i => (stages[i]?).bind fun g => stageRefusal r chans shift i g.block
        else none
      match bad <|> shortfall s p r stages chans with
      | some v => .error v
      | none =>
        .ok { rcd := r, part := p, queue := queue, index := index, bell := bell, since := s.dtime, raised := 0, phase := .waiting, invalid := !valid
              ctxs := [], drawn := [], freed := [], stages := stages, chans := chans, sinkEnds := [], parent := parent, task := task, calls := []
              spawns := [], started := 0, placed := 0, restoredAt := none, views := [], flags := .none }

/-! ## Completion records -/

/-- The completion record of a refused launch (R47). A reason that has no quantity leaves NEED and HAVE open: free values (log 11). -/
def refusedRecord (s : State) (lid reason stage : Nat) (short : Option (Nat × Nat)) : List Byte × State :=
  let q : Nat × Nat × State := match short with
    | some (n, h) => (n, h, s)
    | none => (s.freeValue.1.toNat, s.freeValue.2.freeValue.1.toNat, s.freeValue.2.freeValue.2)
  (toBytes 4 lid ++ toBytes 1 codeRefused ++ toBytes 1 reason ++ toBytes 2 stage ++ toBytes 8 q.1 ++ toBytes 8 q.2.1 ++ toBytes 8 0, q.2.2)

/-- The completion record of a launch that ran (R74). XFLAGS groups the flags. -/
def ranRecord (l : Launch) (status : Nat) (x : ExFlags) (now : Nat) : List Byte :=
  let f := b2n x.overflow + 2 * b2n x.underflow + 4 * b2n x.inexact + 8 * b2n x.divz + 16 * b2n x.invalid
  toBytes 4 l.rcd.lid ++ toBytes 1 status ++ toBytes 1 f ++ toBytes 2 0 ++ toBytes 8 l.started ++ toBytes 8 now ++ toBytes 8 0

/-- The results ready at the head of a slot's window are delivered (R159, R227). `fuel` bounds them. -/
def flushWindow (rid slot : Nat) : Nat → State → State
  | 0, s => s
  | fuel + 1, s =>
    match s.region? rid with
    | none => s
    | some r =>
      match r.window slot with
      | .ready t ds _ _ _ _ :: ws =>
        if t.isSome && !routersTake s ds then s else
        let s1 := s.setRegion rid (r.setWindow slot ws)
        flushWindow rid slot fuel (match t with
          | some x => s1.deliver ds x
          | none => s1)
      | _ => s

/-- The image that holds the region of a parent launch, where that launch is saved (R420). -/
def savedParent? (s : State) (p : Parent) : Option (Nat × Image × Region) :=
  s.images.findSome? fun e =>
    match NatMap.find? e.2.regions p.region with
    | some r => if p.launch = some e.2.launch then some (e.1, e.2, r) else none
    | none => none

/-- The result of a SPAWN stands ready at its place in the order of firings (R159; log 41). -/
def fillSpawn (s : State) (p : Parent) (t : Token) : State :=
  let w := fun (r : Region) => setEntry p.id (.ready (some t) p.dests t.ctx false .none none) (r.window p.slot)
  match savedParent? s p with
  | some (k, im, r) =>
    { s with images := NatMap.insert s.images k { im with regions := NatMap.insert im.regions p.region (r.setWindow p.slot (w r)) } }
  | none =>
    match s.region? p.region with
    | none => s
    | some r => flushWindow p.region p.slot (w r).length (s.setRegion p.region (r.setWindow p.slot (w r)))

/-- The DATA token of a child that has ended with a STATUS (R159). -/
def childResult (s : State) (p : Parent) (status : Nat) : State :=
  fillSpawn s p { p.tok with kind := .data, pred := .none, lanes := ⟨BitVec.ofNat 36 status, BitVec.ofNat 36 p.call, 0, 0, 0, 0, 0, 0⟩ }

/-- A launch that is over and owes nothing more is gone; a child's result follows (R159). -/
def closeLaunch (s : State) (n : Nat) (l : Launch) (status : Nat) : State :=
  let s1 := { s with launches := NatMap.erase s.launches n }
  match l.parent with
  | some p => childResult s1 p status
  | none => s1

/-- The completion record of a launch has been written (R441): the vector follows where IEN is set. -/
def recordPaid (s : State) (n : Nat) : State :=
  match s.launch? n with
  | none => s
  | some l =>
    match l.phase with
    | .owed _ status =>
      let q := NatMap.get .init (s.partOf l.part).lqs l.queue
      closeLaunch (if q.ien && l.parent.isNone then s.raiseVector l.part q.vec else s) n l status
    | _ => s

/-- The completion record of a launch could not be written: a KIND 2 record (R48). -/
def recordLost (s : State) (n code : Nat) : State :=
  match s.launch? n with
  | none => s
  | some l =>
    match l.phase with
    | .owed _ status => closeLaunch (s.addEvent l.part code (l.queue + l.index * 2 ^ 32) 0xFF) n l status
    | _ => s

/-- Whether the completion record of a launch is on its way to a peer. -/
def recordSent (s : State) (n : Nat) : Bool := s.peerOut.any fun o => decide (o.owner = .done n)

/-- A launch that is over writes its completion record (R441); one that must wait is tried again, and one that a peer holds is written when the peer has
performed it (R206). -/
def payRecord (s : State) (n : Nat) : State :=
  match s.launch? n with
  | none => s
  | some l =>
    match l.phase with
    | .owed bs _ =>
      if recordSent s n then s
      else
        match s.writeVa (arbAccess s l.part) (l.rcd.done % 2 ^ 57) bs with
        | .wait h => s.noteHold h
        | .fault c _ => recordLost s n c
        | .done s1 => if s1.nextId = s.nextId then recordPaid s1 n else s1.ownedBy s (.done n)
    | _ => s

/-- A launch joins the arbiter's. -/
def addLaunch (s : State) (l : Launch) : State := { (s.setLaunch s.nextLaunch l) with nextLaunch := s.nextLaunch + 1 }

/-- A launch that owes its completion record, before it is written. -/
def owedLaunch (p queue index : Nat) (r : LaunchRec) (parent : Option Parent) (bs : List Byte) (status : Nat) : Launch :=
  { rcd := r, part := p, queue := queue, index := index, bell := 0, since := 0, raised := 0, phase := .owed bs status, invalid := false, ctxs := []
    drawn := [], freed := [], stages := [], chans := [], sinkEnds := [], parent := parent, task := [], calls := [], spawns := [], started := 0
    placed := 0, restoredAt := none, views := [], flags := .none }

/-- The parts of a launch record that its refusal needs, whatever else is wrong with it (R47). -/
def bareRecord (bs : List Byte) : LaunchRec :=
  ⟨0, fieldAt bs 8 4, 0, false, false, [], fieldAt bs 16 8, 0, 0⟩

/-- What the arbiter has read of peers for a partition is of no more use: a launch has been judged. -/
def State.dropArbReads (s : State) (p : Nat) : State := s.dropReads fun e => decide (e.master = masterArbiter) && decide (e.part = p)

/-- Take a launch record on, or refuse it with its completion record (R46, R47), where no read must wait. -/
def submit (s : State) (p queue index bell : Nat) (parent : Option Parent) (task : List Nat) (bs : List Byte) : OrWait :=
  match judgeLaunch s p queue index bell parent task bs with
  | .ok l => .ok (addLaunch (s.dropArbReads p) l)
  | .error (.wait h) => .error h
  | .error (.refuse reason stage short) =>
    let r := refusedRecord (s.dropArbReads p) (fieldAt bs 8 4) reason stage short
    .ok (payRecord (addLaunch r.2 (owedLaunch p queue index (bareRecord bs) parent r.1 codeRefused)) s.nextLaunch)

/-! ## Child launches -/

/-- The level at which the walk of a faulting read stopped; 7 where it is no TRANSLATION fault (R200). -/
def levelOfFault (s : State) (a : Access) (va n : Nat) : Nat :=
  match spread s a va n with
  | .fault _ l _ => l
  | _ => 7

/-- A fault of the read of a child's launch record follows TFR, lane 3 or ARG1 holding the level at which its walk stopped (R159, R200). -/
def childFault (s : State) (p : Parent) (code va level : Nat) : State :=
  match s.region? p.region with
  | none => s
  | some r =>
    if r.tfr then s.regionFault p.region code ⟨p.slot, 0xFF, p.tok.ctx, ⟨p.tok.lo, p.tok.hi⟩, [], va, 16 * level⟩
    else fillSpawn s p (faultToken p.tok.ctx ⟨p.tok.lo, p.tok.hi⟩ code va 0 level p.tok)

/-- The child launch of a SPAWN, its record at `va` (R159), submitted with its identifier; a record whose data are poisoned faults as its read does (R48).
The launch queue and index that a child has not are free values (log 11). -/
def submitChild (s : State) (part va : Nat) (p : Parent) (task : List Nat) : OrWait :=
  let s := s.struckIn (arbAccess s part) (if s.upset = .none then [] else launchReads s (arbAccess s part) va)
  match s.readVa (arbAccess s part) va 128 with
  | .wait h => .error h
  | .fault c v => .ok (childFault (s.dropArbReads part) p c v (levelOfFault s (arbAccess s part) va 128))
  | .done (_, true) => .ok (childFault (s.dropArbReads part) p codeUncorrectable va 7)
  | .done (bs, false) =>
    let f := s.freeValue.1.toNat
    submit s.freeValue.2 part (f % 64) (f / 2 ^ 32) s.cycle (some p) task bs

/-- The indices of task `i` of a launch, one per level (R39; log 15). -/
def taskIndices (i : Nat) : List Level → List Nat
  | [] => []
  | l :: ls =>
    let inner := ls.foldl (fun a x => a * x.count) 1
    (i / inner % l.count) :: taskIndices (i % inner) ls

/-- The identifier of task `i` of a launch (R39). -/
def Launch.taskId (l : Launch) (i : Nat) : List Nat := l.task ++ taskIndices i l.rcd.levels

/-- The next call index of a task of a launch, and the launch after it (R39, R159). -/
def Launch.nextCall (l : Launch) (task : Nat) : Nat × Launch :=
  let k := NatMap.get 0 l.calls task
  (k, { l with calls := NatMap.insert l.calls task (k + 1) })

/-- Start the held children of a task of a deterministic launch, in ascending lo, stage and slot (R159): `hs` is sorted so. -/
def startHeld (n : Nat) : List HeldSpawn → State → OrWait
  | [], s => .ok s
  | h :: hs, s =>
    match s.launch? n with
    | none => .ok s
    | some l =>
      let i := l.ctxs.idxOf h.parent.tok.ctx
      let k := l.nextCall i
      let l1 := { k.2 with spawns := l.spawns.filter fun x => x.parent.id ≠ h.parent.id }
      (submitChild (s.setLaunch n l1) l.part h.va { h.parent with call := k.1 } (l.taskId i ++ [k.1])).bind (startHeld n hs)

/-- The held spawns of a context, in order. -/
def Launch.heldOf (l : Launch) (ctx : Nat) : List HeldSpawn :=
  sortBy (fun x : HeldSpawn => (x.parent.tok.lo * 2 ^ 16 + x.stage) * 128 + x.parent.slot) (l.spawns.filter fun h => decide (h.parent.tok.ctx = ctx))

end Sys2Proof.Machine
end

