-- ==== Sys2Proof/Machine/Det.lean ====
section
/-! DEFINITION. Synchronisation points of deterministic operation (spec 02 R76; 08 R218 to R220; 15 R354): the conflict check, the merge of the
write sets, the commands the PSE held. -/

namespace Sys2Proof.Machine

/-- MERGE_CONFLICT (R391). -/
def codeConflict : Nat := 0x15

/-- The bytes of a queued reduction. -/
def QueuedRed.bytes (r : QueuedRed) : List Nat :=
  let offs := r.req.offs
  r.runs.flatMap fun p => (offs.filter fun o => p.2.1 ≤ o ∧ o < p.2.1 + p.2.2).map fun o => p.1 + (o - p.2.1)

/-- The bytes a task's queued reductions touch. -/
def TaskView.redBytes (v : TaskView) : List Nat := v.reds.flatMap QueuedRed.bytes

/-- The bytes on which two tasks conflict (R220). -/
def conflictsOf (v w : TaskView) : List Nat :=
  let a := v.writes.map (·.1)
  let b := w.writes.map (·.1)
  (a.filter fun p => b.contains p || w.redBytes.contains p) ++ (v.redBytes.filter fun p => b.contains p)

/-- The first conflict among tasks in ascending granule address: the granule and the tasks, the lower first (R220). DESIGN CHOICE (log 163): of several pairs
that conflict in that granule the lowest in task order; R220 does not say. -/
def firstConflict (views : NatMap TaskView) (tasks : List Nat) : Option (Nat × Nat × Nat) :=
  let all := tasks.flatMap fun i => (tasks.filter fun j => decide (i < j)).flatMap fun j =>
    (conflictsOf (NatMap.get .init views i) (NatMap.get .init views j)).map fun p => (p / 64, i, j)
  leastBy (fun x => x.1) all

/-- Apply the bytes a task wrote, with the marks it set and cleared (R220, R221, R241). -/
def applyWrites (s : State) (v : TaskView) : State :=
  let s1 := v.writes.foldl (fun s e => s.writeAt e.1 [e.2]) s
  v.marks.foldl (fun s e => s.markGranule (64 * e.1) e.2) s1

/-- The offsets of a part's elements that a request updates, as its mask. -/
def maskIn (q : Request) (off len : Nat) : Nat :=
  ((maskElems q.lmask).filter fun e => decide (off ≤ e * q.format.bytes) && decide (e * q.format.bytes < off + len)).foldl (fun m e => m + 2 ^ e) 0

/-- Apply one queued reduction to shared memory (R220, R245); on a poisoned granule it is not applied, and the issuing region faults (R243). -/
def applyRed (s : State) (r : QueuedRed) : State :=
  match r.req.op with
  | .reduce op =>
    if r.runs.any fun p => s.poisonedAt p.1 p.2.2 then
      s.regionFault r.req.home codeUncorrectable ⟨r.req.slot, 0xFF, r.req.ctx, r.req.span, [], r.req.addr, 0⟩
    else
      r.runs.foldl (fun s p =>
        let old := s.bytesAt p.1 p.2.2
        let got := (List.range old.length).map fun i => (p.2.1 + i, old.getD i 0)
        let ws := updateWrites op r.req ⟨0, r.req.id, p.1, p.2.1, p.2.2⟩ got
        let s1 := (writtenBytes ws p.2.1 old).foldl (fun s e => s.writeAt (p.1 + e.1) [e.2]) s
        edgeFlags s1 r.req.lq r.req.mt r.req.ctx r.req.part (updateFlags op { r.req with lmask := maskIn r.req p.2.1 p.2.2 } got)) s
  | _ => s

/-- Apply the write set of a task: plain bytes, then its reductions, then its publications (R220). -/
def applyTask (s : State) (n i : Nat) : State :=
  match s.launch? n with
  | none => s
  | some l =>
    let v := NatMap.get .init l.views i
    let s1 := v.reds.foldl applyRed (applyWrites s v)
    v.pubs.foldl (fun s e => s.publish l.part e) s1

/-- A state in which the task of a context sees shared memory as it is now. -/
def State.afresh (s : State) (ctx : Nat) : State :=
  match detLaunchOf s ctx with
  | none => s
  | some (n, l) => s.setLaunch n { l with views := NatMap.insert l.views (l.ctxs.idxOf ctx) { TaskView.init with snapshot := s.mem } }

/-- The effect of a held command at the merge (R354): its accesses go to shared memory, but the pages that a deterministic task may not reach stay closed to
them (R218). -/
def releaseEffect (s : State) (hall : Nat) (p : PseCmd) : Performed :=
  match psePerform (s.afresh p.cmd.ctx) hall p p.cmd.ctx with
  | .abort _ code va => if code = codePermission then .abort s code va else psePerform s hall p 4096
  | _ => psePerform s hall p 4096

/-- A command that the PSE of a hall held is accepted, numbered and performed with the merge (R354), its accesses going to shared memory; none where it
must wait: for a held page, for a bank that is being evacuated, or for a command of its tree numbered below it (R352). -/
def releaseOne (s : State) (hall : Nat) (c : Cmd) : OrWait :=
  if treeOwes s hall (bits c.word 5 0) || (s.hallOf hall).pseQ.any fun p => decide (p.tree = bits c.word 5 0) then .error none
  else
    let s1 := pseEnqueue s hall c
    match (s1.hallOf hall).pseQ.getLast? with
    | none => .ok s1
    | some p =>
      match releaseEffect (pseTake s1 hall p) hall p with
      | .wait h => .error h
      | r => .ok (pseFinish s1 p r)

/-- The commands of a task's context that the PSEs held, in order of issue in each hall. -/
def heldBy (s : State) (ctx : Nat) : List (Nat × Cmd) :=
  (List.range s.numHalls).flatMap fun h => ((s.hallOf h).pseHeld.filter fun c => decide (c.ctx = ctx)).map fun c => (h, c)

/-- A context's commands are no longer held. -/
def unhold (s : State) (ctx : Nat) : State :=
  (List.range s.numHalls).foldl (fun s h => s.setHall h { (s.hallOf h) with pseHeld := (s.hallOf h).pseHeld.filter fun c => decide (c.ctx ≠ ctx) }) s

/-- The held commands of a task are released (R354). -/
def releaseHeld (s : State) (ctx : Nat) : OrWait := eachOf (fun s e => releaseOne s e.1 e.2) (heldBy s ctx) (unhold s ctx)

/-- The priority trees of every hall, as STSTAT of a task sees them from its synchronisation point on (R354). -/
def treesNow (s : State) : NatMap (NatMap PseTree) := s.halls.map fun e => (e.1, e.2.trees)

/-- A task's snapshot becomes the merged memory (R220), and the trees it sees those of this moment (R354). -/
def freshView (s : State) (n : Nat) (tasks : List Nat) : State :=
  match s.launch? n with
  | none => s
  | some l =>
    { (s.setLaunch n { l with views := tasks.foldl (fun v i => NatMap.insert v i { TaskView.init with snapshot := s.mem }) l.views }) with
      taskTrees := tasks.foldl (fun m i => NatMap.insert m (4096 * n + i) (treesNow s)) s.taskTrees }

/-- A region fault of a merge at the region where it is reached: nothing of the merge is applied. -/
def mergeFault (s : State) (rid n code granule : Nat) (ids : List (List Nat)) : State :=
  match s.region? rid with
  | some r =>
    let f := { regionRecord s r code 8 ⟨0xFF, 0xFF, 0, ⟨0, 0⟩, [], 64 * granule, 0⟩ with tasks := ids, ends := some n }
    (s.setRegion rid { r with frozen := true }).addRecord f
  | none => s

/-- The granules a merge writes (R220). -/
def mergeGranules (views : NatMap TaskView) (tasks : List Nat) : List Nat :=
  (tasks.flatMap fun i => (((NatMap.get .init views i).writes.map (·.1)) ++ (NatMap.get .init views i).redBytes).map (· / 64)).eraseDups

/-- A SYNCHRONISATION POINT that tasks of a deterministic launch join (R76, R159, R220, R354); `rid` is the region at which it is reached. A
conflict faults MERGE_CONFLICT, a write to a lost bank UNCORRECTABLE (R223). The merge waits for a bank that is being evacuated (R221), for a
command the PSE held, or for the record of a child. -/
def mergeTasks (s : State) (rid n : Nat) (tasks : List Nat) : OrWait :=
  match s.launch? n with
  | none => .ok s
  | some l =>
    if !l.rcd.det then .ok s
    else
      match firstConflict l.views tasks with
      | some (g, i, j) => .ok (mergeFault s rid n codeConflict g [l.taskId i, l.taskId j])
      | none =>
        let gs := mergeGranules l.views tasks
        match gs.find? fun g => bankOf s (64 * g) = some .lost with
        | some g => .ok (mergeFault s rid n codeUncorrectable g [])
        | none =>
          if runsStand s (gs.map fun g => (64 * g, 64)) = some true then .error none
          else
            let ctxs := tasks.filterMap fun i => l.ctxs[i]?
            let s1 := tasks.foldl (fun s i => applyTask s n i) s
            (eachOf releaseHeld ctxs s1).bind fun s2 =>
              eachOf (fun s c => startHeld n (l.heldOf c) s) ctxs (freshView s2 n tasks)

end Sys2Proof.Machine
end

