-- ==== Sys2Proof/Machine/Feed.lean ====
section
/-! DEFINITION. What flows between stages (spec 02 R41, R43, R51, R54, R58; 05 R141, R142, R158; 06 R170; 18 R400): the distributor that
deals a stage's input among its instances, the rejoining of their outputs, channels and sinks, the pool of contexts. -/

namespace Sys2Proof.Machine

/-! ## Regions at rest -/

/-- Whether a waiting token is held, latched or open (R65, R400). -/
def Region.rests (r : Region) (x : Spot) : Bool :=
  match r.instrAt x.slot with
  | none => false
  | some i =>
    decide (x.w.tok.hi = openHi) ||
    match gapRule i x.port with
    | .once => true
    | .hold => decide ((((r.node x.slot x.ctx).port x.port).waiting.getLast?) = some x.w)
    | _ => false

/-- The nodes of the active configuration context. -/
def Region.activeNodes (r : Region) : List (Nat × Nat × Node) :=
  (r.nodes.filter fun e => decide (e.1 / 4096 / 128 = r.active)).map fun e => (e.1 / 4096 % 128, e.1 % 4096, e.2)

/-- Whether a slot holds tokens that its waiting tokens do not show: a live loop, a current range, arrivals not released, held firings, tokens
behind an END. -/
def Node.loaded (n : Node) : Bool :=
  n.live || n.range.isSome || !n.arrivals.isEmpty || !n.held.isEmpty || ports.any fun k => !(n.port k).behind.isEmpty

/-- Whether a slot has an END that it has not passed on. -/
def Node.owesEnd (n : Node) : Bool := ports.any fun k => !n.left && (n.port k).ended.isSome

/-- Whether a slot holds work that its waiting tokens do not show. -/
def Node.busy (n : Node) : Bool := n.loaded || n.owesEnd

/-- The windows of a region are empty (R51, R400). -/
def Region.windowsEmpty (r : Region) : Bool := r.windows.all fun e => e.2.isEmpty

/-- The channel that feeds an input of a stage, by its place in the table (R84). -/
def Launch.feedOf (l : Launch) (stage input : Nat) : Option Nat := l.chans.findIdx? fun c => decide (c.dst = stage) && decide (c.din = input)
/-- The channel an output of a stage feeds (R84); none for a sink (R170). -/
def Launch.takerOf (l : Launch) (stage out : Nat) : Option Nat := l.chans.findIdx? fun c => decide (c.src = stage) && decide (c.sout = out)

/-- How an INPUT is fed (R141, R388): by a channel, by a stream, or not at all. -/
inductive Feed where
  | channel | stream | unfed
deriving DecidableEq, Repr

/-- How an INPUT word of a region is fed. -/
def feedKind (s : State) (r : Region) (f : Fab) : Feed :=
  if bits f.imm.toNat 12 5 = 255 then .stream
  else
    match r.role, s.launchOfRegion r with
    | some x, some l => if (l.feedOf x.stage (bits f.imm.toNat 3 0)).isSome then .channel else .unfed
    | _, _ => .unfed

/-- The key of an input or output of an instance in a stage's buffers. -/
def bufKey (inst i : Nat) : Nat := 32 * inst + i

/-- The stage a region is an instance of, with its launch. -/
def stageOf (s : State) (r : Region) : Option (Nat × Launch × Stage) :=
  match r.role, s.launchOfRegion r with
  | some x, some l => (l.stages[x.stage]?).map fun g => (x.stage, l, g)
  | _, _ => none

/-- The context of a region's unfed inputs: the first its launch drew, or the context of the queue that started it (R141, R329). -/
def firstCtx (s : State) (r : Region) : Nat :=
  match r.role, s.launchOfRegion r with
  | some _, some l => l.ctxs.headD 0
  | _, _ => r.ctx0

/-- The INPUT words of a region's active configuration context, with their slots. -/
def Region.inputs (r : Region) : List (Nat × Fab) :=
  match r.block? with
  | none => []
  | some b => (List.range b.words.length).filterMap fun i => match r.instrAt i with
    | some (.input f) => some (i, f)
    | _ => none

/-- Among how many instances a token at a place is dealt (R54). -/
def Stage.among (g : Stage) (place : Nat) : Nat := ((g.deals.find? fun e => e.1 ≤ place).map (·.2)).getD 1

/-- The place of a token of an input among the cuts (R54): lo starts afresh with each nested stream of its context (R72). -/
def Stage.at (g : Stage) (input : Nat) (t : Token) : Nat := 2 ^ 41 * NatMap.get 0 g.streams (4096 * input + t.ctx) + t.lo

/-- The buffers a token is dealt to (R54): any token but END to instance lo mod n. R54 does not say how END is dealt: here it goes to every instance the
stage has, one that is being given up among them, and the ENDs that the instances pass on are joined into one (`Stage.nextOut`); nor what becomes of a token
below a cut that comes after the instance it would go to has been released: it goes to one of those left. Both are the model's choice (log 138). -/
def Stage.dealTo (g : Stage) (input : Nat) (t : Token) : List Nat :=
  if t.kind = .fin then List.range g.insts.length else [t.lo % min (g.among (g.at input t)) (max 1 g.insts.length)]

/-- A waiting change takes effect at the token the distributor takes (R54): its place is the cut. -/
def Stage.cut (g : Stage) (input : Nat) (t : Token) : Stage :=
  match g.change with
  | none => g
  | some n => { g with deals := (g.at input t, n) :: g.deals, change := none }

/-- A nested END that the distributor has taken begins the next stream of its input and context (R72). -/
def Stage.past (g : Stage) (input : Nat) (t : Token) : Stage :=
  if t.kind = .fin ∧ t.level ≠ 0 then
    let k := 4096 * input + t.ctx
    { g with streams := NatMap.insert g.streams k (NatMap.get 0 g.streams k + 1) }
  else g

/-- Those of the tokens of a channel that the distributor will deal to an instance (R54). -/
def Stage.share (input inst : Nat) : Stage → List Token → List Token
  | _, [] => []
  | g, t :: ts =>
    let g1 := g.cut input t
    (if (g1.dealTo input t).contains inst then [t] else []) ++ (g1.past input t).share input inst ts

/-- The tokens of an input's channel that are still to be dealt. -/
def Launch.undealt (l : Launch) (stage input : Nat) : List Token := (((l.feedOf stage input).bind fun ci => l.chans[ci]?).map (·.toks)).getD []

/-- The input buffer of an instance's input (R43, R132): what has been dealt to it, and its share of the first entries of the channel, 16 in all. -/
def inputBuffer (s : State) (r : Region) (input : Nat) : List Token :=
  match r.role, stageOf s r with
  | some x, some (k, l, g) =>
    (NatMap.get [] g.dealt (bufKey x.inst input) ++ Stage.share input x.inst g ((l.undealt k input).take 16)).take 16
  | _, _ => []

/-- The stream that is bound to an input of a region (R388, R390), with its number. -/
def boundStream (s : State) (r : Region) (input : Nat) : Option (Nat × Stream) :=
  match r.role with
  | none => none
  | some x =>
    List.find? (fun e => (decide (e.2.st = .bound) || decide (e.2.st = .closing)) && !e.2.ended && decide (e.2.target = ⟨x.launch, x.stage, x.inst, input⟩)) s.streams

/-- Whether a frame of a stream has still to be written at a peer (R386). -/
def State.framesOut (s : State) (n : Nat) : Bool :=
  s.peerOut.any fun o => match o.owner with
    | .frame m _ _ => decide (m = n)
    | _ => false

/-- Whether a closing stream sends its END now (R390): no frame of it is left, in its decoder, on its way or queued. -/
def closesNow (s : State) (n : Nat) (x : Stream) : Bool := decide (x.st = .closing) && decide (x.taken = []) && decide (x.queue = []) && !s.framesOut n

/-- Whether an INPUT has emitted all it ever will in this period, or nothing that is waiting for it (R141, R388). -/
def inputDone (s : State) (r : Region) (slot : Nat) (f : Fab) : Bool :=
  let n := r.node slot (firstCtx s r)
  match feedKind s r f, stageOf s r with
  | .unfed, _ => decide (2 ≤ n.count)
  | .stream, _ => ((boundStream s r (bits f.imm.toNat 3 0)).map fun e => e.2.queue.isEmpty && decide (e.2.st = .bound)).getD true
  | _, some _ => (inputBuffer s r (bits f.imm.toNat 3 0)).isEmpty
  | _, none => true

/-- Whether a region has nothing left to do with what it has been given, held tokens aside. -/
def regionQuiet (s : State) (r : Region) : Bool :=
  r.flight.isEmpty && r.windowsEmpty && r.pendingReplay.isEmpty && r.spots.all r.rests && r.activeNodes.all (fun e => !e.2.2.busy) &&
  r.inputs.all fun e => inputDone s r e.1 e.2

/-! ## Rejoining -/

/-- The head of an instance's results at an output. -/
def Stage.headOf (g : Stage) (j out : Nat) : Option Token := (NatMap.get [] g.rejoin (bufKey j out)).head?

/-- Drop the head of an instance's results. -/
def Stage.popOf (g : Stage) (out : Nat) (js : List Nat) : Stage :=
  js.foldl (fun g j => { g with rejoin := NatMap.set [] g.rejoin (bufKey j out) (NatMap.get [] g.rejoin (bufKey j out)).tail }) g

/-- The exception flags of contexts of a launch, in the PEs of its regions and at the MTs (R73, R128, R246). -/
def launchFlags (s : State) (n : Nat) (ctxs : List Nat) : ExFlags :=
  let here := (s.regions ++ s.images.flatMap fun e => e.2.regions).filter fun e => decide (e.2.launch = some n)
  let pe := here.flatMap fun e => (e.2.flags.filter fun x => ctxs.contains (x.1 % 4096)).map (·.2)
  let mt := s.pquads.flatMap fun e => (e.2.mtCtxFlags.filter fun x => ctxs.contains (x.1 % 4096)).map (·.2)
  ExFlags.all (pe ++ mt)

/-- The flags of contexts at the MTs are cleared with their contexts. -/
def clearFlags (s : State) (ctxs : List Nat) : State :=
  { s with pquads := s.pquads.map fun e => (e.1, { e.2 with mtCtxFlags := e.2.mtCtxFlags.filter fun x => !ctxs.contains (x.1 % 4096) }) }

/-- The launch of a region keeps the flags of the region's PEs when it gives them up or configures them afresh (R73, R128). -/
def keepFlags (s : State) (r : Region) : State :=
  match r.launch, s.launchOfRegion r with
  | some n, some l => s.setLaunch n { l with flags := ExFlags.all (l.flags :: r.flags.map (·.2)) }
  | _, _ => s

/-- Which instance's result leaves next, with the token and the instances whose heads it takes (R54): results go in ascending lo, an END before
a token of equal lo; an END of level 0 once every instance holds it, the largest lo standing; equal ENDs of one level are one. -/
def Stage.nextOut (g : Stage) (out : Nat) (quiet : Nat → Bool) : Option (Token × List Nat) :=
  let js := List.range g.insts.length
  let heads := js.filterMap fun j => (g.headOf j out).map fun t => (j, t)
  let ends := heads.filter fun e => decide (e.2.kind = .fin) && decide (e.2.level = 0)
  if heads.length = js.length ∧ ends.length = js.length then
    (ends.head?).map fun e => ({ e.2 with lo := (ends.map fun x => x.2.lo).foldl max 0, hi := (ends.map fun x => x.2.lo).foldl max 0 }, js)
  else
    let rest := heads.filter fun e => !(decide (e.2.kind = .fin) && decide (e.2.level = 0))
    match leastBy (fun e => 2 * e.2.lo + b2n (decide (e.2.kind ≠ .fin))) rest with
    | none => none
    | some (j, t) =>
      if js.all fun i => decide (i = j) || (g.headOf i out).isSome || quiet i then
        let same := if t.kind = .fin then (rest.filter fun e => decide (e.2.kind = .fin) && decide (e.2.level = t.level) && decide (e.2.lo = t.lo)).map (·.1) else [j]
        some (t, same)
      else none

/-- Input occupancy of a stage (R88): the tokens its input channels have accepted and its distributor has not taken. -/
def Launch.occupancy (l : Launch) (stage : Nat) : Nat :=
  ((l.chans.filter fun c => c.dst = stage).map fun c => c.toks.length).foldl (· + ·) 0

/-- Since when a condition has held. -/
def sinceWhen (b : Bool) (old : Option Nat) (now : Nat) : Option Nat := if b then (match old with | some x => some x | none => some now) else none

/-- Watch the thresholds of every stage (R53): since which cycle the occupancy has been above HIGH, or below LOW. -/
def Launch.watch (l : Launch) (now : Nat) : Launch :=
  { l with stages := l.stages.zipIdx.map fun e =>
      let occ := l.occupancy e.2
      { e.1 with
        aboveSince := sinceWhen (decide (e.1.block.high < occ)) e.1.aboveSince now
        belowSince := sinceWhen (decide (occ < e.1.block.low)) e.1.belowSince now } }

/-- The task a context is in its launch. A context that CTXNEW drew is none of the launch's own: it counts as the task after them, whose indices wrap
(`taskIndices`); the spec does not say which task it belongs to, so this is the model's choice (log 139). -/
def Launch.taskOf (l : Launch) (ctx : Nat) : Nat := l.ctxs.idxOf ctx

/-- A token reaches a sink (R73, R76, R170): it is discarded; an END of level 0 counts, and in deterministic operation is a synchronisation
point. R76 does not say which tasks it joins: here the task of the END's own context alone, the model's choice (log 140). -/
def sinkToken (s : State) (rid n stage out : Nat) (t : Token) : OrWait :=
  if t.kind = .fin ∧ t.level = 0 then
    match s.launch? n with
    | none => .ok s
    | some l =>
      let s1 := s.setLaunch n { l with sinkEnds := if l.sinkEnds.contains (stage, out, t.ctx) then l.sinkEnds else l.sinkEnds ++ [(stage, out, t.ctx)] }
      mergeTasks s1 rid n [l.taskOf t.ctx]
  else .ok s

/-- Move results of a stage's instances on, as far as they can go (R41, R54). `fuel` bounds the tokens. -/
def drainOut (rid n stage out : Nat) : Nat → State → State
  | 0, s => s
  | fuel + 1, s =>
    match s.launch? n with
    | none => s
    | some l =>
      match l.stages[stage]? with
      | none => s
      | some g =>
        let quiet := fun j => match g.insts[j]? with
          | none => true
          | some q => match s.region? q with
            | none => true
            | some r => regionQuiet s r
        match g.nextOut out quiet with
        | none => s
        | some (t, js) =>
          let l1 := { l with stages := listSet l.stages stage (g.popOf out js) }
          match l.takerOf stage out with
          | none =>
            match sinkToken (s.setLaunch n l1) rid n stage out t with
            | .ok s1 => drainOut rid n stage out fuel s1
            | .error h => s.noteHold h
          | some ci =>
            match l1.chans[ci]? with
            | none => s
            | some c =>
              if c.toks.length < c.depth then
                drainOut rid n stage out fuel (s.setLaunch n ({ l1 with chans := listSet l1.chans ci { c with toks := c.toks ++ [t] } }.watch s.cycle))
              else s

/-- How many results wait at an output of a stage. -/
def Stage.waitingOut (g : Stage) (out : Nat) : Nat :=
  ((List.range g.insts.length).map fun j => (NatMap.get [] g.rejoin (bufKey j out)).length).foldl (· + ·) 0

/-- Move the results of every output of a stage on. -/
def drainStage (rid n stage : Nat) (s : State) : State :=
  match (s.launch? n).bind fun l => l.stages[stage]? with
  | none => s
  | some g => (List.range g.block.nout).foldl (fun s out => drainOut rid n stage out (g.waitingOut out) s) s

/-- Whether an output of an instance can take a token (R41): its channel has room, or the results of a stage of several instances wait in a
buffer of 16 for each instance, a size that R41 does not give: the model's choice (log 141). -/
def outRoom (s : State) (r : Region) (out : Nat) : Bool :=
  match stageOf s r with
  | none => true
  | some (k, l, g) =>
    if g.insts.length ≤ 1 then
      match l.takerOf k out with
      | none => true
      | some ci => match l.chans[ci]? with
        | none => true
        | some c => decide ((NatMap.get [] g.rejoin (bufKey 0 out)).isEmpty) && decide (c.toks.length < c.depth)
    else decide ((NatMap.get [] g.rejoin (bufKey ((r.role.map (·.inst)).getD 0) out)).length < 16)

/-- A token leaves a region by an output (R142, R170). -/
def sendOut (s : State) (rid : Nat) (r : Region) (out : Nat) (t : Token) : State :=
  match r.role, stageOf s r with
  | some x, some (k, l, g) =>
    let key := bufKey x.inst out
    let g1 := { g with rejoin := NatMap.set [] g.rejoin key (NatMap.get [] g.rejoin key ++ [t]) }
    drainOut rid x.launch k out (g1.waitingOut out) (s.setLaunch x.launch { l with stages := listSet l.stages k g1 })
  | _, _ => s

/-! ## The distributor -/

/-- The distributor takes the next token of an input's channel, where the buffers it goes to have room for it (R43, R54). -/
def dealOne (l : Launch) (stage input : Nat) : Option Launch :=
  match l.feedOf stage input, l.stages[stage]? with
  | some ci, some g =>
    match l.chans[ci]? with
    | none => none
    | some c =>
      match c.toks with
      | [] => none
      | t :: ts =>
        let g1 := g.cut input t
        let js := g1.dealTo input t
        if js.any fun j => decide (16 ≤ (NatMap.get [] g1.dealt (bufKey j input)).length) then none
        else
          let g2 := { g1.past input t with
            dealt := js.foldl (fun m j => NatMap.set [] m (bufKey j input) (NatMap.get [] m (bufKey j input) ++ [t])) g1.dealt }
          some { l with chans := listSet l.chans ci { c with toks := ts }, stages := listSet l.stages stage g2 }
  | _, _ => none

/-- Deal until a buffer holds a token or the channel stops; `fuel` bounds the tokens. -/
def dealFor (stage input key : Nat) : Nat → Launch → Launch
  | 0, l => l
  | fuel + 1, l =>
    if ((l.stages[stage]?).map fun g => (NatMap.get [] g.dealt key).isEmpty) = some false then l
    else
      match dealOne l stage input with
      | none => l
      | some l1 => dealFor stage input key fuel l1

/-- The next token for an input of a region: its buffer's head, after dealing (R41, R54). -/
def nextInput (s : State) (r : Region) (input : Nat) : Option (Token × Launch) :=
  match r.role, stageOf s r with
  | some x, some (k, l, _) =>
    let key := bufKey x.inst input
    let n := match l.feedOf k input with
      | some ci => ((l.chans[ci]?).map fun c => c.toks.length).getD 0
      | none => 0
    let l1 := dealFor k input key n l
    match l1.stages[k]? with
    | none => none
    | some g =>
      match NatMap.get [] g.dealt key with
      | [] => none
      | t :: ts => some (t, { l1 with stages := listSet l1.stages k { g with dealt := NatMap.set [] g.dealt key ts } })
  | _, _ => none

/-- Take the next token of an input of a region: the token and the state after it, the producing stage's results having moved on. -/
def takeInput (s : State) (rid : Nat) (r : Region) (input : Nat) : Option (Token × State) :=
  match r.role, nextInput s r input with
  | some x, some (t, l) =>
    let s1 := s.setLaunch x.launch (l.watch s.cycle)
    match l.feedOf x.stage input with
    | none => some (t, s1)
    | some ci => some (t, match l.chans[ci]? with
      | some c => drainStage rid x.launch c.src s1
      | none => s1)
  | _, _ => none

end Sys2Proof.Machine
end

