-- ==== Sys2Proof/Machine/Stream.lean ====
section
/-! DEFINITION. Stream, steering, span and context instructions (spec 05 R141 to R158). SPAWN stands with launches. -/

namespace Sys2Proof.Machine

/-! ## Slots that do not fire by R63 -/

/-- The slot in focus of a region whose clock runs; otherwise nothing happens. -/
def atSlot (s : State) (f : State → Nat → Nat → Nat → Region → State) : Result :=
  match s.focus with
  | .slot rid slot ctx =>
    match s.region? rid with
    | none => .next s
    | some r => if r.live then .next (f s rid slot ctx r) else .next s
  | _ => .next s

/-- The dual check of a token a slot forms (R396, R397): a lasting failure is contained, a transient one counted. -/
def checked (s : State) (rid slot ctx : Nat) (r : Region) (t : Token) (f : State → State) : State :=
  if s.upset = .lasting then
    s.containedFault rid codeCheck (some (s.pqOf (r.lqAt slot))) ⟨slot, 0xFF, ctx, ⟨t.lo, t.hi⟩, [(0, t)], 0, 0⟩
  else f (if s.upset = .transient then countTransient s r slot else s)

/-- The head of a port's queue where it is not spilled (R135). -/
def PortState.head (x : PortState) : Option Token :=
  match x.waiting with
  | w :: _ => if w.place.spilled then none else some w.tok
  | [] => none

/-- The queue without its head. -/
def PortState.pop (x : PortState) : PortState := { x with waiting := x.waiting.tail }

/-- Whether a token is an END. -/
def Token.isEnd (t : Token) : Bool := decide (t.kind = .fin)

/-! ## INPUT -/

/-- An input keeps what it takes for a replay, up to 64 tokens (R400). -/
def Region.retain (r : Region) (n : Nat) (t : Token) : Region :=
  if 64 ≤ (r.retained.filter fun e => e.1 = n).length then { r with unreplayable := true }
  else { r with retained := r.retained ++ [(n, t)] }

/-- An input delivers a token to its targets, unchanged (R141); the END of level 0 is remembered. -/
def Region.deliverInput (r : Region) (f : Fab) (slot : Nat) (t : Token) : Region :=
  let n := r.node slot t.ctx
  (if t.kind = .fin ∧ t.level = 0 then r.setNode slot t.ctx { n with left := true } else r).sendBoth f t

/-- Where the arguments of a region stand (R36, R141, R329). -/
def argBase (s : State) (r : Region) : Nat :=
  match r.role, s.launchOfRegion r with
  | some _, some l => l.rcd.args
  | _, _ => r.args

/-- The first of the eight words of an argument slot that faults: code, level, address (R141). -/
def argFault (s : State) (a : Access) (va : Nat) : Option (Nat × Nat × Nat) :=
  ((List.range 8).filterMap fun i => match spread s a ((va + 4 * i) % 2 ^ 57) 4 with
    | .fault c l _ => some (c, l, (va + 4 * i) % 2 ^ 57)
    | _ => none).head?

/-- Lane `i` of the argument token (R141). -/
def argLane (fmt : Bool) (bs : List Byte) (i : Nat) : Flagged Lane :=
  let w := ofBytes ((bs.drop (4 * i)).take 4)
  if fmt then loadFloat .fp32 0 w else ⟨BitVec.ofNat 36 w, .none⟩

/-- The argument token with no lanes. -/
def argToken (ctx : Nat) (poison : Bool) : Token := ⟨ctx, 0, openHi, .data, false, 0, .none, poison, false, .zero⟩

/-- An unfed INPUT delivers a token of its own, which counts. -/
def unfedSend (s : State) (rid slot ctx : Nat) (f : Fab) (t : Token) : State :=
  match s.region? rid with
  | none => s
  | some r =>
    let r1 := (r.retain (bits f.imm.toNat 3 0) t).deliverInput f slot t
    let n := r1.node slot ctx
    s.setRegion rid (r1.setNode slot ctx { n with count := n.count + 1 })

/-- The two tokens of an unfed INPUT (R141), in the first context of the region. A fault on the argument read follows TFR. -/
def unfedInput (s : State) (rid slot : Nat) (r : Region) (f : Fab) : State :=
  let ctx := firstCtx s r
  let n := r.node slot ctx
  if n.count = 0 then
    let a : Access := ⟨r.part, r.lqAt slot, ctx, masterQuad (r.lqAt slot), .read, .plain, 4 + 128 * rid + slot⟩
    let va := (argBase s r + 32 * bits f.imm.toNat 12 5) % 2 ^ 57
    let fault := fun (c l v : Nat) =>
      if r.tfr then
        (s.setRegion rid (r.setNode slot ctx { n with count := 2, left := true })).regionFault rid c ⟨slot, 0xFF, ctx, ⟨0, openHi⟩, [], v, 16 * l⟩
      else unfedSend s rid slot ctx f (faultToken ctx ⟨0, openHi⟩ c v 0 l (argToken ctx false))
    match argFault s a va with
    | some (c, l, v) => fault c l v
    | none =>
      match s.readVa a va 32 with
      | .wait h => s.noteHold h
      | .fault c v => fault c 7 v
      | .done (bs, bad) =>
        let v := Lanes.ofFlagged (argLane (bit f.imm.toNat 4) bs)
        unfedSend ((s.dropReads fun e => e.isOf a).setRegion rid (r.raise slot ctx v.flags)) rid slot ctx f { argToken ctx bad with lanes := v.val }
  else if n.count = 1 then unfedSend s rid slot ctx f (endToken ctx openHi 0)
  else s

/-- The slot of a stream's frame is free again (R385, R387). -/
def Stream.freeSlot (x : Stream) (t : Token) : Stream :=
  { x with busy := x.busy.filter fun e => decide (e.2 % 2 ^ 32 ≠ (t.lanes.get 2).toNat) }

/-- A bound stream's next frame is judged at its INPUT (R387): a stale one is dropped, a fresh one delivered; once a closing stream has no
frame left, the input receives its END and the stream is closed (R390). -/
def judgeFrame (s : State) (rid slot : Nat) (r : Region) (f : Fab) (k : Nat) (x : Stream) : State :=
  match x.queue with
  | t :: q =>
    let y := { x with queue := q }
    if (t.hi + x.bound) * 2 ^ x.desc.shift < s.dtime then
      { s with streams := NatMap.set .init s.streams k { y.freeSlot t with dropStale := x.dropStale + 1 } }
    else
      let s1 := { s with streams := NatMap.set .init s.streams k { y with delivered := x.delivered + 1 } }
      s1.setRegion rid { r.deliverInput f slot t with unreplayable := true }
  | [] =>
    if closesNow s k x then
      let e := endToken x.desc.ctx x.queuedHi 0
      let y := { x with st := .closed, busy := [], closeCmd := none }
      let s1 := { s with streams := NatMap.set .init s.streams k y }
      let s2 := s1.setRegion rid { r.deliverInput f slot e with unreplayable := true }
      match x.closeCmd with
      | some c => s2.completeLate c
      | none => s2
    else s

/-- INPUT (R141, R388, R401): first the tokens of a replay, then its own, its stream's frames, or its channel. -/
def execInput (f : Fab) (s : State) : Result :=
  atSlot s fun s rid slot ctx r =>
    let n := bits f.imm.toNat 3 0
    match takeFirst (fun e => e.1 = n) r.pendingReplay with
    | some (e, rest) =>
      checked s rid slot ctx r e.2 fun s => s.setRegion rid ({ r with pendingReplay := rest }.deliverInput f slot e.2)
    | none =>
      match feedKind s r f with
      | .unfed => checked s rid slot ctx r (argToken ctx false) fun s => unfedInput s rid slot r f
      | .stream =>
        match boundStream s r n with
        | none => s
        | some (k, x) => checked s rid slot ctx r (argToken ctx false) fun s => judgeFrame s rid slot r f k x
      | .channel =>
        match takeInput s rid r n with
        | none => s
        | some (t, s1) =>
          match s1.region? rid with
          | none => s1
          | some r1 =>
            if s.upset = .lasting then checked s rid slot ctx r t id
            else checked s1 rid slot ctx r1 t fun s => s.setRegion rid ((r1.retain n t).deliverInput f slot t)

/-! ## OUTPUT -/

/-- Whether an output of a region is a sink (R170); outside any launch every output is one. -/
def isSink (s : State) (r : Region) (out : Nat) : Bool :=
  match stageOf s r with
  | some (k, l, _) => (l.takerOf k out).isNone
  | none => true

/-- What an OUTPUT compares with its mark (R400; log 36): twice the hi of a token, twice the lo of an END and one. -/
def Token.mark (t : Token) : Nat := if t.kind = .fin then 2 * t.lo + 1 else 2 * t.hi

/-- Whether a replay has emitted a token before (R401). -/
def Region.emitted (r : Region) (slot : Nat) (t : Token) : Bool :=
  !r.replaying.isEmpty &&
  match NatMap.find? r.outMarks (nodeKey r.active slot t.ctx) with
  | some m => decide (t.mark ≤ m)
  | none => false

/-- Remember what an OUTPUT has emitted (R400). -/
def Region.markOut (r : Region) (slot : Nat) (t : Token) : Region :=
  let k := nodeKey r.active slot t.ctx
  { r with outMarks := NatMap.insert r.outMarks k (max (NatMap.get 0 r.outMarks k) t.mark) }

/-- A token at the phase-select output (R51, R142). -/
def selectToken (s : State) (rid slot : Nat) (r : Region) (t : Token) : State :=
  match t.kind with
  | .fault => raiseToken (s.setRegion rid r) rid slot 0 t
  | .data => s.setRegion rid { r with select := some ((t.lanes.get 0).toNat % 4) }
  | _ => s.setRegion rid r

/-- A token at a data output (R142, R399, R401). `r0` still holds it on its port, `r` does not. -/
def outputToken (s : State) (rid slot : Nat) (r0 r : Region) (out : Nat) (t : Token) : State :=
  if t.kind = .fault then raiseToken (s.setRegion rid r) rid slot 0 t
  else if isSink s r0 out ∧ t.poison then s.containedFault rid codeUncorrectable none ⟨slot, 0, t.ctx, ⟨t.lo, t.hi⟩, [(0, t)], 0, 0⟩
  else if r0.emitted slot t then s.setRegion rid r
  else if outRoom s r0 out then sendOut (s.setRegion rid (r.markOut slot t)) rid r out t
  else s

/-- OUTPUT (R142): every token of port a, in order of arrival. -/
def execOutput (f : Fab) (s : State) : Result :=
  atSlot s fun s rid slot ctx r =>
    let n := r.node slot ctx
    match n.a.head with
    | none => s
    | some t =>
      let r1 := (r.setNode slot ctx { n with a := n.a.pop, left := n.left || (t.isEnd && decide (t.level = 0)) }).tookAt slot ctx
      checked s rid slot ctx r t fun s =>
        if bit f.imm.toNat 4 then selectToken s rid slot r1 t
        else outputToken s rid slot r r1 (bits f.imm.toNat 3 0) t

/-! ## Constants, copying, dropping, steering -/

/-- CONST (R143): every lane holds the immediate. -/
def execConst (f : Fab) (s : State) : Result :=
  computeFire (.const f) f (fun _ => f.ty) s fun _ _ => .plain (Lanes.all (immLane f.ty 24 f.imm))

/-- NULLGEN (R143). -/
def execNullgen (f : Fab) (s : State) : Result :=
  fire (.nullgen f) f (fun _ => f.ty) s fun s rid _ ctx fr => toBoth f s rid (fr.nullResult ctx)

/-- The operand of a port forwarded with span I (R139). -/
def Firing.pass (fr : Firing) (ctx : Nat) (k : Port) : Token :=
  match fr.on k with
  | some t => fr.forward ctx t
  | none => fr.nullResult ctx

/-- COPY (R144). -/
def execCopy (f : Fab) (s : State) : Result :=
  fire (.copy f) f (fun _ => f.ty) s fun s rid _ ctx fr => toBoth f s rid (fr.pass ctx .a)

/-- DROP (R144): consumes every token, END included. -/
def execDrop (f : Fab) (s : State) : Result :=
  fireWith (.drop f) (fun _ => f.ty) (judge f.pm) (fun s _ _ _ _ => s) (fun s _ _ _ _ => s) (fun s _ _ _ => s) s

/-- The predicate value of a firing's control token. -/
def Firing.control (fr : Firing) (k : Port) : Pred := ((fr.on k).map (·.pred)).getD .none

/-- STEER (R145). -/
def execSteer (f : Fab) (s : State) : Result :=
  fire (.steer f) f (fun _ => f.ty) s fun s rid _ ctx fr =>
    let paired := bit f.sub.toNat 0
    match fr.control .b with
    | .true =>
      let s1 := toOne f.t0 s rid (fr.pass ctx .a)
      if paired then toOne f.t1 s1 rid (fr.nullResult ctx) else s1
    | .false =>
      let s1 := if paired then toOne f.t0 s rid (fr.nullResult ctx) else s
      toOne f.t1 s1 rid (fr.pass ctx .a)
    | _ => toBoth f s rid (fr.nullResult ctx)

/-- LEXIT (R151). -/
def execLexit (f : Fab) (s : State) : Result :=
  fire (.lexit f) f (fun _ => f.ty) s fun s rid _ ctx fr =>
    match fr.control .b with
    | .true => toOne f.t1 (toOne f.t0 s rid (fr.pass ctx .a)) rid (fr.nullResult ctx)
    | .false => toOne f.t1 s rid (fr.pass ctx .a)
    | _ => toBoth f s rid (fr.nullResult ctx)

/-- How MERGE and SEL judge a firing whose NULL operands they treat themselves (R71, R146, R148): only FAULT operands count. -/
def judgeFaults (f : Firing) : Judged := if f.operands.any fun t => t.kind = .fault then .fault else .ordinary

/-- The operand a paired MERGE forwards (R146): the DATA operand where exactly one is DATA, a's where both are; of other kinds the one that is
not NULL, a's before b's (log 33). -/
def Firing.merged (fr : Firing) (ctx : Nat) : Token :=
  let ka : Kind := (fr.a.map (·.kind)).getD .null
  let kb : Kind := (fr.b.map (·.kind)).getD .null
  if ka = .data then fr.pass ctx .a
  else if kb = .data then fr.pass ctx .b
  else if ka ≠ .null then fr.pass ctx .a
  else if kb ≠ .null then fr.pass ctx .b
  else fr.nullResult ctx

/-- A paired MERGE (R146). -/
def pairedMerge (f : Fab) (s : State) : Result :=
  fireWith (.merge f) (fun _ => f.ty) judgeFaults (fun s rid _ ctx fr => toBoth f s rid (fr.merged ctx))
    (fun s rid _ _ t => toBoth f s rid t) (fun s rid _ t => toBoth f s rid t) s

/-- The port an unpaired MERGE takes from next (R146), true for b: in arrival mode the first arrival on a port that is not closed, in rrobin mode
the port whose turn it is, a closed port losing its turns. -/
def Node.mergeTurn (n : Node) (rrobin : Bool) : Option Bool :=
  let closed := fun (b : Bool) => ((if b then n.b else n.a).head.map (·.isEnd)).getD false
  if rrobin then
    if closed n.turnB then some !n.turnB else some n.turnB
  else n.order.find? fun b => !closed b

/-- Take one entry of a port from an arrival order. -/
def dropOrder (b : Bool) (o : List Bool) : List Bool := o.erase b

/-- Both ports of an unpaired MERGE, or of an OMERGE, hold END: the ENDs. -/
def Node.bothEnds (n : Node) : Option (Token × Token) :=
  match n.a.head, n.b.head with
  | some x, some y => if x.isEnd && y.isEnd then some (x, y) else none
  | _, _ => none

/-- A step of a MERGE in arrival or rrobin mode (R146). DESIGN CHOICE (log 158): where [k, k + 1) is no closed span of 40-bit ticks (R8) it faults
SPAN_EMPTY, as LCARRY does (R150); R146 does not say. -/
def mergeStep (f : Fab) (s : State) (rid slot ctx : Nat) (r : Region) : State :=
  let n := r.node slot ctx
  match n.bothEnds with
  | some (x, y) =>
    if x.level ≠ y.level then s.regionFault rid codeSpanOrder ⟨slot, 0xFF, ctx, ⟨n.count, n.count⟩, [(0, x), (1, y)], 0, 0⟩
    else
      checked s rid slot ctx r x fun s =>
        let m := { n with
          a := n.a.pop, b := n.b.pop, count := 0, turnB := false, left := decide (x.level = 0), order := dropOrder false (dropOrder true n.order) }
        toBoth f (s.setRegion rid (r.setNode slot ctx m)) rid (endToken ctx n.count x.level)
  | none =>
    match n.mergeTurn (decide (f.sub = 2)) with
    | none => s
    | some b =>
      match (if b then n.b else n.a).head with
      | none => s
      | some t =>
        if t.isEnd then s
        else
          checked s rid slot ctx r t fun s =>
            let m := { (if b then { n with b := n.b.pop } else { n with a := n.a.pop }) with turnB := !b, order := dropOrder b n.order }
            if t.kind = .null then s.setRegion rid (r.setNode slot ctx m)
            else if 0xFFFFFFFFFE < n.count + 1 then
              s.regionFault rid codeSpanEmpty ⟨slot, b2n b, ctx, ⟨n.count, n.count⟩, [(b2n b, t)], 0, 0⟩
            else
              toBoth f (s.setRegion rid (r.setNode slot ctx { m with count := n.count + 1 })) rid
                { t with lo := n.count, hi := n.count + 1, interp := false }

/-- MERGE (R146). -/
def execMerge (f : Fab) (s : State) : Result := if f.sub = 0 then pairedMerge f s else atSlot s (mergeStep f)

/-- The reach of a port of OMERGE in its current stream (R62, R147). -/
def PortState.reachNow (x : PortState) : Nat :=
  let now := (x.waiting.map (·.tok)).takeWhile fun t => !t.isEnd
  if now.length < x.waiting.length then unbounded else now.foldl (fun m t => max m t.hi) x.reach

/-- The first token of a port's queue, in the store or spilled (R135). -/
def PortState.first (x : PortState) : Option Token := x.waiting.head?.map (·.tok)

/-- The token OMERGE emits next (R147), true for port b: the lower lo, a before b, once the other port has passed its hi; a spilled one once it has
returned (R135). -/
def Node.omergeNext (n : Node) : Option (Bool × Token) :=
  let a := n.a.first.filter fun t => !t.isEnd
  let b := n.b.first.filter fun t => !t.isEnd
  let pick : Option (Bool × Token) := match a, b with
    | some x, some y => if x.lo ≤ y.lo then some (false, x) else some (true, y)
    | some x, none => some (false, x)
    | none, some y => some (true, y)
    | none, none => none
  pick.filter fun e => decide (e.2.hi ≤ (if e.1 then n.a else n.b).reachNow) && ((if e.1 then n.b else n.a).head).isSome

/-- A step of OMERGE (R147, R72). -/
def omergeStep (f : Fab) (s : State) (rid slot ctx : Nat) (r : Region) : State :=
  let n := r.node slot ctx
  match n.bothEnds with
  | some (x, y) =>
    if x.level ≠ y.level then s.regionFault rid codeSpanOrder ⟨slot, 0xFF, ctx, ⟨max x.lo y.lo, max x.lo y.lo⟩, [(0, x), (1, y)], 0, 0⟩
    else
      checked s rid slot ctx r x fun s =>
        let m := { n with a := { n.a.pop with reach := 0 }, b := { n.b.pop with reach := 0 }, lastHi := 0, left := decide (x.level = 0) }
        toBoth f (s.setRegion rid (r.setNode slot ctx m)) rid (endToken ctx (max x.lo y.lo) x.level)
  | none =>
    match n.omergeNext with
    | none => s
    | some (b, t) =>
      if t.lo < n.lastHi then s.regionFault rid codeSpanOrder ⟨slot, b2n b, ctx, ⟨t.lo, t.hi⟩, [(b2n b, t)], 0, 0⟩
      else
        checked s rid slot ctx r t fun s =>
          let took := fun (x : PortState) => { x.pop with reach := max x.reach t.hi }
          let m := { (if b then { n with b := took n.b } else { n with a := took n.a }) with lastHi := t.hi }
          toBoth f (s.setRegion rid (r.setNode slot ctx m)) rid { t with interp := false }

/-- OMERGE (R147). -/
def execOmerge (f : Fab) (s : State) : Result := atSlot s (omergeStep f)

/-! ## Loops -/

/-- A token on the back edge of LCARRY (R150): what is emitted has its kind and payload, and no predicate value (R64). -/
def backToken (f : Fab) (s : State) (rid slot ctx : Nat) (r : Region) (n : Node) (u : Token) : State :=
  let m := { n with b := n.b.pop }
  if u.isEnd then s.setRegion rid (r.setNode slot ctx m)
  else if u.kind = .fault then toBoth f (s.setRegion rid (r.setNode slot ctx m)) rid { u with interp := false, pred := .none }
  else if !n.live || u.lo ≠ n.cur || u.hi ≠ n.cur + 1 then s.regionFault rid codeSpanOrder ⟨slot, 1, ctx, ⟨u.lo, u.hi⟩, [(1, u)], 0, 0⟩
  else if u.kind = .null then s.setRegion rid (r.setNode slot ctx { m with live := false, lastHi := n.cur + 1 })
  else if 0xFFFFFFFFFE < n.cur + 2 then s.regionFault rid codeSpanEmpty ⟨slot, 1, ctx, ⟨u.lo, u.hi⟩, [(1, u)], 0, 0⟩
  else
    toBoth f (s.setRegion rid (r.setNode slot ctx { m with cur := n.cur + 1 })) rid { u with lo := n.cur + 1, hi := n.cur + 2, interp := false, pred := .none }

/-- A token on the entry of LCARRY (R150): a NULL token keeps the predicate value that every NULL token has (R60). -/
def entryToken (f : Fab) (s : State) (rid slot ctx : Nat) (r : Region) (n : Node) (t : Token) : State :=
  let m := { n with a := n.a.pop }
  if t.kind = .fault then toBoth f (s.setRegion rid (r.setNode slot ctx m)) rid { t with interp := false, pred := .none }
  else if n.live then s
  else if t.isEnd then
    toBoth f (s.setRegion rid (r.setNode slot ctx { m with lastHi := if 1 ≤ t.level then 0 else n.lastHi, left := decide (t.level = 0) })) rid
      (endToken ctx t.lo t.level)
  else if t.lo < n.lastHi then s.regionFault rid codeSpanOrder ⟨slot, 0, ctx, ⟨t.lo, t.hi⟩, [(0, t)], 0, 0⟩
  else
    toBoth f (s.setRegion rid (r.setNode slot ctx { m with cur := t.lo, live := true })) rid { t with hi := t.lo + 1, interp := false, pred := if t.kind = .null then .null else .none }

/-- A step of LCARRY (R150): the back edge first. -/
def lcarryStep (f : Fab) (s : State) (rid slot ctx : Nat) (r : Region) : State :=
  let n := r.node slot ctx
  match n.b.head with
  | some u => checked s rid slot ctx r u fun s => backToken f s rid slot ctx r n u
  | none =>
    match n.a.head with
    | some t => checked s rid slot ctx r t fun s => entryToken f s rid slot ctx r n t
    | none => s

/-- LCARRY (R150). -/
def execLcarry (f : Fab) (s : State) : Result := atSlot s (lcarryStep f)

/-- ENDS (R152). -/
def execEnds (f : Fab) (s : State) : Result :=
  fire (.ends f) f (fun _ => f.ty) s fun s rid _ ctx fr =>
    let s1 := toBoth f s rid (fr.pass ctx .a)
    if fr.control .b = .true then toBoth f s1 rid (endToken ctx fr.span.hi (bits f.imm.toNat 2 0)) else s1

/-! ## Gates, selection, barriers -/

/-- GATE (R149). -/
def execGate (f : Fab) (s : State) : Result :=
  fire (.gate f) f (fun _ => f.ty) s fun s rid _ ctx fr => toBoth f s rid (fr.pass ctx .a)

/-- How SEL judges a firing (R70, R71, R148): in token mode a NULL operand is left to the choice. -/
def judgeSel (f : Fab) (fr : Firing) : Judged :=
  match judge f.pm fr with
  | .null => if bit f.sub.toNat 0 || (fr.p.map fun t => decide (t.pred = .null)).getD false then .null else .ordinary
  | x => x

/-- Lane mode of SEL (R148). -/
def selLanes (fr : Firing) : Lanes :=
  Lanes.ofFn fun i => if ((fr.lanesOf .c).get i).toNat % 2 = 1 then (fr.lanesOf .a).get i else (fr.lanesOf .b).get i

/-- SEL (R148). -/
def execSel (f : Fab) (s : State) : Result :=
  fireWith (.sel f) (fun _ => f.ty) (judgeSel f)
    (fun s rid _ ctx fr =>
      if bit f.sub.toNat 0 then toBoth f s rid (fr.result ctx .data .none (selLanes fr))
      else
        let t : Token := match fr.control .c with
          | .true => fr.pass ctx .a
          | .false => fr.pass ctx .b
          | _ => fr.nullResult ctx
        toBoth f s rid (if t.kind = .null then fr.nullResult ctx else t))
    (fun s rid _ _ t => toBoth f s rid t) (fun s rid _ t => toBoth f s rid t) s

/-- JOIN (R149). -/
def execJoin (f : Fab) (s : State) : Result :=
  fire (.join f) f (fun _ => f.ty) s fun s rid _ ctx fr => toBoth f s rid (fr.result ctx .barrier .none .zero)

/-- The participants of a task's barrier at a level (R40, R153): the contexts of the tasks of one instance of that level; outside a launch, and
for a context that CTXNEW drew, the context alone (log 15). -/
def participants (s : State) (r : Region) (level ctx : Nat) : List Nat :=
  match s.launchOfRegion r with
  | none => [ctx]
  | some l =>
    if !l.ctxs.contains ctx then [ctx]
    else
      let id := fun c => (taskIndices (l.taskOf c) l.rcd.levels).take (level + 1)
      l.ctxs.filter fun c => id c = id ctx

/-- Whether the next generation of a barrier is complete (R153): every participant has arrived or has left, and this one has arrived. -/
def barrierComplete (s : State) (r : Region) (slot ctx level : Nat) : Bool :=
  !(r.node slot ctx).unreleased.isEmpty &&
  (participants s r level ctx).all fun c =>
    let n := r.node slot c
    !n.unreleased.isEmpty || n.left || (decide ((n.a.ended.map (·.2)) = some 0) && n.a.waiting.isEmpty)

/-- A participant's arrival of the generation that completes is released: its token can leave (R153). -/
def releaseArrival (slot : Nat) (r : Region) (c : Nat) : Region :=
  let n := r.node slot c
  if n.unreleased.isEmpty then r else r.setNode slot c { n with generation := n.generation + 1 }

/-- The token of a released arrival leaves (R153). -/
def Region.passArrival (r : Region) (f : Fab) (slot ctx : Nat) : Region :=
  let n := r.node slot ctx
  match n.arrivals with
  | [] => r
  | t :: ts => if n.count < n.generation then (r.setNode slot ctx { n with arrivals := ts, count := n.count + 1 }).sendBoth f t else r

/-- A generation of a barrier completes (R153): the token of this participant leaves, those of the others with firings of theirs (R138); in deterministic
operation it is a synchronisation point (R76). -/
def releaseBarrier (f : Fab) (s : State) (rid slot ctx : Nat) (r : Region) : State :=
  let ps := participants s r (bits f.imm.toNat 2 0) ctx
  let s1 := s.setRegion rid ((ps.foldl (releaseArrival slot) r).passArrival f slot ctx)
  match r.launch, s.launchOfRegion r with
  | some k, some l => (mergeTasks s1 rid k (ps.map l.taskOf)).orElse s
  | _, _ => s1

/-- What BARTOK does with the arrivals of a context (R153): it passes a released one on, or its generation is complete. -/
def barrierStep (f : Fab) (s : State) (rid slot ctx : Nat) (r : Region) : State :=
  if (r.node slot ctx).count < (r.node slot ctx).generation then s.setRegion rid (r.passArrival f slot ctx) else releaseBarrier f s rid slot ctx r

/-- Whether BARTOK has an arrival to pass on or a generation to complete. -/
def barrierDue (s : State) (r : Region) (slot ctx level : Nat) : Bool :=
  decide ((r.node slot ctx).count < (r.node slot ctx).generation) || barrierComplete s r slot ctx level

/-- An arrival at a barrier: its token waits for the generation (R153). -/
def barrierArrive (s : State) (rid slot : Nat) (t : Token) : State :=
  match s.region? rid with
  | none => s
  | some r =>
    let n := r.node slot t.ctx
    s.setRegion rid (r.setNode slot t.ctx { n with arrivals := n.arrivals ++ [t] })

/-- BARTOK (R153). A NULL or FAULT token arrives as any other; its task's token is then that of its null or fault firing (R71; log 34). -/
def execBartok (f : Fab) (s : State) : Result :=
  let release : Bool := match s.focus with
    | .slot rid slot ctx => match s.region? rid with
      | some r => r.live && barrierDue s r slot ctx (bits f.imm.toNat 2 0)
      | none => false
    | _ => false
  if release then atSlot s (barrierStep f)
  else
    fireWith (.bartok f) (fun _ => f.ty) (judge f.pm) (fun s rid slot ctx fr => barrierArrive s rid slot (fr.result ctx .barrier .none .zero))
      (fun s rid slot _ t => barrierArrive s rid slot t) (fun s rid _ t => toBoth f s rid t) s

/-! ## Span instructions -/

/-- Forward a's token with a new span, as `kind`; SPAN_EMPTY where the span is not one (R154). `opened` says that a hi of all ones is the open
span. -/
def respan (f : Fab) (kind : Option Kind) (s : State) (rid slot ctx : Nat) (fr : Firing) (lo hi : Int) (opened : Bool) : State :=
  if lo < 0 ∨ hi ≤ lo ∨ 0xFFFFFFFFFF < hi ∨ (hi = 0xFFFFFFFFFF ∧ opened = false) then
    s.regionFault rid codeSpanEmpty ⟨slot, 0xFF, ctx, fr.span, fr.images, 0, 0⟩
  else
    let t := match kind with
      | some k => fr.result ctx k .none (fr.lanesOf .a)
      | none => fr.pass ctx .a
    toBoth f s rid { t with lo := lo.toNat, hi := hi.toNat }

/-- The 40-bit tick that two lanes of a token hold (R154). -/
def tickOf (v : Lanes) (i : Nat) : Nat := (v.get (i + 1)).toNat % 2 ^ 8 * 2 ^ 32 + (v.get i).toNat % 2 ^ 32

/-- SPANSET (R154). -/
def execSpanset (f : Fab) (s : State) : Result :=
  fire (.spanset f) f (fun _ => f.ty) s fun s rid slot ctx fr =>
    let lo := tickOf (fr.lanesOf .a) 0
    let expl := bit f.sub.toNat 0
    let hi := if expl then tickOf (fr.lanesOf .a) 2 else lo + f.imm.toNat
    respan f none s rid slot ctx fr lo hi expl

/-- SPANSHIFT (R154): an open span stays open. -/
def execSpanshift (f : Fab) (s : State) : Result :=
  fire (.spanshift f) f (fun _ => f.ty) s fun s rid slot ctx fr =>
    let d := f.imm.toInt * 16 ^ f.sub.toNat
    let isOpen := decide (fr.span.hi = openHi)
    respan f none s rid slot ctx fr (fr.span.lo + d) (if isOpen then openHi else fr.span.hi + d) isOpen

/-- SPANCLIP (R154): an open span becomes a closed one. -/
def execSpanclip (f : Fab) (s : State) : Result :=
  fire (.spanclip f) f (fun _ => f.ty) s fun s rid slot ctx fr =>
    respan f none s rid slot ctx fr fr.span.lo (min fr.span.hi (fr.span.lo + f.imm.toNat)) false

/-- Whether a span is stale (R155). -/
def staleSpan (s : State) (r : Region) (b : Nat) (i : Span) : Bool :=
  decide (i.hi ≠ openHi) && decide ((i.hi + b) * 2 ^ ((r.block?).map (·.tshift)).getD 0 < s.dtime)

/-- STALE (R155). -/
def execStale (f : Fab) (s : State) : Result :=
  fire (.stale f) f (fun _ => f.ty) s fun s rid _ ctx fr =>
    match s.region? rid with
    | none => s
    | some r =>
      let old := staleSpan s r f.imm.toNat fr.span
      if bit f.sub.toNat 0 then toBoth f s rid { fr.pass ctx .a with pred := if old then .false else .true }
      else toBoth f s rid (if old then fr.nullResult ctx else fr.pass ctx .a)

/-- RANGE make (R156). DESIGN CHOICE (log 162): BARRIER, ORDER and RANGE tokens are converted as DATA tokens are; R156 speaks of those alone. -/
def execRangeMake (f : Fab) (s : State) : Result :=
  fire (.rangeMake f) f (fun _ => f.ty) s fun s rid slot ctx fr =>
    respan f (some .range) s rid slot ctx fr (tickOf (fr.lanesOf .a) 0) (tickOf (fr.lanesOf .a) 2) false

/-- The regions of the instances of a region's stage (R55). -/
def siblings (s : State) (rid : Nat) (r : Region) : List Nat :=
  match stageOf s r with
  | some (_, _, g) => g.insts
  | none => [rid]

/-- Whether some instance of the stage holds a range with an iteration left (R156). -/
def rangeHeld (s : State) (rid slot ctx : Nat) (r : Region) : Bool :=
  (siblings s rid r).any fun q => match s.region? q with
    | none => false
    | some x => match (x.node slot ctx).range with
      | none => false
      | some t => decide (t.lo < t.hi)

/-- The iteration a current range gives next (R156). -/
def rangeItem (t : Token) : Token :=
  let v := t.lanes
  { t with
    kind := .data, hi := t.lo + 1, pred := .none, interp := false
    lanes := Lanes.ofFn fun i => if i = 7 then BitVec.ofNat 36 (t.lo % 2 ^ 32) else v.get i }

/-- A step of RANGE expand (R156). -/
def rangeStep (f : Fab) (s : State) (rid slot ctx : Nat) (r : Region) : State :=
  let n := r.node slot ctx
  let level := bits f.imm.toNat 2 0
  match n.range with
  | some t =>
    checked s rid slot ctx r t fun s =>
      let last := decide (t.hi ≤ t.lo + 1)
      let r1 := (r.setNode slot ctx { n with range := if last then none else some { t with lo := t.lo + 1 } }).sendBoth f (rangeItem t)
      s.setRegion rid (if last then r1.sendBoth f (endToken ctx t.hi level) else r1)
  | none =>
    match n.a.head with
    | none => s
    | some t =>
      let m := { n with a := n.a.pop }
      if t.kind = .range then s.setRegion rid (r.setNode slot ctx { m with range := some t })
      else if t.isEnd && decide (t.level = 0) then
        if rangeHeld s rid slot ctx r then s
        else checked s rid slot ctx r t fun s => toBoth f (s.setRegion rid (r.setNode slot ctx { m with left := true })) rid (endToken ctx t.lo 0)
      else checked s rid slot ctx r t fun s => toBoth f (s.setRegion rid (r.setNode slot ctx m)) rid t

/-- RANGE expand (R156). -/
def execRangeExpand (f : Fab) (s : State) : Result := atSlot s (rangeStep f)

/-! ## Contexts -/

/-- CTX_EXHAUSTED (R391). -/
def codeExhausted : Nat := 0x09

/-- A FAULT token whose payload is a code alone (R157, R158). -/
def Firing.codeFault (fr : Firing) (ctx code : Nat) : Token := fr.result ctx .fault .none ⟨BitVec.ofNat 36 code, 0, 0, 0, 0, 0, 0, 0⟩

/-- A region without what its slots held in a context. -/
def Region.without (r : Region) (c : Nat) : Region :=
  { r with nodes := r.nodes.filter fun e => decide (e.1 % 4096 ≠ c), outOrder := r.outOrder.map fun e => (e.1, e.2.filter (· ≠ c)) }

/-- A region draws a context for its launch, or for itself (R58, R157): nothing is left in it of an earlier use. -/
def drawCtx (s : State) (rid : Nat) (r : Region) (c : Nat) : State :=
  match r.launch, s.launchOfRegion r with
  | some k, some l =>
    { (s.setLaunch k { l with drawn := l.drawn ++ [c] }) with
      regions := mapWhere (fun e => decide (e.2.launch = some k)) (fun e => (e.1, e.2.without c)) s.regions }
  | _, _ => s.setRegion rid { (r.without c) with drawn := r.drawn ++ [c] }

/-- CTXNEW (R157). -/
def execCtxnew (f : Fab) (s : State) : Result :=
  fire (.ctxnew f) f (fun _ => f.ty) s fun s rid _ ctx fr =>
    match s.region? rid, s.lowestFree with
    | some r, some c =>
      let s1 := toOne f.t0 (drawCtx s rid r c) rid (fr.result ctx .data .none ⟨BitVec.ofNat 36 c, 0, 0, 0, 0, 0, 0, 0⟩)
      toOne f.t1 s1 rid { fr.pass ctx .a with ctx := c }
    | _, _ => toOne f.t0 s rid (fr.codeFault ctx codeExhausted)

/-- Return a context that CTXNEW drew (R158); none where it may not be. Its launch keeps the flags raised in it (R73). -/
def returnCtx (s : State) (rid : Nat) (r : Region) (c own : Nat) : Option State :=
  match r.launch, s.launchOfRegion r with
  | some k, some l =>
    if l.drawn.contains c ∧ c ≠ own then
      some (clearFlags (s.setLaunch k { l with
        drawn := l.drawn.erase c, freed := c :: l.freed.erase c, flags := ExFlags.or l.flags (launchFlags s k [c]) }) [c])
    else none
  | _, _ =>
    if r.drawn.contains c ∧ c ≠ own then some (s.setRegion rid { r with drawn := r.drawn.erase c, freed := c :: r.freed.erase c }) else none

/-- CTXFREE (R158). -/
def execCtxfree (f : Fab) (s : State) : Result :=
  fire (.ctxfree f) f (fun _ => f.ty) s fun s rid _ ctx fr =>
    match s.region? rid with
    | none => s
    | some r =>
      match returnCtx s rid r ((fr.lanesOf .a).get 0).toNat ctx with
      | some s1 => toBoth f s1 rid (fr.pass ctx .a)
      | none => toBoth f s rid (fr.codeFault ctx codePermission)

end Sys2Proof.Machine
end

