-- ==== Sys2Proof/Machine/Trap.lean ====
section
/-! DEFINITION. TRAP and BRK (spec 18 R405, R406), the arrival of tokens and the return of spilled ones as steps (02 R65; 05 R135), and the
firing selector of a PE (05 R138). -/

namespace Sys2Proof.Machine

/-- TRAP (R406): an ordinary firing is a region fault with the immediate in ARG0; a null firing emits nothing; a fault firing raises the code of
its FAULT token. -/
def execTrap (f : Fab) (s : State) : Result :=
  fireWith (.trap f) (fun _ => f.ty) (judge f.pm)
    (fun s rid slot ctx fr => s.regionFault rid codeTrap ⟨slot, 0xFF, ctx, fr.span, fr.a.toList.map fun t => (0, t), f.imm.toNat, 0⟩)
    (fun s rid slot _ t => if t.kind = .fault then raiseToken s rid slot 0xFF t else s)
    (fun s _ _ _ => s) s

/-- An ordinary firing of BRK (R406): it is held, and a record is written that freezes nothing. -/
def holdFiring (f : Fab) (s : State) (rid slot ctx : Nat) (fr : Firing) : State :=
  match s.region? rid with
  | none => s
  | some r =>
    let n := r.node slot ctx
    let rec' := regionRecord s r codeBreak 0 ⟨slot, 0xFF, ctx, fr.span, fr.a.toList.map fun t => (0, t), f.imm.toNat, 0⟩
    (s.setRegion rid (r.setNode slot ctx { n with held := n.held ++ [⟨fr.pass ctx .a, fr.span, false⟩] })).addRecord rec'

/-- The held firing of a slot that has been released (R406), with those behind it. -/
def Node.freed (n : Node) : Option (Held × List Held) :=
  match n.held with
  | h :: hs => if h.freed then some (h, hs) else none
  | [] => none

/-- BRK (R406): a held firing that has been released forwards its token; null and fault firings are forwarded without holding. -/
def execBrk (f : Fab) (s : State) : Result :=
  let due : Option (Nat × Region) := match s.focus with
    | .slot rid slot ctx => (s.region? rid).bind fun r => if !r.live then none else
        (r.node slot ctx).freed.map fun h => (rid, (r.setNode slot ctx { (r.node slot ctx) with held := h.2 }).sendBoth f h.1.tok)
    | _ => none
  match due with
  | some (rid, r) => .next (s.setRegion rid r)
  | none => fireWith (.brk f) (fun _ => f.ty) (judge f.pm) (holdFiring f) (fun s rid _ _ t => toBoth f s rid t) (fun s rid _ t => toBoth f s rid t) s

/-- Release the held firings of a slot in a context. -/
def releaseHeldAt (r : Region) (e : Nat × Nat × Node) : Region :=
  match r.instrAt e.1 with
  | some (.brk _) => r.setNode e.1 e.2.1 { e.2.2 with held := e.2.2.held.map fun h => { h with freed := true } }
  | _ => r

/-- The held firings of a PE of a physical quad are released (R398, R406): of the logical quad in its turn. Each forwards its token when the firing selector
issues it (R138), where the routers take it (R426). -/
def releaseBrk (s : State) (pq pe : Nat) : State :=
  { s with regions := s.regions.map fun e =>
    let here := fun (slot : Nat) => decide (s.pqOf (e.2.lqAt slot) = pq) && decide (e.2.peBit slot % 9 = pe) && s.inTurn (e.2.lqAt slot)
    (e.1, (e.2.activeNodes.filter fun x => here x.1 && !x.2.2.held.isEmpty).foldl releaseHeldAt e.2) }

/-- PE_BRK_RELEASE (R406). -/
def execPeBrkRelease (pq pe : Nat) (s : State) : Result := .next (releaseBrk s pq pe)

/-! ## Arrival and spilled tokens -/

/-- Whether a port does not take a token for now: an OUTPUT whose channel is full (R142); BARTOK, an arrival two generations ahead of its task's barrier
(R153). -/
def portHeld (s : State) (r : Region) (slot : Nat) (t : Token) : Bool :=
  match r.instrAt slot with
  | some (.output f) => !bit f.imm.toNat 4 && !isSink s r (bits f.imm.toNat 3 0) && !outRoom s r (bits f.imm.toNat 3 0)
  | some (.bartok _) => let n := r.node slot t.ctx; !t.isEnd && decide (2 ≤ n.unreleased.length + n.a.waiting.length)
  | _ => false

/-- TOKEN_ARRIVAL (R61, R65, R134): the first token on its way to a port of a region reaches it; one that the port holds back (R142, R153) keeps those of its
context behind it waiting. -/
def execTokenArrival (rid slot port : Nat) (s : State) : Result :=
  match s.region? rid with
  | none => .next s
  | some r =>
    if !r.live || !s.inTurn (r.lqAt slot) then .next s
    else
      let held := r.flight.filter fun x => decide (x.slot = slot) && decide (portCode x.port = port) && portHeld s r slot x.tok
      match takeFirst (fun x => decide (x.slot = slot) && decide (portCode x.port = port) && !held.any fun y => decide (y.tok.ctx = x.tok.ctx)) r.flight with
      | none => .next s
      | some (x, rest) => .next (arrive (s.setRegion rid { r with flight := rest }) rid slot x.port x.tok)

/-- Whether an instruction takes the tokens of its ports in order of arrival. -/
def inOrder (i : Instr) : Bool :=
  match i with
  | .output _ => true
  | .omerge _ => true
  | .lcarry _ => true
  | .rangeExpand _ => true
  | .merge f => f.sub ≠ 0
  | _ => false

/-- Whether the next firing of a slot needs a waiting token (R135). -/
def neededNow (r : Region) (x : Spot) : Bool :=
  match r.instrAt x.slot with
  | none => false
  | some i =>
    let n := r.node x.slot x.ctx
    if inOrder i then decide ((n.port x.port).waiting.head? = some x.w)
    else
      match openSets i n with
      | [] => false
      | st :: _ => st.hi.isSome && st.toks.any fun e => decide (e.1 = x.port) && (decide (e.2.1 = x.w) || decide (e.2.2.2 = some x.w))

/-- SPILL_RETURN (R135): where a way of a set is free, the spilled token of that set with the lowest key returns to it; where none is, one that a
firing needs returns to that firing (log 56). -/
def execSpillReturn (rid pe set : Nat) (s : State) : Result :=
  match s.region? rid with
  | none => .next s
  | some r =>
    if !r.live || !s.inTurn (r.lqOfBit (r.pes.getD pe 0)) then .next s
    else
      let here := r.storeSpots.filter (r.inSet pe set)
      let room := decide ((here.filter fun x => decide (x.w.place = .store)).length < 8)
      match leastBy (Spot.key r) (here.filter fun x => x.w.place.spilled && (room || neededNow r x)) with
      | none => .next s
      | some x => .next (s.setRegion rid (r.moveSpot x (if room then .store else .operand)))

/-! ## The firing selector -/

/-- The lo with which an INPUT is ready to fire (R138, R141, R387, R390). -/
def inputReady (s : State) (r : Region) (slot : Nat) (f : Fab) : Option Nat :=
  let n := bits f.imm.toNat 3 0
  match r.pendingReplay.find? fun e => e.1 = n with
  | some e => some e.2.lo
  | none =>
    match feedKind s r f with
    | .unfed =>
      let k := (r.node slot (firstCtx s r)).count
      if k = 0 then some 0 else if k = 1 then some openHi else none
    | .stream =>
      match boundStream s r n with
      | none => none
      | some (k, x) => match x.queue with
        | t :: _ => some t.lo
        | [] => if closesNow s k x then some x.queuedHi else none
    | .channel => (nextInput s r n).map fun e => e.1.lo

/-- Whether a context's operand is the one that an OUTPUT sends next: the oldest there (R142). -/
def Region.outTurn (r : Region) (slot ctx : Nat) : Bool :=
  match (NatMap.get [] r.outOrder slot).find? fun c => !(r.node slot c).a.waiting.isEmpty with
  | some c => decide (c = ctx)
  | none => true

/-- The lo with which an OUTPUT is ready (R138, R142). -/
def outputReady (s : State) (r : Region) (slot ctx : Nat) (f : Fab) : Option Nat :=
  match (r.node slot ctx).a.head with
  | none => none
  | some t =>
    if bit f.imm.toNat 4 || decide (t.kind = .fault) || isSink s r (bits f.imm.toNat 3 0) || r.emitted slot t || outRoom s r (bits f.imm.toNat 3 0) then some t.lo
    else none

/-- The lo with which an unpaired MERGE is ready (R146). -/
def mergeReady (n : Node) (rrobin : Bool) : Option Nat :=
  if n.bothEnds.isSome then some n.count
  else
    match n.mergeTurn rrobin with
    | none => none
    | some b => match (if b then n.b else n.a).head with
      | some t => if t.isEnd then none else some n.count
      | none => none

/-- The lo with which OMERGE is ready (R147). -/
def omergeReady (n : Node) : Option Nat :=
  match n.bothEnds with
  | some (x, y) => some (max x.lo y.lo)
  | none => n.omergeNext.map fun e => e.2.lo

/-- The lo with which LCARRY is ready (R150). -/
def lcarryReady (n : Node) : Option Nat :=
  match n.b.head with
  | some u => some u.lo
  | none => match n.a.head with
    | some t => if n.live && decide (t.kind ≠ .fault) then none else some t.lo
    | none => none

/-- The lo with which RANGE expand is ready (R156). -/
def rangeReady (s : State) (rid slot ctx : Nat) (r : Region) : Option Nat :=
  let n := r.node slot ctx
  match n.range with
  | some t => some t.lo
  | none => match n.a.head with
    | some t => if t.isEnd && decide (t.level = 0) && rangeHeld s rid slot ctx r then none else some t.lo
    | none => none

/-- The lo with which an instruction that fires by R63 is ready: its next set, or its END (R72, R138). -/
def setReady (i : Instr) (s : State) (r : Region) (slot ctx : Nat) : Option Nat :=
  let n := r.node slot ctx
  match nextSet i n with
  | some set => match set.span? with
    | none => none
    | some sp => if slotReady i s r slot ctx (some (set.firing i (fun _ => .b32) sp)) then some set.lo else none
  | none => match endReady i n with
    | none => none
    | some (lo, _) => if slotReady i s r slot ctx none then some lo else none

/-- What the next firing of a SPAWN must wait for, where it must wait for a read of the arbiter (R48, R203). -/
def spawnWaits (s : State) (r : Region) (slot ctx : Nat) (f : Fab) : Option (Option PageHold) :=
  match nextSet (.spawn f) (r.node slot ctx) with
  | none => none
  | some set =>
    match set.span? with
    | none => none
    | some sp =>
      let fr := set.firing (.spawn f) (fun _ => .b32) sp
      let va := laneAddr (fr.lanesOf .a) 0
      if judge f.pm fr = .ordinary ∧ va % 64 = 0 then
        match s.readVa (arbAccess s r.part) va 128 with
        | .wait h => some h
        | .fault _ _ => none
        | .done (bs, _) => match judgeLaunch s r.part 0 0 0 none [] bs with
          | .error (.wait h) => some h
          | _ => none
      else none

/-- Whether the wait of a SPAWN has been noted, so that its slot stands back until the page is released (R203). -/
def noted (s : State) : Option (Option PageHold) → Bool
  | none => false
  | some none => true
  | some (some (.page pq part vpn)) => (s.pquadOf pq).held.contains (part, vpn)
  | some (some (.peer _ _ _)) => false

/-- The lo with which a slot is ready to fire in a context, where it is (R138). -/
def readyLo (s : State) (rid : Nat) (r : Region) (slot ctx : Nat) : Option Nat :=
  match r.instrAt slot with
  | none => none
  | some i =>
    match i with
    | .input f => inputReady s r slot f
    | .output f => if r.outTurn slot ctx then outputReady s r slot ctx f else none
    | .omerge _ => omergeReady (r.node slot ctx)
    | .lcarry _ => lcarryReady (r.node slot ctx)
    | .rangeExpand _ => rangeReady s rid slot ctx r
    | .merge f => if f.sub = 0 then setReady i s r slot ctx else mergeReady (r.node slot ctx) (decide (f.sub = 2))
    | .spawn f => if noted s (spawnWaits s r slot ctx f) then none else setReady i s r slot ctx
    | .bartok f =>
      if barrierDue s r slot ctx (bits f.imm.toNat 2 0) then ((r.node slot ctx).arrivals.head?).map (·.lo) else setReady i s r slot ctx
    | .brk _ => match (r.node slot ctx).freed with
      | some (h, _) => some h.span.lo
      | none => setReady i s r slot ctx
    | _ => setReady i s r slot ctx

/-- The contexts in which a slot has state; an INPUT is looked at once, in the region's first context. -/
def slotCtxs (s : State) (r : Region) (slot : Nat) : List Nat :=
  match r.instrAt slot with
  | some (.input _) => [firstCtx s r]
  | _ => (r.activeNodes.filter fun e => e.1 = slot).map fun e => e.2.1

/-- The slots placed on a PE of a region, by its index in the region. -/
def Region.slotsOn (r : Region) (pe : Nat) : List Nat :=
  match r.block? with
  | none => []
  | some b => (List.range b.words.length).filter fun i => decide ((b.places.getD i (0, 0)).1 = pe)

/-- Whether the routers of a slot's targets take what a firing sends them: a token and an END for each (R156); a router holds 8 tokens (R426). -/
def targetsTake (r : Region) (slot : Nat) : Bool :=
  let ps := (wordTargets (r.wordAt slot)).map fun t => (r.placeOf t.slot.toNat).1
  ps.all fun pe => decide (r.routed pe + 2 * ps.count pe ≤ 8)

/-- The firing a PE issues next (R138): of the ready firings the one of lowest lo, then lowest local slot, then lowest context. -/
def selectFiring (s : State) (rid : Nat) (r : Region) (pe : Nat) : Option (Nat × Nat) :=
  let all := ((r.slotsOn pe).filter (targetsTake r)).flatMap fun slot => (slotCtxs s r slot).filterMap fun ctx =>
    (readyLo s rid r slot ctx).map fun lo => ((lo * 32 + (r.placeOf slot).2) * 4096 + ctx, slot, ctx)
  (leastBy (fun e => e.1) all).map (·.2)

/-- Whether some firing of a region is ready to issue. -/
def anyReady (s : State) (rid : Nat) (r : Region) : Bool :=
  (List.range r.pes.length).any fun pe => (selectFiring s rid r pe).isSome

end Sys2Proof.Machine
end

