-- ==== Sys2Proof/Machine/Lifecycle.lean ====
section
/-! DEFINITION. The end of regions and launches, rollback and retirement (spec 02 R51, R73, R74; 18 R392, R393, R395, R400 to R404). -/

namespace Sys2Proof.Machine

/-! ## Discarding -/

/-- Accesses of regions that are not yet performed are dropped (R392, R401). -/
def State.dropAccesses (s : State) (gone : Nat → Bool) : State :=
  let ids := (s.pending.filter fun p => gone p.req.region).map (·.req.id)
  { s with pending := s.pending.filter (fun p => !gone p.req.region), homes := s.homes.filter fun p => !ids.contains p.req }

/-- A record that waits names no region of some handles any more: they are gone, or the handle is taken afresh. A quad that it retires is still retired. -/
def FaultRecord.forget (ks : List Nat) (f : FaultRecord) : FaultRecord :=
  let gone := match f.replays with
    | some (k, _) => ks.contains k
    | none => false
  { f with
    stops := f.stops.filter fun k => !ks.contains k
    replays := if gone then (f.replays.bind (·.2)).map fun q => (2 ^ 64, some q) else f.replays }

/-- What waits for the fault ring forgets regions that are gone (R392). -/
def forgetRegions (s : State) (ks : List Nat) : State :=
  { s with parts := s.parts.map fun e => (e.1, { e.2 with records := e.2.records.map (FaultRecord.forget ks) }) }

/-- Regions are stopped and discarded. -/
def State.discardRegions (s : State) (gone : Nat → Region → Bool) : State :=
  let ks := (s.regions.filter fun e => gone e.1 e.2).map (·.1)
  { forgetRegions (s.dropAccesses fun r => ks.contains r) ks with regions := s.regions.filter fun e => !ks.contains e.1 }

/-- A region stops with a code (R392), or 0 at a phase end (R51, R275): its accesses not yet performed are dropped. -/
def Region.stopped (r : Region) (code : Nat) : Region :=
  { r with running := false, frozen := false, stop := some (r.stop.getD code), flight := [], windows := [], pendingReplay := [] }

/-- A region outside any launch stops with a code (R392), or 0 at a phase end (R51, R275). -/
def State.stopRegion (s : State) (rid code : Nat) : State :=
  match s.region? rid with
  | none => s
  | some r => (s.dropAccesses fun q => decide (q = rid)).setRegion rid (r.stopped code)

/-- A queue that QFLUSH flushes (R412): the word at issue is discarded, the loop stack emptied, W and CYCLES are zero, the queue is HALTED. -/
def Queue.flush (x : Queue) : Queue :=
  if x.st = .halted then x
  else { x with st := .halted, loops := [], phase := .fresh, wait := { x.wait with w := false, base := 0, since := none, live := false } }

/-- The 256 bytes of the header of an image (R421). -/
def Image.header (im : Image) : List Byte :=
  let code := match im.st with
    | .saving => 0
    | .complete => 1
    | .restored => 2
    | .abandoned => 3
  padTo 256 (toBytes 1 0x70 ++ toBytes 1 im.cause ++ toBytes 1 code ++ toBytes 1 im.part ++ toBytes 4 im.lid ++ toBytes 8 im.freeze ++
    toBytes 8 im.size ++ toBytes 2 im.nq ++ toBytes 2 im.ntag ++ toBytes 4 im.late.length ++ toBytes 4 im.check)

/-- Write the header of an image into its first page. -/
def writeHeader (s : State) (im : Image) : State :=
  match im.pages with
  | [] => s
  | p :: _ =>
    if rangeOf s p = .peer then (s.writeRuns im.part 4096 [(p, 64), (p + 64, 64), (p + 128, 64), (p + 192, 64)] im.header).getD s
    else s.writeAt p im.header

/-- Put an image, with its header. -/
def putImage (s : State) (k : Nat) (im : Image) : State := writeHeader { s with images := NatMap.insert s.images k im } im

/-- An image that its launch no longer needs: what it held is gone (R427, R430). -/
def Image.emptied (im : Image) (st : ImageState) : Image :=
  { im with st := st, reading := [], regions := [], asked := [], queues := [], bce := [], bceCur := [], mxcmds := [], mxcfg := [], nodes := [], ovf := [], late := [], tags := [] }

/-- The saved queues of an abandoned save return HALTED, as QFLUSH leaves them, where their places are still free (R430). -/
def returnQueues (s : State) (im : Image) : State :=
  im.queues.foldl (fun s e => if (s.queueOf (e.1 / 4) (e.1 % 4)).st = .halted then s.setQueue (e.1 / 4) (e.1 % 4) e.2.flush else s) s

/-- The queues of some contexts that a quad still holds are flushed (R412, R430). -/
def flushCtxs (s : State) (lqs ctxs : List Nat) : State :=
  lqs.foldl (fun s lq => [0, 1, 2, 3].foldl (fun s q =>
    let x := s.queueOf lq q
    if ctxs.contains x.ctx then s.setQueue lq q x.flush else s) s) s

/-- A save that a fault overtakes is abandoned (R430). -/
def abandonImage (s : State) (ctxs : List Nat) (k : Nat) (im : Image) : State :=
  let s1 := { s with
    pending := s.pending.filter fun p => !im.late.contains p.req.id
    homes := s.homes.filter fun p => !im.late.contains p.req }
  putImage (flushCtxs (returnQueues s1 im) im.reading ctxs) k (im.emptied .abandoned)

/-- The images of a launch are abandoned. -/
def abandonSaves (s : State) (n : Nat) (ctxs : List Nat) : State :=
  (s.images.filter fun e => decide (e.2.launch = n) && (decide (e.2.st = .saving) || decide (e.2.st = .complete))).foldl
    (fun s e => abandonImage s ctxs e.1 e.2) s

/-! ## The end of a launch -/

/-- Nobody waits any more for frames of a stream that a peer has still to write. -/
def State.dropFrames (s : State) (n : Nat) : State :=
  { s with peerOut := mapWhere (fun o => match o.owner with | .frame m _ _ => decide (m = n) | _ => false) (fun o => { o with owner := .nobody }) s.peerOut }

/-- A stream whose bound input is gone closes once no frame is left in its decoder, and a VCLOSE that waits completes (R390). -/
def closeEnded (s : State) (k : Nat) : State :=
  let x := NatMap.get .init s.streams k
  if !x.ended || decide (x.taken ≠ []) then s
  else
    let s1 := { s.dropFrames k with streams := NatMap.set .init s.streams k { x with st := .closed, busy := [], queue := [], closeCmd := none, ended := false } }
    match x.closeCmd with
    | some c => s1.completeLate c
    | none => s1

/-- The streams bound to a launch that ends close as VCLOSE closes them, without an END: they stop reading, and frames already decoding finish (R390). -/
def closeStreams (s : State) (n : Nat) : State :=
  (s.streams.filter fun e => (decide (e.2.st = .bound) || decide (e.2.st = .closing)) && !e.2.ended && decide (e.2.target.launch = n)).foldl (fun s e =>
    closeEnded { s with streams := NatMap.set .init s.streams e.1 { e.2 with st := .closing, queue := [], ended := true } } e.1) s

/-- The code for QWAIT of the regions of a launch that a CFGLOAD started (R275; log 146): each stands stopped, where its handle names no other region. -/
def keptRegions (n code : Nat) (rs : NatMap Region) (t : State) : State :=
  (rs.filter fun e => decide (e.2.launch = some n) && e.2.configured).foldl (fun t e =>
    if (t.region? e.1).isSome then t
    else t.setRegion e.1 { (e.2.stopped code) with launch := none, role := none, nodes := [], flags := [], drawn := [], freed := [], outOrder := [] }) t

/-- The regions of a launch are stopped and discarded with the accesses not yet performed (R73, R392). Of one that a CFGLOAD started the code remains, for
QWAIT (R275; log 146). -/
def stopLaunch (s : State) (n code : Nat) : State :=
  keptRegions n code s.regions (s.discardRegions fun _ r => decide (r.launch = some n))

/-- What the PSEs hold of contexts until a synchronisation point that does not come (R354): those commands are never accepted. -/
def dropHeld (s : State) (ctxs : List Nat) : State :=
  { s with halls := s.halls.map fun e => (e.1, { e.2 with pseHeld := e.2.pseHeld.filter fun c => !ctxs.contains c.ctx }) }

/-- THE END OF A LAUNCH with a STATUS (R73, R74, R392): its flags are gathered, its regions stopped, its contexts and reservations released; then its
completion record is written. -/
def endLaunch (s : State) (n status : Nat) : State :=
  match s.launch? n with
  | none => s
  | some l =>
    match l.phase with
    | .owed _ _ => s
    | _ =>
      let ctxs := l.ctxs ++ l.drawn
      let bs := ranRecord l status (ExFlags.all [l.flags, launchFlags s n ctxs]) s.dtime
      let s1 := closeStreams (clearFlags (abandonSaves s n ctxs) ctxs) n
      let saved := s.images.flatMap fun e => if decide (e.2.launch = n) then e.2.regions else []
      let s2 := dropHeld (keptRegions n status saved (stopLaunch s1 n status)) ctxs
      let m := { l with phase := .owed bs status, ctxs := [], drawn := [], freed := [], stages := [], chans := [], sinkEnds := [], spawns := [], views := [] }
      payRecord (s2.setLaunch n m) n

/-- A fault ends the launch of a region, or stops a region outside any launch (R392). -/
def endByFault (s : State) (rid code : Nat) : State :=
  match s.region? rid with
  | none => s
  | some r => match r.launch with
    | some n => endLaunch s n code
    | none => s.stopRegion rid code

/-! ## Rollback and retirement -/

/-- The slot state of a region's INPUTs, whose retained tokens are delivered again from the retention buffers. -/
def Region.inputNodes (r : Region) : NatMap Node :=
  let slots := r.inputs.map (·.1)
  r.nodes.filter fun e => decide (e.1 / 4096 / 128 = r.active) && slots.contains (e.1 / 4096 % 128)

/-- Whether a write has been performed in part, or may have been, at a peer: a rollback lets it finish (R401). -/
def begun (s : State) (p : Pending) : Bool :=
  p.req.op.isWrite &&
  match p.st with
  | .homes left _ _ => atPeer s p.req.id || decide (left < (granuleRuns p.req.addr p.req.offs).length)
  | _ => false

/-- The writes of a region that have been performed or begun and whose acknowledgements have still to be released: slot, context, span. -/
def unacked (s : State) (rid : Nat) (r : Region) : List (Nat × Nat × Span) :=
  (r.windows.flatMap fun e => e.2.filterMap fun w => match w with
    | .ready _ _ c true _ (some sp) => some (e.1, c, sp)
    | _ => none) ++
  (s.pending.filter fun p => decide (p.req.region = rid) && begun s p).map fun p => (p.req.slot, p.req.ctx, p.req.span)

/-- Whether a record of a region that has still to be written keeps its clock frozen (R393). -/
def owesRecord (s : State) (rid : Nat) (r : Region) : Bool :=
  r.frozen && (s.partOf r.part).records.any fun f =>
    decide ((f.replays.map Prod.fst) = some rid) || decide (f.stops = some rid) || (f.ends.isSome && decide (f.ends = r.launch))

/-- Accesses of a region that a rollback discards: those not yet performed (R401). -/
def dropUnbegun (s : State) (rid : Nat) : State :=
  let gone := fun (p : Pending) => decide (p.req.region = rid) && !begun s p
  let ids := (s.pending.filter gone).map (·.req.id)
  { s with pending := s.pending.filter (fun p => !gone p), homes := s.homes.filter fun p => !ids.contains p.req }

/-- ROLLBACK (R401): every token and the slot state return to the replay copy, requests not yet performed are discarded, each input delivers its
retained tokens again. A write that has been performed is not performed again, whether its acknowledgement had been released or not. -/
def rollback (s : State) (rid : Nat) : State :=
  match s.region? rid with
  | none => s
  | some r =>
    let keep := r.inputNodes
    let nodes := keep.foldl (fun m e => NatMap.insert m e.1 e.2) (r.replay.nodes.filter fun e => (NatMap.find? keep e.1).isNone)
    let r1 := { r with
      nodes := nodes, select := r.replay.select, outOrder := r.replay.outOrder, flight := [], windows := [], performed := r.performed ++ unacked s rid r
      pendingReplay := r.retained, frozen := owesRecord s rid r, stuck := 0, stuckAt := none }
    (dropUnbegun s rid).setRegion rid r1

/-- Roll a region back where it can be, else end its launch (R401, R402). -/
def rollOrEnd (s : State) (rid code : Nat) : State :=
  match s.region? rid with
  | none => s
  | some r => if r.unreplayable then endByFault s rid code else rollback (s.setRegion rid (r.replayFrom code 0)) rid

/-- The present physical quads of the part that are not retired. -/
def State.usableQuads (s : State) : List Nat := (List.range s.numPq).filter fun q => !(s.pquadOf q).retired

/-- The quad that takes over the logical quads of a retired one (R402). -/
def hostFor (s : State) (pq : Nat) : Option Nat :=
  let all := s.usableQuads.filter (· ≠ pq)
  let best := fun (p : Nat → Bool) => leastBy (fun q => 128 * (s.hosted q).length + q) (all.filter p)
  best (fun q => decide (q / 16 = pq / 16)) <|> best (fun q => decide (q / 64 = pq / 64)) <|> best fun _ => true

/-- SYS_REMAP of a logical quad with another host and share; its home stays (R193, R403). -/
def moveQuad (s : State) (host share : Nat) (lq : Nat) : State :=
  let v := s.remapOf lq
  { s with remap := NatMap.insert s.remap lq (BitVec.ofNat 64 (v / 2 ^ 16 * 2 ^ 16 + share * 2 ^ 8 + host)) }

/-- Whether a region has a PE in one of some logical quads. -/
def Region.touches (r : Region) (lqs : List Nat) : Bool := r.pes.any fun b => lqs.contains (r.lqOfBit b)

/-- QUAD RETIREMENT (R402): the logical quads of a physical quad move to another, and every region on it is rolled back there; where no quad
remains, every launch that uses them ends with the code. -/
def retireQuad (s : State) (pq code : Nat) : State :=
  let p := s.pquadOf pq
  if p.retired then s
  else
    let lqs := s.hosted pq
    let s0 := s.setPquad pq { p with retired := true }
    let rids := (s0.regions.filter fun e => e.2.touches lqs).map (·.1)
    match hostFor s pq with
    | none => rids.foldl (fun s rid => endByFault s rid code) s0
    | some h =>
      let old := s.hosted h
      let ph := s0.pquadOf h
      let s1 := s0.setPquad h { ph with turn := if ph.turn.isNone then old.head? else ph.turn, turnStart := if ph.turn.isNone then s.cycle else ph.turnStart }
      let s2 := (old ++ lqs).foldl (fun s lq => moveQuad s h (old.length + lqs.length) lq) s1
      rids.foldl (fun s rid => rollOrEnd s rid code) s2

/-! ## Fault records -/

/-- The record that a partition's ring takes next (R392, R393): the oldest, but of the region faults raised in one cycle the one of lowest logical quad, PE
and slot. -/
def nextRecord (fs : List FaultRecord) : Option FaultRecord :=
  match fs with
  | [] => none
  | f :: _ =>
    if f.kind = 0 then
      leastBy (fun g => (g.lq * 16 + g.pe) * 256 + g.slot) (fs.filter fun g => decide (g.kind = 0) && decide (g.cycle = f.cycle))
    else some f

/-- What follows once a record has been written or dropped (R392, R395, R401, R402). -/
def afterRecord (s : State) (f : FaultRecord) (addr : Nat) : State :=
  let s1 := match f.queue with
    | none => s
    | some (lq, q) =>
      let x := s.queueOf lq q
      match s.savedQueue? lq q f.ctx with
      | some (k, im, y) => if y.st = .trapped then s.setSavedQueue k lq q im (y.vector f.code (vaOf f.word) addr) else s
      | none => if x.st = .trapped then s.setQueue lq q (x.vector f.code (vaOf f.word) addr) else s
  let s2 := match f.replays with
    | some (_, some pq) =>
      let p := s1.pquadOf pq
      retireQuad (s1.setPquad pq { p with peCode := NatMap.set 0 p.peCode f.pe f.code }) pq f.code
    | _ => s1
  match f.ends, f.stops, f.replays with
  | some n, _, _ => endLaunch s2 n f.code
  | none, some rid, _ => s2.stopRegion rid f.code
  | none, none, some (rid, _) => rollback s2 rid
  | none, none, none => s2

/-- FAULT_RECORD_WRITE (R393, R395): a waiting record is written to its partition's ring when there is room and its page and bank do not make
the write wait. -/
def execFaultRecordWrite (p : Nat) (s : State) : Result :=
  let x := s.partOf p
  if !x.ringRoom then .next s
  else
    match nextRecord x.records with
    | none => .next s
    | some f =>
      if s.ringWaits p f.lq then .next s
      else
        let s1 := s.setPart p { x with records := x.records.erase f }
        let w := s1.writeRecord f
        .next (afterRecord w.1 f w.2)

/-! ## Replay points -/

/-- Whether a region is at a replay point (R400): nothing but held, latched and open tokens rests in it, its windows are empty, and nothing is on
its way. -/
def atReplayPoint (s : State) (r : Region) : Bool :=
  r.flight.isEmpty && r.windowsEmpty && r.pendingReplay.isEmpty && r.spots.all r.rests &&
  r.activeNodes.all (fun e => e.2.2.arrivals.isEmpty && e.2.2.held.isEmpty && ports.all fun k => (e.2.2.port k).behind.isEmpty) &&
  r.inputs.all fun e => decide (feedKind s r e.2 = .unfed) || inputDone s r e.1 e.2

/-- A region takes a replay point (R400, R429): it copies its slot state and tokens, and its retention buffers empty. -/
def Region.copied (r : Region) : Region :=
  { r with replay := ⟨r.nodes, r.select, r.outOrder⟩, retained := [], outMarks := [], ackMarks := [], performed := [], unreplayable := false, replaying := [] }

/-- A region at a cycle boundary: it takes a replay point where it is at one (R400). -/
def replayPoint (s : State) (rid : Nat) : State :=
  match s.region? rid with
  | none => s
  | some r => if r.live ∧ atReplayPoint s r then s.setRegion rid r.copied else s

/-- REPLAY_POINT (R400, R429). -/
def execReplayPoint (rid : Nat) (s : State) : Result := .next (replayPoint s rid)

/-! ## Phase ends -/

/-- Whether every node, store and buffer of a region is empty (R51), but for windows that hold only b4 groups still to be completed and the END
that a slot with such a window has to keep until then (R242). -/
def regionEmpty (s : State) (r : Region) : Bool :=
  r.flight.isEmpty && r.spots.isEmpty && r.pendingReplay.isEmpty &&
  r.activeNodes.all (fun e => !e.2.2.loaded && (!e.2.2.owesEnd || !(NatMap.get [] r.windows e.1).isEmpty)) &&
  r.inputs.all fun e => inputDone s r e.1 e.2

/-- The b4 groups of a region that wait for others of their block (R242). -/
def openGroups (s : State) (rid : Nat) : List Request :=
  (s.pending.filter fun p => decide (p.req.region = rid) && decide (p.st = .assembling)).map (·.req)

/-- Whether a region's windows owe nothing but the replies of such groups and what waits in order behind them (log 58). -/
def onlyGroups (s : State) (rid : Nat) (r : Region) : Bool :=
  let ids := (openGroups s rid).map (·.id)
  r.windows.all fun e => e.2.all fun w => match w with
    | .out id _ _ => ids.contains id
    | .ready _ _ _ _ _ _ => true

/-- Complete the open b4 blocks of a region with elements of +0 (R242): the last group of each block writes it. -/
def completeBlocks (s : State) (rid : Nat) : State :=
  let gs := openGroups s rid
  let leaders := gs.filter fun q => !(gs.any fun x => decide (x.mt = q.mt) && decide (x.lq = q.lq) && decide (x.ctx = q.ctx) && decide (x.addr = q.addr) && decide (q.id < x.id))
  leaders.foldl (fun s q =>
    let s1 := { s with
      pending := mapWhere (fun p => decide (p.st = .assembling) && decide (p.req.lq = q.lq) && decide (p.req.mt = q.mt) && decide (p.req.ctx = q.ctx) &&
        decide (p.req.addr = q.addr) && decide (p.req.id ≠ q.id)) (fun p => { p with st := .joined q.id }) s.pending }
    proceed s1 q []) s

/-- Whether the inputs of a region that a channel or a stream feeds have had their END of level 0 (log 42). -/
def inputsEnded (s : State) (r : Region) : Bool :=
  r.inputs.all fun e => decide (feedKind s r e.2 = .unfed) ||
    r.activeNodes.any fun x => decide (x.1 = e.1) && x.2.2.left

/-- Whether a region is the instance that its stage gives up, its tokens finished (R54): no channel of the stage holds one that will be dealt to it. -/
def leaving (s : State) (r : Region) : Bool :=
  match r.role, stageOf s r with
  | some x, some (k, l, g) =>
    decide (g.insts.length = x.inst + 1) && decide (((g.deals.head?).map (·.2)).getD 1 ≤ x.inst) && g.change.isNone &&
    (List.range g.block.nin).all fun n => ((Stage.share n x.inst g (l.undealt k n)).filter fun t => !t.isEnd).isEmpty
  | _, _ => false

/-- The instance a stage gives up is released (R54). -/
def releaseInstance (s : State) (rid : Nat) (r : Region) : State :=
  match r.role, stageOf s r with
  | some x, some (k, l, g) =>
    let s1 := s.setLaunch x.launch { l with stages := listSet l.stages k { g with insts := g.insts.dropLast } }
    drainStage rid x.launch k ((keepFlags s1 r).discardRegions fun q _ => decide (q = rid))
  | _, _ => s

/-- The next configuration period (R51): in the configuration context that the select token names, or the stop of the region. The boundary is a replay
point (R400). -/
def nextPeriod (s : State) (rid : Nat) (r : Region) : State :=
  match r.select with
  | none => s.stopRegion rid 0
  | some c =>
    if (NatMap.find? r.blocks c).isNone then s.regionFault rid codeInvalid ⟨0xFF, 0xFF, firstCtx s r, ⟨0, 0⟩, [], 0, 0⟩
    else s.setRegion rid (Region.copied { r with active := c, select := none })

/-- PHASE_END (R51, R54, R242): a region that is empty ends its phase; at a would-be end its open b4 blocks are completed first. -/
def execPhaseEnd (rid : Nat) (s : State) : Result :=
  match s.region? rid with
  | none => .next s
  | some r =>
    if !r.live || !regionEmpty s r || !onlyGroups s rid r then .next s
    else if !(openGroups s rid).isEmpty then .next (completeBlocks s rid)
    else if !r.windowsEmpty then .next s
    else if leaving s r then .next (releaseInstance s rid r)
    else if r.select.isSome || inputsEnded s r then .next (nextPeriod s rid r)
    else .next s

/-! ## The deadlock detector -/

/-- DEADLOCK (R391). -/
def codeDeadlock : Nat := 0x08

/-- The tokens of the channel that takes an output of a region, or of the buffer in which its results wait to rejoin. -/
def outTokens (s : State) (r : Region) (out : Nat) : List Token :=
  match stageOf s r with
  | none => []
  | some (k, l, g) =>
    if g.insts.length ≤ 1 then (((l.takerOf k out).bind fun ci => l.chans[ci]?).map (·.toks)).getD []
    else NatMap.get [] g.rejoin (bufKey ((r.role.map (·.inst)).getD 0) out)

/-- The full buffers of a region with the PE and number each is named by, and their tokens (R404; log 43): input buffers, the channels behind
them, full sets of matching stores, and full output channels. -/
def fullBuffers (s : State) (r : Region) : List (Nat × List Token) :=
  let ins := r.inputs.flatMap fun e =>
    let n := bits e.2.imm.toNat 3 0
    match r.role, stageOf s r with
    | some _, some (k, l, _) =>
      let buf := if feedKind s r e.2 = .stream then ((boundStream s r n).map (·.2.queue.take 16)).getD [] else inputBuffer s r n
      let chan := ((l.feedOf k n).bind fun c => l.chans[c]?)
      let full := decide (16 ≤ buf.length) || (chan.map fun c => decide (c.depth ≤ c.toks.length)).getD false
      if full then [((r.peBit e.1) * 1024 + n, if buf.isEmpty then (chan.map (·.toks)).getD [] else buf)] else []
    | _, _ => []
  let sets := (List.range r.pes.length).flatMap fun pe => (List.range 32).filterMap fun st =>
    let here := r.storeSpots.filter fun x => r.inSet pe st x && decide (x.w.place = .store)
    if 8 ≤ here.length then some ((r.pes.getD pe 0) * 1024 + 64 + st, (sortBy (Spot.key r) here).map (·.w.tok)) else none
  let outs := match r.block? with
    | none => []
    | some b => (List.range b.words.length).filterMap fun i => match r.instrAt i with
      | some (.output f) =>
        let o := bits f.imm.toNat 3 0
        if bit f.imm.toNat 4 || outRoom s r o then none else some ((r.peBit i) * 1024 + 512 + i, outTokens s r o)
      | _ => none
  ins ++ sets ++ outs

/-- Whether an access of a queue or an engine of a quad for a partition waits on a held page (R203), for a peer's reply, or may stand at a bank that is being
evacuated (R221): while one is, any LDQ, STQ or engine command under way counts (log 43). -/
def accessStalled (s : State) (part lq : Nat) : Bool :=
  let x := s.quadOf lq
  ((s.pquadOf (s.pqOf lq)).held.any fun h => decide (h.1 = part)) || (s.peerReads.any fun e => decide (e.lq = lq) && decide (e.st = .out)) ||
  ((s.banks.any fun b => match b.2 with | .evacuating _ _ => true | _ => false) &&
    ((x.queues.any fun q => decide (q.2.phase = .access)) || (x.bce.any fun c => decide (c.2.st = .run) && c.2.cur.isSome) || x.mxt.any fun m => !m.2.queue.isEmpty))

/-- Work in progress (R201, R203, R221, R228, R250, R311, R335, R404, R406): accesses without their reply, the read of a SPAWN that waits, waiting WAITWPs,
held BRKs; of the region's quads stalled accesses, stalled MXTs and CREDs that wait at the root. -/
def workInProgress (s : State) (rid : Nat) (r : Region) : Bool :=
  (s.pending.any fun p => decide (p.req.region = rid)) ||
  (r.activeNodes.any fun e => !e.2.2.held.isEmpty ||
    match r.instrAt e.1 with
    | some (.waitwp f) => (nextSet (.waitwp f) e.2.2).isSome
    | some (.spawn f) => (spawnWaits s r e.1 e.2.1 f).isSome
    | _ => false) ||
  (r.pes.map r.lqOfBit).eraseDups.any fun lq =>
    accessStalled s r.part lq || ((s.quadOf lq).mxt.any fun m => m.2.stalled) || (s.partOf r.part).cruRoot.any fun i => decide (i.cmd.lq = lq)

/-- Whether the condition of the deadlock detector holds (R404). -/
def deadCondition (s : State) (rid : Nat) (r : Region) : Bool :=
  !(fullBuffers s r).isEmpty && !anyReady s rid r && !workInProgress s rid r

/-- The count of the detector stands still: the region freezes or leaves its turn (R404). -/
def Region.pause (r : Region) (now : Nat) : Region :=
  { r with stuck := r.stuck + (match r.stuckAt with | some c => now - c | none => 0), stuckAt := none }

/-- A region in a cycle in which it runs: its quiescence tree tests the condition, and a cycle in which it does not hold starts the count again (R404). -/
def Region.watched (r : Region) (dead : Bool) (now : Nat) : Region :=
  if !dead then { r with stuck := 0, stuckAt := none } else if r.stuckAt.isSome then r else { r with stuckAt := some now }

/-- The quiescence tree of a region, in its turn (R404). -/
def watchTree (s : State) (rid : Nat) : State :=
  match s.region? rid with
  | none => s
  | some r => if r.live ∧ s.inTurn (r.lqOfBit (r.pes.getD 0 0)) = true then s.setRegion rid (r.watched (deadCondition s rid r) s.cycle) else s

/-- A cycle boundary, as the regions see it (R400, R404). -/
def cycleBoundary (s : State) : State := (s.regions.map (·.1)).foldl (fun s rid => watchTree (replayPoint s rid) rid) s

/-- DEADLOCK_DETECT (R404): the region faults once the condition of its quiescence tree has held for 2^20 cycles together; a firing in between starts the
count again (`issued`). -/
def execDeadlockDetect (rid : Nat) (s : State) : Result :=
  let s := watchTree s rid
  match s.region? rid with
  | none => .next s
  | some r =>
    if !r.live || !s.inTurn (r.lqOfBit (r.pes.getD 0 0)) || decide ((r.pause s.cycle).stuck < 2 ^ 20) then .next s
    else
      let full := fullBuffers s r
      let toks := ((leastBy (fun e => e.1) full).map fun e => (e.2.take 8).map fun t => (0xFF, t)).getD []
      .next (s.regionFault rid codeDeadlock ⟨0xFF, 0xFF, firstCtx s r, ⟨0, 0⟩, toks, full.length, 0⟩)

/-- A firing issues in a region (R404). -/
def issued (s : State) (rid : Nat) : State :=
  match s.region? rid with
  | none => s
  | some r => s.setRegion rid { r with stuck := 0, stuckAt := none }

end Sys2Proof.Machine
end

