-- ==== Sys2Proof/Machine/Launch.lean ====
section
/-! DEFINITION. Launches from the doorbell to the completion record (spec 02 R45, R46, R53 to R56, R58, R73, R79; 20 R439 to R441), SPAWN (05
R159), and the words LAUNCH, CFGLOAD, QWAIT, LDQ and STQ (10 R259, R273 to R275). -/

namespace Sys2Proof.Machine

/-! ## Launch queues -/

/-- A launch queue of a partition (R439). -/
def State.lqOf (s : State) (p k : Nat) : LaunchQ := NatMap.get .init (s.partOf p).lqs k
/-- Put a launch queue. -/
def State.setLq (s : State) (p k : Nat) (x : LaunchQ) : State :=
  s.setPart p { (s.partOf p) with lqs := NatMap.set .init (s.partOf p).lqs k x }
/-- LOGN of a launch queue. -/
def LaunchQ.logn (x : LaunchQ) : Nat := bits x.base.toNat 4 0
/-- Whether a launch queue is enabled (R439). -/
def LaunchQ.enabled (x : LaunchQ) : Bool := decide (1 ≤ x.logn) && decide (x.logn ≤ 16)
/-- The address of record `j` (R439). -/
def LaunchQ.slotAt (x : LaunchQ) (j : Nat) : Nat := bits x.base.toNat 56 7 * 2 ^ 7 + 128 * (j % 2 ^ x.logn)

/-- A doorbell write (R440): ignored, with ERR set, where the ring has no room for it, it would go back, or the queue is disabled; otherwise WIDX
takes it, and the records it newly covers take this cycle as their doorbell time. -/
def LaunchQ.ring (x : LaunchQ) (v now : Nat) : LaunchQ :=
  let v := v % 2 ^ 32
  let new := (v + 2 ^ 32 - x.widx) % 2 ^ 32
  if !x.enabled || decide (2 ^ x.logn < (v + 2 ^ 32 - x.ridx) % 2 ^ 32) || decide (2 ^ 31 ≤ new) then { x with err := true }
  else { x with widx := v, bells := x.bells ++ List.replicate new now }

/-- A doorbell write to a partition, ignored while it is being reset (R440, R455). -/
def ringDoorbell (s : State) (p k v : Nat) : State := if (s.partOf p).busy then s else s.setLq p k ((s.lqOf p k).ring v s.cycle)

/-- LAUNCH_DOORBELL (R437, R438, R440): a write of a doorbell by the host, the system cores or a queue. -/
def execLaunchDoorbell (p k : Nat) (v : Word64) (s : State) : Result := s.byCore fun s => ringDoorbell s p k v.toNat

/-- A write of SYS_LQBASE (R439): ignored while WIDX ≠ RIDX; reserved bits stay. -/
def writeLqbase (s : State) (p k : Nat) (v : Word64) : State :=
  let x := s.lqOf p k
  if x.widx ≠ x.ridx then s else s.setLq p k { x with base := BitVec.ofNat 64 (bits v.toNat 56 7 * 2 ^ 7 + bits v.toNat 4 0) }

/-- SYS_LQBASE_WRITE (R439). -/
def execSysLqbaseWrite (p k : Nat) (v : Word64) (s : State) : Result := s.byCore fun s => writeLqbase s p k v

/-- LAUNCH_RECORD_TAKE (R440, R48): the arbiter takes the next record of a queue and judges it; an unreadable record leaves a KIND 2 record. -/
def execLaunchRecordTake (p k : Nat) (s : State) : Result :=
  let x := s.lqOf p k
  if x.widx = x.ridx ∨ x.enabled = false ∨ (s.partOf p).busy = true then .next s
  else
    let s := s.struckIn (arbAccess s p) (if s.upset = .none then [] else launchReads s (arbAccess s p) (x.slotAt x.ridx))
    let took := (if (s.readVa (arbAccess s p) (x.slotAt x.ridx) 128).faults then s.dropArbReads p else s).setLq p k
      { x with ridx := (x.ridx + 1) % 2 ^ 32, bells := x.bells.tail }
    match s.readVa (arbAccess s p) (x.slotAt x.ridx) 128 with
    | .wait h => .next (s.noteHold h)
    | .fault c _ => .next (took.addEvent p c (k + x.ridx * 2 ^ 32) 0xFF)
    | .done (bs, bad) =>
      if bad then .next (took.addEvent p codeUncorrectable (k + x.ridx * 2 ^ 32) 0xFF)
      else
        .next ((submit took p k x.ridx (x.bells.headD s.cycle) none [] bs).orElse s)

/-! ## Starting -/

/-- Whether a launch waits for the arbiter (R79, R415): it has not started, or it was saved by the arbiter or by YIELD and its image is complete. DESIGN CHOICE
(log 159): before that it is no waiting launch, which others have to let go first; R415 does not say from when it rejoins them. -/
def State.waits (s : State) (n : Nat) (l : Launch) : Bool :=
  match l.phase with
  | .waiting => true
  | .saved => s.images.any fun e => decide (e.2.launch = n) && (decide (e.2.cause = 1) || decide (e.2.cause = 3)) && decide (e.2.st = .complete)
  | _ => false

/-- By how much the priority of a launch has risen since its wait began at `since`: by one for every 2 ms of device time (R79; log 44). -/
def Launch.risen (l : Launch) (now : Nat) : Nat := timeSince now l.since / 2000000

/-- Effective priority (R79). -/
def State.effective (s : State) (n : Nat) (l : Launch) : Nat := min 7 (l.rcd.prio + l.raised + if s.waits n l then l.risen s.dtime else 0)

/-- PRIORITY_AGING (R79): a launch has waited 2 ms more; what it has gained is booked, which changes its effective priority at no time. -/
def execPriorityAging (n : Nat) (s : State) : Result :=
  match s.launch? n with
  | none => .next s
  | some l =>
    if s.waits n l && decide (1 ≤ l.risen s.dtime) then
      .next (s.setLaunch n { l with raised := l.raised + 1, since := (l.since + 2000000) % 2 ^ 64 })
    else .next s

/-- What a launch that starts takes (R45, R50, R58): contexts, and PEs for its instances in the order of its stages, where the areas of its
channels, spilled tokens and write sets fit beside those of the launches that run. -/
def reserve (s : State) (l : Launch) : Option (List Nat × List (List Nat)) :=
  let cs := s.lowestFreeN l.rcd.nctx
  if cs.length < l.rcd.nctx ∨ areaFits s l.part l.rcd l.stages l.chans = false then none
  else
    match placeAll (partitionPes s l.part true) ((instancesOf l.stages).map (·.2)) with
    | .ok ps => some (cs, ps)
    | .error _ => none

/-- Whether a list of indices comes before another (R39, R77). -/
def idBefore : List Nat → List Nat → Bool
  | [], [] => false
  | [], _ :: _ => true
  | _ :: _, [] => false
  | x :: xs, y :: ys => decide (x < y) || (decide (x = y) && idBefore xs ys)

/-- Whether a waiting launch goes before another of its partition (R77, R79): higher effective priority first, then the earlier doorbell, then the lower
queue and in one queue the earlier record; children of one moment by their identifiers. -/
def State.before (s : State) (a b : Nat × Launch) : Bool :=
  let x := s.effective a.1 a.2
  let y := s.effective b.1 b.2
  decide (y < x) ||
  (decide (x = y) && (decide (a.2.bell < b.2.bell) || (decide (a.2.bell = b.2.bell) &&
    (if a.2.parent.isSome ∧ b.2.parent.isSome then idBefore a.2.task b.2.task
     else decide (a.2.queue < b.2.queue) || (decide (a.2.queue = b.2.queue) && decide (a.1 < b.1))))))

/-- Whether the places that an image names are free (R427 step 1), the launches in `gone` taken as having given theirs up: PEs, queues, matrix
nodes and command places. -/
def imageFree (s : State) (gone : List Nat) (im : Image) : Bool :=
  let out := gone.flatMap fun n => match s.launch? n with
    | some l => l.ctxs ++ l.drawn
    | none => []
  let busy := busyPes s gone
  let stays := fun (c : Cmd) => !out.contains c.ctx
  (im.regions.all fun e => e.2.allPes.all fun x => !busy.contains x) &&
  (im.queues.all fun e => let x := s.queueOf (e.1 / 4) (e.1 % 4); decide (x.st = .halted) || out.contains x.ctx) &&
  (im.nodes.all fun e =>
    let y := NatMap.get AccNode.init ((s.quadOf (e.1 / 16)).mx (e.1 / 4 % 4)).nodes (e.1 % 4)
    decide (y.st = .free) || out.contains y.ctx) &&
  (((im.bce.map (·.1)) ++ im.bceCur.map (·.1)).all fun k =>
    let c := (s.quadOf (k / 8)).chan (k % 8)
    let n := (NatMap.get [] im.bce k).length + b2n (NatMap.find? im.bceCur k).isSome
    decide (((c.cur.toList ++ c.queue).filter stays).length + n ≤ 4)) &&
  im.mxcmds.all fun e => decide (e.1 % 8 < 4) || ((((s.quadOf (e.1 / 8)).mx (e.1 % 4)).bypass.map fun b => !stays b.cmd).getD true)

/-- The image from which a saved launch is restored. -/
def State.imageOf? (s : State) (n : Nat) : Option (Nat × Image) :=
  List.find? (fun e => decide (e.2.launch = n) && decide (e.2.st = .complete)) s.images

/-- Whether a launch that waits could start, or be restored, at once. -/
def couldStart (s : State) (n : Nat) (l : Launch) : Bool :=
  match l.phase with
  | .waiting => (reserve s l).isSome
  | .saved => match s.imageOf? n with
    | some (_, im) => imageFree s [] im
    | none => false
  | _ => false

/-- Whether a launch is the child of a deterministic launch: such children start in the order of their identifiers (R77, R159). -/
def detChild (s : State) (l : Launch) : Bool :=
  match l.parent.bind fun p => p.launch with
  | some n => ((s.launch? n).map (·.rcd.det)).getD false
  | none => false

/-- Whether R79 lets a launch start now: no waiting launch of its partition has a higher effective priority, and of those of its own that go before
it none could start; among the children of a deterministic launch none goes before it at all. -/
def mayStart (s : State) (n : Nat) (l : Launch) : Bool :=
  s.launches.all fun e =>
    decide (e.1 = n) || decide (e.2.part ≠ l.part) || !s.waits e.1 e.2 || !s.before e (n, l) ||
    (decide (s.effective e.1 e.2 = s.effective n l) && !couldStart s e.1 e.2 &&
      !(detChild s l && decide ((e.2.parent.map (·.launch)) = l.parent.map (·.launch))))

/-- The region of an instance of a stage on given PEs (R50): its handle is 256 * gallery + the lowest PE bit. -/
def instanceOn (l : Launch) (n stage inst : Nat) (ctx0 : Nat) (g : Stage) (pes : List Nat) : Nat × Region :=
  let gal := pes.headD 0 / 144
  let mask := (pes.map fun x => 2 ^ (x % 144)).foldl (· + ·) 0
  (256 * gal + pes.headD 0 % 144,
    { Region.init with
      part := l.part, ctx0 := ctx0, gal := gal, mask := mask, blocks := [(g.cctx, g.block)], active := g.cctx, running := true, launch := some n
      role := some ⟨n, stage, inst⟩, args := l.rcd.args })

/-- A region takes its PEs: stopped regions that held some of them are discarded (R51), the flags raised in them staying with their launch (R73, R128). -/
def State.placeRegion (s : State) (h : Nat) (r : Region) : State :=
  let meets := fun (q : Region) => decide (q.gal = r.gal) && decide (q.mask &&& r.mask ≠ 0)
  let kept := (s.regions.filter fun e => meets e.2).foldl (fun s e => keepFlags s e.2) s
  (kept.discardRegions fun _ q => meets q).setRegion h r

/-- Place the instances of a launch: `es` lists stage and PEs in the order of `instancesOf`. -/
def placeInstances (n : Nat) (l : Launch) (ctx0 : Nat) : List (Nat × List Nat) → State → Launch → State × Launch
  | [], s, m => (s, m)
  | (i, pes) :: es, s, m =>
    match m.stages[i]? with
    | none => placeInstances n l ctx0 es s m
    | some g =>
      let x := instanceOn l n i g.insts.length ctx0 g pes
      placeInstances n l ctx0 es (s.placeRegion x.1 x.2) { m with stages := listSet m.stages i { g with insts := g.insts ++ [x.1] } }

/-- START OF A LAUNCH (R45, R58, R76, R92): contexts and PEs are reserved, its instances are placed and begin; a launch with an invalid block ends at once
with BLOCK_INVALID. -/
def startLaunch (s : State) (n : Nat) (l : Launch) (cs : List Nat) (ps : List (List Nat)) : State :=
  let l1 := { l with phase := .running, ctxs := cs, started := s.dtime, placed := s.cycle, raised := l.raised + l.risen s.dtime }
  if l.invalid then endLaunch (s.setLaunch n l1) n codeInvalid
  else
    let es := ((instancesOf l.stages).map (·.1)).zip ps
    let x := placeInstances n l (cs.headD 0) es s l1
    let s1 := x.1.setLaunch n (x.2.watch s.cycle)
    if l.rcd.det then freshView s1 n (List.range cs.length) else s1

/-- LAUNCH_START (R45, R46, R79). -/
def execLaunchStart (n : Nat) (s : State) : Result :=
  match s.launch? n with
  | none => .next s
  | some l =>
    if l.phase = .waiting ∧ mayStart s n l then
      match reserve s l with
      | some (cs, ps) => .next (startLaunch s n l cs ps)
      | none => .next s
    else .next s

/-! ## Ending -/

/-- The sinks of a launch (R170): the outputs that no channel takes. -/
def Launch.sinks (l : Launch) : List (Nat × Nat) :=
  (List.range l.stages.length).flatMap fun i => match l.stages[i]? with
    | none => []
    | some g => (List.range g.block.nout).filterMap fun o => if (l.takerOf i o).isNone then some (i, o) else none

/-- Whether a launch has children that have not ended (R159). -/
def hasChildren (s : State) (n : Nat) (l : Launch) : Bool :=
  !l.spawns.isEmpty || s.launches.any fun e => match e.2.parent with
    | some p => decide (p.launch = some n)
    | none => false

/-- Whether the store-acknowledgement counts of the MTs that served a launch are zero (R73, R228): in its regions for every context, those it has
freed among them. -/
def ackFree (s : State) (n : Nat) (l : Launch) : Bool :=
  let mine := fun (r : Region) (c : Nat) => decide (r.launch = some n) || (l.ctxs ++ l.drawn).contains c
  s.regions.all fun e => e.2.windows.all fun w => w.2.all fun x => match x with
    | .out _ c true => !mine e.2 c
    | .ready _ _ c true _ _ => !mine e.2 c
    | _ => true

/-- Whether every sink of a launch holds END of level 0 (R73). R73 does not say of which contexts: an END of any one context counts for its sink, the model's
choice (log 142). A launch without sinks is over once every region has stopped (log 45). -/
def sinksEnded (s : State) (n : Nat) (l : Launch) : Bool :=
  if l.sinks.isEmpty then s.regions.all fun e => decide (e.2.launch ≠ some n) || !e.2.running
  else l.sinks.all fun x => l.sinkEnds.any fun e => decide (e.1 = x.1) && decide (e.2.1 = x.2)

/-- Whether a copy command of one of the launch's contexts that has been fenced keeps it from ending: until it completes or is discarded (R294). -/
def fencedCopies (s : State) (l : Launch) : Bool :=
  s.quads.any fun e => e.2.bce.any fun k =>
    let mine := fun (c : Cmd) => l.ctxs.contains c.ctx || l.drawn.contains c.ctx
    ((decide (k.2.st = .fenced) || k.2.wasFenced) && k.2.cur.any mine) || k.2.aside.any fun e => (decide (e.st = .fenced) || e.wasFenced) && mine e.cmd

/-- Whether a region of a launch has an INPUT for a stream that no stream is bound to (R388). -/
def unboundStreams (s : State) (n : Nat) : Bool :=
  s.regions.any fun e => decide (e.2.launch = some n) && e.2.inputs.any fun x =>
    decide (feedKind s e.2 x.2 = .stream) && (boundStream s e.2 (bits x.2.imm.toNat 3 0)).isNone &&
    !e.2.activeNodes.any fun y => decide (y.1 = x.1) && y.2.2.left

/-- LAUNCH_END (R73, R76, R159, R354, R388): the launch is over; in deterministic operation its end is a synchronisation point first. A launch that has an
input for a stream that nothing has bound does not end. A launch whose completion
record still has to be written writes it. -/
def execLaunchEnd (n : Nat) (s : State) : Result :=
  match s.launch? n with
  | none => .next s
  | some l =>
    match l.phase with
    | .owed _ _ => .next (payRecord s n)
    | .running =>
      if !sinksEnded s n l || !ackFree s n l || fencedCopies s l || unboundStreams s n || (s.regions.any fun e => decide (e.2.launch = some n) && e.2.frozen) then .next s
      else
        let pendingWork := (l.views.any fun e => decide (e.2 ≠ { TaskView.init with snapshot := e.2.snapshot })) ||
          s.halls.any fun e => e.2.pseHeld.any fun c => l.ctxs.contains c.ctx
        if l.rcd.det && (pendingWork || !l.spawns.isEmpty) then
          .next ((mergeTasks s ((l.stages.head?.bind fun g => g.insts.head?).getD 0) n (List.range l.ctxs.length)).orElse s)
        else if hasChildren s n l then .next s
        else .next (endLaunch s n 0)
    | _ => .next s

/-! ## Replicas and range splits -/

/-- REPLICA_ADD (R53, R54): where the occupancy has been above HIGH for 4,096 cycles, an instance is added; it takes part from the next cut. Where the instance last given up still
holds its PEs, it is that one again. -/
def execReplicaAdd (n stage : Nat) (s : State) : Result :=
  match s.launch? n with
  | none => .next s
  | some l =>
    match l.stages[stage]? with
    | none => .next s
    | some g =>
      let long := (g.aboveSince.map fun c => decide (c + 4096 ≤ s.cycle)).getD false
      let count := ((g.deals.head?).map (·.2)).getD 1
      if l.phase ≠ .running ∨ l.rcd.det = true ∨ long = false ∨ g.change.isSome = true ∨ g.block.imax + 1 ≤ count then .next s
      else if count < g.insts.length then
        .next (s.setLaunch n ({ l with stages := listSet l.stages stage { g with change := some (count + 1), aboveSince := none, belowSince := none } }.watch s.cycle))
      else
        match placeOne (partitionPes s l.part true) g.block.minpe with
        | none => .next s
        | some pes =>
          if vaultBytes s l.part < areaHeld s l.part + 64 * g.block.mse * l.rcd.nctx then .next s else
          let x := instanceOn l n stage g.insts.length (l.ctxs.headD 0) g pes
          let g1 := { g with insts := g.insts ++ [x.1], change := some (count + 1), aboveSince := none, belowSince := none }
          .next ((s.placeRegion x.1 x.2).setLaunch n ({ l with stages := listSet l.stages stage g1 }.watch s.cycle))

/-- REPLICA_REMOVE (R53, R54): where the occupancy has been below LOW for 4,096 cycles, the last instance is given up; it finishes the tokens dealt
to it before the cut (PHASE_END releases it). One given up earlier may still hold its PEs. -/
def execReplicaRemove (n stage : Nat) (s : State) : Result :=
  match s.launch? n with
  | none => .next s
  | some l =>
    match l.stages[stage]? with
    | none => .next s
    | some g =>
      let long := (g.belowSince.map fun c => decide (c + 4096 ≤ s.cycle)).getD false
      let count := ((g.deals.head?).map (·.2)).getD 1
      if l.phase ≠ .running ∨ l.rcd.det = true ∨ long = false ∨ g.change.isSome = true ∨ count ≤ g.block.imin + 1 then .next s
      else
        let g1 := { g with change := some (count - 1), aboveSince := none, belowSince := none }
        .next (s.setLaunch n ({ l with stages := listSet l.stages stage g1 }.watch s.cycle))

/-- What an instance of RANGE expand could be given (R55): for each context in which it has no range and no RANGE token waiting, the instances that
held a range there at the end of the previous cycle (R272): remaining length, logical quad, instance, region, context. -/
def splitChoices (s : State) (rid slot : Nat) (r : Region) : List (Nat × Nat × Nat × Nat × Nat) :=
  (siblings s rid r).zipIdx.flatMap fun e =>
    if e.1 = rid then []
    else
      match s.region? e.1 with
      | none => []
      | some q => s.ranges.filterMap fun x =>
          let mine := r.node slot x.2.2.1
          if x.1 = e.1 ∧ x.2.1 = slot ∧ mine.range.isNone ∧ mine.left = false ∧ !(mine.a.waiting.any fun w => decide (w.tok.kind = .range)) then
            some (x.2.2.2, q.lqAt slot, e.2, e.1, x.2.2.1)
          else none

/-- The ranges that instances of RANGE expand hold now (R272). -/
def rangesHeld (s : State) : List (Nat × Nat × Nat × Nat) :=
  s.regions.flatMap fun e => e.2.activeNodes.filterMap fun x => x.2.2.range.map fun t => (e.1, x.1, x.2.1, t.hi - t.lo)

/-- RANGE_SPLIT_REQUEST (R55, R56, R156, R272): an instance that has run out asks; the instance that had the longest remaining range when the cycle began
keeps the lower half of what it holds now, the asker takes the upper. With fewer than two iterations left it gets nothing and asks again no sooner than 64 cycles later. -/
def execRangeSplitRequest (rid slot : Nat) (s : State) : Result :=
  match s.region? rid with
  | none => .next s
  | some r =>
    let det := ((s.launchOfRegion r).map (·.rcd.det)).getD false
    let early := match NatMap.find? r.asked slot with
      | some c => decide (s.cycle < c + 64)
      | none => false
    let expands := match r.instrAt slot with
      | some (.rangeExpand _) => true
      | _ => false
    if !r.live || det || early || !expands then .next s
    else
      let nothing : Result := .next (s.setRegion rid { r with asked := NatMap.insert r.asked slot s.cycle })
      match leastBy (fun c => ((2 ^ 41 - c.1) * 128 + c.2.1) * 8 + c.2.2.1) (splitChoices s rid slot r) with
      | none => nothing
      | some (_, _, _, q, ctx) =>
        match s.region? q with
        | none => nothing
        | some v =>
          let n := v.node slot ctx
          match n.range with
          | none => nothing
          | some t =>
            if t.hi - t.lo < 2 then nothing
            else
              let mid := (t.lo + t.hi) / 2
              let s1 := s.setRegion q (v.setNode slot ctx { n with range := some { t with hi := mid } })
              .next (s1.setRegion rid (r.setNode slot ctx { (r.node slot ctx) with range := some { t with lo := mid } }))

/-- An ordinary firing of SPAWN (R159): a place in the order of results, and the child; a misaligned record gives a FAULT token. In deterministic operation
the child waits for the task's next synchronisation point. -/
def spawnAct (f : Fab) (s : State) (rid slot ctx : Nat) (fr : Firing) : State :=
  match s.region? rid with
  | none => s
  | some r =>
    let va := laneAddr (fr.lanesOf .a) 0
    let p : Parent := ⟨r.launch, rid, slot, s.nextId, destOf rid f.t0, fr.result ctx .data .none .zero, 0⟩
    let s1 := { s.setRegion rid (r.setWindow slot (r.window slot ++ [.out s.nextId ctx false])) with nextId := s.nextId + 1 }
    if va % 64 ≠ 0 then fillSpawn s1 p (faultToken ctx fr.span codeAlignment va 0 7 p.tok)
    else
      match r.launch, s.launchOfRegion r with
      | some n, some l =>
        if l.rcd.det then s1.setLaunch n { l with spawns := l.spawns ++ [⟨va, (r.role.map (·.stage)).getD 0, p⟩] }
        else
          let k := l.nextCall (l.taskOf ctx)
          (submitChild (s1.setLaunch n k.2) r.part va { p with call := k.1 } (l.taskId (l.taskOf ctx) ++ [k.1])).orElse s
      | _, _ =>
        let r1 := (s1.region? rid).getD r
        (submitChild (s1.setRegion rid { r1 with calls := r1.calls + 1 }) r.part va { p with call := r1.calls } [r1.calls]).orElse s

/-- A result of SPAWN that needs no child takes its place in the order of results. -/
def spawnOther (s : State) (rid slot : Nat) (t : Token) (ds : List Dest) : State :=
  let s1 := pushReady s rid slot t ds
  flushWindow rid slot (((s1.region? rid).map fun r => (r.window slot).length).getD 0) s1

/-- SPAWN (R159). -/
def execSpawn (f : Fab) (s : State) : Result :=
  let waits := match s.focus with
    | .slot rid slot ctx => match s.region? rid with
      | some r => spawnWaits s r slot ctx f
      | none => none
    | _ => none
  match waits with
  | some h => .next (s.noteHold h)
  | none =>
    fireWith (.spawn f) (fun _ => f.ty) (judge f.pm) (spawnAct f) (fun s rid slot _ t => spawnOther s rid slot t (destsOf rid f))
      (fun s rid slot t => spawnOther s rid slot t (destsOf rid f)) s

/-! ## Memory words of the sequencer -/

/-- The address of LDQ and STQ (R259). -/
def seqAddr (x : Queue) (o : OpA) : Nat := ((x.reg o.qs.toNat).toNat + o.imm.toNat) % 2 ^ 57

/-- LDQ (R256, R259): a misaligned address traps; the value read of a poisoned granule is a free value (log 46). -/
def execLdq (h : Hdr) (o : OpA) (s : State) : Result :=
  runWord (encodeSeq 0x0D h (.formatA o)) h s fun lq q x =>
    let s := s.struck (queueAccess s lq x) (seqAddr x o)
    if seqAddr x o % 8 ≠ 0 then .trap s codeAlignment (seqAddr x o) 0
    else
      match s.readVa (queueAccess s lq x) (seqAddr x o) 8 with
      | .wait k => staysAt (s.noteHold k) lq q .access .access
      | .fault c v => .trap s c v 0
      | .done (_, true) => .retire (s.freeValue.2.setQueue lq q (x.setReg o.qd.toNat s.freeValue.1)) .next
      | .done (bs, false) => .retire (s.setQueue lq q (x.setReg o.qd.toNat (BitVec.ofNat 64 (ofBytes bs)))) .next

/-- Whether a peer has still to perform the store of a queue (R254). -/
def storeOut (s : State) (lq q : Nat) : Bool :=
  s.peerOut.any fun e => match e.owner with
    | .store l k _ _ => decide (l = lq) && decide (k = q)
    | _ => false

/-- STQ (R254, R256, R259): it retires when the store is performed, at a peer once the peer has answered. -/
def execStq (h : Hdr) (o : OpA) (s : State) : Result :=
  runWord (encodeSeq 0x0E h (.formatA o)) h s fun lq q x =>
    if x.phase = .storing then (if storeOut s lq q then staysAt s lq q .storing .access else .retire s .next)
    else if seqAddr x o % 8 ≠ 0 then .trap s codeAlignment (seqAddr x o) 0
    else
      match s.writeVa (queueAccess s lq x) (seqAddr x o) (toBytes 8 (x.reg o.qt.toNat).toNat) with
      | .wait k => staysAt (s.noteHold k) lq q .access .access
      | .fault c v => .trap s c v 0
      | .done s1 =>
        let s2 := s1.ownedBy s (.store lq q x.ctx (seqAddr x o))
        if storeOut s2 lq q then staysAt s2 lq q .storing .access else .retire s2 .next

/-! ## LAUNCH, CFGLOAD, QWAIT -/

/-- The granules of a record in a ring are marked where the bytes it holds were poisoned (R221, R397; log 167). -/
def markRecord (s : State) (a : Access) (va : Nat) : State :=
  match spread s { a with want := .write } va 128 with
  | .ok runs => (runs.filter fun r => !inPeer s r).foldl (fun s r => s.markFor a.ctx r.1) s
  | _ => s

/-- LAUNCH (R273, R440): the record goes into the ring and WIDX advances, in one step. A disabled queue is none of the partition's (log 47). While a page it reads
or writes is on HOLD its wait shows KIND 5, since the record is not yet in the ring: DESIGN CHOICE (log 110). -/
def execLaunch (h : Hdr) (o : OpE) (s : State) : Result :=
  runWord (encodeSeq 0x30 h (.formatE o)) h s fun lq q x =>
    let va := (x.reg o.qs.toNat).toNat
    let p := s.partOfLq lq
    let k := bits o.imm.toNat 5 0
    let e := s.lqOf p k
    if va % 64 ≠ 0 then .trap s codeAlignment va 0
    else if !e.enabled then .trap s codePermission va 0
    else if 2 ^ e.logn ≤ (e.widx + 2 ^ 32 - e.ridx) % 2 ^ 32 then stays s lq q .ring 0
    else
      let s := s.struckIn (queueAccess s lq x) [(va % 2 ^ 57, 128)]
      match s.readVa (queueAccess s lq x) (va % 2 ^ 57) 128 with
      | .wait k => stays (s.noteHold k) lq q .ring 0
      | .fault c v => .trap s c v 0
      | .done (bs, bad) =>
        match s.writeVa (queueAccess s lq x) (e.slotAt e.widx) bs with
        | .wait k => stays (s.noteHold k) lq q .ring 0
        | .fault c v => .trap s c v 0
        | .done s1 => .retire ((if bad then markRecord s1 (queueAccess s lq x) (e.slotAt e.widx) else s1).setLq p k { (s1.lqOf p k) with widx := (e.widx + 1) % 2 ^ 32, bells := e.bells ++ [s.cycle] }) .next

/-- A block image, its placement table and region descriptor as CFGLOAD reads them (R274). -/
structure CfgImages where
  image : BlockImage
  raw : List Nat
  mask : Nat
  gal : Nat
  rest : Nat
deriving DecidableEq, Repr

/-- Read the operands of CFGLOAD (R274); poisoned data trap UNCORRECTABLE (R397; log 167). -/
def readCfg (s : State) (a : Access) (blk desc plc : Nat) : Access.Answer CfgImages :=
  match engineRead s a desc 32 with
  | .wait k => .wait k
  | .fault c v => .fault c v
  | .done d =>
    match engineRead s a blk 16 with
    | .wait k => .wait k
    | .fault c v => .fault c v
    | .done h =>
      match engineRead s a blk (imageLength (ofBytes h)) with
      | .wait k => .wait k
      | .fault c v => .fault c v
      | .done img =>
        let x := blockImage img
        match engineRead s a plc (2 * x.words.length) with
        | .wait k => .wait k
        | .fault c v => .fault c v
        | .done pl =>
          .done ⟨x, (List.range x.words.length).map fun k => fieldAt pl (2 * k) 2, fieldAt d 0 18, fieldAt d 18 1, fieldAt d 19 13⟩

/-- The reads of CFGLOAD, as the upset of a step may strike them (R397). -/
def cfgReads (s : State) (a : Access) (blk desc plc : Nat) : List (Nat × Nat) :=
  let h := match s.readVa a (blk % 2 ^ 57) 16 with
    | .done (bs, _) => ofBytes bs
    | _ => 0
  [(desc, 32), (blk, imageLength h), (plc, 2 * icnt h)]

/-- The first slot that CFGLOAD rejects, 0xFF for the descriptor (R274 step 2; the slot stands in ARG0, log 48). -/
def cfgRejects (c : CfgImages) : Option Nat :=
  let n := ((List.range 144).filter fun i => bit c.mask i).length
  if c.rest ≠ 0 ∨ 8 ≤ c.gal ∨ c.mask = 0 ∨ n < bits c.image.header 86 79 then some 0xFF else checkBlock c.image c.raw n

/-- Whether CFGLOAD must wait for a region whose PEs it names (R274 step 4; log 48): it runs, and is not the same region loaded in a context that is
not active, without START. -/
def cfgWaits (mask gal cctx : Nat) (start : Bool) (r : Region) : Bool :=
  decide (r.gal = gal) && decide (r.mask &&& mask ≠ 0) && r.running && !(decide (r.mask = mask) && !start && decide (r.active ≠ cctx))

/-- CFGLOAD places the words (R274 step 5, R329, R451): a region with this mask keeps its other configuration contexts; START begins a period afresh, the
flags raised so far staying with the launch (R128). A region that starts outside any launch is no instance of one that it was part of (R329). -/
def cfgPlace (s : State) (p ctx handle mask gal cctx args : Nat) (launch : Option Nat) (b : Block) (start : Bool) : State :=
  let fresh := { Region.init with part := p, ctx0 := ctx, gal := gal, mask := mask, launch := launch, args := args, active := cctx, configured := true }
  let same := (s.region? handle).filter fun r => decide (r.gal = gal) && decide (r.mask = mask)
  let s1 := if same.isSome then s else s.placeRegion handle fresh
  let r := same.getD fresh
  let r1 := { r with configured := true, blocks := NatMap.insert r.blocks cctx b, nodes := r.nodes.filter fun e => decide (e.1 / 4096 / 128 ≠ cctx) }
  if start && !r.running then
    let s2 := keepFlags (forgetRegions (s1.dropAccesses fun q => decide (q = handle)) [handle]) r
    let role := if launch.isSome ∧ r.launch = launch then r.role else none
    s2.setRegion handle { fresh with blocks := r1.blocks, role := role, active := cctx, running := true }
  else s1.setRegion handle r1

/-- CFGLOAD (R274, R329, R451). -/
def execCfgload (h : Hdr) (o : OpE) (s : State) : Result :=
  runWord (encodeSeq 0x31 h (.formatE o)) h s fun lq q x =>
    let blk := (x.reg o.qs.toNat).toNat
    let desc := (x.reg o.qt.toNat).toNat
    let plc := (x.reg o.qv.toNat).toNat
    let p := s.partOfLq lq
    let cctx := bits o.imm.toNat 1 0
    let start := bit o.sub.toNat 0
    if blk % 64 ≠ 0 then .trap s codeAlignment blk 0
    else if desc % 32 ≠ 0 then .trap s codeAlignment desc 0
    else if plc % 8 ≠ 0 then .trap s codeAlignment plc 0
    else
      let s := s.struckIn (queueAccess s lq x) (if s.upset = .none then [] else cfgReads s (queueAccess s lq x) blk desc plc)
      match readCfg s (queueAccess s lq x) (blk % 2 ^ 57) (desc % 2 ^ 57) (plc % 2 ^ 57) with
      | .wait k => stays (s.noteHold k) lq q .region 0
      | .fault c v => .trap s c v 0
      | .done c =>
        match cfgRejects c with
        | some slot => .trap s codeInvalid slot 0
        | none =>
          let bitsOf := (List.range 144).filter fun i => bit c.mask i
          let launch := (s.launchOfCtx x.ctx).map (·.1)
          let held := s.heldCtx x.ctx && decide (bits (NatMap.get 0 s.ctxown x.ctx).toNat 3 0 = p)
          let handle := 256 * c.gal + bitsOf.headD 0
          let shared := s.regions.any fun e => decide (e.1 ≠ handle) && e.2.running && e.2.launch.isNone && decide (e.2.ctx0 = x.ctx)
          if bitsOf.any fun b => decide (s.lqOwner (16 * c.gal + b / 9) ≠ some p) then .trap s codeDenied 0 0
          else if (launch.isNone && (!held || shared)) = true then .trap s codePermission 0 0
          else if s.regions.any fun e => cfgWaits c.mask c.gal cctx start e.2 then stays s lq q .region 0
          else
            let s1 := cfgPlace s p x.ctx handle c.mask c.gal cctx ((desc + 32) % 2 ^ 57) launch (c.image.block c.raw) start
            .retire (s1.setQueue lq q (x.setReg o.qd.toNat (BitVec.ofNat 64 handle))) .next

/-- The region that a handle names for QWAIT (R275): one that a queue of the partition configured, in place or with its launch in an image (R420). -/
def State.configuredRegion? (s : State) (p h : Nat) : Option Region :=
  let mine := fun (r : Region) => decide (r.part = p) && r.configured
  match (s.region? h).filter mine with
  | some r => some r
  | none => s.images.findSome? fun e => (NatMap.find? e.2.regions h).filter mine

/-- QWAIT (R275): the handle must name a region that a queue of the partition configured. -/
def execQwait (h : Hdr) (o : OpE) (s : State) : Result :=
  runWord (encodeSeq 0x32 h (.formatE o)) h s fun lq q x =>
    match s.configuredRegion? (s.partOfLq lq) (x.reg o.qs.toNat).toNat with
    | none => .trap s codePermission 0 0
    | some r =>
        match r.stop with
        | some c => .retire (s.setQueue lq q (x.setReg o.qd.toNat (BitVec.ofNat 64 c))) .next
        | none => stays s lq q .region 0

end Sys2Proof.Machine
end

