-- ==== Sys2Proof/Machine/Mxt.lean ====
section
/-! DEFINITION. The matrix tiles (spec 12 R299 to R328; 04 R130). -/

namespace Sys2Proof.Machine

/-- MX_SHAPE (R391). -/
def codeShape : Nat := 0x2A
/-- ACC_POISON (R391). -/
def codeAccPoison : Nat := 0x29
/-- OVF_FULL (R391). -/
def codeOvfFull : Nat := 0x28

/-! ## Formats -/

/-- The operand format of a code (R300); a b4 block's type is read from its scale byte. -/
def mxFmt (c : Nat) : StFmt := [.bf16, .fp16, .f8e4, .f8e5, .b4 .int, .i8, .n8, .i4].getD c .bf16
/-- Whether an operand code is of the integer class (R300). -/
def mxIsInt (c : Nat) : Bool := decide (5 ≤ c)
/-- AF of a mode value (R299). -/
def modeA (m : Word64) : Nat := bits m.toNat 15 12
/-- BF of a mode value (R299). -/
def modeB (m : Word64) : Nat := bits m.toNat 11 8
/-- DRM of a mode value (R299). -/
def modeDrm (m : Word64) : Nat := bits m.toNat 4 2
/-- Whether `MXCFG mode` takes a value (R299, R300, R322). -/
def modeOk (m : Word64) : Bool :=
  let v := m.toNat
  decide (modeA m ≤ 7) && decide (modeB m ≤ 7) && decide (mxIsInt (modeA m) = mxIsInt (modeB m)) && decide (modeDrm m ≤ 4) &&
    decide (v / 2 ^ 16 = 0) && decide (bits v 7 5 = 0) && decide (bits v 1 0 = 0)

/-- Bytes of the first `n` elements of a stored row (R301). -/
def rowBytes (f : StFmt) (n : Nat) : Nat :=
  match f with
  | .b4 _ => 17 * ceilDiv n 32
  | .i4 => ceilDiv n 2
  | f => f.bytes * n

/-- The first byte that holds element `e` of a row; of a b4 row the first byte of its block. -/
def rowByteOf (f : StFmt) (e : Nat) : Nat :=
  match f with
  | .b4 _ => 17 * (e / 32)
  | .i4 => e / 2
  | f => f.bytes * e

/-- Element `e` of a row from its bytes, the first of which is byte `o` of the row (R116, R117, R301). -/
def mxElem (f : StFmt) (bs : List Byte) (o e : Nat) : FVal :=
  let at' := fun i => (bs.getD (i - o) 0).toNat
  match f with
  | .b4 _ =>
    let c := at' (17 * (e / 32) + 16)
    ofB4 (b4OfType (c / 64)) ((c % 64 : Nat) - 32 : Int) (at' (17 * (e / 32) + e % 32 / 2) / 2 ^ (4 * (e % 2)) % 16)
  | .i4 =>
    let v := sext 4 (at' (e / 2) / 2 ^ (4 * (e % 2)) % 16)
    .fin (decide (v < 0)) v.natAbs 0
  | .i8 =>
    let v := sext 8 (at' e)
    .fin (decide (v < 0)) v.natAbs 0
  | .n8 => .fin false (at' e) 0
  | f => ofCode f 0 (ofBytes ((bs.drop (f.bytes * e - o)).take f.bytes))

/-! ## Operands -/

/-- What an MMA or MMAT names (R301, R315). -/
structure MmaArgs where
  a : Int
  b : Int
  sa : Int
  sb : Int
  m : Nat
  n : Nat
  k : Nat
  trans : Bool
deriving DecidableEq, Repr

/-- The operands of an MMA or MMAT (R315). -/
def mmaArgs (c : Cmd) : MmaArgs :=
  { a := c.s.toNat, b := c.t.toNat, sa := sext 32 c.d.toNat, sb := sext 32 (c.d.toNat / 2 ^ 32), m := bits c.word 31 25 + 1
    n := bits c.word 24 18 + 1, k := bits c.word 47 32 + 1, trans := decide (c.opcode = 0x51) }

/-- A stored operand: base, stride, rows, elements of a row, format (R301). -/
structure Operand where
  base : Int
  stride : Int
  rows : Nat
  elems : Nat
  fmt : StFmt
deriving DecidableEq, Repr

/-- Operand A (R301). -/
def MmaArgs.opA (x : MmaArgs) (md : Word64) : Operand :=
  if x.trans then ⟨x.a, x.sa, x.k, x.m, mxFmt (modeA md)⟩ else ⟨x.a, x.sa, x.m, x.k, mxFmt (modeA md)⟩
/-- Operand B (R301). -/
def MmaArgs.opB (x : MmaArgs) (md : Word64) : Operand := ⟨x.b, x.sb, x.n, x.k, mxFmt (modeB md)⟩

/-- The address of a stored row. -/
def Operand.row (x : Operand) (r : Nat) : Int := x.base + (r : Int) * x.stride

/-- Whether every byte of an operand lies in the address space (R302). -/
def Operand.inSpace (x : Operand) : Bool :=
  let d := ((x.rows : Int) - 1) * x.stride
  decide (0 ≤ x.base + min 0 d) && decide (x.base + max 0 d + rowBytes x.fmt x.elems ≤ (2 : Int) ^ 57)

/-- Whether a 16-bit operand has an odd base or stride (R302). -/
def Operand.odd (x : Operand) : Bool := decide (x.fmt.bytes = 2) && (decide (x.base % 2 ≠ 0) || decide (x.stride % 2 ≠ 0))

/-- The access of an MXT command (R302, R442). -/
def mxAccess (c : Cmd) : Access := ⟨c.part, c.lq, c.ctx, masterMxt c.lq, .read, .plain, c.tag⟩

/-- The translations of an operand, granule by granule (R302). -/
def operandPages (s : State) (c : Cmd) (x : Operand) : List (Nat × Translated) :=
  (List.range x.rows).flatMap fun r =>
    let va := (x.row r).toNat
    (List.range ((va + rowBytes x.fmt x.elems - 1) / 64 - va / 64 + 1)).map fun i =>
      let g := if i = 0 then va else 64 * (va / 64 + i)
      (g, translate s (mxAccess c) g)

/-- What the feeders find of the operands when a command starts (R302). -/
inductive Fed where
  | ok
  | wait (h : Option PageHold)
  | fault (code va : Nat)
deriving DecidableEq, Repr

/-- The checks of R302, in the order of its table. -/
def checkOperands (s : State) (c : Cmd) : Fed :=
  let x := mmaArgs c
  let os := [x.opA c.mode, x.opB c.mode]
  if (modeA c.mode = 4 ∧ (x.k % 32 ≠ 0 ∨ x.trans)) ∨ (modeB c.mode = 4 ∧ x.k % 32 ≠ 0) then .fault codeShape 0
  else if os.any fun o => !o.inSpace then .fault codeShape 0
  else
    let ts := os.flatMap (operandPages s c)
    match ts.findSome? fun t => match t.2 with | .hold v => some ((mxAccess c).holdAt s v) | _ => none with
    | some h => .wait (some h)
    | none =>
      match ts.find? fun t => match t.2 with | .ok _ m => decide (1 < m) | _ => false with
      | some t => .fault codeShape t.1
      | none =>
        if os.any (·.odd) then .fault codeAlignment 0
        else
          match ts.find? fun t => match t.2 with | .fault _ _ => true | _ => false with
          | some (v, .fault code _) => .fault code v
          | _ => .ok

/-- Elements `e0` to `e0 + n - 1` of a stored row (R301); a poisoned granule is UNCORRECTABLE (R326). -/
def readElems (s : State) (c : Cmd) (x : Operand) (r e0 n : Nat) : Access.Answer (List FVal) :=
  let o := rowByteOf x.fmt e0
  let stop := rowBytes x.fmt (e0 + n)
  match engineRead s (mxAccess c) (x.row r + o).toNat (stop - o) with
  | .done bs => .done ((List.range n).map fun i => mxElem x.fmt bs o (e0 + i))
  | .wait h => .wait h
  | .fault code v => .fault code v

/-- Answers in sequence: the first that waits or faults stands for all. -/
def gather {α : Type} : List (Access.Answer α) → Access.Answer (List α)
  | [] => .done []
  | .wait h :: _ => .wait h
  | .fault c v :: _ => .fault c v
  | .done x :: xs =>
    match gather xs with
    | .done ys => .done (x :: ys)
    | .wait h => .wait h
    | .fault c v => .fault c v

/-- The operand elements of group `g`: a row of up to eight for each i, and for each j (R130, R301). -/
def groupOperands (s : State) (c : Cmd) (g : Nat) : Access.Answer (List (List FVal) × List (List FVal)) :=
  let x := mmaArgs c
  let n := min 8 (x.k - 8 * g)
  let rowsA : Access.Answer (List (List FVal)) :=
    if x.trans then
      match gather ((List.range n).map fun k => readElems s c (x.opA c.mode) (8 * g + k) 0 x.m) with
      | .done ks => .done ((List.range x.m).map fun i => ks.map fun row => row.getD i (.fin false 0 0))
      | .wait h => .wait h
      | .fault code v => .fault code v
    else gather ((List.range x.m).map fun i => readElems s c (x.opA c.mode) i (8 * g) n)
  match rowsA, gather ((List.range x.n).map fun j => readElems s c (x.opB c.mode) j (8 * g) n) with
  | .done as, .done bs => .done (as, bs)
  | .wait h, _ => .wait h
  | .fault code v, _ => .fault code v
  | .done _, .wait h => .wait h
  | .done _, .fault code v => .fault code v

/-! ## Group sums -/

/-- The exact sum of a list of finite values. -/
def exactSum (vs : List FVal) : Dyadic :=
  vs.foldl (fun d v => match v with | .fin n m e => d.add ⟨signed n m, e⟩ | _ => d) ⟨0, 0⟩

/-- The sum of the products of a group (R130). -/
def groupSum (as bs : List FVal) : Flagged FVal :=
  let ps := List.zipWith fMulExact as bs
  let vs := ps.map (·.1)
  let pos := vs.any fun v => decide (v = .inf false)
  let neg := vs.any fun v => decide (v = .inf true)
  if (ps.any fun p => p.2 || p.1.isNaN) || (pos && neg) then ⟨.nan false, .inv⟩
  else if pos then ⟨.inf false, .none⟩
  else if neg then ⟨.inf true, .none⟩
  else
    let d := exactSum vs
    if d.num = 0 then ⟨.fin (vs.all fun v => v.isNeg && v.isZero) 0 0, .none⟩
    else ⟨.fin (decide (d.num < 0)) d.num.natAbs d.exp, .none⟩

/-- The integer sum of a group (R308). -/
def groupInt (as bs : List FVal) : Int := (exactSum ((List.zipWith fMulExact as bs).map (·.1))).num

/-- A position of a node after a float group (R130, R316). -/
def floatStep (acc : Lane) (as bs : List FVal) : Flagged Lane :=
  let g := groupSum as bs
  let r := fAdd .if36 .rne (ofIF36 acc) g.val
  ⟨toIF36 r.val, g.flags.or r.flags⟩

/-- A position of an integer node after a group: its value and its carry (R308). -/
def intStep (acc s : Int) : Int × Int :=
  let t := acc + s
  if 2 ^ 19 - 1 < t then (t - 2 ^ 20, 1) else if t < -(2 ^ 19) then (t + 2 ^ 20, -1) else (t, 0)

/-! ## Nodes -/

/-- A node of a tile. -/
def Mxt.node (x : Mxt) (n : Nat) : AccNode := NatMap.get .init x.nodes n
/-- Put a node. -/
def Mxt.setNode (x : Mxt) (n : Nat) (y : AccNode) : Mxt := { x with nodes := NatMap.set .init x.nodes n y }
/-- A position of a node. -/
def AccNode.pos (y : AccNode) (k : Nat) : Lane := NatMap.get 0 y.acc k
/-- A position of an integer node. -/
def AccNode.int (y : AccNode) (k : Nat) : Int := sext 20 (y.pos k).toNat
/-- The positions [0, m) × [0, n). -/
def positions (m n : Nat) : List (Nat × Nat) := (List.range m).flatMap fun i => (List.range n).map fun j => (i, j)
/-- The node a command names (R315). -/
def Cmd.nodeNo (c : Cmd) : Nat := bits c.word 49 48

/-- A float group applied to a node, with its flags. -/
def applyFloat (y : AccNode) (m n : Nat) (as bs : List (List FVal)) : AccNode × ExFlags :=
  (positions m n).foldl (fun r p =>
    let k := 128 * p.1 + p.2
    let v := floatStep (r.1.pos k) (as.getD p.1 []) (bs.getD p.2 [])
    ({ r.1 with acc := NatMap.set 0 r.1.acc k v.val }, r.2.or v.flags)) (y, .none)

/-- What a group does to each position of an integer node (R308): position, value, carry. -/
def intGroup (y : AccNode) (m n : Nat) (as bs : List (List FVal)) : List (Nat × Int × Int) :=
  (positions m n).map fun p =>
    let k := 128 * p.1 + p.2
    let r := intStep (y.int k) (groupInt (as.getD p.1 []) (bs.getD p.2 []))
    (k, r.1, r.2)

/-- An integer group applied to a node, or none where the overflow buffer cannot take it (R307, R308). -/
def applyInt (x : Mxt) (n : Nat) (g : List (Nat × Int × Int)) : Option Mxt :=
  let carries := g.filter fun e => e.2.2 ≠ 0
  let key := fun k => 16384 * n + k
  let need := (carries.filter fun e => (NatMap.find? x.ovf (key e.1)).isNone).length
  let fits := carries.all fun e =>
    let v := NatMap.get 0 x.ovf (key e.1) + e.2.2
    decide (-512 ≤ v) && decide (v ≤ 511)
  if 1024 - x.ovf.length < need ∨ !fits then none
  else
    let y := x.node n
    let acc := g.foldl (fun m e => NatMap.set 0 m e.1 (BitVec.ofNat 36 (wrapNat 20 e.2.1))) y.acc
    let ovf := carries.foldl (fun m e => NatMap.insert m (key e.1) (NatMap.get 0 m (key e.1) + e.2.2)) x.ovf
    some { (x.setNode n { y with acc := acc }) with ovf := ovf }

/-- The folded value of a position (R309). -/
def Mxt.folded (x : Mxt) (n k : Nat) : Int := (x.node n).int k + NatMap.get 0 x.ovf (16384 * n + k) * 2 ^ 20

/-- A node's overflow entries are freed. -/
def Mxt.freeEntries (x : Mxt) (n : Nat) : Mxt := { x with ovf := x.ovf.filter fun e => e.1 / 16384 ≠ n }

/-- Every position of a node reads 0 and its entries are free. -/
def Mxt.zero (x : Mxt) (n : Nat) : Mxt := (x.setNode n { (x.node n) with acc := [] }).freeEntries n

/-! ## Drains -/

/-- Nibbles packed into bytes, the first low. -/
def packNibbles : List Nat → List Byte
  | [] => []
  | [a] => [BitVec.ofNat 8 a]
  | a :: b :: cs => BitVec.ofNat 8 (a + 16 * b) :: packNibbles cs

/-- A b4 block of a row (R116, R118, R119, R306): 32 values with their rounding modes. -/
def drainBlock (t : B4) (vs : List (FVal × Rm)) : List Byte × ExFlags :=
  let s := b4Scale t (vs.map (·.1))
  let cs := vs.map fun v => cvtB4 t s v.2 v.1
  (packNibbles (cs.map (·.1)) ++ [BitVec.ofNat 8 (64 * b4Type t + (s + 32).toNat)], .all (cs.map (·.2)))

/-- The blocks of a b4 row. -/
def drainBlocks (t : B4) : Nat → List (FVal × Rm) → List Byte × ExFlags
  | 0, _ => ([], .none)
  | n + 1, vs =>
    let a := drainBlock t (vs.take 32)
    let b := drainBlocks t n (vs.drop 32)
    (a.1 ++ b.1, a.2.or b.2)

/-- The bytes of row `r` of a float node's drain, with flags (R306). -/
def drainRow (y : AccNode) (f : StFmt) (r : Nat) : List Byte × ExFlags :=
  let vs := (List.range y.cols).map fun c =>
    (ofIF36 (y.pos (128 * r + c)), if f = .fp32 ∧ y.drm = 4 then Rm.rne else rmOf y.drm y.ctx (16 * r + c / 8) (c % 8))
  match f with
  | .b4 t => drainBlocks t (y.cols / 32) vs
  | f =>
    let cs := vs.map fun v => toCode f 0 v.2 v.1
    (cs.flatMap fun c => toBytes f.bytes c.1, .all (cs.map (·.2)))

/-- The access of a drain: an engine result write (R216, R306). -/
def drainAccess (c : Cmd) : Access := { (mxAccess c) with want := .write, pub := .result }

/-- The first byte of a row of the destination (R306). -/
def AccNode.rowVa (y : AccNode) (r : Nat) : Nat := (((y.dest.toNat : Int) + (r : Int) * y.stride) % (2 ^ 57 : Int)).toNat

/-- Bytes of a row of the destination. -/
def AccNode.rowLen (y : AccNode) : Nat := if y.isInt then 4 * y.cols else rowBytes ((StFmt.ofCode y.dfmt).getD .fp32) y.cols

/-- Whether some row of the destination has to wait, and for what (R203, R217, R221, R453). -/
def drainWaits (s : State) (c : Cmd) (y : AccNode) : Option (Option PageHold) :=
  if y.dfmt = 15 then none
  else (List.range y.rows).findSome? fun r =>
    match spread s (drainAccess c) (y.rowVa r) y.rowLen with
    | .hold v => some (some ((drainAccess c).holdAt s v))
    | .fault _ _ _ => none
    | .ok runs => if writeStand s (drainAccess c) (y.rowVa r) runs = some true then some none else none

/-- The add of an integer drain to bytes that a peer holds (R306, R447): REDs of op add and format i32, up to eight elements each, to run `n` of whose bytes
lie from `pa` (log 31). -/
def sendAdds (s : State) (part pa : Nat) (vs : List Int) : Nat → State
  | 0 => s
  | k + 1 =>
    let ws := vs.take 8
    let lanes := Lanes.ofFn fun i => BitVec.ofNat 36 (wrapNat 32 (ws.getD i 0))
    let s1 := { s with nextId := s.nextId + 1 }.sendPeer part pa 0 3 0 9 (2 ^ ws.length - 1) (laneBytes lanes) ⟨s.nextId, s.nextId, pa, 0, 4 * ws.length⟩
    sendAdds s1 part (pa + 32) (vs.drop 8) k

/-- The words added to the runs of a row in order (R306); none where the write set of a deterministic task would pass its bound (R219). -/
def addRuns (part ctx : Nat) : List (Nat × Nat) → List Int → State → Option State
  | [], _, s => some s
  | r :: rs, vs, s =>
    let ws := vs.take (r.2 / 4)
    if inPeer s r then addRuns part ctx rs (vs.drop (r.2 / 4)) (sendAdds s part r.1 ws (ceilDiv ws.length 8))
    else
      let old := s.viewBytes ctx r.1 r.2
      let bs := (List.range ws.length).flatMap fun i => toBytes 4 (wrapNat 32 (ws.getD i 0 + ((ofBytes ((old.drop (4 * i)).take 4) : Nat) : Int)))
      (s.writeRun part ctx r bs 0).bind (addRuns part ctx rs (vs.drop (r.2 / 4)))

/-- Write one row, an integer row adding to what the destination holds once it has been written (R306): the code and address of a fault. An add finds
UNCORRECTABLE in a poisoned granule, as an update of R243 does. -/
def writeRow (s : State) (c : Cmd) (y : AccNode) (va : Nat) (bs : List Byte) (vs : List Int) : State × Option (Nat × Nat) :=
  match spread s (drainAccess c) va y.rowLen with
  | .hold _ => (s, none)
  | .fault code _ v => (s, some (code, v))
  | .ok runs =>
    let adds := y.isInt && y.parted
    if runsStand s runs = some false || (adds && s.runsPoisoned (drainAccess c) runs) then (s, some (codeUncorrectable, va))
    else
      let out := if y.isInt then vs.flatMap fun v => toBytes 4 (wrapNat 32 v) else bs
      match if adds then addRuns c.part c.ctx runs vs s else s.writeRuns c.part c.ctx runs out with
      | none => (s, some (codeSnapshot, va))
      | some s1 => (s1, none)

/-- The rows of a drain in ascending order: the state, the flags, whether a row has been written, and the fault that stopped it. -/
def writeRows (c : Cmd) (x : Mxt) (n : Nat) : List Nat → State → State × ExFlags × Bool × Option (Nat × Nat)
  | [], s => (s, .none, false, none)
  | r :: rs, s =>
    let y := x.node n
    let row := if y.isInt then ([], ExFlags.none) else drainRow y ((StFmt.ofCode y.dfmt).getD .fp32) r
    let vs := if y.isInt then (List.range y.cols).map fun k => x.folded n (128 * r + k) else []
    match writeRow s c y (y.rowVa r) row.1 vs with
    | (s1, some f) => (s1, .none, false, some f)
    | (s1, none) =>
      let q := writeRows c x n rs s1
      (q.1, row.2.or q.2.1, true, q.2.2.2)

/-- A drain of node `n` of tile `m` (R306), with the fault that aborts its command. What it sends to a peer is the command's to wait for (R305). -/
def drain (s : State) (c : Cmd) (m n : Nat) : State × Bool × Option (Nat × Nat) :=
  let x := (s.quadOf c.lq).mx m
  let y := x.node n
  if y.dfmt = 15 then (s, false, none)
  else
    let r := writeRows c x n (List.range y.rows) s
    (edgeFlags (r.1.ownedBy s (.command c (y.rowVa 0))) c.lq 0 y.ctx c.part r.2.1, r.2.2.1, r.2.2.2)

/-- The publication of a drain (R306): the exchange, or PERMISSION where the entry is not valid. -/
def drainPublish (s : State) (c : Cmd) (y : AccNode) : State × Option (Nat × Nat) :=
  match y.pub with
  | none => (s, none)
  | some e => if s.pubValid c.part e then (s.publishFor c.ctx c.part e, none) else (s, some (codePermission, 0))

/-- Put a tile. -/
def State.setMx (s : State) (lq m : Nat) (x : Mxt) : State := s.setQuad lq ((s.quadOf lq).setMx m x)

/-- The running command of a tile leaves it. -/
def dropHead (s : State) (lq m : Nat) : State :=
  let x := (s.quadOf lq).mx m
  s.setMx lq m { x with queue := x.queue.tail }

/-- The running command completes (R99). -/
def mxDone (s : State) (lq m : Nat) (c : Cmd) : State := (dropHead s lq m).complete c

/-- AN MXT FAULT (R327): the tile skips the command and the queue that issued it traps. -/
def mxAbort (s : State) (lq m : Nat) (c : Cmd) (code va : Nat) : State := (dropHead s lq m).abort c code va

/-- The node of a release is free, and its command completes or aborts (R305, R306). -/
def freeNode (s : State) (lq m : Nat) (c : Cmd) (n : Nat) (f : Option (Nat × Nat)) : State :=
  let x := ((s.quadOf lq).mx m).zero n
  let s1 := s.setMx lq m (x.setNode n { (x.node n) with st := .free })
  match f with
  | some (code, va) => mxAbort s1 lq m c code va
  | none => mxDone s1 lq m c

/-- The command at the head of a tile has come to a token, or to the end of its drain. -/
def setOut (s : State) (lq m out : Nat) : State :=
  let x := (s.quadOf lq).mx m
  match x.queue with
  | [] => s
  | k :: ks => s.setMx lq m { x with queue := { k with out := out } :: ks }

/-- Whether the command at the head of a tile has written the drain of its release. -/
def Mxt.drained (x : Mxt) : Bool :=
  match x.queue with
  | [] => false
  | k :: _ => decide (k.out = 1)

/-- The end of a release (R305, R306): once every write has been performed, the publication, then the node is free. -/
def endRelease (s : State) (lq m : Nat) (c : Cmd) (n : Nat) : OrWait :=
  if s.awaitsPeer c then .error none
  else
    let p := drainPublish s c (((s.quadOf lq).mx m).node n)
    .ok (freeNode p.1 lq m c n p.2)

/-- THE RELEASE of a node (R305, R306) for the running command: the drain, and where a peer has none of it to perform the end of the release. -/
def release (s : State) (lq m : Nat) (c : Cmd) (n : Nat) : OrWait :=
  if ((s.quadOf lq).mx m).drained then endRelease s lq m c n
  else
    match drainWaits s c (((s.quadOf lq).mx m).node n) with
    | some h => .error h
    | none =>
      let d := drain s c m n
      match d.2.2 with
      | some f => .ok (freeNode (disownCmd d.1 c) lq m c n (some f))
      | none => if d.1.awaitsPeer c then .ok (setOut d.1 lq m 1) else endRelease d.1 lq m c n

/-- A peer has refused or lost a write of a command (R295, R306, R454): it aborts, and a node that it was releasing is free. -/
def writeFailed (s : State) (c : Cmd) (code va : Nat) : State :=
  let m := bits c.word 59 56
  let s1 := disownCmd s c
  if s.owing.contains c then { s1 with owing := s.owing.filter (· ≠ c) }.abort c code va
  else if c.opcode / 16 = 5 ∧ (((s.quadOf c.lq).mx m).queue.head?.map (·.cmd)) = some c then freeNode s1 c.lq m c c.nodeNo (some (code, va))
  else if c.opcode / 16 = 6 then s1.abort c code va
  else s1

/-! ## Acceptance -/

/-- Acceptance of a class 5 word by its tile (R312). -/
def mxAccept (s : State) (c : Cmd) : WordResult :=
  let m := bits c.word 59 56
  .accepted (s.setMx c.lq m (((s.quadOf c.lq).mx m).take c))

/-- MMA (R316). -/
def execMma (h : Hdr) (o : OpE) (s : State) : Result := engineWord (encodeSeq 0x50 h (.formatE o)) h o s noCheck mxAccept
/-- MMAT (R316). -/
def execMmat (h : Hdr) (o : OpE) (s : State) : Result := engineWord (encodeSeq 0x51 h (.formatE o)) h o s noCheck mxAccept
/-- ACCINIT (R317). -/
def execAccinit (h : Hdr) (o : OpE) (s : State) : Result := engineWord (encodeSeq 0x52 h (.formatE o)) h o s noCheck mxAccept
/-- ACCCNT (R318). -/
def execAcccnt (h : Hdr) (o : OpE) (s : State) : Result := engineWord (encodeSeq 0x53 h (.formatE o)) h o s noCheck mxAccept
/-- ACCOUT (R319). -/
def execAccout (h : Hdr) (o : OpE) (s : State) : Result := engineWord (encodeSeq 0x54 h (.formatE o)) h o s noCheck mxAccept
/-- ACCDRAIN (R320). -/
def execAccdrain (h : Hdr) (o : OpE) (s : State) : Result := engineWord (encodeSeq 0x55 h (.formatE o)) h o s noCheck mxAccept
/-- ACCPART (R321): into the bypass slot. -/
def execAccpart (h : Hdr) (o : OpE) (s : State) : Result := engineWord (encodeSeq 0x56 h (.formatE o)) h o s noCheck mxAccept
/-- MXCFG policy (R322). -/
def execMxcfgPolicy (h : Hdr) (o : OpE) (s : State) : Result := engineWord (encodeSeq 0x57 h (.formatE o)) h o s noCheck mxAccept

/-- MXCFG mode (R322): written at issue; a value that it refuses traps ILLEGAL_CMD. -/
def execMxcfgMode (h : Hdr) (o : OpE) (s : State) : Result :=
  engineWord (encodeSeq 0x57 h (.formatE o)) h o s (fun c => if modeOk c.s then none else some (codeIllegal, 0)) fun s c =>
    .retire (s.setQueue c.lq c.q { (s.queueOf c.lq c.q) with mxmode := c.s }) .next

/-- The overflow state of a tile (R323). -/
def ovfStat (x : Mxt) : Nat :=
  let held := fun n => (x.ovf.filter fun e => e.1 / 16384 = n).length
  let node := match x.queue with | c :: _ => if x.stalled then c.cmd.nodeNo else 0 | [] => 0
  b2n x.stalled * 2 ^ 63 + node * 2 ^ 61 + held 3 * 2 ^ 44 + held 2 * 2 ^ 33 + held 1 * 2 ^ 22 + held 0 * 2 ^ 11 + x.ovf.length

/-- OVFSTAT (R323): reads the overflow state at acceptance. -/
def execOvfstat (h : Hdr) (o : OpE) (s : State) : Result :=
  engineWord (encodeSeq 0x58 h (.formatE o)) h o s noCheck fun s c =>
    let x := (s.quadOf c.lq).mx (bits c.word 59 56)
    .retire (s.setQueue c.lq c.q ((s.queueOf c.lq c.q).setReg (bits c.word 79 75) (BitVec.ofNat 64 (ovfStat x)))) .next

/-! ## The commands at their start -/

/-- Whether a command of a deterministic task names an ARMED node of another queue (R314). -/
def wrongOwner (s : State) (c : Cmd) (y : AccNode) : Bool := decide (y.st = .armed) && decide (c.q ≠ y.ownq) && (detLaunchOf s c.ctx).isSome

/-- A token spilled into a column of a node leaves it (R136): to the vault area of its context, or, where its region belongs to no launch and has
none, to another column (R329). -/
def leaveColumn (lq rid : Nat) (s : State) (x : Spot) : State :=
  match s.region? rid with
  | none => s
  | some r =>
    if r.launch.isSome then s.setRegion rid (r.moveSpot x .vault)
    else
      match freeColumn s lq with
      | some p => s.setRegion rid (r.moveSpot x p)
      | none => s.regionFault rid codeMatchOverflow ⟨x.slot, 0xFF, x.ctx, ⟨x.w.tok.lo, x.w.tok.hi⟩, [], 0, 0⟩

/-- The tokens spilled into the columns of a node, which takes no more (R136). -/
def emptyColumns (s : State) (lq m n : Nat) : State :=
  let x := (s.quadOf lq).mx m
  let here := fun (w : Waiting) => match w.place with
    | .column a b c _ => decide (a = lq) && decide (b = m) && decide (c = n)
    | _ => false
  s.regions.foldl (fun s e => (e.2.storeSpots.filter fun x => here x.w).foldl (leaveColumn lq e.1) s)
    (s.setMx lq m (x.setNode n { (x.node n) with st := .armed }))

/-- The fault of an ACCINIT (R317 step 1). -/
def accinitFault (c : Cmd) : Option Nat :=
  let isInt := mxIsInt (modeA c.mode)
  let dfmt := bits c.word 3 0
  let size := if dfmt = 0 ∨ dfmt = 9 then 4 else if dfmt = 1 ∨ dfmt = 2 then 2 else 1
  if dfmt ≠ 15 ∧ (if isInt then dfmt ≠ 9 else 8 < dfmt) then some codeShape
  else if 5 ≤ dfmt ∧ dfmt ≤ 8 ∧ (bits c.word 24 18 + 1) % 32 ≠ 0 then some codeShape
  else if dfmt ≠ 15 ∧ (c.s.toNat % size ≠ 0 ∨ c.t.toNat % size ≠ 0) then some codeAlignment
  else none

/-- A stalled group is retried, since an ACCPART or an ACCINIT of an integer node has taken effect (R311). -/
def Mxt.wake (x : Mxt) : Mxt := { x with queue := (x.queue.take 1).map (fun k => { k with retry := true }) ++ x.queue.tail }

/-- ACCINIT at its turn (R317). -/
def startInit (s : State) (lq m : Nat) (c : Cmd) : State :=
  let n := c.nodeNo
  match accinitFault c with
  | some code => mxAbort s lq m c code c.s.toNat
  | none =>
    let s1 := emptyColumns s lq m n
    let x := ((s1.quadOf lq).mx m).zero n
    let y : AccNode :=
      { ctx := c.ctx, isInt := mxIsInt (modeA c.mode), st := .armed, parted := false, count := 0, contrib := 0, ownq := c.q, drm := modeDrm c.mode
        dest := vaOf c.s.toNat, stride := c.t.toInt, dfmt := bits c.word 3 0, rows := bits c.word 17 11 + 1, cols := bits c.word 24 18 + 1
        pub := if bit c.word 4 then some (bits c.word 10 5) else none, lq := lq, part := c.part, acc := [] }
    let s2 := mxDone (s1.setMx lq m (x.setNode n y)) lq m c
    if y.isInt then s2.setMx lq m ((s2.quadOf lq).mx m).wake else s2

/-- ACCCNT at its turn (R318), where its release need not wait. -/
def startCount (s : State) (lq m : Nat) (c : Cmd) : OrWait :=
  let n := c.nodeNo
  let x := (s.quadOf lq).mx m
  let y := x.node n
  let v := (c.s + BitVec.ofNat 64 (bits c.word 15 0)).toNat
  if 65535 < v ∨ y.st ≠ .armed ∨ (v ≠ 0 ∧ v < y.contrib) then .ok (mxAbort s lq m c codeShape 0)
  else
    let s1 := s.setMx lq m (x.setNode n { y with count := v })
    if v ≠ 0 ∧ v = y.contrib then release s1 lq m c n else .ok (mxDone s1 lq m c)

/-- The region of an instance of a stage in the launch of a context; the one that runs outside any launch is stage 0, instance 0 (R319, R329). -/
def stageRegion (s : State) (ctx stage inst : Nat) : Option Nat :=
  match s.launchOfCtx ctx with
  | some (_, l) => (l.stages[stage]?).bind fun g => g.insts[inst]?
  | none => if stage = 0 ∧ inst = 0 then (List.find? (fun e => e.2.launch.isNone && e.2.running && decide (e.2.ctx0 = ctx)) s.regions).map (·.1) else none

/-- The target of an ACCOUT, where it is one (R235, R319). -/
def accoutTarget (s : State) (ctx v : Nat) : Option Dest :=
  if bits v 63 35 ≠ 0 ∨ bits v 31 26 ≠ 0 ∨ bits v 15 9 ≠ 0 then none
  else
    match stageRegion s ctx (bits v 25 16) (bits v 34 32) with
    | none => none
    | some d =>
      match s.region? d with
      | none => none
      | some r =>
        match r.instrAt (bits v 8 2) with
        | none => none
        | some i => if portUsed i (portOfNat (bits v 1 0)) then some ⟨d, bits v 8 2, portOfNat (bits v 1 0)⟩ else none

/-- The fault of an ACCOUT at its start (R314, R319). -/
def accoutFault (s : State) (c : Cmd) (y : AccNode) : Option Nat :=
  if y.st = .free ∨ wrongOwner s c y then some codeShape
  else if y.st = .poison ∧ !bit c.word 12 then some codeAccPoison
  else if (accoutTarget s y.ctx c.t.toNat).isNone then some codePermission
  else none

/-- The fault of an MMA or MMAT at its start, before its operands are checked (R314, R316). -/
def mmaFault (s : State) (c : Cmd) (y : AccNode) : Option Nat :=
  if y.st = .poison then some codeAccPoison
  else if y.st = .free ∨ mxIsInt (modeA c.mode) ≠ y.isInt ∨ wrongOwner s c y then some codeShape
  else none

/-- The running command has started. -/
def markStarted (s : State) (lq m : Nat) : State :=
  let x := (s.quadOf lq).mx m
  match x.queue with
  | [] => s
  | k :: ks => s.setMx lq m { x with queue := { k with started := true } :: ks }

/-- MXCFG policy at its turn (R322). -/
def startPolicy (s : State) (lq m : Nat) (c : Cmd) : State :=
  let x := (s.quadOf lq).mx m
  mxDone (s.setMx lq m { x with evsem := bits c.word 15 8, even := bit c.word 1, pol := bit c.word 0 }) lq m c

/-- The start of the command at the head of a tile's queue (R316 to R322). -/
def startCommand (s : State) (lq m : Nat) (c : Cmd) : State :=
  let y := ((s.quadOf lq).mx m).node c.nodeNo
  let op := c.opcode
  if op ≤ 0x51 then
    match mmaFault s c y with
    | some code => mxAbort s lq m c code 0
    | none =>
      match checkOperands s c with
      | .wait h => s.noteHold h
      | .fault code va => mxAbort s lq m c code va
      | .ok => markStarted s lq m
  else if op = 0x52 then (if wrongOwner s c y then mxAbort s lq m c codeShape 0 else startInit s lq m c)
  else if op = 0x53 then (if wrongOwner s c y then mxAbort s lq m c codeShape 0 else (startCount s lq m c).orElse s)
  else if op = 0x54 then
    match accoutFault s c y with
    | some code => mxAbort s lq m c code 0
    | none => markStarted s lq m
  else if op = 0x55 then
    if y.st = .poison then mxAbort s lq m c codeAccPoison 0
    else if y.st = .free ∨ wrongOwner s c y then mxAbort s lq m c codeShape 0
    else (release s lq m c c.nodeNo).orElse s
  else startPolicy s lq m c

/-! ## The bypass slot -/

/-- Whether the bypass command may take effect now (R321): no command runs, or the running one stands at a group boundary. A release that has drained its
node runs until its writes have been performed (R305). -/
def Mxt.bypassMay (x : Mxt) : Bool :=
  match x.queue with
  | [] => true
  | k :: _ => if k.cmd.opcode ≤ 0x51 then decide (k.out = 0) else !k.started && decide (k.out = 0)

/-- The fault of an ACCPART (R314, R321). -/
def partFault (s : State) (c : Cmd) (y : AccNode) : Option Nat :=
  if y.st = .poison then some codeAccPoison
  else if y.st = .free ∨ !y.isInt ∨ y.dfmt = 15 ∨ wrongOwner s c y then some codeShape
  else none

/-- The bypass slot is free again. -/
def Mxt.slotFreed (x : Mxt) : Mxt := { x with bypass := x.more.head?, more := x.more.tail }

/-- ACCPART takes effect (R321): the values are written to the destination, the node is zeroed and its entries freed. -/
def doPart (s : State) (lq m : Nat) (c : Cmd) : State :=
  let n := c.nodeNo
  let s0 := s.setMx lq m ((s.quadOf lq).mx m).slotFreed
  let y := ((s.quadOf lq).mx m).node n
  match partFault s c y with
  | some code => s0.abort c code 0
  | none =>
    match drainWaits s c y with
    | some h => s.noteHold h
    | none =>
      let d := drain s0 c m n
      let x := ((d.1.quadOf lq).mx m).zero n
      let s1 := d.1.setMx lq m (x.setNode n { (x.node n) with parted := y.parted || d.2.1 }).wake
      match d.2.2 with
      | some (code, va) => (disownCmd s1 c).abort c code va
      | none => s1.complete c

/-! ## The events -/

/-- MXT_COMMAND_START (R312, R316 to R322): the command in the bypass slot takes effect, or the next command of the queue starts. -/
def execMxtCommandStart (lq m : Nat) (s : State) : Result :=
  let x := (s.quadOf lq).mx m
  if !s.inTurn lq then .next s
  else
    match if x.bypassMay then x.bypass else none with
    | some b => if frozenCtx s lq b.cmd.ctx then .next s else .next (doPart s lq m b.cmd)
    | none =>
      match x.queue with
      | [] => .next s
      | k :: _ => if k.started ∨ frozenCtx s lq k.cmd.ctx then .next s else .next (startCommand s lq m k.cmd)

/-- The running command has come to a K-step. -/
def setStep (s : State) (lq m step : Nat) : State :=
  let x := (s.quadOf lq).mx m
  match x.queue with
  | [] => s
  | k :: ks => s.setMx lq m { x with queue := { k with step := step, stalled := false, retry := false } :: ks }

/-- CONTRIB rises (R304, R316, R326). -/
def countContrib (s : State) (lq m n : Nat) : State :=
  let x := (s.quadOf lq).mx m
  let y := x.node n
  s.setMx lq m (x.setNode n { y with contrib := min (y.contrib + 1) 65535 })

/-- A command meets what poisons its node (R326). -/
def mxPoison (s : State) (lq m : Nat) (c : Cmd) (code va : Nat) : State :=
  let n := c.nodeNo
  let s1 := countContrib s lq m n
  let x := (s1.quadOf lq).mx m
  mxAbort (s1.setMx lq m (x.setNode n { (x.node n) with st := .poison })) lq m c code va

/-- A stall begins (R311): the event is raised once for it, and with POL the queue traps while the command stays. -/
def stall (s : State) (lq m : Nat) (c : Cmd) : State :=
  let x := (s.quadOf lq).mx m
  if x.stalled then s.setMx lq m { x with queue := (x.queue.take 1).map (fun k => { k with retry := false }) ++ x.queue.tail }
  else
    let s1 := s.setMx lq m { x with queue := (x.queue.take 1).map (fun k => { k with stalled := true }) ++ x.queue.tail }
    let s2 := if x.even then s1.signal lq c.q c.ctx c.word (some (x.evsem, 1)) else s1
    if x.pol then s2.abort c codeOvfFull 0 else s2

/-- The end of an MMA or MMAT once its groups are applied and counted (R305, R316). -/
def mmaEnd (s : State) (lq m : Nat) (c : Cmd) : State :=
  let y := ((s.quadOf lq).mx m).node c.nodeNo
  if y.count ≠ 0 ∧ y.contrib = y.count then (release s lq m c c.nodeNo).orElse s else mxDone s lq m c

/-- After a group: the step index moves on, and after the last group the contribution counts. -/
def afterGroup (s : State) (lq m : Nat) (c : Cmd) (step : Nat) : State :=
  let s1 := setStep s lq m (step + 8)
  if step + 8 < (mmaArgs c).k then s1 else mmaEnd (countContrib s1 lq m c.nodeNo) lq m c

/-- The upset of a read of memory strikes the first operand that a group reads (R397). -/
def operandStruck (s : State) (c : Cmd) (step : Nat) : State :=
  let x := (mmaArgs c).opA c.mode
  match s.upset with
  | .corrected | .memory _ => s.struck (mxAccess c) (if (mmaArgs c).trans then x.row step else x.base + rowByteOf x.fmt step).toNat
  | _ => s

/-- One group of the running command (R130, R308, R316, R324, R326). One that is retried after a stall reads its operands again (DESIGN CHOICE, log 168). -/
def doGroup (s : State) (lq m : Nat) (c : Cmd) (step : Nat) : State :=
  let a := mmaArgs c
  let n := c.nodeNo
  let s := operandStruck s c step
  match groupOperands s c (step / 8) with
  | .wait h => s.noteHold h
  | .fault code va => mxPoison s lq m c code va
  | .done (as, bs) =>
    if s.upset = .lasting then retireQuad (mxPoison s lq m c codeResidue 0) (s.pqOf lq) codeResidue
    else
      let x0 := (s.quadOf lq).mx m
      let x := if s.upset = .transient then { x0 with transient := x0.transient + 1 } else x0
      if (x.node n).isInt then
        match applyInt x n (intGroup (x.node n) a.m a.n as bs) with
        | none => stall (s.setMx lq m x) lq m c
        | some x1 => afterGroup (s.setMx lq m x1) lq m c step
      else
        let r := applyFloat (x.node n) a.m a.n as bs
        afterGroup (edgeFlags (s.setMx lq m (x.setNode n r.1)) lq 0 (x.node n).ctx c.part r.2) lq m c step

/-- MXT_GROUP_APPLY (R308, R311, R316, R321): at a group boundary a command in the bypass slot takes effect; otherwise the next group is
applied, or, after the last, a release that waited is made. -/
def execMxtGroupApply (lq m : Nat) (s : State) : Result :=
  let x := (s.quadOf lq).mx m
  match x.queue with
  | [] => .next s
  | k :: _ =>
    if !s.inTurn lq ∨ !k.started ∨ 0x51 < k.cmd.opcode then .next s
    else
      match if x.bypassMay then x.bypass else none with
      | some b => .next (doPart s lq m b.cmd)
      | none =>
        if (mmaArgs k.cmd).k ≤ k.step then .next (mmaEnd s lq m k.cmd)
        else if k.stalled && !k.retry then .next s
        else .next (doGroup s lq m k.cmd k.step)

/-- The `t`th token of an ACCOUT (R319): 16 to a row, then the END. -/
def accoutToken (x : Mxt) (c : Cmd) (t : Nat) : Token :=
  let n := c.nodeNo
  let y := x.node n
  let rows := bits c.word 6 0 + 1
  let level := bits c.word 9 7
  let lane := fun i =>
    let k := 128 * (t / 16) + 8 * (t % 16) + i
    if y.isInt then BitVec.ofNat 36 (wrapNat 32 (x.folded n k)) else y.pos k
  let poison := decide (y.st = .poison)
  if t < 16 * rows then
    { ctx := y.ctx, lo := t, hi := t + 1, kind := .data, interp := false, level := level, pred := .none, poison := poison, taint := false, lanes := Lanes.ofFn lane }
  else
    { ctx := y.ctx, lo := 16 * rows, hi := 16 * rows, kind := .fin, interp := false, level := level, pred := .none, poison := poison, taint := false, lanes := .zero }

/-- The end of an ACCOUT (R319): CLR frees the node, but not one that is poisoned. -/
def accoutEnd (s : State) (lq m : Nat) (c : Cmd) : State :=
  let n := c.nodeNo
  let x := (s.quadOf lq).mx m
  if bit c.word 11 ∧ (x.node n).st ≠ .poison then
    let x1 := x.zero n
    mxDone (s.setMx lq m (x1.setNode n { (x1.node n) with st := .free })) lq m c
  else mxDone s lq m c

/-- Whether a port takes a further token (R319): its region runs and its router has room (R426). -/
def accepts (r : Region) (d : Dest) : Bool := r.running && !r.frozen && decide (r.routed (r.placeOf d.slot).1 < 8)

/-- ACCOUT_TOKEN_EMIT (R319): the next token leaves when the target accepts; a target that is no longer there faults PERMISSION. -/
def execAccoutTokenEmit (lq m : Nat) (s : State) : Result :=
  let x := (s.quadOf lq).mx m
  match x.queue with
  | [] => .next s
  | k :: ks =>
    if !s.inTurn lq ∨ !k.started ∨ k.cmd.opcode ≠ 0x54 then .next s
    else
      match accoutTarget s (x.node k.cmd.nodeNo).ctx k.cmd.t.toNat with
      | none => .next (mxAbort s lq m k.cmd codePermission 0)
      | some d =>
        if !((s.region? d.region).map fun r => accepts r d).getD false then .next s
        else
          let last := 16 * (bits k.cmd.word 6 0 + 1) - b2n (bit k.cmd.word 10)
          let s1 := s.setMx lq m { x with queue := { k with out := k.out + 1 } :: ks }
          let s2 := s1.deliver [d] (accoutToken x k.cmd k.out)
          .next (if last ≤ k.out then accoutEnd s2 lq m k.cmd else s2)

end Sys2Proof.Machine
end

