-- ==== Sys2Proof/Machine/Preempt.lean ====
section
/-! DEFINITION. Pre-emption (spec 19 R414 to R436): the arbiter's decision, the freeze and the readout, the restore, turn changes (02 R57),
and the words YIELD, CTXSAVE and CTXLOAD. -/

namespace Sys2Proof.Machine

/-! ## What is saved -/

/-- The contexts of a launch. -/
def Launch.allCtxs (l : Launch) : List Nat := l.ctxs ++ l.drawn

/-- The regions of a launch. -/
def launchRegions (s : State) (n : Nat) : NatMap Region := s.regions.filter fun e => decide (e.2.launch = some n)

/-- The logical quads of a partition. -/
def partQuads (s : State) (p : Nat) : List Nat := (List.range 128).filter fun lq => decide (s.lqOwner lq = some p)

/-- The queues of a quad whose context is one of those given (R420). -/
def queuesIn (s : State) (lq : Nat) (ctxs : List Nat) : List Nat := [0, 1, 2, 3].filter fun q => ctxs.contains (s.queueOf lq q).ctx

/-- The commands of a copy engine issued in the contexts given (R420): channel and command, the current one first. -/
def copiesIn (s : State) (lq : Nat) (ctxs : List Nat) : List (Nat × Cmd) :=
  (List.range 8).flatMap fun k =>
    let c := (s.quadOf lq).chan k
    ((c.cur.toList ++ c.queue).filter fun x => ctxs.contains x.ctx).map fun x => (k, x)

/-- The commands of a matrix tile issued in the contexts given. -/
def mxIn (x : Mxt) (ctxs : List Nat) : List MxCmd := (x.queue ++ x.bypass.toList ++ x.more).filter fun c => ctxs.contains c.cmd.ctx

/-- The nodes of a matrix tile that the contexts given hold (R420). -/
def nodesIn (x : Mxt) (ctxs : List Nat) : List (Nat × AccNode) :=
  (List.range 4).filterMap fun n => let y := x.node n; if y.st ≠ .free ∧ ctxs.contains y.ctx then some (n, y) else none

/-- Tokens that rest in the PEs of a quad, in its input buffers (of a channel or stream the first 16 entries: R43, R386), links and accumulator columns, for
one region (R418, R422). -/
def restingTokens (s : State) (lq : Nat) (r : Region) : Nat :=
  let here := fun (slot : Nat) => decide (r.lqAt slot = lq)
  let spots := (r.storeSpots.filter fun x => here x.slot && decide (x.w.place ≠ .vault)).length
  let flight := (r.flight.filter fun x => here x.slot).length
  let bufs := (r.inputs.filter fun e => here e.1).map fun e =>
    let n := bits e.2.imm.toNat 3 0
    (inputBuffer s r n).length + (((boundStream s r n).map fun x => min 16 x.2.queue.length).getD 0)
  let more := r.activeNodes.map fun e => if here e.1 then e.2.2.arrivals.length + e.2.2.held.length else 0
  spots + flight + bufs.foldl (· + ·) 0 + more.foldl (· + ·) 0

/-- Requests of a region that are still in its PEs, on a quad (R419): each is saved as a token. -/
def askedThere (s : State) (lq rid : Nat) : Nat :=
  (s.pending.filter fun p => decide (p.st = .input) && decide (p.req.region = rid) && decide (p.req.lq = lq)).length

/-- Whether a window entry stands for a request that is still in its PE. -/
def WindowEntry.inPe (s : State) : WindowEntry → Bool
  | .out id _ _ => s.pending.any fun p => decide (p.req.id = id) && decide (p.st = .input)
  | _ => false

/-- Entries of an MT of a quad for one region (R422, R426): window entries, and the groups in b4 assembly (R242). -/
def windowEntries (s : State) (lq mt rid : Nat) (r : Region) : Nat :=
  (r.windows.map fun w => if r.lqAt w.1 = lq ∧ r.mtAt w.1 = mt then (w.2.filter fun e => !e.inPe s).length else 0).foldl (· + ·) 0 +
  (s.pending.filter fun p => decide (p.st = .assembling) && decide (p.req.region = rid) && decide (p.req.lq = lq) && decide (p.req.mt = mt)).length

/-- Whether a region holds a RANGE expand (R272). -/
def Region.expands (r : Region) : Bool :=
  (List.range 128).any fun i => match r.instrAt i with
    | some (.rangeExpand _) => true
    | _ => false

/-- The home sequencer of a stage: the lowest logical quad that holds one of its instances (R272). -/
def homeSequencer (rs : List Region) : Option Nat := leastBy (fun x => x) (rs.flatMap fun r => r.pes.map r.lqOfBit)

/-- Split records of a quad (R272, R422): the instances of each stage with a RANGE expand whose home sequencer is in the quad. -/
def splitRecords (s : State) (lq : Nat) (l : Launch) : Nat :=
  (l.stages.map fun g =>
    let rs := g.insts.filterMap s.region?
    if rs.any (·.expands) && decide (homeSequencer rs = some lq) then g.insts.length else 0).foldl (· + ·) 0

/-- What a quad section holds, without its header (R422). -/
def sectionBody (s : State) (lq n : Nat) (l : Launch) : Nat :=
  let cs := l.allCtxs
  let rs := launchRegions s n
  let sum : (Nat → Region → Nat) → Nat := fun f => (rs.map fun e => f e.1 e.2).foldl (· + ·) 0
  let pes := sum fun _ r => (r.pes.filter fun b => r.lqOfBit b = lq).length
  let mts := (List.range 4).map fun mt => let e : Nat := sum (windowEntries s lq mt); if e = 0 then 0 else 64 + 64 * e
  let mx := (List.range 3).map fun m =>
    let x := (s.quadOf lq).mx m
    let ns := nodesIn x cs
    if ns.isEmpty ∧ (mxIn x cs).isEmpty then 0 else 256 + 73728 * ns.length + (if ns.any fun y => y.2.isInt then 4096 else 0)
  3136 * pes + 64 * sum (fun rid r => restingTokens s lq r + askedThere s lq rid) + mts.foldl (· + ·) 0 + 512 * (queuesIn s lq cs).length + mx.foldl (· + ·) 0 +
    64 * (copiesIn s lq cs).length + 32 * splitRecords s lq l

/-- The size of a section: none where the quad has nothing of the save set (R422). -/
def sectionSize (s : State) (lq n : Nat) (l : Launch) : Nat := let b := sectionBody s lq n l; if b = 0 then 0 else 64 + b

/-- The quads of the save set (R420). -/
def saveQuads (s : State) (n : Nat) (l : Launch) : List Nat := (partQuads s l.part).filter fun lq => sectionBody s lq n l ≠ 0

/-- The owner tags of a launch's contexts (R423): by 1024 * physical quad + 256 * bank + frame. -/
def launchTags (s : State) (l : Launch) : List (Nat × Word64) :=
  s.own.filter fun e => bit e.2.toNat 16 && decide (bits e.2.toNat 15 12 = l.part) && l.allCtxs.contains (bits e.2.toNat 11 0)

/-- The size of the image of a launch (R421, R422). -/
def imageSize (s : State) (n : Nat) (l : Launch) : Nat :=
  256 + 16 * (launchTags s l).length + ((partQuads s l.part).map fun lq => sectionSize s lq n l).foldl (· + ·) 0

/-! ## The image in memory -/

/-- The bytes of a saved owner tag (R423): physical quad, bank, frame and value, in a layout that is the model's choice (log 149). -/
def tagBytes (e : Nat × Word64) : List Byte :=
  toBytes 2 (e.1 / 1024) ++ toBytes 2 (e.1 / 256 % 4) ++ toBytes 4 (e.1 % 256) ++ toBytes 8 e.2.toNat

/-- The bytes that follow the header (R421): the owner tags, then the sections, whose layout is the device's, so that they are free values (log 11). -/
def Image.body (im : Image) : List Byte :=
  padTo (16 * im.ntag) (im.tags.flatMap tagBytes) ++
  (List.range (im.size - 256 - 16 * im.ntag)).map fun i => BitVec.ofNat 8 ((Config.freeWord (im.seed + i / 8)).toNat / 2 ^ (8 * (i % 8)))

/-- The physical address of a byte of an image. -/
def Image.at (im : Image) (i : Nat) : Nat := im.pages.getD (i / 2 ^ 16) 0 + i % 2 ^ 16

/-- Write bytes of an image, page by page; `fuel` bounds the pages. -/
def writePages (im : Image) : Nat → Nat → List Byte → State → State
  | 0, _, _, s => s
  | fuel + 1, i, bs, s =>
    let k := 2 ^ 16 - i % 2 ^ 16
    if bs.isEmpty then s else writePages im fuel (i + k) (bs.drop k) (s.writeAt (im.at i) (bs.take k))

/-- An image is complete (R421): its sections are written with their CHECK, and STATE becomes 1. -/
def completeImage (s : State) (k : Nat) (im : Image) : State :=
  let im1 := { im with seed := s.stepNo, st := .complete }
  let bs := im1.body
  let s1 := writePages im1 (im1.pages.length + 1) 256 bs { s with stepNo := s.stepNo + im1.size / 8 + 1 }
  putImage s1 k { im1 with check := crc32c bs }

/-- The image is complete once every quad is read out and no late reply is owed (R419). -/
def settleImage (s : State) (k : Nat) (im : Image) : State :=
  if im.reading.isEmpty ∧ im.late.isEmpty ∧ im.st = .saving then completeImage s k im else putImage s k im

/-- Whether bytes are those of an image as it was written, with its CHECK (R430). -/
def Image.isIn (im : Image) (bs : List Byte) : Bool :=
  decide ((bs.drop 256).take (im.size - 256) = im.body) && decide ((bs.drop 32).take 4 = toBytes 4 im.check)

/-- Whether the bytes of an image in memory are those that were written. -/
def intact (s : State) (im : Image) : Bool := im.isIn ((List.range im.size).map fun i => s.byteAt (im.at i))

/-! ## The freeze -/

/-- Whether a region fault of a launch waits for the ring: R392 handles it first (R430). -/
def launchOwes (s : State) (n : Nat) (l : Launch) : Bool :=
  (s.partOf l.part).records.any fun f =>
    decide (f.ends = some n) || (match f.replays with
      | some (rid, _) => ((s.region? rid).map fun r => decide (r.launch = some n)).getD false
      | none => false)

/-- The commands of some contexts that wait in a channel leave it (R419). -/
def takeQueued (ctxs : List Nat) (im : Image) (lq : Nat) (s : State) : Image × State :=
  (List.range 8).foldl (fun (a : Image × State) k =>
    let c := (a.2.quadOf lq).chan k
    let mine := c.queue.filter fun x => ctxs.contains x.ctx
    if mine.isEmpty then a
    else ({ a.1 with bce := NatMap.insert a.1.bce (8 * lq + k) mine }, a.2.setChan lq k { c with queue := c.queue.filter fun x => !ctxs.contains x.ctx })) (im, s)

/-- The commands of some contexts leave a matrix tile at its group boundary, with MXT_CFG (R328, R419). -/
def takeMx (ctxs : List Nat) (im : Image) (lq : Nat) (s : State) : Image × State :=
  (List.range 3).foldl (fun (a : Image × State) m =>
    let x := (a.2.quadOf lq).mx m
    let mine := x.queue.filter fun c => ctxs.contains c.cmd.ctx
    let slot := x.bypass.toList ++ x.more
    let by' := slot.filter fun c => ctxs.contains c.cmd.ctx
    let left := slot.filter fun c => !ctxs.contains c.cmd.ctx
    let cfg := if mine.isEmpty && by'.isEmpty && (nodesIn x ctxs).isEmpty then a.1.mxcfg else NatMap.insert a.1.mxcfg (4 * lq + m) (x.evsem, x.even, x.pol)
    let cmds := if mine.isEmpty then a.1.mxcmds else NatMap.insert a.1.mxcmds (8 * lq + m) (NatMap.get [] a.1.mxcmds (8 * lq + m) ++ mine)
    let both := if by'.isEmpty then cmds else NatMap.insert cmds (8 * lq + 4 + m) (NatMap.get [] cmds (8 * lq + 4 + m) ++ by')
    ({ a.1 with mxcmds := both, mxcfg := cfg }, a.2.setMx lq m { x with
      queue := x.queue.filter fun c => !ctxs.contains c.cmd.ctx
      bypass := left.head?, more := left.tail })) (im, s)

/-- The requests of regions that no MT has taken, or that wait for the rest of their b4 block (R419, R422). -/
def askedOf (s : State) (rids : List Nat) : List Pending :=
  s.pending.filter fun p => rids.contains p.req.region && (decide (p.st = .input) || decide (p.st = .assembling))

/-- The requests of regions that their MTs have taken and that will be answered. -/
def owedOf (s : State) (rids : List Nat) : List Nat :=
  (s.pending.filter fun p => rids.contains p.req.region && decide (p.st ≠ .input) && decide (p.st ≠ .assembling) && decide (p.req.op ≠ .prefetch)).map (·.req.id)

/-- The matrix nodes of some contexts are saved and freed to FREE (R424). -/
def takeNodes (ctxs : List Nat) (lq : Nat) (im : Image) (s : State) : Image × State :=
  (List.range 3).foldl (fun (a : Image × State) m =>
    (nodesIn ((a.2.quadOf lq).mx m) ctxs).foldl (fun (a : Image × State) e =>
      let x := (a.2.quadOf lq).mx m
      let key := 16 * lq + 4 * m + e.1
      let o := (x.ovf.filter fun z => decide (z.1 / 16384 = e.1)).map fun z => (16384 * key + z.1 % 16384, z.2)
      ({ a.1 with nodes := NatMap.insert a.1.nodes key e.2, ovf := o.foldl (fun m z => NatMap.insert m z.1 z.2) a.1.ovf },
        a.2.setMx lq m ((x.setNode e.1 .init).freeEntries e.1))) a) (im, s)

/-- The current copies of some contexts are fenced with PREEMPT, which their channels show, and leave their channels (R294, R296, R419). -/
def takeCopies (ctxs : List Nat) (lq : Nat) (im : Image) (s : State) : Image × State :=
  (List.range 8).foldl (fun (a : Image × State) k =>
    let c := (a.2.quadOf lq).chan k
    match c.cur with
    | none => a
    | some x =>
      if !ctxs.contains x.ctx then a
      else
        let f := if c.st = .run then c.fence codePreempt else c
        ({ a.1 with bceCur := NatMap.insert a.1.bceCur (8 * lq + k) { f with queue := [], aside := [] } }, (disown a.2 lq k).setChan lq k { c.next with fcode := f.fcode })) (im, s)

/-- The queues of some contexts are saved and left HALTED with zeroed state (R420, R424). -/
def takeQueues (ctxs : List Nat) (lq : Nat) (im : Image) (s : State) : Image × State :=
  (queuesIn s lq ctxs).foldl (fun (a : Image × State) q =>
    let x := a.2.queueOf lq q
    ({ a.1 with queues := NatMap.insert a.1.queues (4 * lq + q) { x with wait := x.wait.stop a.2.cycle } }, a.2.setQueue lq q .init)) (im, s)

/-- At the end of a save the tags of the launch's contexts are recorded and cleared (R423). -/
def takeTags (l : Launch) (im : Image) (s : State) : Image × State :=
  let ts := launchTags s l
  ({ im with tags := ts }, { s with own := ts.foldl (fun m e => NatMap.set 0 m e.1 (e.2 &&& ~~~(0x10000 : Word64))) s.own })

/-- READOUT of a quad (R419, R420, R424): what it holds of the save set, the follow-ons of its copies among it, moves into the image, and the quad is
released. -/
def readQuad (s : State) (k lq : Nat) (l : Launch) (im : Image) : State :=
  let cs := l.allCtxs
  let m := takeMx cs im lq s
  let a := takeCopies cs lq m.1 m.2
  let b := takeNodes cs lq a.1 a.2
  let c := takeQueues cs lq b.1 b.2
  let im1 := { c.1 with reading := c.1.reading.filter (· ≠ lq) }
  if im1.reading.isEmpty then (let d := takeTags l im1 c.2; settleImage d.2 k d.1) else putImage c.2 k im1

/-- Whether some queue of the save set in a quad has an LDQ or STQ outstanding (R419); an engine's answer finds its word in the image (R431). -/
def answersOwed (s : State) (lq : Nat) (l : Launch) : Bool := (queuesIn s lq l.allCtxs).any fun q => accessOut (s.queueOf lq q)

/-- The handle by which the MTs know a region of a saved launch: its own, beside the number of the image (R419). No region in place has it: handles are
less than 2^64. -/
def savedHandle (k rid : Nat) : Nat := (k + 1) * 2 ^ 64 + rid

/-- The accepted requests of saved regions stand for the image. -/
def ownLate (s : State) (k : Nat) (rids : List Nat) : State :=
  { s with pending := mapWhere (fun p => rids.contains p.req.region) (fun p => { p with req := { p.req with region := savedHandle k p.req.region } }) s.pending }

/-- The counts of the waits of a quad's queues of some contexts stand still (R276, R417). -/
def stopCounts (ctxs : List Nat) (s : State) (lq : Nat) : State :=
  (queuesIn s lq ctxs).foldl (fun s q => let x := s.queueOf lq q; s.setQueue lq q { x with wait := x.wait.stop s.cycle }) s

/-- The image of a launch as its save begins, with nothing in it yet (R421): the quads that it is to be read out of stand still for it. -/
def newImage (s : State) (n : Nat) (l : Launch) (cause : Nat) (pages : List Nat) : Image :=
  { cause := cause, st := .saving, part := l.part, lid := l.rcd.lid, freeze := s.dtime, size := imageSize s n l, nq := (saveQuads s n l).length
    ntag := (launchTags s l).length, check := 0, launch := n, pages := pages, seed := 0, reading := saveQuads s n l, tags := [], regions := [], asked := []
    queues := [], bce := [], bceCur := [], mxcmds := [], mxcfg := [], nodes := [], ovf := [], late := [] }

/-- THE FREEZE (R417 to R420): the regions of a launch stop where they are, its queued commands leave their engines, the header is written with
STATE 0. Quads that are out of their turn are taken into the image at once (R431). -/
def freezeLaunch (s : State) (n : Nat) (l : Launch) (cause : Nat) (pages : List Nat) : State :=
  let rs := launchRegions s n
  let rids := rs.map (·.1)
  let qs := saveQuads s n l
  let im := { newImage s n l cause pages with
    regions := rs.map fun e => (e.1, { e.2.pause s.cycle with asked := [] }), asked := askedOf s rids, late := owedOf s rids }
  let s1 := { s with
    regions := s.regions.filter fun e => !rids.contains e.1
    pending := s.pending.filter fun p => !im.asked.contains p
    nextImage := s.nextImage + 1 }
  let s1 := qs.foldl (stopCounts l.allCtxs) (ownLate s1 s.nextImage rids)
  let a := qs.foldl (fun (a : Image × State) lq => takeQueued l.allCtxs a.1 lq a.2) (im, s1)
  let b := qs.foldl (fun (a : Image × State) lq => takeMx l.allCtxs a.1 lq a.2) a
  let since := if cause = 2 then l.since else s.dtime
  let s2 := putImage (b.2.setLaunch n { l with
    phase := .saved, since := since, raised := if cause = 2 then l.raised else 0, restoredAt := l.restoredAt.map fun c => s.cycle - c }) s.nextImage b.1
  if qs.isEmpty then settleImage s2 s.nextImage b.1
  else
    (qs.filter fun lq => !s.inTurn lq).foldl (fun s lq =>
      match NatMap.find? s.images (s2.nextImage - 1) with
      | some im => readQuad s (s2.nextImage - 1) lq l im
      | none => s) s2

/-- The tokens of an image that rest in a quad, with their regions. -/
def Image.spotsIn (im : Image) (lq : Nat) : List (Nat × Spot) :=
  im.regions.flatMap fun e => (e.2.storeSpots.filter fun x => decide (e.2.lqAt x.slot = lq)).map fun x => (e.1, x)

/-- A saved token is poisoned. -/
def Image.poisonSpot (im : Image) (x : Nat × Spot) : Image :=
  { im with regions := mapWhere (fun e => decide (e.1 = x.1)) (fun e => (e.1, e.2.changeSpot x.2 fun w => { w with tok := { w.tok with poison := true } })) im.regions }

/-- An uncorrectable error in the readout of a quad (R430), where the free value of the step has it: in a configuration word or in slot state it ends the
launch with UNCORRECTABLE; in a token it poisons the token that is saved. -/
def readStruck (s : State) (k lq : Nat) (l : Launch) (im : Image) : State :=
  let v := s.freeValue
  if v.1.getLsbD 63 then endLaunch v.2 im.launch codeUncorrectable
  else
    match (im.spotsIn lq)[v.1.toNat % (im.spotsIn lq).length]? with
    | none => readQuad v.2 k lq l im
    | some x => readQuad v.2 k lq l (im.poisonSpot x)

/-- PREEMPT_READOUT_COMPLETE (R419, R420, R422, R424, R430). -/
def execPreemptReadoutComplete (k lq : Nat) (s : State) : Result :=
  match NatMap.find? s.images k with
  | none => .next s
  | some im =>
    match s.launch? im.launch with
    | none => .next s
    | some l =>
      if im.st ≠ .saving ∨ l.phase ≠ .saved ∨ !im.reading.contains lq ∨ answersOwed s lq l ∨ launchOwes s im.launch l then .next s
      else
        match s.upset with
        | .lasting => .next (readStruck s k lq l im)
        | .memory true => .next (readStruck s k lq l im)
        | _ => .next (readQuad s k lq l im)

/-- LATE_REPLY_INTO_IMAGE (R419): a reply that came after the readout of its MT is written into the image. -/
def execLateReplyIntoImage (k id : Nat) (s : State) : Result :=
  match NatMap.find? s.images k with
  | none => .next s
  | some im =>
    let waits := s.pending.any fun p => decide (p.req.id = id)
    if im.st ≠ .saving ∨ !im.late.contains id ∨ waits then .next s
    else .next (settleImage s k { im with late := im.late.filter (· ≠ id) })

/-! ## The arbiter's decision -/

/-- The launches being saved. -/
def savingLaunches (s : State) : List Nat := (s.images.filter fun e => decide (e.2.st = .saving)).map (·.2.launch)

/-- Whether the reservations of a waiting launch fit once the launches in `gone` have given up theirs (R415). -/
def fitsWithout (s : State) (gone : List Nat) (n : Nat) (l : Launch) : Bool :=
  match l.phase with
  | .waiting =>
    let busy := busyPes s gone
    let free := (partitionPes s l.part false).filter fun x => !busy.contains x
    decide (l.rcd.nctx ≤ (s.lowestFreeN l.rcd.nctx).length) && areaFits s l.part l.rcd l.stages l.chans &&
    (match placeAll free ((instancesOf l.stages).map (·.2)) with
      | .ok _ => true
      | .error _ => false)
  | .saved => match s.imageOf? n with
    | some (_, im) => imageFree s gone im
    | none => false
  | _ => false

/-- BASE of a save area (R416). -/
def saveBase (v : Word64) : Nat := bits v.toNat 46 16 * 2 ^ 21
/-- SIZE of a save area in 64 KiB units (R416). -/
def saveUnits (v : Word64) : Nat := bits v.toNat 63 48

/-- The pages of a save area that images occupy (R416). -/
def usedPages (s : State) (p : Nat) : List Nat :=
  s.images.flatMap fun e =>
    if e.2.part = p ∧ e.2.cause ≠ 2 ∧ (e.2.st = .saving ∨ e.2.st = .complete) then e.2.pages else []

/-- 64 KiB units that `n` bytes take. -/
def unitsFor (n : Nat) : Nat := (n + 2 ^ 16 - 1) / 2 ^ 16

/-- The lowest free run of the save area of a partition that holds `n` bytes (R416). -/
def freeRun (s : State) (p : Nat) (used : List Nat) (n : Nat) : Option (List Nat) :=
  let v := (s.partOf p).save
  let k := unitsFor n
  if saveUnits v < k then none
  else
    (((List.range (saveUnits v + 1 - k)).map fun i => (List.range k).map fun j => saveBase v + 2 ^ 16 * (i + j)).find? fun run =>
      run.all fun a => !used.contains a)

/-- Runs for the images of some launches, one after the other. -/
def freeRuns (s : State) (p : Nat) : List Nat → List (Nat × Launch) → Option (List (List Nat))
  | _, [] => some []
  | used, e :: es =>
    match freeRun s p used (imageSize s e.1 e.2) with
    | none => none
    | some r => (freeRuns s p (used ++ r) es).map fun rs => r :: rs

/-- Whether a running launch may be a victim for one of effective priority `e` (R415); `guard` says that the 65,536 cycles count. -/
def mayFall (s : State) (part e : Nat) (guard : Bool) (l : Launch) : Bool :=
  decide (l.phase = .running) && decide (l.part = part) && decide (l.rcd.prio < e) &&
  (!guard || (match l.restoredAt with
    | some c => decide (c + 65536 ≤ s.cycle)
    | none => true))

/-- The order in which victims are added (R415): lowest PRIO, then the latest start or restore, then the higher queue number. -/
def victimKey (e : Nat × Launch) : Nat := (e.2.rcd.prio * 2 ^ 128 + (2 ^ 64 - e.2.placed)) * 64 + (63 - e.2.queue)

/-- The candidates in their order. -/
def victimCandidates (s : State) (part e : Nat) : List (Nat × Launch) :=
  (s.launches.filter fun x => mayFall s part e true x.2).foldr (fun x acc => insertBy victimKey x acc) []

/-- Whether the arbiter takes up a waiting launch under R79 and finds that it does not fit, counting what launches already being saved give up. -/
def lacksRoom (s : State) (n : Nat) (l : Launch) : Bool :=
  s.waits n l && mayStart s n l && !fitsWithout s (savingLaunches s) n l

/-- The victims for a waiting launch (R415): candidates are added until it fits. -/
def victims (s : State) (n : Nat) (l : Launch) : Option (List (Nat × Launch)) :=
  let cs := victimCandidates s l.part (s.effective n l)
  ((List.range cs.length).map fun i => cs.take (i + 1)).find? fun vs => fitsWithout s (savingLaunches s ++ vs.map (·.1)) n l

/-- PREEMPTION_DECISION (R415, R416, R417). -/
def execPreemptionDecision (n : Nat) (s : State) : Result :=
  match s.launch? n with
  | none => .next s
  | some l =>
    if !lacksRoom s n l then .next s
    else
      match victims s n l with
      | none => .next s
      | some vs =>
        match freeRuns s l.part (usedPages s l.part) vs with
        | none => .next s
        | some runs =>
          if vs.any fun e => launchOwes s e.1 e.2 then .next s
          else .next ((vs.zip runs).foldl (fun s e => freezeLaunch s e.1.1 e.1.2 1 e.2) s)

/-! ## The restore -/

/-- A spilled token returns to its column where that is free, else to another, else to the vault spill area (R427 step 3). -/
def returnSpot (rid : Nat) (s : State) (x : Spot) : State :=
  match s.region? rid with
  | none => s
  | some r =>
    match x.w.place with
    | .column lq m n _ =>
      if (((s.quadOf lq).mx m).node n).st = .free ∧ (spillColumns s).count x.w.place ≤ 8 then s
      else s.setRegion rid (r.moveSpot x ((freeColumn s lq).getD .vault))
    | _ => s

/-- A region whose replay copy and retention buffers are gone, until its next replay point (R422, R429). -/
def Region.unreplay (r : Region) : Region := { r with unreplayable := true, replay := ⟨[], none, []⟩, retained := [], replaying := [] }

/-- A region at its restore (R427 to R429): its clock runs and it is unreplayable. -/
def restoreRegion (s : State) (rid : Nat) (r : Region) : State :=
  let r1 := { r with frozen := false }.unreplay
  r.spots.foldl (returnSpot rid) (s.placeRegion rid r1)

/-- A saved channel command goes back to its channel ahead of the commands there (R294, R427): it is reissued without a new start, SEQ standing as it is; one
that an owner tag fenced only by CTXLOAD; in a quad out of its turn it stays fenced until the turn. A command that has started since goes on from its
BYTES in its turn. -/
def restoreChannel (s : State) (cause key : Nat) (c : Channel8) : State :=
  let lq := key / 8
  let now := (s.quadOf lq).chan (key % 8)
  let again := decide (c.st = .fenced) && (decide (c.fcode = codePreempt) || decide (cause = 2))
  let c1 := if !again then c
    else if s.inTurn lq then { c with st := .run, job := none, fcode := now.fcode } else { c with fcode := codePreempt, job := none }
  (disown s lq (key % 8)).setChan lq (key % 8) { c1 with
    queue := now.cur.toList ++ now.queue, seq := now.seq
    aside := now.setAside ++ now.aside }

/-- Saved queued commands go ahead of those accepted after the save, one of them that has started among them, behind a current one that was saved with them
(R427). -/
def restoreQueued (s : State) (key : Nat) (cs : List Cmd) (cur : Bool) : State :=
  let c := (s.quadOf (key / 8)).chan (key % 8)
  match c.cur with
  | none => s.setChan (key / 8) (key % 8) ({ c with queue := cs ++ c.queue } : Channel8).next
  | some x =>
    if cur then s.setChan (key / 8) (key % 8) { c with queue := cs ++ c.queue }
    else
      (disown s (key / 8) (key % 8)).setChan (key / 8) (key % 8)
        ({ c with cur := none, queue := cs ++ x :: c.queue, aside := c.setAside ++ c.aside } : Channel8).next

/-- Saved matrix commands go ahead of those accepted after the save (R427). -/
def restoreMx (s : State) (key : Nat) (cs : List MxCmd) : State :=
  let lq := key / 8
  let m := key % 4
  let x := (s.quadOf lq).mx m
  if 4 ≤ key % 8 then s.setMx lq m { x with bypass := cs.head?, more := cs.tail ++ x.bypass.toList ++ x.more } else s.setMx lq m { x with queue := cs ++ x.queue }

/-- The saved MXT_CFG of a tile goes back (R328). -/
def restoreCfg (s : State) (key : Nat) (v : Nat × Bool × Bool) : State :=
  s.setMx (key / 4) (key % 4) { ((s.quadOf (key / 4)).mx (key % 4)) with evsem := v.1, even := v.2.1, pol := v.2.2 }

/-- A queue at its restore (R427): it goes on at its saved word, whose wait field is tested afresh, but for a word that its engine has taken, which waits for
its answer (R361, R431); its count goes on where its quad is in turn. -/
def Queue.restored (x : Queue) (turn : Bool) (cycle : Nat) : Queue :=
  { x with
    wait := if turn then x.wait.resume cycle else x.wait
    phase := match x.phase with
      | .fresh => .fresh
      | .issued => .fresh
      | .answering t => .answering t
      | .again p => .again p
      | p => .again p }

/-- A saved node goes back with its overflow entries. -/
def restoreNode (s : State) (im : Image) (key : Nat) (y : AccNode) : State :=
  let x := (s.quadOf (key / 16)).mx (key / 4 % 4)
  let es := (im.ovf.filter fun z => decide (z.1 / 16384 = key)).map fun z => (16384 * (key % 4) + z.1 % 16384, z.2)
  s.setMx (key / 16) (key / 4 % 4) { (x.setNode (key % 4) y) with ovf := es.foldl (fun m z => NatMap.insert m z.1 z.2) x.ovf }

/-- THE RESTORE (R423, R427 to R429), in the order of R427: owner tags, regions, windows and queues, nodes, commands; then the clocks. -/
def restoreImage (s : State) (k n : Nat) (im : Image) (l : Launch) : State :=
  let s1 := { s with own := im.tags.foldl (fun m e => NatMap.set 0 m e.1 e.2) s.own }
  let s2 := im.nodes.foldl (fun s e => restoreNode s im e.1 e.2) s1
  let s3 := im.regions.foldl (fun s e => restoreRegion s e.1 e.2) s2
  let s4 := { s3 with pending := s3.pending ++ im.asked }
  let s5 := im.queues.foldl (fun s e => s.setQueue (e.1 / 4) (e.1 % 4) (e.2.restored (s.inTurn (e.1 / 4)) s.cycle)) s4
  let s6 := im.mxcmds.foldl (fun s e => restoreMx s e.1 e.2) (im.mxcfg.foldl (fun s e => restoreCfg s e.1 e.2) s5)
  let s7 := im.bceCur.foldl (fun s e => restoreChannel s im.cause e.1 e.2) s6
  let s8 := im.bce.foldl (fun s e => restoreQueued s e.1 e.2 (NatMap.find? im.bceCur e.1).isSome) s7
  let l1 := { l with phase := .running, placed := s.cycle, restoredAt := if im.cause = 2 then l.restoredAt.map fun c => s.cycle - c else some s.cycle }
  putImage (s8.setLaunch n l1) k (im.emptied .restored)

/-- LAUNCH_RESTORE (R79, R427, R430): a launch that the arbiter or YIELD saved is taken up again; where its image is not as it was written, it ends
with BLOCK_INVALID. -/
def execLaunchRestore (n : Nat) (s : State) : Result :=
  match s.launch? n, s.imageOf? n with
  | some l, some (k, im) =>
    if !s.waits n l || !mayStart s n l || !imageFree s [] im then .next s
    else if !intact s im then .next (endLaunch s n codeInvalid)
    else .next (restoreImage s k n im l)
  | _, _ => .next s

/-! ## Turn changes -/

/-- The logical quad in turn on a physical quad. -/
def State.turnOf (s : State) (pq : Nat) : Option Nat := (s.hosted pq).find? s.inTurn

/-- Whether a logical quad has nothing to run (R57): no queue that could issue, no firing ready, no command under way. -/
def nothingToRun (s : State) (lq : Nat) : Bool :=
  let x := s.quadOf lq
  ([0, 1, 2, 3].all fun q => let y := s.queueOf lq q; decide (y.st ≠ .running) || y.wait.live || y.isAnswering) &&
  (s.regions.all fun e => !e.2.live || (List.range e.2.pes.length).all fun pe =>
    decide (e.2.lqOfBit (e.2.pes.getD pe 0) ≠ lq) || (selectFiring s e.1 e.2 pe).isNone) &&
  (x.bce.all fun e => decide (e.2.st ≠ .run) || e.2.cur.isNone) && x.mxt.all fun e => e.2.queue.isEmpty && e.2.bypass.isNone

/-- What leaves its turn (R57, R276, R404, R419, R429): running copies are fenced with PREEMPT, counts stand still, replay copies are not saved. -/
def leaveTurn (s : State) (lq : Nat) : State :=
  let s1 := (List.range 8).foldl (fun s k =>
    let c := (s.quadOf lq).chan k
    if c.st = .run ∧ c.cur.isSome then (disown s lq k).setChan lq k (c.fence codePreempt) else s) s
  let s2 := [0, 1, 2, 3].foldl (fun s q => let x := s.queueOf lq q; s.setQueue lq q { x with wait := x.wait.stop s.cycle }) s1
  { s2 with regions := s2.regions.map fun e => (e.1, if e.2.touches [lq] then (e.2.pause s.cycle).unreplay else e.2) }

/-- What takes its turn (R431, R432): fenced copies are reissued, counts go on, and the pending signals are applied before any queue issues. -/
def enterTurn (s : State) (lq : Nat) : State :=
  let s1 := (List.range 8).foldl (fun s k =>
    let c := (s.quadOf lq).chan k
    if c.st = .fenced ∧ c.fcode = codePreempt then s.setChan lq k { c with st := .run, job := none } else s) s
  let s2 : State := [0, 1, 2, 3].foldl (fun s q =>
    let x := s.queueOf lq q
    s.setQueue lq q (x.restored (!frozenCtx s lq x.ctx) s.cycle)) s1
  let s3 : State := { s2 with regions := s2.regions.map fun e => (e.1, if e.2.touches [lq] then e.2.unreplay else e.2) }
  let sigs := (s3.quadOf lq).signals
  sigs.foldl (fun s g => s.signal lq g.q g.ctx g.word (some (g.sem, g.inc))) (s3.setQuad lq { (s3.quadOf lq) with signals := [] })

/-- A turn ends and the next logical quad, in ascending order and round again, takes its turn (R57). -/
def changeTurn (s : State) (pq : Nat) : State :=
  let hs := s.hosted pq
  match s.turnOf pq with
  | none => s
  | some lq =>
    if hs.length ≤ 1 then s
    else
      let nxt := ((hs.find? fun x => lq < x) <|> hs.head?).getD lq
      let s1 := leaveTurn s lq
      enterTurn (s1.setPquad pq { (s1.pquadOf pq) with turn := some nxt, turnStart := s.cycle }) nxt

/-- TURN_CHANGE (R57, R419, R431, R432): after 65,536 cycles, or as soon as the logical quad in turn has nothing to run, once no LDQ or STQ of it is
outstanding. -/
def execTurnChange (pq : Nat) (s : State) : Result :=
  match s.turnOf pq with
  | none => .next s
  | some lq =>
    if ((s.pquadOf pq).turnStart + 65536 ≤ s.cycle ∨ nothingToRun s lq) ∧ ([0, 1, 2, 3].all fun q => !accessOut (s.queueOf lq q)) then .next (changeTurn s pq)
    else .next s

/-! ## The words -/

/-- The launch that YIELD gives way to (R434 case 2): one that R79 takes up, that does not fit, and that fits once V alone is gone; with the run that V's
image takes. -/
def yieldsTo (s : State) (n : Nat) (v : Launch) : Option (List Nat) :=
  if launchOwes s n v then none
  else if s.launches.any fun e => decide (e.1 ≠ n) && lacksRoom s e.1 e.2 && mayFall s e.2.part (s.effective e.1 e.2) false v && fitsWithout s (savingLaunches s ++ [n]) e.1 e.2 then
    freeRun s v.part (usedPages s v.part) (imageSize s n v)
  else none

/-- YIELD (R434): a turn ends once no LDQ or STQ of its quad is outstanding (R419), for which the word waits at issue (log 169). -/
def execYield (h : Hdr) (o : OpA) (s : State) : Result :=
  runWord (encodeSeq 0x15 h (.formatA o)) h s fun lq _ x =>
    if 1 < bits (s.remapOf lq) 15 8 then
      if [0, 1, 2, 3].any fun r => accessOut (s.queueOf lq r) then .wait s .port 0 0 0 else .retire (changeTurn s (s.pqOf lq)) .next
    else
      match s.launchOfCtx x.ctx with
      | none => .retire s .next
      | some (n, v) =>
        match yieldsTo s n v with
        | some run => .retire (freezeLaunch s n v 3 run) .next
        | none => .retire s .next

/-- The pages that CTXSAVE or CTXLOAD names. -/
inductive AreaPages where
  | ok (ps : List Nat)
  | wait (h : PageHold)
  | fault (code va : Nat)

/-- Translate the pages of the area that CTXSAVE names (R435), one by one: HBM or capacity pages that may be read and written. -/
def areaPages (s : State) (a : Access) : List Nat → AreaPages
  | [] => .ok []
  | va :: vs =>
    match translate s { a with want := .read } va, translate s { a with want := .write } va with
    | .fault c _, _ => .fault c va
    | _, .fault c _ => .fault c va
    | .hold v, _ => .wait (a.holdAt s v)
    | _, .hold v => .wait (a.holdAt s v)
    | .ok _ _, .ok pa _ =>
      if rangeOf s pa ≠ .hbm ∧ rangeOf s pa ≠ .cap then .fault codePermission va
      else
        match areaPages s a vs with
        | .ok ps => .ok (pa :: ps)
        | y => y

/-- CTXSAVE once its operands have been checked (R435): the image's size, and the save where it fits. A region fault whose record has still to be written is
handled before the launch is frozen (R392, R430). -/
def startSave (s : State) (lq q n : Nat) (l : Launch) (d : Nat) (pages : List Nat) : WordResult :=
  let x := s.queueOf lq q
  let size := imageSize s n l
  if 65536 * pages.length < size then .retire (s.setQueue lq q (x.setReg d (BitVec.ofNat 64 (2 ^ 63 + size)))) .next
  else
    let s1 := if launchOwes s n l then putImage { s with nextImage := s.nextImage + 1 } s.nextImage (newImage s n l 2 pages) else freezeLaunch s n l 2 pages
    .wait (s1.setQueue lq q { (s1.queueOf lq q) with phase := .saving s.nextImage }) .region 0 0 0

/-- CTXSAVE that waits for its image (R430, R435). -/
def awaitSave (s : State) (lq q d k : Nat) : WordResult :=
  let x := s.queueOf lq q
  match NatMap.find? s.images k with
  | none => .wait s .region 0 0 0
  | some im =>
    match im.st with
    | .saving =>
      match s.launch? im.launch with
      | some l =>
        if l.phase = .running ∧ !launchOwes s im.launch l then startSave { s with images := NatMap.erase s.images k } lq q im.launch l d im.pages
        else .wait s .region 0 0 0
      | none => .wait s .region 0 0 0
    | .abandoned => .retire (s.setQueue lq q (x.setReg d (BitVec.ofNat 64 (2 ^ 62 + im.size)))) .next
    | _ => .retire (s.setQueue lq q (x.setReg d (BitVec.ofNat 64 im.size))) .next

/-- CTXSAVE (R435). -/
def execCtxsave (h : Hdr) (o : OpA) (s : State) : Result :=
  runWord (encodeSeq 0xA4 h (.formatA o)) h s fun lq q x =>
    match x.phase with
    | .saving k => awaitSave s lq q o.qd.toNat k
    | p =>
      if p ≠ .issued ∧ rival s lq q .system then .wait s .port 0 0 0
      else
        let s := if p = .issued then s else served s lq q .system
        let c := (x.reg o.qs.toNat).toNat
        let va := (x.reg o.qt.toNat).toNat
        if c / 2 ^ 12 ≠ 0 then .trap s codeIllegal 0 0
        else
          match s.launchOfCtx c with
          | none => .trap s codePermission 0 0
          | some (n, l) =>
            if l.phase ≠ .running ∨ l.part ≠ s.partOfLq lq then .trap s codePermission 0 0
            else if l.allCtxs.contains x.ctx then .trap s codeIllegal 0 0
            else if va % 2 ^ 16 ≠ 0 then .trap s codeAlignment va 0
            else
              match areaPages s (queueAccess s lq x) ((List.range (bits o.imm.toNat 31 0)).map fun i => (va + 2 ^ 16 * i) % 2 ^ 57) with
              | .wait h => stays (s.noteHold (some h)) lq q .region 0
              | .fault code v => .trap s code v 0
              | .ok ps => startSave s lq q n l o.qd.toNat ps

/-- The image that bytes read by CTXLOAD are (R421, R436). -/
def imageIn (s : State) (p : Nat) (bs : List Byte) : Option (Nat × Image) :=
  List.find? (fun e => decide (e.2.part = p) && decide (e.2.cause = 2) && decide (e.2.st = .complete) && decide (e.2.size ≤ bs.length) && e.2.isIn bs) s.images

/-- CTXLOAD's restore (R427, R436): it waits until the places are free; the header it was given is written with STATE 2. -/
def tryLoad (s : State) (lq q d k : Nat) (first : Option Nat) : WordResult :=
  match NatMap.find? s.images k with
  | none => .trap s codeInvalid 0 0
  | some im =>
    match s.launch? im.launch with
    | none => .trap s codeInvalid 0 0
    | some l =>
      if im.st ≠ .complete then .trap s codeInvalid 0 0
      else
        let im1 := match first with
          | some p => { im with pages := p :: im.pages.drop 1 }
          | none => im
        if !imageFree s [] im then
          let s1 := { s with images := NatMap.insert s.images k im1 }
          .wait (s1.setQueue lq q { (s1.queueOf lq q) with phase := .restoring k }) .region 0 0 0
        else
          let s1 := restoreImage s k im.launch im1 l
          .retire (s1.setQueue lq q ((s1.queueOf lq q).setReg d 0)) .next

/-- CTXLOAD's checks of the header (R436): CODE, CAUSE, PART, STATE. -/
def headerOk (p : Nat) (bs : List Byte) : Bool := decide (bs.take 4 = [0x70, 2, 1, BitVec.ofNat 8 p])

/-- What CTXLOAD finds at its address (R199, R436): the page that its header is written to, and the bytes of the image. -/
def readImage (s : State) (a : Access) (p va : Nat) : Access.Answer (Nat × List Byte) :=
  match translate s { a with want := .write } va, s.readVa a va 256 with
  | _, .fault code v => .fault code v
  | .fault code _, _ => .fault code va
  | .hold v, _ => .wait (some (a.holdAt s v))
  | _, .wait h => .wait h
  | .ok first _, .done (bs, bad) =>
    if bad then .fault codeUncorrectable va
    else if !headerOk p bs then .fault codeIllegal 0
    else
      match s.readVa a va (max 256 (ofBytes ((bs.drop 16).take 8))) with
      | .done (all, poison) => if poison then .fault codeUncorrectable va else .done (first, all)
      | .wait h => .wait h
      | .fault code v => .fault code v

/-- CTXLOAD (R436). -/
def execCtxload (h : Hdr) (o : OpA) (s : State) : Result :=
  runWord (encodeSeq 0xA5 h (.formatA o)) h s fun lq q x =>
    match x.phase with
    | .restoring k => tryLoad s lq q o.qd.toNat k none
    | ph =>
      if ph ≠ .issued ∧ rival s lq q .system then .wait s .port 0 0 0
      else
        let s := if ph = .issued then s else served s lq q .system
        let va := (x.reg o.qs.toNat).toNat
        if va % 2 ^ 16 ≠ 0 then .trap s codeAlignment va 0
        else
          match readImage s { (queueAccess s lq x) with tag := q } (s.partOfLq lq) (va % 2 ^ 57) with
          | .wait h => stays (s.noteHold h) lq q .region 0
          | .fault code v => .trap s code v 0
          | .done (first, bs) =>
            match imageIn s (s.partOfLq lq) bs with
            | none => .trap s codeInvalid 0 0
            | some (k, _) => tryLoad s lq q o.qd.toNat k (some first)

end Sys2Proof.Machine
end

