-- ==== Sys2Proof/Machine/Reset.lean ====
section
/-! DEFINITION. Partition reset (spec 20 R455) and the registers of a partition that wait for its end. -/

namespace Sys2Proof.Machine

/-- A command of a partition (R455). -/
def Cmd.isOf (p : Nat) (c : Cmd) : Bool := decide (c.part = p)

/-- A copy channel drops the commands of a partition (R455): a running command stops after its current access. -/
def Channel8.dropPart (p : Nat) (k : Channel8) : Channel8 :=
  let k1 : Channel8 := { k with queue := k.queue.filter fun c => !c.isOf p, aside := k.aside.filter fun e => !e.cmd.isOf p }
  match k.cur with
  | some c => if c.isOf p then k1.next else k1
  | none => k1

/-- A matrix tile drops the commands of a partition. -/
def Mxt.dropPart (p : Nat) (x : Mxt) : Mxt :=
  { x with
    queue := x.queue.filter fun c => !c.cmd.isOf p
    bypass := x.bypass.filter fun c => !c.cmd.isOf p
    more := x.more.filter fun c => !c.cmd.isOf p }

/-- The sequencer state of a quad as an assignment or a reset leaves it (R252): all of it reads zero, every queue HALTED, every task FREE. -/
def Quad.cleared (x : Quad) : Quad := { x with queues := [], sem := [], nb := [], tasks := [], portRR := 3, sysRR := 3, taskRR := 3, signals := [] }

/-- The engines of the quads drop a partition's commands. -/
def dropQuadWork (p : Nat) (x : Quad) : Quad := { x with bce := x.bce.map fun e => (e.1, e.2.dropPart p), mxt := x.mxt.map fun e => (e.1, e.2.dropPart p) }

/-- The engines of a hall drop a partition's commands. -/
def dropHallWork (p : Nat) (h : Hall) : Hall :=
  { h with
    pseQ := h.pseQ.filter fun c => !c.cmd.isOf p
    pseHeld := h.pseHeld.filter fun c => !c.isOf p
    gmeQ := h.gmeQ.filter fun c => !c.isOf p
    staged := h.staged.filter fun e => decide (e.2.part ≠ p) }

/-- STEP 1 (R455): BUSY is set and every launch queue is emptied. -/
def stopLaunches (s : State) (p : Nat) : State :=
  let x := s.partOf p
  s.setPart p { x with busy := true, lqs := x.lqs.map fun e => (e.1, { e.2 with ridx := e.2.widx, bells := [] }) }

/-- STEP 2 (R455): regions, launches, queues, commands and images of the partition are discarded, with the records they owe. What its MTs have
sent home is performed yet. -/
def discardWork (s : State) (p : Nat) : State :=
  let x := s.partOf p
  let ks := (s.regions.filter fun e => decide (e.2.part = p)).map (·.1)
  let s1 : State := { s with
    regions := s.regions.filter fun e => !ks.contains e.1
    launches := s.launches.filter fun e => decide (e.2.part ≠ p)
    pending := s.pending.filter fun q => decide (q.req.part ≠ p) || (match q.st with
      | .homes _ _ _ => true
      | _ => false) }
  let s2 : State := (s1.images.filter fun e => decide (e.2.part = p) && (decide (e.2.st = .saving) || decide (e.2.st = .complete))).foldl
    (fun s e => putImage s e.1 (e.2.emptied .abandoned)) s1
  let s3 : State := (partQuads s2 p).foldl (fun s lq => s.setQuad lq (s.quadOf lq).cleared) s2
  let s4 : State := { s3 with
    owing := s3.owing.filter fun c => !c.isOf p
    late := s3.late.filter fun e => !e.2.isOf p
    peerReads := s3.peerReads.filter fun e => decide (e.part ≠ p)
    streams := s3.streams.map fun e => (e.1, if e.2.part = p then { e.2 with closeCmd := none } else e.2)
    peerOut := mapWhere (fun o => decide (o.part = p) && o.owner.isWork) (fun o => { o with owner := .nobody }) s3.peerOut
    quads := s3.quads.map fun e => (e.1, dropQuadWork p e.2)
    halls := s3.halls.map fun e => (e.1, dropHallWork p e.2) }
  s4.setPart p { (s4.partOf p) with
    records := x.records.filter fun f => decide (f.kind = 2)
    cruWay := [], cruRoot := [], insts := [], abroad := [], parting := [] }

/-- PARTITION_RESET (R455): steps 1 and 2; GO is ignored while BUSY. -/
def startReset (s : State) (p : Nat) : State := if (s.partOf p).busy then s else discardWork (stopLaunches s p) p

/-- PARTITION_RESET (R455). -/
def execPartitionReset (p : Nat) (s : State) : Result := s.byCore fun s => startReset s p

/-- Whether traffic of a partition is still outstanding (R455 step 3). -/
def traffic (s : State) (p : Nat) : Bool := (s.pending.any fun q => decide (q.req.part = p)) || s.peerOut.any fun o => decide (o.part = p)

/-- A stream that a partition reset closes: its counters keep their values (R390). -/
def Stream.closed (x : Stream) : Stream := { x with st := .closed, busy := [], queue := [], taken := [], closeCmd := none, ended := false }

/-- STEP 4 (R455): owner tags, translations, trees, grammar slots and configurations, streams and collective instances (whose commands step 2 has
dropped already). -/
def scrub (s : State) (p : Nat) : State :=
  let mine := fun (e : TlbEntry) => decide (e.part = p)
  let s1 : State := { s with
    own := s.own.foldl (fun m e => if bits e.2.toNat 15 12 = p then NatMap.set 0 m e.1 (e.2 &&& ~~~(0x10000 : Word64)) else m) s.own
    pquads := s.pquads.map fun e => (e.1, { e.2 with tlb := e.2.tlb.filter fun t => !mine t, misses := e.2.misses.filter fun m => decide (m.part ≠ p), held := e.2.held.filter fun m => decide (m.1 ≠ p) })
    tlb2 := s.tlb2.map fun e => (e.1, e.2.filter fun t => !mine t)
    halls := s.halls.map fun e => (e.1, { e.2 with
      trees := e.2.trees.filter fun t => !(t.2.valid && decide (t.2.part = p))
      slots := e.2.slots.filter fun t => !(t.2.valid && decide (t.2.part = p))
      cfgs := e.2.cfgs.filter fun t => !(t.2.valid && decide (t.2.part = p)) })
    streams := s.streams.map fun e => if e.2.st ≠ .closed ∧ e.2.part = p then (e.1, e.2.closed) else e }
  s1.setPart p { (s1.partOf p) with insts := [] }

/-- The register address of a QoS word ends with its partition (R444, R445). -/
def qosPart (a : Nat) : Nat := a / 8 % 16

/-- The sum of MIN at a target, one word of which is replaced (R445). -/
def qosSum (s : State) (a : Nat) (v : Word64) : Nat :=
  let base := a - 8 * qosPart a
  ((List.range 16).map fun p => if p = qosPart a then bits v.toNat 7 0 else bits (NatMap.get 0 s.tables (base + 8 * p)).toNat 7 0).foldl (· + ·) 0

/-- A QoS word takes a value, where the sum of MIN stays within 255 (R445). -/
def putQos (s : State) (a : Nat) (v : Word64) : State :=
  if 255 < qosSum s a v then s else { s with tables := NatMap.set 0 s.tables a (BitVec.ofNat 64 (bits v.toNat 15 0)) }

/-- A write of a QoS word (R445, R455): those of a partition being reset wait for the end of the reset. -/
def writeQos (s : State) (a : Nat) (v : Word64) : State :=
  let x := s.partOf (qosPart a)
  if x.busy then s.setPart (qosPart a) { x with qosLater := x.qosLater ++ [(a, v)] } else putQos s a v

/-- A pending vector that is no longer held or masked sends its message (R446, R455). -/
def flushVector (p : Nat) (s : State) (v : Nat) : State := if NatMap.get false (s.partOf p).msixPend v then s.raiseVector p v else s

/-- STEP 5 (R455): BUSY falls, QoS writes apply, vector 0 of the PF is raised, held vectors send. -/
def endReset (s : State) (p : Nat) : State :=
  let x := s.partOf p
  let s1 := s.setPart p { x with busy := false, qosLater := [] }
  let s2 := x.qosLater.foldl (fun s e => putQos s e.1 e.2) s1
  (List.range 64).foldl (flushVector p) (s2.emit (.msix 16 0))

/-- PARTITION_RESET_DONE (R455): once the traffic has drained, steps 4 and 5. -/
def execPartitionResetDone (p : Nat) (s : State) : Result :=
  if !(s.partOf p).busy || traffic s p then .next s else .next (endReset (scrub s p) p)

end Sys2Proof.Machine
end

