-- ==== Sys2Proof/Machine/Sync.lean ====
section
/-! DEFINITION. Semaphores, named barriers and the task table (spec 10 R264 to R271). -/

namespace Sys2Proof.Machine

/-- BARRIER_OVERRUN (R391). -/
def codeOverrun : Nat := 0x23
/-- TASK_UNDERFLOW (R391). -/
def codeUnderflow : Nat := 0x21

/-- WAIT (R264): its wait field is tested before issue; with OPW the operand wait is tested here, and nothing is changed. -/
def execWait (h : Hdr) (o : OpA) (s : State) : Result :=
  runWord (encodeSeq 0x20 h (.formatA o)) h s fun lq _ _ =>
    let n := bits o.imm.toNat 7 0
    let t := bits o.imm.toNat 31 16
    if bit o.imm.toNat 32 && decide ((s.quadOf lq).semSeen n < t) then .wait s .sem n t 0 else .retire s .next

/-- The value SIG and SEMSET form: (qs + v) mod 2^64 (R264). -/
def semValue (o : OpA) (x : Queue) : Nat := (x.reg o.qs.toNat + BitVec.ofNat 64 (bits o.imm.toNat 31 16)).toNat

/-- SIG (R264): adds to SEM[n] at retirement, before the word's own S field; a sum above 65,535 is not applied and traps. -/
def execSig (h : Hdr) (o : OpA) (s : State) : Result :=
  runWord (encodeSeq 0x21 h (.formatA o)) h s fun lq _ x =>
    match (s.quadOf lq).addSem (bits o.imm.toNat 7 0) (semValue o x) with
    | none => .trap s codeSemOverflow 0 0
    | some y => .retire (s.setQuad lq y) .next

/-- A write of a semaphore (R253, R264); none where the value is above 65,535. -/
def semset (s : State) (lq n v : Nat) : Option State := if v ≤ 65535 then some (s.setQuad lq ((s.quadOf lq).setSem n v)) else none

/-- SEMSET (R264). -/
def execSemset (h : Hdr) (o : OpA) (s : State) : Result :=
  runWord (encodeSeq 0x22 h (.formatA o)) h s fun lq _ x =>
    match semset s lq (bits o.imm.toNat 7 0) (semValue o x) with
    | none => .trap s codeSemOverflow 0 0
    | some t => .retire t .next

/-- SEMRD (R264): qd := SEM[n], its value at the end of the previous cycle. -/
def execSemrd (h : Hdr) (o : OpA) (s : State) : Result :=
  runWord (encodeSeq 0x23 h (.formatA o)) h s fun lq q x =>
    .retire (s.setQueue lq q (x.setReg o.qd.toNat (BitVec.ofNat 64 ((s.quadOf lq).semSeen (bits o.imm.toNat 7 0))))) .next

/-- A named barrier of a quad (R265). -/
def Quad.nbOf (x : Quad) (n : Nat) : NamedBarrier := NatMap.get .init x.nb n
/-- Put a named barrier. -/
def Quad.setNb (x : Quad) (n : Nat) (b : NamedBarrier) : Quad := { x with nb := NatMap.set .init x.nb n b }

/-- An arrival of queue `q` with expected count `e` (R266); none on an overrun. -/
def NamedBarrier.arrive (b : NamedBarrier) (q e : Nat) : Option NamedBarrier :=
  if NatMap.get false b.pend q ∨ (0 < b.arr ∧ e ≠ b.exp) then none
  else
    let exp := if b.arr = 0 then e else b.exp
    if b.arr + 1 = exp then some { gen := (b.gen + 1) % 65536, pend := [], exp := exp, arr := 0 }
    else some { gen := b.gen, pend := NatMap.set false b.pend q true, exp := exp, arr := b.arr + 1 }

/-- NBARR (R266): e of 1 to 4, an overrun traps and changes nothing. DESIGN CHOICE (log 155): R266 gives a named barrier no launch level, so its completion is no
synchronisation point of a deterministic launch (R76) and merges nothing. -/
def execNbarr (h : Hdr) (o : OpA) (s : State) : Result :=
  runWord (encodeSeq 0x24 h (.formatA o)) h s fun lq q _ =>
    let n := bits o.imm.toNat 4 0
    let e := bits o.imm.toNat 10 8
    if e = 0 ∨ 4 < e then .trap s codeIllegal 0 0
    else
      match ((s.quadOf lq).nbOf n).arrive q e with
      | none => .trap s codeOverrun 0 0
      | some b => .retire (s.setQuad lq ((s.quadOf lq).setNb n b)) .next

/-- NBWAIT (R266): retires once PEND[q] is clear. -/
def execNbwait (h : Hdr) (o : OpA) (s : State) : Result :=
  runWord (encodeSeq 0x25 h (.formatA o)) h s fun lq q _ =>
    let n := bits o.imm.toNat 4 0
    if NatMap.get false ((s.quadOf lq).nbOf n).pend q then stays s lq q .nbwait n else .retire s .next

/-- A task table entry of a quad (R267). -/
def Quad.taskOf (x : Quad) (n : Nat) : TaskEntry := NatMap.get .init x.tasks n
/-- Put a task table entry; one that is READY now was made so in this cycle (R270). -/
def Quad.setTask (x : Quad) (n : Nat) (t : TaskEntry) : Quad :=
  { x with tasks := NatMap.set .init x.tasks n t, fresh := if t.st = .ready then n :: x.fresh else x.fresh.filter (· ≠ n) }

/-- TASKDEF (R267, R268): writes entry n whole, whatever its state; READY where CNT is 0, WAIT otherwise. -/
def execTaskdef (h : Hdr) (o : OpA) (s : State) : Result :=
  runWord (encodeSeq 0x26 h (.formatA o)) h s fun lq _ x =>
    let i := o.imm.toNat
    let a := (x.reg o.qs.toNat).toNat
    if a % 16 ≠ 0 then .trap s codeAlignment a 0
    else
      let t : TaskEntry :=
        { prio := bits i 19 16, svalid := bits i 23 20, succ := [bits i 29 24, bits i 37 32, bits i 45 40, bits i 53 48], cnt := bits i 15 8
          st := if bits i 15 8 = 0 then .ready else .wait, entry := vaOf a }
      .retire (s.setQuad lq ((s.quadOf lq).setTask (bits i 5 0) t)) .next

/-- The valid successors of an entry, in the order s0 to s3 (R269). -/
def TaskEntry.successors (t : TaskEntry) : List Nat :=
  ((List.range 4).filter fun i => bit t.svalid i).map fun i => t.succ.getD i 0

/-- Take one from the counter of a task, which becomes READY where it waited and the counter reaches 0 (R269). -/
def releaseTask (x : Quad) (n : Nat) : Quad :=
  let t := x.taskOf n
  let c := t.cnt - 1
  if c = 0 ∧ t.st = .wait then x.setTask n { t with cnt := c, st := .ready }
  else { x with tasks := NatMap.set .init x.tasks n { t with cnt := c } }

/-- The completion of a task (R269); none where a successor's counter is below its listings. -/
def taskDone (x : Quad) (n : Nat) : Option Quad :=
  let ss := (x.taskOf n).successors
  if ss.any fun t => decide ((x.taskOf t).cnt < ss.count t) then none
  else
    let y := ss.foldl releaseTask x
    some (y.setTask n { (y.taskOf n) with st := .done })

/-- TASKDONE (R269). -/
def execTaskdone (h : Hdr) (o : OpA) (s : State) : Result :=
  runWord (encodeSeq 0x27 h (.formatA o)) h s fun lq _ x =>
    let n := (x.reg o.qs.toNat + BitVec.ofNat 64 (bits o.imm.toNat 5 0)).toNat
    if 64 ≤ n then .trap s codeIllegal 0 0
    else
      match taskDone (s.quadOf lq) n with
      | none => .trap s codeUnderflow 0 0
      | some y => .retire (s.setQuad lq y) .next

/-- The head of the ready queue: highest PRIO, then lower number, of the tasks that were READY before this cycle (R270). -/
def readyHead (x : Quad) : Option Nat :=
  (leastBy (fun e => 64 * (15 - e.2.prio) + e.1) (x.tasks.filter fun e => e.2.st = .ready ∧ !x.fresh.contains e.1)).map (·.1)

/-- TASKNEXT (R270): takes the head task and branches to it; waits while some entry is in WAIT; else all ones and the next word. -/
def execTasknext (h : Hdr) (o : OpA) (s : State) : Result :=
  runWord (encodeSeq 0x28 h (.formatA o)) h s fun lq q x =>
    match readyHead (s.quadOf lq) with
    | some n =>
      if rival s lq q .task then stays s lq q .tasknext 0
      else
        let t := (s.quadOf lq).taskOf n
        let s1 := served (s.setQuad lq ((s.quadOf lq).setTask n { t with st := .run })) lq q .task
        .retire (s1.setQueue lq q (x.setReg o.qd.toNat (BitVec.ofNat 64 n))) (.branch t.entry)
    | none =>
      if (s.quadOf lq).tasks.any fun e => e.2.st = .wait ∨ e.2.st = .ready then stays s lq q .tasknext 0
      else .retire (s.setQueue lq q (x.setReg o.qd.toNat (BitVec.allOnes 64))) .next

end Sys2Proof.Machine
end

