-- ==== Sys2Proof/Machine/Registers.lean ====
section
/-! DEFINITION. The registers that SYSRD and SYSWR reach (spec 18 R398, R407, R408 and the rules named below): their addresses, what they read,
what a write does. -/

namespace Sys2Proof.Machine

/-! ## Addresses -/

/-- The registers, by block (R407). -/
inductive Reg where
  /-- quad block: R253, R276, R265, R267 -/
  | qctl (lq q : Nat)
  | pc (lq q : Nat)
  | tvec (lq q : Nat)
  | start (lq : Nat)
  | waitstate (lq q w : Nat)
  | sem (lq n : Nat)
  | nb (lq n : Nat)
  | task (lq n w : Nat)
  /-- quad block: R299, R296, R322, R304, R324 -/
  | mxmode (lq q : Nat)
  | chstat (lq k : Nat)
  | wptr (lq k : Nat)
  | chctl (lq k : Nat)
  | fva (lq k : Nat)
  | mxcfg (lq m : Nat)
  | mxnode (lq m n : Nat)
  | mxtransient (lq m : Nat)
  /-- physical quad block: R398, R246, R293 -/
  | peTransient (pq pe : Nat)
  | peStatus (pq pe : Nat)
  | eccCorr (pq b : Nat)
  | eccTransient (pq b : Nat)
  | peBrk (pq pe : Nat)
  | mtFlags (pq b p : Nat)
  | mtOwn (pq b f : Nat)
  /-- hall block: R355, R222 -/
  | tcfg (h t : Nat)
  | iw (h t : Nat)
  | redir (h n : Nat)
  /-- partition block: R198, R336, R393, R416, R455, R446, R447, R215, R439, R448, R449 -/
  | ptroot (p : Nat)
  | cruarea (p : Nat)
  | fring (p : Nat)
  | fidx (p : Nat)
  | save (p : Nat)
  | preset (p : Nat)
  | irq (p : Nat)
  | expbase (p : Nat)
  | expsize (p : Nat)
  | pub (p n w : Nat)
  | lqbase (p k : Nat)
  | lqwidx (p k : Nat)
  | lqridx (p k : Nat)
  | lqctl (p k : Nat)
  | peer (p n : Nat)
  | hbmr (p n : Nat)
  /-- device block: R464, R461, R448, R403, R450, R453, R451 -/
  | cap
  | dtime
  | node
  | dtadj
  | remap (lq : Nat)
  | lqpart (lq : Nat)
  | linkCount (k w : Nat)
  | tsync (k : Nat)
  | ctxown (c : Nat)
  /-- access tables and QoS words, by register address: R444, R445 -/
  | table (a : Nat)
  | qos (a : Nat)
deriving DecidableEq, Repr

/-- Whether an offset lies in `[base, base + n * stride)`, as its index and what is left. -/
def slotOf (off base stride n : Nat) : Option (Nat × Nat) :=
  if base ≤ off ∧ off < base + stride * n then some ((off - base) / stride, (off - base) % stride) else none

/-- The queue registers at the start of a quad block (R253). -/
def queueReg (lq off : Nat) : Option Reg :=
  if off = 0x080 then some (.start lq)
  else
    match slotOf off 0 0x20 4, slotOf off 0x0C0 8 4, slotOf off 0x100 8 8, slotOf off 0x200 8 256, slotOf off 0xA00 8 32, slotOf off 0xB00 8 128 with
    | some (q, r), _, _, _, _, _ => if r = 0 then some (.qctl lq q) else if r = 8 then some (.pc lq q) else if r = 0x10 then some (.tvec lq q) else none
    | _, some (q, _), _, _, _, _ => some (.mxmode lq q)
    | _, _, some (i, _), _, _, _ => some (.waitstate lq (i / 2) (i % 2))
    | _, _, _, some (n, _), _, _ => some (.sem lq n)
    | _, _, _, _, some (n, _), _ => some (.nb lq n)
    | _, _, _, _, _, some (i, _) => some (.task lq (i / 2) (i % 2))
    | _, _, _, _, _, _ => none

/-- The registers of a quad block (R253, R296, R299, R304, R322, R324). -/
def quadReg (lq off : Nat) : Option Reg :=
  match slotOf off 0x1000 0x20 8, slotOf off 0x1200 0x100 3 with
  | some (k, r), _ => if r = 0 then some (.chstat lq k) else if r = 8 then some (.wptr lq k) else if r = 0x10 then some (.chctl lq k) else some (.fva lq k)
  | _, some (m, r) =>
    if r = 0 then some (.mxcfg lq m) else if r = 0x38 then some (.mxtransient lq m)
    else if 0x10 ≤ r ∧ r < 0x30 then some (.mxnode lq m ((r - 0x10) / 8)) else none
  | _, _ => queueReg lq off

/-- The registers of a physical quad block (R398). -/
def pquadReg (pq off : Nat) : Option Reg :=
  match slotOf off 0 8 9, slotOf off 0x50 8 9, slotOf off 0x100 8 4, slotOf off 0x120 8 4, slotOf off 0x200 8 9, slotOf off 0x800 8 64, slotOf off 0x1000 8 1024 with
  | some (i, _), _, _, _, _, _, _ => some (.peTransient pq i)
  | _, some (i, _), _, _, _, _, _ => some (.peStatus pq i)
  | _, _, some (i, _), _, _, _, _ => some (.eccCorr pq i)
  | _, _, _, some (i, _), _, _, _ => some (.eccTransient pq i)
  | _, _, _, _, some (i, _), _, _ => some (.peBrk pq i)
  | _, _, _, _, _, some (i, _), _ => some (.mtFlags pq (i / 16) (i % 16))
  | _, _, _, _, _, _, some (i, _) => some (.mtOwn pq (i / 256) (i % 256))
  | _, _, _, _, _, _, _ => none

/-- The registers of a hall block (R222, R355); the 930 has no PSE. -/
def hallReg (s : State) (h off : Nat) : Option Reg :=
  match slotOf off 0 8 128, slotOf off 0x2000 8 16 with
  | some (i, _), _ => if s.is930 then none else if i % 2 = 0 then some (.tcfg h (i / 2)) else some (.iw h (i / 2))
  | _, some (n, _) => some (.redir h n)
  | _, _ => none

/-- The registers of a partition block. -/
def partReg (p off : Nat) : Option Reg :=
  match slotOf off 0 8 9, slotOf off 0x1000 8 256, slotOf off 0x2000 8 256, slotOf off 0x3000 8 64, slotOf off 0x3200 8 16 with
  | some (i, _), _, _, _, _ => [.ptroot p, .cruarea p, .fring p, .fidx p, .save p, .preset p, .irq p, .expbase p, .expsize p][i]?
  | _, some (i, _), _, _, _ => some (.pub p (i / 4) (i % 4))
  | _, _, some (i, _), _, _ => [.lqbase p (i / 4), .lqwidx p (i / 4), .lqridx p (i / 4), .lqctl p (i / 4)][i % 4]?
  | _, _, _, some (i, _), _ => some (.peer p i)
  | _, _, _, _, some (i, _) => some (.hbmr p i)
  | _, _, _, _, _ => none

/-- The registers of the device block. -/
def deviceReg (s : State) (off : Nat) : Option Reg :=
  match slotOf off 0 8 4, slotOf off 0x1000 8 128, slotOf off 0x1400 8 128, slotOf off 0x2000 8 (4 * s.numPorts), slotOf off 0x4000 8 4096 with
  | some (i, _), _, _, _, _ => [.cap, .dtime, .node, .dtadj][i]?
  | _, some (i, _), _, _, _ => some (.remap i)
  | _, _, some (i, _), _, _ => some (.lqpart i)
  | _, _, _, some (i, _), _ => if i % 4 = 3 then some (.tsync (i / 4)) else some (.linkCount (i / 4) (i % 4))
  | _, _, _, _, some (i, _) => some (.ctxown i)
  | _, _, _, _, _ => none

/-- The tables and QoS words of SPACE 5 and 6 (R444). -/
def tableReg (s : State) (space index off : Nat) : Option Reg :=
  let a := regAddr space index off
  if space = 5 then
    if s.numPq ≤ index then none
    else if off < 0x2000 then some (.table a)
    else if off < 0x2800 then some (.table a)
    else if off < 0x2A00 then some (.qos a)
    else none
  else
    let nStack := 8 * s.numHalls
    let engine := decide (index = 34) || decide (index = 36) || decide (index = 37) || (!s.is930 && (decide (index = 32) || decide (index = 33) || decide (index = 35)))
    let qos := decide (index < nStack) || decide (index = 16) || (decide (64 ≤ index) && decide (index < 64 + s.numPorts))
    if off < 0x800 then (if qos || engine then some (.table a) else none)
    else if off < 0x880 then (if qos then some (.qos a) else none)
    else none

/-- The register at an address whose low three bits are zero (R407). -/
def regAt (s : State) (a : Nat) : Option Reg :=
  let space := a / 2 ^ 36
  let index := a / 2 ^ 28 % 2 ^ 8
  let off := a % 2 ^ 28
  if space = 0 then (if index < 128 then quadReg index off else none)
  else if space = 1 then (if index < s.numPq then pquadReg index off else none)
  else if space = 2 then (if index < s.numHalls then hallReg s index off else none)
  else if space = 3 then (if index < 16 then partReg index off else none)
  else if space = 4 then (if index = 0 then deviceReg s off else none)
  else if space = 5 ∨ space = 6 then tableReg s space index off
  else none

/-! ## Reading -/

/-- A state code of a queue (R253). -/
def QState.code : QState → Nat
  | .halted => 0
  | .running => 1
  | .trapped => 2

/-- KIND of a wait (R276). -/
def WaitKind.code : WaitKind → Nat
  | .sem => 0
  | .nbwait => 1
  | .tasknext => 2
  | .region => 3
  | .port => 4
  | .ring => 5
  | .access => 6

/-- Word 0 of QSQ_WAITSTATE (R276). -/
def WaitState.word0 (w : WaitState) : Nat :=
  b2n w.w * 2 ^ 63 + w.kind.code * 2 ^ 60 + w.sem * 2 ^ 52 + w.thr * 2 ^ 36 + w.nbn * 2 ^ 31

/-- STATE of a task (R267). -/
def TaskState.code : TaskState → Nat
  | .free => 0
  | .wait => 1
  | .ready => 2
  | .run => 3
  | .done => 4

/-- QSQ_TASK (R267). -/
def TaskEntry.word (t : TaskEntry) (w : Nat) : Nat :=
  if w = 0 then
    t.prio * 2 ^ 52 + t.svalid * 2 ^ 48 + (t.succ.getD 3 0) * 2 ^ 42 + (t.succ.getD 2 0) * 2 ^ 36 + (t.succ.getD 1 0) * 2 ^ 30 +
      (t.succ.getD 0 0) * 2 ^ 24 + t.cnt * 2 ^ 16 + t.st.code
  else t.entry.toNat

/-- NB[n] (R265). -/
def NamedBarrier.word (b : NamedBarrier) : Nat :=
  b.gen * 2 ^ 32 + (([0, 1, 2, 3].map fun q => b2n (NatMap.get false b.pend q) * 2 ^ q).foldl (· + ·) 0) * 2 ^ 8 + b.exp * 2 ^ 4 + b.arr

/-- STATE of a channel (R296). -/
def ChanState.code : ChanState → Nat
  | .idle => 0
  | .run => 1
  | .fenced => 2
  | .fault => 3

/-- BCE_CHSTAT (R296). -/
def Channel8.chstat (c : Channel8) : Nat := c.ctx * 2 ^ 52 + c.queue.length * 2 ^ 20 + c.fcode * 2 ^ 8 + c.st.code

/-- STATE of a node (R304). -/
def NodeState.code : NodeState → Nat
  | .free => 0
  | .armed => 1
  | .poison => 2

/-- MXT_NODE (R304). -/
def AccNode.word (y : AccNode) : Nat :=
  y.ctx * 2 ^ 52 + b2n y.isInt * 2 ^ 51 + y.st.code * 2 ^ 49 + b2n y.parted * 2 ^ 48 + y.count * 2 ^ 32 + y.contrib * 2 ^ 16 + y.ownq

/-- MXT_CFG (R322). -/
def Mxt.cfgWord (x : Mxt) : Nat := x.evsem * 2 ^ 8 + b2n x.even * 2 + b2n x.pol

/-- PSE_TCFG (R355). -/
def PseTree.cfgWord (t : PseTree) : Nat :=
  b2n t.valid * 2 ^ 63 + t.part * 2 ^ 59 + t.depth * 2 ^ 54 + t.pshift * 2 ^ 49 + bits t.area 48 16 * 2 ^ 16

/-- SYS_REDIR (R222). -/
def Redirect.word (r : Redirect) : Nat := b2n r.valid * 2 ^ 63 + b2n r.done * 2 ^ 62 + r.pq * 2 ^ 9 + r.bank * 2 ^ 7

/-- SYS_CAP (R464). -/
def capWord (s : State) : Word64 := if s.is930 then 0x0000081208404130 else 0x000010241080F260

/-- SYS_CTXOWN (R451): a context that a launch holds reads STATE 1. -/
def ctxownWord (s : State) (c : Nat) : Nat :=
  match s.drawnCtx c with
  | some p => 2 ^ 16 + p
  | none => (NatMap.get 0 s.ctxown c).toNat

/-- The words of a publish entry (R215). -/
def PubEntry.word (e : PubEntry) (w : Nat) : Word64 := [e.w0, e.w1, e.w2, e.w3].getD w 0

/-- SYS_LQCTL (R439). -/
def LaunchQ.ctlWord (x : LaunchQ) : Nat := b2n x.ien * 2 ^ 14 + x.vec * 2 ^ 8 + b2n x.err

/-- What a register reads (R407 and the rules of `Reg`); a write-only field reads zero (R5). -/
def readReg (s : State) : Reg → Nat
  | .qctl lq q => let x := s.queueOf lq q; x.control.1 * 2 ^ 52 + x.control.2 * 2 ^ 8 + x.st.code
  | .pc lq q => (s.queueOf lq q).pc.toNat
  | .tvec lq q => (s.queueOf lq q).tvec.toNat
  | .start _ => 0
  | .waitstate lq q w => let x := s.queueOf lq q; if w = 0 then x.wait.word0 else x.wait.word1
  | .sem lq n => (s.quadOf lq).semSeen n
  | .nb lq n => ((s.quadOf lq).nbOf n).word
  | .task lq n w => ((s.quadOf lq).taskOf n).word w
  | .mxmode lq q => (s.queueOf lq q).mxmode.toNat
  | .chstat lq k => ((s.quadOf lq).chan k).chstat
  | .wptr lq k => s.writePointer lq k
  | .chctl _ _ => 0
  | .fva lq k => ((s.quadOf lq).chan k).fva.toNat
  | .mxcfg lq m => ((s.quadOf lq).mx m).cfgWord
  | .mxnode lq m n => (((s.quadOf lq).mx m).node n).word
  | .mxtransient lq m => ((s.quadOf lq).mx m).transient.toNat
  | .peTransient pq pe => (NatMap.get 0 (s.pquadOf pq).peTransient pe).toNat
  | .peStatus pq pe => b2n (s.pquadOf pq).retired + 2 ^ 8 * NatMap.get 0 (s.pquadOf pq).peCode pe
  | .eccCorr pq b => (NatMap.get 0 (s.pquadOf pq).eccCorr b).toNat
  | .eccTransient pq b => (NatMap.get 0 (s.pquadOf pq).eccTransient b).toNat
  | .peBrk _ _ => 0
  | .mtFlags pq b p => (NatMap.get ExFlags.none (s.pquadOf pq).mtFlags (16 * b + p)).toNat
  | .mtOwn pq b f => (NatMap.get 0 s.own (1024 * pq + 256 * b + f)).toNat
  | .tcfg h t => (NatMap.get PseTree.init (s.hallOf h).trees t).cfgWord
  | .iw h t => let x := NatMap.get PseTree.init (s.hallOf h).trees t; x.nm1 * 2 ^ 32 + x.beta
  | .redir h n => (NatMap.get Redirect.init s.redir (16 * h + n)).word
  | .ptroot p => (s.partOf p).ptroot.toNat
  | .cruarea p => (s.partOf p).cruarea.toNat
  | .fring p => (s.partOf p).fring.toNat
  | .fidx p => (s.partOf p).fridx * 2 ^ 32 + (s.partOf p).fwidx
  | .save p => (s.partOf p).save.toNat
  | .preset p => 2 * b2n (s.partOf p).busy
  | .irq p => (s.partOf p).irq.toNat
  | .expbase p => (s.partOf p).expbase.toNat
  | .expsize p => (s.partOf p).expsize.toNat
  | .pub p n w => ((NatMap.get PubEntry.init (s.partOf p).pub n).word w).toNat
  | .lqbase p k => (s.lqOf p k).base.toNat
  | .lqwidx p k => (s.lqOf p k).widx
  | .lqridx p k => (s.lqOf p k).ridx
  | .lqctl p k => (s.lqOf p k).ctlWord
  | .peer p n => (NatMap.get 0 (s.partOf p).peers n).toNat
  | .hbmr p n => (NatMap.get 0 (s.partOf p).hbmr n).toNat
  | .cap => (capWord s).toNat
  | .dtime => s.dtime
  | .node => s.sysNode
  | .dtadj => 0
  | .remap lq => s.remapOf lq
  | .lqpart lq => (NatMap.get 0 s.lqpart lq).toNat
  | .linkCount k w => let x := s.portOf k; ([x.bad, x.transient, x.stale].getD w 0).toNat
  | .tsync _ => 0
  | .ctxown c => ctxownWord s c
  | .table a => (NatMap.get 0 s.tables a).toNat
  | .qos a => (NatMap.get 0 s.tables a).toNat

/-- What a read changes: a read of word 0 of QSQ_WAITSTATE latches word 1 (R276). -/
def afterRead (s : State) : Reg → State
  | .waitstate lq q 0 => let x := s.queueOf lq q; s.setQueue lq q { x with wait := { x.wait with word1 := x.wait.cycles s.cycle } }
  | _ => s

/-! ## Writing -/

/-- The bits of a written value that a register holds: the fields `[hi:lo]` given. -/
def fields (v : Word64) (fs : List (Nat × Nat)) : Word64 := BitVec.ofNat 64 ((fs.map fun f => bits v.toNat f.1 f.2 * 2 ^ f.2).foldl (· + ·) 0)

/-- QSQ_START (R253): each queue named that is HALTED or TRAPPED, of an assigned quad, runs from its PC with an empty loop stack. -/
def startQueues (s : State) (lq v : Nat) : State :=
  if (s.lqOwner lq).isNone then s
  else
    [0, 1, 2, 3].foldl (fun s q =>
      let x := s.queueOf lq q
      if bit v q && decide (x.st ≠ .running) then s.setQueue lq q { x with st := .running, loops := [], phase := .fresh } else s) s

/-- QSQ_PC (R253): ignored unless the queue is HALTED or TRAPPED. -/
def writePc (s : State) (lq q v : Nat) : State :=
  let x := s.queueOf lq q
  if x.st = .running then s else s.setQueue lq q { x with pc := BitVec.ofNat 57 (bits v 56 4 * 16) }

/-- Whether a queue of a partition may take a context (R451): held in STATE 2 for it, or by a running launch of it. -/
def ctxFor (s : State) (p c : Nat) : Bool :=
  (s.heldCtx c && decide (bits (NatMap.get 0 s.ctxown c).toNat 3 0 = p)) ||
  match s.launchOfCtx c with
  | some (_, l) => decide (l.part = p) && decide (l.phase = .running)
  | none => false

/-- QSQ_QCTL (R253, R451): CTX and PRIO count from the queue's next issue, so that a word that has issued goes on with those it has. -/
def writeQctl (s : State) (lq q v : Nat) : State :=
  let x := s.queueOf lq q
  let c := bits v 63 52
  let ok := match s.lqOwner lq with
    | some p => ctxFor s p c
    | none => false
  let new := (if ok then c else x.control.1, bits v 10 8)
  s.setQueue lq q (if x.st = .running ∧ x.phase ≠ .fresh then { x with ctl := some new } else { x with ctx := new.1, prio := new.2, ctl := none })

/-- SEM (R253): a write acts as SEMSET; bits above the value are reserved. -/
def writeSem (s : State) (lq n v : Nat) : State := (semset s lq n (bits v 15 0)).getD s

/-- QSQ_MXMODE (R299): ignored where `MXCFG mode` would refuse the value. -/
def writeMxmode (s : State) (lq q : Nat) (v : Word64) : State :=
  if modeOk v then s.setQueue lq q { (s.queueOf lq q) with mxmode := v } else s

/-- BCE_CHCTL (R297): DISCARD before RESUME. -/
def writeChctl (s : State) (lq k v : Nat) : State :=
  let c := (s.quadOf lq).chan k
  if bit v 1 then s.setChan lq k c.discard else if bit v 0 then s.setChan lq k c.resume else s

/-- PE_BRK (R398, R406). -/
def writePeBrk (s : State) (pq pe v : Nat) : State := if bit v 0 then releaseBrk s pq pe else s

/-- Whether an image holds state of a logical quad (R450). -/
def Image.holds (im : Image) (lq : Nat) : Bool :=
  (im.regions.any fun e => e.2.touches [lq]) || (im.queues.any fun e => decide (e.1 / 4 = lq)) || (im.bce.any fun e => decide (e.1 / 8 = lq)) ||
  (im.bceCur.any fun e => decide (e.1 / 8 = lq)) || (im.mxcmds.any fun e => decide (e.1 / 8 = lq)) || im.nodes.any fun e => decide (e.1 / 16 = lq)

/-- Whether an engine holds a command of a logical quad (R450). -/
def commandOf (s : State) (lq : Nat) : Bool :=
  let mine := fun (c : Cmd) => decide (c.lq = lq)
  (s.quads.any fun e => (e.2.bce.any fun k => (k.2.cur.toList ++ k.2.queue).any mine) || e.2.mxt.any fun m => (m.2.queue ++ m.2.bypass.toList ++ m.2.more).any fun c => mine c.cmd) ||
  (s.halls.any fun e => (e.2.pseQ.any fun c => mine c.cmd) || e.2.pseHeld.any mine || e.2.gmeQ.any mine) ||
  (s.parts.any fun e => ((e.2.cruWay ++ e.2.cruRoot).any fun i => mine i.cmd) ||
    e.2.insts.any fun i => (i.2.leaves.any fun l => mine l.cmd && !i.2.served.contains l.desc.cidx) || i.2.fixes.any mine) ||
  (s.parts.any fun e => (e.2.abroad.any fun a => (mine a.leaf.cmd && !a.done) || a.fixes.any mine) || e.2.parting.any fun i => i.fixes.any mine) ||
  s.owing.any mine || (s.late.any fun e => mine e.2) || (s.peerOut.any fun o => match o.owner with
    | .command c _ => mine c
    | .copy n _ _ => decide (n = lq)
    | _ => false) ||
  s.streams.any fun e => (e.2.closeCmd.map mine).getD false

/-- Whether a logical quad is idle (R450). -/
def idleQuad (s : State) (lq : Nat) : Bool :=
  !(s.regions.any fun e => (e.2.running || e.2.launch.isSome) && e.2.touches [lq]) &&
  ([0, 1, 2, 3].all fun q => decide ((s.queueOf lq q).st = .halted)) && !commandOf s lq &&
  !(s.images.any fun e => (decide (e.2.st = .saving) || decide (e.2.st = .complete)) && e.2.holds lq)

/-- SYS_LQPART (R252, R450). -/
def writeLqpart (s : State) (lq : Nat) (v : Word64) : State :=
  let w := fields v [(4, 0)]
  if w = NatMap.get 0 s.lqpart lq ∨ !idleQuad s lq then s
  else { (s.setQuad lq (s.quadOf lq).cleared) with lqpart := NatMap.set 0 s.lqpart lq w }

/-- Whether a queue names a context, or a region uses it (R451). -/
def ctxInUse (s : State) (c : Nat) : Bool :=
  ((List.range 128).any fun lq => [0, 1, 2, 3].any fun q => decide ((s.queueOf lq q).control.1 = c) || decide ((s.queueOf lq q).ctx = c)) ||
  s.regions.any fun e => e.2.running && decide (e.2.ctx0 = c)

/-- SYS_CTXOWN (R451). -/
def writeCtxown (s : State) (c : Nat) (v : Word64) : State :=
  let st := bits v.toNat 17 16
  if st = 2 ∧ s.freeCtx c then { s with ctxown := NatMap.set 0 s.ctxown c (fields v [(17, 16), (3, 0)]) }
  else if st = 0 ∧ s.heldCtx c ∧ !ctxInUse s c then { s with ctxown := NatMap.set 0 s.ctxown c 0 }
  else s

/-- SYS_SAVE (R416): ignored while an image occupies the area. -/
def writeSave (s : State) (p : Nat) (v : Word64) : State :=
  if (usedPages s p).isEmpty then s.setPart p { (s.partOf p) with save := fields v [(63, 48), (46, 16)] } else s

/-- SYS_PUB (R215): GEN is read only. -/
def writePub (s : State) (p n w : Nat) (v : Word64) : State :=
  let x := s.partOf p
  let e := NatMap.get PubEntry.init x.pub n
  let e1 :=
    if w = 0 then { e with w0 := fields v [(56, 16), (0, 0)] }
    else if w = 1 then { e with w1 := fields v [(19, 0)] ||| fields e.w1 [(63, 32)] }
    else if w = 2 then { e with w2 := fields v [(51, 16)] }
    else { e with w3 := fields v [(51, 16)] }
  s.setPart p { x with pub := NatMap.set .init x.pub n e1 }

/-- SYS_LQCTL (R439): ERR clears where 1 is written. -/
def writeLqctl (s : State) (p k v : Nat) : State :=
  let x := s.lqOf p k
  s.setLq p k { x with ien := bit v 14, vec := bits v 13 8, err := x.err && !bit v 0 }

/-- SYS_DTADJ (R461): a positive offset is added at once, a negative one absorbed at half rate; a write replaces what is left. -/
def adjustTime (s : State) (v : Word64) : State :=
  let d := sext 64 v.toNat
  if 0 ≤ d then { s with dtime := (s.dtime + d.toNat) % 2 ^ 64, absorb := 0, halfTick := false } else { s with absorb := (-d).toNat, halfTick := false }

/-- The link control flit of a time-sync exchange (R452, R461). -/
def tsyncFlit (s : State) (sub t1 t2 t3 : Nat) : List Byte :=
  flitOf (padTo 24 (toBytes 1 7 ++ [0] ++ toBytes 2 (s.sysNode % 4096)) ++ padTo 8 (toBytes 1 sub) ++ toBytes 8 t1 ++ toBytes 8 t2 ++ toBytes 8 t3)

/-- LNK_TSYNC (R461): an exchange starts on a port that is in service. -/
def startTsync (s : State) (k : Nat) (v : Word64) : State :=
  let x := s.portOf k
  if x.st = .lost then s
  else (s.setPort k { x with tsync := some (bits v.toNat 51 5 * 32, s.dtime) }).sendFlits k [tsyncFlit s 0 s.dtime 0 0]

/-- SYS_PEER (R448, R454): a write lifts the refusal that the loss of a port left. -/
def writePeer (s : State) (p n : Nat) (v : Word64) : State :=
  let x := s.partOf p
  s.setPart p { x with peers := NatMap.set 0 x.peers n (fields v [(63, 63), (41, 32), (11, 0)]), lost := NatMap.set false x.lost n false }

/-- The mask of an access-table word: bits 9 to 4 of each entry are reserved (R443). -/
def tableMask : Word64 := 0xFC0FFC0FFC0FFC0F

/-- What a write of a register does; read-only registers and reserved bits stay (R408). -/
def writeReg (s : State) (r : Reg) (v : Word64) : State :=
  let n := v.toNat
  match r with
  | .qctl lq q => writeQctl s lq q n
  | .pc lq q => writePc s lq q n
  | .tvec lq q => s.setQueue lq q { (s.queueOf lq q) with tvec := BitVec.ofNat 57 (bits n 56 4 * 16) }
  | .start lq => startQueues s lq n
  | .waitstate _ _ _ => s
  | .sem lq k => writeSem s lq k n
  | .nb _ _ => s
  | .task _ _ _ => s
  | .mxmode lq q => writeMxmode s lq q v
  | .chstat _ _ => s
  | .wptr _ _ => s
  | .chctl lq k => writeChctl s lq k n
  | .fva _ _ => s
  | .mxcfg _ _ => s
  | .mxnode _ _ _ => s
  | .mxtransient _ _ => s
  | .peTransient _ _ => s
  | .peStatus _ _ => s
  | .eccCorr _ _ => s
  | .eccTransient _ _ => s
  | .peBrk pq pe => writePeBrk s pq pe n
  | .mtFlags pq b p =>
    let x := s.pquadOf pq
    let f := (NatMap.get ExFlags.none x.mtFlags (16 * b + p)).toNat
    s.setPquad pq { x with mtFlags := NatMap.set .none x.mtFlags (16 * b + p) (ExFlags.ofNat (f &&& (31 - n % 32))) }
  | .mtOwn pq b f => { s with own := NatMap.set 0 s.own (1024 * pq + 256 * b + f) (fields v [(16, 0)]) }
  | .tcfg _ _ => s
  | .iw _ _ => s
  | .redir _ _ => s
  | .ptroot p => s.setPart p { (s.partOf p) with ptroot := fields v [(51, 12), (0, 0)] }
  | .cruarea p => s.setPart p { (s.partOf p) with cruarea := fields v [(63, 48), (46, 16)] }
  | .fring p => s.setPart p { (s.partOf p) with fring := fields v [(56, 16), (4, 0)] }
  | .fidx p => s.setPart p { (s.partOf p) with fridx := bits n 63 32 }
  | .save p => writeSave s p v
  | .preset p => if bit n 0 then startReset s p else s
  | .irq p => s.setPart p { (s.partOf p) with irq := fields v [(17, 16), (13, 8), (5, 0)] }
  | .expbase p => s.setPart p { (s.partOf p) with expbase := fields v [(56, 30)] }
  | .expsize p => s.setPart p { (s.partOf p) with expsize := fields v [(13, 0)] }
  | .pub p k w => writePub s p k w v
  | .lqbase p k => writeLqbase s p k v
  | .lqwidx p k => ringDoorbell s p k n
  | .lqridx _ _ => s
  | .lqctl p k => writeLqctl s p k n
  | .peer p k => writePeer s p k v
  | .hbmr p k => s.setPart p { (s.partOf p) with hbmr := NatMap.set 0 (s.partOf p).hbmr k (fields v [(51, 8), (0, 0)]) }
  | .cap => s
  | .dtime => s
  | .node => { s with sysNode := bits n 11 0 }
  | .dtadj => adjustTime s v
  | .remap _ => s
  | .lqpart lq => writeLqpart s lq v
  | .linkCount _ _ => s
  | .tsync k => startTsync s k v
  | .ctxown c => writeCtxown s c v
  | .table a => { s with tables := NatMap.set 0 s.tables a (v &&& tableMask) }
  | .qos a => writeQos s a v

/-! ## Writes by the system cores and the PF -/

/-- A write at a register address by the system cores or the PF (R407, R408); an address that names no register is no write. -/
def writeAddr (s : State) (a : Nat) (v : Word64) : State :=
  if a % 8 ≠ 0 then s
  else
    match regAt s a with
    | some r => writeReg s r v
    | none => s

/-- QSQ_START (R253). -/
def execQsqStart (lq : Nat) (v : Word64) (s : State) : Result := s.byCore fun s => startQueues s lq v.toNat
/-- QSQ_PC_WRITE (R253). -/
def execQsqPcWrite (lq q : Nat) (v : Word64) (s : State) : Result := s.byCore fun s => writePc s lq q v.toNat
/-- QSQ_QCTL_WRITE (R253, R451). -/
def execQsqQctlWrite (lq q : Nat) (v : Word64) (s : State) : Result := s.byCore fun s => writeQctl s lq q v.toNat
/-- SEM_WRITE (R253). -/
def execSemWrite (lq n : Nat) (v : Word64) (s : State) : Result := s.byCore fun s => writeSem s lq n v.toNat
/-- QSQ_MXMODE_WRITE (R299). -/
def execQsqMxmodeWrite (lq q : Nat) (v : Word64) (s : State) : Result := s.byCore fun s => writeMxmode s lq q v
/-- SYS_LQPART_WRITE (R450). -/
def execSysLqpartWrite (lq : Nat) (v : Word64) (s : State) : Result := s.byCore fun s => writeLqpart s lq v
/-- SYS_CTXOWN_WRITE (R451). -/
def execSysCtxownWrite (c : Nat) (v : Word64) (s : State) : Result := s.byCore fun s => writeCtxown s c v
/-- SYS_SAVE_WRITE (R416). -/
def execSysSaveWrite (p : Nat) (v : Word64) (s : State) : Result := s.byCore fun s => writeSave s p v
/-- QOS_WORD_WRITE (R445, R455). -/
def execQosWordWrite (a : Nat) (v : Word64) (s : State) : Result :=
  s.byCore fun s => match regAt s a with
    | some (.qos b) => writeQos s b v
    | _ => s
/-- REGISTER_WRITE (R410). -/
def execRegisterWrite (a : Nat) (v : Word64) (s : State) : Result := s.byCore fun s => writeAddr s a v
/-- DTIME_ADJUST (R461). -/
def execDtimeAdjust (v : Word64) (s : State) : Result := s.byCore fun s => adjustTime s v
/-- TSYNC_START (R461). -/
def execTsyncStart (k : Nat) (v : Word64) (s : State) : Result := s.byCore fun s => (if k < s.numPorts then startTsync s k v else s)

end Sys2Proof.Machine
end

