-- ==== Sys2Proof/Machine/Boot.lean ====
section
/-! DEFINITION. Power, boot and identity (spec 21 R456 to R463). -/

namespace Sys2Proof.Machine

/-! ## Power -/

/-- A cold reset (R456, R463): every device state is lost but the flash, the keys and fused values and which part it is. The turns to come, the count of
steps and what has left the device are the model's own and stay. -/
def State.coldReset (s : State) (powered : Bool) : State :=
  { State.reset with
    agenda := s.agenda, stepNo := s.stepNo, out := s.out, powered := powered, is930 := s.is930
    boot := { State.reset.boot with
      flash := s.boot.flash, rsaHash := s.boot.rsaHash, slhHash := s.boot.slhHash, rollback := s.boot.rollback
      rsaKey := s.boot.rsaKey, slhKey := s.boot.slhKey, secrets := s.boot.secrets } }

/-- THERMAL_LIMIT (R463): the module removes power. -/
def execThermalLimit (s : State) : Result := .next (s.coldReset false)

/-- MODULE_POWER_LOSS (R30, R463). -/
def execModulePowerLoss (s : State) : Result := .next (s.coldReset false)

/-! ## The boot ROM -/

/-- Bytes of the boot flash; one not listed is 0 (log 12). -/
def Boot.bytes (b : Boot) (base off n : Nat) : List Byte := (List.range n).map fun i => NatMap.get 0 b.flash (base + off + i)

/-- A little-endian number in the boot flash. -/
def Boot.num (b : Boot) (base off n : Nat) : Nat := ofBytes (b.bytes base off n)

/-- Whether the header of a slot is in order (R457): MAGIC, reserved bytes, BLEN. -/
def Boot.headerOk (b : Boot) (base : Nat) : Bool :=
  decide (b.num base 0 4 = 0x31464D48) && decide (b.num base 12 4 = 0) && decide (1 ≤ b.num base 8 4) && decide (b.num base 8 4 ≤ 0x01FFBE00) &&
  decide (b.num base 16672 224 = 0)

/-- The step at which a slot fails, none where it is accepted (R458): 1 header, 2 SIGR, 3 SIGS, 4 DIGEST, 5 VERSION. A key counts where its hash is the
fused one (log 12). -/
def Boot.verify (b : Boot) (base : Nat) : Option Nat :=
  if !b.headerOk base then some 1
  else if sha384 b.rsaKey ≠ b.rsaHash ∨ !rsaVerifies b.rsaKey (b.bytes base 64 384) (b.bytes base 0 64) then some 2
  else if sha384 b.slhKey ≠ b.slhHash ∨ !slhVerifies b.slhKey (b.bytes base 448 16224) (b.bytes base 0 64) then some 3
  else if sha384 (b.bytes base 16896 (b.num base 8 4)) ≠ b.bytes base 16 48 then some 4
  else if b.num base 4 4 < b.rollback then some 5
  else none

/-- The flash offset of slot B (R457). -/
def slotB : Nat := 0x2000000

/-- The firmware of a slot runs (R459): it may raise the rollback counter to its own version, and makes the register writes given; the PF is not enabled
yet. The security engine has its identity keys (R462). -/
def runFirmware (s : State) (slot : Nat) (writes : List RegWrite) : State :=
  let b := s.boot
  let base := slot * slotB
  let r := s.freeValue
  let version := b.num base 4 4
  let s1 := { r.2 with
    boot := { b with
      phase := .firmware, identity := Config.identityKeys b.secrets, slot := slot, digest := b.bytes base 16 48, version := version
      rollback := if bit r.1.toNat 0 then version else b.rollback } }
  writes.foldl (fun s w => writeAddr s w.addr w.value) s1

/-- The boot ROM (R458): slot A, then slot B; where both are rejected the device stays in reset and reports the failing step. -/
def bootRom (s : State) (writes : List RegWrite) : State :=
  match s.boot.verify 0 with
  | none => runFirmware s 0 writes
  | some _ =>
    match s.boot.verify slotB with
    | none => runFirmware s 1 writes
    | some step => { s with boot := { s.boot with phase := .failed step } }.emit (.bootFailure step)

/-- POWER_ON_RESET (R456): every register takes its reset value and the boot ROM runs; `writes` are those of the accepted firmware. -/
def execPowerOnReset (writes : List RegWrite) (s : State) : Result := .next (bootRom (s.coldReset true) writes)

/-- The firmware enables the PF (R459), at a moment of its own (log 170). -/
def enablePf (s : State) : State :=
  match s.boot.phase with
  | .firmware => { s with boot := { s.boot with phase := .running } }
  | _ => s

/-! ## Attestation -/

/-- The 128-byte body of a report (R462). -/
def reportBody (s : State) (nonce : List Byte) : List Byte :=
  padTo 32 nonce ++ padTo 48 s.boot.digest ++ toBytes 4 s.boot.version ++ toBytes 4 s.boot.rollback ++ toBytes 8 (capWord s).toNat ++
    toBytes 2 s.sysNode ++ List.replicate 30 0

/-- Both signatures of a report body (R462), by the schemes of R457, with the salt and the randomizer they draw (log 12). -/
def signatures (b : Boot) (salt rand body : List Byte) : List Byte :=
  rsaSign b.identity.modulus b.identity.exponent body salt ++ slhSign b.identity.seeds body rand

/-- ATTESTATION_REPORT (R462): on a request of a system core, which runs once the firmware does. -/
def execAttestationReport (nonce : List Byte) (s : State) : Result :=
  s.byCore fun s =>
    let salt := s.freeBytes 48
    let rand := salt.2.freeBytes 24
    rand.2.emit (.report (reportBody s nonce ++ signatures s.boot salt.1 rand.1 (reportBody s nonce)))

end Sys2Proof.Machine
end

