-- ==== Sys2Proof/Machine/Control.lean ====
section
/-! DEFINITION. Control words (spec 10 R260 to R263): branches, calls, hardware loops, HALT. YIELD stands with pre-emption. -/

namespace Sys2Proof.Machine

/-- A branch target: PC + 16 + 16 * imm modulo 2^57 (R260). -/
def targetOf57 (pc : VAddr) (imm : Word64) : VAddr := pc + 16 + vaOf (16 * imm.toNat)

/-- The conditions of BRC, in the order of cc 0 to 5 (R260). -/
def brCond (cc : Nat) (a b : Word64) : Bool :=
  if cc = 0 then decide (a = b)
  else if cc = 1 then decide (a ≠ b)
  else if cc = 2 then a.slt b
  else if cc = 3 then !a.slt b
  else if cc = 4 then a.ult b
  else !a.ult b

/-- BR (R260). -/
def execBr (h : Hdr) (o : OpA) (s : State) : Result :=
  runWord (encodeSeq 0x10 h (.formatA o)) h s fun _ _ x => .retire s (.branch (targetOf57 x.pc o.imm))

/-- BRC.cc (R260): taken where the condition holds for qs and qt. -/
def execBrc (h : Hdr) (o : OpA) (s : State) : Result :=
  runWord (encodeSeq 0x11 h (.formatA o)) h s fun _ _ x =>
    if 6 ≤ o.qd.toNat then .trap s codeIllegal 0 0
    else if brCond o.qd.toNat (x.reg o.qs.toNat) (x.reg o.qt.toNat) then .retire s (.branch (targetOf57 x.pc o.imm))
    else .retire s .next

/-- CALL (R260): qd := PC + 16, then the branch, which changes no frame (R263). -/
def execCall (h : Hdr) (o : OpA) (s : State) : Result :=
  runWord (encodeSeq 0x12 h (.formatA o)) h s fun lq q x =>
    .retire (s.setQueue lq q (x.setReg o.qd.toNat (BitVec.ofNat 64 (x.pc + 16).toNat))) (.jump (targetOf57 x.pc o.imm))

/-- RET (R260): PC := qs; bits [3:0] set trap ALIGNMENT (R98). -/
def execRet (h : Hdr) (o : OpA) (s : State) : Result :=
  runWord (encodeSeq 0x13 h (.formatA o)) h s fun _ _ x =>
    let a := (x.reg o.qs.toNat).toNat
    if a % 16 ≠ 0 then .trap s codeAlignment a 0 else .retire s (.jump (x.returnTo a).pc)

/-- LOOP (R261): the checks of the stack come before COUNT is looked at; COUNT 0 skips the body. -/
def execLoop (h : Hdr) (o : OpA) (s : State) : Result :=
  runWord (encodeSeq 0x14 h (.formatA o)) h s fun lq q x =>
    let count := if o.qs = 0 then bits o.imm.toNat 63 32 else (x.reg o.qs.toNat).toNat
    let last := x.pc + vaOf (16 * bits o.imm.toNat 15 0)
    let beyond := match x.loops with
      | [] => false
      | f :: _ => f.has x.pc && decide (f.last.toNat < last.toNat)
    if 4 ≤ x.loops.length ∨ beyond = true then .trap s codeLoopEntry 0 0
    else if count = 0 then .retire s (.jump (last + 16))
    else .retire (s.setQueue lq q { x with loops := ⟨count, x.pc + 16, last⟩ :: x.loops }) .next

/-- HALT (R260): PC := PC + 16, STATE := HALTED; the loop stack stays. -/
def execHalt (h : Hdr) (o : OpA) (s : State) : Result :=
  runWord (encodeSeq 0x16 h (.formatA o)) h s fun _ _ _ => .retire s .halt

end Sys2Proof.Machine
end

