-- ==== Sys2Proof/Machine/Cru.lean ====
section
/-! DEFINITION. The collective reduction units (spec 14 R331 to R347). -/

namespace Sys2Proof.Machine

/-! ## Descriptors -/

/-- The descriptor of a CRED from its 64 bytes (R334). -/
def collDesc (bs : List Byte) : CollDesc :=
  let f := fun o n => ofBytes ((bs.drop o).take n)
  { src := f 0 8, dst := f 8 8, rcd := f 16 8, deadline := f 24 8, count := f 32 4, gid := f 36 1, seq := f 38 2, cidx := f 40 2, ncon := f 42 2
    op := f 44 1, fmt := f 45 1, ty := f 46 1, mode := f 47 1, root := f 48 1 }

/-- Bytes of one element (R334). -/
def CollDesc.esize (d : CollDesc) : Nat := if d.fmt = 2 then 2 else 4
/-- Whether the elements are floats (R332). -/
def CollDesc.isFloat (d : CollDesc) : Bool := decide (d.ty = 7)
/-- Bytes an instance needs at the root (R336). -/
def CollDesc.need (d : CollDesc) : Nat := 8 * d.count * (2 * d.ncon - 1)

/-- Whether every field is within R334. -/
def CollDesc.ok (d : CollDesc) : Bool :=
  decide (1 ≤ d.count) && decide (d.count ≤ 65536) && decide (1 ≤ d.ncon) &&
    decide (d.ncon ≤ 1024) && decide (d.cidx < d.ncon) && decide (d.op ≤ 2) &&
    ((decide (d.ty = 7) && (decide (d.fmt = 0) || decide (d.fmt = 2))) || ((decide (d.ty = 3) || decide (d.ty = 6)) && decide (d.fmt = 9))) &&
    decide (d.mode ≤ 2) && (decide (d.root = 255) || decide (d.root ≤ 63))

/-- Whether a descriptor is as R334 has it: every field, and the reserved bytes zero. -/
def descOk (bs : List Byte) (d : CollDesc) : Bool := decide (bs.getD 37 0 = 0) && ((bs.drop 49).all fun b => b = 0) && d.ok

/-- SIZE of SYS_CRUAREA in bytes (R336). -/
def Partition.cruBytes (x : Partition) : Nat := bits x.cruarea.toNat 63 48 * 2 ^ 16

/-- The access of a CRU for a command (R341, R442). -/
def cruAccess (c : Cmd) (pub : PubUse) : Access := ⟨c.part, c.lq, c.ctx, masterCru c.lq, .read, pub, c.tag⟩

/-- Whether the launch of a context may use linked devices (R36, R342). -/
def peerLaunch (s : State) (ctx : Nat) : Bool := ((s.launchOfCtx ctx).map fun e => e.2.rcd.peer).getD false

/-- Whether a context is that of a deterministic task (R343). -/
def isDet (s : State) (ctx : Nat) : Bool := (detLaunchOf s ctx).isSome

/-- The elements of a source vector (R334). -/
def sourceElems (d : CollDesc) (bs : List Byte) : List Nat :=
  (List.range d.count).map fun i => ofBytes ((bs.drop (d.esize * i)).take d.esize)

/-- The start of a CRED (R345): the leaf, or the abort. -/
def credStart (s : State) (c : Cmd) : Access.Answer Leaf :=
  let a := cruAccess c .plain
  let va := c.s.toNat % 2 ^ 57
  match engineRead s a va 64 with
  | .wait h => .wait h
  | .fault code v => .fault code v
  | .done bs =>
    let d := collDesc bs
    if !descOk bs d || (isDet s c.ctx && decide (d.mode ≠ 2)) then .fault codeIllegal va
    else if d.rcd % 64 ≠ 0 ∨ d.src % d.esize ≠ 0 ∨ d.dst % d.esize ≠ 0 then .fault codeAlignment va
    else if (d.root ≠ 255 && (!peerLaunch s c.ctx || !peerEnabled s c.part d.root)) || decide ((s.partOf c.part).cruBytes < d.need) then .fault codePermission va
    else if d.root ≠ 255 ∧ NatMap.get false (s.partOf c.part).lost d.root then .fault codeDenied va
    else
      match engineRead s a (d.src % 2 ^ 57) (d.esize * d.count) with
      | .wait h => .wait h
      | .fault code v => .fault code v
      | .done xs => .done ⟨c, d, sourceElems d xs, isDet s c.ctx, false⟩

/-- The upset of a read of a CRED (R397) strikes its descriptor, or, where the word's bit 0 of the free value of the step says so, its source. -/
def credStruck (s : State) (c : Cmd) : State :=
  match credStart s c with
  | .done l => s.struck (cruAccess c .plain) (if bit (Config.freeWord s.stepNo).toNat 0 then l.desc.src else c.s.toNat)
  | _ => s.struck (cruAccess c .plain) c.s.toNat

/-! ## The canonical tree -/

/-- A source element as a value (R332): a float loaded exactly, an integer as its exact number. -/
def leafValue (d : CollDesc) (x : Nat) : Flagged FVal :=
  if d.isFloat then
    let v := ofCode (if d.fmt = 0 then .fp32 else .bf16) 0 x
    ⟨if v.isNaN then .nan false else v, .invIf v.isSig⟩
  else
    let v : Int := if d.ty = 3 then sext 32 x else (x % 2 ^ 32 : Nat)
    ⟨.fin (decide (v < 0)) v.natAbs 0, .none⟩

/-- The exact integer of a value. -/
def FVal.int : FVal → Int
  | .fin n m e => signed n m * 2 ^ e.toNat
  | _ => 0

/-- An integer as a value. -/
def ofInt (v : Int) : FVal := .fin (decide (v < 0)) v.natAbs 0

/-- The operation of a collective on two values (R332). -/
def collOp (d : CollDesc) (x y : Flagged FVal) : Flagged FVal :=
  let fl := x.flags.or y.flags
  if d.isFloat then
    if d.op = 0 then
      let r := fAdd .if36 .rne x.val y.val
      ⟨r.val, fl.or r.flags⟩
    else if x.val.isNaN || y.val.isNaN then ⟨.nan false, fl⟩
    else ⟨pickFloat (decide (d.op = 1)) x.val y.val, fl⟩
  else
    let a := x.val.int
    let b := y.val.int
    ⟨ofInt (if d.op = 0 then a + b else if d.op = 1 then min a b else max a b), fl⟩

/-- An absent side gives the other (R332). -/
def comb (d : CollDesc) : Option (List (Flagged FVal)) → Option (List (Flagged FVal)) → Option (List (Flagged FVal))
  | none, y => y
  | x, none => x
  | some x, some y => some (List.zipWith (collOp d) x y)

/-- node(c, 2^k) of the canonical tree (R332). -/
def treeNode (d : CollDesc) (leaf : Nat → Option (List (Flagged FVal))) : Nat → Nat → Option (List (Flagged FVal))
  | 0, c => leaf c
  | k + 1, c => comb d (treeNode d leaf k c) (treeNode d leaf k (c + 2 ^ k))

/-- The least k with 2^k at or above N (R332). -/
def treeDepth (n : Nat) : Nat := if n ≤ 1 then 0 else Nat.log2 (n - 1) + 1

/-- The root value over the contributors listed; an ABSENT root is zero (R332). -/
def CollInst.root (i : CollInst) (present : List Nat) : List (Flagged FVal) :=
  let leaf := fun c =>
    if present.contains c then (i.leaves.find? fun l => l.desc.cidx = c).map fun l => l.elems.map (leafValue i.fixed) else none
  (treeNode i.fixed leaf (treeDepth i.fixed.ncon) 0).getD (List.replicate i.fixed.count ⟨.fin false 0 0, .none⟩)

/-- A root value as written (R332). -/
def rootCode (d : CollDesc) (v : FVal) : Nat × ExFlags :=
  if d.isFloat then toCode (if d.fmt = 0 then .fp32 else .bf16) 0 .rne v else (wrapNat 32 v.int, .none)

/-- An exact value times N / P as a value whose rounding to a storage format is that of the exact number (R338). -/
def timesRatio (v : FVal) (n p : Nat) : FVal :=
  match v with
  | .fin s m e => if m = 0 then v else
    let q := quotJam (m * n) p
    .fin s q.1 (e + q.2)
  | x => x

/-- An integer times N / P, to the nearest integer, ties to even (R338). -/
def intRatio (v : Int) (n p : Nat) : Int :=
  let x := v.natAbs * n
  let q := x / p
  let r := x % p
  let m := if 2 * r < p then q else if p < 2 * r then q + 1 else q + q % 2
  signed (decide (v < 0)) m

/-- A root value rescaled and written (R338). -/
def rescaledCode (d : CollDesc) (p : Nat) (v : FVal) : Nat × ExFlags :=
  if d.op ≠ 0 then rootCode d v
  else if d.isFloat then rootCode d (timesRatio v d.ncon p)
  else
    let x := intRatio v.int d.ncon p
    let lo : Int := if d.ty = 3 then -(2 ^ 31) else 0
    let hi : Int := if d.ty = 3 then 2 ^ 31 - 1 else 2 ^ 32 - 1
    (wrapNat 32 (max lo (min hi x)), .none)

/-- The bitmap of contributors (R340). -/
def bitmapOf (cs : List Nat) : Nat := cs.foldl (fun a c => a ||| 2 ^ c) 0

/-- A delivery of the value over the contributors listed, as written by `f` (R337, R340). -/
def CollInst.make (i : CollInst) (present : List Nat) (status now : Nat) (f : FVal → Nat × ExFlags) : Delivery :=
  let vs := (i.root present).map fun v => ((f v.val).1, v.flags.or (f v.val).2)
  { vals := vs.map (·.1), status := status, flags := (ExFlags.all (vs.map (·.2))).toNat, pop := present.length, bitmap := bitmapOf present, time := now }

/-- The delivery that closes an instance without a value (R335, R340): MISMATCH. -/
def mismatchDelivery (now : Nat) : Delivery := ⟨[], 5, 0, 0, 0, now⟩

/-- The result record of a delivery (R340). -/
def recordBytes (d : CollDesc) (x : Delivery) : List Byte :=
  let ndet := b2n (decide (x.status = 1) || decide (x.status = 2) || decide (x.status = 4) || decide (x.status = 6))
  padTo 64 (toBytes 1 x.status ++ toBytes 1 x.flags ++ toBytes 2 ndet ++ toBytes 4 x.pop ++ toBytes 8 x.time ++ toBytes 2 d.gid ++ toBytes 2 d.seq) ++
    toBytes 128 x.bitmap

/-! ## Delivery -/

/-- The instance that a message is about. -/
def CruNews.inst : CruNews → Nat × Nat
  | .leaf d _ _ => (d.gid, d.seq)
  | .fix g q _ => (g, q)
  | .delivery g q _ _ _ => (g, q)
  | .performed g q _ => (g, q)
  | .fixed g q _ => (g, q)

/-- A message about the instance that the headers of its transactions name (R452). -/
def CruNews.about (g q : Nat) : CruNews → CruNews
  | .leaf d es det => .leaf { d with gid := g, seq := q } es det
  | .fix _ _ c => .fix g q c
  | .delivery _ _ c l x => .delivery g q c l x
  | .performed _ _ c => .performed g q c
  | .fixed _ _ c => .fixed g q c

/-- GID and SEQ in bytes 8 to 13 of a header flit (R452): as bytes 16 to 19 of a result record have them (log 53). -/
def instBits (gid seq : Nat) : Nat := gid + 2 ^ 16 * seq

/-- A CRU tells that of a linked device (R342): CRU transactions of a partition, which take their SEQ and are sent again as any request is (R453); over a port
that is lost none leave. -/
def State.tell (s : State) (part : Nat) (dst : Far) (m : CruNews) : State :=
  if (s.portOf dst.port).st = .lost then s
  else (Config.cruData m).foldl (fun s d => s.sendFar part dst 6 (instBits m.inst.1 m.inst.2) 0 0 0 (d.take 64) ⟨0, 0, 0, 0, 0⟩ .nobody) s

/-- The completion of a CRFIX (R346): that of a linked device completes there. -/
def State.finishFix (s : State) (c : Cmd) (gid seq : Nat) : State := if c.isFar then s.tell c.part c.far (.fixed gid seq none) else s.complete c

/-- The trap of a CRFIX (R346). -/
def State.refuseFix (s : State) (c : Cmd) (gid seq code : Nat) : State :=
  if c.isFar then s.tell c.part c.far (.fixed gid seq (some code)) else s.abort c code 0

/-- Whether a delivery to a contributor has to wait, and for what (R203, R217, R221, R453). -/
def leafWaits (s : State) (l : Leaf) : Option (Option PageHold) :=
  if l.cmd.isFar then none
  else
    let a := cruAccess l.cmd .result
    let waits := fun va n => match s.writeVa a va (List.replicate n 0) with
      | .wait h => some h
      | _ => none
    waits (l.desc.dst % 2 ^ 57) (l.desc.esize * l.desc.count) <|> waits (l.desc.rcd % 2 ^ 57) 192

/-- A delivery to a contributor of this device (R340, R341, R345): the destination, then the record, the flags at MT0 of its quad, and the completion
of its CRED where that has not completed; a fault traps its queue instead, and what was written stays. -/
def deliverHere (s : State) (x : Delivery) (served : List Nat) (l : Leaf) : State :=
  let x := if l.det then { x with time := 0 } else x
  let a := cruAccess l.cmd .result
  let first := if x.status = 5 then .done s
    else s.writeVa a (l.desc.dst % 2 ^ 57) (x.vals.flatMap fun v => toBytes l.desc.esize v)
  match first with
  | .wait _ => s
  | .fault code va => s.abort l.cmd code va
  | .done s1 =>
    let s1 := s1.ownedBy s (.command l.cmd (l.desc.dst % 2 ^ 57))
    match s1.writeVa a (l.desc.rcd % 2 ^ 57) (recordBytes l.desc x) with
    | .wait _ => s
    | .fault code va => (disownCmd s1 l.cmd).abort l.cmd code va
    | .done s2 =>
      let s2 := s2.ownedBy s1 (.command l.cmd (l.desc.rcd % 2 ^ 57))
      let s3 := edgeFlags s2 l.cmd.lq 0 l.cmd.ctx l.cmd.part (ExFlags.ofNat x.flags)
      if served.contains l.desc.cidx then s3 else s3.complete l.cmd

/-- A delivery to a contributor: here, or the way it came (R342); a partial is not the last. -/
def deliverLeaf (s : State) (x : Delivery) (served : List Nat) (l : Leaf) : State :=
  if l.cmd.isFar then s.tell l.cmd.part l.cmd.far (.delivery l.desc.gid l.desc.seq l.desc.cidx (decide (x.status ≠ 1)) x) else deliverHere s x served l

/-! ## The area of the root -/

/-- The 64 KiB units of the CRU area that no instance but that of one group has reserved, by physical address (R336). -/
def Partition.cruUnits (x : Partition) (gid : Nat) : List Nat :=
  let used := (x.insts.filter fun e => e.1 ≠ gid).flatMap fun e => e.2.area
  ((List.range (bits x.cruarea.toNat 63 48)).map fun k => bits x.cruarea.toNat 46 16 * 2 ^ 21 + 2 ^ 16 * k).filter fun a => !used.contains a

/-- The root writes leaf and node values into the units of an instance (R336): their layout is the root's own, so that the bytes are free values
(log 147). -/
def CollInst.store (i : CollInst) (s : State) : State :=
  i.area.zipIdx.foldl (fun s e => s.scramble e.1 (min (2 ^ 16) (i.fixed.need - 2 ^ 16 * e.2))) s

/-- The package-level CRU, whose accesses are those to the CRU area (R336, R442). -/
def masterPackage : Nat := 0x20A

/-- Whether the controllers let the root read and write units of a partition's CRU area (R336, R443, R449). -/
def areaPasses (s : State) (p : Nat) (us : List Nat) : Bool :=
  us.all fun a => targetPasses s p masterPackage a false .rd && targetPasses s p masterPackage a false .wr

/-- A contribution whose values the controller of the CRU area refuses (R345, R443): its CRED aborts, and its instance sees the contributor as missing. -/
def State.refuseLeaf (s : State) (l : Leaf) : State := if l.cmd.isFar then s else s.abort l.cmd codeDenied (l.cmd.s.toNat % 2 ^ 57)

/-- Put the instance of a group, its values standing in its area (R336). -/
def State.setInst (s : State) (p : Nat) (i : CollInst) : State :=
  let s := i.store s
  let x := s.partOf p
  s.setPart p { x with insts := NatMap.insert x.insts i.gid i }

/-! ## What the root does -/

/-- Whether the deliveries of an instance have been performed, those on linked devices and at peers among them (R346). -/
def CollInst.performed (s : State) (i : CollInst) : Bool := decide (i.st = .closed) && i.owed.isEmpty && !i.leaves.any fun l => s.awaitsPeer l.cmd

/-- The CRFIXes of an instance complete (R346). -/
def State.finishFixes (s : State) (i : CollInst) : State := i.fixes.foldl (fun s c => s.finishFix c i.gid i.seq) s

/-- The CRFIXes of an instance complete once its deliveries have been performed (R346). -/
def settleFixes (p gid : Nat) (s : State) : State :=
  match NatMap.find? (s.partOf p).insts gid with
  | none => s
  | some i =>
    if i.fixes.isEmpty || !i.performed s then s
    else
      let s1 := s.finishFixes i
      let x := s1.partOf p
      s1.setPart p { x with insts := NatMap.insert x.insts gid { i with fixes := [] } }

/-- So do those of the instances that others have displaced (R335, R346). -/
def settleParting (p : Nat) (s : State) : State :=
  let x := s.partOf p
  (x.parting.filter fun i => i.performed s).foldl State.finishFixes (s.setPart p { x with parting := x.parting.filter fun i => !i.performed s })

/-- The final delivery of an instance to every contributor whose CRED has reached the root, and the CRFIX it completes (R337, R341, R346). -/
def deliverAll (s : State) (p : Nat) (i : CollInst) (x : Delivery) : State :=
  let s1 := i.leaves.foldl (fun s l => deliverLeaf s x i.served l) s
  settleFixes p i.gid (s1.setInst p { i with
    st := .closed, served := i.leaves.map (·.desc.cidx), delivery := some x, owed := (i.leaves.filter fun l => l.cmd.isFar).map (·.desc.cidx) })

/-- Every leaf is present (R337, R339): the value over all of them. -/
def deliverFull (s : State) (p : Nat) (i : CollInst) : State :=
  let status := if i.fixed.mode = 0 && i.delivery.isSome then 3 else 0
  deliverAll s p i (i.make i.present status s.dtime (rootCode i.fixed))

/-- An instance whose present leaves may now be all of them. -/
def settleInst (s : State) (p : Nat) (i : CollInst) : State :=
  if i.present.length = i.fixed.ncon then deliverFull s p i else s.setInst p i

/-- The partial is delivered to contributor 0 if its CRED has reached the root (R337), at this moment's DTIME (R340). -/
def deliverPartial (s : State) (p : Nat) (i : CollInst) (x : Delivery) : State :=
  match i.leaves.find? fun l => l.desc.cidx = 0 with
  | some l => (deliverLeaf s { x with time := s.dtime } i.served l).setInst p { i with served := if i.served.contains 0 then i.served else i.served ++ [0] }
  | none => s.setInst p i

/-- The deadline of an open instance (R337). -/
def atDeadline (s : State) (p : Nat) (i : CollInst) : State :=
  if i.fixed.mode = 0 then
    let x := i.make i.present 1 s.dtime (rootCode i.fixed)
    deliverPartial s p { i with st := .partialOut, delivery := some x } x
  else if i.fixed.mode = 1 ∧ i.present ≠ [] then
    deliverAll s p i (i.make i.present 2 s.dtime (rescaledCode i.fixed i.present.length))
  else s.setInst p { i with st := .awaiting }

/-- Whether a leaf's deadline is over: DTIME reached it in an earlier cycle; a deterministic task has none (R337, R343). -/
def lateLeaf (s : State) (l : Leaf) : Bool := decide (l.desc.deadline ≤ s.prevDtime) && !l.det

/-- Whether the deadline of an open instance is over (R337). -/
def overdue (s : State) (i : CollInst) : Bool := decide (i.st = .opened) && (i.leaves.head?.map (lateLeaf s)).getD false

/-- Whether a CRED agrees with the values its instance's first CRED fixed (R335); a deterministic task ignores DEADLINE (R343). -/
def agrees (i : CollInst) (l : Leaf) : Bool :=
  let d := l.desc
  let f := i.fixed
  decide (d.count = f.count) && decide (d.ncon = f.ncon) && decide (d.op = f.op) && decide (d.fmt = f.fmt) && decide (d.ty = f.ty) &&
    decide (d.mode = f.mode) && decide (d.root = f.root) && (decide (d.deadline = f.deadline) || l.det) &&
    !(i.leaves.any fun m => m.desc.cidx = d.cidx)

/-- A CRED that disagrees with its instance closes it with MISMATCH (R335): every CRED of it completes with that record. -/
def mismatch (s : State) (p : Nat) (i : CollInst) (l : Leaf) : State :=
  let x := mismatchDelivery s.dtime
  let s1 := deliverAll (deliverLeaf s x [] l) p i x
  match NatMap.find? (s1.partOf p).insts i.gid with
  | none => s1
  | some j => s1.setInst p { j with
      leaves := j.leaves ++ [l], served := j.served ++ [l.desc.cidx], owed := if l.cmd.isFar then j.owed ++ [l.desc.cidx] else j.owed }

/-- A leaf that its instance takes in (R335, R337, R339). -/
def joinLeaf (s : State) (p : Nat) (i : CollInst) (l : Leaf) : State :=
  let j := { i with leaves := i.leaves ++ [l] }
  match i.st with
  | .closed =>
    match i.delivery with
    | none => s
    | some x =>
      let again := i.leaves.any fun m => m.desc.cidx = l.desc.cidx
      (deliverLeaf s x [] l).setInst p (if again then i else { j with served := j.served ++ [l.desc.cidx] })
  | .opened => if agrees i l then settleInst s p { j with present := j.present ++ [l.desc.cidx] } else mismatch s p i l
  | .awaiting => if agrees i l then settleInst s p { j with present := j.present ++ [l.desc.cidx] } else mismatch s p i l
  | .partialOut =>
    if !agrees i l then mismatch s p i l
    else
      match i.delivery with
      | some x => if l.desc.cidx = 0 then deliverPartial s p j x else s.setInst p j
      | none => s.setInst p j

/-- The first CRED of an instance opens it (R335, R336): it reserves its space; a leaf whose deadline is over is a correction (R337). None where there
is no space. -/
def openInst (s : State) (p : Nat) (l : Leaf) : Option State :=
  let d := l.desc
  let n := alignUp (2 ^ 16) d.need / 2 ^ 16
  let us := ((s.partOf p).cruUnits d.gid).take n
  if us.length < n then none
  else if !areaPasses s p us then some (s.refuseLeaf l)
  else
    let i : CollInst :=
      { gid := d.gid, seq := d.seq, fixed := d, area := us, st := .opened, leaves := [], present := [], served := [], delivery := none, fixes := [], owed := [] }
    some (if l.late then
        let s1 := atDeadline s p i
        match NatMap.find? (s1.partOf p).insts d.gid with
        | some j => joinLeaf s1 p j l
        | none => s1
      else joinLeaf s p i l)

/-- An instance is discarded for another of its group (R335); a CRFIX of it that still waits for deliveries is kept (R346). -/
def State.partWith (s : State) (p : Nat) (i : CollInst) : State :=
  let x := s.partOf p
  if i.fixes.isEmpty then s else s.setPart p { x with parting := x.parting ++ [i] }

/-- What the root can do with a leaf: nothing yet, or a new state (R335, R336). A deadline that was over when the leaf came acts before it (R337). -/
def rootLeaf (s : State) (p : Nat) (l : Leaf) : Option State :=
  match NatMap.find? (s.partOf p).insts l.desc.gid with
  | none => openInst s p l
  | some i =>
    if i.seq = l.desc.seq then
      if i.st ≠ .closed ∧ !areaPasses s p i.area then some (s.refuseLeaf l)
      else
        let s1 := if l.late && overdue s i then atDeadline s p i else s
        (NatMap.find? (s1.partOf p).insts l.desc.gid).map fun j => joinLeaf s1 p j l
    else if i.st = .closed then (openInst s p l).map fun t => t.partWith p i
    else none

/-- The choices of CRFIX on a delivered partial (R346). -/
def chooseFix (s : State) (p : Nat) (i : CollInst) (c : Cmd) (choice : Nat) : State :=
  let j := { i with fixes := i.fixes ++ [c] }
  if choice = 0 ∧ i.present ≠ [] then deliverAll s p j (i.make i.present 2 s.dtime (rescaledCode i.fixed i.present.length))
  else if choice = 2 then
    deliverAll s p j { (i.delivery.getD (mismatchDelivery 0)) with status := 4, time := s.dtime }
  else
    let late := (i.leaves.map (·.desc.cidx)).filter fun x => !i.present.contains x
    settleInst s p { j with st := .awaiting, present := i.present ++ late }

/-- Whether a CRFIX comes from the quad and context of contributor 0's CRED (R346), as far as the root can tell: of one that a linked device has sent on, that
device has judged (`fixAbroad`). -/
def fixOwner (l : Leaf) (c : Cmd) : Bool := decide (l.cmd.lq = c.lq) && decide (l.cmd.ctx = c.ctx) && (!c.isFar || (decide (l.cmd.q = c.q) && decide (l.cmd.word = c.word)))

/-- What the root does with a CRFIX (R346): wait, or a new state. -/
def rootFix (s : State) (p : Nat) (c : Cmd) (gid seq choice : Nat) : Option State :=
  match NatMap.find? (s.partOf p).insts gid with
  | none => some (s.refuseFix c gid seq codePermission)
  | some i =>
    if i.seq ≠ seq then some (s.refuseFix c gid seq codePermission)
    else
      match i.leaves.find? fun l => l.desc.cidx = 0 with
      | none => if i.st ≠ .closed then none else if i.fixed.mode ≠ 0 then some (s.refuseFix c gid seq codeIllegal) else some (s.finishFix c gid seq)
      | some l =>
        if !fixOwner l c then some (s.refuseFix c gid seq codePermission)
        else if i.fixed.mode ≠ 0 then some (s.refuseFix c gid seq codeIllegal)
        else
          match i.st with
          | .opened => none
          | .partialOut => some (chooseFix s p i c choice)
          | .awaiting => some (s.finishFix c gid seq)
          | .closed => some (s.finishFix c gid seq)

/-- Whether a contribution sent abroad is one to instance (gid, seq). -/
def AbroadLeaf.isOf (a : AbroadLeaf) (gid seq : Nat) : Bool := decide (a.leaf.desc.gid = gid) && decide (a.leaf.desc.seq = seq)

/-- Whether a CRFIX is for an instance whose root is a linked device: a contribution to it has been sent there, and none is open here (R342, R346). -/
def goesAbroad (x : Partition) (c : Cmd) (gid seq : Nat) : Bool :=
  !c.isFar && !((NatMap.find? x.insts gid).any fun i => decide (i.seq = seq)) && x.abroad.any fun a => a.isOf gid seq

/-- What the root does with an item (R335, R346): a CRFIX for a root elsewhere waits for `settleAbroad`; a CRED that has still to start is not yet there. -/
def rootItem (s : State) (p : Nat) : CruItem → Option State
  | .cred _ => none
  | .leaf l => rootLeaf s p l
  | .fix c gid seq choice => if goesAbroad (s.partOf p) c gid seq then none else rootFix s p c gid seq choice

/-- The first item of a list that the root can act on: its index and the state after it. -/
def firstActing (s : State) (p : Nat) : Nat → List CruItem → Option (Nat × State)
  | _, [] => none
  | k, x :: xs =>
    match rootItem s p x with
    | some s1 => some (k, s1)
    | none => firstActing s p (k + 1) xs

/-- Items waiting at the root act once they can, the oldest first. -/
def settleRoot (p : Nat) : Nat → State → State
  | 0, s => s
  | fuel + 1, s =>
    match firstActing s p 0 (s.partOf p).cruRoot with
    | none => s
    | some (k, s1) =>
      let x := s1.partOf p
      settleRoot p fuel (s1.setPart p { x with cruRoot := x.cruRoot.eraseIdx k })

/-- An item comes to the root: it acts, or waits there; then what waited may act. -/
def comeToRoot (s : State) (p : Nat) (x : CruItem) : State :=
  let y := s.partOf p
  let s1 := match rootItem s p x with
    | some s1 => s1
    | none => s.setPart p { y with cruRoot := y.cruRoot ++ [x] }
  settleRoot p ((s1.partOf p).cruRoot.length + 1) s1

/-! ## The words -/

/-- A CRED word whose descriptor is misaligned traps at issue (R344). -/
def credCheck (c : Cmd) : Option (Nat × Nat) := if c.s.toNat % 64 ≠ 0 then some (codeAlignment, c.s.toNat) else none

/-- An item sets out for the root. -/
def State.sendCru (s : State) (p : Nat) (x : CruItem) : State :=
  let y := s.partOf p
  s.setPart p { y with cruWay := y.cruWay ++ [x] }

/-- CRED (R345): the word retires on acceptance; the command starts later (`CRU_LEAF_ARRIVAL`). -/
def execCred (h : Hdr) (o : OpE) (s : State) : Result :=
  engineWord (encodeSeq 0x60 h (.formatE o)) h o s credCheck fun s c => .accepted (s.sendCru c.part (.cred c))

/-- CRFIX (R343, R346): in deterministic operation it traps. -/
def execCrfix (h : Hdr) (o : OpE) (s : State) : Result :=
  engineWord (encodeSeq 0x61 h (.formatE o)) h o s (fun c => if isDet s c.ctx then some (codeIllegal, 0) else none) fun s c =>
    .accepted (s.sendCru c.part (.fix c (bits c.word 23 16) (bits c.word 15 0) (bits c.word 49 48)))

/-- The state of a group that CRSTAT answers (R347): a partial that still waits for contributor 0's CRED has not been delivered (R337). -/
def crStat (s : State) (p gid : Nat) : Nat :=
  match NatMap.find? (s.partOf p).insts gid with
  | none => 0
  | some i =>
    let st := match i.st with
      | .opened => 1
      | .partialOut => if i.served.contains 0 then 2 else 1
      | .awaiting => 3
      | .closed => 4
    i.seq * 2 ^ 48 + st * 2 ^ 45 + i.leaves.length * 2 ^ 34 + (if st = 1 then 0 else (i.delivery.map (·.pop)).getD 0) * 2 ^ 23

/-- CRSTAT (R347). -/
def execCrstat (h : Hdr) (o : OpE) (s : State) : Result :=
  engineWord (encodeSeq 0x62 h (.formatE o)) h o s noCheck fun s c =>
    .retire (s.setQueue c.lq c.q ((s.queueOf c.lq c.q).setReg (bits c.word 79 75) (BitVec.ofNat 64 (crStat s c.part (bits c.word 7 0))))) .next

/-! ## The events -/

/-- What the delivery of an instance would have to wait for, where it would. -/
def instWaits (s : State) (p gid : Nat) : Option (Option PageHold) :=
  match NatMap.find? (s.partOf p).insts gid with
  | none => none
  | some i => i.leaves.findSome? (leafWaits s)

/-- What the deliveries that an item may bring about would have to wait for. -/
def CruItem.waits (s : State) (p : Nat) : CruItem → Option (Option PageHold)
  | .cred _ => none
  | .leaf l => leafWaits s l <|> instWaits s p l.desc.gid
  | .fix _ g _ _ => instWaits s p g

/-- What an item, or an item that waits at the root, would have to wait for. -/
def itemWaits (s : State) (p : Nat) (x : CruItem) : Option (Option PageHold) := (x :: (s.partOf p).cruRoot).findSome? fun y => y.waits s p

/-- Whether a contribution of a linked device to instance (gid, seq) has come (R342). -/
def Partition.hasFar (x : Partition) (gid seq : Nat) : Bool :=
  (x.cruWay ++ x.cruRoot).any fun i => match i with
    | .leaf l => l.cmd.isFar && decide (l.desc.gid = gid) && decide (l.desc.seq = seq)
    | _ => false

/-- A leaf for a root elsewhere leaves by the port of the named peer, unless this device is the root of its instance: one is open here, or a contribution to
it has come (R342). -/
def leafAbroad (s : State) (p : Nat) (l : Leaf) : Option Far :=
  let x := s.partOf p
  let here := match NatMap.find? x.insts l.desc.gid with
    | some i => decide (i.seq = l.desc.seq)
    | none => false
  if l.desc.root = 255 ∨ here = true ∨ x.hasFar l.desc.gid l.desc.seq then none else some (x.farOf l.desc.root)

/-- A contribution sets out for a root on a linked device (R342); those to closed instances of its group's other numbers are forgotten. -/
def sendAbroad (s : State) (p : Nat) (dst : Far) (l : Leaf) : State :=
  let x := s.partOf p
  let kept := x.abroad.filter fun a => !(a.closed && a.fixes.isEmpty && !a.tells && decide (a.leaf.desc.gid = l.desc.gid) && decide (a.leaf.desc.seq ≠ l.desc.seq))
  (s.setPart p { x with abroad := kept ++ [⟨dst, l, false, false, false, []⟩] }).tell p dst (.leaf l.desc l.elems l.det)

/-- A CRFIX of an instance whose root is a linked device (R342, R346): judged by contributor 0's CRED here, then sent after it. Until that CRED has gone
it waits; where the instance has closed without it, it traps (log 148). -/
def fixAbroad (s : State) (p : Nat) (c : Cmd) (gid seq choice : Nat) : Option State :=
  let x := s.partOf p
  match x.abroad.find? fun a => a.isOf gid seq && decide (a.leaf.desc.cidx = 0) with
  | none => if x.abroad.all fun a => !a.isOf gid seq || a.closed then some (s.abort c codePermission 0) else none
  | some a =>
    if a.leaf.cmd.lq ≠ c.lq ∨ a.leaf.cmd.ctx ≠ c.ctx then some (s.abort c codePermission 0)
    else if a.leaf.desc.mode ≠ 0 then some (s.abort c codeIllegal 0)
    else
      some ((s.setPart p { x with abroad := mapWhere (fun b => decide (b = a)) (fun b => { b with fixes := b.fixes ++ [c] }) x.abroad }).tell p a.far
        (.fix gid seq choice))

/-- The CRFIXes that wait here for a contribution to go to a linked device. -/
def settleAbroad (p : Nat) (s : State) : State :=
  (s.partOf p).cruRoot.foldl (fun s i => match i with
    | .fix c g q ch =>
      if goesAbroad (s.partOf p) c g q then
        match fixAbroad s p c g q ch with
        | some s1 => s1.setPart p { (s1.partOf p) with cruRoot := (s1.partOf p).cruRoot.erase i }
        | none => s
      else s
    | _ => s) s

/-- The contributions to instance (gid, seq) that were sent elsewhere before this device turned out to be its root: they name another device, which closes it
(R342). -/
def recallAbroad (p gid seq : Nat) : Nat → State → State
  | 0, s => s
  | fuel + 1, s =>
    let x := s.partOf p
    match x.abroad.find? fun a => a.isOf gid seq && !a.done with
    | none => s
    | some a => recallAbroad p gid seq fuel (comeToRoot (s.setPart p { x with abroad := x.abroad.erase a }) p (.leaf a.leaf))

/-- An item comes to the root of this device, and with it what was sent elsewhere of its instance (R342). -/
def arriveAtRoot (s : State) (p : Nat) (x : CruItem) : State :=
  match x with
  | .leaf l => recallAbroad p l.desc.gid l.desc.seq ((s.partOf p).abroad.length + 1) (comeToRoot s p x)
  | _ => comeToRoot s p x

/-- A far contributor has performed its delivery (R346). -/
def farPerformed (s : State) (p gid seq cidx : Nat) : State :=
  let x := s.partOf p
  let has := fun (i : CollInst) => { i with owed := i.owed.erase cidx }
  match NatMap.find? x.insts gid with
  | some i =>
    if i.seq = seq then settleFixes p gid (s.setPart p { x with insts := NatMap.insert x.insts gid (has i) })
    else settleParting p (s.setPart p { x with parting := mapWhere (fun i => decide (i.gid = gid) && decide (i.seq = seq)) has x.parting })
  | none => s

/-- The root has told how a CRFIX ended (R346): the oldest sent to that instance completes or traps. -/
def fixEnded (s : State) (p : Nat) (from' : Far) (gid seq : Nat) (code : Option Nat) : State :=
  let x := s.partOf p
  match x.abroad.find? fun a => a.isOf gid seq && decide (a.far = from') && !a.fixes.isEmpty with
  | none => s
  | some a =>
    match a.fixes with
    | [] => s
    | c :: cs =>
      let s1 := s.setPart p { x with abroad := mapWhere (fun b => decide (b = a)) (fun b => { b with fixes := cs }) x.abroad }
      match code with
      | none => s1.complete c
      | some k => s1.abort c k 0

/-- The roots elsewhere are told of the deliveries that have been performed whole, their writes at peers among them (R346). -/
def tellPerformed (s : State) (p : Nat) : State :=
  let x := s.partOf p
  let due := fun (a : AbroadLeaf) => a.tells && !s.awaitsPeer a.leaf.cmd
  (x.abroad.filter due).foldl (fun s a => s.tell p a.far (.performed a.leaf.desc.gid a.leaf.desc.seq a.leaf.desc.cidx))
    (s.setPart p { x with abroad := mapWhere due (fun a => { a with tells := false }) x.abroad })

/-- What a linked device's CRU says reaches a partition (R342): a contribution or a choice sets out for the root here; a delivery is performed for the contributor it
names, whose CRED it completes, and the root is told; the ends of deliveries and of CRFIXes are noted. A delivery may have to wait. -/
def takeNews (s : State) (p : Nat) (from' : Far) (m : CruNews) : OrWait :=
  let x := s.partOf p
  match m with
  | .leaf d elems det =>
    if d.ok then
      .ok (s.sendCru p (.leaf ⟨farCmd p from', { d with root := 255 }, (List.range d.count).map fun i => elems.getD i 0, det, false⟩))
    else .ok s
  | .fix gid seq choice => .ok (s.sendCru p (.fix (farCmd p from') gid seq choice))
  | .performed gid seq cidx => .ok (farPerformed s p gid seq cidx)
  | .fixed gid seq code => .ok (fixEnded s p from' gid seq code)
  | .delivery gid seq cidx last y =>
    match x.abroad.find? fun a => a.isOf gid seq && decide (a.far = from') && decide (a.leaf.desc.cidx = cidx) && !a.closed with
    | none => .ok s
    | some a =>
      match leafWaits s a.leaf with
      | some h => .error h
      | none =>
        let y := { y with vals := (List.range a.leaf.desc.count).map fun i => y.vals.getD i 0 }
        let left := mapWhere (fun b => decide (b = a)) (fun b => { b with done := true, closed := last, tells := last }) x.abroad
        let s1 := deliverHere (s.setPart p { x with abroad := left }) y (if a.done then [cidx] else []) a.leaf
        .ok (settleAbroad p (tellPerformed s1 p))

/-- Whether a lost port cuts an open instance off from a leaf it awaits (R342): one of its contributors came by that port, or a missing one
would, which a free bit says of a partition with a peer there. -/
def cutOff (s : State) (k : Nat) (i : CollInst) : Bool × State :=
  let v := s.freeValue
  if i.st = .closed ∨ i.fixed.ncon ≤ i.present.length then (false, s)
  else if (i.leaves.any fun l => l.cmd.isFar && decide (l.cmd.q = k)) = true then (true, s)
  else (decide (v.1.toNat % 2 = 1), v.2)

/-- No delivery over a lost port is waited for (R342). -/
def forgetFar (s : State) (k p gid : Nat) : State :=
  let x := s.partOf p
  match NatMap.find? x.insts gid with
  | none => s
  | some i =>
    let gone := (i.leaves.filter fun l => l.cmd.isFar && decide (l.cmd.q = k)).map (·.desc.cidx)
    settleFixes p gid (s.setPart p { x with insts := NatMap.insert x.insts gid { i with owed := i.owed.filter fun c => !gone.contains c } })

/-- Nor by an instance that another has displaced. -/
def forgetParting (s : State) (k p : Nat) : State :=
  let x := s.partOf p
  settleParting p (s.setPart p { x with parting := x.parting.map fun i =>
    let gone := (i.leaves.filter fun l => l.cmd.isFar && decide (l.cmd.q = k)).map (·.desc.cidx)
    { i with owed := i.owed.filter fun c => !gone.contains c } })

/-- A lost port ends the open instances of a partition that await leaves behind it, with the value they hold (R342): LINK. -/
def cutCollectives (k p : Nat) : List Nat → State → State
  | [], s => forgetParting s k p
  | gid :: gids, s =>
    match NatMap.find? (s.partOf p).insts gid with
    | none => cutCollectives k p gids s
    | some i =>
      let c := cutOff s k i
      let s1 := if c.1 then deliverAll c.2 p i (i.make i.present 6 s.dtime (rootCode i.fixed)) else c.2
      cutCollectives k p gids (forgetFar s1 k p gid)

/-- An accepted CRED starts (R345): its leaf takes its place on the way, or it aborts. -/
def startCred (s : State) (p n : Nat) (c : Cmd) : State :=
  let s := credStruck s c
  let x := s.partOf p
  match credStart s c with
  | .wait h => s.noteHold h
  | .fault code va => (s.setPart p { x with cruWay := x.cruWay.eraseIdx n }).abort c code va
  | .done l => s.setPart p { x with cruWay := listSet x.cruWay n (.leaf l) }

/-- A contribution comes to the end of its way (R335, R337, R342): it leaves for a linked device, or comes to the root, where a deadline that is over
acts first. -/
def leafArrives (s : State) (p : Nat) (l : Leaf) : State :=
  match leafAbroad s p l with
  | some f => settleAbroad p (sendAbroad s p f l)
  | none =>
    let s1 := match NatMap.find? (s.partOf p).insts l.desc.gid with
      | some i => if overdue s i then atDeadline s p i else s
      | none => s
    arriveAtRoot s1 p (.leaf { l with late := lateLeaf s l })

/-- A CRFIX comes to the end of its way (R346). -/
def fixArrives (s : State) (p : Nat) (c : Cmd) (g q choice : Nat) : State :=
  if goesAbroad (s.partOf p) c g q then
    match fixAbroad s p c g q choice with
    | some s1 => s1
    | none => s.setPart p { (s.partOf p) with cruRoot := (s.partOf p).cruRoot ++ [.fix c g q choice] }
  else comeToRoot s p (.fix c g q choice)

/-- CRU_LEAF_ARRIVAL (R335, R337, R339, R345, R346): item `n` on its way in a partition comes next: a CRED that has not started starts, any other item
reaches the root, after every earlier item of its queue. -/
def execCruLeafArrival (p n : Nat) (s : State) : Result :=
  let x := s.partOf p
  match x.cruWay[n]? with
  | none => .next s
  | some it =>
    if (x.cruWay.take n).any fun y => decide (y.cmd.lq = it.cmd.lq) && decide (y.cmd.q = it.cmd.q) then .next s
    else
      match itemWaits s p it with
      | some h => .next (s.noteHold h)
      | none =>
        let s1 := s.setPart p { x with cruWay := x.cruWay.eraseIdx n }
        match it with
        | .cred c => .next (startCred s p n c)
        | .leaf l => .next (leafArrives s1 p l)
        | .fix c g q choice => .next (fixArrives s1 p c g q choice)

/-- CRU_DEADLINE (R337): the cycle in which DTIME reached the deadline of an open instance is over, and its leaves are not all present. -/
def execCruDeadline (p gid : Nat) (s : State) : Result :=
  match NatMap.find? (s.partOf p).insts gid with
  | none => .next s
  | some i =>
    if !overdue s i then .next s
    else
      match instWaits s p gid with
      | some h => .next (s.noteHold h)
      | none =>
        let s1 := atDeadline s p i
        .next (settleRoot p ((s1.partOf p).cruRoot.length + 1) s1)

end Sys2Proof.Machine
end

