-- ==== Sys2Proof/Machine/Integer.lean ====
section
/-! DEFINITION. Integer and address instructions (spec 06 R160 to R168). Each computes lane by lane from rd of its operands and writes by wr;
none raises a flag. -/

namespace Sys2Proof.Machine

/-- Port b of a firing, or the immediate that replaces it (R93, R161). -/
def operandB (f : Fab) (fr : Firing) : Lanes := if f.imf then .all (immLane f.ty 24 f.imm) else fr.lanesOf .b
/-- Port c of a firing, or the immediate that replaces it (R93). -/
def operandC (f : Fab) (fr : Firing) : Lanes := if f.imf then .all (immLane f.ty 22 f.imm) else fr.lanesOf .c

/-- An instruction of one operand, lane by lane. -/
def intOne (i : Instr) (f : Fab) (s : State) (op : Lane → Lane) : Result :=
  computeFire i f (fun _ => f.ty) s fun _ fr => .plain ((fr.lanesOf .a).map op)
/-- An instruction of two operands, lane by lane. -/
def intTwo (i : Instr) (f : Fab) (s : State) (op : Lane → Lane → Lane) : Result :=
  computeFire i f (fun _ => f.ty) s fun _ fr => .plain (Lanes.map2 op (fr.lanesOf .a) (operandB f fr))
/-- Two operands read by rd and a result written by wr (R160, R163). -/
def intVals (i : Instr) (f : Fab) (s : State) (op : Int → Int → Int) : Result :=
  intTwo i f s fun a b => wr f.ty (op (rd f.ty a) (rd f.ty b))
/-- The bitwise instructions act on the w-bit fields (R165). -/
def intBits (i : Instr) (f : Fab) (s : State) (op : Nat → Nat → Nat) : Result :=
  intTwo i f s fun a b => wr f.ty (op (field f.ty a) (field f.ty b))
/-- The counts act on the w-bit field (R165). -/
def intCount (i : Instr) (f : Fab) (s : State) (op : Nat → Nat → Nat) : Result :=
  intOne i f s fun a => wr f.ty (op (laneWidth f.ty) (field f.ty a))

/-- The floor of half an integer plus one half (R163). -/
def avgOf (a b : Int) : Int := (a + b + 1) / 2

/-- ADD (R163). -/
def execAdd (f : Fab) (s : State) : Result := intVals (.add f) f s (· + ·)
/-- SUB (R163). -/
def execSub (f : Fab) (s : State) : Result := intVals (.sub f) f s (· - ·)
/-- MUL (R163): the low bits of the exact product. -/
def execMul (f : Fab) (s : State) : Result := intVals (.mul f) f s (· * ·)
/-- MULH (R163): the exact product divided by 2^w, downward. -/
def execMulh (f : Fab) (s : State) : Result := intVals (.mulh f) f s fun a b => a * b / 2 ^ laneWidth f.ty
/-- MAD (R163): exact, then wrapped once. -/
def execMad (f : Fab) (s : State) : Result :=
  computeFire (.mad f) f (fun _ => f.ty) s fun _ fr =>
    .plain (Lanes.map3 (fun a b c => wr f.ty (rd f.ty a * rd f.ty b + rd f.ty c)) (fr.lanesOf .a) (fr.lanesOf .b) (operandC f fr))
/-- DIV (R164). -/
def execDiv (f : Fab) (s : State) : Result := intVals (.div f) f s (divQuot f.ty)
/-- REM (R164). -/
def execRem (f : Fab) (s : State) : Result := intVals (.rem f) f s (divRem f.ty)
/-- NEG (R163). -/
def execNeg (f : Fab) (s : State) : Result := intOne (.neg f) f s fun a => wr f.ty (-(rd f.ty a))
/-- ABS (R163). -/
def execAbs (f : Fab) (s : State) : Result := intOne (.abs f) f s fun a => wr f.ty (rd f.ty a).natAbs
/-- MIN (R163). -/
def execMin (f : Fab) (s : State) : Result := intVals (.min f) f s min
/-- MAX (R163). -/
def execMax (f : Fab) (s : State) : Result := intVals (.max f) f s max
/-- ADDS (R163): saturates. -/
def execAdds (f : Fab) (s : State) : Result := intVals (.adds f) f s fun a b => sat f.ty (a + b)
/-- SUBS (R163): saturates. -/
def execSubs (f : Fab) (s : State) : Result := intVals (.subs f) f s fun a b => sat f.ty (a - b)
/-- AVG (R163): halves round upward. -/
def execAvg (f : Fab) (s : State) : Result := intVals (.avg f) f s avgOf
/-- CMP.cc (R167): 1 or 0 in each lane; the predicate is lane 0's condition. -/
def execCmp (f : Fab) (s : State) : Result :=
  computeFire (.cmp f) f (fun _ => f.ty) s fun _ fr =>
    let c := fun a b => condInt f.sub.toNat (rd f.ty a) (rd f.ty b)
    let u := fr.lanesOf .a
    let v := operandB f fr
    ⟨Lanes.map2 (fun a b => boolLane (c a b)) u v, .none, if c u.l0 v.l0 then .true else .false⟩
/-- IDX (R168): four addresses from base, scaled index and offset. -/
def execIdx (f : Fab) (s : State) : Result :=
  computeFire (.idx f) f (fun _ => f.ty) s fun _ fr => .plain (idxLanes f.ty f.sub.toNat f.imm (fr.lanesOf .a) (fr.lanesOf .b))
/-- AND (R165). -/
def execAnd (f : Fab) (s : State) : Result := intBits (.and f) f s (· &&& ·)
/-- OR (R165). -/
def execOr (f : Fab) (s : State) : Result := intBits (.or f) f s (· ||| ·)
/-- XOR (R165). -/
def execXor (f : Fab) (s : State) : Result := intBits (.xor f) f s (· ^^^ ·)
/-- NOT (R165). -/
def execNot (f : Fab) (s : State) : Result := intOne (.not f) f s fun a => wr f.ty (2 ^ laneWidth f.ty - 1 - field f.ty a : Nat)
/-- SHL (R165). -/
def execShl (f : Fab) (s : State) : Result := intTwo (.shl f) f s (shlLane f.ty)
/-- SHR (R165). -/
def execShr (f : Fab) (s : State) : Result := intTwo (.shr f) f s (shrLane f.ty)
/-- SAR (R165). -/
def execSar (f : Fab) (s : State) : Result := intTwo (.sar f) f s (sarLane f.ty)
/-- ROT (R165). -/
def execRot (f : Fab) (s : State) : Result := intTwo (.rot f) f s (rotLane f.ty)
/-- POPC (R165). -/
def execPopc (f : Fab) (s : State) : Result := intCount (.popc f) f s popcount
/-- CLZ (R165). -/
def execClz (f : Fab) (s : State) : Result := intCount (.clz f) f s fun w x => w - bitLen x
/-- CTZ (R165). -/
def execCtz (f : Fab) (s : State) : Result := intCount (.ctz f) f s fun w x => min w (trailing w x)
/-- BFE (R166). -/
def execBfe (f : Fab) (s : State) : Result := intOne (.bfe f) f s (bfeLane f.ty (bits f.imm.toNat 12 8) (bits f.imm.toNat 5 0))
/-- BFI (R166). -/
def execBfi (f : Fab) (s : State) : Result := intTwo (.bfi f) f s (bfiLane f.ty (bits f.imm.toNat 12 8) (bits f.imm.toNat 5 0))

end Sys2Proof.Machine
end

