-- ==== Sys2Proof/Machine/FloatOps.lean ====
section
/-! DEFINITION. Internal-float instructions (spec 07 R171 to R182): each result is rounded once, the flags of the eight lanes are ORed. -/

namespace Sys2Proof.Machine

/-- The rounding mode in mod[2:0] (R95, R172). -/
def rmField (f : Fab) : Rm := rmOf f.sub.toNat 0 0 0

/-- Flagged lanes as a computed value. -/
def Computed.flagged (v : Flagged Lanes) : Computed := ⟨v.val, v.flags, .none⟩

/-- A float instruction of one operand. -/
def floatOne (i : Instr) (f : Fab) (s : State) (op : Lane → Flagged Lane) : Result :=
  computeFire i f (fun _ => f.ty) s fun _ fr => .flagged (Lanes.ofFlagged fun j => op ((fr.lanesOf .a).get j))
/-- A float instruction of two operands. -/
def floatTwo (i : Instr) (f : Fab) (s : State) (op : Lane → Lane → Flagged Lane) : Result :=
  computeFire i f (fun _ => f.ty) s fun _ fr =>
    .flagged (Lanes.ofFlagged fun j => op ((fr.lanesOf .a).get j) ((operandB f fr).get j))

/-- FADD (R174). -/
def execFadd (f : Fab) (s : State) : Result := floatTwo (.fadd f) f s (onF2 (fAdd .if36 (rmField f)))
/-- FSUB (R174). -/
def execFsub (f : Fab) (s : State) : Result := floatTwo (.fsub f) f s (onF2 fun a b => fAdd .if36 (rmField f) a b.neg)
/-- FMUL (R174). -/
def execFmul (f : Fab) (s : State) : Result := floatTwo (.fmul f) f s (onF2 (fMul (rmField f)))
/-- FMA (R174): the product is exact. -/
def execFma (f : Fab) (s : State) : Result :=
  computeFire (.fma f) f (fun _ => f.ty) s fun _ fr =>
    .flagged (Lanes.ofFlagged fun j =>
      (fMulAdd (rmField f) (ofIF36 ((fr.lanesOf .a).get j)) (ofIF36 ((fr.lanesOf .b).get j)) (ofIF36 ((operandC f fr).get j))).lane)
/-- FMIN (R175). -/
def execFmin (f : Fab) (s : State) : Result := floatTwo (.fmin f) f s (fMinMax true)
/-- FMAX (R175). -/
def execFmax (f : Fab) (s : State) : Result := floatTwo (.fmax f) f s (fMinMax false)
/-- FABS (R175): clears bit 35. -/
def execFabs (f : Fab) (s : State) : Result := floatOne (.fabs f) f s fun a => ⟨a &&& 0x7FFFFFFFF, .none⟩
/-- FNEG (R175): inverts bit 35. -/
def execFneg (f : Fab) (s : State) : Result := floatOne (.fneg f) f s fun a => ⟨a ^^^ 0x800000000, .none⟩
/-- FCMP.cc (R176). -/
def execFcmp (f : Fab) (s : State) : Result :=
  computeFire (.fcmp f) f (fun _ => f.ty) s fun _ fr =>
    let c := fun j => fcmpLane f.sub.toNat ((fr.lanesOf .a).get j) ((operandB f fr).get j)
    let v := Lanes.ofFlagged fun j => ⟨boolLane (c j).1, (c j).2⟩
    ⟨v.val, v.flags, if (c 0).1 then .true else .false⟩
/-- FDIV (R174). -/
def execFdiv (f : Fab) (s : State) : Result := floatTwo (.fdiv f) f s (onF2 (fDiv (rmField f)))
/-- FRCP (R174). -/
def execFrcp (f : Fab) (s : State) : Result := floatOne (.frcp f) f s (onF1 (fDiv (rmField f) fOne))
/-- FSQRT (R174). -/
def execFsqrt (f : Fab) (s : State) : Result := floatOne (.fsqrt f) f s (onF1 (fSqrt (rmField f)))
/-- FRSQ (R174). -/
def execFrsq (f : Fab) (s : State) : Result := floatOne (.frsq f) f s (onF1 (fRsqrt (rmField f)))
/-- FEXP2 (R179). -/
def execFexp2 (f : Fab) (s : State) : Result := floatOne (.fexp2 f) f s (onF1 fExp2)
/-- FLOG2 (R180). -/
def execFlog2 (f : Fab) (s : State) : Result := floatOne (.flog2 f) f s (onF1 fLog2)
/-- FSIG (R181). -/
def execFsig (f : Fab) (s : State) : Result := floatOne (.fsig f) f s (onF1 fSigmoid)
/-- FTANH (R182). -/
def execFtanh (f : Fab) (s : State) : Result := floatOne (.ftanh f) f s (onF1 fTanh)
/-- FSCALE (R174): n is rd.i32 of b's lane, or the immediate sign-extended. -/
def execFscale (f : Fab) (s : State) : Result :=
  computeFire (.fscale f) f (fun k => if k = .b then .i32 else f.ty) s fun _ fr =>
    .flagged (Lanes.ofFlagged fun j =>
      (fScale (rmField f) (ofIF36 ((fr.lanesOf .a).get j)) (if f.imf then sext 24 f.imm.toNat else rd .i32 ((fr.lanesOf .b).get j))).lane)
/-- FCLASS (R177): the class word, and a predicate by the mask. -/
def execFclass (f : Fab) (s : State) : Result :=
  computeFire (.fclass f) f (fun _ => f.ty) s fun _ fr =>
    let v := (fr.lanesOf .a).map fun a => BitVec.ofNat 36 (classWord a)
    ⟨v, .none, if v.l0.toNat &&& bits f.imm.toNat 9 0 ≠ 0 then .true else .false⟩
/-- FRND (R174). -/
def execFrnd (f : Fab) (s : State) : Result := floatOne (.frnd f) f s (onF1 (fRound (rmField f)))

end Sys2Proof.Machine
end

