-- ==== Sys2Proof/Machine/Gme.lean ====
section
/-! DEFINITION. The grammar mask engines (spec 16 R363 to R381). -/

namespace Sys2Proof.Machine

/-- GME_NOLEGAL (R391). -/
def codeNoLegal : Nat := 0x39
/-- GME_STACK (R391). -/
def codeGmeStack : Nat := 0x3A

/-- A grammar slot of a hall. -/
def Hall.slot (h : Hall) (g : Nat) : GmeSlot := NatMap.get .init h.slots g
/-- Put a grammar slot. -/
def State.setSlot (s : State) (hall g : Nat) (x : GmeSlot) : State :=
  s.setHall hall { (s.hallOf hall) with slots := NatMap.set .init (s.hallOf hall).slots g x }
/-- A sampling configuration. -/
def Hall.cfg (h : Hall) (k : Nat) : GmeCfg := NatMap.get .init h.cfgs k
/-- The index that SEL 5 reads (R379). -/
def State.setLast (s : State) (hall i : Nat) : State := s.setHall hall { (s.hallOf hall) with gmeLast := i }
/-- The access of a GME command (R365, R442). -/
def gmeAccess (hall : Nat) (c : Cmd) (pub : PubUse) : Access := ⟨c.part, c.lq, c.ctx, masterGme hall, .read, pub, c.tag⟩
/-- NTOK of a slot. -/
def GmeSlot.ntok (x : GmeSlot) : Nat := x.toks.length
/-- MSTRIDE (R373). -/
def GmeSlot.stride (x : GmeSlot) : Nat := 64 * ceilDiv x.ntok 512
/-- B (R381). -/
def Cmd.batch (c : Cmd) : Nat := bits c.word 9 0 + 1

/-! ## The grammar image -/

/-- The header of an image (R368). -/
structure GmHeader where
  nstate : Nat
  ntrans : Nat
  ntok : Nat
  nsym : Nat
  start : Nat
  stoff : Nat
  troff : Nat
  tkoff : Nat
  bpoff : Nat
  bplen : Nat
deriving DecidableEq, Repr

/-- The header from its bytes, where it keeps R368. -/
def gmHeader (bs : List Byte) : Option GmHeader :=
  let f := fun o n => ofBytes ((bs.drop o).take n)
  let h : GmHeader := ⟨f 4 4, f 8 4, f 12 4, f 16 2, f 18 2, f 24 4, f 28 4, f 32 4, f 36 4, f 40 4⟩
  if f 0 2 = 1 ∧ f 2 2 = 0 ∧ f 20 4 = 0 ∧ f 44 20 = 0 ∧ 1 ≤ h.nstate ∧ h.nstate ≤ 65536 ∧ 1 ≤ h.ntrans ∧ h.ntrans ≤ 16777216 ∧ 1 ≤ h.ntok ∧
      h.ntok ≤ 262144 ∧ 1 ≤ h.nsym ∧ h.nsym ≤ 4095 ∧ h.start < h.nstate ∧ h.stoff % 8 = 0 ∧ h.troff % 8 = 0 ∧ h.tkoff % 8 = 0
  then some h else none

/-- Words of a table. -/
def words8 (bs : List Byte) (n : Nat) : List Nat := (List.range n).map fun i => ofBytes ((bs.drop (8 * i)).take 8)

/-- TFIRST of a state entry. -/
def stFirst (e : Nat) : Nat := bits e 31 0
/-- TCNT of a state entry. -/
def stCount (e : Nat) : Nat := bits e 47 32
/-- KIND of a transition. -/
def trKind (e : Nat) : Nat := bits e 9 8
/-- SYM of a transition. -/
def trSym (e : Nat) : Nat := bits e 21 10
/-- The byte and symbol of a transition as its place in the order of R369. -/
def trKey (e : Nat) : Nat := bits e 7 0 * 4096 + trSym e

/-- A state entry that keeps R368 and R369. -/
def stateOk (h : GmHeader) (e : Nat) : Bool := decide (e / 2 ^ 49 = 0) && (decide (stCount e = 0) || decide (stFirst e + stCount e ≤ h.ntrans))

/-- A transition that keeps R368 by itself. -/
def transOk (h : GmHeader) (e : Nat) : Bool :=
  decide (trKind e ≤ 2) && (if trKind e = 0 then decide (trSym e = 0) else decide (1 ≤ trSym e) && decide (trSym e ≤ h.nsym)) &&
    decide (bits e 23 22 = 0) && decide (bits e 39 24 < h.nstate) && decide (e / 2 ^ 40 = 0)

/-- Two neighbouring transitions of one state that keep R369: ascending, and of one byte only where both pop. -/
def pairOk (a b : Nat) : Bool :=
  decide (trKey a < trKey b) && (decide (bits a 7 0 ≠ bits b 7 0) || (decide (trKind a = 2) && decide (trKind b = 2)))

/-- A token entry that keeps R368 and R369. -/
def tokenOk (h : GmHeader) (e : Nat) : Bool := decide (e / 2 ^ 39 = 0) && decide (bits e 38 32 ≤ 64) && decide (bits e 31 0 + bits e 38 32 ≤ h.bplen)

/-- Whether the transition at `i` breaks the order of a state that holds it and the one before it. -/
def orderBroken (states trans : List Nat) (i : Nat) : Bool :=
  states.any fun e => decide (stFirst e < i) && decide (i < stFirst e + stCount e) && !pairOk (trans.getD (i - 1) 0) (trans.getD i 0)

/-- The first failing entry of an image, counted as R369 says. -/
def firstBad (h : GmHeader) (states trans toks : List Nat) : Option Nat :=
  match states.findIdx? fun e => !stateOk h e with
  | some i => some (1 + i)
  | none =>
    match (List.range trans.length).find? fun i => !transOk h (trans.getD i 0) || orderBroken states trans i with
    | some i => some (1 + states.length + i)
    | none =>
      match toks.findIdx? fun e => !tokenOk h e with
      | some i => some (1 + states.length + trans.length + i)
      | none => none

/-- A command of another partition than a valid slot's (R363). -/
def foreignSlot (x : GmeSlot) (c : Cmd) : Bool := x.valid && decide (x.part ≠ c.part)

/-- Bytes of a work area (R370). -/
def GmHeader.area (h : GmHeader) : Nat := alignUp (2 ^ 16) (8 * h.nstate + 8 * h.ntrans + 32 * h.ntok + h.bplen)

/-- PDALOAD once its header is read (R368 to R370, R378). -/
def loadTables (s : State) (hall g : Nat) (c : Cmd) (h : GmHeader) : Performed :=
  let a := gmeAccess hall c .plain
  let at' := fun o => (c.s.toNat + o) % 2 ^ 57
  match engineRead s a (at' h.stoff) (8 * h.nstate), engineRead s a (at' h.troff) (8 * h.ntrans), engineRead s a (at' h.tkoff) (8 * h.ntok),
      engineRead s a (at' h.bpoff) h.bplen with
  | .wait k, _, _, _ => .wait k
  | .fault code v, _, _, _ => .abort s code v
  | .done _, .wait k, _, _ => .wait k
  | .done _, .fault code v, _, _ => .abort s code v
  | .done _, .done _, .wait k, _ => .wait k
  | .done _, .done _, .fault code v, _ => .abort s code v
  | .done _, .done _, .done _, .wait k => .wait k
  | .done _, .done _, .done _, .fault code v => .abort s code v
  | .done b1, .done b2, .done b3, .done b4 =>
    let states := words8 b1 h.nstate
    let trans := words8 b2 h.ntrans
    let toks := words8 b3 h.ntok
    match firstBad h states trans toks with
    | some i => .abort (s.setLast hall i) codeIllegal 0
    | none =>
      match areaRun s a (c.t.toNat % 2 ^ 57) (h.area / 2 ^ 16) none with
      | .wait h => .wait h
      | .fault code v => .abort s code v
      | .done none => .wait none
      | .done (some pa) =>
        .done ((s.scramble pa h.area).setSlot hall g
          { valid := true, part := c.part, start := h.start, nsym := h.nsym, states := states, trans := trans, toks := toks, pool := b4
            area := pa, areaLen := h.area, tampered := false, cache := [], hits := 0, misses := 0, nolegal := 0, reject := 0 })

/-- PDALOAD (R378). -/
def gmeLoad (s : State) (hall : Nat) (c : Cmd) : Performed :=
  let g := bits c.word 3 0
  if foreignSlot ((s.hallOf hall).slot g) c then .abort s codePermission 0
  else if c.s.toNat % 64 ≠ 0 then .abort s codeAlignment c.s.toNat
  else if c.t.toNat % 2 ^ 16 ≠ 0 then .abort s codeAlignment c.t.toNat
  else
    match engineRead s (gmeAccess hall c .plain) (c.s.toNat % 2 ^ 57) 64 with
    | .wait h => .wait h
    | .fault code v => .abort s code v
    | .done bs =>
      match gmHeader bs with
      | none => .abort (s.setLast hall 0) codeIllegal 0
      | some h => loadTables s hall g c h

/-! ## Sequence records and legality -/

/-- A sequence record (R371); the stack top first. -/
structure SeqRec where
  st : Nat
  depth : Nat
  gslot : Nat
  done : Bool
  step : Nat
  sid : Nat
  stack : List Nat
  clean : Bool
deriving DecidableEq, Repr

/-- A record from its bytes. -/
def seqRec (bs : List Byte) : SeqRec :=
  let f := fun o n => ofBytes ((bs.drop o).take n)
  let d := f 4 2
  let es := (List.range (min d 1024)).map fun k => f (64 + 2 * k) 2
  { st := f 0 4, depth := d, gslot := f 6 1, done := bit (f 7 1) 0, step := f 8 8, sid := f 16 4, stack := (es.map (· % 4096)).reverse
    clean := decide (f 7 1 ≤ 1) && decide (f 20 44 = 0) && (es.all fun e => e < 4096) }

/-- Where a walk ends (R372). -/
inductive Walk where
  | fail | overflow
  | at (st : Nat) (stack : List Nat)
deriving DecidableEq, Repr

/-- The transitions of a state. -/
def GmeSlot.of (x : GmeSlot) (st : Nat) : List Nat :=
  let e := x.states.getD st 0
  (x.trans.drop (stFirst e)).take (stCount e)

/-- One step of a walk (R372). -/
def walkStep (x : GmeSlot) (st : Nat) (stack : List Nat) (c : Nat) : Walk :=
  let es := (x.of st).filter fun e => bits e 7 0 = c
  match es with
  | [] => .fail
  | e :: _ =>
    if trKind e = 0 then .at (bits e 39 24) stack
    else if trKind e = 1 then (if stack.length = 1024 then .overflow else .at (bits e 39 24) (trSym e :: stack))
    else
      match stack with
      | [] => .fail
      | t :: ts =>
        match es.find? fun e => trSym e = t with
        | some f => .at (bits f 39 24) ts
        | none => .fail

/-- The walk over the bytes of a token. -/
def walkBytes (x : GmeSlot) : Nat → List Nat → List Byte → Walk
  | st, stack, [] => .at st stack
  | st, stack, b :: bs =>
    match walkStep x st stack b.toNat with
    | .at st' stack' => walkBytes x st' stack' bs
    | w => w

/-- The bytes of a token. -/
def GmeSlot.bytesOf (x : GmeSlot) (i : Nat) : List Byte :=
  let e := x.toks.getD i 0
  (x.pool.drop (bits e 31 0)).take (bits e 38 32)

/-- Whether a token is an end token (R368). -/
def GmeSlot.isEnd (x : GmeSlot) (i : Nat) : Bool := decide (bits (x.toks.getD i 0) 38 32 = 0)

/-- Whether a state accepts. -/
def GmeSlot.accept (x : GmeSlot) (st : Nat) : Bool := bit (x.states.getD st 0) 48

/-- Legality of a token for a record (R372). -/
def legal (x : GmeSlot) (r : SeqRec) (i : Nat) : Bool :=
  if r.done then false
  else if x.isEnd i then x.accept r.st && decide (r.depth = 0)
  else
    match walkBytes x r.st r.stack (x.bytesOf i) with
    | .at _ _ => true
    | _ => false

/-- Bytes of the stack entries of a record that are read, from its first bytes (R371): those below DEPTH, where DEPTH is in its limits. -/
def entryBytes (hd : List Byte) : Nat :=
  let d := ofBytes ((hd.drop 4).take 2)
  if d ≤ 1024 then 2 * d else 0

/-- The record at an address (R371): its first 64 bytes, then its stack entries below DEPTH. -/
def readRec (s : State) (a : Access) (va : Nat) : Access.Answer SeqRec :=
  match engineRead s a (va % 2 ^ 57) 64 with
  | .wait h => .wait h
  | .fault code v => .fault code v
  | .done hd =>
    match engineRead s a ((va + 64) % 2 ^ 57) (entryBytes hd) with
    | .wait h => .wait h
    | .fault code v => .fault code v
    | .done es => .done (seqRec (hd ++ es))

/-- The records of a batch, read and checked (R371): the slot they name with the records, or why not; `none` in an abort's place is a slot that
another master has written (R370). -/
def readBatch (s : State) (hall : Nat) (c : Cmd) : Access.Answer (Nat × List SeqRec) :=
  match gather ((List.range c.batch).map fun b => readRec s (gmeAccess hall c .plain) (c.s.toNat + 2112 * b)) with
  | .wait h => .wait h
  | .fault code v => .fault code v
  | .done rs =>
    let g := ((rs.head?).map (·.gslot)).getD 0
    let x := (s.hallOf hall).slot g
    if 15 < g ∨ !x.valid then .fault codeIllegal 0
    else if x.part ≠ c.part then .fault codePermission 0
    else if rs.any fun r => !r.clean || decide (x.states.length ≤ r.st) || decide (1024 < r.depth) || decide (r.gslot ≠ g) then .fault codeIllegal 0
    else .done (g, rs)

/-- Whether the target of some part of a slot's work area refuses the reads of its GME (R380, R443). -/
def areaDenied (s : State) (hall part : Nat) (x : GmeSlot) : Bool :=
  (List.range (x.areaLen / 2 ^ 16)).any fun i => !targetPasses s part (masterGme hall) (x.area + 2 ^ 16 * i) false .rd

/-- Whether a granule of a slot's work area is poisoned (R221, R380). -/
def areaPoisoned (s : State) (x : GmeSlot) : Bool :=
  s.poison.any fun e => e.2 && decide (x.area / 64 ≤ e.1) && decide (e.1 < (x.area + x.areaLen) / 64)

/-- What a command that reads the tables of a slot can meet in the slot's work area (R370, R380): a word that another master has written, a target that
refuses the read, a poisoned granule. -/
def areaTrouble (s : State) (hall part : Nat) (x : GmeSlot) : Option Nat :=
  if x.tampered then some codeUncorrectable
  else if areaDenied s hall part x then some codeDenied
  else if areaPoisoned s x then some codeUncorrectable
  else none

/-- A command that reads the tables of a slot whose work area holds such a place (R370, R380) aborts, and the slot is not valid where another master has
written the word; a free bit says whether the command reads the place, since the layout of the area is the unit's. The state goes on where it does not. -/
def slotBroken (s : State) (hall part g : Nat) : Performed ⊕ State :=
  let x := (s.hallOf hall).slot g
  match areaTrouble s hall part x with
  | none => .inr s
  | some code =>
    let v := s.freeValue
    if v.1.getLsbD 0 then .inl (.abort (if x.tampered then v.2.setSlot hall g { x with valid := false } else v.2) code x.area) else .inr v.2

/-! ## MASK -/

/-- The bytes of a mask (R373). -/
def maskBytes (x : GmeSlot) (r : SeqRec) : List Byte :=
  (List.range x.stride).map fun b =>
    BitVec.ofNat 8 ((List.range 8).foldl (fun acc j => acc + b2n (decide (8 * b + j < x.ntok) && legal x r (8 * b + j)) * 2 ^ j) 0)

/-- The mask cache counts a hit or a miss (R373); whether it still holds a combination it has seen is a free value (log 49). -/
def countCache (s : State) (hall g : Nat) (r : SeqRec) : State :=
  let x := (s.hallOf hall).slot g
  let key := (r.st, r.stack)
  let v := s.freeValue
  if x.cache.contains key && v.1.getLsbD 0 then v.2.setSlot hall g { x with hits := x.hits + 1 }
  else v.2.setSlot hall g { x with misses := x.misses + 1, cache := if x.cache.contains key then x.cache else x.cache ++ [key] }

/-- The masks of a batch, in order (R373). -/
def maskAll (hall g : Nat) (c : Cmd) (x : GmeSlot) : Nat → List SeqRec → State → Performed
  | _, [], s => .done s
  | b, r :: rs, s =>
    match s.writeVa (gmeAccess hall c .result) ((c.t.toNat + x.stride * b) % 2 ^ 57) (maskBytes x r) with
    | .wait h => .wait h
    | .fault code v => .abort s code v
    | .done s1 => maskAll hall g c x (b + 1) rs (countCache s1 hall g r)

/-- MASK (R373). -/
def gmeMask (s : State) (hall : Nat) (c : Cmd) : Performed :=
  if c.s.toNat % 64 ≠ 0 then .abort s codeAlignment c.s.toNat
  else if c.t.toNat % 64 ≠ 0 then .abort s codeAlignment c.t.toNat
  else
    match readBatch s hall c with
    | .wait h => .wait h
    | .fault code v => .abort s code v
    | .done (g, rs) =>
      match slotBroken s hall c.part g with
      | .inl p => p
      | .inr s => maskAll hall g c ((s.hallOf hall).slot g) 0 rs s

/-! ## SAMPLE -/

/-- The weight of a logit (R374 steps 1 to 3). -/
def logitWeight (m k v : FVal) : Nat :=
  if fOrder v m = .eq then 2 ^ 31
  else
    let x := fMul .rne (fAdd .if36 .rne v m.neg).val k
    match (fExp2 x.val).val with
    | .fin _ n e => (Dyadic.floor ⟨n, e + 31⟩).toNat
    | _ => 0

/-- The largest of a list of values that are not NaN. -/
def largest : List FVal → Option FVal
  | [] => none
  | v :: vs =>
    match largest vs with
    | none => some v
    | some w => if fLess w v then some v else some w

/-- The least candidate whose prefix of weights exceeds `u` (R374 step 6). -/
def pickPrefix (u : Nat) : Nat → List (Nat × Nat) → Nat
  | _, [] => 0xFFFFFFFF
  | acc, (i, w) :: es => if u < acc + w then i else pickPrefix u (acc + w) es

/-- The candidates of a row with their weights (R374), none where there is none. -/
def candidates (x : GmeSlot) (k : GmeCfg) (mask row : List Byte) : List (Nat × Nat) :=
  let size := if k.lfmt = 2 then 2 else 4
  let at' := fun i => ofCode (if k.lfmt = 2 then .bf16 else .fp32) 0 (ofBytes ((row.drop (size * i)).take size))
  let cand := ((List.range x.ntok).filter fun i => bit (mask.getD (i / 8) 0).toNat (i % 8)).filterMap fun i =>
    let v := at' i
    if v.isNaN || decide (v = .inf true) then none else some (i, v)
  match largest (cand.map (·.2)) with
  | none => []
  | some m => (cand.map fun e => (e.1, logitWeight m (ofIF36 k.scale) e.2)).filter fun e => k.wmin ≤ e.2

/-- The result of a record (R374, R375): 16 bytes, and whether no token was legal. -/
def sampleOne (k : GmeCfg) (r : SeqRec) (cs : List (Nat × Nat)) : List Byte × Bool :=
  match cs with
  | [] => (toBytes 4 k.fallback ++ toBytes 4 1 ++ toBytes 8 0, true)
  | cs =>
    let total := (cs.map (·.2)).foldl (· + ·) 0
    let w := philox k.seed.toNat (r.step + r.sid * 2 ^ 64 + 0x474D * 2 ^ 96)
    let u := (w.getD 0 0 + 2 ^ 32 * w.getD 1 0) % total
    (toBytes 4 (pickPrefix u 0 cs) ++ toBytes 4 0 ++ toBytes 8 total, false)

/-- The results of a batch in order: the state after them and the lowest record with no legal token and no fallback. -/
def sampleAll (hall g : Nat) (c : Cmd) (x : GmeSlot) (k : GmeCfg) : Nat → List SeqRec → State → Option Nat → Performed × Option Nat
  | _, [], s, low => (.done s, low)
  | b, r :: rs, s, low =>
    let size := if k.lfmt = 2 then 2 else 4
    let a := gmeAccess hall c .plain
    match engineRead s a ((c.d.toNat + x.stride * b) % 2 ^ 57) (ceilDiv x.ntok 8), engineRead s a ((c.t.toNat + bits c.word 47 16 * b) % 2 ^ 57) (size * x.ntok) with
    | .wait k, _ => (.wait k, low)
    | .fault code v, _ => (.abort s code v, low)
    | .done _, .wait k => (.wait k, low)
    | .done _, .fault code v => (.abort s code v, low)
    | .done mask, .done row =>
      let q := sampleOne k r (candidates x k mask row)
      match s.writeVa a ((c.v.toNat + 16 * b) % 2 ^ 57) q.1 with
      | .wait k => (.wait k, low)
      | .fault code v => (.abort s code v, low)
      | .done s1 =>
        let y := (s1.hallOf hall).slot g
        let s2 := if q.2 then s1.setSlot hall g { y with nolegal := y.nolegal + 1 } else s1
        sampleAll hall g c x k (b + 1) rs s2 (if q.2 ∧ k.fallback = 0xFFFFFFFF ∧ low.isNone then some b else low)

/-- SAMPLE (R374, R375). -/
def gmeSample (s : State) (hall : Nat) (c : Cmd) : Performed :=
  let k := (s.hallOf hall).cfg (bits c.word 13 10)
  let size := if k.lfmt = 2 then 2 else 4
  let l := bits c.word 47 16
  if !k.valid ∨ k.part ≠ c.part then .abort s codePermission 0
  else if c.d.toNat % 64 ≠ 0 then .abort s codeAlignment c.d.toNat
  else if c.s.toNat % 64 ≠ 0 then .abort s codeAlignment c.s.toNat
  else if c.v.toNat % 16 ≠ 0 then .abort s codeAlignment c.v.toNat
  else if c.t.toNat % size ≠ 0 ∨ l % size ≠ 0 then .abort s codeAlignment c.t.toNat
  else
    match readBatch s hall c with
    | .wait h => .wait h
    | .fault code v => .abort s code v
    | .done (g, rs) =>
      let x := (s.hallOf hall).slot g
      if l < x.ntok * size then .abort s codeIllegal 0
      else
        match slotBroken s hall c.part g with
        | .inl p => p
        | .inr s =>
          match sampleAll hall g c x k 0 rs s none with
          | (.done s1, some b) => .abort (s1.setLast hall b) codeNoLegal 0
          | (p, _) => p

/-! ## PDASTEP -/

/-- What advancing a record by a token does (R376): STEPST, and the record after it. -/
def advance (x : GmeSlot) (r : SeqRec) (t : Nat) : Nat × Option SeqRec :=
  let w := walkBytes x r.st r.stack (x.bytesOf t)
  if x.ntok ≤ t ∨ !legal x r t then
    (if t < x.ntok ∧ w = .overflow then 2 else 1, none)
  else if x.isEnd t then (0, some { r with done := true, step := (r.step + 1) % 2 ^ 64 })
  else
    match w with
    | .at st stack => (0, some { r with st := st, stack := stack, depth := stack.length, step := (r.step + 1) % 2 ^ 64 })
    | _ => (1, none)

/-- The write of a record that has advanced (R371, R376): its first 16 bytes and its stack entries. -/
def writeRec (s : State) (a : Access) (va : Nat) (r : SeqRec) : Access.Answer State :=
  match s.writeVa a va (toBytes 4 r.st ++ toBytes 2 r.depth ++ toBytes 1 r.gslot ++ toBytes 1 (b2n r.done) ++ toBytes 8 r.step) with
  | .done s1 =>
    if r.stack = [] then .done s1 else s1.writeVa a ((va + 64) % 2 ^ 57) (r.stack.reverse.flatMap fun e => toBytes 2 e)
  | x => x

/-- The records of a batch in order: the state after them and the lowest one whose stack overflowed (R376). -/
def stepAll (hall g : Nat) (c : Cmd) (x : GmeSlot) : Nat → List SeqRec → State → Option Nat → Performed × Option Nat
  | _, [], s, low => (.done s, low)
  | b, r :: rs, s, low =>
    let a := gmeAccess hall c .plain
    let ra := (c.t.toNat + 16 * b) % 2 ^ 57
    match engineRead s a ra 4 with
    | .wait k => (.wait k, low)
    | .fault code v => (.abort s code v, low)
    | .done bs =>
      let q := advance x r (ofBytes bs)
      let first := match q.2 with
        | some r1 => writeRec s a ((c.s.toNat + 2112 * b) % 2 ^ 57) r1
        | none => .done s
      match first with
      | .wait k => (.wait k, low)
      | .fault code v => (.abort s code v, low)
      | .done s1 =>
        match s1.writeVa a ((ra + 5) % 2 ^ 57) [BitVec.ofNat 8 q.1] with
        | .wait k => (.wait k, low)
        | .fault code v => (.abort s1 code v, low)
        | .done s2 =>
          let y := (s2.hallOf hall).slot g
          let s3 := if q.1 = 1 then s2.setSlot hall g { y with reject := y.reject + 1 } else s2
          stepAll hall g c x (b + 1) rs s3 (if q.1 = 2 ∧ low.isNone then some b else low)

/-- PDASTEP (R376). -/
def gmeStep (s : State) (hall : Nat) (c : Cmd) : Performed :=
  if c.s.toNat % 64 ≠ 0 then .abort s codeAlignment c.s.toNat
  else if c.t.toNat % 16 ≠ 0 then .abort s codeAlignment c.t.toNat
  else
    match readBatch s hall c with
    | .wait h => .wait h
    | .fault code v => .abort s code v
    | .done (g, rs) =>
      match slotBroken s hall c.part g with
      | .inl p => p
      | .inr s =>
        match stepAll hall g c ((s.hallOf hall).slot g) 0 rs s none with
        | (.done s1, some b) => .abort (s1.setLast hall b) codeGmeStack 0
        | (p, _) => p

/-! ## Configurations and counts -/

/-- A configuration from its record, where it keeps R377. -/
def gmeCfg (bs : List Byte) (part : Nat) : Option GmeCfg :=
  let f := fun o n => ofBytes ((bs.drop o).take n)
  let e := bits (f 0 4) 30 23
  if bit (f 0 4) 31 || decide (e = 0) || decide (e = 255) || decide (2 ^ 31 < f 4 4) || decide (f 12 1 ≠ 0 ∧ f 12 1 ≠ 2) || decide (f 13 3 ≠ 0) || decide (f 24 8 ≠ 0)
  then none
  else
    some { valid := true, part := part, scale := toIF36 (fMul .rne (ofCode .fp32 0 (f 0 4)) constL.val).val, wmin := f 4 4, fallback := f 8 4
           lfmt := f 12 1, seed := BitVec.ofNat 64 (f 16 8) }

/-- GMCFG (R377). -/
def gmeConfig (s : State) (hall : Nat) (c : Cmd) : Performed :=
  let k := bits c.word 3 0
  let old := (s.hallOf hall).cfg k
  if old.valid ∧ old.part ≠ c.part then .abort s codePermission 0
  else if c.s.toNat % 32 ≠ 0 then .abort s codeAlignment c.s.toNat
  else
    match engineRead s (gmeAccess hall c .plain) (c.s.toNat % 2 ^ 57) 32 with
    | .wait h => .wait h
    | .fault code v => .abort s code v
    | .done bs =>
      match gmeCfg bs c.part with
      | none => .abort s codeIllegal 0
      | some x => .done (s.setHall hall { (s.hallOf hall) with cfgs := NatMap.set .init (s.hallOf hall).cfgs k x })

/-- The value GMSTAT answers (R379). -/
def gmStatValue (h : Hall) (g sel : Nat) : Word64 :=
  let x := h.slot g
  match sel with
  | 0 => if x.valid then BitVec.ofNat 64 x.ntok else 0
  | 1 => x.hits
  | 2 => x.misses
  | 3 => x.nolegal
  | 4 => x.reject
  | _ => BitVec.ofNat 64 h.gmeLast

/-- GMSTAT at its turn (R363, R379). -/
def gmeStat (s : State) (hall : Nat) (c : Cmd) : Performed :=
  let g := bits c.word 3 0
  if foreignSlot ((s.hallOf hall).slot g) c then .abort s codePermission 0
  else .done (answerWord s c (gmStatValue (s.hallOf hall) g (bits c.word 50 48)))

/-- The effect of a class 8 command (R364). -/
def gmePerform (s : State) (hall : Nat) (c : Cmd) : Performed :=
  let op := c.opcode
  if op = 0x80 then gmeLoad s hall c
  else if op = 0x81 then gmeStep s hall c
  else if op = 0x82 then gmeMask s hall c
  else if op = 0x83 then gmeSample s hall c
  else if op = 0x84 then gmeConfig s hall c
  else gmeStat s hall c

/-- What a class 8 command reads of a record: its first bytes and its stack entries, where the first bytes can be read. -/
def recReads (s : State) (a : Access) (va : Nat) : List (Nat × Nat) :=
  (va, 64) :: match engineRead s a (va % 2 ^ 57) 64 with
    | .done hd => if entryBytes hd = 0 then [] else [(va + 64, entryBytes hd)]
    | _ => []

/-- The tables of an image whose header can be read. -/
def imageReads (s : State) (a : Access) (va : Nat) : List (Nat × Nat) :=
  (va, 64) :: match engineRead s a (va % 2 ^ 57) 64 with
    | .done hd =>
      match gmHeader hd with
      | some h => [(va + h.stoff, 8 * h.nstate), (va + h.troff, 8 * h.ntrans), (va + h.tkoff, 8 * h.ntok), (va + h.bpoff, h.bplen)]
      | none => []
    | _ => []

/-- The ranges of memory that a class 8 command reads by virtual address (R371 to R378). -/
def gmeReads (s : State) (hall : Nat) (c : Cmd) : List (Nat × Nat) :=
  let a := gmeAccess hall c .plain
  let rs := (List.range c.batch).flatMap fun b => recReads s a (c.s.toNat + 2112 * b)
  let x := match readBatch s hall c with
    | .done (g, _) => (s.hallOf hall).slot g
    | _ => .init
  let op := c.opcode
  if op = 0x80 then imageReads s a c.s.toNat
  else if op = 0x81 then rs ++ (List.range c.batch).map fun b => (c.t.toNat + 16 * b, 4)
  else if op = 0x82 then rs
  else if op = 0x83 then
    rs ++ (List.range c.batch).flatMap fun b =>
      [(c.d.toNat + x.stride * b, ceilDiv x.ntok 8),
       (c.t.toNat + bits c.word 47 16 * b, (if ((s.hallOf hall).cfg (bits c.word 13 10)).lfmt = 2 then 2 else 4) * x.ntok)]
  else if op = 0x84 then [(c.s.toNat, 32)]
  else []

/-- The upset of a step strikes a read of a class 8 command (R397, R380): one by virtual address, or one of the slot's work area. -/
def gmeStruck (s : State) (hall : Nat) (c : Cmd) : State :=
  if s.upset = .none then s
  else
    match readBatch s hall c with
    | .done (g, _) =>
      let v := s.freeValue
      let x := (s.hallOf hall).slot g
      if v.1.getLsbD 63 ∧ (c.opcode = 0x81 ∨ c.opcode = 0x82 ∨ c.opcode = 0x83) then readUpset v.2 (x.area + 64 * (v.1.toNat % (x.areaLen / 64)))
      else v.2.struckIn (gmeAccess hall c .plain) (gmeReads s hall c)
    | _ => s.struckIn (gmeAccess hall c .plain) (gmeReads s hall c)

/-- The end of a class 8 command (R365, R380): it signals once its writes are performed, or traps its queue; one that waits leaves the state as it was; a
GMSTAT answers for its own signal, and one whose word is gone traps nobody (R412). -/
def gmeFinish (s : State) (c : Cmd) : Performed → State
  | .wait k => s.noteHold k
  | .abort s1 code va => if c.opcode = 0x85 ∧ !s.awaited c then s1 else s1.abort c code va
  | .done s1 => if c.opcode = 0x85 then s1 else (s1.ownedBy s (.command c (c.t.toNat % 2 ^ 57))).complete c

/-- Whether a command of a GME has still writes that a peer has to perform: the next one starts after them (R364). -/
def gmeOwes (s : State) (hall : Nat) : Bool := s.owing.any fun c => decide (c.opcode / 16 = 8) && decide (bits c.word 59 56 = hall)

/-- GME_COMMAND_PERFORM (R364, R380): the oldest accepted command is performed whole; it completes, or aborts with the command word in the record
of its queue. -/
def execGmeCommandPerform (hall : Nat) (s : State) : Result :=
  let h := s.hallOf hall
  match h.gmeQ with
  | [] => .next s
  | c :: cs => if gmeOwes s hall then .next s else .next (gmeFinish s c (gmePerform (gmeStruck (s.setHall hall { h with gmeQ := cs }) hall c) hall c))

/-- A command joins the queue of its GME (R364). -/
def gmeEnqueue (s : State) (c : Cmd) : State :=
  let hall := bits c.word 59 56
  let h := s.hallOf hall
  s.setHall hall { h with gmeQ := h.gmeQ ++ [c] }

/-- Acceptance of a class 8 word. -/
def gmeAccept (s : State) (c : Cmd) : WordResult := .accepted (gmeEnqueue s c)

/-- PDALOAD and GMCFG trap in deterministic operation (R367). -/
def sharedCheck (s : State) (c : Cmd) : Option (Nat × Nat) := if isDet s c.ctx then some (codeIllegal, 0) else none

/-- PDALOAD (R378). -/
def execPdaload (h : Hdr) (o : OpE) (s : State) : Result := engineWord (encodeSeq 0x80 h (.formatE o)) h o s (sharedCheck s) gmeAccept
/-- PDASTEP (R376). -/
def execPdastep (h : Hdr) (o : OpE) (s : State) : Result := engineWord (encodeSeq 0x81 h (.formatE o)) h o s noCheck gmeAccept
/-- MASK (R373). -/
def execMask (h : Hdr) (o : OpE) (s : State) : Result := engineWord (encodeSeq 0x82 h (.formatE o)) h o s noCheck gmeAccept
/-- SAMPLE (R374). -/
def execSample (h : Hdr) (o : OpE) (s : State) : Result := engineWord (encodeSeq 0x83 h (.formatE o)) h o s noCheck gmeAccept
/-- GMCFG (R377). -/
def execGmcfg (h : Hdr) (o : OpE) (s : State) : Result := engineWord (encodeSeq 0x84 h (.formatE o)) h o s (sharedCheck s) gmeAccept
/-- GMSTAT (R379): waits for its turn and retires with the answer. -/
def execGmstat (h : Hdr) (o : OpE) (s : State) : Result :=
  engineWord (encodeSeq 0x85 h (.formatE o)) h o s noCheck fun s c => awaitAnswer (gmeEnqueue s c) c

end Sys2Proof.Machine
end

