-- ==== Sys2Proof/Machine/Vie.lean ====
section
/-! DEFINITION. The video ingest engine (spec 17 R382 to R390). What a decoder makes of a bitstream is the standard's: its frames come with the
events. -/

namespace Sys2Proof.Machine

/-- Streams of the part (R382). -/
def State.numStreams (s : State) : Nat := if s.is930 then 512 else 1024
/-- Decoders of the part (R382). -/
def State.numDecoders (s : State) : Nat := if s.is930 then 8 else 16
/-- A stream. -/
def State.streamOf (s : State) (n : Nat) : Stream := NatMap.get .init s.streams n
/-- Put a stream. -/
def State.setStream (s : State) (n : Nat) (x : Stream) : State := { s with streams := NatMap.set .init s.streams n x }

/-- The decoder of a new stream (R382): the one with the fewest open streams, the lowest among equals. -/
def freeDecoder (s : State) : Nat :=
  let load := fun d => (s.streams.filter fun e => decide (e.2.st ≠ .closed) && decide (e.2.decoder = d)).length
  ((leastBy load (List.range s.numDecoders))).getD 0

/-- A stream descriptor from its bytes, where it keeps R383. -/
def streamDesc (bs : List Byte) : Option StreamDesc :=
  let f := fun o n => ofBytes ((bs.drop o).take n)
  let d : StreamDesc := ⟨f 0 8, f 8 4, f 16 8, f 24 8, f 32 4, f 36 1, f 37 1, f 38 1, f 39 1, f 40 4, f 44 2, f 48 8⟩
  if f 12 4 = 0 ∧ f 46 2 = 0 ∧ f 56 8 = 0 ∧ d.ring % 64 = 0 ∧ d.rsize % 64 = 0 ∧ 65536 ≤ d.rsize ∧ d.rsize ≤ 2 ^ 28 ∧ d.fbuf % 65536 = 0 ∧
      d.slotsz ≠ 0 ∧ d.slotsz % 65536 = 0 ∧ 2 ≤ d.nslot ∧ d.codec ≤ 4 ∧ d.shift ≤ 31 ∧ d.ofmt ≤ 1 ∧ 1 ≤ d.period ∧ d.ctx < 4096 ∧ d.reladdr % 8 = 0
  then some d else none

/-- The access of a VIE command (R390, R442). -/
def vieCmdAccess (c : Cmd) : Access := ⟨c.part, c.lq, c.ctx, masterVie, .read, .plain, c.q⟩
/-- The access of the VIE for a stream (R384, R442; log 37). -/
def vieAccess (s : State) (n : Nat) (x : Stream) : Access := ⟨x.part, s.lowestLq x.part, x.desc.ctx, masterVie, .read, .plain, 4 + n⟩

/-- What the VIE has read of peers by an access is used up. -/
def State.dropOwnReads (s : State) (a : Access) : State := s.dropReads fun e => e.isOf a

/-- The checks of a class 9 word at issue that the part decides (R389). -/
def vieCheck (s : State) (c : Cmd) : Option (Nat × Nat) := if s.numStreams ≤ bits c.word 9 0 then some (codeIllegal, 0) else none

/-- VOPEN (R390). -/
def vieOpen (s : State) (c : Cmd) : WordResult :=
  let n := bits c.word 9 0
  let x := s.streamOf n
  if x.st ≠ .closed ∧ x.part ≠ c.part then .aborted s c codePermission 0
  else if c.s.toNat % 64 ≠ 0 then .aborted s c codeAlignment c.s.toNat
  else if x.st ≠ .closed then .aborted s c codeIllegal 0
  else
    let s := s.struck (vieCmdAccess c) c.s.toNat
    match engineRead s (vieCmdAccess c) (c.s.toNat % 2 ^ 57) 64 with
    | .wait k => .wait (s.noteHold k) .port 0 0 0
    | .fault code v => .aborted (s.dropOwnReads (vieCmdAccess c)) c code v
    | .done bs =>
      let s := s.dropOwnReads (vieCmdAccess c)
      match streamDesc bs with
      | none => .aborted s c codeIllegal (c.s.toNat % 2 ^ 57)
      | some d => .completed (s.setStream n { Stream.init with st := .opened, part := c.part, decoder := freeDecoder s, desc := d }) c

/-- The input that a VBIND names (R388, R390): its launch with what stands there, where it is a stream input of a placed instance of a launch in the
stream's context. -/
def bindTarget (s : State) (x : Stream) (part v : Nat) : Option (StreamTarget × Launch × Region) :=
  if bits v 63 35 ≠ 0 ∨ bits v 31 26 ≠ 0 ∨ bits v 15 4 ≠ 0 then none
  else
    match s.launchOfCtx x.desc.ctx with
    | none => none
    | some (n, l) =>
      if l.part ≠ part then none
      else
        match (l.stages[bits v 25 16]?).bind fun g => g.insts[bits v 34 32]? with
        | none => none
        | some rid =>
          match s.region? rid with
          | none => none
          | some r =>
            match r.inputs.find? fun e => bits e.2.imm.toNat 3 0 = bits v 3 0 with
            | some (_, f) => if bits f.imm.toNat 12 5 = 255 then some (⟨n, bits v 25 16, bits v 34 32, bits v 3 0⟩, l, r) else none
            | none => none

/-- VBIND (R390). -/
def vieBind (s : State) (c : Cmd) : WordResult :=
  let n := bits c.word 9 0
  let x := s.streamOf n
  if x.st ≠ .closed ∧ x.part ≠ c.part then .aborted s c codePermission 0
  else if x.st ≠ .opened ∨ 2 ^ 40 ≤ c.t.toNat then .aborted s c codeIllegal 0
  else
    match bindTarget s x c.part c.s.toNat with
    | none => .aborted s c codePermission 0
    | some (t, l, r) =>
      if ((r.block?).map fun b => b.tshift) ≠ some x.desc.shift ∨ l.rcd.det = true then .aborted s c codeIllegal 0
      else .completed (s.setStream n { x with st := .bound, target := t, bound := c.t.toNat }) c

/-- VCLOSE (R390). -/
def vieClose (s : State) (c : Cmd) : WordResult :=
  let n := bits c.word 9 0
  let x := s.streamOf n
  if x.st ≠ .closed ∧ x.part ≠ c.part then .aborted s c codePermission 0
  else
    match x.st with
    | .opened => .completed (s.setStream n { x with st := .closed, busy := [], queue := [], taken := [] }) c
    | .bound => .accepted (s.setStream n { x with st := .closing, closeCmd := some c })
    | _ => .aborted s c codeIllegal 0

/-- The value VSTAT answers (R390). -/
def vieStat (x : Stream) (part sel : Nat) : Word64 :=
  let st := match x.st with
    | .closed => 0
    | .opened => 1
    | .bound => 2
    | .closing => 3
  if x.st = .closed ∨ x.part ≠ part then 0
  else
    match sel with
    | 0 => BitVec.ofNat 64 (st * 2 ^ 62 + x.part * 2 ^ 58 + x.decoder * 2 ^ 54)
    | 1 => BitVec.ofNat 64 x.ridx
    | 2 => x.delivered
    | 3 => x.dropStale
    | 4 => x.dropFull
    | 5 => x.dropOrder
    | 6 => x.dropSize
    | _ => x.err

/-- VOPEN (R390). -/
def execVopen (h : Hdr) (o : OpE) (s : State) : Result := engineWord (encodeSeq 0x90 h (.formatE o)) h o s (vieCheck s) vieOpen
/-- VBIND (R390). -/
def execVbind (h : Hdr) (o : OpE) (s : State) : Result := engineWord (encodeSeq 0x91 h (.formatE o)) h o s (vieCheck s) vieBind
/-- VCLOSE (R390). -/
def execVclose (h : Hdr) (o : OpE) (s : State) : Result := engineWord (encodeSeq 0x92 h (.formatE o)) h o s (vieCheck s) vieClose
/-- VSTAT (R390). -/
def execVstat (h : Hdr) (o : OpE) (s : State) : Result :=
  engineWord (encodeSeq 0x93 h (.formatE o)) h o s (vieCheck s) fun s c =>
    .retire (s.setQueue c.lq c.q ((s.queueOf c.lq c.q).setReg (bits c.word 79 75) (vieStat (s.streamOf (bits c.word 9 0)) c.part (bits c.word 50 48)))) .next

/-! ## The ring -/

/-- An undecodable access unit (R386): the ring is discarded up to the write index last read. -/
def Stream.skipTo (x : Stream) (widx : Nat) : Stream := { x with ridx := alignUp 16 widx, err := x.err + 1, skips := x.skips + 1 }

/-- ACCESS_UNIT_TAKEN (R384, R386): a bound stream's next access unit, once the whole of it lies below the write index. An access that faults leaves
the VIE where it is; a poisoned header is one that cannot be decoded (log 50). -/
def execAccessUnitTaken (n : Nat) (decodes : Bool) (s : State) : Result :=
  let x := s.streamOf n
  if x.st ≠ .bound then .next s
  else
    let a := vieAccess s n x
    let ring := (x.desc.ring + x.ridx % x.desc.rsize) % 2 ^ 57
    let s := s.struckIn a [(x.desc.widx, 8), (ring, 16)]
    match s.readVa a (x.desc.widx % 2 ^ 57) 8, s.readVa a ring 16 with
    | .done (wb, false), .done (hb, bad) =>
      let w := ofBytes wb
      let len := ofBytes ((hb.drop 8).take 4)
      let s := s.dropOwnReads a
      if w < x.ridx + 16 then .next s
      else if bad ∨ ofBytes (hb.drop 12) ≠ 0 ∨ len = 0 ∨ x.desc.rsize - 16 < len then .next (s.setStream n (x.skipTo w))
      else if w < x.ridx + 16 + len then .next s
      else if decodes then .next (s.setStream n { x with ridx := alignUp 16 (x.ridx + 16 + len), taken := x.taken ++ [(ofBytes (hb.take 8), x.skips)] })
      else .next (s.setStream n (x.skipTo w))
    | .wait k, _ => .next (s.noteHold k)
    | .done _, .wait k => .next (s.noteHold k)
    | _, _ => .next (s.dropOwnReads a)

/-! ## Frames -/

/-- Bytes of a row of samples (R385). -/
def frameRow (f : Frame) (d : StreamDesc) : Nat := if d.ofmt = 1 then 2 * f.width else f.width
/-- The pitch of a frame (R385). -/
def framePitch (f : Frame) (d : StreamDesc) : Nat := alignUp 64 (frameRow f d)

/-- Rows of a plane written at their pitch (R385). -/
def writePlane (a : Access) (va pitch len : Nat) : Nat → Nat → List Byte → State → Access.Answer State
  | 0, _, _, s => .done s
  | n + 1, r, bs, s =>
    match s.writeVa a ((va + pitch * r) % 2 ^ 57) (padTo len bs) with
    | .done s1 => writePlane a va pitch len n (r + 1) (bs.drop len) s1
    | x => x

/-- The frame token (R386); `disc` says whether it is the first frame after a skip. -/
def frameToken (x : Stream) (f : Frame) (lo hi va fseq : Nat) (disc : Bool) : Token :=
  let l := fun n => BitVec.ofNat 36 (n % 2 ^ 32)
  { ctx := x.desc.ctx, lo := lo, hi := hi, kind := .data, interp := false, level := 0, pred := .none, poison := false, taint := false
    lanes := ⟨l va, l (va / 2 ^ 32), l fseq, l (f.width % 2 ^ 16 + f.height % 2 ^ 16 * 2 ^ 16), l (framePitch f x.desc),
      l (b2n f.concealed + 2 * b2n disc), l f.capns.toNat, l (f.capns.toNat / 2 ^ 32)⟩ }

/-- A busy slot whose frame the release word has passed is free (R385); a word that cannot be read has released nothing (log 50). -/
def releaseSlot (s : State) (n : Nat) (x : Stream) (slot : Nat) : Access.Answer Stream :=
  match NatMap.find? x.busy slot with
  | none => .done x
  | some fseq =>
    match s.readVa (vieAccess s n x) (x.desc.reladdr % 2 ^ 57) 8 with
    | .done (bs, bad) => .done (if !bad && decide (fseq < ofBytes bs) then { x with busy := NatMap.erase x.busy slot } else x)
    | .wait k => .wait k
    | .fault _ _ => .done x

/-- The write of a frame's planes at its slot (R385 step 4). -/
def writeFrame (s : State) (n : Nat) (x : Stream) (f : Frame) (va : Nat) : Access.Answer State :=
  let a := vieAccess s n x
  let p := framePitch f x.desc
  let len := frameRow f x.desc
  match writePlane a va p len f.height 0 f.luma s with
  | .done s1 => writePlane a ((va + p * f.height) % 2 ^ 57) p len (f.height / 2) 0 f.chroma s1
  | r => r

/-- A frame whose write faults (R216, R385): nothing of the failing write is performed and the frame is dropped, with no counter since the spec gives none
(log 50). The command of the stream that is under way, a VCLOSE that waits, aborts and leaves the stream bound (R216, R390). -/
def frameFault (s : State) (n : Nat) (x : Stream) (code va : Nat) : State :=
  match x.closeCmd with
  | some c => if x.ended then s.setStream n x else (s.setStream n { x with st := .bound, closeCmd := none }).abort c code va
  | none => s.setStream n x

/-- The token of a frame enters the buffer of its input (R385 step 5, R386); that of an input that is gone is queued for nobody (R390). -/
def queueFrame (s : State) (n : Nat) (t : Token) : State :=
  let x := s.streamOf n
  if x.ended then s else s.setStream n { x with queue := x.queue ++ [t], queuedHi := t.hi }

/-- Steps 3 to 5 of R385 for a frame that fits its slot; none where an access must wait. Where the slot lies at a
peer the token waits until the write has been performed there (R206, R386). -/
def placeFrame (s : State) (n : Nat) (x : Stream) (f : Frame) (lo hi : Nat) (disc : Bool) : OrWait :=
  let slot := x.k % x.desc.nslot
  match releaseSlot s n x slot with
  | .wait k => .error k
  | .fault _ _ => .ok (s.setStream n x)
  | .done x1 =>
    let s := s.dropOwnReads (vieAccess s n x)
    if (NatMap.find? x1.busy slot).isSome then .ok (s.setStream n { x1 with dropFull := x1.dropFull + 1 })
    else
      let va := (x1.desc.fbuf + slot * x1.desc.slotsz) % 2 ^ 57
      match writeFrame s n x1 f va with
      | .wait k => .error k
      | .fault code v => .ok (frameFault s n x1 code v)
      | .done s1 =>
        let t := frameToken x1 f lo hi va x1.k disc
        let s2 := s1.setStream n { x1 with busy := NatMap.insert x1.busy slot x1.k, k := x1.k + 1 }
        .ok (if s1.nextId = s.nextId then queueFrame s2 n t else s2.ownedBy s (.frame n s.nextId t))

/-- The largest frame a decoder handles, in pixels (R382). -/
def frameFits (f : Frame) : Bool := decide (f.width ≤ 4096) && decide (f.height ≤ 2304)

/-- Steps 1 to 5 of R385 for a frame; none where an access must wait. -/
def decodedFrame (s : State) (n : Nat) (x : Stream) (f : Frame) (disc : Bool) : OrWait :=
  let lo := f.capns.toNat / 2 ^ x.desc.shift
  let hi := lo + x.desc.period
  if 0xFFFFFFFFFE < hi ∨ lo < x.lastHi then .ok (s.setStream n { x with dropOrder := x.dropOrder + 1 })
  else
    let y := { x with lastHi := hi }
    if 2 * y.desc.slotsz < 3 * (framePitch f y.desc * f.height) then .ok (s.setStream n { y with dropSize := y.dropSize + 1 })
    else placeFrame s n y f lo hi disc

/-- VIE_FRAME_DECODED (R382, R385, R386): a decoder puts out the frame of an access unit it has taken; the first frame whose unit was taken after a skip is
marked (log 50). A decoder puts out no larger frame than it handles: a unit that holds one is not decodable, which ACCESS_UNIT_TAKEN says. -/
def execVieFrameDecoded (n : Nat) (f : Frame) (s : State) : Result :=
  let x := s.streamOf n
  if (x.st ≠ .bound ∧ x.st ≠ .closing) ∨ !frameFits f then .next s
  else
    match takeFirst (fun t => decide (t.1 = f.capns.toNat)) x.taken with
    | none => .next s
    | some (u, rest) =>
      let y := { x with taken := rest, err := if f.concealed then x.err + 1 else x.err, shown := max x.shown u.2 }
      .next (OrWait.orElse ((decodedFrame s n y f (decide (x.shown < u.2))).map fun t => closeEnded t n) s)

/-- The INPUT that a stream is bound to (R387): its region, its slot and its word. -/
def boundInput (s : State) (x : Stream) : Option (Nat × Region × Nat × Fab) := do
  let l ← s.launch? x.target.launch
  let g ← l.stages[x.target.stage]?
  let rid ← g.insts[x.target.inst]?
  let r ← s.region? rid
  let e ← r.inputs.find? fun e => decide (bits e.2.imm.toNat 3 0 = x.target.input)
  return (rid, r, e.1, e.2)

/-- VIE_FRAME_JUDGE (R138, R387, R390): in the cycle in which its bound INPUT would fire, the next frame token of a stream is judged there; a closing
stream with no frame left sends its END. -/
def execVieFrameJudge (n : Nat) (s : State) : Result :=
  let x := s.streamOf n
  if (x.st ≠ .bound ∧ x.st ≠ .closing) ∨ x.ended then .next s
  else
    match boundInput s x with
    | none => .next s
    | some (rid, r, slot, f) =>
      if !r.live ∨ r.launch ≠ some x.target.launch ∨ !s.inTurn (r.lqAt slot) ∨ (r.pendingReplay.any fun e => decide (e.1 = x.target.input)) = true ∨
        (selectFiring s rid r (r.placeOf slot).1).map (·.1) ≠ some slot then .next s
      else .next (judgeFrame (issued s rid) rid slot { r with stuck := 0, stuckAt := none } f n x)

end Sys2Proof.Machine
end

