-- ==== Sys2Proof/Machine/Links.lean ====
section
/-! DEFINITION. Cardaow Link (spec 20 R447, R452 to R454; 21 R461): flits received, requests of peers and the replay filter, replies, resends,
the loss of a port, time-sync exchanges. -/

namespace Sys2Proof.Machine

/-! ## The loss of a port -/

/-- LINK_LOST (R391). -/
def codeLinkLost : Nat := 0x43

/-- The peer indices of a partition whose entry names a port (R448). -/
def Partition.peersOn (x : Partition) (k : Nat) : List Nat :=
  (x.peers.filter fun e => bit e.2.toNat 63 && decide (bits e.2.toNat 41 36 = k)).map (·.1)

/-- A partition learns of a lost port (R454): an event, and its requests to the port are refused until the entry is rewritten. -/
def tellLost (k : Nat) (s : State) (p : Nat) : State :=
  let x := s.partOf p
  if (x.peersOn k).isEmpty then s
  else (s.setPart p { x with lost := (x.peersOn k).foldl (fun m n => NatMap.set false m n true) x.lost }).addEvent p codeLinkLost k 0xFF

/-- The collectives of a partition over a lost port end (R342), and what waited for their groups acts. -/
def loseCollectives (k : Nat) (s : State) (p : Nat) : State :=
  if ((s.partOf p).peersOn k).isEmpty then s
  else
    let gs := (s.partOf p).insts.map (·.1)
    let s1 := cutCollectives k p gs s
    settleRoot p ((s1.partOf p).cruRoot.length + 1) s1

/-- What a delivery of a collective that a lost port would end must wait for. -/
def loseWaits (s : State) : Option (Option PageHold) :=
  s.parts.findSome? fun e => e.2.insts.findSome? fun i => if i.2.st = .closed then none else instWaits s e.1 i.1

/-- The collectives of a partition go on that wait for nothing but writes that peers have now performed (R206, R346): CRFIXes complete, the roots elsewhere are
told. -/
def settleAll (s : State) (p : Nat) : State :=
  tellPerformed (settleParting p (((s.partOf p).insts.map (·.1)).foldl (fun s g => settleFixes p g s) s)) p

/-- The end of the writes that a command has sent to peers: they have been performed, or one of them was not and the command has aborted. -/
def settleEngines (s : State) (c : Cmd) (performed : Bool) : State :=
  if c.opcode / 16 = 6 then settleAll s c.part else if c.opcode / 16 = 7 then settleTree s c performed else s

/-- A command one of whose writes a peer has performed: with the last of them it completes (R206, R278, R288, R346, R352). -/
def settleCommand (s : State) (c : Cmd) : State :=
  if s.awaitsPeer c then s
  else
    let s1 := settleEngines s c true
    if s1.owing.contains c then { s1 with owing := s1.owing.erase c }.signal c.lq c.q c.ctx c.word c.sig else s1

/-- Whether requests of an owner are still to be answered. -/
def State.waitsFor (s : State) (o : PeerOwner) : Bool := s.peerOut.any fun x => decide (x.owner = o)

/-- Nobody waits any more for the requests of an owner. -/
def State.disown (s : State) (o : PeerOwner) : State :=
  { s with peerOut := mapWhere (fun x => decide (x.owner = o)) (fun x => { x with owner := .nobody }) s.peerOut }

/-- A peer has performed a write: with the last of its writes, whoever waits for them goes on (R206, R386, R441, R446). An STQ finds it in the next turn
of its queue, and what the host has posted at the next boundary of cycles. -/
def peerPerformed (s : State) (o : PeerOwner) : State :=
  match o with
  | .copy lq ch _ => copyAnswered s lq ch
  | .command c _ => settleCommand s c
  | .vector p v _ => if s.waitsFor o then s else s.raiseVector p v
  | .done n => if s.waitsFor o then s else recordPaid s n
  | .frame n _ t => if s.waitsFor o then s else queueFrame s n t
  | _ => s

/-- The slot that a frame token took is free again: its frame is dropped (R385, R386). -/
def Stream.freeSlotOf (x : Stream) (t : Token) : Stream := { x with busy := x.busy.filter fun e => decide (e.2 % 2 ^ 32 ≠ (t.lanes.get 2).toNat) }

/-- A write that a peer refuses, or that is lost with its port (R259, R295, R454): the STQ traps, the command aborts, the frame is dropped, the completion record
gives way to an event (R48), the fault record is dropped (R393), the host or the system core learns the code (R216). -/
def peerFailed (s : State) (o : PeerOwner) (code : Nat) : State :=
  match o with
  | .store lq q ctx va =>
    let x := s.queueOf lq q
    let word := match fetchWord s lq q with
      | .done w => w
      | _ => 0
    if x.st = .running ∧ x.phase = .storing ∧ x.ctx = ctx then s.trap lq q code word va 0 else s
  | .copy lq ch va => copyFailed s lq ch code va
  | .command c va => settleEngines (writeFailed s c code va) c false
  | .done n => recordLost (s.disown o) n code
  | .frame n _ t =>
    frameFault (s.disown o) n ((s.streamOf n).freeSlotOf t) code ((t.lanes.get 0).toNat + 2 ^ 32 * (t.lanes.get 1).toNat)
  | .vector _ _ _ => s.disown o
  | .host _ => s.emit (.hostFault code)
  | .core n => s.emit (.coreFault n code)
  | _ => s

/-- The reply to the read of a run of bytes (R448): who reads finds it in its next turn. -/
def State.readAnswered (s : State) (id : Nat) (st : ReadState) : State :=
  { s with peerReads := mapWhere (fun e => decide (e.id = id)) (fun e => { e with st := st }) s.peerReads }

/-- Whether two requests are writes of one word or command. -/
def PeerOwner.same : PeerOwner → PeerOwner → Bool
  | .store lq q _ _, .store lq' q' _ _ => decide (lq = lq') && decide (q = q')
  | .copy lq ch _, .copy lq' ch' _ => decide (lq = lq') && decide (ch = ch')
  | .command c _, .command d _ => decide (c = d)
  | .passed k bs _ _ _, .passed k' bs' _ _ _ => decide (k = k') && decide (bs = bs')
  | a, b => decide (a = b)

/-! ## The replay filter of a source -/

/-- The reply to a peer's request (R452; log 53): a reply of TYPE 4 to a read or an atomic, an acknowledgement of TYPE 5 to a write, a
reduction or a CRU transaction. -/
def replyTo (s : State) (h : FlitHeader) (op : Nat) (data : List Byte) : List Byte :=
  (FlitHeader.flits
    { type := if h.type = 0 ∨ h.type = 2 then 4 else 5, srcPart := h.dstPart, dstPart := h.srcPart, node := s.sysNode, seq := h.seq, off := h.off
      fmt := h.fmt, op := op, lmask := h.lmask, data := data }).flatten

/-- Bytes cut into flits of 64. -/
def toFlits (bs : List Byte) : List (List Byte) := if bs.length ≤ 64 then [bs] else [bs.take 64, bs.drop 64]

/-- The memory of the replay filter for the source of a request (R453). -/
def State.sourceOf (s : State) (k : Nat) (h : FlitHeader) : SeqSource :=
  (s.sources.find? fun x => decide (x.port = k) && decide (x.node = h.node) && decide (x.part = h.srcPart)).getD ⟨k, h.node, h.srcPart, none, []⟩

/-- Put the memory of a source. -/
def State.putSource (s : State) (x : SeqSource) : State :=
  { s with sources := s.sources.filter (fun y => !(decide (y.port = x.port) && decide (y.node = x.node) && decide (y.part = x.part))) ++ [x] }

/-- How a sequence number stands to the window of the last 1,024 (R453): in it, newer, or older. -/
inductive SeqPlace where
  | within | newer | older
deriving DecidableEq, Repr

/-- Where a sequence number lies. -/
def SeqSource.place (x : SeqSource) (seq : Nat) : SeqPlace :=
  match x.newest with
  | none => .newer
  | some n =>
    if (n + 2 ^ 32 - seq) % 2 ^ 32 < 1024 then .within
    else if (seq + 2 ^ 32 - n) % 2 ^ 32 < 2 ^ 31 then .newer
    else .older

/-- A reply enters the cache; numbers that leave the window leave the cache. -/
def SeqSource.remember (x : SeqSource) (seq : Nat) (reply : List Byte) : SeqSource :=
  let n := if x.place seq = .newer then seq else x.newest.getD seq
  { x with newest := some n, cache := (NatMap.insert x.cache seq reply).filter fun e => decide ((n + 2 ^ 32 - e.1) % 2 ^ 32 < 1024) }

/-- A request is answered: its reply is cached and sent (R453). -/
def State.reply (s : State) (k : Nat) (h : FlitHeader) (op : Nat) (data : List Byte) : State :=
  let bs := replyTo s h op data
  (s.putSource ((s.sourceOf k h).remember h.seq bs)).sendFlits k (toFlits bs)

/-- The op field of a reply: performed, poisoned data, refused with the code in its data (log 53). -/
def replyPoison : Nat := opPoison
/-- A refused request. -/
def replyRefused : Nat := 0xF

/-- Bytes given with their offsets, as one run from the first to the last, zero where none is given. -/
def fillRun (got : List (Nat × Byte)) : List Byte :=
  let os := got.map (·.1)
  let lo := os.foldl min (os.headD 0)
  (List.range (os.foldl max 0 + 1 - lo)).map fun i => BitVec.ofNat 8 (gotAt got (lo + i))

/-- The header of the flits of a request that has arrived. -/
def headerOf (bs : List Byte) : FlitHeader := parseHeader (bs.take 64) (bs.drop 64)

/-- A peer's request has been performed whole or refused (R209, R447): its reply, with the bytes that a read or an atomic finds, zero where they are poisoned. -/
def State.answer (s : State) (k : Nat) (h : FlitHeader) (got : List (Nat × Byte)) (bad : Bool) : Option Nat → State
  | some c => s.reply k h replyRefused (toBytes 1 c)
  | none =>
    let data := if h.type = 0 ∨ h.type = 2 then (if bad then (fillRun got).map fun _ => 0 else fillRun got) else []
    s.reply k h (if bad then replyPoison else 0) data

/-- Part of a request that this device passed on to another peer has been answered (R447): with the last part the source has its reply. -/
def passedAnswered (s : State) (k : Nat) (bs : List Byte) (got : List (Nat × Byte)) (bad : Bool) (code : Option Nat) : State :=
  let o : PeerOwner := .passed k bs got bad code
  if s.peerOut.any fun x => x.owner.same o then { s with peerOut := mapWhere (fun x => x.owner.same o) (fun x => { x with owner := o }) s.peerOut }
  else s.answer k (headerOf bs) got bad code

/-- Bytes of a part with their offsets in the access. -/
def Part.placed (p : Part) (bs : List Byte) : List (Nat × Byte) := (List.range bs.length).map fun i => (p.off + i, bs.getD i 0)

/-- A request lost with its port (R454): one of the fabric, or one passed on, completes with poison and zero lanes; a read or a write of a queue or an engine
fails. -/
def requestLost (s : State) (o : PeerOut) : State :=
  match o.owner with
  | .request => partDone s o.acc (List.replicate o.acc.len 0) true
  | .read => s.readAnswered o.acc.id (.refused codeUncorrectable)
  | .passed k bs got _ c => passedAnswered s k bs (got ++ o.acc.placed (List.replicate o.acc.len 0)) true c
  | w => peerFailed s w codeUncorrectable

/-- Whether each request of an owner ends on its own: those of a word or command fail once. -/
def PeerOwner.each : PeerOwner → Bool
  | .request => true
  | .read => true
  | .passed _ _ _ _ _ => true
  | .nobody => true
  | _ => false

/-- Requests lost with their port (R454); a word or command fails once. -/
def failAll (gone : List PeerOut) (s : State) : State :=
  (gone.foldl (fun (a : State × List PeerOwner) o =>
    if !o.owner.each && a.2.any (fun w => w.same o.owner) then a else (requestLost a.1 o, o.owner :: a.2)) (s, [])).1

/-- A port is lost (R454): its partitions learn of it, every outstanding request over it completes with poison and zero lanes or aborts its command, and
collectives over it end (R342). -/
def losePort (s : State) (k : Nat) : State :=
  let s0 := s.setPort k { s.portOf k with st := .lost, resent := false, header := none, arrived := [], cru := [], tsync := none }
  let s1 := (List.range 16).foldl (loseCollectives k) s0
  let s2 := (List.range 16).foldl (tellLost k) s1
  let gone := s2.peerOut.filter fun o => o.port = k
  gone.foldl (fun s o => s.sendNext o.part o.node) (failAll gone { s2 with peerOut := s2.peerOut.filter fun o => o.port ≠ k })

/-- A port is lost, once no delivery of a collective that this ends must wait. -/
def tryLose (s : State) (k : Nat) : State :=
  match loseWaits s with
  | some h => s.noteHold h
  | none => losePort s k

/-- LINK_RETRAIN_TIMEOUT (R452): a port that has not retrained within 1 ms is lost. -/
def execLinkRetrainTimeout (k : Nat) (s : State) : Result :=
  s.unlessFailed fun s => let x := s.portOf k; if x.st = .retraining ∧ 1000000 ≤ s.elapsed x.since then tryLose s k else s

/-- PORT_RETRAINED (R452): a port that retrains within 1 ms returns to service. -/
def execPortRetrained (k : Nat) (s : State) : Result :=
  s.unlessFailed fun s => let x := s.portOf k; if x.st = .retraining ∧ s.elapsed x.since ≤ 1000000 then s.setPort k { x with st := .up } else s

/-- Whether a port and a sequence number name an outstanding request. -/
def PeerOut.isAt (o : PeerOut) (k seq : Nat) : Bool := decide (o.port = k) && decide (o.seq = seq)

/-- LINK_RESEND_TIMEOUT (R453): 20 µs after sending, the same flits go again; a request that has been resent three times loses the port. -/
def execLinkResendTimeout (k seq : Nat) (s : State) : Result :=
  s.unlessFailed fun s =>
    match s.peerOut.find? fun o => o.isAt k seq && !o.held && decide (20000 ≤ s.elapsed o.sentAt) with
    | none => s
    | some o =>
      if 3 ≤ o.resends then tryLose s k
      else { s with peerOut := mapWhere (fun x => decide (x = o)) (fun x => { x with resends := x.resends + 1, sentAt := s.dtime }) s.peerOut }.sendFlits k o.flits

/-! ## Time sync -/

/-- A time-sync request is answered (R461): T2 at receipt, T3 at transmit. -/
def answerTsync (s : State) (k t1 : Nat) : State := s.sendFlits k [tsyncFlit s 1 t1 s.dtime s.dtime]

/-- A time-sync reply is taken (R461): T1 to T4 and a fifth word of 1 at the address of the exchange. A block that does not lie in HBM is
not written (log 54). -/
def takeTsync (s : State) (k t1 t2 t3 : Nat) : State :=
  let x := s.portOf k
  match x.tsync with
  | none => s
  | some (pa, _) =>
    let s1 := s.setPort k { x with tsync := none }
    if rangeOf s pa = .hbm ∧ rangeOf s (pa + 39) = .hbm then
      s1.writeAt pa (toBytes 8 t1 ++ toBytes 8 t2 ++ toBytes 8 t3 ++ toBytes 8 s.dtime ++ toBytes 8 1)
    else s1

/-- TSYNC_REQUEST_ARRIVAL (R461). -/
def execTsyncRequestArrival (k : Nat) (t1 : Word64) (s : State) : Result := s.unlessFailed fun s => answerTsync s k t1.toNat

/-- TSYNC_REPLY (R461): a port that is lost writes no words. -/
def execTsyncReply (k : Nat) (t1 t2 t3 : Word64) (s : State) : Result :=
  s.unlessFailed fun s => if (s.portOf k).st = .lost then s else takeTsync s k t1.toNat t2.toNat t3.toNat

/-! ## Replies -/

/-- A fabric request that a peer refuses faults (R226, R251): an ATOM, RED or store that meets poison or a lost bank there faults its region. -/
def requestRefused (s : State) (p : Part) (code : Nat) : State :=
  match s.pending.find? fun x => x.req.id = p.req with
  | none => partDone s p [] false
  | some x => faultAll s x.req.id code x.req.addr 7 (decide (code = codeUncorrectable) && decide (x.req.want ≠ .read))

/-- A reply or acknowledgement reaches who waits for its request (R206, R226, R447, R453); one for a request no longer outstanding is discarded. A request of its
sequence that waits for room leaves. -/
def takeReply (s : State) (k : Nat) (h : FlitHeader) : State :=
  match s.peerOut.find? fun o => o.isAt k h.seq && decide (o.part = h.dstPart) && decide (o.node = h.node) && !o.held with
  | none => s
  | some o =>
    let s1 := { s with peerOut := s.peerOut.filter fun x => x ≠ o }.sendNext o.part o.node
    let bad := decide (h.op = replyPoison)
    match o.owner, if h.op = replyRefused then some (ofBytes (h.data.take 1)) else none with
    | .request, some c => requestRefused s1 o.acc c
    | .request, none => partDone s1 o.acc h.data bad
    | .read, some c => s1.readAnswered o.acc.id (.refused c)
    | .read, none => s1.readAnswered o.acc.id (.got h.data bad)
    | .passed j bs got b c, some e => passedAnswered s1 j bs got b (c.or (some e))
    | .passed j bs got b c, none => passedAnswered s1 j bs (got ++ o.acc.placed h.data) (b || bad) c
    | w, some c => peerFailed s1 w c
    | w, none => if bad then peerFailed s1 w codeUncorrectable else peerPerformed s1 w

/-! ## Flits -/

/-- Whether the CRC of a flit holds (R452). -/
def flitIntact (f : List Byte) : Bool := decide (f.length = 64) && decide (flitOf (f.take 60) = f)

/-- A whole transaction has arrived (R452): a request, or what a CRU sends another, waits at its port; a reply is taken; a link control flit is a
time sync. -/
def transaction (s : State) (k : Nat) (h cont : List Byte) : State :=
  let x := s.portOf k
  let f := parseHeader h cont
  let word := fun i => ofBytes ((h.drop i).take 8)
  if f.type ≤ 3 ∨ f.type = 6 then s.setPort k { x with arrived := x.arrived ++ [h ++ cont] }
  else if f.type ≤ 5 then takeReply s k f
  else if f.type = 7 then
    if ofBytes ((h.drop 24).take 1) = 0 then answerTsync s k (word 32)
    else if ofBytes ((h.drop 24).take 1) = 1 then takeTsync s k (word 32) (word 40) (word 48)
    else s
  else s

/-- A flit whose CRC holds (R452): a malformed header is dropped and counted; a header waits for its continuation. -/
def intactFlit (s : State) (k : Nat) (f : List Byte) : State :=
  let x := s.portOf k
  match x.header with
  | some h => transaction (s.setPort k { x with header := none }) k h f
  | none =>
    if 7 < ofBytes (f.take 1) ∨ ofBytes ((f.drop 18).take 6) ≠ 0 then s.setPort k { x with bad := x.bad + 1 }
    else if ofBytes ((f.drop 17).take 1) = 0 then transaction s k f []
    else s.setPort k { x with header := some f }

/-- LINK_FLIT_RECEIVE (R452): a flit whose CRC fails is resent once; an intact resend counts as transient; a second failure retrains the
port. -/
def execLinkFlitReceive (k : Nat) (f : List Byte) (s : State) : Result :=
  s.unlessFailed fun s =>
    let x := s.portOf k
    if s.numPorts ≤ k ∨ x.st ≠ .up then s
    else if !flitIntact f then
      if x.resent then s.setPort k { x with st := .retraining, since := s.dtime, resent := false, header := none }
      else s.setPort k { x with resent := true }
    else if x.resent then intactFlit (s.setPort k { x with resent := false, transient := x.transient + 1 }) k f
    else intactFlit s k f

/-! ## Requests of peers -/

/-- What the request of a peer comes to: it waits (a page on hold, a bank being evacuated), is refused with a code, is performed, with the bytes it has found
by their offsets and whether they are poisoned, or has been passed on, in part or whole, to other peers. -/
inductive PeerResult where
  | wait (h : Option PageHold)
  | refused (code : Nat)
  | done (s : State) (got : List (Nat × Byte)) (poison : Bool)
  | passed (s : State)
deriving DecidableEq, Repr

/-- The offsets of the bytes a peer's request covers (log 31). -/
def FlitHeader.offs (h : FlitHeader) (f : StFmt) : List Nat :=
  if h.type = 0 then List.range (ofBytes (h.data.take 1))
  else if h.lmask = 0 then List.range h.data.length
  else (((maskElems h.lmask).flatMap (elemOffs f 0)).foldr (fun o acc => insertBy (fun x => x) o acc) []).eraseDups

/-- What a peer's request asks (R443). -/
def FlitHeader.want (h : FlitHeader) : Want := if h.type = 0 then .read else if h.type = 1 then .write else .atm

/-- The lane type of a peer's atomic (R238; log 31). -/
def FlitHeader.lanes (h : FlitHeader) (f : StFmt) : LaneTy := if f.isFloat then .f else if bit h.op 3 then .n32 else .i32

/-- The code of element `e` in bytes given with their offsets. -/
def codeIn (f : StFmt) (got : List (Nat × Byte)) (e : Nat) : Nat :=
  match f with
  | .i4 => gotAt got (e / 2) / 2 ^ (4 * (e % 2)) % 16
  | _ => gotNum got (elemOffs f 0 e)

/-- The byte writes of a peer's write: its bytes as they are, or the elements it names (log 31). -/
def FlitHeader.writes (h : FlitHeader) (f : StFmt) : List ByteWrite :=
  if h.lmask = 0 then (List.range h.data.length).map fun i => ⟨i, 255, (h.data.getD i 0).toNat⟩
  else
    let o0 := (h.offs f).headD 0
    let got := (List.range h.data.length).map fun i => (o0 + i, h.data.getD i 0)
    (maskElems h.lmask).flatMap fun e => codeWrites f e (codeIn f got e)

/-- The byte writes of a peer's atomic, given the old bytes (R243). -/
def FlitHeader.updates (h : FlitHeader) (f : StFmt) (got : List (Nat × Byte)) : List ByteWrite :=
  let v := bytesLanes h.data
  (maskElems h.lmask).flatMap fun e =>
    let o := atomOperands (h.op % 8) e v
    match (updateElem (h.op % 8) f (h.lanes f) (gotNum got (elemOffs f 0 e)) o.1 o.2).1 with
    | some c => codeWrites f e c
    | none => []

/-- The bytes of parts by their offsets. -/
def partsGot (s : State) : List (Nat × Nat × Nat) → List (Nat × Byte)
  | [] => []
  | p :: ps => ((List.range p.2.2).zip (s.viewBytes 4096 p.1 p.2.2)).map (fun e => (p.2.1 + e.1, e.2)) ++ partsGot s ps

/-- Bytes written at each part of a peer's access. -/
def putParts (ws : List ByteWrite) (got : List (Nat × Byte)) : State → List (Nat × Nat × Nat) → State
  | s, [] => s
  | s, p :: ps =>
    let old := (List.range p.2.2).map fun i => BitVec.ofNat 8 (gotAt got (p.2.1 + i))
    putParts ws got (s.writeAt p.1 (partBytes ws p.2.1 old)) ps

/-- A peer's request is performed at the homes of its bytes in one step (R209, R447). -/
def performPeer (s : State) (h : FlitHeader) (f : StFmt) (ps : List (Nat × Nat × Nat)) : PeerResult :=
  let s1 := if h.type = 1 then s else ps.foldl (fun s p => readUpset s p.1) s
  let bad := decide (h.type ≠ 1) && ps.any fun p => s1.poisonedAt p.1 p.2.2
  let got := partsGot s1 ps
  if h.type = 0 then .done s1 got bad
  else if h.type = 1 then
    let s2 := putParts (h.writes f) got s1 ps
    .done (if h.op = opPoison then ps.foldl (fun s p => s.markGranule p.1 true) s2 else s2) [] false
  else if bad then .refused codeUncorrectable
  else .done (putParts (h.updates f got) got s1 ps) got false

/-- The part of a peer's request that lies at another peer goes on to it (R447, R448): the same operation on the elements or bytes of that part. -/
def passPart (h : FlitHeader) (f : StFmt) (o : PeerOwner) (s : State) (p : Nat × Nat × Nat) : State :=
  let o0 := (h.offs f).headD 0
  let mask := if h.lmask = 0 then 0 else partMask f h.lmask p.2.1 p.2.2
  let data := if h.type = 0 then toBytes 1 p.2.2 else if h.type = 1 then (h.data.drop (p.2.1 - o0)).take p.2.2 else h.data
  let s1 := { s with nextId := s.nextId + 1 }.sendPeer h.dstPart p.1 (if h.lmask = 0 then 0 else p.2.1) h.type h.op h.fmt mask data
    ⟨s.nextId, s.nextId, p.1, p.2.1, p.2.2⟩
  s1.ownedBy s o

/-- A peer's request whose bytes lie at other peers, in part or whole: it is performed on the bytes that are here, and goes on for the others. -/
def passOn (s : State) (k : Nat) (h : FlitHeader) (f : StFmt) (bs : List Byte) (ps : List (Nat × Nat × Nat)) : PeerResult :=
  let far := joinPeer s h.want (ps.filter fun p => inPeer s (p.1, p.2.2))
  match performPeer s h f (ps.filter fun p => !inPeer s (p.1, p.2.2)) with
  | .done s1 got bad => if far.isEmpty then .done s1 got bad else .passed (far.foldl (passPart h f (.passed k bs got bad none)) s1)
  | r => r

/-- The request of a peer (R199, R233, R238, R443, R447, R455): the window, alignment, translation and target are checked before it is performed. -/
def servePeer (s : State) (k : Nat) (h : FlitHeader) (bs : List Byte) : PeerResult :=
  let p := h.dstPart
  let x := s.partOf p
  let f := (StFmt.ofCode h.fmt).getD .i32
  let offs := h.offs f
  let va := (bits x.expbase.toNat 56 30 * 2 ^ 30 + h.off) % 2 ^ 57
  if x.busy || offs.any fun o => decide (bits x.expsize.toNat 13 0 * 2 ^ 30 ≤ h.off + o) then .refused codeDenied
  else if h.want = .atm ∧ !atomSupported (h.op % 8) f (h.lanes f) then .refused codeAtomicType
  else if h.lmask ≠ 0 ∧ !alignedFor f va then .refused codeAlignment
  else
    let a : Access := ⟨p, s.lowestLq p, 4096, 0x280 + k, h.want, .plain, 0⟩
    match cutRuns s a va (granuleRuns va offs) with
    | .hold v => .wait (some (a.holdAt s v))
    | .fault c _ _ => .refused c
    | .ok ps =>
      if h.want = .atm ∧ ps.any (fun q => decide (rangeOf s q.1 = .host)) then .refused codePermission
      else
        match runsStand s (ps.map fun q => (q.1, q.2.2)) with
        | some true => .wait none
        | some false => .refused codeUncorrectable
        | none => passOn s k h f bs ps

/-- Whether a CRU transaction is one of the same source and instance as another (R452). -/
def FlitHeader.sameMessage (h g : FlitHeader) : Bool :=
  decide (h.node = g.node) && decide (h.srcPart = g.srcPart) && decide (h.dstPart = g.dstPart) && decide (h.off = g.off)

/-- A CRU transaction (R342): it is kept until the message it belongs to is whole, which then acts in its partition. A partition under reset takes none. -/
def serveCru (s : State) (k : Nat) (h : FlitHeader) (bs : List Byte) : PeerResult :=
  let x := s.portOf k
  let mine := x.cru.filter fun b => h.sameMessage (headerOf b)
  if (s.partOf h.dstPart).busy then .refused codeDenied
  else
    match Config.cruNews ((mine ++ [bs]).map fun b => (headerOf b).data) with
    | none => .done (s.setPort k { x with cru := x.cru ++ [bs] }) [] false
    | some m =>
      match takeNews (s.setPort k { x with cru := x.cru.filter fun b => !h.sameMessage (headerOf b) }) h.dstPart ⟨k, h.node, h.srcPart⟩
        (m.about (h.off % 2 ^ 16) (h.off / 2 ^ 16)) with
      | .error w => .wait w
      | .ok t => .done t [] false

/-- What a request comes to. -/
def serve (s : State) (k : Nat) (h : FlitHeader) (bs : List Byte) : PeerResult := if h.type = 6 then serveCru s k h bs else servePeer s k h bs

/-- The oldest request of a port is performed, refused or passed on. -/
def answerPeer (s : State) (k : Nat) (h : FlitHeader) (bs : List Byte) : State :=
  let pop := fun (s : State) => s.setPort k { s.portOf k with arrived := (s.portOf k).arrived.drop 1 }
  match serve s k h bs with
  | .wait w => s.noteHold w
  | .refused c => (pop s).answer k h [] false (some c)
  | .done s1 got bad => (pop s1).answer k h got bad none
  | .passed s1 => pop s1

/-- Whether a request of a port has been passed on to another peer and awaits its answer (R447). -/
def isPassing (s : State) (k : Nat) (bs : List Byte) : Bool := s.peerOut.any fun o => o.owner.same (.passed k bs [] false none)

/-- PEER_REQUEST_ARRIVAL (R453): the oldest request at a port passes the replay filter: answered from the cache, performed, or dropped as
stale; one that is being performed at another peer is not performed again. -/
def execPeerRequestArrival (k : Nat) (s : State) : Result :=
  s.unlessFailed fun s =>
    let x := s.portOf k
    match x.arrived with
    | [] => s
    | bs :: rest =>
      let h := headerOf bs
      let src := s.sourceOf k h
      match src.place h.seq, NatMap.find? src.cache h.seq with
      | .older, _ => s.setPort k { x with arrived := rest, stale := x.stale + 1 }
      | .within, some r => (s.setPort k { x with arrived := rest }).sendFlits k (toFlits r)
      | _, _ => if isPassing s k bs then s.setPort k { x with arrived := rest } else answerPeer s k h bs

end Sys2Proof.Machine
end

