-- ==== Sys2Proof/Machine/HostPort.lean ====
section
/-! DEFINITION. The host interface (spec 20 R437, R438, R446, R447) and stair retirement (08 R221 to R225). -/

namespace Sys2Proof.Machine

/-! ## BAR0 of the PF -/

/-- The whole aligned words an access covers: none where it is not made of whole words. -/
def wordsOf (off n : Nat) : Option (List Nat) := if off % 8 = 0 ∧ n % 8 = 0 then some ((List.range (n / 8)).map fun i => off + 8 * i) else none

/-- The PF reads a word (R437): a register, or a free value where the address names none (log 55). -/
def pfWord (s : State) (a : Nat) : Word64 × State :=
  match regAt s a with
  | some r => (BitVec.ofNat 64 (readReg s r), afterRead s r)
  | none => s.freeValue

/-- The PF reads words. -/
def pfRead (s : State) : List Nat → List Byte × State
  | [] => ([], s)
  | a :: as' =>
    let r := pfWord s a
    let t := pfRead r.2 as'
    (toBytes 8 r.1.toNat ++ t.1, t.2)

/-- An access of the PF (R407, R437), which has all rights once the firmware has enabled it (R459). -/
def pfAccess (s : State) : HostAcc → State
  | .read off n =>
    match wordsOf off n with
    | some ws => let r := pfRead s ws; r.2.emit (.hostData r.1)
    | none => let r := s.freeBytes n; r.2.emit (.hostData r.1)
  | .write off data =>
    match wordsOf off data.length with
    | some ws => ws.foldl (fun s a => writeAddr s a (BitVec.ofNat 64 (ofBytes ((data.drop (a - off)).take 8)))) s
    | none => s

/-! ## BAR0 of a VF -/

/-- A word of BAR0 of the VF of a partition (R437): WIDX at a doorbell, the MSI-X table with every vector masked at reset, the pending
bits, zero elsewhere. -/
def vfWord (x : Partition) (w : Nat) : Nat :=
  if w < 64 then (NatMap.get .init x.lqs w).widx
  else if 0x200 ≤ w ∧ w < 0x280 then (NatMap.get (if w % 2 = 1 then 0x100000000 else 0) x.msixTable (w - 0x200)).toNat
  else if w = 0x300 then ((List.range 64).map fun v => b2n (NatMap.get false x.msixPend v) * 2 ^ v).foldl (· + ·) 0
  else 0

/-- A write of a word of BAR0 of a VF (R437, R440, R446): a doorbell; an MSI-X entry, the end of whose mask sends what is pending. -/
def vfWriteWord (s : State) (p w v : Nat) : State :=
  let x := s.partOf p
  if w < 64 then ringDoorbell s p w (v % 2 ^ 32)
  else if 0x200 ≤ w ∧ w < 0x280 then
    let s1 := s.setPart p { x with
      msixTable := NatMap.set (if w % 2 = 1 then 0x100000000 else 0) x.msixTable (w - 0x200) (BitVec.ofNat 64 (if w % 2 = 1 then v % 2 ^ 33 else v)) }
    if w % 2 = 1 then flushVector p s1 ((w - 0x200) / 2) else s1
  else s

/-- The words that bytes from an offset touch. -/
def touchedWords (off n : Nat) : List Nat := if n = 0 then [] else (List.range ((off + n - 1) / 8 + 1 - off / 8)).map (off / 8 + ·)

/-- Byte `i` of a word of BAR0 as a write leaves it. -/
def mergedByte (x : Partition) (off : Nat) (data : List Byte) (w i : Nat) : Byte :=
  let a := 8 * w + i
  if off ≤ a ∧ a < off + data.length then data.getD (a - off) 0 else BitVec.ofNat 8 (vfWord x w / 256 ^ i)

/-- An access of a VF to its BAR0 (R437). -/
def vfAccess (s : State) (p : Nat) : HostAcc → State
  | .read off n =>
    s.emit (.hostData ((List.range n).map fun i => BitVec.ofNat 8 (vfWord (s.partOf p) ((off + i) / 8) / 256 ^ ((off + i) % 8))))
  | .write off data =>
    (touchedWords off data.length).foldl
      (fun s w => vfWriteWord s p w (ofBytes ((List.range 8).map (mergedByte (s.partOf p) off data w)))) s

/-! ## CXL.mem -/

/-- The access of the host through the export window of a partition (R442, R447). -/
def cxlAccess (s : State) (p : Nat) : Access := ⟨p, s.lowestLq p, 4096, 0x231 + p, .read, .plain, 0⟩

/-- An access to memory by the host or a system core: what it brings its master, the write's acknowledgements by peers being waited for by `o`. It waits while its
page is on hold, its bank is being evacuated or a peer has not answered. -/
def masterAccess (s : State) (a : Access) (va : Nat) (write : Option (List Byte)) (n : Nat) (o : PeerOwner) (data : List Byte → Msg) (refused : Nat → Msg) : OrWait :=
  let s1 := s.dropReads fun e => e.isOf a
  match write with
  | none =>
    match s.readVa a va n with
    | .wait h => .error h
    | .fault c _ => .ok (s1.emit (refused c))
    | .done (bs, bad) => .ok (s1.emit (if bad then refused codeUncorrectable else data bs))
  | some bs =>
    match s.writeVa { a with want := .write } va bs with
    | .wait h => .error h
    | .fault c _ => .ok (s.emit (refused c))
    | .done s2 => .ok (s2.ownedBy s o)

/-- Where an access begins, from the offset of its window. -/
def accOff : HostAcc → Nat
  | .read o _ => o
  | .write o _ => o
/-- How many bytes it covers. -/
def accLen : HostAcc → Nat
  | .read _ n => n
  | .write _ d => d.length
/-- What it writes. -/
def accData : HostAcc → Option (List Byte)
  | .read _ _ => none
  | .write _ d => some d

/-- An access through the export window of a partition (R438, R447): offset `off` plus that of the access; poisoned data come back as a fault. -/
def windowAccess (s : State) (p off : Nat) (acc : HostAcc) : OrWait :=
  let x := s.partOf p
  let o := off + accOff acc
  let va := (bits x.expbase.toNat 56 30 * 2 ^ 30 + o) % 2 ^ 57
  if bits x.expsize.toNat 13 0 * 2 ^ 30 < o + accLen acc then .ok (s.emit (.hostFault codeDenied))
  else masterAccess s (cxlAccess s p) va (accData acc) (accLen acc) (.host p) Msg.hostData Msg.hostFault

/-! ## The order of a function's accesses -/

/-- An access of the VF of a partition. -/
def hostStep (s : State) (p : Nat) : HostPosted → OrWait
  | .window off acc => windowAccess s p off acc
  | .bar acc => .ok (vfAccess s p acc)

/-- The accesses of a VF are performed in the order in which the host interface has received them (R438): one waits until the writes before it have been performed,
at peers too, so that a doorbell releases them (log 55). -/
def drainHost (p : Nat) : List HostPosted → State → State
  | [], s => { s with posted := NatMap.set [] s.posted p [] }
  | x :: xs, s =>
    let stay := fun (s : State) => { s with posted := NatMap.set [] s.posted p (x :: xs) }
    if s.waitsFor (.host p) then stay s
    else
      match hostStep s p x with
      | .error h => stay (s.noteHold h)
      | .ok t => drainHost p xs t

/-- An access of a VF arrives. -/
def hostArrives (s : State) (p : Nat) (x : HostPosted) : State := drainHost p (NatMap.get [] s.posted p ++ [x]) s

/-- What the host has posted goes on, once it need not wait. -/
def drainHosts (s : State) : State := s.posted.foldl (fun t e => drainHost e.1 e.2 t) s

/-- HOST_ACCESS (R437, R438): in the order received; the host sees no function before the firmware has enabled the PF (R459). -/
def execHostAccess (fn : HostFn) (acc : HostAcc) (s : State) : Result :=
  if s.boot.phase ≠ .running then .next s
  else
    match fn with
    | .pf => .next (pfAccess s acc)
    | .vf p => if p < 16 then .next (hostArrives s p (.bar acc)) else .next s

/-- CXL_MEM_ACCESS (R438, R447). -/
def execCxlMemAccess (p off : Nat) (acc : HostAcc) (s : State) : Result :=
  if s.boot.phase ≠ .running ∨ 16 ≤ p then .next s else .next (hostArrives s p (.window off acc))

/-! ## System cores and the host's own memory -/

/-- A system core reads or writes memory of a partition (R216, R442): it is a master of its own, whose reach the access tables bound; a range that is published
refuses its write. -/
def coreAccess (s : State) (n p : Nat) (acc : HostAcc) : State :=
  (masterAccess s ⟨p, s.lowestLq p, 4096, masterCore + n, .read, .plain, 0⟩ (accOff acc % 2 ^ 57) (accData acc) (accLen acc) (.core n)
    (Msg.coreData n) (Msg.coreFault n)).orElse s

/-- The access of a system core, which runs once boot has come so far (R456, R459). -/
def execCoreAccess (n p : Nat) (acc : HostAcc) (s : State) : Result := s.byCore fun s => if n < 16 ∧ p < 16 then coreAccess s n p acc else s

/-- The host changes its own memory (R190, R437): bytes of the host window. -/
def execHostMemory (off : Nat) (data : List Byte) (s : State) : Result :=
  if off + data.length ≤ hostBase then .next (s.writeAt (hostBase + off) data) else .next s

/-! ## Stair retirement -/

/-- The next free slot of a hall's evacuation area (R222). -/
def freeSlot (s : State) (h : Nat) : Option Nat := (List.range 16).find? fun n => !(NatMap.get Redirect.init s.redir (16 * h + n)).valid

/-- STAIR_TRANSFER_FAILURE (R221, R223, R225): the bank's evacuation begins, or, with no slot left, the bank is lost. -/
def execStairTransferFailure (pq bank : Nat) (s : State) : Result :=
  s.unlessFailed fun s =>
    let key := 4 * pq + bank
    if s.numPq ≤ pq ∨ 4 ≤ bank ∨ (NatMap.find? s.banks key).isSome then s
    else
      match freeSlot s (pq / 64) with
      | some n =>
        { s with
          banks := NatMap.insert s.banks key (.evacuating (pq / 64) n)
          redir := NatMap.insert s.redir (16 * (pq / 64) + n) ⟨true, false, pq, bank⟩ }
      | none => { s with banks := NatMap.insert s.banks key .lost }.emit (.tierShrink (pq / 64) pq bank 0xFF)

/-- The physical address of an offset in a vault bank (R192). -/
def bankAddr (pq bank off : Nat) : Nat := pq * 2 ^ 26 + off / 256 * 1024 + bank * 256 + off % 256

/-- EVACUATION_COMPLETE (R221, R225): the redirect entry comes into force and stalled accesses go on. A granule that could not be read is
marked poisoned; which one a lasting upset strikes is a free value (log 16). -/
def execEvacuationComplete (hall slot : Nat) (s : State) : Result :=
  let e := NatMap.get Redirect.init s.redir (16 * hall + slot)
  if !e.valid || e.done then .next s
  else
    let r := s.freeValue
    let s1 := if s.upset = .lasting then r.2.markGranule (bankAddr e.pq e.bank (r.1.toNat % 2 ^ 24)) true else s
    .next ({ s1 with
      banks := NatMap.insert s1.banks (4 * e.pq + e.bank) (.evacuated hall slot)
      redir := NatMap.insert s1.redir (16 * hall + slot) { e with done := true } }.emit (.tierShrink hall e.pq e.bank slot))

end Sys2Proof.Machine
end

