-- ==== Sys2Proof/Machine/LaneOps.lean ====
section
/-! DEFINITION. Lane and conversion instructions (spec 07 R184 to R187). -/

namespace Sys2Proof.Machine

/-- An instruction that moves lanes of port a (R184). -/
def laneMove (i : Instr) (f : Fab) (s : State) (mv : Firing → Lanes → Lanes) : Result :=
  computeFire i f (fun _ => f.ty) s fun _ fr => .plain (mv fr (fr.lanesOf .a))

/-- PERM (R184): the selectors come from the immediate or from port b. -/
def execPerm (f : Fab) (s : State) : Result :=
  laneMove (.perm f) f s fun fr v =>
    permLanes (fun i => if f.imf then f.imm.toNat / 2 ^ (3 * i) else ((fr.lanesOf .b).get i).toNat) v
/-- BCAST (R184). -/
def execBcast (f : Fab) (s : State) : Result := laneMove (.bcast f) f s fun _ v => .all (v.get (bits f.imm.toNat 2 0))
/-- LROT (R184): lane i of the result is lane (i - s) mod 8. -/
def execLrot (f : Fab) (s : State) : Result :=
  laneMove (.lrot f) f s fun fr v =>
    permLanes (fun i => i + 8 - (if f.imf then f.imm.toNat else (fr.lanesOf .b).l0.toNat) % 8) v
/-- LSUM (R185): exact, then wrapped once. -/
def execLsum (f : Fab) (s : State) : Result := laneMove (.lsum f) f s fun _ v => .all (wr f.ty (sumLanes f.ty v))
/-- LMAX (R185): the tree of R129 with FMAX on .f. -/
def execLmax (f : Fab) (s : State) : Result :=
  computeFire (.lmax f) f (fun _ => f.ty) s fun _ fr =>
    let v := fr.lanesOf .a
    if f.ty = .f then (let r := laneTree (fMinMax false) v; ⟨.all r.val, r.flags, .none⟩)
    else .plain (.all (wr f.ty (maxLanes f.ty v)))
/-- FLSUM (R185). -/
def execFlsum (f : Fab) (s : State) : Result :=
  computeFire (.flsum f) f (fun _ => f.ty) s fun _ fr =>
    let r := laneTree (onF2 (fAdd .if36 .rne)) (fr.lanesOf .a)
    ⟨.all r.val, r.flags, .none⟩
/-- FLDOT (R185). -/
def execFldot (f : Fab) (s : State) : Result :=
  computeFire (.fldot f) f (fun _ => f.ty) s fun _ fr =>
    let r := dotTree (fr.lanesOf .a) (fr.lanesOf .b)
    ⟨.all r.val, r.flags, .none⟩
/-- CVT (R186); an INTERP port reads its samples as SRC (R183). -/
def execCvt (f : Fab) (s : State) : Result :=
  let x := f.imm.toNat
  computeFire (.cvt f) f (fun _ => (tyOfCode (bits x 3 0)).getD .b32) s fun ctx fr =>
    .flagged (Lanes.ofFlagged fun j =>
      cvtLane f.ty (bits x 3 0) (bits x 7 4) (bits x 13 8) f.sub.toNat ctx fr.span.lo j ((fr.lanesOf .a).get j))
/-- PACK (R187). -/
def execPack (f : Fab) (s : State) : Result := laneMove (.pack f) f s fun _ v => packLanes (bits f.imm.toNat 1 0) v
/-- UNPACK (R187). -/
def execUnpack (f : Fab) (s : State) : Result :=
  laneMove (.unpack f) f s fun _ v => unpackLanes (bits f.imm.toNat 1 0) (bit f.imm.toNat 2) v

end Sys2Proof.Machine
end

