-- ==== Sys2Proof/Machine/Scalar.lean ====
section
/-! DEFINITION. Scalar words (spec 10 R258): exact results taken modulo 2^64. -/

namespace Sys2Proof.Machine

/-- A word of two source registers and a destination (R257, R258). -/
def scalarWord (op : Nat) (h : Hdr) (o : OpA) (s : State) (f : Word64 → Word64 → Word64) : Result :=
  regWord (encodeSeq op h (.formatA o)) h s fun x => x.setReg o.qd.toNat (f (x.reg o.qs.toNat) (x.reg o.qt.toNat))

/-- The shift count of a word: bits [5:0] of qt (R258). -/
def shiftOf (t : Word64) : Nat := t.toNat % 64

/-- LI: qd := imm (R258). -/
def execLi (h : Hdr) (o : OpA) (s : State) : Result := scalarWord 0x00 h o s fun _ _ => o.imm
/-- ADDI: qd := qs + imm (R258). -/
def execAddi (h : Hdr) (o : OpA) (s : State) : Result := scalarWord 0x01 h o s fun a _ => a + o.imm
/-- ADD: qd := qs + qt (R258). -/
def execScalarAdd (h : Hdr) (o : OpA) (s : State) : Result := scalarWord 0x02 h o s fun a b => a + b
/-- SUB: qd := qs - qt (R258). -/
def execScalarSub (h : Hdr) (o : OpA) (s : State) : Result := scalarWord 0x03 h o s fun a b => a - b
/-- AND (R258). -/
def execScalarAnd (h : Hdr) (o : OpA) (s : State) : Result := scalarWord 0x04 h o s fun a b => a &&& b
/-- OR (R258). -/
def execScalarOr (h : Hdr) (o : OpA) (s : State) : Result := scalarWord 0x05 h o s fun a b => a ||| b
/-- XOR (R258). -/
def execScalarXor (h : Hdr) (o : OpA) (s : State) : Result := scalarWord 0x06 h o s fun a b => a ^^^ b
/-- SHL: qs times 2^k (R258). -/
def execScalarShl (h : Hdr) (o : OpA) (s : State) : Result := scalarWord 0x07 h o s fun a b => a <<< shiftOf b
/-- SHR: qs, unsigned, divided by 2^k downward (R258). -/
def execScalarShr (h : Hdr) (o : OpA) (s : State) : Result := scalarWord 0x08 h o s fun a b => a >>> shiftOf b
/-- SAR: qs, signed, divided by 2^k downward (R258). -/
def execScalarSar (h : Hdr) (o : OpA) (s : State) : Result := scalarWord 0x09 h o s fun a b => a.sshiftRight (shiftOf b)
/-- MUL: qs times qt (R258). -/
def execScalarMul (h : Hdr) (o : OpA) (s : State) : Result := scalarWord 0x0A h o s fun a b => a * b
/-- SLT: 1 if qs < qt, signed (R258). -/
def execSlt (h : Hdr) (o : OpA) (s : State) : Result := scalarWord 0x0B h o s fun a b => BitVec.ofNat 64 (b2n (a.slt b))
/-- SLTU: 1 if qs < qt, unsigned (R258). -/
def execSltu (h : Hdr) (o : OpA) (s : State) : Result := scalarWord 0x0C h o s fun a b => BitVec.ofNat 64 (b2n (a.ult b))

end Sys2Proof.Machine
end

