-- ==== Sys2Proof/Machine/SystemWords.lean ====
section
/-! DEFINITION. The system words SYSRD, SYSWR, TLBINV, QFLUSH and EVENT (spec 18 R407 to R413; 08 R202, R203). -/

namespace Sys2Proof.Machine

/-- A word of class A at the system port (R255): it waits while another queue goes before it; one that has had the port goes on. -/
def systemWord (raw : Nat) (h : Hdr) (s : State) (f : State → Nat → Nat → Queue → WordResult) : Result :=
  runWord raw h s fun lq q x =>
    if x.phase = .issued then f s lq q x
    else if rival s lq q .system then .wait s .port 0 0 0
    else f (served s lq q .system) lq q x

/-! ## Register access -/

/-- Whether a physical quad hosts a logical quad of a partition (R408). -/
def hostsPart (s : State) (pq p : Nat) : Bool := (s.hosted pq).any fun lq => s.lqOwner lq = some p

/-- The right of a queue of a partition to read a register (R408, R444). -/
def mayRead (s : State) (p : Nat) (a : Nat) : Bool :=
  let space := a / 2 ^ 36
  let index := a / 2 ^ 28 % 2 ^ 8
  if space = 0 then decide (s.lqOwner index = some p)
  else if space = 1 then hostsPart s index p
  else if space = 3 then decide (index = p)
  else decide (space = 2) || decide (space = 4)

/-- The right of a queue of a partition to write a register (R408, R444). -/
def mayWrite (s : State) (p : Nat) : Reg → Nat → Bool
  | .peBrk pq _, _ => hostsPart s pq p
  | .fidx n, _ => decide (n = p)
  | _, a => decide (a / 2 ^ 36 = 0) && decide (s.lqOwner (a / 2 ^ 28 % 2 ^ 8) = some p)

/-- Whether a register shows what another partition owns (R408): it reads zero. A slot of the evacuation area is owned by the partitions whose logical
quads the physical quad of its bank hosts (log 143). -/
def hidden (s : State) (p : Nat) : Reg → Bool
  | .mtFlags _ _ n => decide (n ≠ p)
  | .tcfg h t => let x := NatMap.get PseTree.init (s.hallOf h).trees t; x.valid && decide (x.part ≠ p)
  | .redir h n => let x := NatMap.get Redirect.init s.redir (16 * h + n); x.valid && !hostsPart s x.pq p
  | .iw h t => let x := NatMap.get PseTree.init (s.hallOf h).trees t; x.valid && decide (x.part ≠ p)
  | _ => false

/-- The register that a queue names at an address, or the code of the trap (R407, R444). -/
def namedReg (s : State) (a : Nat) : Except Nat Reg :=
  if a % 8 ≠ 0 then .error codeAlignment
  else if a / 2 ^ 36 = 5 ∨ a / 2 ^ 36 = 6 then .error codePermission
  else
    match regAt s a with
    | some r => .ok r
    | none => .error codeIllegal

/-- SYSRD (R407, R408, R410). -/
def execSysrd (h : Hdr) (o : OpA) (s : State) : Result :=
  systemWord (encodeSeq 0xA0 h (.formatA o)) h s fun s lq q x =>
    let a := (x.reg o.qs.toNat + o.imm).toNat
    match namedReg s a with
    | .error c => .trap s c (if c = codeIllegal then 0 else a) 0
    | .ok r =>
      if !mayRead s (s.partOfLq lq) a then .trap s codePermission a 0
      else
        let v := if hidden s (s.partOfLq lq) r then 0 else readReg s r
        let s1 := afterRead s r
        .retire (s1.setQueue lq q ((s1.queueOf lq q).setReg o.qd.toNat (BitVec.ofNat 64 v))) .next

/-- SYSWR (R407, R408, R410). -/
def execSyswr (h : Hdr) (o : OpA) (s : State) : Result :=
  systemWord (encodeSeq 0xA1 h (.formatA o)) h s fun s lq _ x =>
    let a := (x.reg o.qs.toNat + o.imm).toNat
    match namedReg s a with
    | .error c => .trap s c (if c = codeIllegal then 0 else a) 0
    | .ok r =>
      if !mayWrite s (s.partOfLq lq) r a then .trap s codePermission a 0
      else .retire (writeReg s r (x.reg o.qt.toNat)) .next

/-! ## TLBINV -/

/-- The part of a partition's address space that TLBINV names: from, and up to but without; all of it where qt = 0 (R411). -/
structure InvRange where
  part : Nat
  lo : Nat
  hi : Nat
deriving DecidableEq, Repr

/-- Whether a page meets the range. -/
def InvRange.meets (r : InvRange) (part base size : Nat) : Bool := decide (part = r.part) && decide (base < r.hi) && decide (r.lo < base + size)

/-- The requests that wait on a miss-status entry the range removes (R202): they take entries of their own. -/
def orphans (s : State) (r : InvRange) : List Request :=
  s.pending.filterMap fun p =>
    match p.st with
    | .miss k =>
      if (s.pquadOf (s.pqOf p.req.lq)).misses.any fun m => decide (m.key = k) && r.meets m.part (m.vpn * 2 ^ 16) (2 ^ 16) then some p.req else none
    | _ => none

/-- The entries of the range leave every translation buffer and miss-status table of the device (R202). -/
def dropTranslations (s : State) (r : InvRange) : State :=
  let gone := fun (t : TlbEntry) => r.meets t.part t.base t.size
  let s1 : State := { s with
    pquads := s.pquads.map fun e => (e.1, { e.2 with
      tlb := e.2.tlb.filter fun t => !gone t
      misses := e.2.misses.filter fun m => !r.meets m.part (m.vpn * 2 ^ 16) (2 ^ 16) })
    tlb2 := s.tlb2.map fun e => (e.1, e.2.filter fun t => !gone t) }
  (orphans s r).foldl (fun s q => proceed s q []) s1

/-- The accesses that went by translations of the range and are still to be performed (R202): fabric requests, and the writes of queues and engines that a
peer has still to perform, whichever of the partition's pages they are on. -/
def travelling (s : State) (r : InvRange) : List Nat :=
  ((s.peerOut.filter fun e => decide (e.part = r.part) && decide (e.owner ≠ .request)).map (·.acc.id)) ++ (s.pending.filter fun p => (match p.st with
    | .homes _ _ _ => true
    | _ => false) && (pagesOf p.req.addr p.req.offs).any fun v => r.meets p.req.part (v * 2 ^ 16) (2 ^ 16)).map (·.req.id)

/-- Whether a request waits on a held page of the range. -/
def heldIn (r : InvRange) (p : Pending) : Bool :=
  match p.st with
  | .hold v => r.meets p.req.part (v * 2 ^ 16) (2 ^ 16)
  | _ => false

/-- The accesses that wait on held pages of the range translate again (R203): no miss-status entry is held for them any more. -/
def releaseHolds (s : State) (r : InvRange) : State :=
  let s1 : State := { s with
    pquads := s.pquads.map fun e => (e.1, { e.2 with held := e.2.held.filter fun h => !r.meets h.1 (h.2 * 2 ^ 16) (2 ^ 16) })
    pending := mapWhere (heldIn r) (fun p => { p with st := .retry }) s.pending }
  ((s.pending.filter (heldIn r)).map (·.req)).foldl (fun s q => proceed s q []) s1

/-- TLBINV (R202, R203, R411): it completes once every access that went by a removed translation has been performed. -/
def execTlbInv (h : Hdr) (o : OpA) (s : State) : Result :=
  runWord (encodeSeq 0xA2 h (.formatA o)) h s fun lq q x =>
    let lo := (x.reg o.qs.toNat).toNat
    let n := (x.reg o.qt.toNat).toNat
    let r : InvRange := if n = 0 then ⟨s.partOfLq lq, 0, 2 ^ 57⟩ else ⟨s.partOfLq lq, lo, lo + 2 ^ 16 * n⟩
    let await := fun (s : State) (ids : List Nat) => WordResult.wait (s.setQueue lq q { (s.queueOf lq q) with phase := .draining ids }) .port 0 0 0
    match x.phase with
    | .draining ids =>
      let left := ids.filter fun i => (s.pending.any fun p => decide (p.req.id = i)) || s.peerOut.any fun e => decide (e.acc.id = i)
      if left.isEmpty then .retire (releaseHolds s r) .next else await s left
    | _ =>
      if rival s lq q .system then .wait s .port 0 0 0
      else if lo % 2 ^ 16 ≠ 0 then .trap s codeAlignment lo 0
      else if 2 ^ 57 < r.hi then .trap s codeIllegal 0 0
      else
        let s1 := dropTranslations (served s lq q .system) r
        if (travelling s r).isEmpty then .retire (releaseHolds s1 r) .next else await s1 (travelling s r)

/-! ## QFLUSH and EVENT -/

/-- Queues of a logical quad are flushed (R412). -/
def flushQueues (s : State) (lq : Nat) (qs : List Nat) : State := qs.foldl (fun s q => (s.dropWordReads lq q).setQueue lq q (s.queueOf lq q).flush) s

/-- QFLUSH (R412): it waits for outstanding LDQs and STQs of the queues named, then flushes them together. -/
def execQflush (h : Hdr) (o : OpA) (s : State) : Result :=
  systemWord (encodeSeq 0xA3 h (.formatA o)) h s fun s lq q x =>
    let n := (x.reg o.qs.toNat).toNat
    let m := bits o.imm.toNat 3 0
    let qs := [0, 1, 2, 3].filter fun k => bit m k
    if 128 ≤ n ∨ m = 0 then .trap s codeIllegal 0 0
    else if s.lqOwner n ≠ some (s.partOfLq lq) then .trap s codePermission 0 0
    else if n = lq ∧ bit m q then .trap s codeIllegal 0 0
    else if qs.any fun k => accessOut (s.queueOf n k) then .wait s .port 0 0 0
    else .retire (flushQueues s n qs) .next

/-- EVENT (R413): a KIND 2 record of the issuing quad; while the ring is full the word waits with KIND 4. -/
def execEvent (h : Hdr) (o : OpA) (s : State) : Result :=
  systemWord (encodeSeq 0xA6 h (.formatA o)) h s fun s lq q x =>
    let c := bits o.imm.toNat 7 0
    let p := s.partOfLq lq
    if c < 0x80 then .trap s codeIllegal 0 0
    else if !(s.partOf p).ringRoom || s.ringWaits p lq then .wait s .port 0 0 0
    else
      let f : FaultRecord :=
        { FaultRecord.blank with kind := 2, code := c, part := p, lq := lq, slot := q, word := (x.reg o.qs.toNat).toNat, dtime := s.dtime }
      .retire (s.writeRecord f).1 .next

end Sys2Proof.Machine
end

