-- ==== Sys2Proof/Machine/Dispatch.lean ====
section
/-! DEFINITION. The meaning of an instruction: one direct call for each constructor of Instr. -/

namespace Sys2Proof.Machine

def exec (i : Instr) (s : State) : Host.Outcome State Fault Refusal :=
  match i with
  | .powerOnReset writes => Sys2Proof.Machine.execPowerOnReset writes s
  | .thermalLimit => Sys2Proof.Machine.execThermalLimit s
  | .attestationReport nonce => Sys2Proof.Machine.execAttestationReport nonce s
  | .dtimeAdjust off => Sys2Proof.Machine.execDtimeAdjust off s
  | .tsyncStart port v => Sys2Proof.Machine.execTsyncStart port v s
  | .tsyncRequestArrival port t1 => Sys2Proof.Machine.execTsyncRequestArrival port t1 s
  | .tsyncReply port t1 t2 t3 => Sys2Proof.Machine.execTsyncReply port t1 t2 t3 s
  | .launchDoorbell p k v => Sys2Proof.Machine.execLaunchDoorbell p k v s
  | .launchRecordTake p k => Sys2Proof.Machine.execLaunchRecordTake p k s
  | .launchStart l => Sys2Proof.Machine.execLaunchStart l s
  | .priorityAging l => Sys2Proof.Machine.execPriorityAging l s
  | .launchEnd l => Sys2Proof.Machine.execLaunchEnd l s
  | .phaseEnd r => Sys2Proof.Machine.execPhaseEnd r s
  | .replicaAdd l stage => Sys2Proof.Machine.execReplicaAdd l stage s
  | .replicaRemove l stage => Sys2Proof.Machine.execReplicaRemove l stage s
  | .rangeSplitRequest r slot => Sys2Proof.Machine.execRangeSplitRequest r slot s
  | .turnChange pq => Sys2Proof.Machine.execTurnChange pq s
  | .tokenArrival r slot port => Sys2Proof.Machine.execTokenArrival r slot port s
  | .spillReturn r pe set => Sys2Proof.Machine.execSpillReturn r pe set s
  | .deadlockDetect r => Sys2Proof.Machine.execDeadlockDetect r s
  | .replayPoint r => Sys2Proof.Machine.execReplayPoint r s
  | .faultRecordWrite p => Sys2Proof.Machine.execFaultRecordWrite p s
  | .memoryRequestAccept lq mt => Sys2Proof.Machine.execMemoryRequestAccept lq mt s
  | .pageWalkComplete pq n => Sys2Proof.Machine.execPageWalkComplete pq n s
  | .accessPerformAtHome id => Sys2Proof.Machine.execAccessPerformAtHome id s
  | .rmwPipelineUpdate id => Sys2Proof.Machine.execRmwPipelineUpdate id s
  | .mtReplyRelease r slot => Sys2Proof.Machine.execMtReplyRelease r slot s
  | .stairTransferFailure pq bank => Sys2Proof.Machine.execStairTransferFailure pq bank s
  | .evacuationComplete hall slot => Sys2Proof.Machine.execEvacuationComplete hall slot s
  | .preemptionDecision l => Sys2Proof.Machine.execPreemptionDecision l s
  | .preemptReadoutComplete image lq => Sys2Proof.Machine.execPreemptReadoutComplete image lq s
  | .lateReplyIntoImage image id => Sys2Proof.Machine.execLateReplyIntoImage image id s
  | .launchRestore l => Sys2Proof.Machine.execLaunchRestore l s
  | .bceCommandStart lq ch => Sys2Proof.Machine.execBceCommandStart lq ch s
  | .bceGranuleTransfer lq ch => Sys2Proof.Machine.execBceGranuleTransfer lq ch s
  | .bceCommandComplete lq ch => Sys2Proof.Machine.execBceCommandComplete lq ch s
  | .mxtCommandStart lq m => Sys2Proof.Machine.execMxtCommandStart lq m s
  | .mxtGroupApply lq m => Sys2Proof.Machine.execMxtGroupApply lq m s
  | .accoutTokenEmit lq m => Sys2Proof.Machine.execAccoutTokenEmit lq m s
  | .cruLeafArrival p n => Sys2Proof.Machine.execCruLeafArrival p n s
  | .cruDeadline p gid => Sys2Proof.Machine.execCruDeadline p gid s
  | .pseCommandPerform hall tree => Sys2Proof.Machine.execPseCommandPerform hall tree s
  | .gmeCommandPerform hall => Sys2Proof.Machine.execGmeCommandPerform hall s
  | .vieFrameDecoded stream frame => Sys2Proof.Machine.execVieFrameDecoded stream frame s
  | .vieFrameJudge stream => Sys2Proof.Machine.execVieFrameJudge stream s
  | .hostAccess fn acc => Sys2Proof.Machine.execHostAccess fn acc s
  | .cxlMemAccess p off acc => Sys2Proof.Machine.execCxlMemAccess p off acc s
  | .linkFlitReceive port flit => Sys2Proof.Machine.execLinkFlitReceive port flit s
  | .peerRequestArrival port => Sys2Proof.Machine.execPeerRequestArrival port s
  | .linkResendTimeout port seq => Sys2Proof.Machine.execLinkResendTimeout port seq s
  | .linkRetrainTimeout port => Sys2Proof.Machine.execLinkRetrainTimeout port s
  | .partitionReset p => Sys2Proof.Machine.execPartitionReset p s
  | .partitionResetDone p => Sys2Proof.Machine.execPartitionResetDone p s
  | .qsqStart lq v => Sys2Proof.Machine.execQsqStart lq v s
  | .qsqPcWrite lq q v => Sys2Proof.Machine.execQsqPcWrite lq q v s
  | .qsqQctlWrite lq q v => Sys2Proof.Machine.execQsqQctlWrite lq q v s
  | .semWrite lq n v => Sys2Proof.Machine.execSemWrite lq n v s
  | .qsqMxmodeWrite lq q v => Sys2Proof.Machine.execQsqMxmodeWrite lq q v s
  | .bceResume lq ch => Sys2Proof.Machine.execBceResume lq ch s
  | .bceDiscard lq ch => Sys2Proof.Machine.execBceDiscard lq ch s
  | .peBrkRelease pq pe => Sys2Proof.Machine.execPeBrkRelease pq pe s
  | .sysLqpartWrite lq v => Sys2Proof.Machine.execSysLqpartWrite lq v s
  | .sysCtxownWrite c v => Sys2Proof.Machine.execSysCtxownWrite c v s
  | .sysSaveWrite p v => Sys2Proof.Machine.execSysSaveWrite p v s
  | .sysLqbaseWrite p k v => Sys2Proof.Machine.execSysLqbaseWrite p k v s
  | .qosWordWrite a v => Sys2Proof.Machine.execQosWordWrite a v s
  | .registerWrite a v => Sys2Proof.Machine.execRegisterWrite a v s
  | .input f => Sys2Proof.Machine.execInput f s
  | .output f => Sys2Proof.Machine.execOutput f s
  | .const f => Sys2Proof.Machine.execConst f s
  | .nullgen f => Sys2Proof.Machine.execNullgen f s
  | .copy f => Sys2Proof.Machine.execCopy f s
  | .drop f => Sys2Proof.Machine.execDrop f s
  | .steer f => Sys2Proof.Machine.execSteer f s
  | .merge f => Sys2Proof.Machine.execMerge f s
  | .omerge f => Sys2Proof.Machine.execOmerge f s
  | .lcarry f => Sys2Proof.Machine.execLcarry f s
  | .lexit f => Sys2Proof.Machine.execLexit f s
  | .ends f => Sys2Proof.Machine.execEnds f s
  | .gate f => Sys2Proof.Machine.execGate f s
  | .sel f => Sys2Proof.Machine.execSel f s
  | .join f => Sys2Proof.Machine.execJoin f s
  | .bartok f => Sys2Proof.Machine.execBartok f s
  | .spanset f => Sys2Proof.Machine.execSpanset f s
  | .spanshift f => Sys2Proof.Machine.execSpanshift f s
  | .spanclip f => Sys2Proof.Machine.execSpanclip f s
  | .stale f => Sys2Proof.Machine.execStale f s
  | .rangeMake f => Sys2Proof.Machine.execRangeMake f s
  | .rangeExpand f => Sys2Proof.Machine.execRangeExpand f s
  | .ctxnew f => Sys2Proof.Machine.execCtxnew f s
  | .ctxfree f => Sys2Proof.Machine.execCtxfree f s
  | .spawn f => Sys2Proof.Machine.execSpawn f s
  | .add f => Sys2Proof.Machine.execAdd f s
  | .sub f => Sys2Proof.Machine.execSub f s
  | .mul f => Sys2Proof.Machine.execMul f s
  | .mulh f => Sys2Proof.Machine.execMulh f s
  | .mad f => Sys2Proof.Machine.execMad f s
  | .div f => Sys2Proof.Machine.execDiv f s
  | .rem f => Sys2Proof.Machine.execRem f s
  | .neg f => Sys2Proof.Machine.execNeg f s
  | .abs f => Sys2Proof.Machine.execAbs f s
  | .min f => Sys2Proof.Machine.execMin f s
  | .max f => Sys2Proof.Machine.execMax f s
  | .adds f => Sys2Proof.Machine.execAdds f s
  | .subs f => Sys2Proof.Machine.execSubs f s
  | .avg f => Sys2Proof.Machine.execAvg f s
  | .cmp f => Sys2Proof.Machine.execCmp f s
  | .idx f => Sys2Proof.Machine.execIdx f s
  | .and f => Sys2Proof.Machine.execAnd f s
  | .or f => Sys2Proof.Machine.execOr f s
  | .xor f => Sys2Proof.Machine.execXor f s
  | .not f => Sys2Proof.Machine.execNot f s
  | .shl f => Sys2Proof.Machine.execShl f s
  | .shr f => Sys2Proof.Machine.execShr f s
  | .sar f => Sys2Proof.Machine.execSar f s
  | .rot f => Sys2Proof.Machine.execRot f s
  | .popc f => Sys2Proof.Machine.execPopc f s
  | .clz f => Sys2Proof.Machine.execClz f s
  | .ctz f => Sys2Proof.Machine.execCtz f s
  | .bfe f => Sys2Proof.Machine.execBfe f s
  | .bfi f => Sys2Proof.Machine.execBfi f s
  | .fadd f => Sys2Proof.Machine.execFadd f s
  | .fsub f => Sys2Proof.Machine.execFsub f s
  | .fmul f => Sys2Proof.Machine.execFmul f s
  | .fma f => Sys2Proof.Machine.execFma f s
  | .fmin f => Sys2Proof.Machine.execFmin f s
  | .fmax f => Sys2Proof.Machine.execFmax f s
  | .fabs f => Sys2Proof.Machine.execFabs f s
  | .fneg f => Sys2Proof.Machine.execFneg f s
  | .fcmp f => Sys2Proof.Machine.execFcmp f s
  | .fdiv f => Sys2Proof.Machine.execFdiv f s
  | .frcp f => Sys2Proof.Machine.execFrcp f s
  | .fsqrt f => Sys2Proof.Machine.execFsqrt f s
  | .frsq f => Sys2Proof.Machine.execFrsq f s
  | .fexp2 f => Sys2Proof.Machine.execFexp2 f s
  | .flog2 f => Sys2Proof.Machine.execFlog2 f s
  | .fsig f => Sys2Proof.Machine.execFsig f s
  | .ftanh f => Sys2Proof.Machine.execFtanh f s
  | .fscale f => Sys2Proof.Machine.execFscale f s
  | .fclass f => Sys2Proof.Machine.execFclass f s
  | .frnd f => Sys2Proof.Machine.execFrnd f s
  | .perm f => Sys2Proof.Machine.execPerm f s
  | .bcast f => Sys2Proof.Machine.execBcast f s
  | .lrot f => Sys2Proof.Machine.execLrot f s
  | .lsum f => Sys2Proof.Machine.execLsum f s
  | .lmax f => Sys2Proof.Machine.execLmax f s
  | .flsum f => Sys2Proof.Machine.execFlsum f s
  | .fldot f => Sys2Proof.Machine.execFldot f s
  | .cvt f => Sys2Proof.Machine.execCvt f s
  | .pack f => Sys2Proof.Machine.execPack f s
  | .unpack f => Sys2Proof.Machine.execUnpack f s
  | .ld f => Sys2Proof.Machine.execLd f s
  | .ldc f => Sys2Proof.Machine.execLdc f s
  | .st f => Sys2Proof.Machine.execSt f s
  | .ord f => Sys2Proof.Machine.execOrd f s
  | .atom f => Sys2Proof.Machine.execAtom f s
  | .red f => Sys2Proof.Machine.execRed f s
  | .acq f => Sys2Proof.Machine.execAcq f s
  | .fence f => Sys2Proof.Machine.execFence f s
  | .publish f => Sys2Proof.Machine.execPublish f s
  | .pref f => Sys2Proof.Machine.execPref f s
  | .wptr f => Sys2Proof.Machine.execWptr f s
  | .waitwp f => Sys2Proof.Machine.execWaitwp f s
  | .trap f => Sys2Proof.Machine.execTrap f s
  | .brk f => Sys2Proof.Machine.execBrk f s
  | .li h o => Sys2Proof.Machine.execLi h o s
  | .addi h o => Sys2Proof.Machine.execAddi h o s
  | .scalarAdd h o => Sys2Proof.Machine.execScalarAdd h o s
  | .scalarSub h o => Sys2Proof.Machine.execScalarSub h o s
  | .scalarAnd h o => Sys2Proof.Machine.execScalarAnd h o s
  | .scalarOr h o => Sys2Proof.Machine.execScalarOr h o s
  | .scalarXor h o => Sys2Proof.Machine.execScalarXor h o s
  | .scalarShl h o => Sys2Proof.Machine.execScalarShl h o s
  | .scalarShr h o => Sys2Proof.Machine.execScalarShr h o s
  | .scalarSar h o => Sys2Proof.Machine.execScalarSar h o s
  | .scalarMul h o => Sys2Proof.Machine.execScalarMul h o s
  | .slt h o => Sys2Proof.Machine.execSlt h o s
  | .sltu h o => Sys2Proof.Machine.execSltu h o s
  | .ldq h o => Sys2Proof.Machine.execLdq h o s
  | .stq h o => Sys2Proof.Machine.execStq h o s
  | .br h o => Sys2Proof.Machine.execBr h o s
  | .brc h o => Sys2Proof.Machine.execBrc h o s
  | .call h o => Sys2Proof.Machine.execCall h o s
  | .ret h o => Sys2Proof.Machine.execRet h o s
  | .loop h o => Sys2Proof.Machine.execLoop h o s
  | .yield h o => Sys2Proof.Machine.execYield h o s
  | .halt h o => Sys2Proof.Machine.execHalt h o s
  | .wait h o => Sys2Proof.Machine.execWait h o s
  | .sig h o => Sys2Proof.Machine.execSig h o s
  | .semset h o => Sys2Proof.Machine.execSemset h o s
  | .semrd h o => Sys2Proof.Machine.execSemrd h o s
  | .nbarr h o => Sys2Proof.Machine.execNbarr h o s
  | .nbwait h o => Sys2Proof.Machine.execNbwait h o s
  | .taskdef h o => Sys2Proof.Machine.execTaskdef h o s
  | .taskdone h o => Sys2Proof.Machine.execTaskdone h o s
  | .tasknext h o => Sys2Proof.Machine.execTasknext h o s
  | .launch h o => Sys2Proof.Machine.execLaunch h o s
  | .cfgload h o => Sys2Proof.Machine.execCfgload h o s
  | .qwait h o => Sys2Proof.Machine.execQwait h o s
  | .bceCopy h o => Sys2Proof.Machine.execBceCopy h o s
  | .copymx h o => Sys2Proof.Machine.execCopymx h o s
  | .copysh h o => Sys2Proof.Machine.execCopysh h o s
  | .gather h o => Sys2Proof.Machine.execGather h o s
  | .scatter h o => Sys2Proof.Machine.execScatter h o s
  | .fill h o => Sys2Proof.Machine.execFill h o s
  | .mma h o => Sys2Proof.Machine.execMma h o s
  | .mmat h o => Sys2Proof.Machine.execMmat h o s
  | .accinit h o => Sys2Proof.Machine.execAccinit h o s
  | .acccnt h o => Sys2Proof.Machine.execAcccnt h o s
  | .accout h o => Sys2Proof.Machine.execAccout h o s
  | .accdrain h o => Sys2Proof.Machine.execAccdrain h o s
  | .accpart h o => Sys2Proof.Machine.execAccpart h o s
  | .mxcfgMode h o => Sys2Proof.Machine.execMxcfgMode h o s
  | .mxcfgPolicy h o => Sys2Proof.Machine.execMxcfgPolicy h o s
  | .ovfstat h o => Sys2Proof.Machine.execOvfstat h o s
  | .cred h o => Sys2Proof.Machine.execCred h o s
  | .crfix h o => Sys2Proof.Machine.execCrfix h o s
  | .crstat h o => Sys2Proof.Machine.execCrstat h o s
  | .stinit h o => Sys2Proof.Machine.execStinit h o s
  | .stins h o => Sys2Proof.Machine.execStins h o s
  | .stdraw h o => Sys2Proof.Machine.execStdraw h o s
  | .stupd h o => Sys2Proof.Machine.execStupd h o s
  | .stwgtBeta h o => Sys2Proof.Machine.execStwgtBeta h o s
  | .stwgt h o => Sys2Proof.Machine.execStwgt h o s
  | .ststat h o => Sys2Proof.Machine.execStstat h o s
  | .pdaload h o => Sys2Proof.Machine.execPdaload h o s
  | .pdastep h o => Sys2Proof.Machine.execPdastep h o s
  | .mask h o => Sys2Proof.Machine.execMask h o s
  | .sample h o => Sys2Proof.Machine.execSample h o s
  | .gmcfg h o => Sys2Proof.Machine.execGmcfg h o s
  | .gmstat h o => Sys2Proof.Machine.execGmstat h o s
  | .vopen h o => Sys2Proof.Machine.execVopen h o s
  | .vbind h o => Sys2Proof.Machine.execVbind h o s
  | .vclose h o => Sys2Proof.Machine.execVclose h o s
  | .vstat h o => Sys2Proof.Machine.execVstat h o s
  | .sysrd h o => Sys2Proof.Machine.execSysrd h o s
  | .syswr h o => Sys2Proof.Machine.execSyswr h o s
  | .tlbInv h o => Sys2Proof.Machine.execTlbInv h o s
  | .qflush h o => Sys2Proof.Machine.execQflush h o s
  | .ctxsave h o => Sys2Proof.Machine.execCtxsave h o s
  | .ctxload h o => Sys2Proof.Machine.execCtxload h o s
  | .event h o => Sys2Proof.Machine.execEvent h o s
  | .modulePowerLoss => Sys2Proof.Machine.execModulePowerLoss s
  | .portRetrained port => Sys2Proof.Machine.execPortRetrained port s
  | .accessUnitTaken stream decodes => Sys2Proof.Machine.execAccessUnitTaken stream decodes s

end Sys2Proof.Machine
end

