-- ==== Sys2Proof/Machine/Turns.lean ====
section
/-! DEFINITION. The turns of the machine: the turn that comes next, the time that passes before it, and what takes it (log 2). A queue fetches,
decodes and issues its word (spec 10 R253 to R258); the firing selector of a PE picks the firing it issues (05 R138); an event of the part or
of its surroundings happens (spec 95). After it, how a word is placed where the next turn fetches it. -/

namespace Sys2Proof.Machine

/-- The next turn: the head of the agenda, or, where State names none, the turn that Config names for this step. -/
def nextTurn (s : State) : Option (Turn × State) :=
  match s.agenda with
  | t :: ts => some (t, { s with agenda := ts })
  | [] => (Config.turn s.stepNo).map fun t => (t, s)

/-! ## The order of one cycle -/

/-- A place in one of the orders that the spec gives the acts of one cycle: the order's number, the place, and from which place on nothing of the cycle may
have taken a place already. -/
structure Claim where
  order : Nat
  place : Nat
  free : Nat
deriving DecidableEq, Repr

/-- A place that others of the cycle may share. -/
def Claim.shared (order place : Nat) : Claim := ⟨order, place, place + 1⟩
/-- A place that one act of the cycle takes. -/
def Claim.alone (order place : Nat) : Claim := ⟨order, place, place⟩

/-- Whether an address is that of a semaphore (R253, R410). -/
def isSemAddr (s : State) (a : Nat) : Bool :=
  match namedReg s a with
  | .ok (.sem _ _) => true
  | _ => false

/-- Whether a word sets a semaphore: SEMSET, or SYSWR to SEM (R264, R410). -/
def setsSem (s : State) (x : Queue) (w : Nat) : Bool :=
  decide (bits w 127 120 = 0x22) || (decide (bits w 127 120 = 0xA1) && isSemAddr s (((x.reg (bits w 74 70)).toNat + bits w 63 0) % 2 ^ 64))

/-- Orders of which there is one for each of many things: a PE, a launch queue, a collective, a slot, the contexts of CTXNEW. -/
def orderOf (kind index : Nat) : Nat := 100000 + 16 * index + kind

/-- The order of the firings of a PE (R138): one a cycle. -/
def peClaim (rid pe : Nat) : Claim := .alone (orderOf 0 (256 * rid + pe)) 0
/-- The order of what reaches a launch queue in a cycle (R440): LAUNCH words, then doorbells. -/
def queueClaim (p k : Nat) (doorbell : Bool) : Claim := .shared (orderOf 1 (64 * p + k)) (b2n doorbell)

/-- Whether a word takes or completes tasks and signals nothing: those of a cycle have an order of their own (R269, R270). -/
def isTaskWord (w : Nat) : Bool := (decide (bits w 127 120 = 0x27) || decide (bits w 127 120 = 0x28)) && !bit w 95

/-- The places a queue's turn takes (log 2). One word a cycle for a queue; words that set a semaphore before the other words, and each in ascending logical
quad and queue (R100, R255, R264, R268, R352, R364, R410), one that also signals in a cycle without other words of its quad; one command and one class A
word a cycle for a quad (R255); TASKDONEs of a quad in ascending task (R269); a LAUNCH before the doorbells of its launch queue (R440). -/
def wordClaims (s : State) (lq q w : Nat) : List Claim :=
  let x := s.queueOf lq q
  let op := bits w 127 120
  let k := 4 * lq + q
  let sets := setsSem s x w
  let both := sets && bit w 95
  [Claim.alone (2000 + k) 0, ⟨800 + lq, b2n both, b2n !both⟩] ++
  (if isTaskWord w then [] else [Claim.alone 0 (if sets then k else 1000 + k)]) ++
  (if op = 0x30 then [queueClaim (s.partOfLq lq) (bits w 5 0) false] else []) ++
  (match portKind w with
    | some .engine => [Claim.alone (400 + lq) 0]
    | some .system => [Claim.alone (600 + lq) 0]
    | _ => []) ++
  (if op = 0xA1 then [Claim.alone 1000 k] else []) ++
  (if op = 0x27 then [Claim.alone (200 + lq) (4 * min 64 (((x.reg (bits w 74 70)).toNat + bits w 5 0) % 2 ^ 64) + q)] else []) ++
  (if op = 0xA0 then [Claim.shared 100 0] else [Claim.shared 100 1])

/-- A correction has a place among those of its instance (R339). -/
def correctionClaim (s : State) (p : Nat) (l : Leaf) : List Claim :=
  match NatMap.find? (s.partOf p).insts l.desc.gid with
  | some i => if i.st = .awaiting then [.shared (orderOf 2 (65536 * p + l.desc.gid)) l.desc.cidx] else []
  | none => []

/-- The places of an event (log 2): completions signal in the order BCE, MXT0 to MXT2, CRU, PSE, GME, VIE, after the words (R100); a link, whose answers may
complete any of them, in a cycle of its own among them; pending signals before the words (R432); split requests in ascending logical quad and instance
(R56, R272); doorbells after the LAUNCH words of their queue (R440); corrections of a collective in ascending CIDX (R339); a token at port a of a MERGE in arrival
mode before one at port b (R146); a frame that is judged takes the firing of its PE (R387). -/
def eventClaims (s : State) : Instr → List Claim
  | .bceCommandStart lq ch => [.shared 0 (2000 + 8 * lq + ch)]
  | .bceGranuleTransfer lq ch => [.shared 0 (2000 + 8 * lq + ch)]
  | .bceCommandComplete lq ch => [.shared 0 (2000 + 8 * lq + ch)]
  | .mxtCommandStart lq m => [.shared 0 (4000 + 4 * lq + m)]
  | .mxtGroupApply lq m => [.shared 0 (4000 + 4 * lq + m)]
  | .accoutTokenEmit lq m => [.shared 0 (4000 + 4 * lq + m)]
  | .cruLeafArrival p n => .shared 0 6000 :: (match (s.partOf p).cruWay[n]? with
    | some (.leaf l) => correctionClaim s p l
    | _ => [])
  | .cruDeadline _ _ => [.shared 0 6000]
  | .pseCommandPerform _ _ => [.shared 0 7000]
  | .gmeCommandPerform _ => [.shared 0 8000]
  | .vieFrameDecoded _ _ => [.shared 0 9000]
  | .vieFrameJudge n =>
    match boundInput s (s.streamOf n) with
    | some (rid, r, slot, _) => [peClaim rid (r.placeOf slot).1]
    | none => []
  | .tokenArrival rid slot port =>
    match (s.region? rid).bind fun r => r.instrAt slot with
    | some i => if arrivalMode i then [.shared (orderOf 3 (256 * rid + slot)) port] else []
    | none => []
  | .launchDoorbell p k _ => [queueClaim p k true]
  | .hostAccess (.vf p) (.write off d) => (touchedWords off d.length).filterMap fun w => if w < 64 then some (queueClaim p w true) else none
  | .registerWrite a _ =>
    match regAt s a with
    | some (.lqwidx p k) => [queueClaim p k true]
    | _ => []
  | .linkFlitReceive _ _ => [⟨0, 9999, 2000⟩]
  | .linkResendTimeout _ _ => [⟨0, 9999, 2000⟩]
  | .linkRetrainTimeout _ => [⟨0, 9999, 2000⟩]
  | .semWrite _ _ _ => [.shared 0 600]
  | .turnChange _ => [.shared 0 600]
  | .rangeSplitRequest rid slot =>
    match s.region? rid with
    | none => []
    | some r => [.shared 1100 (64 * r.lqAt slot + (siblings s rid r).idxOf rid)]
  | _ => []

/-- The places of a PE's turn: a PE issues one firing a cycle (R138), and CTXNEWs of a cycle draw in ascending partition and then tile (R157). -/
def peClaims (s : State) (rid pe : Nat) : List Claim :=
  [peClaim rid pe, .shared 100 1] ++
  match s.region? rid with
  | none => []
  | some r =>
    match (selectFiring s rid r pe).bind fun e => r.instrAt e.1 with
    | some (.ctxnew _) => [.shared (orderOf 4 0) (65536 * r.part + 16 * r.lqOfBit (r.pes.getD pe 0) + r.pes.getD pe 0 % 9)]
    | _ => []

/-- The places an act takes in the orders of its cycle. Whatever changes a register comes after the reads of the
cycle, which see the end of the previous one (R410). -/
def claims (s : State) : Act → List Claim
  | .queue lq q =>
    match fetchWord s lq q with
    | .done w => wordClaims s lq q w
    | _ => [.alone (2000 + 4 * lq + q) 0, .alone 0 (1000 + 4 * lq + q), .shared 100 1]
  | .pe rid pe => peClaims s rid pe
  | .event i => .shared 100 1 :: eventClaims s i
  | .core _ _ _ => [.shared 100 1]
  | .host _ _ => [.shared 100 1]
  | .enablePf => [.shared 100 1]

/-- Whether an act comes too late for the cycle: its place, or one that goes after it, has been taken. -/
def tooLate (s : State) (cs : List Claim) : Bool := cs.any fun c => s.taken.any fun t => decide (t.1 = c.order) && decide (c.free ≤ t.2)

/-- Past every place of the order of signals. -/
def lastPlace : Nat := 10000

/-- A cycle ends: the completions it still holds signal (R100), what the host has posted goes on (R438), what the acts of the next one see of this one is settled
(R100, R270, R272, R337, R410), and the regions' replay points and quiescence trees see the boundary (R400, R404). -/
def endCycle (s : State) : State :=
  let s := drainHosts (s.flushLate lastPlace)
  cycleBoundary { s with
    quads := s.quads.map fun e => (e.1, { e.2 with semPrev := e.2.sem, fresh := [] })
    prevDtime := s.dtime
    ranges := rangesHeld s
    taken := [] }

/-- Time passes: `n` cycles and `ns` nanoseconds, the last cycle on its own, so that what lay in the cycles before it is known to have (R337). -/
def passTime (s : State) (n ns : Nat) : State :=
  if n ≤ 1 then s.advance n ns
  else
    let before := ns * (n - 1) / n
    let s1 := s.advance (n - 1) before
    { s1 with prevDtime := s1.dtime }.advance 1 (ns - before)

/-- The place an act takes in the order of signals (R100), where it takes one. -/
def signalPlace (cs : List Claim) : Option Nat := (cs.find? fun c => decide (c.order = 0)).map Claim.place

/-- A turn begins (R6, R461): its cycles and nanoseconds have passed, its upset strikes, and the completions whose place is before its own have signalled
(R100). One that comes too late for the cycle of the turn before it waits for the next cycle. -/
def beginTurn (t : Turn) (s : State) : State :=
  let n := if t.cycles = 0 ∧ tooLate s (claims s t.act) then 1 else t.cycles
  let s1 := if n = 0 then s else endCycle s
  let cs := claims s1 t.act
  let s2 := match signalPlace cs with
    | some p => s1.flushLate p
    | none => s1
  { passTime s2 n t.ns with
    taken := s2.taken ++ cs.map fun c => (c.order, c.place), stepNo := s2.stepNo + 1, upset := t.upset, focus := .idle }

/-- A queue's turn: the word at its PC runs, or the queue traps or waits. -/
def queueStep (s : State) (lq q : Nat) : Result :=
  match queueTurn s lq q with
  | .idle => .next s
  | .done s1 => .next s1
  | .run i s1 => exec i s1

/-- A PE's turn: the firing it selects runs, where the region's clock runs and the PE's quad is in its turn. -/
def peStep (s : State) (rid pe : Nat) : Result :=
  match s.region? rid with
  | none => .next s
  | some r =>
    if !r.live || !s.inTurn (r.lqOfBit (r.pes.getD pe 0)) then .next s
    else
      match selectFiring s rid r pe with
      | none => .next s
      | some (slot, ctx) =>
        match r.instrAt slot with
        | none => .next s
        | some i => exec i { issued s rid with focus := .slot rid slot ctx }

/-- What takes a turn. -/
def actStep (s : State) : Act → Result
  | .queue lq q => queueStep s lq q
  | .pe rid pe => peStep s rid pe
  | .event i => exec i s
  | .core n p acc => execCoreAccess n p acc s
  | .host off data => execHostMemory off data s
  | .enablePf => .next (enablePf s)

/-- The turn that gives an unpowered package its power (R456). -/
def givesPower : Act → Bool
  | .event (.powerOnReset _) => true
  | _ => false

/-! ## Placing a word where the next step fetches it -/

/-- A page table entry of a readable, writable 64 KiB VAULT page at physical address 0 (R197). -/
def fetchPte : Word64 := 0x3F

/-- Queue 0 of logical quad 0 runs from address 0, where a sequencer word stands; its quad is partition 0's, page 0 is translated, the
bank lets the quad read, and the semaphore that the word may wait for stands at its threshold. -/
def withQueueWord (s : State) (w : Nat) : State :=
  let h := hdrFields w
  { s with
    agenda := [⟨1, 1, .none, .queue 0 0⟩]
    lqpart := NatMap.set 0 s.lqpart 0 0x10
    parts := NatMap.set .init s.parts 0 { s.partOf 0 with ptroot := 1 }
    quads := NatMap.set .init s.quads 0 { s.quadOf 0 with
      sem := NatMap.set 0 (s.quadOf 0).sem h.wsem.toNat h.wthr.toNat
      queues := NatMap.set .init (s.quadOf 0).queues 0 { s.queueOf 0 0 with pc := 0, st := .running, phase := .fresh } }
    pquads := NatMap.set .init s.pquads 0 { s.pquadOf 0 with tlb := [⟨0, 0, 2 ^ 16, fetchPte⟩] }
    tables := NatMap.set 0 s.tables (regAddr 5 0 0) 0x840F
    mem := putBytes s.mem (s.nearBase 0) (toBytes 16 w) }

/-- A token over ticks 0 to 1, and the END that follows it. -/
def fetchToken (p : Pred) : Token :=
  { ctx := 0, lo := 0, hi := 1, kind := .data, interp := false, level := 0, pred := p, poison := false, taint := false, lanes := .zero }

/-- A port that such a token and its END have reached. -/
def fetchPort (i : Instr) (k : Port) : PortState :=
  if portUsed i k then
    (PortState.init.join (gapRule i k) (fetchToken (if k = .p then .true else .none))).join (gapRule i k) { fetchToken .none with kind := .fin, lo := 1, hi := 1 }
  else .init

/-- A region of one PE of logical quad 0 holds a fabric word in slot 0, a token on each port it uses. -/
def withSlotWord (s : State) (w : Nat) : State :=
  match (decodeFabric w).instr? with
  | none => s
  | some i =>
    let b : Block := ⟨0, 0, 0, false, false, false, false, 1, 0, 0, 0, 0, 1, 1, [], [w], [(0, 0)]⟩
    let n : Node := { Node.init with a := fetchPort i .a, b := fetchPort i .b, c := fetchPort i .c, p := fetchPort i .p }
    let r : Region := { Region.init with mask := 1, blocks := [(0, b)], running := true, nodes := [(nodeKey 0 0 0, n)] }
    { s with
      agenda := [⟨1, 1, .none, .pe 0 0⟩]
      lqpart := NatMap.set 0 s.lqpart 0 0x10
      regions := NatMap.insert s.regions 0 r }

end Sys2Proof.Machine
end

