-- ==== Sys2Proof/Machine/Step.lean ====
section
/-! DEFINITION. One step of the machine, and the state in which the next step runs a given word. -/

namespace Sys2Proof.Machine

/-- One step. With no turn named nothing happens but that the next one is asked for. -/
def step (s : State) : Host.Outcome State Fault Refusal :=
  match nextTurn s with
  | none => .next { s with stepNo := s.stepNo + 1 }
  | some (t, s1) => if !s1.powered && !givesPower t.act then .fault .noPower else actStep (beginTurn t s1) t.act

/-- The state in which the next step runs the instruction of `nbits` bits: a fabric word of 64 in a slot, a sequencer word of 128 at a queue's
PC. The table gives no other length. -/
def State.withFetchWord (s : State) (nbits w : Nat) : State :=
  if nbits = 64 then withSlotWord s w else if nbits = 128 then withQueueWord s w else s

end Sys2Proof.Machine
end

