-- ==== Sys2Proof/Safety.lean ====
section
/-! DEFINITION. What counts as a safe run: the package has power, or its next turn gives it power, and memory is in its canonical form. -/

namespace Sys2Proof.Safety
open Sys2Proof.Machine

/-- The memory of a state lists each byte that differs from what an unlisted byte reads as, once, in ascending order of address. -/
def MemInv (s : State) : Prop := Memory.wf s = true

/-- A state from which a step does not stop: the package has power. -/
def Powered (s : State) : Prop := s.powered = true

/-- A run is safe for `k` steps where none of them stops. -/
def SafeFor (k : Nat) (s : State) : Prop := ∃ s', Host.Core.run Sys2Proof.core k s = .next s'

end Sys2Proof.Safety
end

