-- ==== Sys2Proof/Certificates/Slice0/Obligations.lean ====
section
/-! DEFINITION. The statements about the model, for the provers. Each says which rule of the spec it formalises, or what it is derived from.
`Claims` holds the vocabulary they share. -/

open Sys2Proof Sys2Proof.Machine

namespace Sys2Proof.Claims

/-! ## Sequencer words -/

/-- A word of format A as it stands in memory (R98, R101). -/
def wordA (op : Nat) (h : Hdr) (o : OpA) : Nat := encodeSeq op h (.formatA o)
/-- A word of format E as it stands in memory (R98, R101). -/
def wordE (op : Nat) (h : Hdr) (o : OpE) : Nat := encodeSeq op h (.formatE o)

/-- Word `w` of queue `q` of logical quad `lq`, with wait and signal fields `h`, has its effect (state `s'`, from `s`) and retires to the next
word: R99, R254, R262. -/
def retires (s s' : State) (lq q w : Nat) (h : Hdr) (f : Flow) : Host.Outcome State Fault Refusal :=
  .next (retireWord s s' lq q w (sigOf h) f)

/-- The word takes a trap with a code and two arguments (R256, R395). -/
def traps (s : State) (lq q w code a0 a1 : Nat) : Host.Outcome State Fault Refusal := .next (s.trap lq q code w a0 a1)

/-- The state with a scalar register of a queue written; register 0 stays zero (R252). -/
def withReg (s : State) (lq q r : Nat) (v : Word64) : State := s.setQueue lq q ((s.queueOf lq q).setReg r v)

/-- The scalar words of R258 with their opcodes and what they put into qd, computed on integers and taken modulo 2^64. -/
def scalarTable : List ((Hdr → OpA → Instr) × Nat × (Word64 → Word64 → Word64 → Word64)) :=
  [ (.li, 0x00, fun imm _ _ => imm),
    (.addi, 0x01, fun imm a _ => BitVec.ofNat 64 (a.toNat + imm.toNat)),
    (.scalarAdd, 0x02, fun _ a b => BitVec.ofNat 64 (a.toNat + b.toNat)),
    (.scalarSub, 0x03, fun _ a b => BitVec.ofInt 64 (a.toNat - b.toNat)),
    (.scalarAnd, 0x04, fun _ a b => BitVec.ofNat 64 (a.toNat &&& b.toNat)),
    (.scalarOr, 0x05, fun _ a b => BitVec.ofNat 64 (a.toNat ||| b.toNat)),
    (.scalarXor, 0x06, fun _ a b => BitVec.ofNat 64 (a.toNat ^^^ b.toNat)),
    (.scalarShl, 0x07, fun _ a b => BitVec.ofNat 64 (a.toNat * 2 ^ (b.toNat % 64))),
    (.scalarShr, 0x08, fun _ a b => BitVec.ofNat 64 (a.toNat / 2 ^ (b.toNat % 64))),
    (.scalarSar, 0x09, fun _ a b => BitVec.ofInt 64 (a.toInt / 2 ^ (b.toNat % 64))),
    (.scalarMul, 0x0A, fun _ a b => BitVec.ofNat 64 (a.toNat * b.toNat)),
    (.slt, 0x0B, fun _ a b => if a.toInt < b.toInt then 1 else 0),
    (.sltu, 0x0C, fun _ a b => if a.toNat < b.toNat then 1 else 0) ]

/-- The condition of BRC by its cc field, on values (R260). -/
def branchTaken (cc : Nat) (a b : Word64) : Prop :=
  (cc = 0 ∧ a = b) ∨ (cc = 1 ∧ a ≠ b) ∨ (cc = 2 ∧ a.toInt < b.toInt) ∨ (cc = 3 ∧ b.toInt ≤ a.toInt) ∨
  (cc = 4 ∧ a.toNat < b.toNat) ∨ (cc = 5 ∧ b.toNat ≤ a.toNat)

/-- PC + 16 + 16 * imm modulo 2^57 (R260). -/
def branchTarget (pc : VAddr) (imm : Word64) : VAddr := BitVec.ofNat 57 (pc.toNat + 16 + 16 * imm.toNat)

/-- What a branch from `src` to `dst` leaves of the frames, top first (R263): none where it enters a body. -/
def framesAfter (src dst : VAddr) (fs : List LoopFrame) : Option (List LoopFrame) := branchLoops src dst fs

/-- The word has issued and waits for its own condition: its wait field is not tested again (R254). -/
def staysIssued (s : State) (lq q : Nat) (kind : WaitKind) (nbn : Nat) : Host.Outcome State Fault Refusal :=
  .next (waitWord (s.setQueue lq q { (s.queueOf lq q) with phase := .issued }) lq q kind 0 0 nbn)

/-- The word stays at issue in a phase of its own and waits. -/
def staysIn (s : State) (lq q : Nat) (p : IssuePhase) (kind : WaitKind) : Host.Outcome State Fault Refusal :=
  .next (waitWord (s.setQueue lq q { (s.queueOf lq q) with phase := p }) lq q kind 0 0 0)

/-- The state in which a class A word that has the system port runs: a word that has had it before goes on with it (R254, R255). -/
def portState (s : State) (lq q : Nat) : State := if (s.queueOf lq q).phase = .issued then s else served s lq q .system

/-- A queue that runs a word and is not at the end of a loop body. -/
def noLoopEnd (x : Queue) : Prop := ∀ f ∈ x.loops.head?, f.last ≠ x.pc

end Sys2Proof.Claims

open Sys2Proof.Claims

/-! ## Reset, steps, decoding -/

/-- R461 and the reset columns of R252, R253, R265, R267, R450: after reset DTIME reads 0, no logical quad is assigned to a partition, every
queue is HALTED at PC 0 with no vector, PRIO and CTX 0, an empty loop stack, its registers 0 (the model's choice, log 4), every semaphore 0, every named
barrier and task entry empty; no region and no launch exists, and memory lists nothing (the model's choice, log 1). -/
def Obligations.ResetLeavesQueuesHalted : Prop :=
  State.reset.dtime = 0 ∧ State.reset.regions = [] ∧ State.reset.launches = [] ∧ State.reset.mem = [] ∧
  ∀ lq q r n,
    State.reset.lqOwner lq = none ∧ (State.reset.queueOf lq q).st = .halted ∧ (State.reset.queueOf lq q).pc = 0 ∧
    (State.reset.queueOf lq q).tvec = 0 ∧ (State.reset.queueOf lq q).prio = 0 ∧ (State.reset.queueOf lq q).ctx = 0 ∧
    (State.reset.queueOf lq q).loops = [] ∧ (State.reset.queueOf lq q).reg r = 0 ∧ (State.reset.quadOf lq).semOf n = 0 ∧
    (State.reset.quadOf lq).nbOf n = ⟨0, [], 0, 0⟩ ∧ ((State.reset.quadOf lq).taskOf n).st = .free

/-- A step runs the decoded instruction (R103, R138, R253, R254; the model's choice, log 2). Where the agenda's next turn is a queue's, the queue runs in an assigned quad that is
in its turn, its fetch is answered and its wait field is met or has been, a step is exec of the instruction its word decodes to, in the state after the turn
has begun, its upset has struck the fetch and the wait has ended, the queue in focus; a word that decoding or its entry's fields refuse traps ILLEGAL_CMD with
the whole word. Where it is a PE's of a live region in its turn,
a step is exec of the word of the slot the selector picks, that slot and context in focus; with nothing ready to issue only the turn has begun. Where it
is an event's, a step is exec of the event; where it is a system core's or the host's, their access to memory; where the firmware enables the PF, that. A package without power does nothing until power comes. -/
def Obligations.StepRunsTheDecodedInstruction : Prop :=
  (∀ (s : State) (c ns : Nat) (u : Upset) (ts : List Turn) (lq q w : Nat),
     s.powered = true → s.agenda = ⟨c, ns, u, .queue lq q⟩ :: ts →
     let s1 := beginTurn ⟨c, ns, u, .queue lq q⟩ { s with agenda := ts }
     let x := s1.queueOf lq q
     let s2 := fetchStruck s1 lq q
     x.st = .running → s1.lqOwner lq ≠ none → s1.inTurn lq = true → x.isAnswering = false → frozenQueue s1 lq x = false →
     fetchWord s2 lq q = .done w → w < 2 ^ 128 → (x.phase.untested = true → waitMet (s2.quadOf lq) (hdrFields w) = true) →
     (∀ i, decodeTableWord 128 w = some i → i.wellFormed = true →
       step s = exec i { (goesOn (clearWait s2 lq q) lq q) with focus := .queue lq q }) ∧
     ((∀ i, decodeTableWord 128 w = some i → i.wellFormed = false) → step s = .next ((clearWait s2 lq q).trap lq q codeIllegal w 0 0))) ∧
  (∀ (s : State) (c ns : Nat) (u : Upset) (ts : List Turn) (rid pe : Nat) (r : Region),
     s.powered = true → s.agenda = ⟨c, ns, u, .pe rid pe⟩ :: ts →
     let s1 := beginTurn ⟨c, ns, u, .pe rid pe⟩ { s with agenda := ts }
     s1.region? rid = some r → r.live = true → s1.inTurn (r.lqOfBit (r.pes.getD pe 0)) = true →
     (∀ slot ctx i, selectFiring s1 rid r pe = some (slot, ctx) → r.instrAt slot = some i →
       step s = exec i { (issued s1 rid) with focus := .slot rid slot ctx }) ∧
     (selectFiring s1 rid r pe = none → step s = .next s1)) ∧
  (∀ (s : State) (c ns : Nat) (u : Upset) (ts : List Turn) (i : Instr),
     s.powered = true → s.agenda = ⟨c, ns, u, .event i⟩ :: ts →
     step s = exec i (beginTurn ⟨c, ns, u, .event i⟩ { s with agenda := ts })) ∧
  (∀ (s : State) (c ns : Nat) (u : Upset) (ts : List Turn), s.powered = true →
     (∀ n p acc, s.agenda = ⟨c, ns, u, .core n p acc⟩ :: ts →
       step s = execCoreAccess n p acc (beginTurn ⟨c, ns, u, .core n p acc⟩ { s with agenda := ts })) ∧
     (∀ off data, s.agenda = ⟨c, ns, u, .host off data⟩ :: ts →
       step s = execHostMemory off data (beginTurn ⟨c, ns, u, .host off data⟩ { s with agenda := ts })) ∧
     (s.agenda = ⟨c, ns, u, .enablePf⟩ :: ts → step s = .next (enablePf (beginTurn ⟨c, ns, u, .enablePf⟩ { s with agenda := ts })))) ∧
  ∀ (s : State) (c ns : Nat) (u : Upset) (ts : List Turn) (a : Act),
    s.powered = false → s.agenda = ⟨c, ns, u, a⟩ :: ts → (∀ ws, a ≠ .event (.powerOnReset ws)) → step s = .fault .noPower

/-- A headline of the model: no instruction is refused and no instruction stops the machine; every instruction has a next state from every
state, and a package with power never stops. -/
def Obligations.PoweredMachineNeverStops : Prop :=
  (∀ (i : Instr) (s : State), ∃ t, exec i s = .next t) ∧ ∀ s : State, s.powered = true → ∃ t, step s = .next t

/-- The canonical form of memory is kept by every step: each listed byte once, in rising order of address, none equal to what an unlisted
byte reads as. -/
def Obligations.EveryStepKeepsMemoryCanonical : Prop :=
  ∀ s t : State, Sys2Proof.Safety.MemInv s → step s = .next t → Sys2Proof.Safety.MemInv t

/-- At reset memory has its canonical form. -/
def Obligations.ResetMemoryCanonical : Prop :=
  Sys2Proof.Safety.MemInv State.reset

/-- R89 to R103: decoding what the encoder writes gives the instruction back, for every well-formed instruction and every value of every
operand. -/
def Obligations.DecodingInvertsEncoding : Prop :=
  ∀ (i : Instr) (n w : Nat), i.wellFormed = true → encode i = some (n, w) → decodeTableWord n w = some i

/-- Words written out from the encodings of R89, R98 and R101 decode to what they stand for: WAIT W(sem7, 2) (R103), LOOP #3, body=2 (R263), HALT, and
the fabric word ADD.i32 #5 under predicate true, to 4.a and 9.b (R89 to R91). -/
def Obligations.WorkedExamplesDecode : Prop :=
  decodeTableWord 128 0x20838002000000000000000000000000 =
    some (.wait { we := true, wsem := 7, wthr := 2, se := false, ssem := 0, inc := 0 } { qd := 0, qs := 0, qt := 0, b64 := false, imm := 0 }) ∧
  decodeTableWord 128 0x14000000000000000000000300000002 =
    some (.loop { we := false, wsem := 0, wthr := 0, se := false, ssem := 0, inc := 0 }
      { qd := 0, qs := 0, qt := 0, b64 := false, imm := 0x300000002 }) ∧
  decodeTableWord 128 0x16000000000000000000000000000000 =
    some (.halt { we := false, wsem := 0, wthr := 0, se := false, ssem := 0, inc := 0 } { qd := 0, qs := 0, qt := 0, b64 := false, imm := 0 }) ∧
  decodeTableWord 64 0x2030420258000005 =
    some (.add { ty := .i32, ga := .refuse, gb := .refuse, pm := .onTrue, t0 := some ⟨4, .a⟩, t1 := some ⟨9, .b⟩, imf := true, sub := 0, imm := 5 })

/-! ## Retirement, traps -/

/-- R99, R262, R263: a word that retires to the next word, without a signal and not at the end of a loop body, leaves the PC 16 further and its frames as
they were; with a signal whose sum stays within 65,535 the semaphore is that much higher and no other changes; one that would pass 65,535 is not
applied and the queue traps SEM_OVERFLOW. At END COUNT falls; a frame with a pass left starts again, a spent one is popped and a new top frame of the
same END is tested in the same retirement. A branch into a body traps LOOP_ENTRY, one that leaves it, or stands at END, discards the frame, one within it keeps it. -/
def Obligations.RetirementLoopsAndBranches : Prop :=
  (∀ (s0 s : State) (lq q w : Nat),
     let x := s.queueOf lq q
     (noLoopEnd x →
       ((retireWord s0 s lq q w none .next).queueOf lq q).pc = x.pc + 16 ∧ ((retireWord s0 s lq q w none .next).queueOf lq q).loops = x.loops ∧
       ∀ n v, (s.quadOf lq).semOf n + v ≤ 65535 →
         ((retireWord s0 s lq q w (some (n, v)) .next).quadOf lq).semOf n = (s.quadOf lq).semOf n + v ∧
         ((retireWord s0 s lq q w (some (n, v)) .next).queueOf lq q).pc = x.pc + 16 ∧
         ∀ m, m ≠ n → ((retireWord s0 s lq q w (some (n, v)) .next).quadOf lq).semOf m = (s.quadOf lq).semOf m) ∧
     (∀ n v, 65535 < (s.quadOf lq).semOf n + v → retireWord s0 s lq q w (some (n, v)) .next = s.trap lq q 0x20 w 0 0) ∧
     (∀ t sig, framesAfter x.pc t x.loops = none → retireWord s0 s lq q w sig (.branch t) = s0.trap lq q 0x22 w 0 0) ∧
     (∀ f fs, x.loops = f :: fs → f.last = x.pc → 1 < f.count →
       ((retireWord s0 s lq q w none .next).queueOf lq q).pc = f.start ∧
       ((retireWord s0 s lq q w none .next).queueOf lq q).loops = { f with count := f.count - 1 } :: fs)) ∧
  (∀ (f g : LoopFrame) (fs : List LoopFrame) (pc : VAddr),
     (f.last = pc → 1 < f.count → loopEnd pc (f :: fs) = ({ f with count := f.count - 1 } :: fs, f.start)) ∧
     (f.last = pc → f.count ≤ 1 → g.last ≠ pc → loopEnd pc (f :: g :: fs) = (g :: fs, pc + 16)) ∧
     (f.last = pc → f.count ≤ 1 → loopEnd pc [f] = ([], pc + 16)) ∧
     (f.last = pc → f.count ≤ 1 → g.last = pc → 1 < g.count →
       loopEnd pc (f :: g :: fs) = ({ g with count := g.count - 1 } :: fs, g.start)) ∧
     (f.last ≠ pc → loopEnd pc (f :: fs) = (f :: fs, pc + 16))) ∧
  ∀ (src dst : VAddr) (f : LoopFrame),
    (f.has src = false → f.has dst = true → ∀ fs, framesAfter src dst (f :: fs) = none) ∧
    (f.has src = true → f.has dst = false → framesAfter src dst [f] = some []) ∧
    (f.last = src → f.has src = true → framesAfter src dst [f] = some []) ∧
    (f.has src = true → f.has dst = true → f.last ≠ src → framesAfter src dst [f] = some [f]) ∧
    (f.has src = false → f.has dst = false → f.last ≠ src → framesAfter src dst [f] = some [f])

/-- R256, R394, R395: a trap leaves the queue TRAPPED at its word with its registers, loop stack and vector as they were, changes no other queue and
no memory, and adds one record of KIND 1 with the code, the PC, the word and the arguments to the partition's waiting records. Once that
record is written at `addr`, a queue with a vector has q29 := CODE, q30 := PC, q31 := addr, its vector 0, STATE RUNNING and PC := the old
vector, its loop stack kept; a queue without one stays TRAPPED. -/
def Obligations.TrapEntryAndVector : Prop :=
  (∀ (s : State) (lq q code w a0 a1 : Nat),
    let x := s.queueOf lq q
    let t := s.trap lq q code w a0 a1
    (t.queueOf lq q).st = .trapped ∧ (t.queueOf lq q).pc = x.pc ∧ (t.queueOf lq q).regs = x.regs ∧ (t.queueOf lq q).loops = x.loops ∧
    (t.queueOf lq q).tvec = x.tvec ∧ (∀ k j, (k ≠ lq ∨ j ≠ q) → t.queueOf k j = s.queueOf k j) ∧ (∀ a, t.byteAt a = s.byteAt a) ∧
    ∃ f, (t.partOf (s.partOfLq lq)).records = (s.partOf (s.partOfLq lq)).records ++ [f] ∧ f.kind = 1 ∧ f.code = code ∧
      f.word = x.pc.toNat ∧ f.seqWord = w ∧ f.arg0 = a0 ∧ f.arg1 = a1 ∧ f.ctx = x.ctx ∧ f.lq = lq ∧ f.slot = q ∧ f.dtime = s.dtime) ∧
  ∀ (x : Queue) (code : Nat) (pc : VAddr) (addr : Nat),
    (x.tvec ≠ 0 →
      let y := x.vector code pc addr
      y.reg 29 = BitVec.ofNat 64 code ∧ y.reg 30 = BitVec.ofNat 64 pc.toNat ∧ y.reg 31 = BitVec.ofNat 64 addr ∧ y.tvec = 0 ∧
      y.st = .running ∧ y.pc = x.tvec ∧ y.loops = x.loops ∧ ∀ r, r < 29 → y.reg r = x.reg r) ∧
    (x.tvec = 0 → x.vector code pc addr = { x with st := .trapped })

/-! ## Scalar and control words -/

/-- R258: each of the thirteen scalar words writes qd := its result, computed exactly and taken modulo 2^64, and retires; a write of q0 is
discarded. -/
def Obligations.ScalarWordsGiveExactResults : Prop :=
  ∀ e ∈ scalarTable, ∀ (h : Hdr) (o : OpA) (s : State) (lq q : Nat), s.focus = .queue lq q →
    let x := s.queueOf lq q
    exec (e.1 h o) s =
      retires s (withReg s lq q o.qd.toNat (e.2.2 o.imm (x.reg o.qs.toNat) (x.reg o.qt.toNat))) lq q (wordA e.2.1 h o) h .next

/-- R101, R252: a write of a register is read back, a write of q0 is discarded and q0 reads zero, every other register is as before. -/
def Obligations.RegisterZeroStaysZero : Prop :=
  ∀ (x : Queue) (r : Nat) (v : Word64),
    (r ≠ 0 → (x.setReg r v).reg r = v) ∧ (x.setReg 0 v) = x ∧ x.reg 0 = 0 ∧ ∀ k, k ≠ r → (x.setReg r v).reg k = x.reg k

/-- R260, R261, R263, R434: BR, BRC, CALL, RET, HALT, LOOP and YIELD. The branches go to PC + 16 + 16 * imm; CALL leaves PC + 16 in qd; RET takes its target
from qs and traps ALIGNMENT where bits 3 to 0 are set; HALT stops the queue after its word; BRC traps on cc 6 to 31; LOOP pushes a frame, skips its
body on COUNT 0, and traps LOOP_ENTRY on a full stack or a body that ends beyond the enclosing one. YIELD changes the turn of its physical quad where
that hosts more than one logical quad, once no LDQ or STQ of the quad is outstanding (its wait shows KIND 4, the model's choice, log 169); elsewhere it
freezes the launch of its context where a launch waits to which it yields. -/
def Obligations.ControlWords : Prop :=
  (∀ (h : Hdr) (o : OpA) (s : State) (lq q : Nat), s.focus = .queue lq q →
     let x := s.queueOf lq q
     let a := x.reg o.qs.toNat
     let last := BitVec.ofNat 57 (x.pc.toNat + 16 * bits o.imm.toNat 15 0)
     let count := if o.qs = 0 then bits o.imm.toNat 63 32 else a.toNat
     let badLoop : Prop := 4 ≤ x.loops.length ∨
       ∃ f fs, x.loops = f :: fs ∧ f.start.toNat ≤ x.pc.toNat ∧ x.pc.toNat ≤ f.last.toNat ∧ f.last.toNat < last.toNat
     exec (.br h o) s = retires s s lq q (wordA 0x10 h o) h (.branch (branchTarget x.pc o.imm)) ∧
     (o.qd.toNat < 6 → branchTaken o.qd.toNat a (x.reg o.qt.toNat) →
       exec (.brc h o) s = retires s s lq q (wordA 0x11 h o) h (.branch (branchTarget x.pc o.imm))) ∧
     (o.qd.toNat < 6 → ¬ branchTaken o.qd.toNat a (x.reg o.qt.toNat) → exec (.brc h o) s = retires s s lq q (wordA 0x11 h o) h .next) ∧
     (6 ≤ o.qd.toNat → exec (.brc h o) s = traps s lq q (wordA 0x11 h o) 0x02 0 0) ∧
     exec (.call h o) s = retires s (withReg s lq q o.qd.toNat (BitVec.ofNat 64 (x.pc + 16).toNat)) lq q (wordA 0x12 h o) h
       (.jump (branchTarget x.pc o.imm)) ∧
     (a.toNat % 16 = 0 → exec (.ret h o) s = retires s s lq q (wordA 0x13 h o) h (.jump (BitVec.ofNat 57 a.toNat))) ∧
     (a.toNat % 16 ≠ 0 → exec (.ret h o) s = traps s lq q (wordA 0x13 h o) 0x13 a.toNat 0) ∧
     exec (.halt h o) s = retires s s lq q (wordA 0x16 h o) h .halt ∧
     (badLoop → exec (.loop h o) s = traps s lq q (wordA 0x14 h o) 0x22 0 0) ∧
     (¬ badLoop → count = 0 → exec (.loop h o) s = retires s s lq q (wordA 0x14 h o) h (.jump (last + 16))) ∧
     (¬ badLoop → count ≠ 0 →
       exec (.loop h o) s = retires s (s.setQueue lq q { x with loops := ⟨count, x.pc + 16, last⟩ :: x.loops }) lq q (wordA 0x14 h o) h .next)) ∧
  ∀ (h : Hdr) (o : OpA) (s : State) (lq q : Nat), s.focus = .queue lq q →
    (1 < bits (s.remapOf lq) 15 8 → (∀ k, k < 4 → accessOut (s.queueOf lq k) = false) →
      exec (.yield h o) s = retires s (changeTurn s (s.pqOf lq)) lq q (wordA 0x15 h o) h .next) ∧
    (1 < bits (s.remapOf lq) 15 8 → (∃ k, k < 4 ∧ accessOut (s.queueOf lq k) = true) → exec (.yield h o) s = .next (waitWord s lq q .port 0 0 0)) ∧
    (bits (s.remapOf lq) 15 8 ≤ 1 → s.launchOfCtx (s.queueOf lq q).ctx = none → exec (.yield h o) s = retires s s lq q (wordA 0x15 h o) h .next) ∧
    (∀ n v, bits (s.remapOf lq) 15 8 ≤ 1 → s.launchOfCtx (s.queueOf lq q).ctx = some (n, v) → yieldsTo s n v = none →
      exec (.yield h o) s = retires s s lq q (wordA 0x15 h o) h .next) ∧
    (∀ n v run, bits (s.remapOf lq) 15 8 ≤ 1 → s.launchOfCtx (s.queueOf lq q).ctx = some (n, v) → yieldsTo s n v = some run →
      exec (.yield h o) s = retires s (freezeLaunch s n v 3 run) lq q (wordA 0x15 h o) h .next)

/-! ## Semaphores, barriers, tasks -/

/-- R264: WAIT retires once its operand wait, where OPW is set, holds; SIG adds (qs + v) mod 2^64 to SEM[n]; SEMSET sets it; each traps SEM_OVERFLOW and
changes nothing where the value would pass 65,535; SEMRD reads SEM[n], zero-extended; WAIT and SEMRD see the value at the end of the previous cycle. R266: NBARR with e of 1 to 4 arrives: EXP becomes e on the first
arrival, PEND[q] is set and ARR rises, and the arrival that reaches EXP completes the generation (GEN + 1, ARR 0, PEND 0); other e trap ILLEGAL_CMD, a
second arrival or another e trap BARRIER_OVERRUN. NBWAIT retires where PEND[q] is clear and waits otherwise. -/
def Obligations.SemaphoreAndBarrierWords : Prop :=
  (∀ (h : Hdr) (o : OpA) (s : State) (lq q : Nat), s.focus = .queue lq q →
     let x := s.queueOf lq q
     let y := s.quadOf lq
     let n := bits o.imm.toNat 7 0
     let v := ((x.reg o.qs.toNat).toNat + bits o.imm.toNat 31 16) % 2 ^ 64
     (o.imm.toNat.testBit 32 = false ∨ bits o.imm.toNat 31 16 ≤ y.semSeen n → exec (.wait h o) s = retires s s lq q (wordA 0x20 h o) h .next) ∧
     (o.imm.toNat.testBit 32 = true → y.semSeen n < bits o.imm.toNat 31 16 →
       exec (.wait h o) s = .next (waitWord s lq q .sem n (bits o.imm.toNat 31 16) 0)) ∧
     (y.semOf n + v ≤ 65535 → exec (.sig h o) s = retires s (s.setQuad lq (y.setSem n (y.semOf n + v))) lq q (wordA 0x21 h o) h .next) ∧
     (65535 < y.semOf n + v → exec (.sig h o) s = traps s lq q (wordA 0x21 h o) 0x20 0 0) ∧
     (v ≤ 65535 → exec (.semset h o) s = retires s (s.setQuad lq (y.setSem n v)) lq q (wordA 0x22 h o) h .next) ∧
     (65535 < v → exec (.semset h o) s = traps s lq q (wordA 0x22 h o) 0x20 0 0) ∧
     exec (.semrd h o) s = retires s (withReg s lq q o.qd.toNat (BitVec.ofNat 64 (y.semSeen n))) lq q (wordA 0x23 h o) h .next) ∧
  ∀ (h : Hdr) (o : OpA) (s : State) (lq q : Nat), s.focus = .queue lq q →
    let y := s.quadOf lq
    let n := bits o.imm.toNat 4 0
    let e := bits o.imm.toNat 10 8
    let b := y.nbOf n
    let here := NatMap.get false b.pend q
    let exp := if b.arr = 0 then e else b.exp
    (e = 0 ∨ 4 < e → exec (.nbarr h o) s = traps s lq q (wordA 0x24 h o) 0x02 0 0) ∧
    (1 ≤ e → e ≤ 4 → (here = true ∨ (0 < b.arr ∧ e ≠ b.exp)) → exec (.nbarr h o) s = traps s lq q (wordA 0x24 h o) 0x23 0 0) ∧
    (1 ≤ e → e ≤ 4 → here = false → (b.arr = 0 ∨ e = b.exp) → b.arr + 1 ≠ exp →
      exec (.nbarr h o) s = retires s (s.setQuad lq (y.setNb n { gen := b.gen, pend := NatMap.set false b.pend q true, exp := exp, arr := b.arr + 1 }))
        lq q (wordA 0x24 h o) h .next) ∧
    (1 ≤ e → e ≤ 4 → here = false → (b.arr = 0 ∨ e = b.exp) → b.arr + 1 = exp →
      exec (.nbarr h o) s = retires s (s.setQuad lq (y.setNb n { gen := (b.gen + 1) % 2 ^ 16, pend := [], exp := exp, arr := 0 }))
        lq q (wordA 0x24 h o) h .next) ∧
    (here = false → exec (.nbwait h o) s = retires s s lq q (wordA 0x25 h o) h .next) ∧
    (here = true → exec (.nbwait h o) s = staysIssued s lq q .nbwait n)

/-- R267 to R270: TASKDEF writes entry n whole, READY where CNT is 0 and WAIT otherwise, and traps ALIGNMENT on a misaligned entry address. TASKDONE of a task
above 63 traps ILLEGAL_CMD; where some successor's counter is below its listings it traps TASK_UNDERFLOW; otherwise each listed successor's counter falls and the
task is DONE. TASKNEXT takes the task, READY since before this cycle, of the highest PRIO, then lowest number, sets qd and branches to its entry, unless another
queue goes first; with none to take it waits while one is in WAIT or has become READY in this cycle, else it sets qd to all ones. No such task goes before the
head of the ready queue. -/
def Obligations.TaskWords : Prop :=
  (∀ (h : Hdr) (o : OpA) (s : State) (lq q : Nat), s.focus = .queue lq q →
     let x := s.queueOf lq q
     let y := s.quadOf lq
     let i := o.imm.toNat
     let a := (x.reg o.qs.toNat).toNat
     let n := (a + bits i 5 0) % 2 ^ 64
     let ss := (y.taskOf n).successors
     (a % 16 ≠ 0 → exec (.taskdef h o) s = traps s lq q (wordA 0x26 h o) 0x13 a 0) ∧
     (a % 16 = 0 →
       exec (.taskdef h o) s = retires s (s.setQuad lq (y.setTask (bits i 5 0)
         { prio := bits i 19 16, svalid := bits i 23 20, succ := [bits i 29 24, bits i 37 32, bits i 45 40, bits i 53 48], cnt := bits i 15 8
           st := if bits i 15 8 = 0 then .ready else .wait, entry := BitVec.ofNat 57 a })) lq q (wordA 0x26 h o) h .next) ∧
     (64 ≤ n → exec (.taskdone h o) s = traps s lq q (wordA 0x27 h o) 0x02 0 0) ∧
     (n < 64 → (∃ t ∈ ss, (y.taskOf t).cnt < ss.count t) → exec (.taskdone h o) s = traps s lq q (wordA 0x27 h o) 0x21 0 0) ∧
     (n < 64 → (∀ t ∈ ss, ss.count t ≤ (y.taskOf t).cnt) →
       let z := ss.foldl releaseTask y
       exec (.taskdone h o) s = retires s (s.setQuad lq (z.setTask n { (z.taskOf n) with st := .done })) lq q (wordA 0x27 h o) h .next) ∧
     (rival s lq q .task = false → ∀ k, readyHead y = some k →
       exec (.tasknext h o) s = retires s
         ((served (s.setQuad lq (y.setTask k { (y.taskOf k) with st := .run })) lq q .task).setQueue lq q (x.setReg o.qd.toNat (BitVec.ofNat 64 k)))
         lq q (wordA 0x28 h o) h (.branch (y.taskOf k).entry)) ∧
     (rival s lq q .task = true → readyHead y ≠ none → exec (.tasknext h o) s = staysIssued s lq q .tasknext 0) ∧
     (readyHead y = none → (∀ e ∈ y.tasks, e.2.st ≠ .wait ∧ e.2.st ≠ .ready) →
       exec (.tasknext h o) s = retires s (withReg s lq q o.qd.toNat (BitVec.allOnes 64)) lq q (wordA 0x28 h o) h .next) ∧
     (readyHead y = none → (∃ e ∈ y.tasks, e.2.st = .wait ∨ e.2.st = .ready) → exec (.tasknext h o) s = staysIssued s lq q .tasknext 0)) ∧
  ∀ (y : Quad) (k : Nat), (∀ e ∈ y.tasks, e.2.prio ≤ 15 ∧ e.1 < 64) → readyHead y = some k →
    ∃ t, (k, t) ∈ y.tasks ∧ t.st = .ready ∧ k ∉ y.fresh ∧ ∀ e ∈ y.tasks, e.2.st = .ready → e.1 ∉ y.fresh → e.2.prio < t.prio ∨ (e.2.prio = t.prio ∧ k ≤ e.1)

/-! ## Memory and system words -/

/-- R256, R259: LDQ and STQ go to A = (qs + imm) mod 2^57. A misaligned A traps ALIGNMENT; where the access is answered, LDQ writes qd with the
little-endian number of the eight bytes read and retires, STQ writes the eight bytes of qt and retires once the store is performed, for which it waits where
a peer performs it; a fault of the access traps with its code and address; an access that is held waits and notes the held page. An upset of the turn
strikes the read of LDQ; a poisoned granule gives it a free value (the model's choice, log 46). -/
def Obligations.QueueLoadsAndStores : Prop :=
  ∀ (h : Hdr) (o : OpA) (s : State) (lq q : Nat), s.focus = .queue lq q →
    let x := s.queueOf lq q
    let a := ((x.reg o.qs.toNat).toNat + o.imm.toNat) % 2 ^ 57
    let s1 := s.struck (queueAccess s lq x) a
    let rd := queueAccess s1 lq x
    let acc := queueAccess s lq x
    let data := toBytes 8 (x.reg o.qt.toNat).toNat
    let sent := fun t : State => t.ownedBy s (.store lq q x.ctx a)
    (a % 8 ≠ 0 → exec (.ldq h o) s = traps s1 lq q (wordA 0x0D h o) 0x13 a 0 ∧ (x.phase ≠ .storing → exec (.stq h o) s = traps s lq q (wordA 0x0E h o) 0x13 a 0)) ∧
    (∀ bs, a % 8 = 0 → s1.readVa rd a 8 = .done (bs, false) →
      exec (.ldq h o) s = retires s (s1.setQueue lq q (x.setReg o.qd.toNat (BitVec.ofNat 64 (ofBytes bs)))) lq q (wordA 0x0D h o) h .next) ∧
    (∀ bs, a % 8 = 0 → s1.readVa rd a 8 = .done (bs, true) →
      exec (.ldq h o) s = retires s (s1.freeValue.2.setQueue lq q (x.setReg o.qd.toNat s1.freeValue.1)) lq q (wordA 0x0D h o) h .next) ∧
    (∀ t, x.phase ≠ .storing → a % 8 = 0 → s.writeVa acc a data = .done t → storeOut (sent t) lq q = false →
      exec (.stq h o) s = retires s (sent t) lq q (wordA 0x0E h o) h .next) ∧
    (∀ t, x.phase ≠ .storing → a % 8 = 0 → s.writeVa acc a data = .done t → storeOut (sent t) lq q = true →
      exec (.stq h o) s = .next (waitWord ((sent t).setQueue lq q { ((sent t).queueOf lq q) with phase := .storing }) lq q .access 0 0 0)) ∧
    (x.phase = .storing → storeOut s lq q = false → exec (.stq h o) s = retires s s lq q (wordA 0x0E h o) h .next) ∧
    (∀ c v, a % 8 = 0 → s1.readVa rd a 8 = .fault c v → exec (.ldq h o) s = traps s1 lq q (wordA 0x0D h o) c v 0) ∧
    (∀ c v, x.phase ≠ .storing → a % 8 = 0 → s.writeVa acc a data = .fault c v → exec (.stq h o) s = traps s lq q (wordA 0x0E h o) c v 0) ∧
    (∀ k, a % 8 = 0 → s1.readVa rd a 8 = .wait k → exec (.ldq h o) s = staysIn (s1.noteHold k) lq q .access .access) ∧
    (∀ k, x.phase ≠ .storing → a % 8 = 0 → s.writeVa acc a data = .wait k → exec (.stq h o) s = staysIn (s.noteHold k) lq q .access .access)

/-- R255, R407, R408: SYSRD and SYSWR at the system port, while no other queue goes first. An address with bits 2 to 0 set traps ALIGNMENT; one that
names no register of the spaces 0 to 4 traps ILLEGAL_CMD; a register outside the rights of the queue's partition traps PERMISSION; SYSRD
puts the register, or zero where it is another partition's, into qd; SYSWR writes qt. -/
def Obligations.RegisterAccessWords : Prop :=
  ∀ (h : Hdr) (o : OpA) (s : State) (lq q : Nat), s.focus = .queue lq q → rival s lq q .system = false →
    let x := s.queueOf lq q
    let s1 := portState s lq q
    let p := s1.partOfLq lq
    let a := (x.reg o.qs.toNat + o.imm).toNat
    let rd := wordA 0xA0 h o
    let wr := wordA 0xA1 h o
    (a % 8 ≠ 0 → exec (.sysrd h o) s = traps s1 lq q rd 0x13 a 0 ∧ exec (.syswr h o) s = traps s1 lq q wr 0x13 a 0) ∧
    (a % 8 = 0 → a / 2 ^ 36 ≠ 5 → a / 2 ^ 36 ≠ 6 → regAt s1 a = none →
      exec (.sysrd h o) s = traps s1 lq q rd 0x02 0 0 ∧ exec (.syswr h o) s = traps s1 lq q wr 0x02 0 0) ∧
    (a % 8 = 0 → (a / 2 ^ 36 = 5 ∨ a / 2 ^ 36 = 6) → exec (.sysrd h o) s = traps s1 lq q rd 0x11 a 0 ∧ exec (.syswr h o) s = traps s1 lq q wr 0x11 a 0) ∧
    (∀ r, a % 8 = 0 → a / 2 ^ 36 ≠ 5 → a / 2 ^ 36 ≠ 6 → regAt s1 a = some r →
      (mayRead s1 p a = false → exec (.sysrd h o) s = traps s1 lq q rd 0x11 a 0) ∧
      (mayRead s1 p a = true →
        exec (.sysrd h o) s = retires s (withReg (afterRead s1 r) lq q o.qd.toNat (BitVec.ofNat 64 (if hidden s1 p r then 0 else readReg s1 r)))
          lq q rd h .next) ∧
      (mayWrite s1 p r a = false → exec (.syswr h o) s = traps s1 lq q wr 0x11 a 0) ∧
      (mayWrite s1 p r a = true → exec (.syswr h o) s = retires s (writeReg s1 r (x.reg o.qt.toNat)) lq q wr h .next))

/-- R202, R203, R411 to R413: TLBINV drops the translations of its range, at once where no access that went by one is on its way, and otherwise
waits for those accesses and then releases the holds; QFLUSH flushes the queues it names once no LDQ or STQ of theirs is outstanding, and traps on a
quad of another partition, or where its mask names its own queue; its wait for them shows KIND 4 (the model's choice, log 110); EVENT writes a record of KIND 2 with its code and qs where the ring has room, waits where it has
none, and traps ILLEGAL_CMD on a code below 0x80. -/
def Obligations.MaintenanceWords : Prop :=
  ∀ (h : Hdr) (o : OpA) (s : State) (lq q : Nat), s.focus = .queue lq q → rival s lq q .system = false →
    let x := s.queueOf lq q
    let s1 := portState s lq q
    let lo := (x.reg o.qs.toNat).toNat
    let n := (x.reg o.qt.toNat).toNat
    let r : InvRange := if n = 0 then ⟨s.partOfLq lq, 0, 2 ^ 57⟩ else ⟨s.partOfLq lq, lo, lo + 2 ^ 16 * n⟩
    let mask := bits o.imm.toNat 3 0
    let code := bits o.imm.toNat 7 0
    (x.phase = .fresh → lo % 2 ^ 16 = 0 → r.hi ≤ 2 ^ 57 → travelling s r = [] →
      exec (.tlbInv h o) s = retires s (releaseHolds (dropTranslations s1 r) r) lq q (wordA 0xA2 h o) h .next) ∧
    (∀ ids, x.phase = .draining ids → (∀ i ∈ ids, (∀ p ∈ s.pending, p.req.id ≠ i) ∧ ∀ e ∈ s.peerOut, e.acc.id ≠ i) →
      exec (.tlbInv h o) s = retires s (releaseHolds s r) lq q (wordA 0xA2 h o) h .next) ∧
    (x.phase = .fresh → travelling s r ≠ [] → lo % 2 ^ 16 = 0 → r.hi ≤ 2 ^ 57 →
      exec (.tlbInv h o) s = .next (waitWord ((dropTranslations s1 r).setQueue lq q
        { ((dropTranslations s1 r).queueOf lq q) with phase := .draining (travelling s r) }) lq q .port 0 0 0)) ∧
    (x.phase = .fresh → lo % 2 ^ 16 ≠ 0 → exec (.tlbInv h o) s = traps s lq q (wordA 0xA2 h o) 0x13 lo 0) ∧
    (lo < 128 → mask ≠ 0 → s1.lqOwner lo = some (s1.partOfLq lq) → (lo ≠ lq ∨ mask.testBit q = false) →
      (∀ k ∈ [0, 1, 2, 3], mask.testBit k = true → accessOut (s1.queueOf lo k) = false) →
      exec (.qflush h o) s = retires s (flushQueues s1 lo ([0, 1, 2, 3].filter fun k => mask.testBit k)) lq q (wordA 0xA3 h o) h .next) ∧
    (128 ≤ lo ∨ mask = 0 → exec (.qflush h o) s = traps s1 lq q (wordA 0xA3 h o) 0x02 0 0) ∧
    (lo = lq → lq < 128 → mask.testBit q = true → s1.lqOwner lq ≠ none → exec (.qflush h o) s = traps s1 lq q (wordA 0xA3 h o) 0x02 0 0) ∧
    (lo < 128 → mask ≠ 0 → s1.lqOwner lo = some (s1.partOfLq lq) → (lo ≠ lq ∨ mask.testBit q = false) →
      (∃ k ∈ [0, 1, 2, 3], mask.testBit k = true ∧ accessOut (s1.queueOf lo k) = true) → exec (.qflush h o) s = .next (waitWord s1 lq q .port 0 0 0)) ∧
    (lo < 128 → mask ≠ 0 → s1.lqOwner lo ≠ some (s1.partOfLq lq) → exec (.qflush h o) s = traps s1 lq q (wordA 0xA3 h o) 0x11 0 0) ∧
    (code < 0x80 → exec (.event h o) s = traps s1 lq q (wordA 0xA6 h o) 0x02 0 0) ∧
    (0x80 ≤ code → (s1.partOf (s1.partOfLq lq)).ringRoom = false ∨ s1.ringWaits (s1.partOfLq lq) lq = true →
      exec (.event h o) s = .next (waitWord s1 lq q .port 0 0 0)) ∧
    (0x80 ≤ code → (s1.partOf (s1.partOfLq lq)).ringRoom = true → s1.ringWaits (s1.partOfLq lq) lq = false →
      exec (.event h o) s = retires s
        (s1.writeRecord { FaultRecord.blank with kind := 2, code := code, part := s1.partOfLq lq, lq := lq, slot := q, word := lo, dtime := s1.dtime }).1
        lq q (wordA 0xA6 h o) h .next)

/-- R435, R436: CTXSAVE of a context of a running launch of the partition. Where the area is too small, qd takes 2^63 plus the image's size and nothing
is saved; where it is large enough the launch is frozen and its save begins, the word waiting, but for a region fault of it that waits for the ring and comes first (R430); once the image is complete the word retires
with its size in qd. CTXLOAD of a complete image whose places are free restores it and retires with 0 in qd. -/
def Obligations.SaveAndLoadWords : Prop :=
  ∀ (h : Hdr) (o : OpA) (s : State) (lq q : Nat), s.focus = .queue lq q →
    let x := s.queueOf lq q
    let s1 := portState s lq q
    let c := (x.reg o.qs.toNat).toNat
    let va := (x.reg o.qt.toNat).toNat
    let d := o.qd.toNat
    let area := (List.range (bits o.imm.toNat 31 0)).map fun i => (va + 2 ^ 16 * i) % 2 ^ 57
    (∀ n l ps, x.phase = .fresh → rival s lq q .system = false → c < 2 ^ 12 → s1.launchOfCtx c = some (n, l) → l.phase = .running →
      l.part = s1.partOfLq lq → l.allCtxs.contains x.ctx = false → va % 2 ^ 16 = 0 → areaPages s1 (queueAccess s1 lq x) area = .ok ps →
      (65536 * ps.length < imageSize s1 n l →
        exec (.ctxsave h o) s = retires s (s1.setQueue lq q ((s1.queueOf lq q).setReg d (BitVec.ofNat 64 (2 ^ 63 + imageSize s1 n l)))) lq q
          (wordA 0xA4 h o) h .next) ∧
      (imageSize s1 n l ≤ 65536 * ps.length → launchOwes s1 n l = true →
        let s2 := putImage { s1 with nextImage := s1.nextImage + 1 } s1.nextImage (newImage s1 n l 2 ps)
        exec (.ctxsave h o) s = staysIn s2 lq q (.saving s1.nextImage) .region) ∧
      (imageSize s1 n l ≤ 65536 * ps.length → launchOwes s1 n l = false →
        exec (.ctxsave h o) s = .next (waitWord ((freezeLaunch s1 n l 2 ps).setQueue lq q
          { ((freezeLaunch s1 n l 2 ps).queueOf lq q) with phase := .saving s1.nextImage }) lq q .region 0 0 0))) ∧
    (∀ k im, x.phase = .saving k → NatMap.find? s.images k = some im → im.st = .complete →
      exec (.ctxsave h o) s = retires s (withReg s lq q d (BitVec.ofNat 64 im.size)) lq q (wordA 0xA4 h o) h .next) ∧
    (∀ k im l, x.phase = .restoring k → NatMap.find? s.images k = some im → im.st = .complete → s.launch? im.launch = some l →
      imageFree s [] im = true →
      exec (.ctxload h o) s = retires s (withReg (restoreImage s k im.launch im l) lq q d 0) lq q (wordA 0xA5 h o) h .next)

/-- R273, R440: LAUNCH copies its 128-byte record into the queue's slot WIDX, and WIDX rises by one; it waits while the ring is full and traps PERMISSION for a queue
that is disabled (the model's choice, log 47); bytes that were poisoned stay so in the ring (the model's choice, log 167). R274, R329: CFGLOAD of operands that
are answered and pass its checks, on PEs of its partition that nothing holds, places the block and puts the handle, 256 times the gallery plus the lowest
PE, into qd; it traps BLOCK_INVALID with the slot that its checks name (which stands in ARG0: log 48), ACCESS_DENIED on a PE of another partition, and waits while a
running region holds one of its PEs. R275: QWAIT of a region that a queue of the partition configured, in place or saved with its launch, retires with 0 or the
fault's code once it has stopped, waits until then, and traps PERMISSION on any other handle, that of another partition's region among them. Misaligned operands,
each of the three, trap ALIGNMENT. -/
def Obligations.LaunchAndRegionWords : Prop :=
  ∀ (h : Hdr) (o : OpE) (s : State) (lq q : Nat), s.focus = .queue lq q →
    let x := s.queueOf lq q
    let acc := queueAccess s lq x
    let a := (x.reg o.qs.toNat).toNat
    let p := s.partOfLq lq
    let k := bits o.imm.toNat 5 0
    let e := s.lqOf p k
    let s1 := s.struckIn acc [(a % 2 ^ 57, 128)]
    let room := (e.widx + 2 ^ 32 - e.ridx) % 2 ^ 32 < 2 ^ e.logn
    let desc := (x.reg o.qt.toNat).toNat
    let plc := (x.reg o.qv.toNat).toNat
    let cctx := bits o.imm.toNat 1 0
    let start := o.sub.toNat.testBit 0
    let s2 := s.struckIn acc (if s.upset = .none then [] else cfgReads s acc a desc plc)
    let cfg := readCfg s2 (queueAccess s2 lq x) (a % 2 ^ 57) (desc % 2 ^ 57) (plc % 2 ^ 57)
    (a % 64 ≠ 0 → exec (.launch h o) s = traps s lq q (wordE 0x30 h o) 0x13 a 0 ∧ exec (.cfgload h o) s = traps s lq q (wordE 0x31 h o) 0x13 a 0) ∧
    (a % 64 = 0 → desc % 32 ≠ 0 → exec (.cfgload h o) s = traps s lq q (wordE 0x31 h o) 0x13 desc 0) ∧
    (a % 64 = 0 → desc % 32 = 0 → plc % 8 ≠ 0 → exec (.cfgload h o) s = traps s lq q (wordE 0x31 h o) 0x13 plc 0) ∧
    (a % 64 = 0 → e.enabled = false → exec (.launch h o) s = traps s lq q (wordE 0x30 h o) 0x11 a 0) ∧
    (a % 64 = 0 → e.enabled = true → ¬ room → exec (.launch h o) s = staysIssued s lq q .ring 0) ∧
    (∀ bs bad t, a % 64 = 0 → e.enabled = true → room →
      s1.readVa (queueAccess s1 lq x) (a % 2 ^ 57) 128 = .done (bs, bad) → s1.writeVa (queueAccess s1 lq x) (e.slotAt e.widx) bs = .done t →
      let t1 := if bad then markRecord t (queueAccess s1 lq x) (e.slotAt e.widx) else t
      exec (.launch h o) s = retires s (t1.setLq p k { (t.lqOf p k) with widx := (e.widx + 1) % 2 ^ 32, bells := e.bells ++ [s1.cycle] }) lq q
        (wordE 0x30 h o) h .next) ∧
    (∀ c : CfgImages, a % 64 = 0 → desc % 32 = 0 → plc % 8 = 0 → cfg = .done c →
      let pes := (List.range 144).filter fun i => c.mask.testBit i
      let handle := 256 * c.gal + pes.headD 0
      let launch := (s2.launchOfCtx x.ctx).map (·.1)
      let mine := ∀ b ∈ pes, s2.lqOwner (16 * c.gal + b / 9) = some p
      let may := launch ≠ none ∨ (s2.heldCtx x.ctx = true ∧ bits (NatMap.get 0 s2.ctxown x.ctx).toNat 3 0 = p ∧
        ∀ e ∈ s2.regions, e.1 ≠ handle → e.2.running = true → e.2.launch = none → e.2.ctx0 ≠ x.ctx)
      (∀ slot, cfgRejects c = some slot → exec (.cfgload h o) s = traps s2 lq q (wordE 0x31 h o) 0x01 slot 0) ∧
      (cfgRejects c = none → ¬ mine → exec (.cfgload h o) s = traps s2 lq q (wordE 0x31 h o) 0x12 0 0) ∧
      (cfgRejects c = none → mine → may → (∃ e ∈ s2.regions, cfgWaits c.mask c.gal cctx start e.2 = true) →
        exec (.cfgload h o) s = staysIssued s2 lq q .region 0) ∧
      (cfgRejects c = none → mine → may → (∀ e ∈ s2.regions, cfgWaits c.mask c.gal cctx start e.2 = false) →
        exec (.cfgload h o) s = retires s
          ((cfgPlace s2 p x.ctx handle c.mask c.gal cctx ((desc + 32) % 2 ^ 57) launch (c.image.block c.raw) start).setQueue lq q
            (x.setReg o.qd.toNat (BitVec.ofNat 64 handle))) lq q (wordE 0x31 h o) h .next)) ∧
    (∀ r c, s.configuredRegion? p a = some r → r.stop = some c →
      exec (.qwait h o) s = retires s (withReg s lq q o.qd.toNat (BitVec.ofNat 64 c)) lq q (wordE 0x32 h o) h .next) ∧
    (∀ r, s.configuredRegion? p a = some r → r.stop = none → exec (.qwait h o) s = staysIssued s lq q .region 0) ∧
    (∀ r, s.region? a = some r → r.part = p → r.configured = true → s.configuredRegion? p a = some r) ∧
    (∀ im ∈ s.images, ∀ r, NatMap.find? im.2.regions a = some r → r.part = p → r.configured = true → ∃ y, s.configuredRegion? p a = some y) ∧
    ((∀ r, s.region? a = some r → r.part ≠ p ∨ r.configured = false) →
      (∀ im ∈ s.images, ∀ r, NatMap.find? im.2.regions a = some r → r.part ≠ p ∨ r.configured = false) →
      exec (.qwait h o) s = traps s lq q (wordE 0x32 h o) 0x11 0 0)

/-! ## Fabric words -/

namespace Sys2Proof.Claims

/-- A firing of a slot: the state, the region's handle, the slot, the context, the region, the set that fires and its interval I. -/
structure FiringAt where
  s : State
  rid : Nat
  slot : Nat
  ctx : Nat
  r : Region
  set : CandSet
  span : Span

/-- The operands as the instruction reads them, `ty` giving the type of each port (R63, R67). -/
def FiringAt.ops (z : FiringAt) (i : Instr) (ty : Port → LaneTy) : Firing := z.set.firing i ty z.span

/-- The slot is in focus in a region whose clock runs; its next firing has its operands, and what the instruction waits for beyond them is there
(R63, R138). -/
structure FiringAt.Ready (z : FiringAt) (i : Instr) (ty : Port → LaneTy) : Prop where
  focus : z.s.focus = .slot z.rid z.slot z.ctx
  region : z.s.region? z.rid = some z.r
  live : z.r.live = true
  next : nextSet i (z.r.node z.slot z.ctx) = some z.set
  span : z.set.span? = some z.span
  ready : slotReady i z.s z.r z.slot z.ctx (some (z.ops i ty)) = true

/-- The two computations of the firing agree (R396), and it consumes no poison (R399). -/
def FiringAt.Sound (z : FiringAt) (i : Instr) (ty : Port → LaneTy) : Prop := z.s.upset = .none ∧ consumesPoison i (z.ops i ty) = false

/-- The region once the set is emitted and tokens past their last firing are gone (R63, R65); an instruction that cannot be replayed marks it
(R400). -/
def FiringAt.fired (z : FiringAt) (i : Instr) : Region :=
  let r1 := z.r.setNode z.slot z.ctx (afterFiring i (z.r.node z.slot z.ctx) z.set)
  if breaksReplay i then { r1 with unreplayable := true } else r1

/-- An ordinary firing of `i` (R70, R71), its operands read by `ty` and judged by `j`, answers the next state `out`, which is given the region once it
has fired, what interpolation raised being raised (R67, R128), and the operands. -/
def FiringAt.gives (z : FiringAt) (i : Instr) (ty : Port → LaneTy) (j : Firing → Judged) (out : Region → Firing → State) : Prop :=
  z.Ready i ty → z.Sound i ty → j (z.ops i ty) = .ordinary →
  exec i z.s = .next (out ((z.fired i).raise z.slot z.ctx (z.ops i ty).interpFlags) (z.ops i ty))

/-- An ordinary firing of `i` sends one DATA token with these lanes and predicate value to both targets, and raises these flags (R64, R91, R128). -/
def FiringAt.computes (z : FiringAt) (f : Fab) (i : Instr) (ty : Port → LaneTy) (flags : Firing → ExFlags) (p : Firing → Pred)
    (v : Firing → Nat → Lane) : Prop :=
  z.gives i ty (judge f.pm) fun r fr =>
    z.s.setRegion z.rid ((r.raise z.slot z.ctx (flags fr)).sendBoth f (fr.result z.ctx .data (p fr) (Lanes.ofFn (v fr))))

/-- No flag. -/
def quiet (_ : Firing) : ExFlags := .none
/-- No predicate value. -/
def plain (_ : Firing) : Pred := .none

/-- rd (R160), by the width and the sign of the type. -/
def rdOf (t : LaneTy) (x : Lane) : Int :=
  match t with
  | .i8 => (x.setWidth 8).toInt
  | .i16 => (x.setWidth 16).toInt
  | .i32 => (x.setWidth 32).toInt
  | .n8 => (x.setWidth 8).toNat
  | .n16 => (x.setWidth 16).toNat
  | _ => (x.setWidth 32).toNat

/-- wr (R160): modulo 2^w, extended into 32 bits by the sign of the type, the bits above zero. -/
def wrOf (t : LaneTy) (v : Int) : Lane :=
  match t with
  | .i8 => ((BitVec.ofInt 8 v).signExtend 32).setWidth 36
  | .i16 => ((BitVec.ofInt 16 v).signExtend 32).setWidth 36
  | .n8 => (BitVec.ofInt 8 v).setWidth 36
  | .n16 => (BitVec.ofInt 16 v).setWidth 36
  | _ => (BitVec.ofInt 32 v).setWidth 36

/-- The width of a type (R160). -/
def widthOf : LaneTy → Nat
  | .i8 | .n8 => 8
  | .i16 | .n16 => 16
  | _ => 32

/-- Whether a type is one of .i. -/
def signedTy : LaneTy → Bool
  | .i8 | .i16 | .i32 => true
  | _ => false

/-- Sat(v, type) (R9). -/
def satOf (t : LaneTy) (v : Int) : Int :=
  if signedTy t then max (-(2 ^ (widthOf t - 1))) (min (2 ^ (widthOf t - 1) - 1) v) else max 0 (min (2 ^ widthOf t - 1) v)

/-- DIV and REM (R164). -/
def divOf (t : LaneTy) (a b : Int) : Int := if b = 0 then (if signedTy t then 0 else 2 ^ widthOf t - 1) else a.tdiv b
/-- REM (R164): the remainder with the sign of a. -/
def remOf (a b : Int) : Int := if b = 0 then a else a.tmod b

/-- The instructions of two integer operands with their results (R163, R164). -/
def intTable : List ((Fab → Instr) × (LaneTy → Int → Int → Int)) :=
  [ (.add, fun _ a b => a + b), (.sub, fun _ a b => a - b), (.mul, fun _ a b => a * b), (.mulh, fun t a b => a * b / 2 ^ widthOf t),
    (.div, divOf), (.rem, fun _ a b => remOf a b), (.min, fun _ a b => min a b), (.max, fun _ a b => max a b),
    (.adds, fun t a b => satOf t (a + b)), (.subs, fun t a b => satOf t (a - b)), (.avg, fun _ a b => (a + b + 1) / 2) ]

/-- The w-bit field of a lane, unsigned (R165). -/
def fieldOf (t : LaneTy) (x : Lane) : Nat := x.toNat % 2 ^ widthOf t
/-- The same field as a signed number (R165). -/
def signedField (t : LaneTy) (x : Lane) : Int :=
  if fieldOf t x < 2 ^ (widthOf t - 1) then fieldOf t x else (fieldOf t x : Int) - 2 ^ widthOf t

/-- The bit instructions of two operands, lane by lane (R165): `n` is the count b[7:0]. -/
def bitTable : List ((Fab → Instr) × (LaneTy → Lane → Lane → Int)) :=
  [ (.and, fun t a b => (fieldOf t a &&& fieldOf t b : Nat)), (.or, fun t a b => (fieldOf t a ||| fieldOf t b : Nat)),
    (.xor, fun t a b => (fieldOf t a ^^^ fieldOf t b : Nat)),
    (.shl, fun t a b => let n := b.toNat % 256; if n < widthOf t then (fieldOf t a * 2 ^ n : Nat) else 0),
    (.shr, fun t a b => let n := b.toNat % 256; if n < widthOf t then (fieldOf t a / 2 ^ n : Nat) else 0),
    (.sar, fun t a b => let n := b.toNat % 256; if n < widthOf t then signedField t a / 2 ^ n else if signedField t a < 0 then -1 else 0),
    (.rot, fun t a b =>
      let n := b.toNat % 256 % widthOf t
      (fieldOf t a * 2 ^ n % 2 ^ widthOf t + fieldOf t a / 2 ^ (widthOf t - n) : Nat)) ]

/-- How many of the low `n` bits of a number are set. -/
def setBits (n x : Nat) : Nat := ((List.range n).filter fun i => x.testBit i).length

/-- The bit instructions of one operand with what holds of their result in a lane (R165). -/
def intOneTable : List ((Fab → Instr) × (LaneTy → Lane → Int → Prop)) :=
  [ (.not, fun t a v => v = 2 ^ widthOf t - 1 - (fieldOf t a : Int)),
    (.popc, fun t a v => v = setBits (widthOf t) (fieldOf t a)),
    (.clz, fun t a v => ∃ n : Nat, v = n ∧ n ≤ widthOf t ∧ fieldOf t a < 2 ^ (widthOf t - n) ∧ (n < widthOf t → 2 ^ (widthOf t - n - 1) ≤ fieldOf t a)),
    (.ctz, fun t a v => ∃ n : Nat, v = n ∧ n ≤ widthOf t ∧ fieldOf t a % 2 ^ n = 0 ∧ (n < widthOf t → (fieldOf t a).testBit n = true)) ]

/-- A condition of R94 on integers. -/
def condOf (cc : Nat) (a b : Int) : Prop :=
  (cc = 0 ∧ a = b) ∨ (cc = 1 ∧ a ≠ b) ∨ (cc = 2 ∧ a < b) ∨ (cc = 3 ∧ a ≤ b) ∨ (cc = 4 ∧ b < a) ∨ (cc = 5 ∧ b ≤ a)

/-- The float instructions of one rounding (R174, R175, R179 to R182), lane by lane, on the values of their operand lanes. -/
def floatTable : List ((Fab → Instr) × (Rm → Lane → Lane → Flagged Lane)) :=
  [ (.fadd, fun md a b => (fAdd .if36 md (ofIF36 a) (ofIF36 b)).lane), (.fsub, fun md a b => (fAdd .if36 md (ofIF36 a) (ofIF36 b).neg).lane),
    (.fmul, fun md a b => (fMul md (ofIF36 a) (ofIF36 b)).lane), (.fdiv, fun md a b => (fDiv md (ofIF36 a) (ofIF36 b)).lane),
    (.fmin, fun _ a b => fMinMax true a b), (.fmax, fun _ a b => fMinMax false a b) ]

/-- The float instructions of one operand (R174, R175, R179 to R182). -/
def floatOneTable : List ((Fab → Instr) × (Rm → Lane → Flagged Lane)) :=
  [ (.frcp, fun md a => (fDiv md fOne (ofIF36 a)).lane), (.fsqrt, fun md a => (fSqrt md (ofIF36 a)).lane),
    (.frsq, fun md a => (fRsqrt md (ofIF36 a)).lane), (.frnd, fun md a => (fRound md (ofIF36 a)).lane),
    (.fabs, fun _ a => ⟨a &&& 0x7FFFFFFFF, .none⟩), (.fneg, fun _ a => ⟨a ^^^ 0x800000000, .none⟩),
    (.fexp2, fun _ a => (fExp2 (ofIF36 a)).lane), (.flog2, fun _ a => (fLog2 (ofIF36 a)).lane),
    (.fsig, fun _ a => (fSigmoid (ofIF36 a)).lane), (.ftanh, fun _ a => (fTanh (ofIF36 a)).lane) ]

/-- The flags of the eight lanes together (R171). -/
def allFlags (v : Nat → Flagged Lane) : ExFlags := ExFlags.all ((List.range 8).map fun k => (v k).flags)

/-- The rounding mode in mod[2:0] (R172). -/
def roundOf (f : Fab) : Rm := rmOf f.sub.toNat 0 0 0

/-- The tree of R129 over one operation: neighbours, then neighbours of those, then the two halves; all seven flags gather. -/
def treeOf (g : Lane → Lane → Flagged Lane) (v : Lanes) : Flagged Lane :=
  let one := (List.range 4).map fun k => g (v.get (2 * k)) (v.get (2 * k + 1))
  let two := (List.range 2).map fun k => g ((one.getD (2 * k) ⟨0, .none⟩).val) ((one.getD (2 * k + 1) ⟨0, .none⟩).val)
  let top := g ((two.getD 0 ⟨0, .none⟩).val) ((two.getD 1 ⟨0, .none⟩).val)
  ⟨top.val, .all ((one ++ two ++ [top]).map (·.flags))⟩

end Sys2Proof.Claims

open Sys2Proof.Claims

/-- R163, R164: in every lane, on every integer type, with the immediate in place of a port where I is set: ADD, SUB, MUL, MULH, DIV, REM, MIN, MAX, ADDS, SUBS, AVG,
MAD, NEG and ABS write their exact result by wr (R160), and raise no flag. -/
def Obligations.IntegerArithmetic : Prop :=
  ∀ (f : Fab) (z : FiringAt), f.ty ∈ [LaneTy.i8, .i16, .i32, .n8, .n16, .n32] →
    let t := f.ty
    let ty := fun _ : Port => f.ty
    (∀ e ∈ intTable, z.computes f (e.1 f) ty quiet plain fun fr k =>
      wrOf t (e.2 t (rdOf t ((fr.lanesOf .a).get k)) (rdOf t ((operandB f fr).get k)))) ∧
    z.computes f (.mad f) ty quiet plain (fun fr k =>
      wrOf t (rdOf t ((fr.lanesOf .a).get k) * rdOf t ((fr.lanesOf .b).get k) + rdOf t ((operandC f fr).get k))) ∧
    z.computes f (.neg f) ty quiet plain (fun fr k => wrOf t (-rdOf t ((fr.lanesOf .a).get k))) ∧
    z.computes f (.abs f) ty quiet plain (fun fr k => wrOf t (rdOf t ((fr.lanesOf .a).get k)).natAbs)

/-- R165, R166: AND, OR, XOR, NOT, the shifts, ROT and the counts on the w-bit fields, BFE and BFI. IDX forms four addresses modulo 2^57 (R168). CMP gives 1 in
each lane where the condition holds and 0 elsewhere, and its predicate value is the condition of lane 0 (R167). None raises a flag. -/
def Obligations.BitsAndAddresses : Prop :=
  (∀ (f : Fab) (z : FiringAt), f.ty ∈ [LaneTy.i8, .i16, .i32, .n8, .n16, .n32, .b32] →
     let t := f.ty
     let ty := fun _ : Port => f.ty
     let pos := bits f.imm.toNat 12 8
     let len := bits f.imm.toNat 5 0
     (∀ e ∈ bitTable, z.computes f (e.1 f) ty quiet plain fun fr k => wrOf t (e.2 t ((fr.lanesOf .a).get k) ((operandB f fr).get k))) ∧
     (∀ e ∈ intOneTable, ∀ v : Firing → Nat → Int, (∀ fr k, e.2 t ((fr.lanesOf .a).get k) (v fr k)) →
       z.computes f (e.1 f) ty quiet plain fun fr k => wrOf t (v fr k)) ∧
     (1 ≤ len → len ≤ 32 → pos + len ≤ 32 →
       z.computes f (.bfe f) ty quiet plain (fun fr k =>
         let x : Nat := ((fr.lanesOf .a).get k).toNat % 2 ^ 32 / 2 ^ pos % 2 ^ len
         wrOf t (if t = .i32 ∧ 2 ^ (len - 1) ≤ x then (x : Int) - 2 ^ len else (x : Int))) ∧
       z.computes f (.bfi f) ty quiet plain (fun fr k =>
         let a := ((fr.lanesOf .a).get k).toNat % 2 ^ 32
         let m := (2 ^ len - 1) * 2 ^ pos
         wrOf t ((a - (a &&& m)) ||| (((operandB f fr).get k).toNat % 2 ^ len * 2 ^ pos) : Nat))) ∧
     (t = .i32 ∨ t = .n32 →
       z.computes f (.idx f) ty quiet plain fun fr k =>
         let j := k / 2
         let base : Nat := ((fr.lanesOf .a).get (2 * j + 1)).toNat % 2 ^ 25 * 2 ^ 32 + ((fr.lanesOf .a).get (2 * j)).toNat % 2 ^ 32
         let addr : Int := ((base : Int) + rdOf t ((fr.lanesOf .b).get (2 * j)) * 2 ^ f.sub.toNat + f.imm.toInt) % 2 ^ 57
         if k % 2 = 0 then BitVec.ofInt 36 (addr % 2 ^ 32) else BitVec.ofInt 36 (addr / 2 ^ 32))) ∧
  ∀ (f : Fab) (z : FiringAt) (c : Firing → Nat → Bool), f.ty ∈ [LaneTy.i8, .i16, .i32, .n8, .n16, .n32] →
    (∀ fr k, c fr k = true ↔ condOf f.sub.toNat (rdOf f.ty ((fr.lanesOf .a).get k)) (rdOf f.ty ((operandB f fr).get k))) →
    z.computes f (.cmp f) (fun _ => f.ty) quiet (fun fr => if c fr 0 then .true else .false) fun fr k => if c fr k then 1 else 0

/-- R171, R174 to R177, R179 to R182: the float instructions give in each lane the result their entry names, on the IF36 values of the operand
lanes, and raise together the flags of the eight lanes in their PE for their context. -/
def Obligations.FloatInstructions : Prop :=
  ∀ (f : Fab) (z : FiringAt),
    let ty := fun _ : Port => f.ty
    let gives := fun (i : Instr) (ty : Port → LaneTy) (v : Firing → Nat → Flagged Lane) =>
      z.computes f i ty (fun fr => allFlags (v fr)) plain fun fr k => (v fr k).val
    let cmp := fun (fr : Firing) (k : Nat) => fcmpLane f.sub.toNat ((fr.lanesOf .a).get k) ((operandB f fr).get k)
    (∀ e ∈ floatTable, gives (e.1 f) ty fun fr k => e.2 (roundOf f) ((fr.lanesOf .a).get k) ((operandB f fr).get k)) ∧
    (∀ e ∈ floatOneTable, gives (e.1 f) ty fun fr k => e.2 (roundOf f) ((fr.lanesOf .a).get k)) ∧
    gives (.fma f) ty (fun fr k =>
      (fMulAdd (roundOf f) (ofIF36 ((fr.lanesOf .a).get k)) (ofIF36 ((fr.lanesOf .b).get k)) (ofIF36 ((operandC f fr).get k))).lane) ∧
    gives (.fscale f) (fun k => if k = .b then .i32 else f.ty) (fun fr k =>
      (fScale (roundOf f) (ofIF36 ((fr.lanesOf .a).get k)) (if f.imf then f.imm.toInt else rdOf .i32 ((fr.lanesOf .b).get k))).lane) ∧
    z.computes f (.fcmp f) ty (fun fr => allFlags fun k => ⟨0, (cmp fr k).2⟩) (fun fr => if (cmp fr 0).1 then .true else .false)
      (fun fr k => if (cmp fr k).1 then 1 else 0) ∧
    z.computes f (.fclass f) ty quiet
      (fun fr => if classWord ((fr.lanesOf .a).get 0) &&& (f.imm.toNat % 2 ^ 10) ≠ 0 then .true else .false)
      (fun fr k => BitVec.ofNat 36 (classWord ((fr.lanesOf .a).get k)))

/-- R174, R175, R177: the fixed cases of the float instructions: quotients by zero and of infinities, roots of zeros and of negative numbers, zero
times infinity, opposite infinities, NaN operands, minima and maxima of zeros and of NaNs; exactly one class bit is set. -/
def Obligations.FloatFixedCases : Prop :=
  (∀ (md : Rm) (p q : Bool) (m n : Nat) (e g : Int) (x : FVal),
    fDiv md (.fin p 0 e) (.fin q 0 g) = ⟨.nan false, .inv⟩ ∧ fDiv md (.inf p) (.inf q) = ⟨.nan false, .inv⟩ ∧
    (0 < m → fDiv md (.fin p m e) (.fin q 0 g) = ⟨.inf (p != q), .dz⟩) ∧ fDiv md (.inf p) (.fin q n g) = ⟨.inf (p != q), .none⟩ ∧
    (fDiv md (.fin p m e) (.inf q)).val = .fin (p != q) 0 0 ∧
    (∃ v, fSqrt md (.fin true 0 e) = ⟨.fin true 0 v, .none⟩) ∧ fSqrt md (.inf false) = ⟨.inf false, .none⟩ ∧
    (0 < m → fSqrt md (.fin true m e) = ⟨.nan false, .inv⟩) ∧ fSqrt md (.inf true) = ⟨.nan false, .inv⟩ ∧
    fRsqrt md (.fin p 0 e) = ⟨.inf p, .dz⟩ ∧ (∃ v, fRsqrt md (.inf false) = ⟨.fin false 0 v, .none⟩) ∧
    fMul md (.fin p 0 e) (.inf q) = ⟨.nan false, .inv⟩ ∧ fAdd .if36 md (.inf p) (.inf (!p)) = ⟨.nan false, .inv⟩ ∧
    (fMulAdd md (.fin p 0 e) (.inf q) (.nan false)).flags.invalid = true ∧ fScale md (.inf p) e = ⟨.inf p, .none⟩ ∧
    (fAdd .if36 md (.nan false) x).val = .nan false ∧ (fDiv md x (.nan false)).val = .nan false) ∧
  fMinMax true 0 0x800000000 = ⟨0x800000000, .none⟩ ∧ fMinMax false 0x800000000 0 = ⟨0, .none⟩ ∧
  fMinMax true 0x7FF800000 0x7FF800000 = ⟨0x7FF800000, .none⟩ ∧
  ∀ a : Lane, ((ofIF36 a).isNaN = false → fMinMax true a 0x7FF800000 = ⟨a, .none⟩ ∧ fMinMax false 0x7FF800000 a = ⟨a, .none⟩) ∧
    ∃ k, k < 10 ∧ classWord a = 2 ^ k

/-- R184 to R187: the lane and conversion instructions. -/
def Obligations.LaneInstructions : Prop :=
  ∀ (f : Fab) (z : FiringAt),
    let ty := fun _ : Port => f.ty
    let sum := fun (a b : Lane) => (fAdd .if36 .rne (ofIF36 a) (ofIF36 b)).lane
    let x := f.imm.toNat
    let src := (tyOfCode (bits x 3 0)).getD .b32
    let cvt := fun (fr : Firing) (k : Nat) =>
      cvtLane f.ty (bits x 3 0) (bits x 7 4) (bits x 13 8) f.sub.toNat z.ctx fr.span.lo k ((fr.lanesOf .a).get k)
    let w := [16, 8, 4].getD (bits x 1 0) 4
    z.computes f (.perm f) ty quiet plain (fun fr k =>
      (fr.lanesOf .a).get (if f.imf then x / 2 ^ (3 * k) % 8 else ((fr.lanesOf .b).get k).toNat % 8)) ∧
    z.computes f (.bcast f) ty quiet plain (fun fr _ => (fr.lanesOf .a).get (x % 8)) ∧
    z.computes f (.lrot f) ty quiet plain (fun fr k =>
      (fr.lanesOf .a).get ((k + 8 - (if f.imf then x else ((fr.lanesOf .b).get 0).toNat) % 8) % 8)) ∧
    (f.ty ∈ [LaneTy.i8, .i16, .i32, .n8, .n16, .n32] →
      z.computes f (.lsum f) ty quiet plain (fun fr _ => wrOf f.ty (((List.range 8).map fun k => rdOf f.ty ((fr.lanesOf .a).get k)).sum)) ∧
      ∀ m : Firing → Int, (∀ fr, (∀ k, k < 8 → rdOf f.ty ((fr.lanesOf .a).get k) ≤ m fr) ∧ ∃ k, k < 8 ∧ rdOf f.ty ((fr.lanesOf .a).get k) = m fr) →
        z.computes f (.lmax f) ty quiet plain fun fr _ => wrOf f.ty (m fr)) ∧
    (f.ty = .f → z.computes f (.lmax f) ty (fun fr => (treeOf (fMinMax false) (fr.lanesOf .a)).flags) plain
      fun fr _ => (treeOf (fMinMax false) (fr.lanesOf .a)).val) ∧
    z.computes f (.flsum f) ty (fun fr => (treeOf sum (fr.lanesOf .a)).flags) plain (fun fr _ => (treeOf sum (fr.lanesOf .a)).val) ∧
    z.computes f (.fldot f) ty (fun fr => (dotTree (fr.lanesOf .a) (fr.lanesOf .b)).flags) plain
      (fun fr _ => (dotTree (fr.lanesOf .a) (fr.lanesOf .b)).val) ∧
    z.computes f (.cvt f) (fun _ => src) (fun fr => allFlags (cvt fr)) plain (fun fr k => (cvt fr k).val) ∧
    (bits x 1 0 < 3 →
      z.computes f (.pack f) ty quiet plain (fun fr k =>
        if k < w / 4 then
          BitVec.ofNat 36 (((List.range (32 / w)).map fun j => ((fr.lanesOf .a).get (32 / w * k + j)).toNat % 2 ^ w * 2 ^ (w * j)).sum)
        else 0) ∧
      z.computes f (.unpack f) ty quiet plain (fun fr k =>
        let v := ((fr.lanesOf .a).get (k * w / 32)).toNat / 2 ^ (k * w % 32) % 2 ^ w
        BitVec.ofNat 36 (if x.testBit 2 ∧ 2 ^ (w - 1) ≤ v then v + 2 ^ 32 - 2 ^ w else v)))

/-! ## Tokens, spans, contexts, requests -/

namespace Sys2Proof.Claims

/-- a's token forwarded with span I: its kind, payload and predicate value, the other flags by R64 (R139). -/
def forwards (z : FiringAt) (fr : Firing) (t : Token) : Token := fr.result z.ctx t.kind t.pred t.lanes

/-- The 40-bit tick in two lanes (R154). -/
def tickIn (v : Lanes) (k : Nat) : Nat := (v.get (k + 1)).toNat % 2 ^ 8 * 2 ^ 32 + (v.get k).toNat % 2 ^ 32

/-- A span that R154 allows: 0 ≤ lo < hi ≤ all ones, all ones only where the instruction may open the span. -/
def spanOk (lo hi : Int) (opened : Bool) : Prop := 0 ≤ lo ∧ lo < hi ∧ hi ≤ 0xFFFFFFFFFF ∧ (hi = 0xFFFFFFFFFF → opened = true)

/-- The fault of a firing of a slot, with the tokens of its set in the record (R392, R394). -/
def firingFault (z : FiringAt) (s : State) (code : Nat) (fr : Firing) : State :=
  s.regionFault z.rid code ⟨z.slot, 0xFF, z.ctx, fr.span, fr.images, 0, 0⟩

/-- The slot in focus is in a region whose clock runs, and the dual check holds (R396). -/
def AtSlot (s : State) (rid slot ctx : Nat) (r : Region) : Prop :=
  s.focus = .slot rid slot ctx ∧ s.region? rid = some r ∧ r.live = true ∧ s.upset = .none

/-- The token at the head of a port, in the matching store (R135). -/
def headIs (x : PortState) (t : Token) : Prop := ∃ p ws, x.waiting = ⟨t, p⟩ :: ws ∧ p.spilled = false

/-- Nothing waits on a port. -/
def noneWaits (x : PortState) : Prop := x.waiting = []

/-- The port without its head. -/
def behindHead (x : PortState) : PortState := { x with waiting := x.waiting.tail }

/-- The forms that make a memory request, with the operation the request asks for (R240 to R247). -/
def accessTable : List ((Fab → Instr) × (Fab → MemOp)) :=
  [ (.ld, fun _ => .load), (.ldc, fun _ => .consume), (.st, fun _ => .store), (.atom, fun f => .atomic f.sub.toNat),
    (.red, fun f => .reduce f.sub.toNat), (.acq, fun f => .acquire f.sub.toNat) ]

/-- The destinations of an access: the targets of its word, or with XR the target that the address token names (R235). -/
def destinations (z : FiringAt) (f : Fab) (fr : Firing) (r : Region) : Option (List Dest) :=
  if f.xr then (thirdParty z.s z.rid r (fr.lanesOf .a)).map fun d => [d] else some (destsOf z.rid f)

/-- Instructions whose null and fault results go to both targets (R71), with the type they read their ports by. -/
def plainResults : List ((Fab → Instr) × (Fab → LaneTy)) :=
  ([.const, .nullgen, .copy, .steer, .lexit, .ends, .gate, .join, .spanset, .spanshift, .spanclip, .stale, .rangeMake, .ctxnew, .ctxfree, .add, .sub,
    .mul, .mad, .div, .neg, .cmp, .idx, .and, .shl, .popc, .bfe, .fadd, .fmul, .fma, .fcmp, .fdiv, .fexp2, .fclass, .perm, .lsum, .lmax, .fldot,
    .pack, .unpack].map fun c => (c, Fab.ty)) ++
  [(.ord, fun _ => .b32), (.fence, fun _ => .b32), (.wptr, fun _ => .b32), (.cvt, fun f => (tyOfCode (bits f.imm.toNat 3 0)).getD .b32)]

end Sys2Proof.Claims

open Sys2Proof.Claims

/-- R139, R143, R144, R149, R152, R212, R239: CONST, NULLGEN, COPY, DROP, GATE, JOIN, ORD, FENCE and ENDS. FENCE forwards ORDER once it fires (the model's choice, log 3). -/
def Obligations.TokensMadeAndForwarded : Prop :=
  ∀ (f : Fab) (z : FiringAt) (t : Token),
    let ty := fun _ : Port => f.ty
    let raw := fun _ : Port => LaneTy.b32
    let sends := fun (r : Region) (x : Token) => z.s.setRegion z.rid (r.sendBoth f x)
    z.computes f (.const f) ty quiet plain (fun _ _ => immLane f.ty 24 f.imm) ∧
    z.gives (.nullgen f) ty (judge f.pm) (fun r fr => sends r (fr.result z.ctx .null .null .zero)) ∧
    ((z.ops (.copy f) ty).a = some t → z.gives (.copy f) ty (judge f.pm) fun r fr => sends r (forwards z fr t)) ∧
    ((z.ops (.gate f) ty).a = some t → z.gives (.gate f) ty (judge f.pm) fun r fr => sends r (forwards z fr t)) ∧
    z.gives (.drop f) ty (judge f.pm) (fun r _ => z.s.setRegion z.rid r) ∧
    z.gives (.join f) ty (judge f.pm) (fun r fr => sends r (fr.result z.ctx .barrier .none .zero)) ∧
    z.gives (.ord f) raw (judge f.pm) (fun r fr => sends r (fr.result z.ctx .order .none .zero)) ∧
    z.gives (.fence f) raw (judge f.pm) (fun r fr => sends r (fr.result z.ctx .order .none .zero)) ∧
    ((z.ops (.ends f) ty).a = some t →
      (∀ u, (z.ops (.ends f) ty).b = some u → u.pred ≠ .true → z.gives (.ends f) ty (judge f.pm) fun r fr => sends r (forwards z fr t)) ∧
      ∀ u, (z.ops (.ends f) ty).b = some u → u.pred = .true →
        z.gives (.ends f) ty (judge f.pm) fun r fr =>
          z.s.setRegion z.rid ((r.sendBoth f (forwards z fr t)).sendBoth f (endToken z.ctx fr.span.hi (bits f.imm.toNat 2 0))))

/-- R145, R148, R151: STEER, LEXIT and SEL route or choose by the predicate value of their control token. -/
def Obligations.ControlTokensRoute : Prop :=
  ∀ (f : Fab) (z : FiringAt) (t u c : Token),
    let ty := fun _ : Port => f.ty
    let null := fun (fr : Firing) => fr.result z.ctx .null .null .zero
    let route := fun (x : Option Target) (t1 : Token) (y : Option Target) (t2 : Token) (r : Region) =>
      z.s.setRegion z.rid ((r.send x t1).send y t2)
    ((z.ops (.steer f) ty).a = some t → (z.ops (.steer f) ty).b = some c →
      (c.pred = .true → f.sub.toNat.testBit 0 = true → z.gives (.steer f) ty (judge f.pm) fun r fr => route f.t0 (forwards z fr t) f.t1 (null fr) r) ∧
      (c.pred = .true → f.sub.toNat.testBit 0 = false → z.gives (.steer f) ty (judge f.pm) fun r fr => z.s.setRegion z.rid (r.send f.t0 (forwards z fr t))) ∧
      (c.pred = .false → f.sub.toNat.testBit 0 = true → z.gives (.steer f) ty (judge f.pm) fun r fr => route f.t0 (null fr) f.t1 (forwards z fr t) r) ∧
      (c.pred = .false → f.sub.toNat.testBit 0 = false → z.gives (.steer f) ty (judge f.pm) fun r fr => z.s.setRegion z.rid (r.send f.t1 (forwards z fr t))) ∧
      (c.pred = .none ∨ c.pred = .null → z.gives (.steer f) ty (judge f.pm) fun r fr => route f.t0 (null fr) f.t1 (null fr) r)) ∧
    ((z.ops (.lexit f) ty).a = some t → (z.ops (.lexit f) ty).b = some c →
      (c.pred = .true → z.gives (.lexit f) ty (judge f.pm) fun r fr => route f.t0 (forwards z fr t) f.t1 (null fr) r) ∧
      (c.pred = .false → z.gives (.lexit f) ty (judge f.pm) fun r fr => z.s.setRegion z.rid (r.send f.t1 (forwards z fr t))) ∧
      (c.pred = .none ∨ c.pred = .null → z.gives (.lexit f) ty (judge f.pm) fun r fr => route f.t0 (null fr) f.t1 (null fr) r)) ∧
    ((z.ops (.sel f) ty).a = some t → (z.ops (.sel f) ty).b = some u → (z.ops (.sel f) ty).c = some c → (z.ops (.sel f) ty).p = none →
      t.kind ≠ .fault → u.kind ≠ .fault → c.kind ≠ .fault → z.Ready (.sel f) ty → z.Sound (.sel f) ty →
      let fr := z.ops (.sel f) ty
      let r := (z.fired (.sel f)).raise z.slot z.ctx fr.interpFlags
      let sends := fun (x : Token) => z.s.setRegion z.rid (r.sendBoth f x)
      (f.sub.toNat.testBit 0 = false →
        (c.pred = .true → exec (.sel f) z.s = .next (sends (if t.kind = .null then null fr else forwards z fr t))) ∧
        (c.pred = .false → exec (.sel f) z.s = .next (sends (if u.kind = .null then null fr else forwards z fr u))) ∧
        (c.pred = .none ∨ c.pred = .null → exec (.sel f) z.s = .next (sends (null fr)))) ∧
      (f.sub.toNat.testBit 0 = true → t.kind ≠ .null → u.kind ≠ .null → c.kind ≠ .null →
        exec (.sel f) z.s = .next (sends (fr.result z.ctx .data .none
          (Lanes.ofFn fun k => if (c.lanes.get k).toNat % 2 = 1 then t.lanes.get k else u.lanes.get k)))))

/-- R146: a paired MERGE forwards the DATA operand where exactly one is DATA, a's where both are, and NULL where both are NULL. In arrival mode and
in rrobin mode it restamps the token whose turn it is with [k, k + 1), k counting what it has emitted; where that is no closed span any more it faults
SPAN_EMPTY (the model's choice, log 158). -/
def Obligations.MergeForwardsOrRestamps : Prop :=
  (∀ (f : Fab) (z : FiringAt) (t u : Token),
    let i := Instr.merge f
    let fr := z.ops i (fun _ => f.ty)
    let out := fun (x : Token) => z.s.setRegion z.rid (((z.fired i).raise z.slot z.ctx fr.interpFlags).sendBoth f x)
    f.sub = 0 → z.Ready i (fun _ => f.ty) → z.Sound i (fun _ => f.ty) → fr.a = some t → fr.b = some u → fr.c = none → fr.p = none →
    (t.kind = .data → u.kind = .data → exec i z.s = .next (out (forwards z fr t))) ∧
    (t.kind = .data → u.kind = .null → exec i z.s = .next (out (forwards z fr t))) ∧
    (t.kind = .null → u.kind = .data → exec i z.s = .next (out (forwards z fr u))) ∧
    (t.kind = .null → u.kind = .null → exec i z.s = .next (out (fr.result z.ctx .null .null .zero)))) ∧
  ∀ (f : Fab) (s : State) (rid slot ctx : Nat) (r : Region) (t : Token),
    AtSlot s rid slot ctx r → t.kind ≠ .null → t.kind ≠ .fin →
    let n := r.node slot ctx
    let past := s.regionFault rid codeSpanEmpty ⟨slot, 0, ctx, ⟨n.count, n.count⟩, [(0, t)], 0, 0⟩
    let m := { n with a := behindHead n.a, count := n.count + 1, turnB := true }
    (f.sub = 1 → headIs n.a t → n.order.head? = some false → n.count < 0xFFFFFFFFFE →
      exec (.merge f) s = .next (s.setRegion rid ((r.setNode slot ctx { m with order := n.order.tail }).sendBoth f
        { t with lo := n.count, hi := n.count + 1, interp := false }))) ∧
    (f.sub = 2 → headIs n.a t → n.turnB = false → n.count < 0xFFFFFFFFFE →
      exec (.merge f) s = .next (s.setRegion rid ((r.setNode slot ctx { m with order := n.order.erase false }).sendBoth f
        { t with lo := n.count, hi := n.count + 1, interp := false }))) ∧
    (f.sub = 1 ∨ f.sub = 2 → headIs n.a t → n.order.head? = some false → n.turnB = false → 0xFFFFFFFFFE ≤ n.count → exec (.merge f) s = .next past)

/-- R147, R150, R156: a step of OMERGE emits a's token where it is not above b's and b has passed its end; LCARRY starts an instance at an entry token,
carries a back-edge token to the next iteration, and ends the instance at a NULL; RANGE expand emits the next index, and with the last one the
END that closes the range. -/
def Obligations.StreamsMergeCarryExpand : Prop :=
  ∀ (f : Fab) (s : State) (rid slot ctx : Nat) (r : Region) (t u : Token), AtSlot s rid slot ctx r →
    let n := r.node slot ctx
    let sends := fun (m : Node) (x : Token) =>
      (.next (s.setRegion rid ((r.setNode slot ctx m).sendBoth f x)) : Host.Outcome State Fault Refusal)
    (headIs n.a t → headIs n.b u → t.kind ≠ .fin → u.kind ≠ .fin → t.lo ≤ u.lo → t.hi ≤ n.b.reachNow → n.lastHi ≤ t.lo →
      exec (.omerge f) s = sends { n with a := { behindHead n.a with reach := max n.a.reach t.hi }, lastHi := t.hi } { t with interp := false }) ∧
    (noneWaits n.b → headIs n.a t → t.kind = .data ∨ t.kind = .null → n.live = false → n.lastHi ≤ t.lo →
      exec (.lcarry f) s = sends { n with a := behindHead n.a, cur := t.lo, live := true } { t with hi := t.lo + 1, interp := false, pred := if t.kind = .null then .null else .none }) ∧
    (headIs n.b u → u.kind = .data → n.live = true → u.lo = n.cur → u.hi = n.cur + 1 → n.cur + 2 ≤ 0xFFFFFFFFFE →
      exec (.lcarry f) s = sends { n with b := behindHead n.b, cur := n.cur + 1 } { u with lo := n.cur + 1, hi := n.cur + 2, interp := false, pred := .none }) ∧
    (headIs n.b u → u.kind = .null → n.live = true → u.lo = n.cur → u.hi = n.cur + 1 →
      exec (.lcarry f) s = .next (s.setRegion rid (r.setNode slot ctx { n with b := behindHead n.b, live := false, lastHi := n.cur + 1 }))) ∧
    (headIs n.b u → u.kind = .fin → exec (.lcarry f) s = .next (s.setRegion rid (r.setNode slot ctx { n with b := behindHead n.b }))) ∧
    (n.range = some t → t.lo + 1 < t.hi → exec (.rangeExpand f) s = sends { n with range := some { t with lo := t.lo + 1 } } (rangeItem t)) ∧
    (n.range = some t → t.hi = t.lo + 1 →
      exec (.rangeExpand f) s = .next (s.setRegion rid
        (((r.setNode slot ctx { n with range := none }).sendBoth f (rangeItem t)).sendBoth f (endToken ctx t.hi (bits f.imm.toNat 2 0))))) ∧
    (n.range = none → headIs n.a t → t.kind = .range →
      exec (.rangeExpand f) s = .next (s.setRegion rid (r.setNode slot ctx { n with a := behindHead n.a, range := some t }))) ∧
    (rangeItem t).kind = .data ∧ (rangeItem t).lo = t.lo ∧ (rangeItem t).hi = t.lo + 1 ∧
      ((rangeItem t).lanes.get 7).toNat = t.lo % 2 ^ 32 ∧ ∀ k, k < 7 → (rangeItem t).lanes.get k = t.lanes.get k

/-- R141, R142, R400: an INPUT fed by a channel delivers the next token dealt to it, kept for a replay, and one fed by nothing delivers END after
its argument token; an OUTPUT sends the token at its head to its output where that has room, takes its phase from a DATA token at a
phase-select output, and raises a FAULT token as a region fault. -/
def Obligations.InputsAndOutputs : Prop :=
  ∀ (f : Fab) (s : State) (rid slot ctx : Nat) (r : Region) (t : Token), AtSlot s rid slot ctx r →
    let n := r.node slot ctx
    let k := bits f.imm.toNat 3 0
    let m := (r.setNode slot ctx { n with a := behindHead n.a, left := n.left || (decide (t.kind = .fin) && decide (t.level = 0)) }).tookAt slot ctx
    (∀ s1 r1, takeFirst (fun e => decide (e.1 = k)) r.pendingReplay = none → feedKind s r f = .channel → takeInput s rid r k = some (t, s1) →
      s1.region? rid = some r1 → s1.upset = .none → ((r1.retained.filter fun e => e.1 = k).length < 64) → t.kind ≠ .fin →
      exec (.input f) s = .next (s1.setRegion rid ({ r1 with retained := r1.retained ++ [(k, t)] }.sendBoth f t))) ∧
    (∀ bs bad, takeFirst (fun e => decide (e.1 = k)) r.pendingReplay = none → feedKind s r f = .unfed →
      let c := firstCtx s r
      let a : Access := ⟨r.part, r.lqAt slot, c, masterQuad (r.lqAt slot), .read, .plain, 4 + 128 * rid + slot⟩
      let va := (argBase s r + 32 * bits f.imm.toNat 12 5) % 2 ^ 57
      let lane := fun (k : Nat) =>
        if f.imm.toNat.testBit 4 then loadFloat .fp32 0 (ofBytes ((bs.drop (4 * k)).take 4)) else ⟨BitVec.ofNat 36 (ofBytes ((bs.drop (4 * k)).take 4)), .none⟩
      (r.node slot c).count = 0 → argFault s a va = none → s.readVa a va 32 = .done (bs, bad) →
      exec (.input f) s = .next (unfedSend ((s.dropReads fun e => e.isOf a).setRegion rid (r.raise slot c (allFlags lane))) rid slot c f
        { argToken c bad with lanes := Lanes.ofFn fun k => (lane k).val })) ∧
    (takeFirst (fun e => decide (e.1 = k)) r.pendingReplay = none → feedKind s r f = .unfed → (r.node slot (firstCtx s r)).count = 1 →
      exec (.input f) s = .next (unfedSend s rid slot (firstCtx s r) f (endToken (firstCtx s r) openHi 0))) ∧
    (headIs n.a t → f.imm.toNat.testBit 4 = false → t.kind ≠ .fault → t.poison = false → r.replaying = [] → outRoom s r k = true →
      exec (.output f) s = .next (sendOut (s.setRegion rid (m.markOut slot t)) rid m k t)) ∧
    (headIs n.a t → f.imm.toNat.testBit 4 = true → t.kind = .data →
      exec (.output f) s = .next (s.setRegion rid { m with select := some ((t.lanes.get 0).toNat % 4) })) ∧
    (headIs n.a t → t.kind = .fault →
      exec (.output f) s = .next (raiseToken (s.setRegion rid m) rid slot 0 t))

/-- R154 to R156: the span instructions give a's token the span their entry names, or fault SPAN_EMPTY where it is not one; STALE turns a token that
is too old into NULL, or marks it. -/
def Obligations.SpansAreSet : Prop :=
  ∀ (f : Fab) (z : FiringAt) (t : Token),
    let ty := fun _ : Port => f.ty
    let respans := fun (i : Instr) (lo hi : Firing → Int) (opened : Firing → Bool) (tok : Firing → Token) =>
      (z.ops i ty).a = some t →
      (spanOk (lo (z.ops i ty)) (hi (z.ops i ty)) (opened (z.ops i ty)) → z.gives i ty (judge f.pm) fun r fr =>
        z.s.setRegion z.rid (r.sendBoth f { tok fr with lo := (lo fr).toNat, hi := (hi fr).toNat })) ∧
      (¬ spanOk (lo (z.ops i ty)) (hi (z.ops i ty)) (opened (z.ops i ty)) → z.gives i ty (judge f.pm) fun r fr =>
        firingFault z (z.s.setRegion z.rid r) 0x05 fr)
    let same := fun (fr : Firing) => forwards z fr t
    let stale := fun (i : Span) => i.hi ≠ openHi ∧ (i.hi + f.imm.toNat) * 2 ^ ((z.r.block?).map (·.tshift)).getD 0 < z.s.dtime
    (f.sub.toNat.testBit 0 = false →
      respans (.spanset f) (fun fr => tickIn (fr.lanesOf .a) 0) (fun fr => (tickIn (fr.lanesOf .a) 0 + f.imm.toNat : Nat)) (fun _ => false) same) ∧
    (f.sub.toNat.testBit 0 = true →
      respans (.spanset f) (fun fr => tickIn (fr.lanesOf .a) 0) (fun fr => tickIn (fr.lanesOf .a) 2) (fun _ => true) same) ∧
    respans (.spanshift f) (fun fr => fr.span.lo + f.imm.toInt * 16 ^ f.sub.toNat)
      (fun fr => if fr.span.hi = openHi then openHi else fr.span.hi + f.imm.toInt * 16 ^ f.sub.toNat) (fun fr => decide (fr.span.hi = openHi)) same ∧
    respans (.spanclip f) (fun fr => fr.span.lo) (fun fr => min fr.span.hi (fr.span.lo + f.imm.toNat)) (fun _ => false) same ∧
    respans (.rangeMake f) (fun fr => tickIn (fr.lanesOf .a) 0) (fun fr => tickIn (fr.lanesOf .a) 2) (fun _ => false)
      (fun fr => fr.result z.ctx .range .none t.lanes) ∧
    ((z.ops (.stale f) ty).a = some t →
      (f.sub.toNat.testBit 0 = false →
        (stale z.span → z.gives (.stale f) ty (judge f.pm) fun r fr => z.s.setRegion z.rid (r.sendBoth f (fr.result z.ctx .null .null .zero))) ∧
        (¬ stale z.span → z.gives (.stale f) ty (judge f.pm) fun r fr => z.s.setRegion z.rid (r.sendBoth f (forwards z fr t)))) ∧
      (f.sub.toNat.testBit 0 = true →
        (stale z.span → z.gives (.stale f) ty (judge f.pm) fun r fr => z.s.setRegion z.rid (r.sendBoth f { forwards z fr t with pred := .false })) ∧
        (¬ stale z.span → z.gives (.stale f) ty (judge f.pm) fun r fr => z.s.setRegion z.rid (r.sendBoth f { forwards z fr t with pred := .true }))))

/-- R153, R157 to R159: CTXNEW draws the lowest free context of the package, or sends CTX_EXHAUSTED; CTXFREE gives back a context its region drew, but for the
firing's own, and otherwise sends PERMISSION; BARTOK's firings wait as arrivals, and the token of an arrival whose generation is complete leaves, one firing each. SPAWN of an
aligned record takes the next call index of its region and a place in the order of results, and submits the child; a misaligned record gives t0 a
FAULT token with ALIGNMENT. These are regions outside any launch. -/
def Obligations.ContextsBarriersSpawn : Prop :=
  (∀ (f : Fab) (z : FiringAt) (t : Token),
     let ty := fun _ : Port => f.ty
     z.r.launch = none →
     ((z.ops (.ctxnew f) ty).a = some t →
       (∀ c : Nat, z.s.lowestFree = some c → z.gives (.ctxnew f) ty (judge f.pm) fun r fr =>
         z.s.setRegion z.rid (({ (r.without c) with drawn := r.drawn ++ [c] }.send f.t0 (fr.result z.ctx .data .none ⟨BitVec.ofNat 36 c, 0, 0, 0, 0, 0, 0, 0⟩)).send f.t1
           { forwards z fr t with ctx := c })) ∧
       (z.s.lowestFree = none → z.gives (.ctxnew f) ty (judge f.pm) fun r fr =>
         z.s.setRegion z.rid (r.send f.t0 (fr.result z.ctx .fault .none ⟨0x09, 0, 0, 0, 0, 0, 0, 0⟩)))) ∧
     ((z.ops (.ctxfree f) ty).a = some t →
       let c := (t.lanes.get 0).toNat
       (z.r.drawn.contains c = true → c ≠ z.ctx → z.gives (.ctxfree f) ty (judge f.pm) fun r fr =>
         z.s.setRegion z.rid ({ r with drawn := r.drawn.erase c, freed := c :: r.freed.erase c }.sendBoth f (forwards z fr t))) ∧
       (z.r.drawn.contains c = false ∨ c = z.ctx → z.gives (.ctxfree f) ty (judge f.pm) fun r fr =>
         z.s.setRegion z.rid (r.sendBoth f (fr.result z.ctx .fault .none ⟨0x11, 0, 0, 0, 0, 0, 0, 0⟩)))) ∧
     (barrierDue z.s z.r z.slot z.ctx (bits f.imm.toNat 2 0) = false →
       z.gives (.bartok f) ty (judge f.pm) fun r fr =>
         z.s.setRegion z.rid (r.setNode z.slot z.ctx { (r.node z.slot z.ctx) with
           arrivals := (r.node z.slot z.ctx).arrivals ++ [fr.result z.ctx .barrier .none .zero] })) ∧
     ∀ x xs, z.s.focus = .slot z.rid z.slot z.ctx → z.s.region? z.rid = some z.r → z.r.live = true → (z.r.node z.slot z.ctx).arrivals = x :: xs →
       let n := z.r.node z.slot z.ctx
       let passes := fun (g : Nat) => z.s.setRegion z.rid ((z.r.setNode z.slot z.ctx { n with arrivals := xs, count := n.count + 1, generation := g }).sendBoth f x)
       (n.count < n.generation → exec (.bartok f) z.s = .next (passes n.generation)) ∧
       (n.count = n.generation → exec (.bartok f) z.s = .next (passes (n.generation + 1)))) ∧
  ∀ (f : Fab) (z : FiringAt) (s2 : State),
    let ty := fun _ : Port => f.ty
    let fr := z.ops (.spawn f) ty
    let va := laneAddr (fr.lanesOf .a) 0
    let r := (z.fired (.spawn f)).raise z.slot z.ctx fr.interpFlags
    let q := r.setWindow z.slot (r.window z.slot ++ [.out z.s.nextId z.ctx false])
    let p : Parent := ⟨none, z.rid, z.slot, z.s.nextId, destOf z.rid f.t0, fr.result z.ctx .data .none .zero, r.calls⟩
    z.r.launch = none → spawnWaits z.s z.r z.slot z.ctx f = none →
    (va % 64 = 0 →
      submitChild ({ z.s with nextId := z.s.nextId + 1 }.setRegion z.rid { q with calls := r.calls + 1 }) z.r.part va p [r.calls] = .ok s2 →
      z.gives (.spawn f) ty (judge f.pm) fun _ _ => s2) ∧
    (va % 64 ≠ 0 → z.gives (.spawn f) ty (judge f.pm) fun _ fr =>
      fillSpawn ({ z.s with nextId := z.s.nextId + 1 }.setRegion z.rid q) { p with call := 0 } (faultToken z.ctx fr.span 0x13 va 0 7 p.tok))

/-- R226, R227, R235, R249: an ordinary firing of an access sends one request to the entry MT of its PE, in the order of firing, and takes a place in its slot's
reorder window; PREF takes none. With XR a target that is not one faults PERMISSION. Nothing of memory changes yet. R217, R248, R250: PUBLISH of a valid
entry exchanges its FRONT and SHADOW and raises GEN by one, and forwards an ORDER token; an entry that is not valid is PERMISSION. WPTR gives the
sequence number and the byte count of a channel of the quad's copy engine; WAITWP forwards a's token once the pointer has come to the value it names. -/
def Obligations.AccessesAndPointers : Prop :=
  (∀ (f : Fab) (z : FiringAt) (ds : List Dest), z.r.replaying = [] →
     let ty := fun _ : Port => f.ty
     let request := fun (r : Region) (fr : Firing) (op : MemOp) (w : Region) => ({ z.s.setRegion z.rid w with
       nextId := z.s.nextId + 1, pending := z.s.pending ++ [⟨requestOf (z.s.setRegion z.rid r) z.rid z.slot z.ctx r f op fr ds, .input⟩] } : State)
     (∀ e ∈ accessTable,
       (destinations z f (z.ops (e.1 f) ty) z.r = some ds → z.gives (e.1 f) ty (judge f.pm) fun r fr =>
         request r fr (e.2 f) (r.setWindow z.slot (r.window z.slot ++ [.out z.s.nextId z.ctx false]))) ∧
       (destinations z f (z.ops (e.1 f) ty) z.r = none → z.gives (e.1 f) ty (judge f.pm) fun r fr =>
         (z.s.setRegion z.rid r).regionFault z.rid 0x11
           ⟨z.slot, 0xFF, z.ctx, fr.span, fr.images, laneAddr (fr.lanesOf .a) 0, 0⟩)) ∧
     (f.xr = false → ds = destsOf z.rid f → z.gives (.pref f) ty (judge f.pm) fun r fr => request r fr .prefetch r)) ∧
  ∀ (f : Fab) (z : FiringAt) (t : Token),
    let ty := fun _ : Port => LaneTy.b32
    let n := bits f.imm.toNat 5 0
    let e := NatMap.get PubEntry.init (z.s.partOf z.r.part).pub n
    let x := z.s.partOf z.r.part
    let ch := (z.s.quadOf (z.r.lqAt z.slot)).chan (bits f.imm.toNat 2 0)
    (detLaunchOf z.s z.ctx = none →
      (e.w0.toNat.testBit 0 = false → z.gives (.publish f) ty (judge f.pm) fun r fr =>
        faultBy f (z.s.setRegion z.rid r) z.rid z.slot z.ctx 0x11 (laneAddr (fr.lanesOf .a) 0) 6 7 fr) ∧
      (e.w0.toNat.testBit 0 = true → z.gives (.publish f) ty (judge f.pm) fun r fr =>
        let e2 : PubEntry := ⟨e.w0, BitVec.ofNat 64 ((e.w1.toNat / 2 ^ 32 + 1) % 2 ^ 32 * 2 ^ 32 + e.w1.toNat % 2 ^ 32), e.w3, e.w2⟩
        (z.s.setPart z.r.part { x with pub := NatMap.set .init x.pub n e2 }).setRegion z.rid
          (r.sendBoth f (fr.result z.ctx .order .none .zero)))) ∧
    (z.gives (.wptr f) ty (judge f.pm) fun r fr =>
      z.s.setRegion z.rid (r.sendBoth f (fr.result z.ctx .data .none
        ⟨BitVec.ofNat 36 (ch.bytes % 2 ^ 32), BitVec.ofNat 36 (ch.seq % 2 ^ 16 * 2 ^ 16 + ch.bytes / 2 ^ 32 % 2 ^ 16), 0, 0, 0, 0, 0, 0⟩))) ∧
    ((z.ops (.waitwp f) ty).a = some t → z.gives (.waitwp f) ty (judge f.pm) fun r fr => z.s.setRegion z.rid (r.sendBoth f (forwards z fr t)))

/-- R392, R394, R406: an ordinary firing of TRAP is a region fault 0x60 with the immediate in ARG0: the region's clock freezes and a record waits. BRK holds its
token, and the record it writes freezes nothing; PE_BRK releases the held firings of a PE (stated of a part with one region, whose quad is in its turn), and a
released firing sends its token to its targets. -/
def Obligations.TrapAndBreak : Prop :=
  (∀ (f : Fab) (z : FiringAt),
     let ty := fun _ : Port => f.ty
     (z.gives (.trap f) ty (judge f.pm) fun r fr =>
       (z.s.setRegion z.rid r).regionFault z.rid 0x60 ⟨z.slot, 0xFF, z.ctx, fr.span, fr.a.toList.map fun t => (0, t), f.imm.toNat, 0⟩) ∧
     (∀ (s : State) (r : Region) (code : Nat) (a : FaultAt), s.region? z.rid = some r →
       let s1 := s.regionFault z.rid code a
       s1.region? z.rid = some { r with frozen := true } ∧ (∀ k, k ≠ z.rid → s1.region? k = s.region? k) ∧ s1.mem = s.mem ∧ s1.quads = s.quads ∧
       ∃ rec, (s1.partOf r.part).records = (s.partOf r.part).records ++ [rec] ∧ rec.kind = 0 ∧ rec.code = code ∧ rec.arg0 = a.arg0 ∧ rec.arg1 = a.arg1 ∧
         rec.span = a.span ∧ rec.ctx = a.ctx ∧ rec.slot = a.slot ∧ rec.dtime = s.dtime) ∧
     ∀ t, (z.ops (.brk f) ty).a = some t → (z.r.node z.slot z.ctx).held = [] →
       z.Ready (.brk f) ty → z.Sound (.brk f) ty → judge f.pm (z.ops (.brk f) ty) = .ordinary →
       ∃ s1 r1, exec (.brk f) z.s = .next s1 ∧ s1.region? z.rid = some r1 ∧ r1.frozen = z.r.frozen ∧
         (r1.node z.slot z.ctx).held = [⟨forwards z (z.ops (.brk f) ty) t, z.span, false⟩] ∧ r1.flight = z.r.flight) ∧
  ∀ (s : State) (pq pe rid slot ctx : Nat) (r : Region) (f : Fab) (h : Held) (n : Node),
    (s.regions = [(rid, r)] → r.activeNodes = [(slot, ctx, n)] → n.held = [h] → r.instrAt slot = some (.brk f) →
     s.pqOf (r.lqAt slot) = pq → r.peBit slot % 9 = pe → s.inTurn (r.lqAt slot) = true →
     exec (.peBrkRelease pq pe) s = .next { s with regions := [(rid, r.setNode slot ctx { n with held := [{ h with freed := true }] })] }) ∧
    ∀ hs, s.focus = .slot rid slot ctx → s.region? rid = some r → r.live = true → r.node slot ctx = n → n.held = h :: hs → h.freed = true →
      exec (.brk f) s = .next (s.setRegion rid ((r.setNode slot ctx { n with held := hs }).sendBoth f h.tok))

/-- R70, R71, R399: a firing whose predicate does not match is consumed and emits nothing; with a NULL operand it emits NULL, and with a FAULT operand
FAULT with that operand's payload, to both targets, with span I; a firing that consumes poison freezes its region. STEER and LEXIT emit NULL on both targets
too, which the row "null, or none" of R145's and R151's table says of the control and R71 of a NULL token on port a (a deduced reading: log 70). -/
def Obligations.NullAndFaultFirings : Prop :=
  ∀ e ∈ plainResults, ∀ (f : Fab) (z : FiringAt),
    let i := e.1 f
    let ty := fun _ : Port => e.2 f
    let fr := z.ops i ty
    z.Ready i ty → z.s.upset = .none →
    (consumesPoison i fr = false →
      (judge f.pm fr = .consumed → exec i z.s = .next (z.s.setRegion z.rid (z.fired i))) ∧
      (judge f.pm fr = .null → exec i z.s = .next (z.s.setRegion z.rid ((z.fired i).sendBoth f (fr.result z.ctx .null .null .zero)))) ∧
      ∀ t, judge f.pm fr = .fault → fr.operands.find? (fun x => x.kind = .fault) = some t →
        exec i z.s = .next (z.s.setRegion z.rid ((z.fired i).sendBoth f (fr.result z.ctx .fault .none t.lanes)))) ∧
    (consumesPoison i fr = true → ∃ s1 r1, exec i z.s = .next s1 ∧ s1.region? z.rid = some r1 ∧ r1.frozen = true ∧ r1.flight = z.r.flight)

/-! ## Engine words -/

namespace Sys2Proof.Claims

/-- The engine word `raw` of the queue in focus can be accepted now: the part has the unit, its table lets the quad command it, no other queue of
the quad goes first at the port, and the unit has room (R103, R255, R277, R443). -/
structure EngineGo (s : State) (lq q raw : Nat) : Prop where
  focus : s.focus = .queue lq q
  present : absentUnit s raw = false
  allowed : commandPasses s lq raw = true
  first : rival s lq q .engine = false
  room : canAccept s lq raw = true

/-- The command that an engine word makes (R277): the values of its registers, its context, partition and mode, its signal. -/
def commandOfWord (s : State) (lq q raw : Nat) (h : Hdr) (o : OpE) : Cmd :=
  let x := s.queueOf lq q
  { word := raw, lq := lq, q := q, ctx := x.ctx, part := s.partOfLq lq, mode := x.mxmode, d := x.reg o.qd.toNat, s := x.reg o.qs.toNat
    t := x.reg o.qt.toNat, v := x.reg o.qv.toNat, sig := if h.se then some (h.ssem.toNat, h.inc.toNat) else none, regs := x.regs
    tag := s.stepNo }

/-- The engine has accepted the word: `t` is the state with the command in the engine; the word retires without its signal, which the
command's completion owes (R99, R254). -/
def accepts (s t : State) (lq q raw : Nat) : Host.Outcome State Fault Refusal := .next (retireWord s t lq q raw none .next)

/-- The engine words with their opcodes and whether the unit makes no check of its own at issue (R103). -/
def engineWords : List ((Hdr → OpE → Instr) × Nat × Bool) :=
  [ (.bceCopy, 0x40, false), (.copymx, 0x41, false), (.copysh, 0x42, false), (.gather, 0x43, false), (.scatter, 0x44, false), (.fill, 0x45, false),
    (.mma, 0x50, true), (.mmat, 0x51, true), (.accinit, 0x52, true), (.acccnt, 0x53, true), (.accout, 0x54, true), (.accdrain, 0x55, true),
    (.accpart, 0x56, true), (.mxcfgMode, 0x57, false), (.mxcfgPolicy, 0x57, true), (.ovfstat, 0x58, true), (.cred, 0x60, false),
    (.crfix, 0x61, false), (.crstat, 0x62, true), (.stinit, 0x70, true), (.stins, 0x71, true), (.stdraw, 0x72, true), (.stupd, 0x73, true),
    (.stwgtBeta, 0x74, true), (.stwgt, 0x74, true), (.ststat, 0x75, true), (.pdaload, 0x80, false), (.pdastep, 0x81, true), (.mask, 0x82, true),
    (.sample, 0x83, true), (.gmcfg, 0x84, false), (.gmstat, 0x85, true), (.vopen, 0x90, false), (.vbind, 0x91, false), (.vclose, 0x92, false),
    (.vstat, 0x93, false) ]

/-- The words of the copy engines. -/
def copyWords : List ((Hdr → OpE → Instr) × Nat) :=
  [(.bceCopy, 0x40), (.copymx, 0x41), (.copysh, 0x42), (.gather, 0x43), (.scatter, 0x44), (.fill, 0x45)]

/-- The words that a matrix tile queues. -/
def tileWords : List ((Hdr → OpE → Instr) × Nat) :=
  [(.mma, 0x50), (.mmat, 0x51), (.accinit, 0x52), (.acccnt, 0x53), (.accout, 0x54), (.accdrain, 0x55), (.mxcfgPolicy, 0x57)]

/-- The words of the sampling engines that the engine takes as commands. -/
def treeWords : List ((Hdr → OpE → Instr) × Nat) :=
  [(.stinit, 0x70), (.stins, 0x71), (.stdraw, 0x72), (.stupd, 0x73), (.stwgtBeta, 0x74), (.stwgt, 0x74)]

/-- The words of the grammar engines that the engine takes as commands, with whether deterministic tasks may use them. -/
def grammarWords : List ((Hdr → OpE → Instr) × Nat × Bool) :=
  [(.pdaload, 0x80, false), (.pdastep, 0x81, true), (.mask, 0x82, true), (.sample, 0x83, true), (.gmcfg, 0x84, false)]

end Sys2Proof.Claims

open Sys2Proof.Claims

/-- R27, R103, R255, R443: an engine word addressed to a unit the part lacks traps ABSENT_UNIT; one whose target's table refuses the quad traps with the
table's code; one that another queue precedes, or whose unit has no room, waits at the port and changes nothing else. -/
def Obligations.EngineWordsTrapOrWait : Prop :=
  ∀ e ∈ engineWords, ∀ (h : Hdr) (o : OpE) (s : State) (lq q : Nat), s.focus = .queue lq q →
    let raw := wordE e.2.1 h o;
    (absentUnit s raw = true → exec (e.1 h o) s = traps s lq q raw 0x03 0 0) ∧
    (e.2.2 = true → absentUnit s raw = false →
      (commandPasses s lq raw = false → exec (e.1 h o) s = traps s lq q raw 0x12 0 0) ∧
      (commandPasses s lq raw = true → (rival s lq q .engine = true ∨ canAccept s lq raw = false) →
        exec (e.1 h o) s = .next (waitWord s lq q .port 0 0 0)))

/-- R277, R283: a copy word with aligned records becomes the current command of an idle channel, or waits behind the channel's commands; a record that
is not aligned to 64 bytes, or an index list not aligned to 4, traps ALIGNMENT. -/
def Obligations.CopyWordsEnterChannels : Prop :=
  ∀ e ∈ copyWords, ∀ (h : Hdr) (o : OpE) (s : State) (lq q : Nat),
    let raw := wordE e.2 h o;
    let c := commandOfWord s lq q raw h o
    let s1 := served s lq q .engine
    let n := bits raw 59 56
    let k := (s1.quadOf lq).chan n
    let list := if e.2 = 0x43 ∨ e.2 = 0x44 then 4 else if e.2 ≤ 0x42 then 64 else 1
    (c.v.toNat % 64 = 0 → c.d.toNat % list = 0 → EngineGo s lq q raw →
      (k.cur = none → exec (e.1 h o) s = accepts s (s1.setChan lq n (k.load c)) lq q raw ∧
        ((∀ a ∈ k.aside, a.1 ≠ c) → k.load c =
          { k with st := .run, cur := some c, started := false, wasFenced := false, posted := none, job := none, ctx := c.ctx, cover := [] })) ∧
      (k.cur ≠ none → exec (e.1 h o) s = accepts s (s1.setChan lq n { k with queue := k.queue ++ [c] }) lq q raw)) ∧
    (s.focus = .queue lq q → absentUnit s raw = false → c.v.toNat % 64 ≠ 0 → exec (e.1 h o) s = traps s lq q raw 0x13 c.v.toNat 0) ∧
    (s.focus = .queue lq q → absentUnit s raw = false → c.v.toNat % 64 = 0 → c.d.toNat % list ≠ 0 →
      exec (e.1 h o) s = traps s lq q raw 0x13 c.d.toNat 0)

/-- R312, R321 to R323: a matrix word joins its tile's queue, ACCPART takes the bypass slot; MXCFG mode writes the queue's mode, or traps ILLEGAL_CMD on a
value it refuses; OVFSTAT reads the tile's overflow state into qd. -/
def Obligations.MatrixWordsEnterTiles : Prop :=
  ∀ (h : Hdr) (o : OpE) (s : State) (lq q : Nat),
    let tile := fun (raw : Nat) => ((served s lq q .engine).quadOf lq).mx (bits raw 59 56)
    let put := fun (raw : Nat) (x : Mxt) => (served s lq q .engine).setMx lq (bits raw 59 56) x
    (∀ e ∈ tileWords, let raw := wordE e.2 h o;
      EngineGo s lq q raw → exec (e.1 h o) s = accepts s
        (put raw { tile raw with queue := (tile raw).queue ++ [⟨commandOfWord s lq q raw h o, false, 0, 0, false, false⟩] }) lq q raw) ∧
    (let raw := wordE 0x56 h o;
      EngineGo s lq q raw → exec (.accpart h o) s = accepts s
        (put raw { tile raw with bypass := some ⟨commandOfWord s lq q raw h o, false, 0, 0, false, false⟩ }) lq q raw) ∧
    (let raw := wordE 0x57 h o;
      let s1 := served s lq q .engine
      let v := (s.queueOf lq q).reg o.qs.toNat
      (EngineGo s lq q raw → modeOk v = true →
        exec (.mxcfgMode h o) s = retires s (s1.setQueue lq q { (s1.queueOf lq q) with mxmode := v }) lq q raw h .next) ∧
      (s.focus = .queue lq q → absentUnit s raw = false → modeOk v = false → exec (.mxcfgMode h o) s = traps s lq q raw 0x02 0 0)) ∧
    (let raw := wordE 0x58 h o;
      EngineGo s lq q raw → exec (.ovfstat h o) s = retires s
        (withReg (served s lq q .engine) lq q o.qd.toNat (BitVec.ofNat 64 (ovfStat (tile raw)))) lq q raw h .next)

/-- R334, R344 to R347: a CRED with an aligned descriptor retires on acceptance and sets out to start in its collective unit; a misaligned descriptor traps
ALIGNMENT. CRFIX sends its choice, and traps ILLEGAL_CMD in deterministic operation. CRSTAT puts the state of the group into qd. -/
def Obligations.CollectiveWordsSetOut : Prop :=
  ∀ (h : Hdr) (o : OpE) (s : State) (lq q : Nat),
    let s1 := served s lq q .engine
    let send := fun (x : CruItem) =>
      let y := s1.partOf (s.partOfLq lq)
      s1.setPart (s.partOfLq lq) { y with cruWay := y.cruWay ++ [x] }
    (let raw := wordE 0x60 h o;
      let c := commandOfWord s lq q raw h o
      (EngineGo s lq q raw → c.s.toNat % 64 = 0 → exec (.cred h o) s = accepts s (send (.cred c)) lq q raw) ∧
      (s.focus = .queue lq q → absentUnit s raw = false → c.s.toNat % 64 ≠ 0 → exec (.cred h o) s = traps s lq q raw 0x13 c.s.toNat 0)) ∧
    (let raw := wordE 0x61 h o;
      let c := commandOfWord s lq q raw h o
      (EngineGo s lq q raw → detLaunchOf s c.ctx = none →
        exec (.crfix h o) s = accepts s (send (.fix c (bits raw 23 16) (bits raw 15 0) (bits raw 49 48))) lq q raw) ∧
      (s.focus = .queue lq q → absentUnit s raw = false → detLaunchOf s c.ctx ≠ none → exec (.crfix h o) s = traps s lq q raw 0x02 0 0)) ∧
    (let raw := wordE 0x62 h o;
      EngineGo s lq q raw → exec (.crstat h o) s = retires s
        (withReg s1 lq q o.qd.toNat (BitVec.ofNat 64 (crStat s1 (s.partOfLq lq) (bits raw 7 0)))) lq q raw h .next)

/-- R352, R354, R361, R364, R367, R379: a sampling word takes its tree's next number, STINIT number 0, and joins the hall's queue; one of a deterministic
task is held. STSTAT waits there for its answer, and in deterministic operation has it at once, from the trees as they stood at the task's last
synchronisation point. A grammar word joins its engine's queue;
PDALOAD and GMCFG trap ILLEGAL_CMD in deterministic operation. GMSTAT waits for its answer. -/
def Obligations.SamplingAndGrammarWords : Prop :=
  ∀ (h : Hdr) (o : OpE) (s : State) (lq q : Nat),
    let s1 := served s lq q .engine
    let hall := fun (raw : Nat) => s1.hallOf (bits raw 59 56)
    let ctx := (s.queueOf lq q).ctx
    let enqueue := fun (raw : Nat) (n : Nat) =>
      let t := bits raw 5 0
      s1.setHall (bits raw 59 56) { ((hall raw).setTree t { ((hall raw).tree t) with nextSeq := n + 1 }) with
        pseQ := (hall raw).pseQ ++ [⟨commandOfWord s lq q raw h o, t, n⟩] }
    let answering := fun (t : State) => t.setQueue lq q { (t.queueOf lq q) with phase := .answering s.stepNo }
    (∀ e ∈ treeWords, let raw := wordE e.2 h o;
      EngineGo s lq q raw →
        (detLaunchOf s ctx = none → exec (e.1 h o) s = accepts s
          (enqueue raw (if e.2 = 0x70 then 0 else ((hall raw).tree (bits raw 5 0)).nextSeq)) lq q raw) ∧
        (detLaunchOf s ctx ≠ none → exec (e.1 h o) s = accepts s
          (s1.setHall (bits raw 59 56) { hall raw with pseHeld := (hall raw).pseHeld ++ [commandOfWord s lq q raw h o] }) lq q raw)) ∧
    (let raw := wordE 0x75 h o;
      let x := (hall raw).tree (bits raw 5 0)
      EngineGo s lq q raw →
        (detLaunchOf s ctx = none → exec (.ststat h o) s = .next (waitWord (answering (enqueue raw x.nextSeq)) lq q .port 0 0 0)) ∧
        (∀ n l, detLaunchOf s ctx = some (n, l) →
          let y := NatMap.get PseTree.init (NatMap.get [] (NatMap.get [] s.taskTrees (4096 * n + l.ctxs.idxOf ctx)) (bits raw 59 56)) (bits raw 5 0)
          y.valid = true → y.part = s.partOfLq lq →
          exec (.ststat h o) s = retires s (withReg s1 lq q o.qd.toNat (statValue y (bits raw 50 48) y.nextSeq)) lq q raw h .next)) ∧
    (∀ e ∈ grammarWords, let raw := wordE e.2.1 h o;
      (EngineGo s lq q raw → (e.2.2 = true ∨ detLaunchOf s ctx = none) → exec (e.1 h o) s = accepts s
        (s1.setHall (bits raw 59 56) { hall raw with gmeQ := (hall raw).gmeQ ++ [commandOfWord s lq q raw h o] }) lq q raw) ∧
      (s.focus = .queue lq q → absentUnit s raw = false → e.2.2 = false → detLaunchOf s ctx ≠ none → exec (e.1 h o) s = traps s lq q raw 0x02 0 0)) ∧
    (let raw := wordE 0x85 h o;
      EngineGo s lq q raw → exec (.gmstat h o) s = .next (waitWord (answering
        (s1.setHall (bits raw 59 56) { hall raw with gmeQ := (hall raw).gmeQ ++ [commandOfWord s lq q raw h o] })) lq q .port 0 0 0))

/-- R389, R390: VOPEN of a closed stream with a descriptor in order opens it on the decoder with the fewest streams; VBIND of an opened stream to an input
binds it with its bound; VCLOSE closes an opened stream and sets a bound one closing; VSTAT puts what it selects into qd. A stream the part does
not have traps ILLEGAL_CMD. -/
def Obligations.VideoWordsActOnStreams : Prop :=
  ∀ (h : Hdr) (o : OpE) (s : State) (lq q : Nat),
    let s1 := served s lq q .engine
    let p := s.partOfLq lq
    let n := fun (raw : Nat) => bits raw 9 0
    let completes := fun (t : State) (raw : Nat) =>
      (.next ((retireWord s t lq q raw none .next).completeLate (commandOfWord s lq q raw h o)) : Host.Outcome State Fault Refusal)
    (let raw := wordE 0x90 h o;
      let c := commandOfWord s lq q raw h o
      ∀ bs d, EngineGo s lq q raw → n raw < s.numStreams → (s1.streamOf (n raw)).st = .closed → c.s.toNat % 64 = 0 →
        let a : Access := ⟨p, lq, c.ctx, masterVie, .read, .plain, q⟩
        let s2 := s1.struck a c.s.toNat
        engineRead s2 a (c.s.toNat % 2 ^ 57) 64 = .done bs → streamDesc bs = some d →
        let s3 := s2.dropOwnReads a
        exec (.vopen h o) s = completes (s3.setStream (n raw) { Stream.init with st := .opened, part := p, decoder := freeDecoder s3, desc := d }) raw) ∧
    (let raw := wordE 0x91 h o;
      let c := commandOfWord s lq q raw h o
      let x := s1.streamOf (n raw)
      ∀ t l r, EngineGo s lq q raw → n raw < s.numStreams → x.st = .opened → x.part = p → c.t.toNat < 2 ^ 40 →
        bindTarget s1 x p c.s.toNat = some (t, l, r) → (r.block?).map (·.tshift) = some x.desc.shift → l.rcd.det = false →
        exec (.vbind h o) s = completes (s1.setStream (n raw) { x with st := .bound, target := t, bound := c.t.toNat }) raw) ∧
    (let raw := wordE 0x92 h o;
      let x := s1.streamOf (n raw)
      EngineGo s lq q raw → n raw < s.numStreams → x.part = p →
        (x.st = .opened → exec (.vclose h o) s = completes (s1.setStream (n raw) { x with st := .closed, busy := [], queue := [], taken := [] }) raw) ∧
        (x.st = .bound → exec (.vclose h o) s = accepts s
          (s1.setStream (n raw) { x with st := .closing, closeCmd := some (commandOfWord s lq q raw h o) }) lq q raw)) ∧
    (let raw := wordE 0x93 h o;
      EngineGo s lq q raw → n raw < s.numStreams → exec (.vstat h o) s = retires s
        (withReg s1 lq q o.qd.toNat (vieStat (s1.streamOf (n raw)) p (bits raw 50 48))) lq q raw h .next) ∧
    ∀ e ∈ [(Instr.vopen, 0x90), (.vbind, 0x91), (.vclose, 0x92), (.vstat, 0x93)], let raw := wordE e.2 h o;
      s.focus = .queue lq q → absentUnit s raw = false → s.numStreams ≤ n raw → exec (e.1 h o) s = traps s lq q raw 0x02 0 0

/-! ## Events: registers, power, the host -/

namespace Sys2Proof.Claims

/-- The system cores act: the boot ROM has not rejected both slots (R458). -/
def coresAct (s : State) : Prop := s.boot.phase = .firmware ∨ s.boot.phase = .running

/-- A register that keeps what is written to it, but for its reserved bits. -/
def fieldsOf (v : Word64) (fs : List (Nat × Nat)) : Word64 := BitVec.ofNat 64 ((fs.map fun f => bits v.toNat f.1 f.2 * 2 ^ f.2).sum)

end Sys2Proof.Claims

open Sys2Proof.Claims

/-- R252, R253, R299, R450, R451: writes of the sequencer's registers. QSQ_START starts the named queue of an assigned quad that is not running, its loop
stack empty; QSQ_PC is ignored while the queue runs; QSQ_QCTL writes PRIO, and CTX where the partition holds that context, from the queue's next issue; SEM takes 16 bits;
QSQ_MXMODE is ignored where `MXCFG mode` would refuse the value; SYS_LQPART assigns an idle quad and clears its sequencer state. -/
def Obligations.SequencerRegisterWrites : Prop :=
  ∀ (s : State) (lq q n : Nat) (v : Word64), coresAct s →
    let x := s.queueOf lq q
    let ctx := bits v.toNat 63 52
    (q < 4 → v.toNat % 16 = 2 ^ q → s.lqOwner lq ≠ none →
      (x.st ≠ .running → exec (.qsqStart lq v) s = .next (s.setQueue lq q { x with st := .running, loops := [], phase := .fresh })) ∧
      (x.st = .running → exec (.qsqStart lq v) s = .next s)) ∧
    (s.lqOwner lq = none → exec (.qsqStart lq v) s = .next s) ∧
    (x.st ≠ .running → exec (.qsqPcWrite lq q v) s = .next (s.setQueue lq q { x with pc := BitVec.ofNat 57 (v.toNat % 2 ^ 57 / 16 * 16) })) ∧
    (x.st = .running → exec (.qsqPcWrite lq q v) s = .next s) ∧
    (∀ p, s.lqOwner lq = some p →
      let c := if ctxFor s p ctx then ctx else (x.ctl.map (·.1)).getD x.ctx
      (x.st ≠ .running ∨ x.phase = .fresh →
        exec (.qsqQctlWrite lq q v) s = .next (s.setQueue lq q { x with prio := bits v.toNat 10 8, ctx := c, ctl := none })) ∧
      (x.st = .running → x.phase ≠ .fresh → exec (.qsqQctlWrite lq q v) s = .next (s.setQueue lq q { x with ctl := some (c, bits v.toNat 10 8) }))) ∧
    exec (.semWrite lq n v) s = .next (s.setQuad lq ((s.quadOf lq).setSem n (v.toNat % 2 ^ 16))) ∧
    (modeOk v = true → exec (.qsqMxmodeWrite lq q v) s = .next (s.setQueue lq q { x with mxmode := v })) ∧
    (modeOk v = false → exec (.qsqMxmodeWrite lq q v) s = .next s) ∧
    (idleQuad s lq = true → fieldsOf v [(4, 0)] ≠ NatMap.get 0 s.lqpart lq →
      exec (.sysLqpartWrite lq v) s = .next { (s.setQuad lq (s.quadOf lq).cleared) with lqpart := NatMap.set 0 s.lqpart lq (fieldsOf v [(4, 0)]) }) ∧
    (idleQuad s lq = false → exec (.sysLqpartWrite lq v) s = .next s)

/-- R297, R407, R408, R416, R439, R445, R451, R455, R458, R461: the other register writes. SYS_CTXOWN holds a free context and gives a held one back;
SYS_SAVE is ignored while an image lies in the area; SYS_LQBASE while records are untaken; a QoS word keeps the sum of MIN within 255 and
waits for a reset of its partition; BCE_CHCTL resumes or discards; SYS_DTADJ adds a positive offset at once and absorbs a negative one;
LNK_TSYNC sends a request; before the boot ROM has run, and where it has rejected both slots, no register changes. -/
def Obligations.SystemRegisterWrites : Prop :=
  ∀ (s : State) (p k c a lq : Nat) (v : Word64),
    let ch := (s.quadOf lq).chan k
    (coresAct s →
      (bits v.toNat 17 16 = 2 → s.freeCtx c = true →
        exec (.sysCtxownWrite c v) s = .next { s with ctxown := NatMap.set 0 s.ctxown c (fieldsOf v [(17, 16), (3, 0)]) }) ∧
      (bits v.toNat 17 16 = 0 → s.heldCtx c = true → ctxInUse s c = false →
        exec (.sysCtxownWrite c v) s = .next { s with ctxown := NatMap.set 0 s.ctxown c 0 }) ∧
      (usedPages s p = [] → exec (.sysSaveWrite p v) s = .next (s.setPart p { (s.partOf p) with save := fieldsOf v [(63, 48), (46, 16)] })) ∧
      (usedPages s p ≠ [] → exec (.sysSaveWrite p v) s = .next s) ∧
      (∀ b, regAt s a = some (.qos b) →
        ((s.partOf (qosPart b)).busy = true →
          exec (.qosWordWrite a v) s = .next (s.setPart (qosPart b) { (s.partOf (qosPart b)) with qosLater := (s.partOf (qosPart b)).qosLater ++ [(b, v)] })) ∧
        ((s.partOf (qosPart b)).busy = false → qosSum s b v ≤ 255 →
          exec (.qosWordWrite a v) s = .next { s with tables := NatMap.set 0 s.tables b (fieldsOf v [(15, 0)]) }) ∧
        ((s.partOf (qosPart b)).busy = false → 255 < qosSum s b v → exec (.qosWordWrite a v) s = .next s)) ∧
      (∀ r, a % 8 = 0 → regAt s a = some r → exec (.registerWrite a v) s = .next (writeReg s r v)) ∧
      (a % 8 ≠ 0 ∨ regAt s a = none → exec (.registerWrite a v) s = .next s) ∧
      (0 ≤ v.toInt → exec (.dtimeAdjust v) s = .next { s with dtime := (s.dtime + v.toNat) % 2 ^ 64, absorb := 0, halfTick := false }) ∧
      (v.toInt < 0 → exec (.dtimeAdjust v) s = .next { s with absorb := (-v.toInt).toNat, halfTick := false }) ∧
      (k < s.numPorts → (s.portOf k).st ≠ .lost → exec (.tsyncStart k v) s = .next
        ((s.setPort k { s.portOf k with tsync := some (bits v.toNat 51 5 * 32, s.dtime) }).sendFlits k [tsyncFlit s 0 s.dtime 0 0]))) ∧
    (coresAct s → (s.lqOf p k).widx = (s.lqOf p k).ridx →
      exec (.sysLqbaseWrite p k v) s = .next (s.setLq p k { s.lqOf p k with base := fieldsOf v [(56, 7), (4, 0)] })) ∧
    ((s.lqOf p k).widx ≠ (s.lqOf p k).ridx → exec (.sysLqbaseWrite p k v) s = .next s) ∧
    (ch.st = .fenced → ch.fcode ≠ 0x70 → exec (.bceResume lq k) s = .next (s.setChan lq k { ch with st := .run, job := none })) ∧
    (ch.st = .fenced ∨ ch.st = .fault →
      exec (.bceDiscard lq k) s = .next (s.setChan lq k { ch with
        st := .idle, cur := none, queue := [], started := false, wasFenced := false, job := none, cover := [], aside := [] })) ∧
    (¬ coresAct s → ∀ i ∈ [Instr.qsqStart lq v, .qsqPcWrite lq k v, .qsqQctlWrite lq k v, .semWrite lq k v, .qsqMxmodeWrite lq k v,
      .sysLqpartWrite lq v, .sysCtxownWrite c v, .sysSaveWrite p v, .qosWordWrite a v, .registerWrite a v, .dtimeAdjust v, .tsyncStart k v,
      .sysLqbaseWrite p k v, .launchDoorbell p k v, .partitionReset p],
      exec i s = .next s)

/-- R30, R456 to R459, R463: power lost loses every register, region, launch and byte, and keeps the flash and the fused values. On power the boot ROM starts
slot A where it is in order; else slot B; where both are rejected it reports the failing step of slot B (the model's choice, log 12) and the device stays in reset. A slot whose
magic number or length are wrong fails step 1; one that is accepted has the hash and both signatures of its header, by keys of the fused hashes, and no version below the rollback counter.
The firmware runs and the PF is not enabled yet; it enables it itself (the model's choice of the moment, log 170). -/
def Obligations.PowerAndBoot : Prop :=
  (∀ (s : State) (ws : List RegWrite),
     let cold := fun (powered : Bool) => { State.reset with
       powered := powered, is930 := s.is930, agenda := s.agenda, stepNo := s.stepNo, out := s.out
       boot := { State.reset.boot with
         flash := s.boot.flash, rsaHash := s.boot.rsaHash, slhHash := s.boot.slhHash, rollback := s.boot.rollback
         rsaKey := s.boot.rsaKey, slhKey := s.boot.slhKey, secrets := s.boot.secrets } }
     let off := cold false
     let on := cold true
     exec .thermalLimit s = .next off ∧ exec .modulePowerLoss s = .next off ∧
     off.mem = [] ∧ off.poison = [] ∧ off.own = [] ∧ off.regions = [] ∧ off.launches = [] ∧ off.quads = [] ∧ off.pquads = [] ∧ off.halls = [] ∧
       off.parts = [] ∧ off.ports = [] ∧ off.streams = [] ∧ off.images = [] ∧ off.pending = [] ∧ off.tables = [] ∧ off.ctxown = [] ∧ on.dtime = 0 ∧
     (on.boot.verify 0 = none → exec (.powerOnReset ws) s = .next (runFirmware on 0 ws)) ∧
     (∀ n, on.boot.verify 0 = some n → on.boot.verify 0x2000000 = none → exec (.powerOnReset ws) s = .next (runFirmware on 1 ws)) ∧
     (∀ n m, on.boot.verify 0 = some n → on.boot.verify 0x2000000 = some m →
       exec (.powerOnReset ws) s = .next ({ on with boot := { on.boot with phase := .failed m } }.emit (.bootFailure m))) ∧
     (∀ slot, (runFirmware on slot []).boot.phase = .firmware ∧ (enablePf (runFirmware on slot [])).boot.phase = .running ∧
       (runFirmware on slot []).boot.identity = Config.identityKeys s.boot.secrets ∧ (runFirmware on slot []).boot.slot = slot ∧
       ((runFirmware on slot []).boot.rollback = on.boot.rollback ∨ (runFirmware on slot []).boot.rollback = (runFirmware on slot []).boot.version))) ∧
  ∀ (b : Boot) (base : Nat),
    (ofBytes (b.bytes base 0 4) ≠ 0x31464D48 → b.verify base = some 1) ∧
    (0x01FFBE00 < ofBytes (b.bytes base 8 4) → b.verify base = some 1) ∧
    (b.verify base = none → b.rollback ≤ ofBytes (b.bytes base 4 4) ∧ sha384 (b.bytes base 16896 (ofBytes (b.bytes base 8 4))) = b.bytes base 16 48 ∧
      sha384 b.rsaKey = b.rsaHash ∧ rsaVerifies b.rsaKey (b.bytes base 64 384) (b.bytes base 0 64) = true ∧
      sha384 b.slhKey = b.slhHash ∧ slhVerifies b.slhKey (b.bytes base 448 16224) (b.bytes base 0 64) = true)

/-- R437, R438, R446, R447, R459, R462: accesses of the host. Nothing is answered before the firmware has enabled the PF. The PF reads and writes registers by whole
aligned words; a VF reads WIDX at a doorbell and rings it by a write; the export window answers data, poison and refusals; an access of a VF that must wait is
queued, and one behind it follows it. A report holds the nonce, the digest and the version, and both signatures. -/
def Obligations.HostReachesTheDevice : Prop :=
  ∀ (s : State) (fn : HostFn) (acc : HostAcc) (p k a off n : Nat) (r : Reg) (nonce data : List Byte),
    let free := NatMap.get [] s.posted p = [] ∧ s.waitsFor (.host p) = false
    let ended := fun (t : State) => (.next { t with posted := NatMap.set [] t.posted p [] } : Host.Outcome State Fault Refusal)
    (s.boot.phase ≠ .running → exec (.hostAccess fn acc) s = .next s ∧ exec (.cxlMemAccess p off acc) s = .next s) ∧
    (s.boot.phase = .running →
      (a % 8 = 0 → regAt s a = some r →
        exec (.hostAccess .pf (.read a 8)) s = .next ((afterRead s r).emit (.hostData (toBytes 8 (BitVec.ofNat 64 (readReg s r)).toNat))) ∧
        (data.length = 8 → exec (.hostAccess .pf (.write a data)) s = .next (writeReg s r (BitVec.ofNat 64 (ofBytes data))))) ∧
      (p < 16 → k < 64 →
        (free → exec (.hostAccess (.vf p) (.read (8 * k) 8)) s = ended (s.emit (.hostData (toBytes 8 (s.lqOf p k).widx))) ∧
          (data.length = 8 → exec (.hostAccess (.vf p) (.write (8 * k) data)) s = ended (ringDoorbell s p k (ofBytes data % 2 ^ 32)))) ∧
        (s.waitsFor (.host p) = true →
          exec (.hostAccess (.vf p) acc) s = .next { s with posted := NatMap.set [] s.posted p (NatMap.get [] s.posted p ++ [.bar acc]) })) ∧
      (p < 16 → free →
        let x := s.partOf p
        let va := (bits x.expbase.toNat 56 30 * 2 ^ 30 + off) % 2 ^ 57
        let s1 := s.dropReads fun e => e.isOf (cxlAccess s p)
        (bits x.expsize.toNat 13 0 * 2 ^ 30 < off + n → exec (.cxlMemAccess p off (.read 0 n)) s = ended (s.emit (.hostFault 0x12))) ∧
        (off + n ≤ bits x.expsize.toNat 13 0 * 2 ^ 30 →
          (∀ bs, s.readVa (cxlAccess s p) va n = .done (bs, false) → exec (.cxlMemAccess p off (.read 0 n)) s = ended (s1.emit (.hostData bs))) ∧
          (∀ bs, s.readVa (cxlAccess s p) va n = .done (bs, true) → exec (.cxlMemAccess p off (.read 0 n)) s = ended (s1.emit (.hostFault 0x42))) ∧
          (∀ c v, s.readVa (cxlAccess s p) va n = .fault c v → exec (.cxlMemAccess p off (.read 0 n)) s = ended (s1.emit (.hostFault c))) ∧
          ∀ w, s.readVa (cxlAccess s p) va n = .wait w →
            exec (.cxlMemAccess p off (.read 0 n)) s = .next { s.noteHold w with posted := NatMap.set [] (s.noteHold w).posted p [.window off (.read 0 n)] }) ∧
        (off + data.length ≤ bits x.expsize.toNat 13 0 * 2 ^ 30 →
          ∀ t, s.writeVa { cxlAccess s p with want := .write } va data = .done t →
            exec (.cxlMemAccess p off (.write 0 data)) s = ended (t.ownedBy s (.host p)))) ∧
      (let salt := s.freeBytes 48
       let rand := salt.2.freeBytes 24
       exec (.attestationReport nonce) s =
         .next (rand.2.emit (.report (reportBody s nonce ++ signatures s.boot salt.1 rand.1 (reportBody s nonce))))) ∧
      (nonce.length = 32 → (reportBody s nonce).take 32 = nonce))

/-- R455: GO sets BUSY, empties the launch queues, discards the partition's regions and launches; a partition already being reset ignores it. Once
no request of the partition is outstanding, here or at a peer, the reset ends: BUSY falls, its collective instances and its translations are gone. -/
def Obligations.PartitionResetStops : Prop :=
  ∀ (s : State) (p : Nat),
    ((s.partOf p).busy = true → exec (.partitionReset p) s = .next s) ∧
    (coresAct s → (s.partOf p).busy = false → ∃ t, exec (.partitionReset p) s = .next t ∧ (t.partOf p).busy = true ∧
      (∀ e ∈ t.regions, e.2.part ≠ p) ∧ (∀ e ∈ t.launches, e.2.part ≠ p) ∧ (∀ e ∈ (t.partOf p).lqs, e.2.widx = e.2.ridx) ∧
      (∀ e ∈ t.regions, e ∈ s.regions) ∧ ((∀ e ∈ s.images, e.2.part ≠ p) → t.mem = s.mem) ∧ t.dtime = s.dtime) ∧
    ((s.partOf p).busy = true → (∀ e ∈ s.pending, e.req.part ≠ p) → (∀ e ∈ s.peerOut, e.part ≠ p) → ∃ t, exec (.partitionResetDone p) s = .next t ∧
      (t.partOf p).busy = false ∧ (t.partOf p).insts = [] ∧ (t.partOf p).qosLater = [] ∧
      (∀ e ∈ t.pquads, ∀ x ∈ e.2.tlb, x.part ≠ p) ∧ (∀ e ∈ t.tlb2, ∀ x ∈ e.2, x.part ≠ p) ∧ t.mem = s.mem) ∧
    ((s.partOf p).busy = true → ((∃ e ∈ s.pending, e.req.part = p) ∨ ∃ e ∈ s.peerOut, e.part = p) → exec (.partitionResetDone p) s = .next s)

/-! ## Events: launches, regions -/

/-- R439, R440: a doorbell that the ring has room for and that does not go back moves WIDX; any other is ignored and sets ERR. The arbiter takes the record at
RIDX; one that cannot be read leaves a record of KIND 2 and is passed over. R393, R395: a waiting record of a KIND 2 event is written where the ring has
room, and nothing else follows from it; one of a trap vectors its queue with the address the record was written at. -/
def Obligations.DoorbellsAndFaultRecords : Prop :=
  (∀ (s : State) (p k : Nat) (v : Word64),
     let x := s.lqOf p k
     let n := v.toNat % 2 ^ 32
     let new := (n + 2 ^ 32 - x.widx) % 2 ^ 32
     let good := x.enabled = true ∧ (n + 2 ^ 32 - x.ridx) % 2 ^ 32 ≤ 2 ^ x.logn ∧ new < 2 ^ 31
     let took := fun (s : State) => s.setLq p k { x with ridx := (x.ridx + 1) % 2 ^ 32, bells := x.bells.tail }
     let slot := (x.base.toNat / 2 ^ 7 % 2 ^ 50 * 2 ^ 7 + 128 * (x.ridx % 2 ^ x.logn))
     ((s.partOf p).busy = true → exec (.launchDoorbell p k v) s = .next s) ∧
     (coresAct s → (s.partOf p).busy = false → good →
       exec (.launchDoorbell p k v) s = .next (s.setLq p k { x with widx := n, bells := x.bells ++ List.replicate new s.cycle })) ∧
     (coresAct s → (s.partOf p).busy = false → ¬ good → exec (.launchDoorbell p k v) s = .next (s.setLq p k { x with err := true })) ∧
     (s.upset = .none → (s.partOf p).busy = false → x.enabled = true → x.widx ≠ x.ridx →
       (∀ c y, s.readVa (arbAccess s p) slot 128 = .fault c y →
         exec (.launchRecordTake p k) s = .next ((took (s.dropArbReads p)).addEvent p c (k + x.ridx * 2 ^ 32) 0xFF)) ∧
       (∀ bs, s.readVa (arbAccess s p) slot 128 = .done (bs, true) →
         exec (.launchRecordTake p k) s = .next ((took s).addEvent p 0x42 (k + x.ridx * 2 ^ 32) 0xFF)) ∧
       (∀ h, s.readVa (arbAccess s p) slot 128 = .wait h → exec (.launchRecordTake p k) s = .next (s.noteHold h)) ∧
       (∀ bs t, s.readVa (arbAccess s p) slot 128 = .done (bs, false) → submit (took s) p k x.ridx (x.bells.headD s.cycle) none [] bs = .ok t →
         exec (.launchRecordTake p k) s = .next t)) ∧
     ((s.partOf p).busy = true ∨ x.enabled = false ∨ x.widx = x.ridx → exec (.launchRecordTake p k) s = .next s)) ∧
  ∀ (s : State) (p : Nat) (f : FaultRecord),
    let x := s.partOf p
    let w := (s.setPart p { x with records := x.records.erase f }).writeRecord f
    (x.ringRoom = false ∨ (nextRecord x.records = some f ∧ s.ringWaits p f.lq = true) → exec (.faultRecordWrite p) s = .next s) ∧
    (x.ringRoom = true → nextRecord x.records = some f → s.ringWaits p f.lq = false → f.ends = none → f.stops = none → f.replays = none →
      (f.queue = none → exec (.faultRecordWrite p) s = .next w.1) ∧
      ∀ lq q, f.queue = some (lq, q) → w.1.savedQueue? lq q f.ctx = none → (w.1.queueOf lq q).st = .trapped →
        exec (.faultRecordWrite p) s = .next (w.1.setQueue lq q ((w.1.queueOf lq q).vector f.code (BitVec.ofNat 57 f.word) w.2)))

/-- R45, R46, R73, R79, R159: a launch that waits and that the order of priorities lets go starts where its contexts and PEs are free: it runs, holding those
contexts, in the device time of its start. A waiting launch rises by one priority for each 2 ms of device time, by which R79 compares it at every moment
(the model's choice, log 44). A running launch whose sinks have ended, whose stores are acknowledged, that has no frozen region, no fenced copy, no stream input that nothing is
bound to and no child ends with status 0; one that has a child waits for it; a
completion record that could not be written is tried again, and one that a peer holds is written when the peer has performed it (R206). -/
def Obligations.LaunchesStartAgeAndEnd : Prop :=
  (∀ (s : State) (n : Nat) (l : Launch), s.launch? n = some l →
     (∀ cs ps, l.phase = .waiting → mayStart s n l = true → reserve s l = some (cs, ps) →
       exec (.launchStart n) s = .next (startLaunch s n l cs ps) ∧
       (l.invalid = false → l.rcd.det = false → ∃ m, (startLaunch s n l cs ps).launch? n = some m ∧ m.phase = .running ∧ m.ctxs = cs ∧
         m.started = s.dtime ∧ m.part = l.part)) ∧
     (l.phase ≠ .waiting ∨ mayStart s n l = false ∨ reserve s l = none → exec (.launchStart n) s = .next s) ∧
     let waited := timeSince s.dtime l.since
     (l.phase = .waiting → s.effective n l = min 7 (l.rcd.prio + l.raised + waited / 2000000)) ∧
     (s.waits n l = true → 2000000 ≤ waited →
       exec (.priorityAging n) s = .next (s.setLaunch n { l with raised := l.raised + 1, since := (l.since + 2000000) % 2 ^ 64 })) ∧
     (s.waits n l = false ∨ waited < 2000000 → exec (.priorityAging n) s = .next s)) ∧
  ∀ (s : State) (n : Nat) (l : Launch), s.launch? n = some l →
    let finished := sinksEnded s n l = true ∧ ackFree s n l = true ∧ fencedCopies s l = false ∧ unboundStreams s n = false ∧ ∀ e ∈ s.regions, e.2.launch = some n → e.2.frozen = false
    (l.phase = .running → l.rcd.det = false → finished → hasChildren s n l = false → exec (.launchEnd n) s = .next (endLaunch s n 0)) ∧
    (l.phase = .running → l.rcd.det = false → finished → hasChildren s n l = true → exec (.launchEnd n) s = .next s) ∧
    (l.phase = .running → ¬ finished → exec (.launchEnd n) s = .next s) ∧
    (∀ bs c, l.phase = .owed bs c → exec (.launchEnd n) s = .next (payRecord s n)) ∧
    ∀ bs c t, l.phase = .owed bs c → l.parent = none → recordSent s n = false → s.writeVa (arbAccess s l.part) (l.rcd.done % 2 ^ 57) bs = .done t →
      (t.nextId = s.nextId → (NatMap.get .init (t.partOf l.part).lqs l.queue).ien = false → payRecord s n = { t with launches := NatMap.erase t.launches n }) ∧
      (t.nextId ≠ s.nextId → payRecord s n = t.ownedBy s (.done n))

/-- R53 to R56, R272: a stage above its high mark for 4,096 cycles takes one more instance where there is room, from the next cut, or again the one it was
giving up; one below its low mark gives up its last; an instance that asks takes the upper half of the range that was the longest when the cycle began. -/
def Obligations.ReplicasAndSplits : Prop :=
  ∀ (s : State) (n stage : Nat) (l : Launch) (g : Stage), s.launch? n = some l → l.stages[stage]? = some g → l.phase = .running → l.rcd.det = false →
    g.change = none →
    let count := ((g.deals.head?).map (·.2)).getD 1
    (∀ c, g.aboveSince = some c → c + 4096 ≤ s.cycle → count ≤ g.block.imax → count < g.insts.length →
      exec (.replicaAdd n stage) s = .next (s.setLaunch n ({ l with stages := listSet l.stages stage { g with
        change := some (count + 1), aboveSince := none, belowSince := none } }.watch s.cycle))) ∧
    (∀ c pes, g.aboveSince = some c → c + 4096 ≤ s.cycle → count ≤ g.block.imax → g.insts.length ≤ count →
      placeOne (partitionPes s l.part true) g.block.minpe = some pes → areaHeld s l.part + 64 * g.block.mse * l.rcd.nctx ≤ vaultBytes s l.part →
      let x := instanceOn l n stage g.insts.length (l.ctxs.headD 0) g pes
      exec (.replicaAdd n stage) s = .next ((s.placeRegion x.1 x.2).setLaunch n ({ l with stages := listSet l.stages stage { g with
        insts := g.insts ++ [x.1], change := some (count + 1), aboveSince := none, belowSince := none } }.watch s.cycle))) ∧
    (∀ c, g.belowSince = some c → c + 4096 ≤ s.cycle → g.block.imin + 1 < count →
      exec (.replicaRemove n stage) s = .next (s.setLaunch n ({ l with stages := listSet l.stages stage { g with
        change := some (count - 1), aboveSince := none, belowSince := none } }.watch s.cycle))) ∧
    ∀ (rid slot q ctx len a b : Nat) (r v : Region) (f : Fab) (t : Token), s.region? rid = some r → r.live = true → r.launch = some n → q ≠ rid →
      r.instrAt slot = some (.rangeExpand f) → NatMap.find? r.asked slot = none →
      leastBy (fun c => ((2 ^ 41 - c.1) * 128 + c.2.1) * 8 + c.2.2.1) (splitChoices s rid slot r) = some (len, a, b, q, ctx) →
      s.region? q = some v → (v.node slot ctx).range = some t → 2 ≤ t.hi - t.lo →
      exec (.rangeSplitRequest rid slot) s = .next
        ((s.setRegion q (v.setNode slot ctx { (v.node slot ctx) with range := some { t with hi := (t.lo + t.hi) / 2 } })).setRegion rid
          (r.setNode slot ctx { (r.node slot ctx) with range := some { t with lo := (t.lo + t.hi) / 2 } }))

/-- R51, R400, R404: an empty region whose inputs have ended stops with 0, or goes on in the configuration context its select token
names, which is a replay point; a region at a replay point copies its state and empties its retention buffers; one whose buffers stay full with nothing
ready for 2^20 cycles faults DEADLOCK. -/
def Obligations.RegionsEndAndDetect : Prop :=
  ∀ (s : State) (rid : Nat) (r : Region), s.region? rid = some r → r.live = true →
    (regionEmpty s r = true → onlyGroups s rid r = true → openGroups s rid = [] → r.windowsEmpty = true → leaving s r = false →
      (r.select = none → inputsEnded s r = true →
        exec (.phaseEnd rid) s = .next ((s.dropAccesses fun q => decide (q = rid)).setRegion rid
          { r with running := false, frozen := false, stop := some (r.stop.getD 0), flight := [], windows := [], pendingReplay := [] })) ∧
      (∀ c b, r.select = some c → NatMap.find? r.blocks c = some b →
        exec (.phaseEnd rid) s = .next (s.setRegion rid { r with
          active := c, select := none, replay := ⟨r.nodes, none, r.outOrder⟩, retained := [], outMarks := [], ackMarks := [], performed := [], unreplayable := false, replaying := [] }))) ∧
    (atReplayPoint s r = true → exec (.replayPoint rid) s = .next (s.setRegion rid { r with
      replay := ⟨r.nodes, r.select, r.outOrder⟩, retained := [], outMarks := [], ackMarks := [], performed := [], unreplayable := false, replaying := [] })) ∧
    (s.inTurn (r.lqOfBit (r.pes.getD 0 0)) = true →
      (deadCondition s rid r = false → exec (.deadlockDetect rid) s = .next (s.setRegion rid { r with stuck := 0, stuckAt := none })) ∧
      (∀ c, deadCondition s rid r = true → r.stuckAt = some c → r.stuck + (s.cycle - c) < 2 ^ 20 → exec (.deadlockDetect rid) s = .next (s.setRegion rid r)) ∧
      (deadCondition s rid r = true → r.stuckAt = none → r.stuck < 2 ^ 20 →
        exec (.deadlockDetect rid) s = .next (s.setRegion rid { r with stuckAt := some s.cycle })) ∧
      (∀ c, deadCondition s rid r = true → r.stuckAt = some c → 2 ^ 20 ≤ r.stuck + (s.cycle - c) →
        ∃ t q, exec (.deadlockDetect rid) s = .next t ∧ t.region? rid = some q ∧ q.frozen = true ∧
          ∃ f ∈ (t.partOf r.part).records, f.kind = 0 ∧ f.code = 0x08))

/-- R61, R65, R134, R135: a token on its way reaches its port: one that passes the order check joins the waiting tokens, those no longer needed being
discarded, itself among them where every other port has ended and nothing covers it; one that fails it faults its region. A spilled token returns where
its set has a way free. -/
def Obligations.TokensArrive : Prop :=
  ∀ (s : State) (rid slot port : Nat) (r : Region), s.region? rid = some r → r.live = true →
    (∀ x rest i, s.inTurn (r.lqAt slot) = true →
      takeFirst (fun x => decide (x.slot = slot) && decide (portCode x.port = port)) r.flight = some (x, rest) → r.instrAt slot = some i →
      let s1 := s.setRegion rid { r with flight := rest }
      let q := returnFirst (r.placeOf slot).1 (storeSet x.tok.lo (r.placeOf slot).2 x.tok.ctx) 8 { r with flight := rest }
      let n := q.node slot x.tok.ctx
      (∀ y ∈ r.flight, portHeld s r slot y.tok = false) → ownIntake i = false → freedCtx s1 q x.tok.ctx = false → (n.port x.port).ended = none →
      (∀ c, (n.port x.port).check x.tok = some c →
        exec (.tokenArrival rid slot port) s = .next (s1.regionFault rid c
          ⟨slot, portCode x.port, x.tok.ctx, ⟨x.tok.lo, x.tok.hi⟩, [(portCode x.port, x.tok)], 0, 0⟩)) ∧
      ((n.port x.port).check x.tok = none →
        let joined := n.setPort x.port ((n.port x.port).join (gapRule i x.port) x.tok)
        let kept := if x.tok.kind ≠ .fin ∧ uncovered i joined x.port x.tok = true then
          joined.setPort x.port { (joined.port x.port) with
            waiting := (n.port x.port).waiting
            cut := if (n.port x.port).waiting.isEmpty then (n.port x.port).cut else (n.port x.port).cut.orElse fun _ => some x.tok.lo } else joined
        let m := q.setNode slot x.tok.ctx (sweep i kept)
        ((m.storeSpots.filter fun y => m.inSet (m.placeOf slot).1 (storeSet x.tok.lo (m.placeOf slot).2 x.tok.ctx) y && decide (y.w.place = .store)).length ≤ 8) →
        exec (.tokenArrival rid slot port) s = .next (s.setRegion rid m))) ∧
    ∀ pe set x, s.inTurn (r.lqOfBit (r.pes.getD pe 0)) = true →
      let here := r.storeSpots.filter (r.inSet pe set)
      (here.filter fun x => decide (x.w.place = .store)).length < 8 → leastBy (Spot.key r) (here.filter fun x => x.w.place.spilled) = some x →
      exec (.spillReturn rid pe set) s = .next (s.setRegion rid (r.moveSpot x .store))

/-! ## Events: memory, pre-emption -/

/-- R199, R201, R206 to R208, R226, R230, R445: the oldest request of an entry MT in a turn that it can count is, when aligned, translated and sent on, and otherwise
answered with ALIGNMENT. A walk that finds a leaf fills both buffers, and what the second level holds fills the first. A read at home is done with its bytes and their poison; a store puts its bytes, those and no
others, and is done; each when its target serves its partition (R445; the model's choices, log 171). An ATOM or RED is not performed while an earlier one
of its input is to come. A part in a lost bank faults UNCORRECTABLE. The oldest
entry of a window, where it is ready and the routers of its targets have room, goes to them.
R221 to R223, R225: a transfer failure starts a bank's evacuation into the lowest free slot of its hall, or loses the bank and tells the system cores. -/
def Obligations.MemoryServesRequests : Prop :=
  ((∀ (s : State) (lq mt : Nat) (p : Pending), (s.pending.find? fun p => decide (p.req.lq = lq) && decide (p.req.mt = mt) &&
       ((decide (p.st = .retry) && !(decide (p.req.want = .atm) && behindSlot s p.req)) || (decide (p.st = .input) && s.inTurn lq && acceptable s p.req))) = some p →
     (p.st = .retry → exec (.memoryRequestAccept lq mt) s = .next (proceed (countRequest s p.req) p.req [])) ∧
     (p.st = .input → typeOk p.req = false →
       exec (.memoryRequestAccept lq mt) s = .next (faultRequest (countRequest s p.req) p.req 0x18 p.req.addr 7 true)) ∧
     (p.st = .input → typeOk p.req = true → alignedFor p.req.format p.req.addr = false →
       exec (.memoryRequestAccept lq mt) s = .next (faultRequest (countRequest s p.req) p.req 0x13 p.req.addr 7 false)) ∧
     (p.st = .input → typeOk p.req = true → alignedFor p.req.format p.req.addr = true → isB4Store p.req = false →
       exec (.memoryRequestAccept lq mt) s = .next (proceed (countRequest s p.req) p.req []))) ∧
   (∀ (s : State) (pq n : Nat) (m : MissEntry) (pte level : Nat),
     ((s.pquadOf pq).misses.find? fun m => m.key = n) = some m → (∀ x ∈ s.pending, ∀ k, x.st ≠ .miss k) →
     (secondLevel s pq m.part m.vpn = none → walkOut s (pq, m) = true →
       walk s m.part (((s.hosted pq).head?).getD 0) (m.vpn * 2 ^ 16) = .leaf pte level →
       let e : TlbEntry := ⟨m.part, m.vpn * 2 ^ 16 / pageSize level * pageSize level, pageSize level, BitVec.ofNat 64 pte⟩
       ∃ t, exec (.pageWalkComplete pq n) s = .next t ∧ e ∈ (t.pquadOf pq).tlb ∧ e ∈ NatMap.get [] t.tlb2 (pq / 16) ∧
         (∀ x ∈ (t.pquadOf pq).misses, x.key ≠ n) ∧ t.mem = s.mem ∧ t.pending = s.pending) ∧
     ∀ e, secondLevel s pq m.part m.vpn = some e → ∃ t, exec (.pageWalkComplete pq n) s = .next t ∧ e ∈ (t.pquadOf pq).tlb ∧
       (∀ x ∈ (t.pquadOf pq).misses, x.key ≠ n) ∧ t.tlb2 = s.tlb2 ∧ t.mem = s.mem ∧ t.pending = s.pending) ∧
   (∀ (s : State) (id : Nat) (p : Part) (q : Request), partAt s id = some (p, q) →
     (lostHome s p.req = true →
       exec (.accessPerformAtHome id) s = .next (faultAll s q.id 0x42 q.addr 7 true) ∧
       exec (.rmwPipelineUpdate id) s = .next (faultAll s q.id 0x42 q.addr 7 true)) ∧
     (lostHome s p.req = false → canPerform s p q = false ∨ isServed s p.pa q.part = false →
       exec (.accessPerformAtHome id) s = .next s ∧ exec (.rmwPipelineUpdate id) s = .next s) ∧
     (lostHome s p.req = false → canPerform s p q = true → isServed s p.pa q.part = true →
       let s0 := s.serve p.pa q.part
       (s.upset = .none → q.op = .load →
         exec (.accessPerformAtHome id) s = .next (partDone s0 p (s0.viewBytes q.ctx p.pa p.len) (s0.poisonedFor q.ctx p.pa p.len))) ∧
       (q.op = .store → detLaunchOf s q.ctx = none → (s.partners q.id).any (·.dataPoison) = false →
         ∃ s1, exec (.accessPerformAtHome id) s = .next (partDone s1 p [] false) ∧
           (∀ i, i < p.len → s1.byteAt (p.pa + i) = (partBytes (requestWrites s q).1 p.off (s.bytesAt p.pa p.len)).getD i 0) ∧
           ∀ a, (a < p.pa ∨ p.pa + p.len ≤ a) → s1.byteAt a = s.byteAt a) ∧
       (∀ op, q.op = .atomic op ∨ q.op = .reduce op → exec (.rmwPipelineUpdate id) s = .next (updateParts s0 op q p))) ∧
     (q.want = .atm → (∃ x ∈ partsHere s q.id, behindInput s x q = true ∨ evacuating s x.pa = true) → canPerform s p q = false)) ∧
   ∀ (s : State) (rid slot : Nat) (r : Region) (x : Token) (ds : List Dest) (ctx : Nat) (wr : Bool) (ws : List WindowEntry),
     s.region? rid = some r → r.frozen = false → s.inTurn (r.lqAt slot) = true → r.window slot = .ready (some x) ds ctx wr .none none :: ws →
     (ds.head?.map (·.region)).getD rid = rid → routersTake s ds = true →
     ∃ t, exec (.mtReplyRelease rid slot) s = .next t ∧
       t = (s.setRegion rid ((r.setWindow slot ws).raise ((ds.head?.map (·.slot)).getD slot) ctx .none)).deliver ds x) ∧
  ∀ (s : State) (pq bank hall n : Nat),
    (pq < s.numPq → bank < 4 → NatMap.find? s.banks (4 * pq + bank) = none → (∀ k, s.boot.phase ≠ .failed k) →
      (freeSlot s (pq / 64) = some n → exec (.stairTransferFailure pq bank) s = .next { s with
        banks := NatMap.insert s.banks (4 * pq + bank) (.evacuating (pq / 64) n)
        redir := NatMap.insert s.redir (16 * (pq / 64) + n) ⟨true, false, pq, bank⟩ }) ∧
      (freeSlot s (pq / 64) = none → exec (.stairTransferFailure pq bank) s = .next
        ({ s with banks := NatMap.insert s.banks (4 * pq + bank) .lost }.emit (.tierShrink (pq / 64) pq bank 0xFF)))) ∧
    (freeSlot s hall = some n → (NatMap.get Redirect.init s.redir (16 * hall + n)).valid = false ∧
      ∀ k, k < n → (NatMap.get Redirect.init s.redir (16 * hall + k)).valid = true) ∧
    ∀ e, NatMap.get Redirect.init s.redir (16 * hall + n) = e → e.valid = true → e.done = false → s.upset = .none →
      exec (.evacuationComplete hall n) s = .next ({ s with
        banks := NatMap.insert s.banks (4 * e.pq + e.bank) (.evacuated hall n)
        redir := NatMap.insert s.redir (16 * hall + n) { e with done := true } }.emit (.tierShrink hall e.pq e.bank n))

/-- R57, R79, R415 to R419, R427, R432: a launch that waits, may start and does not fit freezes the victims that make room, each with a run of free pages;
a quad of an image is read out once its answers are in; a late reply leaves the list of what the image still owes; a saved launch whose
places are free is restored where its image is intact and ends with BLOCK_INVALID where it is not; a turn ends after 65,536 cycles or with nothing to run, once no LDQ
or STQ of its queues is outstanding. -/
def Obligations.LaunchesAreSavedAndRestored : Prop :=
  (∀ (s : State) (n : Nat) (l : Launch) (vs : List (Nat × Launch)) (runs : List (List Nat)), s.launch? n = some l →
    (lacksRoom s n l = true → victims s n l = some vs → freeRuns s l.part (usedPages s l.part) vs = some runs → (∀ e ∈ vs, launchOwes s e.1 e.2 = false) →
      exec (.preemptionDecision n) s = .next ((vs.zip runs).foldl (fun s e => freezeLaunch s e.1.1 e.1.2 1 e.2) s)) ∧
    (lacksRoom s n l = false → exec (.preemptionDecision n) s = .next s) ∧
    ∀ k im, s.imageOf? n = some (k, im) → s.waits n l = true → mayStart s n l = true → imageFree s [] im = true →
      (intact s im = true → exec (.launchRestore n) s = .next (restoreImage s k n im l)) ∧
      (intact s im = false → exec (.launchRestore n) s = .next (endLaunch s n 0x01))) ∧
  (∀ (s : State) (k lq id : Nat) (im : Image) (l : Launch), NatMap.find? s.images k = some im → im.st = .saving →
    (s.launch? im.launch = some l → l.phase = .saved → s.upset = .none → im.reading.contains lq = true → answersOwed s lq l = false → launchOwes s im.launch l = false →
      exec (.preemptReadoutComplete k lq) s = .next (readQuad s k lq l im)) ∧
    (im.late.contains id = true → (∀ p ∈ s.pending, p.req.id ≠ id) →
      exec (.lateReplyIntoImage k id) s = .next (settleImage s k { im with late := im.late.filter (· ≠ id) }))) ∧
  ∀ (s : State) (pq lq : Nat), s.turnOf pq = some lq → ([0, 1, 2, 3].all fun q => !accessOut (s.queueOf lq q)) = true →
    ((s.pquadOf pq).turnStart + 65536 ≤ s.cycle ∨ nothingToRun s lq = true → exec (.turnChange pq) s = .next (changeTurn s pq)) ∧
    (s.cycle < (s.pquadOf pq).turnStart + 65536 → nothingToRun s lq = false → exec (.turnChange pq) s = .next s)

/-- Events of the package take effect. R30, R456, R458, R463: on power the firmware of slot A runs where it verifies; a loss of power empties the machine.
R437, R462: a report carries the nonce and the digest, and the host's read of a register leaves as data. R447: so does one of the export window. R57: the turn
of a physical quad goes to the next logical quad in ascending order, and round again. R416, R417: the regions of a victim leave the machine and an image opens.
R419, R424: a quad read out holds no queue of the save set any more; a late reply is owed no longer. R427: a saved launch whose image is intact runs again. -/
def Obligations.EventsTakeEffect : Prop :=
  (∀ (s : State) (ws : List RegWrite), s.boot.verify 0 = none →
    (∃ t, exec (.powerOnReset []) s = .next t ∧ t.powered = true ∧ t.boot.phase = .firmware ∧ t.boot.slot = 0 ∧ t.mem = [] ∧ t.regions = [] ∧
      t.launches = [] ∧ ∀ lq q, (t.queueOf lq q).st = .halted) ∧
    ∃ t0, exec (.powerOnReset []) s = .next t0 ∧ exec (.powerOnReset ws) s = .next (ws.foldl (fun t w => writeAddr t w.addr w.value) t0)) ∧
  (∀ (s : State) (i : Instr), i = .thermalLimit ∨ i = .modulePowerLoss →
    ∃ t, exec i s = .next t ∧ t.powered = false ∧ t.mem = [] ∧ t.regions = [] ∧ t.launches = [] ∧ t.boot.flash = s.boot.flash ∧
      ∀ lq q, t.queueOf lq q = .init) ∧
  (∀ (s : State) (nonce : List Byte) (a : Nat) (r : Reg), s.boot.phase = .running →
    (nonce.length = 32 → s.boot.digest.length = 48 → ∃ sig, exec (.attestationReport nonce) s =
      .next { s with stepNo := s.stepNo + 11, out := s.out ++ [.report ((nonce ++ s.boot.digest ++ toBytes 4 s.boot.version ++ toBytes 4 s.boot.rollback ++ toBytes 8 (capWord s).toNat ++
        toBytes 2 s.sysNode ++ List.replicate 30 0) ++ sig)] }) ∧
    (a % 8 = 0 → regAt s a = some r → ∃ t, exec (.hostAccess .pf (.read a 8)) s = .next t ∧
      .hostData (toBytes 8 (BitVec.ofNat 64 (readReg s r)).toNat) ∈ t.out) ∧
    ∀ p off n bs, p < 16 → NatMap.get [] s.posted p = [] → s.waitsFor (.host p) = false → off + n ≤ bits (s.partOf p).expsize.toNat 13 0 * 2 ^ 30 →
      s.readVa (cxlAccess s p) ((bits (s.partOf p).expbase.toNat 56 30 * 2 ^ 30 + off) % 2 ^ 57) n = .done (bs, false) →
      exec (.cxlMemAccess p off (.read 0 n)) s = .next { s with
        peerReads := s.peerReads.filter fun e => !e.isOf (cxlAccess s p), posted := NatMap.set [] s.posted p [], out := s.out ++ [.hostData bs] }) ∧
  (∀ (s : State) (pq lq : Nat), s.turnOf pq = some lq → 2 ≤ (s.hosted pq).length → (s.pquadOf pq).turnStart + 65536 ≤ s.cycle →
    (∀ q, q < 4 → accessOut (s.queueOf lq q) = false) →
    ∃ t nxt, exec (.turnChange pq) s = .next t ∧ (t.pquadOf pq).turn = some nxt ∧ (t.pquadOf pq).turnStart = s.cycle ∧ t.mem = s.mem ∧
      (∀ x, ((s.hosted pq).find? fun y => lq < y) = some x → nxt = x) ∧
      (((s.hosted pq).find? fun y => lq < y) = none → (s.hosted pq).head? = some nxt)) ∧
  (∀ (s : State) (n v : Nat) (l lv : Launch) (run : List Nat), s.launch? n = some l → lacksRoom s n l = true → victims s n l = some [(v, lv)] →
    freeRuns s l.part (usedPages s l.part) [(v, lv)] = some [run] → launchOwes s v lv = false →
    ∃ t, exec (.preemptionDecision n) s = .next t ∧ t.nextImage = s.nextImage + 1 ∧ ∀ e ∈ t.regions, e.2.launch ≠ some v) ∧
  ∀ (s : State) (k n lq id : Nat) (im : Image) (l : Launch), NatMap.find? s.images k = some im →
    (im.st = .saving → s.launch? im.launch = some l → l.phase = .saved → s.upset = .none → im.reading.contains lq = true → answersOwed s lq l = false → launchOwes s im.launch l = false →
      ∃ t, exec (.preemptReadoutComplete k lq) s = .next t ∧ ∀ q, q < 4 → (s.queueOf lq q).ctx ∈ l.allCtxs → t.queueOf lq q = .init) ∧
    (im.st = .saving → id ∈ im.late → (∀ p ∈ s.pending, p.req.id ≠ id) →
      ∃ t jm, exec (.lateReplyIntoImage k id) s = .next t ∧ NatMap.find? t.images k = some jm ∧ id ∉ jm.late) ∧
    (s.launch? n = some l → s.imageOf? n = some (k, im) → s.waits n l = true → mayStart s n l = true → imageFree s [] im = true →
      intact s im = true → ∃ t m, exec (.launchRestore n) s = .next t ∧ t.launch? n = some m ∧ m.phase = .running ∧ m.ctxs = l.ctxs)

/-! ## Events: engines -/

namespace Sys2Proof.Claims

/-- A turn of a channel in which its command moves element `j`, the last in its granule of the destination or of the command, no write of the channel being out at
a peer and no upset striking (R277, R284, R397). -/
structure Moving (s : State) (lq ch : Nat) (c : Cmd) (b : BceJob) (j : Nat) : Prop where
  cur : ((s.quadOf lq).chan ch).cur = some c
  job : ((s.quadOf lq).chan ch).job = some b
  run : ((s.quadOf lq).chan ch).st = .run
  free : ((s.quadOf lq).chan ch).posted = none
  turn : s.inTurn lq = true
  quiet : s.upset = .none
  here : s.peerOut = []
  elem : j = ((s.quadOf lq).chan ch).bytes / c.esz
  more : j < sizeProd b.dst
  last : j + 1 = sizeProd b.dst ∨ granuleOf c b (j + 1) ≠ granuleOf c b j

/-- An element of a COPY outside deterministic operation goes from the physical address `qa` to `pa`, both in this device, with no mark of poison on it
(R280, R284, R292). -/
structure Carries (s : State) (lq ch : Nat) (c : Cmd) (b : BceJob) (j qa pa : Nat) : Prop where
  moving : Moving s lq ch c b j
  copy : c.opcode = 0x40
  plain : detLaunchOf s c.ctx = none
  from0 : 0 ≤ (c.s.toNat : Int) + offsetOf b.src j ∧ (c.s.toNat : Int) + offsetOf b.src j + c.esz ≤ 2 ^ 57
  to0 : 0 ≤ (c.t.toNat : Int) + offsetOf b.dst j ∧ (c.t.toNat : Int) + offsetOf b.dst j + c.esz ≤ 2 ^ 57
  source : let s0 := s.setChan lq ch ((s.quadOf lq).chan ch)
    let va := ((c.s.toNat : Int) + offsetOf b.src j).toNat
    spread s0 (bceAccess c) va c.esz = .ok [(qa, c.esz)] ∧ inPeer s (qa, c.esz) = false ∧ peerRefusal s0 (bceAccess c) va = none ∧
      s0.readAt (bceAccess c) va [(qa, c.esz)] = .done (s.bytesAt qa c.esz, false)
  goal : let s0 := s.setChan lq ch ((s.quadOf lq).chan ch)
    let va := ((c.t.toNat : Int) + offsetOf b.dst j).toNat
    let a := { bceAccess c with want := .write, pub := .result }
    spread s0 a va c.esz = .ok [(pa, c.esz)] ∧ inPeer s (pa, c.esz) = false ∧ writeStand s0 a va [(pa, c.esz)] = none

end Sys2Proof.Claims

open Sys2Proof.Claims

/-- R277, R278, R280, R281, R284, R286, R288 to R290, R294: a copy starts once its records are read and nothing in them is refused, and aborts otherwise; a transfer moves an
element and counts its bytes, at once or, where it wrote to a peer, once that is performed (R206); the bytes that an element of a COPY is read from become those of its
destination, no other byte changes, and BYTES rises by ESZ; an index at or above LIMIT aborts with BOUNDS and a write of another
owner's frame fences with COPY_OWNER; a command whose last byte is written makes way for the next of its channel,
exchanges the publish entry it names (PERMISSION where that is not valid), submits the follow-on of a COPYMX once its matrix tile can take it, and completes. -/
def Obligations.CopyEnginesMoveElements : Prop :=
  (∀ (s : State) (lq ch : Nat) (c : Cmd) (src dst : List (Int × Nat)) (w : Nat),
     let k := (s.quadOf lq).chan ch
     k.cur = some c → k.st = .run → s.inTurn lq = true →
     (s.upset = .none → k.job = none → bceRead s c = .done (src, dst, w) → bceRefuses c src dst w = none →
       exec (.bceCommandStart lq ch) s = .next ((s.dropCmdReads c).setChan lq ch { k.begin with job := some ⟨src.take c.rank, dst.take c.rank, w, none⟩ })) ∧
     (∀ code v, s.upset = .none → k.job = none → bceRead s c = .done (src, dst, w) → bceRefuses c src dst w = some (code, v) →
       exec (.bceCommandStart lq ch) s = .next (bceAbort (s.setChan lq ch k.begin) lq ch c code v)) ∧
     ∀ b : BceJob, k.job = some b →
       let j := k.bytes / c.esz
       (s.upset = .none → k.posted = none → j < sizeProd b.dst → (j + 1 = sizeProd b.dst ∨ granuleOf c b (j + 1) ≠ granuleOf c b j) →
         (∀ code va, withIndex s c b j = .fault code va → exec (.bceGranuleTransfer lq ch) s = .next (bceAbort s lq ch c code va)) ∧
         ∀ b1, withIndex s c b j = .done b1 → let s0 := s.setChan lq ch { k with job := some b1 }
           (∀ s1, moveElem s0 lq ch c b1 j = .done s1 → (granuleOf c b1 (j + 1) ≠ granuleOf c b j ∨ j + 1 = sizeProd b1.dst) →
             exec (.bceGranuleTransfer lq ch) s = .next (elemMoved (s1.dropCmdReads c) lq ch c.esz)) ∧
           (∀ s1 va, moveElem s0 lq ch c b1 j = .fence s1 va → exec (.bceGranuleTransfer lq ch) s = .next (bceFence s1 lq ch 0x30 va)) ∧
           (∀ s1 code va, moveElem s0 lq ch c b1 j = .abort s1 code va → exec (.bceGranuleTransfer lq ch) s = .next (bceAbort s1 lq ch c code va))) ∧
       (k.bytes = sizeProd b.dst * c.esz →
         let n := bits c.word 5 0
         let m := bits b.follow 59 56
         let s1 := s.setChan lq ch k.next
         (c.word.testBit 6 = true → s.pubValid c.part n = false →
           exec (.bceCommandComplete lq ch) s = .next (bceAbort s lq ch c 0x11 (c.t.toNat % 2 ^ 57))) ∧
         (c.word.testBit 6 = false → c.opcode ≠ 0x41 → exec (.bceCommandComplete lq ch) s = .next (s1.complete c)) ∧
         (c.word.testBit 6 = true → s.pubValid c.part n = true → c.opcode ≠ 0x41 →
           exec (.bceCommandComplete lq ch) s = .next ((s1.publishFor c.ctx c.part n).complete c)) ∧
         (c.word.testBit 6 = false → c.opcode = 0x41 → Sys2Proof.Machine.canAccept s lq b.follow = false →
           exec (.bceCommandComplete lq ch) s = .next s) ∧
         (c.word.testBit 6 = false → c.opcode = 0x41 → Sys2Proof.Machine.canAccept s lq b.follow = true →
           exec (.bceCommandComplete lq ch) s =
             .next ((s1.setQuad lq ((s1.quadOf lq).setMx m (((s1.quadOf lq).mx m).take (c.followOn b.follow)))).complete c)))) ∧
  ∀ (s : State) (lq ch : Nat) (c : Cmd) (b : BceJob) (j : Nat),
    let k := (s.quadOf lq).chan ch
    (∀ qa pa, Carries s lq ch c b j qa pa →
      let v := (NatMap.get 0 s.own (1024 * vaultPq pa + 256 * vaultBank pa + vaultOff pa / 2 ^ 16)).toNat
      (rangeOf s pa ≠ .vault ∨ (v.testBit 16 = true ∧ bits v 15 12 = c.part ∧ (bits v 11 0 = c.ctx ∨ bits v 11 0 = 0xFFF)) →
        ∃ t, exec (.bceGranuleTransfer lq ch) s = .next t ∧ (∀ i, i < c.esz → t.byteAt (pa + i) = s.byteAt (qa + i)) ∧
          (∀ a, a < pa ∨ pa + c.esz ≤ a → t.byteAt a = s.byteAt a) ∧ ((t.quadOf lq).chan ch).bytes = k.bytes + c.esz) ∧
      (rangeOf s pa = .vault → v.testBit 16 = false ∨ bits v 15 12 ≠ c.part ∨ (bits v 11 0 ≠ c.ctx ∧ bits v 11 0 ≠ 0xFFF) →
        ∃ t, exec (.bceGranuleTransfer lq ch) s = .next t ∧ t.mem = s.mem ∧ ((t.quadOf lq).chan ch).st = .fenced ∧
          ((t.quadOf lq).chan ch).fcode = 0x30 ∧ ((t.quadOf lq).chan ch).bytes = k.bytes)) ∧
    ∀ bs, Moving s lq ch c b j → c.opcode = 0x43 ∨ c.opcode = 0x44 → b.index.map (·.1) ≠ some (b.row j) →
      let va := (c.d.toNat + 4 * b.row j) % 2 ^ 57
      engineRead s (bceAccess c) va 4 = .done bs → bits c.word 47 16 ≤ ofBytes bs →
      exec (.bceGranuleTransfer lq ch) s = .next (bceAbort s lq ch c 0x31 va)

/-- R308, R311, R312, R316, R319, R321: the command at the head of a tile's queue starts, one in the bypass slot takes effect at a boundary; the next group of
an MMA is applied: exactly, an escape of 20 bits going to the overflow buffer, or to no position at all; a group that a full buffer has stalled waits for an ACCPART or ACCINIT
(R311), and the bypass slot waits while a release of a node still has writes at a peer (R305); ACCOUT sends its
tokens one by one where the port takes one, and after the last, its END or with the END left out the last DATA token, frees the node where the word asks for it;
a target that is no longer there aborts it with PERMISSION. -/
def Obligations.MatrixTilesApplyGroups : Prop :=
  (∀ (s : State) (lq m : Nat) (k : MxCmd) (ks : List MxCmd), s.inTurn lq = true →
    let x := (s.quadOf lq).mx m
    (∀ b, x.bypass = some b → x.bypassMay = true → frozenCtx s lq b.cmd.ctx = false → exec (.mxtCommandStart lq m) s = .next (doPart s lq m b.cmd)) ∧
    (x.bypass = none → x.queue = k :: ks → k.started = false → frozenCtx s lq k.cmd.ctx = false →
      exec (.mxtCommandStart lq m) s = .next (startCommand s lq m k.cmd)) ∧
    (x.bypass = none → x.queue = k :: ks → k.started = false → frozenCtx s lq k.cmd.ctx = false → k.cmd.opcode ≤ 0x51 → mmaFault s k.cmd (x.node k.cmd.nodeNo) = none →
      checkOperands s k.cmd = .ok → exec (.mxtCommandStart lq m) s = .next (s.setMx lq m { x with queue := { k with started := true } :: ks })) ∧
    (x.queue = k :: ks → k.started = true → k.cmd.opcode ≤ 0x51 →
      (∀ b, x.bypass = some b → k.out = 0 → exec (.mxtGroupApply lq m) s = .next (doPart s lq m b.cmd)) ∧
      (x.bypass = none ∨ k.out ≠ 0 → k.step < (mmaArgs k.cmd).k →
        (k.stalled = false ∨ k.retry = true → exec (.mxtGroupApply lq m) s = .next (doGroup s lq m k.cmd k.step)) ∧
        (k.stalled = true → k.retry = false → exec (.mxtGroupApply lq m) s = .next s)) ∧
      (x.bypass = none ∨ k.out ≠ 0 → (mmaArgs k.cmd).k ≤ k.step → exec (.mxtGroupApply lq m) s = .next (mmaEnd s lq m k.cmd))) ∧
    (x.queue = k :: ks → k.started = true → k.cmd.opcode = 0x54 →
      (accoutTarget s (x.node k.cmd.nodeNo).ctx k.cmd.t.toNat = none → exec (.accoutTokenEmit lq m) s = .next (mxAbort s lq m k.cmd 0x11 0)) ∧
      ∀ d r, accoutTarget s (x.node k.cmd.nodeNo).ctx k.cmd.t.toNat = some d → s.region? d.region = some r →
        (r.running = false ∨ r.frozen = true ∨ 8 ≤ r.routed (r.placeOf d.slot).1 → exec (.accoutTokenEmit lq m) s = .next s) ∧
        (r.running = true → r.frozen = false → r.routed (r.placeOf d.slot).1 < 8 →
          let s1 := (s.setMx lq m { x with queue := { k with out := k.out + 1 } :: ks }).deliver [d] (accoutToken x k.cmd k.out)
          let last := 16 * (bits k.cmd.word 6 0 + 1) - (if k.cmd.word.testBit 10 then 1 else 0)
          (k.out < last → exec (.accoutTokenEmit lq m) s = .next s1) ∧
          (last ≤ k.out → exec (.accoutTokenEmit lq m) s = .next (accoutEnd s1 lq m k.cmd))))) ∧
  ∀ acc v : Int, -(2 ^ 19) ≤ acc → acc < 2 ^ 19 → -(2 ^ 19) < v → v < 2 ^ 19 →
    let r := intStep acc v
    r.1 + 2 ^ 20 * r.2 = acc + v ∧ -(2 ^ 19) ≤ r.1 ∧ r.1 < 2 ^ 19 ∧ (r.2 = -1 ∨ r.2 = 0 ∨ r.2 = 1)

/-- R335, R337, R342, R345, R352, R364: an accepted CRED reads its operands and its leaf takes its place, or it aborts; an item of a collective that no earlier item of its queue precedes comes to the root, or, where that is a linked
device, leaves by its port in transactions of TYPE 6; an open instance acts once the cycle in which DTIME reached its deadline is over; the
tree's first command and the grammar engine's oldest are performed whole, once no peer has still to perform a write of the one before. -/
def Obligations.EnginesPerformTheirCommands : Prop :=
  (∀ (s : State) (p n : Nat) (x : CruItem), (s.partOf p).cruWay[n]? = some x → itemWaits s p x = none →
    (∀ y ∈ (s.partOf p).cruWay.take n, y.cmd.lq ≠ x.cmd.lq ∨ y.cmd.q ≠ x.cmd.q) →
    let s1 := s.setPart p { (s.partOf p) with cruWay := (s.partOf p).cruWay.eraseIdx n }
    (∀ c, x = .cred c → s.upset = .none →
      (∀ l, credStart s c = .done l → exec (.cruLeafArrival p n) s =
        .next (s.setPart p { (s.partOf p) with cruWay := listSet (s.partOf p).cruWay n (.leaf l) })) ∧
      (∀ code va, credStart s c = .fault code va → exec (.cruLeafArrival p n) s = .next (s1.abort c code va))) ∧
    (∀ l, x = .leaf l → leafAbroad s1 p l = none → NatMap.find? (s.partOf p).insts l.desc.gid = none →
      exec (.cruLeafArrival p n) s = .next (arriveAtRoot s1 p (.leaf { l with late := lateLeaf s l }))) ∧
    (∀ l far, x = .leaf l → leafAbroad s1 p l = some far → exec (.cruLeafArrival p n) s = .next (settleAbroad p (sendAbroad s1 p far l)) ∧
      ((s.portOf far.port).st ≠ .lost → ∃ sent, (sendAbroad s1 p far l).peerOut = s.peerOut ++ sent ∧
        sent.length = (Config.cruData (.leaf l.desc l.elems l.det)).length ∧ ∀ o ∈ sent, o.port = far.port ∧ o.part = p ∧ o.node = far.node ∧
          ∃ sq d, o.flits = FlitHeader.flits ⟨6, p, far.part, s.sysNode, sq, instBits l.desc.gid l.desc.seq, 0, 0, 0, d⟩)) ∧
    (∀ c a b d, x = .fix c a b d → goesAbroad (s1.partOf p) c a b = false → exec (.cruLeafArrival p n) s = .next (comeToRoot s1 p x))) ∧
  (∀ (s : State) (p gid : Nat) (i : CollInst) (l : Leaf), NatMap.find? (s.partOf p).insts gid = some i → i.st = .opened → i.leaves.head? = some l →
    l.det = false →
    (s.prevDtime < l.desc.deadline → exec (.cruDeadline p gid) s = .next s) ∧
    (l.desc.deadline ≤ s.prevDtime → instWaits s p gid = none →
      exec (.cruDeadline p gid) s = .next (settleRoot p (((atDeadline s p i).partOf p).cruRoot.length + 1) (atDeadline s p i)))) ∧
  ∀ (s : State) (hall tree : Nat) (p : PseCmd) (c : Cmd) (cs : List Cmd) (t : State) (code va : Nat),
    let h := s.hallOf hall
    ((h.pseQ.find? fun p => p.tree = tree) = some p →
      let did := psePerform (pseTake s hall p) hall p (if (detLaunchOf s p.cmd.ctx).isSome then 4096 else p.cmd.ctx)
      (treeOwes s hall tree = true → exec (.pseCommandPerform hall tree) s = .next s) ∧
      (treeOwes s hall tree = false → did = .done t → exec (.pseCommandPerform hall tree) s =
        .next (if p.isStat then t else (stageTree s (t.ownedBy s (.command p.cmd (p.cmd.s.toNat % 2 ^ 57))) p.cmd).complete p.cmd)) ∧
      (treeOwes s hall tree = false → did = .abort t code va → p.isStat = false → exec (.pseCommandPerform hall tree) s = .next (t.abort p.cmd code va))) ∧
    (gmeOwes s hall = true → exec (.gmeCommandPerform hall) s = .next s) ∧
    (h.gmeQ = c :: cs → s.upset = .none → gmeOwes s hall = false →
      let did := gmePerform (s.setHall hall { h with gmeQ := cs }) hall c
      (did = .done t → exec (.gmeCommandPerform hall) s =
        .next (if c.opcode = 0x85 then t else (t.ownedBy s (.command c (c.t.toNat % 2 ^ 57))).complete c)) ∧
      (did = .abort t code va → c.opcode ≠ 0x85 → exec (.gmeCommandPerform hall) s = .next (t.abort c code va)))

/-- R382, R384 to R387: a bound stream takes an access unit once the whole of it lies below the write index; a unit with bad header bytes is skipped with all
below that index, ERR rising by one; of the frames a decoder handles (at most 4,096 x 2,304 pixels) one out of order or too large is dropped and counted; a frame at a bound INPUT that the firing
selector picks is dropped where (hi + B) * 2^SHIFT < DTIME and delivered otherwise. -/
def Obligations.StreamsJudgeFrames : Prop :=
  (∀ (s : State) (n : Nat) (wb hb : List Byte) (bad : Bool),
    let x := s.streamOf n
    let w := ofBytes wb
    let len := ofBytes ((hb.drop 8).take 4)
    let s1 := s.dropOwnReads (vieAccess s n x)
    x.st = .bound → s.upset = .none → s.readVa (vieAccess s n x) (x.desc.widx % 2 ^ 57) 8 = .done (wb, false) →
    s.readVa (vieAccess s n x) ((x.desc.ring + x.ridx % x.desc.rsize) % 2 ^ 57) 16 = .done (hb, bad) →
    (w < x.ridx + 16 → ∀ d, exec (.accessUnitTaken n d) s = .next s1) ∧
    (x.ridx + 16 ≤ w → (bad = true ∨ ofBytes (hb.drop 12) ≠ 0 ∨ len = 0 ∨ x.desc.rsize - 16 < len) → ∀ d, exec (.accessUnitTaken n d) s =
      .next (s1.setStream n { x with ridx := (w + 15) / 16 * 16, err := x.err + 1, skips := x.skips + 1 })) ∧
    (x.ridx + 16 + len ≤ w → bad = false → ofBytes (hb.drop 12) = 0 → len ≠ 0 → len ≤ x.desc.rsize - 16 → exec (.accessUnitTaken n true) s =
      .next (s1.setStream n { x with ridx := (x.ridx + 16 + len + 15) / 16 * 16, taken := x.taken ++ [(ofBytes (hb.take 8), x.skips)] }))) ∧
  (∀ (s : State) (n u : Nat) (f : Frame) (rest : List (Nat × Nat)), let x := s.streamOf n
    let y := { x with taken := rest, shown := max x.shown u }
    let lo := f.capns.toNat / 2 ^ x.desc.shift
    let pitch := (f.width * (if x.desc.ofmt = 1 then 2 else 1) + 63) / 64 * 64
    x.st = .bound ∨ x.st = .closing → x.ended = false → f.concealed = false → f.width ≤ 4096 → f.height ≤ 2304 → x.taken = (f.capns.toNat, u) :: rest →
    (0xFFFFFFFFFE < lo + x.desc.period ∨ lo < x.lastHi →
      exec (.vieFrameDecoded n f) s = .next (s.setStream n { y with dropOrder := x.dropOrder + 1 })) ∧
    (lo + x.desc.period ≤ 0xFFFFFFFFFE → x.lastHi ≤ lo →
      (2 * x.desc.slotsz < 3 * (pitch * f.height) → exec (.vieFrameDecoded n f) s =
        .next (s.setStream n { y with lastHi := lo + x.desc.period, dropSize := x.dropSize + 1 })) ∧
      (3 * (pitch * f.height) ≤ 2 * x.desc.slotsz →
        ∀ t, placeFrame s n { y with lastHi := lo + x.desc.period } f lo (lo + x.desc.period) (decide (x.shown < u)) = .ok t →
          exec (.vieFrameDecoded n f) s = .next (closeEnded t n)))) ∧
  ∀ (s : State) (n rid slot : Nat) (l : Launch) (g : Stage) (r : Region) (f : Fab) (t : Token) (ts : List Token), let x := s.streamOf n
    x.st = .bound → x.ended = false → s.launch? x.target.launch = some l → l.stages[x.target.stage]? = some g → g.insts[x.target.inst]? = some rid →
    s.region? rid = some r → (r.inputs.find? fun e => bits e.2.imm.toNat 3 0 = x.target.input) = some (slot, f) → r.live = true →
    r.launch = some x.target.launch → s.inTurn (r.lqAt slot) = true → (∀ e ∈ r.pendingReplay, e.1 ≠ x.target.input) → x.queue = t :: ts →
    (selectFiring s rid r (r.placeOf slot).1).map (·.1) = some slot →
    let s1 := issued s rid
    ((t.hi + x.bound) * 2 ^ x.desc.shift < s.dtime → exec (.vieFrameJudge n) s =
      .next { s1 with streams := NatMap.set .init s1.streams n { { x with queue := ts }.freeSlot t with dropStale := x.dropStale + 1 } }) ∧
    (s.dtime ≤ (t.hi + x.bound) * 2 ^ x.desc.shift → exec (.vieFrameJudge n) s =
      .next ({ s1 with streams := NatMap.set .init s1.streams n { x with queue := ts, delivered := x.delivered + 1 } }.setRegion rid
        { ({ r with stuck := 0, stuckAt := none } : Region).deliverInput f slot t with unreplayable := true }))

/-- R342, R452, R453, R461: a flit whose CRC fails is sent again once, then the port retrains; one that retrains within 1 ms is up again, one that does not is
lost; a request already seen is answered from the cache and not performed again, nor is one that is being performed at another peer (R447); one older than the window is counted and dropped; 20 us
without a reply resend the same flits. A lost port ends an open instance that has a contributor behind it with the value it holds and STATUS LINK
(R342). A time-sync request is answered at once; its reply is taken. -/
def Obligations.LinksCarryFlits : Prop :=
  ∀ (s : State) (k seq : Nat) (f : List Byte) (t1 t2 t3 : Word64) (bs : List Byte) (rest : List (List Byte)) (o : PeerOut),
    let x := s.portOf k
    let h := parseHeader (bs.take 64) (bs.drop 64)
    let src := s.sourceOf k h
    (∀ n, s.boot.phase ≠ .failed n) →
    (k < s.numPorts → x.st = .up →
      (flitIntact f = false → x.resent = false → exec (.linkFlitReceive k f) s = .next (s.setPort k { x with resent := true })) ∧
      (flitIntact f = false → x.resent = true → exec (.linkFlitReceive k f) s =
        .next (s.setPort k { x with st := .retraining, since := s.dtime, resent := false, header := none })) ∧
      (flitIntact f = true → x.resent = false → x.header = none → (7 < ofBytes (f.take 1) ∨ ofBytes ((f.drop 18).take 6) ≠ 0) →
        exec (.linkFlitReceive k f) s = .next (s.setPort k { x with bad := x.bad + 1 })) ∧
      (flitIntact f = true → x.resent = true → exec (.linkFlitReceive k f) s =
        .next (intactFlit (s.setPort k { x with resent := false, transient := x.transient + 1 }) k f))) ∧
    (x.st = .retraining →
      (s.elapsed x.since ≤ 1000000 → exec (.portRetrained k) s = .next (s.setPort k { x with st := .up })) ∧
      (1000000 ≤ s.elapsed x.since → loseWaits s = none → exec (.linkRetrainTimeout k) s = .next (losePort s k))) ∧
    (x.arrived = bs :: rest →
      (src.place h.seq = .older → exec (.peerRequestArrival k) s = .next (s.setPort k { x with arrived := rest, stale := x.stale + 1 })) ∧
      (∀ r, src.place h.seq = .within → NatMap.find? src.cache h.seq = some r →
        exec (.peerRequestArrival k) s = .next ((s.setPort k { x with arrived := rest }).sendFlits k (toFlits r))) ∧
      (src.place h.seq = .newer → isPassing s k bs = true → exec (.peerRequestArrival k) s = .next (s.setPort k { x with arrived := rest })) ∧
      (src.place h.seq = .newer → isPassing s k bs = false → exec (.peerRequestArrival k) s = .next (answerPeer s k h bs))) ∧
    ((s.peerOut.find? fun o => o.isAt k seq && !o.held && decide (20000 ≤ s.elapsed o.sentAt)) = some o →
      (3 ≤ o.resends → loseWaits s = none → exec (.linkResendTimeout k seq) s = .next (losePort s k)) ∧
      (o.resends < 3 → ∃ t, exec (.linkResendTimeout k seq) s = .next t ∧ (x.st = .up → t.out = s.out ++ o.flits.map (Msg.flit k)) ∧
        { o with resends := o.resends + 1, sentAt := s.dtime } ∈ t.peerOut)) ∧
    (∀ p gid i, NatMap.find? (s.partOf p).insts gid = some i → i.st ≠ .closed → i.present.length < i.fixed.ncon →
      (∃ l ∈ i.leaves, l.cmd.isFar = true ∧ l.cmd.q = k) →
      cutCollectives k p [gid] s = forgetParting (forgetFar (deliverAll s p i (i.make i.present 6 s.dtime (rootCode i.fixed))) k p gid) k p) ∧
    exec (.tsyncRequestArrival k t1) s = .next (s.sendFlits k [tsyncFlit s 1 t1.toNat s.dtime s.dtime]) ∧
    (x.st = .lost → exec (.tsyncReply k t1 t2 t3) s = .next s) ∧
    ∀ pa u, x.st ≠ .lost → x.tsync = some (pa, u) → rangeOf s pa = .hbm → rangeOf s (pa + 39) = .hbm →
      exec (.tsyncReply k t1 t2 t3) s = .next ((s.setPort k { x with tsync := none }).writeAt pa
        (toBytes 8 t1.toNat ++ toBytes 8 t2.toNat ++ toBytes 8 t3.toNat ++ toBytes 8 s.dtime ++ toBytes 8 1))

/-! ## Frames -/

namespace Sys2Proof.Claims

/-- The words that put a result into qd and nothing else into the machine. -/
def registerWords : List (Hdr → OpA → Instr) :=
  [.li, .addi, .scalarAdd, .scalarSub, .scalarAnd, .scalarOr, .scalarXor, .scalarShl, .scalarShr, .scalarSar, .scalarMul, .slt, .sltu, .semrd, .call]

/-- The words that write no register. -/
def registerlessWords : List (Hdr → OpA → Instr) := [.br, .brc, .ret, .halt, .loop, .wait, .sig, .semset, .nbarr, .nbwait, .taskdef, .taskdone]

/-- The fabric instructions that only compute: tokens of their region, and the flags of their PE, are all they change. -/
def computeForms : List (Fab → Instr) :=
  [.const, .nullgen, .copy, .drop, .steer, .lexit, .ends, .gate, .sel, .join, .ord, .fence, .add, .sub, .mul, .mulh, .mad, .div, .rem, .neg,
    .abs, .min, .max, .adds, .subs, .avg, .cmp, .idx, .and, .or, .xor, .not, .shl, .shr, .sar, .rot, .popc, .clz, .ctz, .bfe, .bfi, .fadd, .fsub, .fmul,
    .fma, .fmin, .fmax, .fabs, .fneg, .fcmp, .fdiv, .frcp, .fsqrt, .frsq, .fexp2, .flog2, .fsig, .ftanh, .fscale, .fclass, .frnd, .perm, .bcast, .lrot,
    .lsum, .lmax, .flsum, .fldot, .cvt, .pack, .unpack]

/-- What is the same in two states beside one quad's sequencer and the fault records on their way: memory, regions, launches, the other quads, the
other queues of the quad, the engines of the quad, time, the registers of the device. -/
def sameBut (s t : State) (lq q : Nat) : Prop :=
  (∀ a, t.byteAt a = s.byteAt a) ∧ t.poison = s.poison ∧ t.own = s.own ∧ t.regions = s.regions ∧ t.launches = s.launches ∧ t.pending = s.pending ∧
  t.halls = s.halls ∧ t.streams = s.streams ∧ t.ctxown = s.ctxown ∧ t.lqpart = s.lqpart ∧ t.dtime = s.dtime ∧ t.cycle = s.cycle ∧ t.images = s.images ∧
  t.ports = s.ports ∧ (∀ k, k ≠ lq → t.quadOf k = s.quadOf k) ∧ (∀ j, j ≠ q → t.queueOf lq j = s.queueOf lq j) ∧
  (∀ m, (t.quadOf lq).mx m = (s.quadOf lq).mx m) ∧ (∀ k, (t.quadOf lq).chan k = (s.quadOf lq).chan k)

end Sys2Proof.Claims

open Sys2Proof.Claims

/-- The frame of the scalar, control, semaphore, barrier and task words (R252 to R270): memory, poison, tags, regions, launches, requests, the other quads, the
other queues and the engines of the quad stay; of the registers of the queue only qd changes, and by no word that writes none; PRIO and CTX stay
but for a write of QSQ_QCTL that waits for the next issue (R253), MXMODE and TVEC stay; a semaphore changes only where the word is SIG or SEMSET of it or signals it. LDQ changes no byte of memory and no register but qd; STQ changes no
register, and no byte outside the runs that translation gives for the eight bytes from (qs + imm) mod 2^57 (R206, R259). -/
def Obligations.SequencerFrame : Prop :=
  (∀ (h : Hdr) (o : OpA) (s t : State) (lq q : Nat), s.focus = .queue lq q →
     let x := s.queueOf lq q
     let y := t.queueOf lq q
     (∀ c ∈ registerWords ++ registerlessWords, exec (c h o) s = .next t →
       sameBut s t lq q ∧ (∀ r, r ≠ o.qd.toNat → y.reg r = x.reg r) ∧ y.reg 0 = 0 ∧
       (x.ctl = none → y.prio = x.prio ∧ y.ctx = x.ctx) ∧ y.mxmode = x.mxmode ∧ y.tvec = x.tvec) ∧
     (∀ c ∈ registerlessWords, exec (c h o) s = .next t → ∀ r, y.reg r = x.reg r) ∧
     (∀ c ∈ registerWords ++ [Instr.br, .brc, .ret, .halt, .loop, .wait, .nbarr, .nbwait, .taskdef, .taskdone], exec (c h o) s = .next t →
       ∀ n, (h.se = false ∨ n ≠ h.ssem.toNat) → (t.quadOf lq).semOf n = (s.quadOf lq).semOf n) ∧
     ∀ c ∈ [Instr.sig, .semset], exec (c h o) s = .next t →
       ∀ n, n ≠ bits o.imm.toNat 7 0 → (h.se = false ∨ n ≠ h.ssem.toNat) → (t.quadOf lq).semOf n = (s.quadOf lq).semOf n) ∧
  ∀ (h : Hdr) (o : OpA) (s t : State) (lq q : Nat), s.focus = .queue lq q →
    let x := s.queueOf lq q
    let a := ((x.reg o.qs.toNat).toNat + o.imm.toNat) % 2 ^ 57
    (exec (.ldq h o) s = .next t → (∀ b, t.byteAt b = s.byteAt b) ∧ ∀ r, r ≠ o.qd.toNat → (t.queueOf lq q).reg r = x.reg r) ∧
    (exec (.stq h o) s = .next t → (∀ r, (t.queueOf lq q).reg r = x.reg r) ∧
      (∀ runs, spread s { queueAccess s lq x with want := .write } a 8 = .ok runs →
        ∀ b, (∀ r ∈ runs, b < r.1 ∨ r.1 + r.2 ≤ b) → t.byteAt b = s.byteAt b) ∧
      ((∀ runs, spread s { queueAccess s lq x with want := .write } a 8 ≠ .ok runs) → ∀ b, t.byteAt b = s.byteAt b))

/-- The frame of a firing of the fabric instructions that only compute (R63, R64, R128): where no upset strikes and no poison is consumed, memory, queues,
launches, partitions and every other region stay, and in the region no other slot's node, no window and none of the block changes. -/
def Obligations.ComputeFormsFrame : Prop :=
  ∀ c ∈ computeForms, ∀ (f : Fab) (s t : State) (rid slot ctx : Nat) (r : Region), s.focus = .slot rid slot ctx → s.region? rid = some r →
    ∀ z, nextSet (c f) (r.node slot ctx) = some z → s.upset = .none → (∀ ty i, consumesPoison (c f) (z.firing (c f) ty i) = false) →
    exec (c f) s = .next t →
    (∀ a, t.byteAt a = s.byteAt a) ∧ t.quads = s.quads ∧ t.launches = s.launches ∧ t.parts = s.parts ∧ t.halls = s.halls ∧ t.pending = s.pending ∧
    t.dtime = s.dtime ∧ (∀ k, k ≠ rid → t.region? k = s.region? k) ∧
    ∃ w, t.region? rid = some w ∧ w.blocks = r.blocks ∧ w.pes = r.pes ∧ w.running = r.running ∧ w.frozen = r.frozen ∧
      (slot < 128 → ctx < 4096 → ∀ k d, k < 128 → d < 4096 → (k ≠ slot ∨ d ≠ ctx) → w.node k d = r.node k d) ∧ ∀ k, w.window k = r.window k
end

