-- ==== Sys2Proof/Laws/Maps.lean ====
section
/-! SUPPORT. The sparse maps of the state: what a read gives after a write, and that writing keeps the canonical form. -/

namespace Sys2Proof.NatMap

variable {α : Type}

/-- A read with a default is a search with that default. -/
theorem get_eq (d : α) (m : NatMap α) (k : Nat) : get d m k = (find? m k).getD d := by
  induction m with
  | nil => rfl
  | cons e m ih =>
    obtain ⟨j, v⟩ := e
    by_cases h : j = k
    · simp [get, find?, h]
    · simp [get, find?, h, ih]

/-- What an insertion puts at a key is found there. -/
@[simp] theorem find_insert_self (m : NatMap α) (k : Nat) (v : α) : find? (insert m k v) k = some v := by
  induction m with
  | nil => simp [insert, find?]
  | cons e m ih =>
    obtain ⟨j, w⟩ := e
    unfold insert
    split
    · simp [find?]
    · split
      · simp [find?]
      · next h1 h2 => simp only [find?]; rw [if_neg (fun h => h2 h.symm)]; exact ih

/-- An insertion changes no other key. -/
theorem find_insert_other (m : NatMap α) {k j : Nat} (v : α) (h : j ≠ k) : find? (insert m k v) j = find? m j := by
  induction m with
  | nil => simp [insert, find?, Ne.symm h]
  | cons e m ih =>
    obtain ⟨i, w⟩ := e
    unfold insert
    split
    · simp [find?, Ne.symm h]
    · split
      · next h2 => subst h2; simp [find?, Ne.symm h]
      · simp only [find?, ih]

/-- The second of two insertions at a key is the one that counts. -/
@[simp] theorem insert_insert (m : NatMap α) (k : Nat) (v w : α) : insert (insert m k v) k w = insert m k w := by
  induction m with
  | nil => simp [insert]
  | cons e m ih =>
    obtain ⟨j, u⟩ := e
    by_cases h1 : k < j
    · simp [insert, h1]
    · by_cases h2 : k = j
      · simp [insert, h2]
      · simp [insert, h1, h2, ih]

/-- An erasure changes no other key. -/
theorem find_erase_other (m : NatMap α) {k j : Nat} (h : j ≠ k) : find? (erase m k) j = find? m j := by
  induction m with
  | nil => rfl
  | cons e m ih =>
    obtain ⟨i, w⟩ := e
    by_cases hi : i = k
    · subst hi; simp [erase, find?, Ne.symm h, ih]
    · simp [erase, find?, hi, ih]

/-- An erased key is not found. -/
@[simp] theorem find_erase_self (m : NatMap α) (k : Nat) : find? (erase m k) k = none := by
  induction m with
  | nil => rfl
  | cons e m ih =>
    obtain ⟨j, v⟩ := e
    by_cases hj : j = k
    · simp [erase, hj, ih]
    · simp [erase, hj, find?, ih]

/-- Read after write, another key. -/
theorem get_set_other [DecidableEq α] (d : α) (m : NatMap α) {k j : Nat} (v : α) (h : j ≠ k) : get d (set d m k v) j = get d m j := by
  unfold set
  split <;> simp [get_eq, find_erase_other, find_insert_other, h]

/-- Read after write, the same key. -/
@[simp] theorem get_set_self [DecidableEq α] (d : α) (m : NatMap α) (k : Nat) (v : α) : get d (set d m k v) k = v := by
  unfold set
  split
  · next hv => simp [get_eq, hv]
  · simp [get_eq]

/-- Lowering the bound. -/
theorem rises_mono {m : NatMap α} {lo lo' : Nat} (h : risesFrom lo m = true) (hl : lo' ≤ lo) : risesFrom lo' m = true := by
  cases m with
  | nil => rfl
  | cons e m =>
    obtain ⟨j, v⟩ := e
    simp only [risesFrom, Bool.and_eq_true, decide_eq_true_eq] at h ⊢
    exact ⟨by omega, h.2⟩

/-- An insertion keeps the keys rising. -/
theorem rises_insert {m : NatMap α} {lo k : Nat} (v : α) (h : risesFrom lo m = true) (hk : lo ≤ k) : risesFrom lo (insert m k v) = true := by
  induction m generalizing lo with
  | nil => simp [insert, risesFrom, hk]
  | cons e m ih =>
    obtain ⟨j, w⟩ := e
    simp only [risesFrom, Bool.and_eq_true, decide_eq_true_eq] at h
    unfold insert
    split
    · simp only [risesFrom, Bool.and_eq_true, decide_eq_true_eq]; exact ⟨hk, by omega, h.2⟩
    · split
      · next h2 => subst h2; simp only [risesFrom, Bool.and_eq_true, decide_eq_true_eq]; exact h
      · simp only [risesFrom, Bool.and_eq_true, decide_eq_true_eq]; exact ⟨h.1, ih h.2 (by omega)⟩

/-- An erasure keeps the keys rising. -/
theorem rises_erase {m : NatMap α} {lo k : Nat} (h : risesFrom lo m = true) : risesFrom lo (erase m k) = true := by
  induction m generalizing lo with
  | nil => rfl
  | cons e m ih =>
    obtain ⟨j, w⟩ := e
    simp only [risesFrom, Bool.and_eq_true, decide_eq_true_eq] at h
    by_cases hj : j = k
    · simp only [erase, hj, if_true]; exact rises_mono (ih h.2) (by omega)
    · simp only [erase, if_neg hj, risesFrom, Bool.and_eq_true, decide_eq_true_eq]; exact ⟨h.1, ih h.2⟩

/-- Every element an insertion leaves is the new one or an old one. -/
theorem mem_insert {m : NatMap α} {k : Nat} {v : α} {e : Nat × α} (h : e ∈ insert m k v) : e = (k, v) ∨ e ∈ m := by
  induction m with
  | nil => simpa [insert] using h
  | cons x m ih =>
    obtain ⟨j, w⟩ := x
    unfold insert at h
    split at h
    · simpa using h
    · split at h
      · rcases List.mem_cons.mp h with h | h
        · exact .inl h
        · exact .inr (List.mem_cons_of_mem _ h)
      · rcases List.mem_cons.mp h with h | h
        · exact .inr (h ▸ List.mem_cons_self)
        · exact (ih h).imp id (List.mem_cons_of_mem _)

/-- Every element an erasure leaves was there. -/
theorem mem_erase {m : NatMap α} {k : Nat} {e : Nat × α} (h : e ∈ erase m k) : e ∈ m := by
  induction m with
  | nil => simp [erase] at h
  | cons x m ih =>
    obtain ⟨j, w⟩ := x
    unfold erase at h
    split at h
    · exact List.mem_cons_of_mem _ (ih h)
    · rcases List.mem_cons.mp h with h | h
      · exact h ▸ List.mem_cons_self
      · exact List.mem_cons_of_mem _ (ih h)

/-- A write keeps the canonical form. -/
theorem wf_set [DecidableEq α] {d : α} {m : NatMap α} (k : Nat) (v : α) (h : wf d m = true) : wf d (set d m k v) = true := by
  simp only [wf, noDefault, Bool.and_eq_true, List.all_eq_true, decide_eq_true_eq] at h ⊢
  unfold set
  split
  · exact ⟨rises_erase h.1, fun e he => h.2 e (mem_erase he)⟩
  · next hv =>
    refine ⟨rises_insert v h.1 (Nat.zero_le _), fun e he => ?_⟩
    rcases mem_insert he with rfl | he
    · exact hv
    · exact h.2 e he

end Sys2Proof.NatMap
end

