-- ==== Sys2Proof/Laws/Memory.lean ====
section
/-! SUPPORT. Memory: every write keeps its canonical form, a read after a write gives what was written, and a write leaves every byte outside it
alone. -/

namespace Sys2Proof.Machine

/-- Bytes put into memory keep its canonical form. -/
theorem putBytes_wf {m : NatMap Byte} (pa : Nat) (bs : List Byte) (h : NatMap.wf unlisted m = true) :
    NatMap.wf unlisted (putBytes m pa bs) = true := by
  induction bs generalizing m pa with
  | nil => exact h
  | cons b bs ih => exact ih _ (NatMap.wf_set pa b h)

/-- A byte below the bytes put is as before. -/
theorem putBytes_below (m : NatMap Byte) {pa a : Nat} (bs : List Byte) (h : a < pa) :
    NatMap.get unlisted (putBytes m pa bs) a = NatMap.get unlisted m a := by
  induction bs generalizing m pa with
  | nil => rfl
  | cons b bs ih =>
    simp only [putBytes]
    rw [ih _ (by omega), NatMap.get_set_other _ _ _ (by omega)]

/-- A byte outside the bytes put is as before. -/
theorem putBytes_outside (m : NatMap Byte) {pa a : Nat} (bs : List Byte) (h : a < pa ∨ pa + bs.length ≤ a) :
    NatMap.get unlisted (putBytes m pa bs) a = NatMap.get unlisted m a := by
  induction bs generalizing m pa with
  | nil => rfl
  | cons b bs ih =>
    simp only [List.length_cons] at h
    simp only [putBytes]
    rw [ih _ (by omega), NatMap.get_set_other _ _ _ (by omega)]

/-- A byte that was put is read back. -/
theorem putBytes_inside (m : NatMap Byte) (pa : Nat) (bs : List Byte) {i : Nat} (hi : i < bs.length) :
    NatMap.get unlisted (putBytes m pa bs) (pa + i) = bs.getD i 0 := by
  induction bs generalizing m pa i with
  | nil => simp at hi
  | cons b bs ih =>
    cases i with
    | zero =>
      simp only [putBytes, Nat.add_zero]
      rw [putBytes_below _ _ (Nat.lt_succ_self pa)]
      simp
    | succ i =>
      simp only [List.length_cons] at hi
      simp only [putBytes]
      have := ih (NatMap.set unlisted m pa b) (pa + 1) (i := i) (by omega)
      rw [show pa + (i + 1) = pa + 1 + i by omega, this]
      simp

/-- A write keeps the canonical form of memory. -/
theorem State.writeAt_wf {s : State} (pa : Nat) (bs : List Byte) (h : Memory.wf s = true) : Memory.wf (s.writeAt pa bs) = true :=
  putBytes_wf pa bs h

/-- A little-endian write keeps the canonical form of memory. -/
theorem State.putNum_wf {s : State} (pa n x : Nat) (h : Memory.wf s = true) : Memory.wf (s.putNum pa n x) = true :=
  putBytes_wf pa (toBytes n x) h

/-- A write leaves every byte outside it alone. -/
theorem State.writeAt_outside (s : State) {pa a : Nat} (bs : List Byte) (h : a < pa ∨ pa + bs.length ≤ a) :
    (s.writeAt pa bs).byteAt a = s.byteAt a := putBytes_outside s.mem bs h

/-- A written byte is read back. -/
theorem State.writeAt_inside (s : State) (pa : Nat) (bs : List Byte) {i : Nat} (hi : i < bs.length) :
    (s.writeAt pa bs).byteAt (pa + i) = bs.getD i 0 := putBytes_inside s.mem pa bs hi

/-- `n` bytes of a number. -/
@[simp] theorem toBytes_length (n x : Nat) : (toBytes n x).length = n := by
  induction n generalizing x with
  | zero => rfl
  | succ n ih => simp [toBytes, ih]

/-- A little-endian write leaves every byte outside its `n` alone. -/
theorem State.putNum_outside (s : State) {pa n a : Nat} (x : Nat) (h : a < pa ∨ pa + n ≤ a) : (s.putNum pa n x).byteAt a = s.byteAt a :=
  State.writeAt_outside s _ (by simpa using h)

/-- The bytes read at an address, one by one. -/
theorem State.bytesAt_length (s : State) (pa n : Nat) : (s.bytesAt pa n).length = n := by
  induction n generalizing pa with
  | zero => rfl
  | succ n ih => simp [State.bytesAt, ih]

/-- The number of the bytes of a number is that number, modulo its length (R4). -/
theorem ofBytes_toBytes (n x : Nat) : ofBytes (toBytes n x) = x % 256 ^ n := by
  induction n generalizing x with
  | zero => simp [toBytes, ofBytes, Nat.mod_one]
  | succ n ih =>
    simp only [toBytes, ofBytes, ih, BitVec.toNat_ofNat]
    rw [show (256 : Nat) ^ (n + 1) = 256 * 256 ^ n from Nat.pow_succ', Nat.mod_mul]

end Sys2Proof.Machine
end

