-- ==== Sys2Proof/Laws/State.lean ====
section
/-! SUPPORT. The state after each update, field by field: the update that is named changes the fields it is for, and no other. -/

namespace Sys2Proof.Machine

variable (s : State)

/-! ### setQuad -/

@[simp] theorem State.setQuad_agenda (lq : Nat) (x : Quad) : (s.setQuad lq x).agenda = s.agenda := rfl
@[simp] theorem State.setQuad_stepNo (lq : Nat) (x : Quad) : (s.setQuad lq x).stepNo = s.stepNo := rfl
@[simp] theorem State.setQuad_taken (lq : Nat) (x : Quad) : (s.setQuad lq x).taken = s.taken := rfl
@[simp] theorem State.setQuad_focus (lq : Nat) (x : Quad) : (s.setQuad lq x).focus = s.focus := rfl
@[simp] theorem State.setQuad_upset (lq : Nat) (x : Quad) : (s.setQuad lq x).upset = s.upset := rfl
@[simp] theorem State.setQuad_out (lq : Nat) (x : Quad) : (s.setQuad lq x).out = s.out := rfl
@[simp] theorem State.setQuad_powered (lq : Nat) (x : Quad) : (s.setQuad lq x).powered = s.powered := rfl
@[simp] theorem State.setQuad_is930 (lq : Nat) (x : Quad) : (s.setQuad lq x).is930 = s.is930 := rfl
@[simp] theorem State.setQuad_boot (lq : Nat) (x : Quad) : (s.setQuad lq x).boot = s.boot := rfl
@[simp] theorem State.setQuad_cycle (lq : Nat) (x : Quad) : (s.setQuad lq x).cycle = s.cycle := rfl
@[simp] theorem State.setQuad_dtime (lq : Nat) (x : Quad) : (s.setQuad lq x).dtime = s.dtime := rfl
@[simp] theorem State.setQuad_prevDtime (lq : Nat) (x : Quad) : (s.setQuad lq x).prevDtime = s.prevDtime := rfl
@[simp] theorem State.setQuad_absorb (lq : Nat) (x : Quad) : (s.setQuad lq x).absorb = s.absorb := rfl
@[simp] theorem State.setQuad_halfTick (lq : Nat) (x : Quad) : (s.setQuad lq x).halfTick = s.halfTick := rfl
@[simp] theorem State.setQuad_sysNode (lq : Nat) (x : Quad) : (s.setQuad lq x).sysNode = s.sysNode := rfl
@[simp] theorem State.setQuad_mem (lq : Nat) (x : Quad) : (s.setQuad lq x).mem = s.mem := rfl
@[simp] theorem State.setQuad_poison (lq : Nat) (x : Quad) : (s.setQuad lq x).poison = s.poison := rfl
@[simp] theorem State.setQuad_own (lq : Nat) (x : Quad) : (s.setQuad lq x).own = s.own := rfl
@[simp] theorem State.setQuad_banks (lq : Nat) (x : Quad) : (s.setQuad lq x).banks = s.banks := rfl
@[simp] theorem State.setQuad_redir (lq : Nat) (x : Quad) : (s.setQuad lq x).redir = s.redir := rfl
@[simp] theorem State.setQuad_pquads (lq : Nat) (x : Quad) : (s.setQuad lq x).pquads = s.pquads := rfl
@[simp] theorem State.setQuad_tlb2 (lq : Nat) (x : Quad) : (s.setQuad lq x).tlb2 = s.tlb2 := rfl
@[simp] theorem State.setQuad_halls (lq : Nat) (x : Quad) : (s.setQuad lq x).halls = s.halls := rfl
@[simp] theorem State.setQuad_parts (lq : Nat) (x : Quad) : (s.setQuad lq x).parts = s.parts := rfl
@[simp] theorem State.setQuad_remap (lq : Nat) (x : Quad) : (s.setQuad lq x).remap = s.remap := rfl
@[simp] theorem State.setQuad_lqpart (lq : Nat) (x : Quad) : (s.setQuad lq x).lqpart = s.lqpart := rfl
@[simp] theorem State.setQuad_ctxown (lq : Nat) (x : Quad) : (s.setQuad lq x).ctxown = s.ctxown := rfl
@[simp] theorem State.setQuad_tables (lq : Nat) (x : Quad) : (s.setQuad lq x).tables = s.tables := rfl
@[simp] theorem State.setQuad_ports (lq : Nat) (x : Quad) : (s.setQuad lq x).ports = s.ports := rfl
@[simp] theorem State.setQuad_sources (lq : Nat) (x : Quad) : (s.setQuad lq x).sources = s.sources := rfl
@[simp] theorem State.setQuad_nextSeq (lq : Nat) (x : Quad) : (s.setQuad lq x).nextSeq = s.nextSeq := rfl
@[simp] theorem State.setQuad_peerOut (lq : Nat) (x : Quad) : (s.setQuad lq x).peerOut = s.peerOut := rfl
@[simp] theorem State.setQuad_owing (lq : Nat) (x : Quad) : (s.setQuad lq x).owing = s.owing := rfl
@[simp] theorem State.setQuad_peerReads (lq : Nat) (x : Quad) : (s.setQuad lq x).peerReads = s.peerReads := rfl
@[simp] theorem State.setQuad_posted (lq : Nat) (x : Quad) : (s.setQuad lq x).posted = s.posted := rfl
@[simp] theorem State.setQuad_served (lq : Nat) (x : Quad) : (s.setQuad lq x).served = s.served := rfl
@[simp] theorem State.setQuad_late (lq : Nat) (x : Quad) : (s.setQuad lq x).late = s.late := rfl
@[simp] theorem State.setQuad_launches (lq : Nat) (x : Quad) : (s.setQuad lq x).launches = s.launches := rfl
@[simp] theorem State.setQuad_nextLaunch (lq : Nat) (x : Quad) : (s.setQuad lq x).nextLaunch = s.nextLaunch := rfl
@[simp] theorem State.setQuad_regions (lq : Nat) (x : Quad) : (s.setQuad lq x).regions = s.regions := rfl
@[simp] theorem State.setQuad_pending (lq : Nat) (x : Quad) : (s.setQuad lq x).pending = s.pending := rfl
@[simp] theorem State.setQuad_homes (lq : Nat) (x : Quad) : (s.setQuad lq x).homes = s.homes := rfl
@[simp] theorem State.setQuad_nextId (lq : Nat) (x : Quad) : (s.setQuad lq x).nextId = s.nextId := rfl
@[simp] theorem State.setQuad_ranges (lq : Nat) (x : Quad) : (s.setQuad lq x).ranges = s.ranges := rfl
@[simp] theorem State.setQuad_images (lq : Nat) (x : Quad) : (s.setQuad lq x).images = s.images := rfl
@[simp] theorem State.setQuad_nextImage (lq : Nat) (x : Quad) : (s.setQuad lq x).nextImage = s.nextImage := rfl
@[simp] theorem State.setQuad_taskTrees (lq : Nat) (x : Quad) : (s.setQuad lq x).taskTrees = s.taskTrees := rfl
@[simp] theorem State.setQuad_streams (lq : Nat) (x : Quad) : (s.setQuad lq x).streams = s.streams := rfl
@[simp] theorem State.setQuad_byteAt (lq : Nat) (x : Quad) (pa : Nat) : (s.setQuad lq x).byteAt pa = s.byteAt pa := rfl

/-! ### setQueue -/

@[simp] theorem State.setQueue_agenda (lq q : Nat) (x : Queue) : (s.setQueue lq q x).agenda = s.agenda := rfl
@[simp] theorem State.setQueue_stepNo (lq q : Nat) (x : Queue) : (s.setQueue lq q x).stepNo = s.stepNo := rfl
@[simp] theorem State.setQueue_taken (lq q : Nat) (x : Queue) : (s.setQueue lq q x).taken = s.taken := rfl
@[simp] theorem State.setQueue_focus (lq q : Nat) (x : Queue) : (s.setQueue lq q x).focus = s.focus := rfl
@[simp] theorem State.setQueue_upset (lq q : Nat) (x : Queue) : (s.setQueue lq q x).upset = s.upset := rfl
@[simp] theorem State.setQueue_out (lq q : Nat) (x : Queue) : (s.setQueue lq q x).out = s.out := rfl
@[simp] theorem State.setQueue_powered (lq q : Nat) (x : Queue) : (s.setQueue lq q x).powered = s.powered := rfl
@[simp] theorem State.setQueue_is930 (lq q : Nat) (x : Queue) : (s.setQueue lq q x).is930 = s.is930 := rfl
@[simp] theorem State.setQueue_boot (lq q : Nat) (x : Queue) : (s.setQueue lq q x).boot = s.boot := rfl
@[simp] theorem State.setQueue_cycle (lq q : Nat) (x : Queue) : (s.setQueue lq q x).cycle = s.cycle := rfl
@[simp] theorem State.setQueue_dtime (lq q : Nat) (x : Queue) : (s.setQueue lq q x).dtime = s.dtime := rfl
@[simp] theorem State.setQueue_prevDtime (lq q : Nat) (x : Queue) : (s.setQueue lq q x).prevDtime = s.prevDtime := rfl
@[simp] theorem State.setQueue_absorb (lq q : Nat) (x : Queue) : (s.setQueue lq q x).absorb = s.absorb := rfl
@[simp] theorem State.setQueue_halfTick (lq q : Nat) (x : Queue) : (s.setQueue lq q x).halfTick = s.halfTick := rfl
@[simp] theorem State.setQueue_sysNode (lq q : Nat) (x : Queue) : (s.setQueue lq q x).sysNode = s.sysNode := rfl
@[simp] theorem State.setQueue_mem (lq q : Nat) (x : Queue) : (s.setQueue lq q x).mem = s.mem := rfl
@[simp] theorem State.setQueue_poison (lq q : Nat) (x : Queue) : (s.setQueue lq q x).poison = s.poison := rfl
@[simp] theorem State.setQueue_own (lq q : Nat) (x : Queue) : (s.setQueue lq q x).own = s.own := rfl
@[simp] theorem State.setQueue_banks (lq q : Nat) (x : Queue) : (s.setQueue lq q x).banks = s.banks := rfl
@[simp] theorem State.setQueue_redir (lq q : Nat) (x : Queue) : (s.setQueue lq q x).redir = s.redir := rfl
@[simp] theorem State.setQueue_pquads (lq q : Nat) (x : Queue) : (s.setQueue lq q x).pquads = s.pquads := rfl
@[simp] theorem State.setQueue_tlb2 (lq q : Nat) (x : Queue) : (s.setQueue lq q x).tlb2 = s.tlb2 := rfl
@[simp] theorem State.setQueue_halls (lq q : Nat) (x : Queue) : (s.setQueue lq q x).halls = s.halls := rfl
@[simp] theorem State.setQueue_parts (lq q : Nat) (x : Queue) : (s.setQueue lq q x).parts = s.parts := rfl
@[simp] theorem State.setQueue_remap (lq q : Nat) (x : Queue) : (s.setQueue lq q x).remap = s.remap := rfl
@[simp] theorem State.setQueue_lqpart (lq q : Nat) (x : Queue) : (s.setQueue lq q x).lqpart = s.lqpart := rfl
@[simp] theorem State.setQueue_ctxown (lq q : Nat) (x : Queue) : (s.setQueue lq q x).ctxown = s.ctxown := rfl
@[simp] theorem State.setQueue_tables (lq q : Nat) (x : Queue) : (s.setQueue lq q x).tables = s.tables := rfl
@[simp] theorem State.setQueue_ports (lq q : Nat) (x : Queue) : (s.setQueue lq q x).ports = s.ports := rfl
@[simp] theorem State.setQueue_sources (lq q : Nat) (x : Queue) : (s.setQueue lq q x).sources = s.sources := rfl
@[simp] theorem State.setQueue_nextSeq (lq q : Nat) (x : Queue) : (s.setQueue lq q x).nextSeq = s.nextSeq := rfl
@[simp] theorem State.setQueue_peerOut (lq q : Nat) (x : Queue) : (s.setQueue lq q x).peerOut = s.peerOut := rfl
@[simp] theorem State.setQueue_owing (lq q : Nat) (x : Queue) : (s.setQueue lq q x).owing = s.owing := rfl
@[simp] theorem State.setQueue_peerReads (lq q : Nat) (x : Queue) : (s.setQueue lq q x).peerReads = s.peerReads := rfl
@[simp] theorem State.setQueue_posted (lq q : Nat) (x : Queue) : (s.setQueue lq q x).posted = s.posted := rfl
@[simp] theorem State.setQueue_served (lq q : Nat) (x : Queue) : (s.setQueue lq q x).served = s.served := rfl
@[simp] theorem State.setQueue_late (lq q : Nat) (x : Queue) : (s.setQueue lq q x).late = s.late := rfl
@[simp] theorem State.setQueue_launches (lq q : Nat) (x : Queue) : (s.setQueue lq q x).launches = s.launches := rfl
@[simp] theorem State.setQueue_nextLaunch (lq q : Nat) (x : Queue) : (s.setQueue lq q x).nextLaunch = s.nextLaunch := rfl
@[simp] theorem State.setQueue_regions (lq q : Nat) (x : Queue) : (s.setQueue lq q x).regions = s.regions := rfl
@[simp] theorem State.setQueue_pending (lq q : Nat) (x : Queue) : (s.setQueue lq q x).pending = s.pending := rfl
@[simp] theorem State.setQueue_homes (lq q : Nat) (x : Queue) : (s.setQueue lq q x).homes = s.homes := rfl
@[simp] theorem State.setQueue_nextId (lq q : Nat) (x : Queue) : (s.setQueue lq q x).nextId = s.nextId := rfl
@[simp] theorem State.setQueue_ranges (lq q : Nat) (x : Queue) : (s.setQueue lq q x).ranges = s.ranges := rfl
@[simp] theorem State.setQueue_images (lq q : Nat) (x : Queue) : (s.setQueue lq q x).images = s.images := rfl
@[simp] theorem State.setQueue_nextImage (lq q : Nat) (x : Queue) : (s.setQueue lq q x).nextImage = s.nextImage := rfl
@[simp] theorem State.setQueue_taskTrees (lq q : Nat) (x : Queue) : (s.setQueue lq q x).taskTrees = s.taskTrees := rfl
@[simp] theorem State.setQueue_streams (lq q : Nat) (x : Queue) : (s.setQueue lq q x).streams = s.streams := rfl
@[simp] theorem State.setQueue_byteAt (lq q : Nat) (x : Queue) (pa : Nat) : (s.setQueue lq q x).byteAt pa = s.byteAt pa := rfl

/-! ### setPquad -/

@[simp] theorem State.setPquad_agenda (pq : Nat) (x : PhysQuad) : (s.setPquad pq x).agenda = s.agenda := rfl
@[simp] theorem State.setPquad_stepNo (pq : Nat) (x : PhysQuad) : (s.setPquad pq x).stepNo = s.stepNo := rfl
@[simp] theorem State.setPquad_taken (pq : Nat) (x : PhysQuad) : (s.setPquad pq x).taken = s.taken := rfl
@[simp] theorem State.setPquad_focus (pq : Nat) (x : PhysQuad) : (s.setPquad pq x).focus = s.focus := rfl
@[simp] theorem State.setPquad_upset (pq : Nat) (x : PhysQuad) : (s.setPquad pq x).upset = s.upset := rfl
@[simp] theorem State.setPquad_out (pq : Nat) (x : PhysQuad) : (s.setPquad pq x).out = s.out := rfl
@[simp] theorem State.setPquad_powered (pq : Nat) (x : PhysQuad) : (s.setPquad pq x).powered = s.powered := rfl
@[simp] theorem State.setPquad_is930 (pq : Nat) (x : PhysQuad) : (s.setPquad pq x).is930 = s.is930 := rfl
@[simp] theorem State.setPquad_boot (pq : Nat) (x : PhysQuad) : (s.setPquad pq x).boot = s.boot := rfl
@[simp] theorem State.setPquad_cycle (pq : Nat) (x : PhysQuad) : (s.setPquad pq x).cycle = s.cycle := rfl
@[simp] theorem State.setPquad_dtime (pq : Nat) (x : PhysQuad) : (s.setPquad pq x).dtime = s.dtime := rfl
@[simp] theorem State.setPquad_prevDtime (pq : Nat) (x : PhysQuad) : (s.setPquad pq x).prevDtime = s.prevDtime := rfl
@[simp] theorem State.setPquad_absorb (pq : Nat) (x : PhysQuad) : (s.setPquad pq x).absorb = s.absorb := rfl
@[simp] theorem State.setPquad_halfTick (pq : Nat) (x : PhysQuad) : (s.setPquad pq x).halfTick = s.halfTick := rfl
@[simp] theorem State.setPquad_sysNode (pq : Nat) (x : PhysQuad) : (s.setPquad pq x).sysNode = s.sysNode := rfl
@[simp] theorem State.setPquad_mem (pq : Nat) (x : PhysQuad) : (s.setPquad pq x).mem = s.mem := rfl
@[simp] theorem State.setPquad_poison (pq : Nat) (x : PhysQuad) : (s.setPquad pq x).poison = s.poison := rfl
@[simp] theorem State.setPquad_own (pq : Nat) (x : PhysQuad) : (s.setPquad pq x).own = s.own := rfl
@[simp] theorem State.setPquad_banks (pq : Nat) (x : PhysQuad) : (s.setPquad pq x).banks = s.banks := rfl
@[simp] theorem State.setPquad_redir (pq : Nat) (x : PhysQuad) : (s.setPquad pq x).redir = s.redir := rfl
@[simp] theorem State.setPquad_quads (pq : Nat) (x : PhysQuad) : (s.setPquad pq x).quads = s.quads := rfl
@[simp] theorem State.setPquad_tlb2 (pq : Nat) (x : PhysQuad) : (s.setPquad pq x).tlb2 = s.tlb2 := rfl
@[simp] theorem State.setPquad_halls (pq : Nat) (x : PhysQuad) : (s.setPquad pq x).halls = s.halls := rfl
@[simp] theorem State.setPquad_parts (pq : Nat) (x : PhysQuad) : (s.setPquad pq x).parts = s.parts := rfl
@[simp] theorem State.setPquad_remap (pq : Nat) (x : PhysQuad) : (s.setPquad pq x).remap = s.remap := rfl
@[simp] theorem State.setPquad_lqpart (pq : Nat) (x : PhysQuad) : (s.setPquad pq x).lqpart = s.lqpart := rfl
@[simp] theorem State.setPquad_ctxown (pq : Nat) (x : PhysQuad) : (s.setPquad pq x).ctxown = s.ctxown := rfl
@[simp] theorem State.setPquad_tables (pq : Nat) (x : PhysQuad) : (s.setPquad pq x).tables = s.tables := rfl
@[simp] theorem State.setPquad_ports (pq : Nat) (x : PhysQuad) : (s.setPquad pq x).ports = s.ports := rfl
@[simp] theorem State.setPquad_sources (pq : Nat) (x : PhysQuad) : (s.setPquad pq x).sources = s.sources := rfl
@[simp] theorem State.setPquad_nextSeq (pq : Nat) (x : PhysQuad) : (s.setPquad pq x).nextSeq = s.nextSeq := rfl
@[simp] theorem State.setPquad_peerOut (pq : Nat) (x : PhysQuad) : (s.setPquad pq x).peerOut = s.peerOut := rfl
@[simp] theorem State.setPquad_owing (pq : Nat) (x : PhysQuad) : (s.setPquad pq x).owing = s.owing := rfl
@[simp] theorem State.setPquad_peerReads (pq : Nat) (x : PhysQuad) : (s.setPquad pq x).peerReads = s.peerReads := rfl
@[simp] theorem State.setPquad_posted (pq : Nat) (x : PhysQuad) : (s.setPquad pq x).posted = s.posted := rfl
@[simp] theorem State.setPquad_served (pq : Nat) (x : PhysQuad) : (s.setPquad pq x).served = s.served := rfl
@[simp] theorem State.setPquad_late (pq : Nat) (x : PhysQuad) : (s.setPquad pq x).late = s.late := rfl
@[simp] theorem State.setPquad_launches (pq : Nat) (x : PhysQuad) : (s.setPquad pq x).launches = s.launches := rfl
@[simp] theorem State.setPquad_nextLaunch (pq : Nat) (x : PhysQuad) : (s.setPquad pq x).nextLaunch = s.nextLaunch := rfl
@[simp] theorem State.setPquad_regions (pq : Nat) (x : PhysQuad) : (s.setPquad pq x).regions = s.regions := rfl
@[simp] theorem State.setPquad_pending (pq : Nat) (x : PhysQuad) : (s.setPquad pq x).pending = s.pending := rfl
@[simp] theorem State.setPquad_homes (pq : Nat) (x : PhysQuad) : (s.setPquad pq x).homes = s.homes := rfl
@[simp] theorem State.setPquad_nextId (pq : Nat) (x : PhysQuad) : (s.setPquad pq x).nextId = s.nextId := rfl
@[simp] theorem State.setPquad_ranges (pq : Nat) (x : PhysQuad) : (s.setPquad pq x).ranges = s.ranges := rfl
@[simp] theorem State.setPquad_images (pq : Nat) (x : PhysQuad) : (s.setPquad pq x).images = s.images := rfl
@[simp] theorem State.setPquad_nextImage (pq : Nat) (x : PhysQuad) : (s.setPquad pq x).nextImage = s.nextImage := rfl
@[simp] theorem State.setPquad_taskTrees (pq : Nat) (x : PhysQuad) : (s.setPquad pq x).taskTrees = s.taskTrees := rfl
@[simp] theorem State.setPquad_streams (pq : Nat) (x : PhysQuad) : (s.setPquad pq x).streams = s.streams := rfl
@[simp] theorem State.setPquad_byteAt (pq : Nat) (x : PhysQuad) (pa : Nat) : (s.setPquad pq x).byteAt pa = s.byteAt pa := rfl
@[simp] theorem State.setPquad_queueOf (pq : Nat) (x : PhysQuad) (i j : Nat) : (s.setPquad pq x).queueOf i j = s.queueOf i j := rfl
@[simp] theorem State.setPquad_quadOf (pq : Nat) (x : PhysQuad) (i : Nat) : (s.setPquad pq x).quadOf i = s.quadOf i := rfl

/-! ### setPart -/

@[simp] theorem State.setPart_agenda (p : Nat) (x : Partition) : (s.setPart p x).agenda = s.agenda := rfl
@[simp] theorem State.setPart_stepNo (p : Nat) (x : Partition) : (s.setPart p x).stepNo = s.stepNo := rfl
@[simp] theorem State.setPart_taken (p : Nat) (x : Partition) : (s.setPart p x).taken = s.taken := rfl
@[simp] theorem State.setPart_focus (p : Nat) (x : Partition) : (s.setPart p x).focus = s.focus := rfl
@[simp] theorem State.setPart_upset (p : Nat) (x : Partition) : (s.setPart p x).upset = s.upset := rfl
@[simp] theorem State.setPart_out (p : Nat) (x : Partition) : (s.setPart p x).out = s.out := rfl
@[simp] theorem State.setPart_powered (p : Nat) (x : Partition) : (s.setPart p x).powered = s.powered := rfl
@[simp] theorem State.setPart_is930 (p : Nat) (x : Partition) : (s.setPart p x).is930 = s.is930 := rfl
@[simp] theorem State.setPart_boot (p : Nat) (x : Partition) : (s.setPart p x).boot = s.boot := rfl
@[simp] theorem State.setPart_cycle (p : Nat) (x : Partition) : (s.setPart p x).cycle = s.cycle := rfl
@[simp] theorem State.setPart_dtime (p : Nat) (x : Partition) : (s.setPart p x).dtime = s.dtime := rfl
@[simp] theorem State.setPart_prevDtime (p : Nat) (x : Partition) : (s.setPart p x).prevDtime = s.prevDtime := rfl
@[simp] theorem State.setPart_absorb (p : Nat) (x : Partition) : (s.setPart p x).absorb = s.absorb := rfl
@[simp] theorem State.setPart_halfTick (p : Nat) (x : Partition) : (s.setPart p x).halfTick = s.halfTick := rfl
@[simp] theorem State.setPart_sysNode (p : Nat) (x : Partition) : (s.setPart p x).sysNode = s.sysNode := rfl
@[simp] theorem State.setPart_mem (p : Nat) (x : Partition) : (s.setPart p x).mem = s.mem := rfl
@[simp] theorem State.setPart_poison (p : Nat) (x : Partition) : (s.setPart p x).poison = s.poison := rfl
@[simp] theorem State.setPart_own (p : Nat) (x : Partition) : (s.setPart p x).own = s.own := rfl
@[simp] theorem State.setPart_banks (p : Nat) (x : Partition) : (s.setPart p x).banks = s.banks := rfl
@[simp] theorem State.setPart_redir (p : Nat) (x : Partition) : (s.setPart p x).redir = s.redir := rfl
@[simp] theorem State.setPart_quads (p : Nat) (x : Partition) : (s.setPart p x).quads = s.quads := rfl
@[simp] theorem State.setPart_pquads (p : Nat) (x : Partition) : (s.setPart p x).pquads = s.pquads := rfl
@[simp] theorem State.setPart_tlb2 (p : Nat) (x : Partition) : (s.setPart p x).tlb2 = s.tlb2 := rfl
@[simp] theorem State.setPart_halls (p : Nat) (x : Partition) : (s.setPart p x).halls = s.halls := rfl
@[simp] theorem State.setPart_remap (p : Nat) (x : Partition) : (s.setPart p x).remap = s.remap := rfl
@[simp] theorem State.setPart_lqpart (p : Nat) (x : Partition) : (s.setPart p x).lqpart = s.lqpart := rfl
@[simp] theorem State.setPart_ctxown (p : Nat) (x : Partition) : (s.setPart p x).ctxown = s.ctxown := rfl
@[simp] theorem State.setPart_tables (p : Nat) (x : Partition) : (s.setPart p x).tables = s.tables := rfl
@[simp] theorem State.setPart_ports (p : Nat) (x : Partition) : (s.setPart p x).ports = s.ports := rfl
@[simp] theorem State.setPart_sources (p : Nat) (x : Partition) : (s.setPart p x).sources = s.sources := rfl
@[simp] theorem State.setPart_nextSeq (p : Nat) (x : Partition) : (s.setPart p x).nextSeq = s.nextSeq := rfl
@[simp] theorem State.setPart_peerOut (p : Nat) (x : Partition) : (s.setPart p x).peerOut = s.peerOut := rfl
@[simp] theorem State.setPart_owing (p : Nat) (x : Partition) : (s.setPart p x).owing = s.owing := rfl
@[simp] theorem State.setPart_peerReads (p : Nat) (x : Partition) : (s.setPart p x).peerReads = s.peerReads := rfl
@[simp] theorem State.setPart_posted (p : Nat) (x : Partition) : (s.setPart p x).posted = s.posted := rfl
@[simp] theorem State.setPart_served (p : Nat) (x : Partition) : (s.setPart p x).served = s.served := rfl
@[simp] theorem State.setPart_late (p : Nat) (x : Partition) : (s.setPart p x).late = s.late := rfl
@[simp] theorem State.setPart_launches (p : Nat) (x : Partition) : (s.setPart p x).launches = s.launches := rfl
@[simp] theorem State.setPart_nextLaunch (p : Nat) (x : Partition) : (s.setPart p x).nextLaunch = s.nextLaunch := rfl
@[simp] theorem State.setPart_regions (p : Nat) (x : Partition) : (s.setPart p x).regions = s.regions := rfl
@[simp] theorem State.setPart_pending (p : Nat) (x : Partition) : (s.setPart p x).pending = s.pending := rfl
@[simp] theorem State.setPart_homes (p : Nat) (x : Partition) : (s.setPart p x).homes = s.homes := rfl
@[simp] theorem State.setPart_nextId (p : Nat) (x : Partition) : (s.setPart p x).nextId = s.nextId := rfl
@[simp] theorem State.setPart_ranges (p : Nat) (x : Partition) : (s.setPart p x).ranges = s.ranges := rfl
@[simp] theorem State.setPart_images (p : Nat) (x : Partition) : (s.setPart p x).images = s.images := rfl
@[simp] theorem State.setPart_nextImage (p : Nat) (x : Partition) : (s.setPart p x).nextImage = s.nextImage := rfl
@[simp] theorem State.setPart_taskTrees (p : Nat) (x : Partition) : (s.setPart p x).taskTrees = s.taskTrees := rfl
@[simp] theorem State.setPart_streams (p : Nat) (x : Partition) : (s.setPart p x).streams = s.streams := rfl
@[simp] theorem State.setPart_byteAt (p : Nat) (x : Partition) (pa : Nat) : (s.setPart p x).byteAt pa = s.byteAt pa := rfl
@[simp] theorem State.setPart_queueOf (p : Nat) (x : Partition) (i j : Nat) : (s.setPart p x).queueOf i j = s.queueOf i j := rfl
@[simp] theorem State.setPart_quadOf (p : Nat) (x : Partition) (i : Nat) : (s.setPart p x).quadOf i = s.quadOf i := rfl

/-! ### setLq -/

@[simp] theorem State.setLq_agenda (p k : Nat) (x : LaunchQ) : (s.setLq p k x).agenda = s.agenda := rfl
@[simp] theorem State.setLq_stepNo (p k : Nat) (x : LaunchQ) : (s.setLq p k x).stepNo = s.stepNo := rfl
@[simp] theorem State.setLq_taken (p k : Nat) (x : LaunchQ) : (s.setLq p k x).taken = s.taken := rfl
@[simp] theorem State.setLq_focus (p k : Nat) (x : LaunchQ) : (s.setLq p k x).focus = s.focus := rfl
@[simp] theorem State.setLq_upset (p k : Nat) (x : LaunchQ) : (s.setLq p k x).upset = s.upset := rfl
@[simp] theorem State.setLq_out (p k : Nat) (x : LaunchQ) : (s.setLq p k x).out = s.out := rfl
@[simp] theorem State.setLq_powered (p k : Nat) (x : LaunchQ) : (s.setLq p k x).powered = s.powered := rfl
@[simp] theorem State.setLq_is930 (p k : Nat) (x : LaunchQ) : (s.setLq p k x).is930 = s.is930 := rfl
@[simp] theorem State.setLq_boot (p k : Nat) (x : LaunchQ) : (s.setLq p k x).boot = s.boot := rfl
@[simp] theorem State.setLq_cycle (p k : Nat) (x : LaunchQ) : (s.setLq p k x).cycle = s.cycle := rfl
@[simp] theorem State.setLq_dtime (p k : Nat) (x : LaunchQ) : (s.setLq p k x).dtime = s.dtime := rfl
@[simp] theorem State.setLq_prevDtime (p k : Nat) (x : LaunchQ) : (s.setLq p k x).prevDtime = s.prevDtime := rfl
@[simp] theorem State.setLq_absorb (p k : Nat) (x : LaunchQ) : (s.setLq p k x).absorb = s.absorb := rfl
@[simp] theorem State.setLq_halfTick (p k : Nat) (x : LaunchQ) : (s.setLq p k x).halfTick = s.halfTick := rfl
@[simp] theorem State.setLq_sysNode (p k : Nat) (x : LaunchQ) : (s.setLq p k x).sysNode = s.sysNode := rfl
@[simp] theorem State.setLq_mem (p k : Nat) (x : LaunchQ) : (s.setLq p k x).mem = s.mem := rfl
@[simp] theorem State.setLq_poison (p k : Nat) (x : LaunchQ) : (s.setLq p k x).poison = s.poison := rfl
@[simp] theorem State.setLq_own (p k : Nat) (x : LaunchQ) : (s.setLq p k x).own = s.own := rfl
@[simp] theorem State.setLq_banks (p k : Nat) (x : LaunchQ) : (s.setLq p k x).banks = s.banks := rfl
@[simp] theorem State.setLq_redir (p k : Nat) (x : LaunchQ) : (s.setLq p k x).redir = s.redir := rfl
@[simp] theorem State.setLq_quads (p k : Nat) (x : LaunchQ) : (s.setLq p k x).quads = s.quads := rfl
@[simp] theorem State.setLq_pquads (p k : Nat) (x : LaunchQ) : (s.setLq p k x).pquads = s.pquads := rfl
@[simp] theorem State.setLq_tlb2 (p k : Nat) (x : LaunchQ) : (s.setLq p k x).tlb2 = s.tlb2 := rfl
@[simp] theorem State.setLq_halls (p k : Nat) (x : LaunchQ) : (s.setLq p k x).halls = s.halls := rfl
@[simp] theorem State.setLq_remap (p k : Nat) (x : LaunchQ) : (s.setLq p k x).remap = s.remap := rfl
@[simp] theorem State.setLq_lqpart (p k : Nat) (x : LaunchQ) : (s.setLq p k x).lqpart = s.lqpart := rfl
@[simp] theorem State.setLq_ctxown (p k : Nat) (x : LaunchQ) : (s.setLq p k x).ctxown = s.ctxown := rfl
@[simp] theorem State.setLq_tables (p k : Nat) (x : LaunchQ) : (s.setLq p k x).tables = s.tables := rfl
@[simp] theorem State.setLq_ports (p k : Nat) (x : LaunchQ) : (s.setLq p k x).ports = s.ports := rfl
@[simp] theorem State.setLq_sources (p k : Nat) (x : LaunchQ) : (s.setLq p k x).sources = s.sources := rfl
@[simp] theorem State.setLq_nextSeq (p k : Nat) (x : LaunchQ) : (s.setLq p k x).nextSeq = s.nextSeq := rfl
@[simp] theorem State.setLq_peerOut (p k : Nat) (x : LaunchQ) : (s.setLq p k x).peerOut = s.peerOut := rfl
@[simp] theorem State.setLq_owing (p k : Nat) (x : LaunchQ) : (s.setLq p k x).owing = s.owing := rfl
@[simp] theorem State.setLq_peerReads (p k : Nat) (x : LaunchQ) : (s.setLq p k x).peerReads = s.peerReads := rfl
@[simp] theorem State.setLq_posted (p k : Nat) (x : LaunchQ) : (s.setLq p k x).posted = s.posted := rfl
@[simp] theorem State.setLq_served (p k : Nat) (x : LaunchQ) : (s.setLq p k x).served = s.served := rfl
@[simp] theorem State.setLq_late (p k : Nat) (x : LaunchQ) : (s.setLq p k x).late = s.late := rfl
@[simp] theorem State.setLq_launches (p k : Nat) (x : LaunchQ) : (s.setLq p k x).launches = s.launches := rfl
@[simp] theorem State.setLq_nextLaunch (p k : Nat) (x : LaunchQ) : (s.setLq p k x).nextLaunch = s.nextLaunch := rfl
@[simp] theorem State.setLq_regions (p k : Nat) (x : LaunchQ) : (s.setLq p k x).regions = s.regions := rfl
@[simp] theorem State.setLq_pending (p k : Nat) (x : LaunchQ) : (s.setLq p k x).pending = s.pending := rfl
@[simp] theorem State.setLq_homes (p k : Nat) (x : LaunchQ) : (s.setLq p k x).homes = s.homes := rfl
@[simp] theorem State.setLq_nextId (p k : Nat) (x : LaunchQ) : (s.setLq p k x).nextId = s.nextId := rfl
@[simp] theorem State.setLq_ranges (p k : Nat) (x : LaunchQ) : (s.setLq p k x).ranges = s.ranges := rfl
@[simp] theorem State.setLq_images (p k : Nat) (x : LaunchQ) : (s.setLq p k x).images = s.images := rfl
@[simp] theorem State.setLq_nextImage (p k : Nat) (x : LaunchQ) : (s.setLq p k x).nextImage = s.nextImage := rfl
@[simp] theorem State.setLq_taskTrees (p k : Nat) (x : LaunchQ) : (s.setLq p k x).taskTrees = s.taskTrees := rfl
@[simp] theorem State.setLq_streams (p k : Nat) (x : LaunchQ) : (s.setLq p k x).streams = s.streams := rfl
@[simp] theorem State.setLq_byteAt (p k : Nat) (x : LaunchQ) (pa : Nat) : (s.setLq p k x).byteAt pa = s.byteAt pa := rfl
@[simp] theorem State.setLq_queueOf (p k : Nat) (x : LaunchQ) (i j : Nat) : (s.setLq p k x).queueOf i j = s.queueOf i j := rfl
@[simp] theorem State.setLq_quadOf (p k : Nat) (x : LaunchQ) (i : Nat) : (s.setLq p k x).quadOf i = s.quadOf i := rfl

/-! ### setHall -/

@[simp] theorem State.setHall_agenda (h : Nat) (x : Hall) : (s.setHall h x).agenda = s.agenda := rfl
@[simp] theorem State.setHall_stepNo (h : Nat) (x : Hall) : (s.setHall h x).stepNo = s.stepNo := rfl
@[simp] theorem State.setHall_taken (h : Nat) (x : Hall) : (s.setHall h x).taken = s.taken := rfl
@[simp] theorem State.setHall_focus (h : Nat) (x : Hall) : (s.setHall h x).focus = s.focus := rfl
@[simp] theorem State.setHall_upset (h : Nat) (x : Hall) : (s.setHall h x).upset = s.upset := rfl
@[simp] theorem State.setHall_out (h : Nat) (x : Hall) : (s.setHall h x).out = s.out := rfl
@[simp] theorem State.setHall_powered (h : Nat) (x : Hall) : (s.setHall h x).powered = s.powered := rfl
@[simp] theorem State.setHall_is930 (h : Nat) (x : Hall) : (s.setHall h x).is930 = s.is930 := rfl
@[simp] theorem State.setHall_boot (h : Nat) (x : Hall) : (s.setHall h x).boot = s.boot := rfl
@[simp] theorem State.setHall_cycle (h : Nat) (x : Hall) : (s.setHall h x).cycle = s.cycle := rfl
@[simp] theorem State.setHall_dtime (h : Nat) (x : Hall) : (s.setHall h x).dtime = s.dtime := rfl
@[simp] theorem State.setHall_prevDtime (h : Nat) (x : Hall) : (s.setHall h x).prevDtime = s.prevDtime := rfl
@[simp] theorem State.setHall_absorb (h : Nat) (x : Hall) : (s.setHall h x).absorb = s.absorb := rfl
@[simp] theorem State.setHall_halfTick (h : Nat) (x : Hall) : (s.setHall h x).halfTick = s.halfTick := rfl
@[simp] theorem State.setHall_sysNode (h : Nat) (x : Hall) : (s.setHall h x).sysNode = s.sysNode := rfl
@[simp] theorem State.setHall_mem (h : Nat) (x : Hall) : (s.setHall h x).mem = s.mem := rfl
@[simp] theorem State.setHall_poison (h : Nat) (x : Hall) : (s.setHall h x).poison = s.poison := rfl
@[simp] theorem State.setHall_own (h : Nat) (x : Hall) : (s.setHall h x).own = s.own := rfl
@[simp] theorem State.setHall_banks (h : Nat) (x : Hall) : (s.setHall h x).banks = s.banks := rfl
@[simp] theorem State.setHall_redir (h : Nat) (x : Hall) : (s.setHall h x).redir = s.redir := rfl
@[simp] theorem State.setHall_quads (h : Nat) (x : Hall) : (s.setHall h x).quads = s.quads := rfl
@[simp] theorem State.setHall_pquads (h : Nat) (x : Hall) : (s.setHall h x).pquads = s.pquads := rfl
@[simp] theorem State.setHall_tlb2 (h : Nat) (x : Hall) : (s.setHall h x).tlb2 = s.tlb2 := rfl
@[simp] theorem State.setHall_parts (h : Nat) (x : Hall) : (s.setHall h x).parts = s.parts := rfl
@[simp] theorem State.setHall_remap (h : Nat) (x : Hall) : (s.setHall h x).remap = s.remap := rfl
@[simp] theorem State.setHall_lqpart (h : Nat) (x : Hall) : (s.setHall h x).lqpart = s.lqpart := rfl
@[simp] theorem State.setHall_ctxown (h : Nat) (x : Hall) : (s.setHall h x).ctxown = s.ctxown := rfl
@[simp] theorem State.setHall_tables (h : Nat) (x : Hall) : (s.setHall h x).tables = s.tables := rfl
@[simp] theorem State.setHall_ports (h : Nat) (x : Hall) : (s.setHall h x).ports = s.ports := rfl
@[simp] theorem State.setHall_sources (h : Nat) (x : Hall) : (s.setHall h x).sources = s.sources := rfl
@[simp] theorem State.setHall_nextSeq (h : Nat) (x : Hall) : (s.setHall h x).nextSeq = s.nextSeq := rfl
@[simp] theorem State.setHall_peerOut (h : Nat) (x : Hall) : (s.setHall h x).peerOut = s.peerOut := rfl
@[simp] theorem State.setHall_owing (h : Nat) (x : Hall) : (s.setHall h x).owing = s.owing := rfl
@[simp] theorem State.setHall_peerReads (h : Nat) (x : Hall) : (s.setHall h x).peerReads = s.peerReads := rfl
@[simp] theorem State.setHall_posted (h : Nat) (x : Hall) : (s.setHall h x).posted = s.posted := rfl
@[simp] theorem State.setHall_served (h : Nat) (x : Hall) : (s.setHall h x).served = s.served := rfl
@[simp] theorem State.setHall_late (h : Nat) (x : Hall) : (s.setHall h x).late = s.late := rfl
@[simp] theorem State.setHall_launches (h : Nat) (x : Hall) : (s.setHall h x).launches = s.launches := rfl
@[simp] theorem State.setHall_nextLaunch (h : Nat) (x : Hall) : (s.setHall h x).nextLaunch = s.nextLaunch := rfl
@[simp] theorem State.setHall_regions (h : Nat) (x : Hall) : (s.setHall h x).regions = s.regions := rfl
@[simp] theorem State.setHall_pending (h : Nat) (x : Hall) : (s.setHall h x).pending = s.pending := rfl
@[simp] theorem State.setHall_homes (h : Nat) (x : Hall) : (s.setHall h x).homes = s.homes := rfl
@[simp] theorem State.setHall_nextId (h : Nat) (x : Hall) : (s.setHall h x).nextId = s.nextId := rfl
@[simp] theorem State.setHall_ranges (h : Nat) (x : Hall) : (s.setHall h x).ranges = s.ranges := rfl
@[simp] theorem State.setHall_images (h : Nat) (x : Hall) : (s.setHall h x).images = s.images := rfl
@[simp] theorem State.setHall_nextImage (h : Nat) (x : Hall) : (s.setHall h x).nextImage = s.nextImage := rfl
@[simp] theorem State.setHall_taskTrees (h : Nat) (x : Hall) : (s.setHall h x).taskTrees = s.taskTrees := rfl
@[simp] theorem State.setHall_streams (h : Nat) (x : Hall) : (s.setHall h x).streams = s.streams := rfl
@[simp] theorem State.setHall_byteAt (h : Nat) (x : Hall) (pa : Nat) : (s.setHall h x).byteAt pa = s.byteAt pa := rfl
@[simp] theorem State.setHall_queueOf (h : Nat) (x : Hall) (i j : Nat) : (s.setHall h x).queueOf i j = s.queueOf i j := rfl
@[simp] theorem State.setHall_quadOf (h : Nat) (x : Hall) (i : Nat) : (s.setHall h x).quadOf i = s.quadOf i := rfl

/-! ### setTree -/

@[simp] theorem State.setTree_agenda (h t : Nat) (x : PseTree) : (s.setTree h t x).agenda = s.agenda := rfl
@[simp] theorem State.setTree_stepNo (h t : Nat) (x : PseTree) : (s.setTree h t x).stepNo = s.stepNo := rfl
@[simp] theorem State.setTree_taken (h t : Nat) (x : PseTree) : (s.setTree h t x).taken = s.taken := rfl
@[simp] theorem State.setTree_focus (h t : Nat) (x : PseTree) : (s.setTree h t x).focus = s.focus := rfl
@[simp] theorem State.setTree_upset (h t : Nat) (x : PseTree) : (s.setTree h t x).upset = s.upset := rfl
@[simp] theorem State.setTree_out (h t : Nat) (x : PseTree) : (s.setTree h t x).out = s.out := rfl
@[simp] theorem State.setTree_powered (h t : Nat) (x : PseTree) : (s.setTree h t x).powered = s.powered := rfl
@[simp] theorem State.setTree_is930 (h t : Nat) (x : PseTree) : (s.setTree h t x).is930 = s.is930 := rfl
@[simp] theorem State.setTree_boot (h t : Nat) (x : PseTree) : (s.setTree h t x).boot = s.boot := rfl
@[simp] theorem State.setTree_cycle (h t : Nat) (x : PseTree) : (s.setTree h t x).cycle = s.cycle := rfl
@[simp] theorem State.setTree_dtime (h t : Nat) (x : PseTree) : (s.setTree h t x).dtime = s.dtime := rfl
@[simp] theorem State.setTree_prevDtime (h t : Nat) (x : PseTree) : (s.setTree h t x).prevDtime = s.prevDtime := rfl
@[simp] theorem State.setTree_absorb (h t : Nat) (x : PseTree) : (s.setTree h t x).absorb = s.absorb := rfl
@[simp] theorem State.setTree_halfTick (h t : Nat) (x : PseTree) : (s.setTree h t x).halfTick = s.halfTick := rfl
@[simp] theorem State.setTree_sysNode (h t : Nat) (x : PseTree) : (s.setTree h t x).sysNode = s.sysNode := rfl
@[simp] theorem State.setTree_mem (h t : Nat) (x : PseTree) : (s.setTree h t x).mem = s.mem := rfl
@[simp] theorem State.setTree_poison (h t : Nat) (x : PseTree) : (s.setTree h t x).poison = s.poison := rfl
@[simp] theorem State.setTree_own (h t : Nat) (x : PseTree) : (s.setTree h t x).own = s.own := rfl
@[simp] theorem State.setTree_banks (h t : Nat) (x : PseTree) : (s.setTree h t x).banks = s.banks := rfl
@[simp] theorem State.setTree_redir (h t : Nat) (x : PseTree) : (s.setTree h t x).redir = s.redir := rfl
@[simp] theorem State.setTree_quads (h t : Nat) (x : PseTree) : (s.setTree h t x).quads = s.quads := rfl
@[simp] theorem State.setTree_pquads (h t : Nat) (x : PseTree) : (s.setTree h t x).pquads = s.pquads := rfl
@[simp] theorem State.setTree_tlb2 (h t : Nat) (x : PseTree) : (s.setTree h t x).tlb2 = s.tlb2 := rfl
@[simp] theorem State.setTree_parts (h t : Nat) (x : PseTree) : (s.setTree h t x).parts = s.parts := rfl
@[simp] theorem State.setTree_remap (h t : Nat) (x : PseTree) : (s.setTree h t x).remap = s.remap := rfl
@[simp] theorem State.setTree_lqpart (h t : Nat) (x : PseTree) : (s.setTree h t x).lqpart = s.lqpart := rfl
@[simp] theorem State.setTree_ctxown (h t : Nat) (x : PseTree) : (s.setTree h t x).ctxown = s.ctxown := rfl
@[simp] theorem State.setTree_tables (h t : Nat) (x : PseTree) : (s.setTree h t x).tables = s.tables := rfl
@[simp] theorem State.setTree_ports (h t : Nat) (x : PseTree) : (s.setTree h t x).ports = s.ports := rfl
@[simp] theorem State.setTree_sources (h t : Nat) (x : PseTree) : (s.setTree h t x).sources = s.sources := rfl
@[simp] theorem State.setTree_nextSeq (h t : Nat) (x : PseTree) : (s.setTree h t x).nextSeq = s.nextSeq := rfl
@[simp] theorem State.setTree_peerOut (h t : Nat) (x : PseTree) : (s.setTree h t x).peerOut = s.peerOut := rfl
@[simp] theorem State.setTree_owing (h t : Nat) (x : PseTree) : (s.setTree h t x).owing = s.owing := rfl
@[simp] theorem State.setTree_peerReads (h t : Nat) (x : PseTree) : (s.setTree h t x).peerReads = s.peerReads := rfl
@[simp] theorem State.setTree_posted (h t : Nat) (x : PseTree) : (s.setTree h t x).posted = s.posted := rfl
@[simp] theorem State.setTree_served (h t : Nat) (x : PseTree) : (s.setTree h t x).served = s.served := rfl
@[simp] theorem State.setTree_late (h t : Nat) (x : PseTree) : (s.setTree h t x).late = s.late := rfl
@[simp] theorem State.setTree_launches (h t : Nat) (x : PseTree) : (s.setTree h t x).launches = s.launches := rfl
@[simp] theorem State.setTree_nextLaunch (h t : Nat) (x : PseTree) : (s.setTree h t x).nextLaunch = s.nextLaunch := rfl
@[simp] theorem State.setTree_regions (h t : Nat) (x : PseTree) : (s.setTree h t x).regions = s.regions := rfl
@[simp] theorem State.setTree_pending (h t : Nat) (x : PseTree) : (s.setTree h t x).pending = s.pending := rfl
@[simp] theorem State.setTree_homes (h t : Nat) (x : PseTree) : (s.setTree h t x).homes = s.homes := rfl
@[simp] theorem State.setTree_nextId (h t : Nat) (x : PseTree) : (s.setTree h t x).nextId = s.nextId := rfl
@[simp] theorem State.setTree_ranges (h t : Nat) (x : PseTree) : (s.setTree h t x).ranges = s.ranges := rfl
@[simp] theorem State.setTree_images (h t : Nat) (x : PseTree) : (s.setTree h t x).images = s.images := rfl
@[simp] theorem State.setTree_nextImage (h t : Nat) (x : PseTree) : (s.setTree h t x).nextImage = s.nextImage := rfl
@[simp] theorem State.setTree_taskTrees (h t : Nat) (x : PseTree) : (s.setTree h t x).taskTrees = s.taskTrees := rfl
@[simp] theorem State.setTree_streams (h t : Nat) (x : PseTree) : (s.setTree h t x).streams = s.streams := rfl
@[simp] theorem State.setTree_byteAt (h t : Nat) (x : PseTree) (pa : Nat) : (s.setTree h t x).byteAt pa = s.byteAt pa := rfl
@[simp] theorem State.setTree_queueOf (h t : Nat) (x : PseTree) (i j : Nat) : (s.setTree h t x).queueOf i j = s.queueOf i j := rfl
@[simp] theorem State.setTree_quadOf (h t : Nat) (x : PseTree) (i : Nat) : (s.setTree h t x).quadOf i = s.quadOf i := rfl

/-! ### setSlot -/

@[simp] theorem State.setSlot_agenda (h g : Nat) (x : GmeSlot) : (s.setSlot h g x).agenda = s.agenda := rfl
@[simp] theorem State.setSlot_stepNo (h g : Nat) (x : GmeSlot) : (s.setSlot h g x).stepNo = s.stepNo := rfl
@[simp] theorem State.setSlot_taken (h g : Nat) (x : GmeSlot) : (s.setSlot h g x).taken = s.taken := rfl
@[simp] theorem State.setSlot_focus (h g : Nat) (x : GmeSlot) : (s.setSlot h g x).focus = s.focus := rfl
@[simp] theorem State.setSlot_upset (h g : Nat) (x : GmeSlot) : (s.setSlot h g x).upset = s.upset := rfl
@[simp] theorem State.setSlot_out (h g : Nat) (x : GmeSlot) : (s.setSlot h g x).out = s.out := rfl
@[simp] theorem State.setSlot_powered (h g : Nat) (x : GmeSlot) : (s.setSlot h g x).powered = s.powered := rfl
@[simp] theorem State.setSlot_is930 (h g : Nat) (x : GmeSlot) : (s.setSlot h g x).is930 = s.is930 := rfl
@[simp] theorem State.setSlot_boot (h g : Nat) (x : GmeSlot) : (s.setSlot h g x).boot = s.boot := rfl
@[simp] theorem State.setSlot_cycle (h g : Nat) (x : GmeSlot) : (s.setSlot h g x).cycle = s.cycle := rfl
@[simp] theorem State.setSlot_dtime (h g : Nat) (x : GmeSlot) : (s.setSlot h g x).dtime = s.dtime := rfl
@[simp] theorem State.setSlot_prevDtime (h g : Nat) (x : GmeSlot) : (s.setSlot h g x).prevDtime = s.prevDtime := rfl
@[simp] theorem State.setSlot_absorb (h g : Nat) (x : GmeSlot) : (s.setSlot h g x).absorb = s.absorb := rfl
@[simp] theorem State.setSlot_halfTick (h g : Nat) (x : GmeSlot) : (s.setSlot h g x).halfTick = s.halfTick := rfl
@[simp] theorem State.setSlot_sysNode (h g : Nat) (x : GmeSlot) : (s.setSlot h g x).sysNode = s.sysNode := rfl
@[simp] theorem State.setSlot_mem (h g : Nat) (x : GmeSlot) : (s.setSlot h g x).mem = s.mem := rfl
@[simp] theorem State.setSlot_poison (h g : Nat) (x : GmeSlot) : (s.setSlot h g x).poison = s.poison := rfl
@[simp] theorem State.setSlot_own (h g : Nat) (x : GmeSlot) : (s.setSlot h g x).own = s.own := rfl
@[simp] theorem State.setSlot_banks (h g : Nat) (x : GmeSlot) : (s.setSlot h g x).banks = s.banks := rfl
@[simp] theorem State.setSlot_redir (h g : Nat) (x : GmeSlot) : (s.setSlot h g x).redir = s.redir := rfl
@[simp] theorem State.setSlot_quads (h g : Nat) (x : GmeSlot) : (s.setSlot h g x).quads = s.quads := rfl
@[simp] theorem State.setSlot_pquads (h g : Nat) (x : GmeSlot) : (s.setSlot h g x).pquads = s.pquads := rfl
@[simp] theorem State.setSlot_tlb2 (h g : Nat) (x : GmeSlot) : (s.setSlot h g x).tlb2 = s.tlb2 := rfl
@[simp] theorem State.setSlot_parts (h g : Nat) (x : GmeSlot) : (s.setSlot h g x).parts = s.parts := rfl
@[simp] theorem State.setSlot_remap (h g : Nat) (x : GmeSlot) : (s.setSlot h g x).remap = s.remap := rfl
@[simp] theorem State.setSlot_lqpart (h g : Nat) (x : GmeSlot) : (s.setSlot h g x).lqpart = s.lqpart := rfl
@[simp] theorem State.setSlot_ctxown (h g : Nat) (x : GmeSlot) : (s.setSlot h g x).ctxown = s.ctxown := rfl
@[simp] theorem State.setSlot_tables (h g : Nat) (x : GmeSlot) : (s.setSlot h g x).tables = s.tables := rfl
@[simp] theorem State.setSlot_ports (h g : Nat) (x : GmeSlot) : (s.setSlot h g x).ports = s.ports := rfl
@[simp] theorem State.setSlot_sources (h g : Nat) (x : GmeSlot) : (s.setSlot h g x).sources = s.sources := rfl
@[simp] theorem State.setSlot_nextSeq (h g : Nat) (x : GmeSlot) : (s.setSlot h g x).nextSeq = s.nextSeq := rfl
@[simp] theorem State.setSlot_peerOut (h g : Nat) (x : GmeSlot) : (s.setSlot h g x).peerOut = s.peerOut := rfl
@[simp] theorem State.setSlot_owing (h g : Nat) (x : GmeSlot) : (s.setSlot h g x).owing = s.owing := rfl
@[simp] theorem State.setSlot_peerReads (h g : Nat) (x : GmeSlot) : (s.setSlot h g x).peerReads = s.peerReads := rfl
@[simp] theorem State.setSlot_posted (h g : Nat) (x : GmeSlot) : (s.setSlot h g x).posted = s.posted := rfl
@[simp] theorem State.setSlot_served (h g : Nat) (x : GmeSlot) : (s.setSlot h g x).served = s.served := rfl
@[simp] theorem State.setSlot_late (h g : Nat) (x : GmeSlot) : (s.setSlot h g x).late = s.late := rfl
@[simp] theorem State.setSlot_launches (h g : Nat) (x : GmeSlot) : (s.setSlot h g x).launches = s.launches := rfl
@[simp] theorem State.setSlot_nextLaunch (h g : Nat) (x : GmeSlot) : (s.setSlot h g x).nextLaunch = s.nextLaunch := rfl
@[simp] theorem State.setSlot_regions (h g : Nat) (x : GmeSlot) : (s.setSlot h g x).regions = s.regions := rfl
@[simp] theorem State.setSlot_pending (h g : Nat) (x : GmeSlot) : (s.setSlot h g x).pending = s.pending := rfl
@[simp] theorem State.setSlot_homes (h g : Nat) (x : GmeSlot) : (s.setSlot h g x).homes = s.homes := rfl
@[simp] theorem State.setSlot_nextId (h g : Nat) (x : GmeSlot) : (s.setSlot h g x).nextId = s.nextId := rfl
@[simp] theorem State.setSlot_ranges (h g : Nat) (x : GmeSlot) : (s.setSlot h g x).ranges = s.ranges := rfl
@[simp] theorem State.setSlot_images (h g : Nat) (x : GmeSlot) : (s.setSlot h g x).images = s.images := rfl
@[simp] theorem State.setSlot_nextImage (h g : Nat) (x : GmeSlot) : (s.setSlot h g x).nextImage = s.nextImage := rfl
@[simp] theorem State.setSlot_taskTrees (h g : Nat) (x : GmeSlot) : (s.setSlot h g x).taskTrees = s.taskTrees := rfl
@[simp] theorem State.setSlot_streams (h g : Nat) (x : GmeSlot) : (s.setSlot h g x).streams = s.streams := rfl
@[simp] theorem State.setSlot_byteAt (h g : Nat) (x : GmeSlot) (pa : Nat) : (s.setSlot h g x).byteAt pa = s.byteAt pa := rfl
@[simp] theorem State.setSlot_queueOf (h g : Nat) (x : GmeSlot) (i j : Nat) : (s.setSlot h g x).queueOf i j = s.queueOf i j := rfl
@[simp] theorem State.setSlot_quadOf (h g : Nat) (x : GmeSlot) (i : Nat) : (s.setSlot h g x).quadOf i = s.quadOf i := rfl

/-! ### setPort -/

@[simp] theorem State.setPort_agenda (k : Nat) (x : LinkPort) : (s.setPort k x).agenda = s.agenda := rfl
@[simp] theorem State.setPort_stepNo (k : Nat) (x : LinkPort) : (s.setPort k x).stepNo = s.stepNo := rfl
@[simp] theorem State.setPort_taken (k : Nat) (x : LinkPort) : (s.setPort k x).taken = s.taken := rfl
@[simp] theorem State.setPort_focus (k : Nat) (x : LinkPort) : (s.setPort k x).focus = s.focus := rfl
@[simp] theorem State.setPort_upset (k : Nat) (x : LinkPort) : (s.setPort k x).upset = s.upset := rfl
@[simp] theorem State.setPort_out (k : Nat) (x : LinkPort) : (s.setPort k x).out = s.out := rfl
@[simp] theorem State.setPort_powered (k : Nat) (x : LinkPort) : (s.setPort k x).powered = s.powered := rfl
@[simp] theorem State.setPort_is930 (k : Nat) (x : LinkPort) : (s.setPort k x).is930 = s.is930 := rfl
@[simp] theorem State.setPort_boot (k : Nat) (x : LinkPort) : (s.setPort k x).boot = s.boot := rfl
@[simp] theorem State.setPort_cycle (k : Nat) (x : LinkPort) : (s.setPort k x).cycle = s.cycle := rfl
@[simp] theorem State.setPort_dtime (k : Nat) (x : LinkPort) : (s.setPort k x).dtime = s.dtime := rfl
@[simp] theorem State.setPort_prevDtime (k : Nat) (x : LinkPort) : (s.setPort k x).prevDtime = s.prevDtime := rfl
@[simp] theorem State.setPort_absorb (k : Nat) (x : LinkPort) : (s.setPort k x).absorb = s.absorb := rfl
@[simp] theorem State.setPort_halfTick (k : Nat) (x : LinkPort) : (s.setPort k x).halfTick = s.halfTick := rfl
@[simp] theorem State.setPort_sysNode (k : Nat) (x : LinkPort) : (s.setPort k x).sysNode = s.sysNode := rfl
@[simp] theorem State.setPort_mem (k : Nat) (x : LinkPort) : (s.setPort k x).mem = s.mem := rfl
@[simp] theorem State.setPort_poison (k : Nat) (x : LinkPort) : (s.setPort k x).poison = s.poison := rfl
@[simp] theorem State.setPort_own (k : Nat) (x : LinkPort) : (s.setPort k x).own = s.own := rfl
@[simp] theorem State.setPort_banks (k : Nat) (x : LinkPort) : (s.setPort k x).banks = s.banks := rfl
@[simp] theorem State.setPort_redir (k : Nat) (x : LinkPort) : (s.setPort k x).redir = s.redir := rfl
@[simp] theorem State.setPort_quads (k : Nat) (x : LinkPort) : (s.setPort k x).quads = s.quads := rfl
@[simp] theorem State.setPort_pquads (k : Nat) (x : LinkPort) : (s.setPort k x).pquads = s.pquads := rfl
@[simp] theorem State.setPort_tlb2 (k : Nat) (x : LinkPort) : (s.setPort k x).tlb2 = s.tlb2 := rfl
@[simp] theorem State.setPort_halls (k : Nat) (x : LinkPort) : (s.setPort k x).halls = s.halls := rfl
@[simp] theorem State.setPort_parts (k : Nat) (x : LinkPort) : (s.setPort k x).parts = s.parts := rfl
@[simp] theorem State.setPort_remap (k : Nat) (x : LinkPort) : (s.setPort k x).remap = s.remap := rfl
@[simp] theorem State.setPort_lqpart (k : Nat) (x : LinkPort) : (s.setPort k x).lqpart = s.lqpart := rfl
@[simp] theorem State.setPort_ctxown (k : Nat) (x : LinkPort) : (s.setPort k x).ctxown = s.ctxown := rfl
@[simp] theorem State.setPort_tables (k : Nat) (x : LinkPort) : (s.setPort k x).tables = s.tables := rfl
@[simp] theorem State.setPort_sources (k : Nat) (x : LinkPort) : (s.setPort k x).sources = s.sources := rfl
@[simp] theorem State.setPort_nextSeq (k : Nat) (x : LinkPort) : (s.setPort k x).nextSeq = s.nextSeq := rfl
@[simp] theorem State.setPort_peerOut (k : Nat) (x : LinkPort) : (s.setPort k x).peerOut = s.peerOut := rfl
@[simp] theorem State.setPort_owing (k : Nat) (x : LinkPort) : (s.setPort k x).owing = s.owing := rfl
@[simp] theorem State.setPort_peerReads (k : Nat) (x : LinkPort) : (s.setPort k x).peerReads = s.peerReads := rfl
@[simp] theorem State.setPort_posted (k : Nat) (x : LinkPort) : (s.setPort k x).posted = s.posted := rfl
@[simp] theorem State.setPort_served (k : Nat) (x : LinkPort) : (s.setPort k x).served = s.served := rfl
@[simp] theorem State.setPort_late (k : Nat) (x : LinkPort) : (s.setPort k x).late = s.late := rfl
@[simp] theorem State.setPort_launches (k : Nat) (x : LinkPort) : (s.setPort k x).launches = s.launches := rfl
@[simp] theorem State.setPort_nextLaunch (k : Nat) (x : LinkPort) : (s.setPort k x).nextLaunch = s.nextLaunch := rfl
@[simp] theorem State.setPort_regions (k : Nat) (x : LinkPort) : (s.setPort k x).regions = s.regions := rfl
@[simp] theorem State.setPort_pending (k : Nat) (x : LinkPort) : (s.setPort k x).pending = s.pending := rfl
@[simp] theorem State.setPort_homes (k : Nat) (x : LinkPort) : (s.setPort k x).homes = s.homes := rfl
@[simp] theorem State.setPort_nextId (k : Nat) (x : LinkPort) : (s.setPort k x).nextId = s.nextId := rfl
@[simp] theorem State.setPort_ranges (k : Nat) (x : LinkPort) : (s.setPort k x).ranges = s.ranges := rfl
@[simp] theorem State.setPort_images (k : Nat) (x : LinkPort) : (s.setPort k x).images = s.images := rfl
@[simp] theorem State.setPort_nextImage (k : Nat) (x : LinkPort) : (s.setPort k x).nextImage = s.nextImage := rfl
@[simp] theorem State.setPort_taskTrees (k : Nat) (x : LinkPort) : (s.setPort k x).taskTrees = s.taskTrees := rfl
@[simp] theorem State.setPort_streams (k : Nat) (x : LinkPort) : (s.setPort k x).streams = s.streams := rfl
@[simp] theorem State.setPort_byteAt (k : Nat) (x : LinkPort) (pa : Nat) : (s.setPort k x).byteAt pa = s.byteAt pa := rfl
@[simp] theorem State.setPort_queueOf (k : Nat) (x : LinkPort) (i j : Nat) : (s.setPort k x).queueOf i j = s.queueOf i j := rfl
@[simp] theorem State.setPort_quadOf (k : Nat) (x : LinkPort) (i : Nat) : (s.setPort k x).quadOf i = s.quadOf i := rfl

/-! ### setRegion -/

@[simp] theorem State.setRegion_agenda (r : Nat) (x : Region) : (s.setRegion r x).agenda = s.agenda := rfl
@[simp] theorem State.setRegion_stepNo (r : Nat) (x : Region) : (s.setRegion r x).stepNo = s.stepNo := rfl
@[simp] theorem State.setRegion_taken (r : Nat) (x : Region) : (s.setRegion r x).taken = s.taken := rfl
@[simp] theorem State.setRegion_focus (r : Nat) (x : Region) : (s.setRegion r x).focus = s.focus := rfl
@[simp] theorem State.setRegion_upset (r : Nat) (x : Region) : (s.setRegion r x).upset = s.upset := rfl
@[simp] theorem State.setRegion_out (r : Nat) (x : Region) : (s.setRegion r x).out = s.out := rfl
@[simp] theorem State.setRegion_powered (r : Nat) (x : Region) : (s.setRegion r x).powered = s.powered := rfl
@[simp] theorem State.setRegion_is930 (r : Nat) (x : Region) : (s.setRegion r x).is930 = s.is930 := rfl
@[simp] theorem State.setRegion_boot (r : Nat) (x : Region) : (s.setRegion r x).boot = s.boot := rfl
@[simp] theorem State.setRegion_cycle (r : Nat) (x : Region) : (s.setRegion r x).cycle = s.cycle := rfl
@[simp] theorem State.setRegion_dtime (r : Nat) (x : Region) : (s.setRegion r x).dtime = s.dtime := rfl
@[simp] theorem State.setRegion_prevDtime (r : Nat) (x : Region) : (s.setRegion r x).prevDtime = s.prevDtime := rfl
@[simp] theorem State.setRegion_absorb (r : Nat) (x : Region) : (s.setRegion r x).absorb = s.absorb := rfl
@[simp] theorem State.setRegion_halfTick (r : Nat) (x : Region) : (s.setRegion r x).halfTick = s.halfTick := rfl
@[simp] theorem State.setRegion_sysNode (r : Nat) (x : Region) : (s.setRegion r x).sysNode = s.sysNode := rfl
@[simp] theorem State.setRegion_mem (r : Nat) (x : Region) : (s.setRegion r x).mem = s.mem := rfl
@[simp] theorem State.setRegion_poison (r : Nat) (x : Region) : (s.setRegion r x).poison = s.poison := rfl
@[simp] theorem State.setRegion_own (r : Nat) (x : Region) : (s.setRegion r x).own = s.own := rfl
@[simp] theorem State.setRegion_banks (r : Nat) (x : Region) : (s.setRegion r x).banks = s.banks := rfl
@[simp] theorem State.setRegion_redir (r : Nat) (x : Region) : (s.setRegion r x).redir = s.redir := rfl
@[simp] theorem State.setRegion_quads (r : Nat) (x : Region) : (s.setRegion r x).quads = s.quads := rfl
@[simp] theorem State.setRegion_pquads (r : Nat) (x : Region) : (s.setRegion r x).pquads = s.pquads := rfl
@[simp] theorem State.setRegion_tlb2 (r : Nat) (x : Region) : (s.setRegion r x).tlb2 = s.tlb2 := rfl
@[simp] theorem State.setRegion_halls (r : Nat) (x : Region) : (s.setRegion r x).halls = s.halls := rfl
@[simp] theorem State.setRegion_parts (r : Nat) (x : Region) : (s.setRegion r x).parts = s.parts := rfl
@[simp] theorem State.setRegion_remap (r : Nat) (x : Region) : (s.setRegion r x).remap = s.remap := rfl
@[simp] theorem State.setRegion_lqpart (r : Nat) (x : Region) : (s.setRegion r x).lqpart = s.lqpart := rfl
@[simp] theorem State.setRegion_ctxown (r : Nat) (x : Region) : (s.setRegion r x).ctxown = s.ctxown := rfl
@[simp] theorem State.setRegion_tables (r : Nat) (x : Region) : (s.setRegion r x).tables = s.tables := rfl
@[simp] theorem State.setRegion_ports (r : Nat) (x : Region) : (s.setRegion r x).ports = s.ports := rfl
@[simp] theorem State.setRegion_sources (r : Nat) (x : Region) : (s.setRegion r x).sources = s.sources := rfl
@[simp] theorem State.setRegion_nextSeq (r : Nat) (x : Region) : (s.setRegion r x).nextSeq = s.nextSeq := rfl
@[simp] theorem State.setRegion_peerOut (r : Nat) (x : Region) : (s.setRegion r x).peerOut = s.peerOut := rfl
@[simp] theorem State.setRegion_owing (r : Nat) (x : Region) : (s.setRegion r x).owing = s.owing := rfl
@[simp] theorem State.setRegion_peerReads (r : Nat) (x : Region) : (s.setRegion r x).peerReads = s.peerReads := rfl
@[simp] theorem State.setRegion_posted (r : Nat) (x : Region) : (s.setRegion r x).posted = s.posted := rfl
@[simp] theorem State.setRegion_served (r : Nat) (x : Region) : (s.setRegion r x).served = s.served := rfl
@[simp] theorem State.setRegion_late (r : Nat) (x : Region) : (s.setRegion r x).late = s.late := rfl
@[simp] theorem State.setRegion_launches (r : Nat) (x : Region) : (s.setRegion r x).launches = s.launches := rfl
@[simp] theorem State.setRegion_nextLaunch (r : Nat) (x : Region) : (s.setRegion r x).nextLaunch = s.nextLaunch := rfl
@[simp] theorem State.setRegion_pending (r : Nat) (x : Region) : (s.setRegion r x).pending = s.pending := rfl
@[simp] theorem State.setRegion_homes (r : Nat) (x : Region) : (s.setRegion r x).homes = s.homes := rfl
@[simp] theorem State.setRegion_nextId (r : Nat) (x : Region) : (s.setRegion r x).nextId = s.nextId := rfl
@[simp] theorem State.setRegion_ranges (r : Nat) (x : Region) : (s.setRegion r x).ranges = s.ranges := rfl
@[simp] theorem State.setRegion_images (r : Nat) (x : Region) : (s.setRegion r x).images = s.images := rfl
@[simp] theorem State.setRegion_nextImage (r : Nat) (x : Region) : (s.setRegion r x).nextImage = s.nextImage := rfl
@[simp] theorem State.setRegion_taskTrees (r : Nat) (x : Region) : (s.setRegion r x).taskTrees = s.taskTrees := rfl
@[simp] theorem State.setRegion_streams (r : Nat) (x : Region) : (s.setRegion r x).streams = s.streams := rfl
@[simp] theorem State.setRegion_byteAt (r : Nat) (x : Region) (pa : Nat) : (s.setRegion r x).byteAt pa = s.byteAt pa := rfl
@[simp] theorem State.setRegion_queueOf (r : Nat) (x : Region) (i j : Nat) : (s.setRegion r x).queueOf i j = s.queueOf i j := rfl
@[simp] theorem State.setRegion_quadOf (r : Nat) (x : Region) (i : Nat) : (s.setRegion r x).quadOf i = s.quadOf i := rfl

/-! ### setLaunch -/

@[simp] theorem State.setLaunch_agenda (l : Nat) (x : Launch) : (s.setLaunch l x).agenda = s.agenda := rfl
@[simp] theorem State.setLaunch_stepNo (l : Nat) (x : Launch) : (s.setLaunch l x).stepNo = s.stepNo := rfl
@[simp] theorem State.setLaunch_taken (l : Nat) (x : Launch) : (s.setLaunch l x).taken = s.taken := rfl
@[simp] theorem State.setLaunch_focus (l : Nat) (x : Launch) : (s.setLaunch l x).focus = s.focus := rfl
@[simp] theorem State.setLaunch_upset (l : Nat) (x : Launch) : (s.setLaunch l x).upset = s.upset := rfl
@[simp] theorem State.setLaunch_out (l : Nat) (x : Launch) : (s.setLaunch l x).out = s.out := rfl
@[simp] theorem State.setLaunch_powered (l : Nat) (x : Launch) : (s.setLaunch l x).powered = s.powered := rfl
@[simp] theorem State.setLaunch_is930 (l : Nat) (x : Launch) : (s.setLaunch l x).is930 = s.is930 := rfl
@[simp] theorem State.setLaunch_boot (l : Nat) (x : Launch) : (s.setLaunch l x).boot = s.boot := rfl
@[simp] theorem State.setLaunch_cycle (l : Nat) (x : Launch) : (s.setLaunch l x).cycle = s.cycle := rfl
@[simp] theorem State.setLaunch_dtime (l : Nat) (x : Launch) : (s.setLaunch l x).dtime = s.dtime := rfl
@[simp] theorem State.setLaunch_prevDtime (l : Nat) (x : Launch) : (s.setLaunch l x).prevDtime = s.prevDtime := rfl
@[simp] theorem State.setLaunch_absorb (l : Nat) (x : Launch) : (s.setLaunch l x).absorb = s.absorb := rfl
@[simp] theorem State.setLaunch_halfTick (l : Nat) (x : Launch) : (s.setLaunch l x).halfTick = s.halfTick := rfl
@[simp] theorem State.setLaunch_sysNode (l : Nat) (x : Launch) : (s.setLaunch l x).sysNode = s.sysNode := rfl
@[simp] theorem State.setLaunch_mem (l : Nat) (x : Launch) : (s.setLaunch l x).mem = s.mem := rfl
@[simp] theorem State.setLaunch_poison (l : Nat) (x : Launch) : (s.setLaunch l x).poison = s.poison := rfl
@[simp] theorem State.setLaunch_own (l : Nat) (x : Launch) : (s.setLaunch l x).own = s.own := rfl
@[simp] theorem State.setLaunch_banks (l : Nat) (x : Launch) : (s.setLaunch l x).banks = s.banks := rfl
@[simp] theorem State.setLaunch_redir (l : Nat) (x : Launch) : (s.setLaunch l x).redir = s.redir := rfl
@[simp] theorem State.setLaunch_quads (l : Nat) (x : Launch) : (s.setLaunch l x).quads = s.quads := rfl
@[simp] theorem State.setLaunch_pquads (l : Nat) (x : Launch) : (s.setLaunch l x).pquads = s.pquads := rfl
@[simp] theorem State.setLaunch_tlb2 (l : Nat) (x : Launch) : (s.setLaunch l x).tlb2 = s.tlb2 := rfl
@[simp] theorem State.setLaunch_halls (l : Nat) (x : Launch) : (s.setLaunch l x).halls = s.halls := rfl
@[simp] theorem State.setLaunch_parts (l : Nat) (x : Launch) : (s.setLaunch l x).parts = s.parts := rfl
@[simp] theorem State.setLaunch_remap (l : Nat) (x : Launch) : (s.setLaunch l x).remap = s.remap := rfl
@[simp] theorem State.setLaunch_lqpart (l : Nat) (x : Launch) : (s.setLaunch l x).lqpart = s.lqpart := rfl
@[simp] theorem State.setLaunch_ctxown (l : Nat) (x : Launch) : (s.setLaunch l x).ctxown = s.ctxown := rfl
@[simp] theorem State.setLaunch_tables (l : Nat) (x : Launch) : (s.setLaunch l x).tables = s.tables := rfl
@[simp] theorem State.setLaunch_ports (l : Nat) (x : Launch) : (s.setLaunch l x).ports = s.ports := rfl
@[simp] theorem State.setLaunch_sources (l : Nat) (x : Launch) : (s.setLaunch l x).sources = s.sources := rfl
@[simp] theorem State.setLaunch_nextSeq (l : Nat) (x : Launch) : (s.setLaunch l x).nextSeq = s.nextSeq := rfl
@[simp] theorem State.setLaunch_peerOut (l : Nat) (x : Launch) : (s.setLaunch l x).peerOut = s.peerOut := rfl
@[simp] theorem State.setLaunch_owing (l : Nat) (x : Launch) : (s.setLaunch l x).owing = s.owing := rfl
@[simp] theorem State.setLaunch_peerReads (l : Nat) (x : Launch) : (s.setLaunch l x).peerReads = s.peerReads := rfl
@[simp] theorem State.setLaunch_posted (l : Nat) (x : Launch) : (s.setLaunch l x).posted = s.posted := rfl
@[simp] theorem State.setLaunch_served (l : Nat) (x : Launch) : (s.setLaunch l x).served = s.served := rfl
@[simp] theorem State.setLaunch_late (l : Nat) (x : Launch) : (s.setLaunch l x).late = s.late := rfl
@[simp] theorem State.setLaunch_nextLaunch (l : Nat) (x : Launch) : (s.setLaunch l x).nextLaunch = s.nextLaunch := rfl
@[simp] theorem State.setLaunch_regions (l : Nat) (x : Launch) : (s.setLaunch l x).regions = s.regions := rfl
@[simp] theorem State.setLaunch_pending (l : Nat) (x : Launch) : (s.setLaunch l x).pending = s.pending := rfl
@[simp] theorem State.setLaunch_homes (l : Nat) (x : Launch) : (s.setLaunch l x).homes = s.homes := rfl
@[simp] theorem State.setLaunch_nextId (l : Nat) (x : Launch) : (s.setLaunch l x).nextId = s.nextId := rfl
@[simp] theorem State.setLaunch_ranges (l : Nat) (x : Launch) : (s.setLaunch l x).ranges = s.ranges := rfl
@[simp] theorem State.setLaunch_images (l : Nat) (x : Launch) : (s.setLaunch l x).images = s.images := rfl
@[simp] theorem State.setLaunch_nextImage (l : Nat) (x : Launch) : (s.setLaunch l x).nextImage = s.nextImage := rfl
@[simp] theorem State.setLaunch_taskTrees (l : Nat) (x : Launch) : (s.setLaunch l x).taskTrees = s.taskTrees := rfl
@[simp] theorem State.setLaunch_streams (l : Nat) (x : Launch) : (s.setLaunch l x).streams = s.streams := rfl
@[simp] theorem State.setLaunch_byteAt (l : Nat) (x : Launch) (pa : Nat) : (s.setLaunch l x).byteAt pa = s.byteAt pa := rfl
@[simp] theorem State.setLaunch_queueOf (l : Nat) (x : Launch) (i j : Nat) : (s.setLaunch l x).queueOf i j = s.queueOf i j := rfl
@[simp] theorem State.setLaunch_quadOf (l : Nat) (x : Launch) (i : Nat) : (s.setLaunch l x).quadOf i = s.quadOf i := rfl

/-! ### setStream -/

@[simp] theorem State.setStream_agenda (n : Nat) (x : Stream) : (s.setStream n x).agenda = s.agenda := rfl
@[simp] theorem State.setStream_stepNo (n : Nat) (x : Stream) : (s.setStream n x).stepNo = s.stepNo := rfl
@[simp] theorem State.setStream_taken (n : Nat) (x : Stream) : (s.setStream n x).taken = s.taken := rfl
@[simp] theorem State.setStream_focus (n : Nat) (x : Stream) : (s.setStream n x).focus = s.focus := rfl
@[simp] theorem State.setStream_upset (n : Nat) (x : Stream) : (s.setStream n x).upset = s.upset := rfl
@[simp] theorem State.setStream_out (n : Nat) (x : Stream) : (s.setStream n x).out = s.out := rfl
@[simp] theorem State.setStream_powered (n : Nat) (x : Stream) : (s.setStream n x).powered = s.powered := rfl
@[simp] theorem State.setStream_is930 (n : Nat) (x : Stream) : (s.setStream n x).is930 = s.is930 := rfl
@[simp] theorem State.setStream_boot (n : Nat) (x : Stream) : (s.setStream n x).boot = s.boot := rfl
@[simp] theorem State.setStream_cycle (n : Nat) (x : Stream) : (s.setStream n x).cycle = s.cycle := rfl
@[simp] theorem State.setStream_dtime (n : Nat) (x : Stream) : (s.setStream n x).dtime = s.dtime := rfl
@[simp] theorem State.setStream_prevDtime (n : Nat) (x : Stream) : (s.setStream n x).prevDtime = s.prevDtime := rfl
@[simp] theorem State.setStream_absorb (n : Nat) (x : Stream) : (s.setStream n x).absorb = s.absorb := rfl
@[simp] theorem State.setStream_halfTick (n : Nat) (x : Stream) : (s.setStream n x).halfTick = s.halfTick := rfl
@[simp] theorem State.setStream_sysNode (n : Nat) (x : Stream) : (s.setStream n x).sysNode = s.sysNode := rfl
@[simp] theorem State.setStream_mem (n : Nat) (x : Stream) : (s.setStream n x).mem = s.mem := rfl
@[simp] theorem State.setStream_poison (n : Nat) (x : Stream) : (s.setStream n x).poison = s.poison := rfl
@[simp] theorem State.setStream_own (n : Nat) (x : Stream) : (s.setStream n x).own = s.own := rfl
@[simp] theorem State.setStream_banks (n : Nat) (x : Stream) : (s.setStream n x).banks = s.banks := rfl
@[simp] theorem State.setStream_redir (n : Nat) (x : Stream) : (s.setStream n x).redir = s.redir := rfl
@[simp] theorem State.setStream_quads (n : Nat) (x : Stream) : (s.setStream n x).quads = s.quads := rfl
@[simp] theorem State.setStream_pquads (n : Nat) (x : Stream) : (s.setStream n x).pquads = s.pquads := rfl
@[simp] theorem State.setStream_tlb2 (n : Nat) (x : Stream) : (s.setStream n x).tlb2 = s.tlb2 := rfl
@[simp] theorem State.setStream_halls (n : Nat) (x : Stream) : (s.setStream n x).halls = s.halls := rfl
@[simp] theorem State.setStream_parts (n : Nat) (x : Stream) : (s.setStream n x).parts = s.parts := rfl
@[simp] theorem State.setStream_remap (n : Nat) (x : Stream) : (s.setStream n x).remap = s.remap := rfl
@[simp] theorem State.setStream_lqpart (n : Nat) (x : Stream) : (s.setStream n x).lqpart = s.lqpart := rfl
@[simp] theorem State.setStream_ctxown (n : Nat) (x : Stream) : (s.setStream n x).ctxown = s.ctxown := rfl
@[simp] theorem State.setStream_tables (n : Nat) (x : Stream) : (s.setStream n x).tables = s.tables := rfl
@[simp] theorem State.setStream_ports (n : Nat) (x : Stream) : (s.setStream n x).ports = s.ports := rfl
@[simp] theorem State.setStream_sources (n : Nat) (x : Stream) : (s.setStream n x).sources = s.sources := rfl
@[simp] theorem State.setStream_nextSeq (n : Nat) (x : Stream) : (s.setStream n x).nextSeq = s.nextSeq := rfl
@[simp] theorem State.setStream_peerOut (n : Nat) (x : Stream) : (s.setStream n x).peerOut = s.peerOut := rfl
@[simp] theorem State.setStream_owing (n : Nat) (x : Stream) : (s.setStream n x).owing = s.owing := rfl
@[simp] theorem State.setStream_peerReads (n : Nat) (x : Stream) : (s.setStream n x).peerReads = s.peerReads := rfl
@[simp] theorem State.setStream_posted (n : Nat) (x : Stream) : (s.setStream n x).posted = s.posted := rfl
@[simp] theorem State.setStream_served (n : Nat) (x : Stream) : (s.setStream n x).served = s.served := rfl
@[simp] theorem State.setStream_late (n : Nat) (x : Stream) : (s.setStream n x).late = s.late := rfl
@[simp] theorem State.setStream_launches (n : Nat) (x : Stream) : (s.setStream n x).launches = s.launches := rfl
@[simp] theorem State.setStream_nextLaunch (n : Nat) (x : Stream) : (s.setStream n x).nextLaunch = s.nextLaunch := rfl
@[simp] theorem State.setStream_regions (n : Nat) (x : Stream) : (s.setStream n x).regions = s.regions := rfl
@[simp] theorem State.setStream_pending (n : Nat) (x : Stream) : (s.setStream n x).pending = s.pending := rfl
@[simp] theorem State.setStream_homes (n : Nat) (x : Stream) : (s.setStream n x).homes = s.homes := rfl
@[simp] theorem State.setStream_nextId (n : Nat) (x : Stream) : (s.setStream n x).nextId = s.nextId := rfl
@[simp] theorem State.setStream_ranges (n : Nat) (x : Stream) : (s.setStream n x).ranges = s.ranges := rfl
@[simp] theorem State.setStream_images (n : Nat) (x : Stream) : (s.setStream n x).images = s.images := rfl
@[simp] theorem State.setStream_nextImage (n : Nat) (x : Stream) : (s.setStream n x).nextImage = s.nextImage := rfl
@[simp] theorem State.setStream_taskTrees (n : Nat) (x : Stream) : (s.setStream n x).taskTrees = s.taskTrees := rfl
@[simp] theorem State.setStream_byteAt (n : Nat) (x : Stream) (pa : Nat) : (s.setStream n x).byteAt pa = s.byteAt pa := rfl
@[simp] theorem State.setStream_queueOf (n : Nat) (x : Stream) (i j : Nat) : (s.setStream n x).queueOf i j = s.queueOf i j := rfl
@[simp] theorem State.setStream_quadOf (n : Nat) (x : Stream) (i : Nat) : (s.setStream n x).quadOf i = s.quadOf i := rfl

/-! ### setMx -/

@[simp] theorem State.setMx_agenda (lq m : Nat) (x : Mxt) : (s.setMx lq m x).agenda = s.agenda := rfl
@[simp] theorem State.setMx_stepNo (lq m : Nat) (x : Mxt) : (s.setMx lq m x).stepNo = s.stepNo := rfl
@[simp] theorem State.setMx_taken (lq m : Nat) (x : Mxt) : (s.setMx lq m x).taken = s.taken := rfl
@[simp] theorem State.setMx_focus (lq m : Nat) (x : Mxt) : (s.setMx lq m x).focus = s.focus := rfl
@[simp] theorem State.setMx_upset (lq m : Nat) (x : Mxt) : (s.setMx lq m x).upset = s.upset := rfl
@[simp] theorem State.setMx_out (lq m : Nat) (x : Mxt) : (s.setMx lq m x).out = s.out := rfl
@[simp] theorem State.setMx_powered (lq m : Nat) (x : Mxt) : (s.setMx lq m x).powered = s.powered := rfl
@[simp] theorem State.setMx_is930 (lq m : Nat) (x : Mxt) : (s.setMx lq m x).is930 = s.is930 := rfl
@[simp] theorem State.setMx_boot (lq m : Nat) (x : Mxt) : (s.setMx lq m x).boot = s.boot := rfl
@[simp] theorem State.setMx_cycle (lq m : Nat) (x : Mxt) : (s.setMx lq m x).cycle = s.cycle := rfl
@[simp] theorem State.setMx_dtime (lq m : Nat) (x : Mxt) : (s.setMx lq m x).dtime = s.dtime := rfl
@[simp] theorem State.setMx_prevDtime (lq m : Nat) (x : Mxt) : (s.setMx lq m x).prevDtime = s.prevDtime := rfl
@[simp] theorem State.setMx_absorb (lq m : Nat) (x : Mxt) : (s.setMx lq m x).absorb = s.absorb := rfl
@[simp] theorem State.setMx_halfTick (lq m : Nat) (x : Mxt) : (s.setMx lq m x).halfTick = s.halfTick := rfl
@[simp] theorem State.setMx_sysNode (lq m : Nat) (x : Mxt) : (s.setMx lq m x).sysNode = s.sysNode := rfl
@[simp] theorem State.setMx_mem (lq m : Nat) (x : Mxt) : (s.setMx lq m x).mem = s.mem := rfl
@[simp] theorem State.setMx_poison (lq m : Nat) (x : Mxt) : (s.setMx lq m x).poison = s.poison := rfl
@[simp] theorem State.setMx_own (lq m : Nat) (x : Mxt) : (s.setMx lq m x).own = s.own := rfl
@[simp] theorem State.setMx_banks (lq m : Nat) (x : Mxt) : (s.setMx lq m x).banks = s.banks := rfl
@[simp] theorem State.setMx_redir (lq m : Nat) (x : Mxt) : (s.setMx lq m x).redir = s.redir := rfl
@[simp] theorem State.setMx_pquads (lq m : Nat) (x : Mxt) : (s.setMx lq m x).pquads = s.pquads := rfl
@[simp] theorem State.setMx_tlb2 (lq m : Nat) (x : Mxt) : (s.setMx lq m x).tlb2 = s.tlb2 := rfl
@[simp] theorem State.setMx_halls (lq m : Nat) (x : Mxt) : (s.setMx lq m x).halls = s.halls := rfl
@[simp] theorem State.setMx_parts (lq m : Nat) (x : Mxt) : (s.setMx lq m x).parts = s.parts := rfl
@[simp] theorem State.setMx_remap (lq m : Nat) (x : Mxt) : (s.setMx lq m x).remap = s.remap := rfl
@[simp] theorem State.setMx_lqpart (lq m : Nat) (x : Mxt) : (s.setMx lq m x).lqpart = s.lqpart := rfl
@[simp] theorem State.setMx_ctxown (lq m : Nat) (x : Mxt) : (s.setMx lq m x).ctxown = s.ctxown := rfl
@[simp] theorem State.setMx_tables (lq m : Nat) (x : Mxt) : (s.setMx lq m x).tables = s.tables := rfl
@[simp] theorem State.setMx_ports (lq m : Nat) (x : Mxt) : (s.setMx lq m x).ports = s.ports := rfl
@[simp] theorem State.setMx_sources (lq m : Nat) (x : Mxt) : (s.setMx lq m x).sources = s.sources := rfl
@[simp] theorem State.setMx_nextSeq (lq m : Nat) (x : Mxt) : (s.setMx lq m x).nextSeq = s.nextSeq := rfl
@[simp] theorem State.setMx_peerOut (lq m : Nat) (x : Mxt) : (s.setMx lq m x).peerOut = s.peerOut := rfl
@[simp] theorem State.setMx_owing (lq m : Nat) (x : Mxt) : (s.setMx lq m x).owing = s.owing := rfl
@[simp] theorem State.setMx_peerReads (lq m : Nat) (x : Mxt) : (s.setMx lq m x).peerReads = s.peerReads := rfl
@[simp] theorem State.setMx_posted (lq m : Nat) (x : Mxt) : (s.setMx lq m x).posted = s.posted := rfl
@[simp] theorem State.setMx_served (lq m : Nat) (x : Mxt) : (s.setMx lq m x).served = s.served := rfl
@[simp] theorem State.setMx_late (lq m : Nat) (x : Mxt) : (s.setMx lq m x).late = s.late := rfl
@[simp] theorem State.setMx_launches (lq m : Nat) (x : Mxt) : (s.setMx lq m x).launches = s.launches := rfl
@[simp] theorem State.setMx_nextLaunch (lq m : Nat) (x : Mxt) : (s.setMx lq m x).nextLaunch = s.nextLaunch := rfl
@[simp] theorem State.setMx_regions (lq m : Nat) (x : Mxt) : (s.setMx lq m x).regions = s.regions := rfl
@[simp] theorem State.setMx_pending (lq m : Nat) (x : Mxt) : (s.setMx lq m x).pending = s.pending := rfl
@[simp] theorem State.setMx_homes (lq m : Nat) (x : Mxt) : (s.setMx lq m x).homes = s.homes := rfl
@[simp] theorem State.setMx_nextId (lq m : Nat) (x : Mxt) : (s.setMx lq m x).nextId = s.nextId := rfl
@[simp] theorem State.setMx_ranges (lq m : Nat) (x : Mxt) : (s.setMx lq m x).ranges = s.ranges := rfl
@[simp] theorem State.setMx_images (lq m : Nat) (x : Mxt) : (s.setMx lq m x).images = s.images := rfl
@[simp] theorem State.setMx_nextImage (lq m : Nat) (x : Mxt) : (s.setMx lq m x).nextImage = s.nextImage := rfl
@[simp] theorem State.setMx_taskTrees (lq m : Nat) (x : Mxt) : (s.setMx lq m x).taskTrees = s.taskTrees := rfl
@[simp] theorem State.setMx_streams (lq m : Nat) (x : Mxt) : (s.setMx lq m x).streams = s.streams := rfl
@[simp] theorem State.setMx_byteAt (lq m : Nat) (x : Mxt) (pa : Nat) : (s.setMx lq m x).byteAt pa = s.byteAt pa := rfl

/-! ### setChan -/

@[simp] theorem State.setChan_agenda (lq k : Nat) (x : Channel8) : (s.setChan lq k x).agenda = s.agenda := rfl
@[simp] theorem State.setChan_stepNo (lq k : Nat) (x : Channel8) : (s.setChan lq k x).stepNo = s.stepNo := rfl
@[simp] theorem State.setChan_taken (lq k : Nat) (x : Channel8) : (s.setChan lq k x).taken = s.taken := rfl
@[simp] theorem State.setChan_focus (lq k : Nat) (x : Channel8) : (s.setChan lq k x).focus = s.focus := rfl
@[simp] theorem State.setChan_upset (lq k : Nat) (x : Channel8) : (s.setChan lq k x).upset = s.upset := rfl
@[simp] theorem State.setChan_out (lq k : Nat) (x : Channel8) : (s.setChan lq k x).out = s.out := rfl
@[simp] theorem State.setChan_powered (lq k : Nat) (x : Channel8) : (s.setChan lq k x).powered = s.powered := rfl
@[simp] theorem State.setChan_is930 (lq k : Nat) (x : Channel8) : (s.setChan lq k x).is930 = s.is930 := rfl
@[simp] theorem State.setChan_boot (lq k : Nat) (x : Channel8) : (s.setChan lq k x).boot = s.boot := rfl
@[simp] theorem State.setChan_cycle (lq k : Nat) (x : Channel8) : (s.setChan lq k x).cycle = s.cycle := rfl
@[simp] theorem State.setChan_dtime (lq k : Nat) (x : Channel8) : (s.setChan lq k x).dtime = s.dtime := rfl
@[simp] theorem State.setChan_prevDtime (lq k : Nat) (x : Channel8) : (s.setChan lq k x).prevDtime = s.prevDtime := rfl
@[simp] theorem State.setChan_absorb (lq k : Nat) (x : Channel8) : (s.setChan lq k x).absorb = s.absorb := rfl
@[simp] theorem State.setChan_halfTick (lq k : Nat) (x : Channel8) : (s.setChan lq k x).halfTick = s.halfTick := rfl
@[simp] theorem State.setChan_sysNode (lq k : Nat) (x : Channel8) : (s.setChan lq k x).sysNode = s.sysNode := rfl
@[simp] theorem State.setChan_mem (lq k : Nat) (x : Channel8) : (s.setChan lq k x).mem = s.mem := rfl
@[simp] theorem State.setChan_poison (lq k : Nat) (x : Channel8) : (s.setChan lq k x).poison = s.poison := rfl
@[simp] theorem State.setChan_own (lq k : Nat) (x : Channel8) : (s.setChan lq k x).own = s.own := rfl
@[simp] theorem State.setChan_banks (lq k : Nat) (x : Channel8) : (s.setChan lq k x).banks = s.banks := rfl
@[simp] theorem State.setChan_redir (lq k : Nat) (x : Channel8) : (s.setChan lq k x).redir = s.redir := rfl
@[simp] theorem State.setChan_pquads (lq k : Nat) (x : Channel8) : (s.setChan lq k x).pquads = s.pquads := rfl
@[simp] theorem State.setChan_tlb2 (lq k : Nat) (x : Channel8) : (s.setChan lq k x).tlb2 = s.tlb2 := rfl
@[simp] theorem State.setChan_halls (lq k : Nat) (x : Channel8) : (s.setChan lq k x).halls = s.halls := rfl
@[simp] theorem State.setChan_parts (lq k : Nat) (x : Channel8) : (s.setChan lq k x).parts = s.parts := rfl
@[simp] theorem State.setChan_remap (lq k : Nat) (x : Channel8) : (s.setChan lq k x).remap = s.remap := rfl
@[simp] theorem State.setChan_lqpart (lq k : Nat) (x : Channel8) : (s.setChan lq k x).lqpart = s.lqpart := rfl
@[simp] theorem State.setChan_ctxown (lq k : Nat) (x : Channel8) : (s.setChan lq k x).ctxown = s.ctxown := rfl
@[simp] theorem State.setChan_tables (lq k : Nat) (x : Channel8) : (s.setChan lq k x).tables = s.tables := rfl
@[simp] theorem State.setChan_ports (lq k : Nat) (x : Channel8) : (s.setChan lq k x).ports = s.ports := rfl
@[simp] theorem State.setChan_sources (lq k : Nat) (x : Channel8) : (s.setChan lq k x).sources = s.sources := rfl
@[simp] theorem State.setChan_nextSeq (lq k : Nat) (x : Channel8) : (s.setChan lq k x).nextSeq = s.nextSeq := rfl
@[simp] theorem State.setChan_peerOut (lq k : Nat) (x : Channel8) : (s.setChan lq k x).peerOut = s.peerOut := rfl
@[simp] theorem State.setChan_owing (lq k : Nat) (x : Channel8) : (s.setChan lq k x).owing = s.owing := rfl
@[simp] theorem State.setChan_peerReads (lq k : Nat) (x : Channel8) : (s.setChan lq k x).peerReads = s.peerReads := rfl
@[simp] theorem State.setChan_posted (lq k : Nat) (x : Channel8) : (s.setChan lq k x).posted = s.posted := rfl
@[simp] theorem State.setChan_served (lq k : Nat) (x : Channel8) : (s.setChan lq k x).served = s.served := rfl
@[simp] theorem State.setChan_late (lq k : Nat) (x : Channel8) : (s.setChan lq k x).late = s.late := rfl
@[simp] theorem State.setChan_launches (lq k : Nat) (x : Channel8) : (s.setChan lq k x).launches = s.launches := rfl
@[simp] theorem State.setChan_nextLaunch (lq k : Nat) (x : Channel8) : (s.setChan lq k x).nextLaunch = s.nextLaunch := rfl
@[simp] theorem State.setChan_regions (lq k : Nat) (x : Channel8) : (s.setChan lq k x).regions = s.regions := rfl
@[simp] theorem State.setChan_pending (lq k : Nat) (x : Channel8) : (s.setChan lq k x).pending = s.pending := rfl
@[simp] theorem State.setChan_homes (lq k : Nat) (x : Channel8) : (s.setChan lq k x).homes = s.homes := rfl
@[simp] theorem State.setChan_nextId (lq k : Nat) (x : Channel8) : (s.setChan lq k x).nextId = s.nextId := rfl
@[simp] theorem State.setChan_ranges (lq k : Nat) (x : Channel8) : (s.setChan lq k x).ranges = s.ranges := rfl
@[simp] theorem State.setChan_images (lq k : Nat) (x : Channel8) : (s.setChan lq k x).images = s.images := rfl
@[simp] theorem State.setChan_nextImage (lq k : Nat) (x : Channel8) : (s.setChan lq k x).nextImage = s.nextImage := rfl
@[simp] theorem State.setChan_taskTrees (lq k : Nat) (x : Channel8) : (s.setChan lq k x).taskTrees = s.taskTrees := rfl
@[simp] theorem State.setChan_streams (lq k : Nat) (x : Channel8) : (s.setChan lq k x).streams = s.streams := rfl
@[simp] theorem State.setChan_byteAt (lq k : Nat) (x : Channel8) (pa : Nat) : (s.setChan lq k x).byteAt pa = s.byteAt pa := rfl

/-! ### emit -/

@[simp] theorem State.emit_agenda (x : Msg) : (s.emit x).agenda = s.agenda := rfl
@[simp] theorem State.emit_stepNo (x : Msg) : (s.emit x).stepNo = s.stepNo := rfl
@[simp] theorem State.emit_taken (x : Msg) : (s.emit x).taken = s.taken := rfl
@[simp] theorem State.emit_focus (x : Msg) : (s.emit x).focus = s.focus := rfl
@[simp] theorem State.emit_upset (x : Msg) : (s.emit x).upset = s.upset := rfl
@[simp] theorem State.emit_powered (x : Msg) : (s.emit x).powered = s.powered := rfl
@[simp] theorem State.emit_is930 (x : Msg) : (s.emit x).is930 = s.is930 := rfl
@[simp] theorem State.emit_boot (x : Msg) : (s.emit x).boot = s.boot := rfl
@[simp] theorem State.emit_cycle (x : Msg) : (s.emit x).cycle = s.cycle := rfl
@[simp] theorem State.emit_dtime (x : Msg) : (s.emit x).dtime = s.dtime := rfl
@[simp] theorem State.emit_prevDtime (x : Msg) : (s.emit x).prevDtime = s.prevDtime := rfl
@[simp] theorem State.emit_absorb (x : Msg) : (s.emit x).absorb = s.absorb := rfl
@[simp] theorem State.emit_halfTick (x : Msg) : (s.emit x).halfTick = s.halfTick := rfl
@[simp] theorem State.emit_sysNode (x : Msg) : (s.emit x).sysNode = s.sysNode := rfl
@[simp] theorem State.emit_mem (x : Msg) : (s.emit x).mem = s.mem := rfl
@[simp] theorem State.emit_poison (x : Msg) : (s.emit x).poison = s.poison := rfl
@[simp] theorem State.emit_own (x : Msg) : (s.emit x).own = s.own := rfl
@[simp] theorem State.emit_banks (x : Msg) : (s.emit x).banks = s.banks := rfl
@[simp] theorem State.emit_redir (x : Msg) : (s.emit x).redir = s.redir := rfl
@[simp] theorem State.emit_quads (x : Msg) : (s.emit x).quads = s.quads := rfl
@[simp] theorem State.emit_pquads (x : Msg) : (s.emit x).pquads = s.pquads := rfl
@[simp] theorem State.emit_tlb2 (x : Msg) : (s.emit x).tlb2 = s.tlb2 := rfl
@[simp] theorem State.emit_halls (x : Msg) : (s.emit x).halls = s.halls := rfl
@[simp] theorem State.emit_parts (x : Msg) : (s.emit x).parts = s.parts := rfl
@[simp] theorem State.emit_remap (x : Msg) : (s.emit x).remap = s.remap := rfl
@[simp] theorem State.emit_lqpart (x : Msg) : (s.emit x).lqpart = s.lqpart := rfl
@[simp] theorem State.emit_ctxown (x : Msg) : (s.emit x).ctxown = s.ctxown := rfl
@[simp] theorem State.emit_tables (x : Msg) : (s.emit x).tables = s.tables := rfl
@[simp] theorem State.emit_ports (x : Msg) : (s.emit x).ports = s.ports := rfl
@[simp] theorem State.emit_sources (x : Msg) : (s.emit x).sources = s.sources := rfl
@[simp] theorem State.emit_nextSeq (x : Msg) : (s.emit x).nextSeq = s.nextSeq := rfl
@[simp] theorem State.emit_peerOut (x : Msg) : (s.emit x).peerOut = s.peerOut := rfl
@[simp] theorem State.emit_owing (x : Msg) : (s.emit x).owing = s.owing := rfl
@[simp] theorem State.emit_peerReads (x : Msg) : (s.emit x).peerReads = s.peerReads := rfl
@[simp] theorem State.emit_posted (x : Msg) : (s.emit x).posted = s.posted := rfl
@[simp] theorem State.emit_served (x : Msg) : (s.emit x).served = s.served := rfl
@[simp] theorem State.emit_late (x : Msg) : (s.emit x).late = s.late := rfl
@[simp] theorem State.emit_launches (x : Msg) : (s.emit x).launches = s.launches := rfl
@[simp] theorem State.emit_nextLaunch (x : Msg) : (s.emit x).nextLaunch = s.nextLaunch := rfl
@[simp] theorem State.emit_regions (x : Msg) : (s.emit x).regions = s.regions := rfl
@[simp] theorem State.emit_pending (x : Msg) : (s.emit x).pending = s.pending := rfl
@[simp] theorem State.emit_homes (x : Msg) : (s.emit x).homes = s.homes := rfl
@[simp] theorem State.emit_nextId (x : Msg) : (s.emit x).nextId = s.nextId := rfl
@[simp] theorem State.emit_ranges (x : Msg) : (s.emit x).ranges = s.ranges := rfl
@[simp] theorem State.emit_images (x : Msg) : (s.emit x).images = s.images := rfl
@[simp] theorem State.emit_nextImage (x : Msg) : (s.emit x).nextImage = s.nextImage := rfl
@[simp] theorem State.emit_taskTrees (x : Msg) : (s.emit x).taskTrees = s.taskTrees := rfl
@[simp] theorem State.emit_streams (x : Msg) : (s.emit x).streams = s.streams := rfl
@[simp] theorem State.emit_byteAt (x : Msg) (pa : Nat) : (s.emit x).byteAt pa = s.byteAt pa := rfl
@[simp] theorem State.emit_queueOf (x : Msg) (i j : Nat) : (s.emit x).queueOf i j = s.queueOf i j := rfl
@[simp] theorem State.emit_quadOf (x : Msg) (i : Nat) : (s.emit x).quadOf i = s.quadOf i := rfl

/-! ### addRecord -/

@[simp] theorem State.addRecord_agenda (f : FaultRecord) : (s.addRecord f).agenda = s.agenda := rfl
@[simp] theorem State.addRecord_stepNo (f : FaultRecord) : (s.addRecord f).stepNo = s.stepNo := rfl
@[simp] theorem State.addRecord_taken (f : FaultRecord) : (s.addRecord f).taken = s.taken := rfl
@[simp] theorem State.addRecord_focus (f : FaultRecord) : (s.addRecord f).focus = s.focus := rfl
@[simp] theorem State.addRecord_upset (f : FaultRecord) : (s.addRecord f).upset = s.upset := rfl
@[simp] theorem State.addRecord_out (f : FaultRecord) : (s.addRecord f).out = s.out := rfl
@[simp] theorem State.addRecord_powered (f : FaultRecord) : (s.addRecord f).powered = s.powered := rfl
@[simp] theorem State.addRecord_is930 (f : FaultRecord) : (s.addRecord f).is930 = s.is930 := rfl
@[simp] theorem State.addRecord_boot (f : FaultRecord) : (s.addRecord f).boot = s.boot := rfl
@[simp] theorem State.addRecord_cycle (f : FaultRecord) : (s.addRecord f).cycle = s.cycle := rfl
@[simp] theorem State.addRecord_dtime (f : FaultRecord) : (s.addRecord f).dtime = s.dtime := rfl
@[simp] theorem State.addRecord_prevDtime (f : FaultRecord) : (s.addRecord f).prevDtime = s.prevDtime := rfl
@[simp] theorem State.addRecord_absorb (f : FaultRecord) : (s.addRecord f).absorb = s.absorb := rfl
@[simp] theorem State.addRecord_halfTick (f : FaultRecord) : (s.addRecord f).halfTick = s.halfTick := rfl
@[simp] theorem State.addRecord_sysNode (f : FaultRecord) : (s.addRecord f).sysNode = s.sysNode := rfl
@[simp] theorem State.addRecord_mem (f : FaultRecord) : (s.addRecord f).mem = s.mem := rfl
@[simp] theorem State.addRecord_poison (f : FaultRecord) : (s.addRecord f).poison = s.poison := rfl
@[simp] theorem State.addRecord_own (f : FaultRecord) : (s.addRecord f).own = s.own := rfl
@[simp] theorem State.addRecord_banks (f : FaultRecord) : (s.addRecord f).banks = s.banks := rfl
@[simp] theorem State.addRecord_redir (f : FaultRecord) : (s.addRecord f).redir = s.redir := rfl
@[simp] theorem State.addRecord_quads (f : FaultRecord) : (s.addRecord f).quads = s.quads := rfl
@[simp] theorem State.addRecord_pquads (f : FaultRecord) : (s.addRecord f).pquads = s.pquads := rfl
@[simp] theorem State.addRecord_tlb2 (f : FaultRecord) : (s.addRecord f).tlb2 = s.tlb2 := rfl
@[simp] theorem State.addRecord_halls (f : FaultRecord) : (s.addRecord f).halls = s.halls := rfl
@[simp] theorem State.addRecord_remap (f : FaultRecord) : (s.addRecord f).remap = s.remap := rfl
@[simp] theorem State.addRecord_lqpart (f : FaultRecord) : (s.addRecord f).lqpart = s.lqpart := rfl
@[simp] theorem State.addRecord_ctxown (f : FaultRecord) : (s.addRecord f).ctxown = s.ctxown := rfl
@[simp] theorem State.addRecord_tables (f : FaultRecord) : (s.addRecord f).tables = s.tables := rfl
@[simp] theorem State.addRecord_ports (f : FaultRecord) : (s.addRecord f).ports = s.ports := rfl
@[simp] theorem State.addRecord_sources (f : FaultRecord) : (s.addRecord f).sources = s.sources := rfl
@[simp] theorem State.addRecord_nextSeq (f : FaultRecord) : (s.addRecord f).nextSeq = s.nextSeq := rfl
@[simp] theorem State.addRecord_peerOut (f : FaultRecord) : (s.addRecord f).peerOut = s.peerOut := rfl
@[simp] theorem State.addRecord_owing (f : FaultRecord) : (s.addRecord f).owing = s.owing := rfl
@[simp] theorem State.addRecord_peerReads (f : FaultRecord) : (s.addRecord f).peerReads = s.peerReads := rfl
@[simp] theorem State.addRecord_posted (f : FaultRecord) : (s.addRecord f).posted = s.posted := rfl
@[simp] theorem State.addRecord_served (f : FaultRecord) : (s.addRecord f).served = s.served := rfl
@[simp] theorem State.addRecord_late (f : FaultRecord) : (s.addRecord f).late = s.late := rfl
@[simp] theorem State.addRecord_launches (f : FaultRecord) : (s.addRecord f).launches = s.launches := rfl
@[simp] theorem State.addRecord_nextLaunch (f : FaultRecord) : (s.addRecord f).nextLaunch = s.nextLaunch := rfl
@[simp] theorem State.addRecord_regions (f : FaultRecord) : (s.addRecord f).regions = s.regions := rfl
@[simp] theorem State.addRecord_pending (f : FaultRecord) : (s.addRecord f).pending = s.pending := rfl
@[simp] theorem State.addRecord_homes (f : FaultRecord) : (s.addRecord f).homes = s.homes := rfl
@[simp] theorem State.addRecord_nextId (f : FaultRecord) : (s.addRecord f).nextId = s.nextId := rfl
@[simp] theorem State.addRecord_ranges (f : FaultRecord) : (s.addRecord f).ranges = s.ranges := rfl
@[simp] theorem State.addRecord_images (f : FaultRecord) : (s.addRecord f).images = s.images := rfl
@[simp] theorem State.addRecord_nextImage (f : FaultRecord) : (s.addRecord f).nextImage = s.nextImage := rfl
@[simp] theorem State.addRecord_taskTrees (f : FaultRecord) : (s.addRecord f).taskTrees = s.taskTrees := rfl
@[simp] theorem State.addRecord_streams (f : FaultRecord) : (s.addRecord f).streams = s.streams := rfl
@[simp] theorem State.addRecord_byteAt (f : FaultRecord) (pa : Nat) : (s.addRecord f).byteAt pa = s.byteAt pa := rfl
@[simp] theorem State.addRecord_queueOf (f : FaultRecord) (i j : Nat) : (s.addRecord f).queueOf i j = s.queueOf i j := rfl
@[simp] theorem State.addRecord_quadOf (f : FaultRecord) (i : Nat) : (s.addRecord f).quadOf i = s.quadOf i := rfl

/-! ### markGranule -/

@[simp] theorem State.markGranule_agenda (a : Nat) (b : Bool) : (s.markGranule a b).agenda = s.agenda := rfl
@[simp] theorem State.markGranule_stepNo (a : Nat) (b : Bool) : (s.markGranule a b).stepNo = s.stepNo := rfl
@[simp] theorem State.markGranule_taken (a : Nat) (b : Bool) : (s.markGranule a b).taken = s.taken := rfl
@[simp] theorem State.markGranule_focus (a : Nat) (b : Bool) : (s.markGranule a b).focus = s.focus := rfl
@[simp] theorem State.markGranule_upset (a : Nat) (b : Bool) : (s.markGranule a b).upset = s.upset := rfl
@[simp] theorem State.markGranule_out (a : Nat) (b : Bool) : (s.markGranule a b).out = s.out := rfl
@[simp] theorem State.markGranule_powered (a : Nat) (b : Bool) : (s.markGranule a b).powered = s.powered := rfl
@[simp] theorem State.markGranule_is930 (a : Nat) (b : Bool) : (s.markGranule a b).is930 = s.is930 := rfl
@[simp] theorem State.markGranule_boot (a : Nat) (b : Bool) : (s.markGranule a b).boot = s.boot := rfl
@[simp] theorem State.markGranule_cycle (a : Nat) (b : Bool) : (s.markGranule a b).cycle = s.cycle := rfl
@[simp] theorem State.markGranule_dtime (a : Nat) (b : Bool) : (s.markGranule a b).dtime = s.dtime := rfl
@[simp] theorem State.markGranule_prevDtime (a : Nat) (b : Bool) : (s.markGranule a b).prevDtime = s.prevDtime := rfl
@[simp] theorem State.markGranule_absorb (a : Nat) (b : Bool) : (s.markGranule a b).absorb = s.absorb := rfl
@[simp] theorem State.markGranule_halfTick (a : Nat) (b : Bool) : (s.markGranule a b).halfTick = s.halfTick := rfl
@[simp] theorem State.markGranule_sysNode (a : Nat) (b : Bool) : (s.markGranule a b).sysNode = s.sysNode := rfl
@[simp] theorem State.markGranule_mem (a : Nat) (b : Bool) : (s.markGranule a b).mem = s.mem := rfl
@[simp] theorem State.markGranule_own (a : Nat) (b : Bool) : (s.markGranule a b).own = s.own := rfl
@[simp] theorem State.markGranule_banks (a : Nat) (b : Bool) : (s.markGranule a b).banks = s.banks := rfl
@[simp] theorem State.markGranule_redir (a : Nat) (b : Bool) : (s.markGranule a b).redir = s.redir := rfl
@[simp] theorem State.markGranule_quads (a : Nat) (b : Bool) : (s.markGranule a b).quads = s.quads := rfl
@[simp] theorem State.markGranule_pquads (a : Nat) (b : Bool) : (s.markGranule a b).pquads = s.pquads := rfl
@[simp] theorem State.markGranule_tlb2 (a : Nat) (b : Bool) : (s.markGranule a b).tlb2 = s.tlb2 := rfl
@[simp] theorem State.markGranule_halls (a : Nat) (b : Bool) : (s.markGranule a b).halls = s.halls := rfl
@[simp] theorem State.markGranule_parts (a : Nat) (b : Bool) : (s.markGranule a b).parts = s.parts := rfl
@[simp] theorem State.markGranule_remap (a : Nat) (b : Bool) : (s.markGranule a b).remap = s.remap := rfl
@[simp] theorem State.markGranule_lqpart (a : Nat) (b : Bool) : (s.markGranule a b).lqpart = s.lqpart := rfl
@[simp] theorem State.markGranule_ctxown (a : Nat) (b : Bool) : (s.markGranule a b).ctxown = s.ctxown := rfl
@[simp] theorem State.markGranule_tables (a : Nat) (b : Bool) : (s.markGranule a b).tables = s.tables := rfl
@[simp] theorem State.markGranule_ports (a : Nat) (b : Bool) : (s.markGranule a b).ports = s.ports := rfl
@[simp] theorem State.markGranule_sources (a : Nat) (b : Bool) : (s.markGranule a b).sources = s.sources := rfl
@[simp] theorem State.markGranule_nextSeq (a : Nat) (b : Bool) : (s.markGranule a b).nextSeq = s.nextSeq := rfl
@[simp] theorem State.markGranule_peerOut (a : Nat) (b : Bool) : (s.markGranule a b).peerOut = s.peerOut := rfl
@[simp] theorem State.markGranule_owing (a : Nat) (b : Bool) : (s.markGranule a b).owing = s.owing := rfl
@[simp] theorem State.markGranule_peerReads (a : Nat) (b : Bool) : (s.markGranule a b).peerReads = s.peerReads := rfl
@[simp] theorem State.markGranule_posted (a : Nat) (b : Bool) : (s.markGranule a b).posted = s.posted := rfl
@[simp] theorem State.markGranule_served (a : Nat) (b : Bool) : (s.markGranule a b).served = s.served := rfl
@[simp] theorem State.markGranule_late (a : Nat) (b : Bool) : (s.markGranule a b).late = s.late := rfl
@[simp] theorem State.markGranule_launches (a : Nat) (b : Bool) : (s.markGranule a b).launches = s.launches := rfl
@[simp] theorem State.markGranule_nextLaunch (a : Nat) (b : Bool) : (s.markGranule a b).nextLaunch = s.nextLaunch := rfl
@[simp] theorem State.markGranule_regions (a : Nat) (b : Bool) : (s.markGranule a b).regions = s.regions := rfl
@[simp] theorem State.markGranule_pending (a : Nat) (b : Bool) : (s.markGranule a b).pending = s.pending := rfl
@[simp] theorem State.markGranule_homes (a : Nat) (b : Bool) : (s.markGranule a b).homes = s.homes := rfl
@[simp] theorem State.markGranule_nextId (a : Nat) (b : Bool) : (s.markGranule a b).nextId = s.nextId := rfl
@[simp] theorem State.markGranule_ranges (a : Nat) (b : Bool) : (s.markGranule a b).ranges = s.ranges := rfl
@[simp] theorem State.markGranule_images (a : Nat) (b : Bool) : (s.markGranule a b).images = s.images := rfl
@[simp] theorem State.markGranule_nextImage (a : Nat) (b : Bool) : (s.markGranule a b).nextImage = s.nextImage := rfl
@[simp] theorem State.markGranule_taskTrees (a : Nat) (b : Bool) : (s.markGranule a b).taskTrees = s.taskTrees := rfl
@[simp] theorem State.markGranule_streams (a : Nat) (b : Bool) : (s.markGranule a b).streams = s.streams := rfl
@[simp] theorem State.markGranule_byteAt (a : Nat) (b : Bool) (pa : Nat) : (s.markGranule a b).byteAt pa = s.byteAt pa := rfl
@[simp] theorem State.markGranule_queueOf (a : Nat) (b : Bool) (i j : Nat) : (s.markGranule a b).queueOf i j = s.queueOf i j := rfl
@[simp] theorem State.markGranule_quadOf (a : Nat) (b : Bool) (i : Nat) : (s.markGranule a b).quadOf i = s.quadOf i := rfl

/-! ### dropWordReads -/

@[simp] theorem State.dropWordReads_agenda (lq q : Nat) : (s.dropWordReads lq q).agenda = s.agenda := rfl
@[simp] theorem State.dropWordReads_stepNo (lq q : Nat) : (s.dropWordReads lq q).stepNo = s.stepNo := rfl
@[simp] theorem State.dropWordReads_taken (lq q : Nat) : (s.dropWordReads lq q).taken = s.taken := rfl
@[simp] theorem State.dropWordReads_focus (lq q : Nat) : (s.dropWordReads lq q).focus = s.focus := rfl
@[simp] theorem State.dropWordReads_upset (lq q : Nat) : (s.dropWordReads lq q).upset = s.upset := rfl
@[simp] theorem State.dropWordReads_out (lq q : Nat) : (s.dropWordReads lq q).out = s.out := rfl
@[simp] theorem State.dropWordReads_powered (lq q : Nat) : (s.dropWordReads lq q).powered = s.powered := rfl
@[simp] theorem State.dropWordReads_is930 (lq q : Nat) : (s.dropWordReads lq q).is930 = s.is930 := rfl
@[simp] theorem State.dropWordReads_boot (lq q : Nat) : (s.dropWordReads lq q).boot = s.boot := rfl
@[simp] theorem State.dropWordReads_cycle (lq q : Nat) : (s.dropWordReads lq q).cycle = s.cycle := rfl
@[simp] theorem State.dropWordReads_dtime (lq q : Nat) : (s.dropWordReads lq q).dtime = s.dtime := rfl
@[simp] theorem State.dropWordReads_prevDtime (lq q : Nat) : (s.dropWordReads lq q).prevDtime = s.prevDtime := rfl
@[simp] theorem State.dropWordReads_absorb (lq q : Nat) : (s.dropWordReads lq q).absorb = s.absorb := rfl
@[simp] theorem State.dropWordReads_halfTick (lq q : Nat) : (s.dropWordReads lq q).halfTick = s.halfTick := rfl
@[simp] theorem State.dropWordReads_sysNode (lq q : Nat) : (s.dropWordReads lq q).sysNode = s.sysNode := rfl
@[simp] theorem State.dropWordReads_mem (lq q : Nat) : (s.dropWordReads lq q).mem = s.mem := rfl
@[simp] theorem State.dropWordReads_poison (lq q : Nat) : (s.dropWordReads lq q).poison = s.poison := rfl
@[simp] theorem State.dropWordReads_own (lq q : Nat) : (s.dropWordReads lq q).own = s.own := rfl
@[simp] theorem State.dropWordReads_banks (lq q : Nat) : (s.dropWordReads lq q).banks = s.banks := rfl
@[simp] theorem State.dropWordReads_redir (lq q : Nat) : (s.dropWordReads lq q).redir = s.redir := rfl
@[simp] theorem State.dropWordReads_quads (lq q : Nat) : (s.dropWordReads lq q).quads = s.quads := rfl
@[simp] theorem State.dropWordReads_pquads (lq q : Nat) : (s.dropWordReads lq q).pquads = s.pquads := rfl
@[simp] theorem State.dropWordReads_tlb2 (lq q : Nat) : (s.dropWordReads lq q).tlb2 = s.tlb2 := rfl
@[simp] theorem State.dropWordReads_halls (lq q : Nat) : (s.dropWordReads lq q).halls = s.halls := rfl
@[simp] theorem State.dropWordReads_parts (lq q : Nat) : (s.dropWordReads lq q).parts = s.parts := rfl
@[simp] theorem State.dropWordReads_remap (lq q : Nat) : (s.dropWordReads lq q).remap = s.remap := rfl
@[simp] theorem State.dropWordReads_lqpart (lq q : Nat) : (s.dropWordReads lq q).lqpart = s.lqpart := rfl
@[simp] theorem State.dropWordReads_ctxown (lq q : Nat) : (s.dropWordReads lq q).ctxown = s.ctxown := rfl
@[simp] theorem State.dropWordReads_tables (lq q : Nat) : (s.dropWordReads lq q).tables = s.tables := rfl
@[simp] theorem State.dropWordReads_ports (lq q : Nat) : (s.dropWordReads lq q).ports = s.ports := rfl
@[simp] theorem State.dropWordReads_sources (lq q : Nat) : (s.dropWordReads lq q).sources = s.sources := rfl
@[simp] theorem State.dropWordReads_nextSeq (lq q : Nat) : (s.dropWordReads lq q).nextSeq = s.nextSeq := rfl
@[simp] theorem State.dropWordReads_peerOut (lq q : Nat) : (s.dropWordReads lq q).peerOut = s.peerOut := rfl
@[simp] theorem State.dropWordReads_owing (lq q : Nat) : (s.dropWordReads lq q).owing = s.owing := rfl
@[simp] theorem State.dropWordReads_posted (lq q : Nat) : (s.dropWordReads lq q).posted = s.posted := rfl
@[simp] theorem State.dropWordReads_served (lq q : Nat) : (s.dropWordReads lq q).served = s.served := rfl
@[simp] theorem State.dropWordReads_late (lq q : Nat) : (s.dropWordReads lq q).late = s.late := rfl
@[simp] theorem State.dropWordReads_launches (lq q : Nat) : (s.dropWordReads lq q).launches = s.launches := rfl
@[simp] theorem State.dropWordReads_nextLaunch (lq q : Nat) : (s.dropWordReads lq q).nextLaunch = s.nextLaunch := rfl
@[simp] theorem State.dropWordReads_regions (lq q : Nat) : (s.dropWordReads lq q).regions = s.regions := rfl
@[simp] theorem State.dropWordReads_pending (lq q : Nat) : (s.dropWordReads lq q).pending = s.pending := rfl
@[simp] theorem State.dropWordReads_homes (lq q : Nat) : (s.dropWordReads lq q).homes = s.homes := rfl
@[simp] theorem State.dropWordReads_nextId (lq q : Nat) : (s.dropWordReads lq q).nextId = s.nextId := rfl
@[simp] theorem State.dropWordReads_ranges (lq q : Nat) : (s.dropWordReads lq q).ranges = s.ranges := rfl
@[simp] theorem State.dropWordReads_images (lq q : Nat) : (s.dropWordReads lq q).images = s.images := rfl
@[simp] theorem State.dropWordReads_nextImage (lq q : Nat) : (s.dropWordReads lq q).nextImage = s.nextImage := rfl
@[simp] theorem State.dropWordReads_taskTrees (lq q : Nat) : (s.dropWordReads lq q).taskTrees = s.taskTrees := rfl
@[simp] theorem State.dropWordReads_streams (lq q : Nat) : (s.dropWordReads lq q).streams = s.streams := rfl
@[simp] theorem State.dropWordReads_byteAt (lq q : Nat) (pa : Nat) : (s.dropWordReads lq q).byteAt pa = s.byteAt pa := rfl
@[simp] theorem State.dropWordReads_queueOf (lq q : Nat) (i j : Nat) : (s.dropWordReads lq q).queueOf i j = s.queueOf i j := rfl
@[simp] theorem State.dropWordReads_quadOf (lq q : Nat) (i : Nat) : (s.dropWordReads lq q).quadOf i = s.quadOf i := rfl

/-! ### dropCmdReads -/

@[simp] theorem State.dropCmdReads_agenda (c : Cmd) : (s.dropCmdReads c).agenda = s.agenda := rfl
@[simp] theorem State.dropCmdReads_stepNo (c : Cmd) : (s.dropCmdReads c).stepNo = s.stepNo := rfl
@[simp] theorem State.dropCmdReads_taken (c : Cmd) : (s.dropCmdReads c).taken = s.taken := rfl
@[simp] theorem State.dropCmdReads_focus (c : Cmd) : (s.dropCmdReads c).focus = s.focus := rfl
@[simp] theorem State.dropCmdReads_upset (c : Cmd) : (s.dropCmdReads c).upset = s.upset := rfl
@[simp] theorem State.dropCmdReads_out (c : Cmd) : (s.dropCmdReads c).out = s.out := rfl
@[simp] theorem State.dropCmdReads_powered (c : Cmd) : (s.dropCmdReads c).powered = s.powered := rfl
@[simp] theorem State.dropCmdReads_is930 (c : Cmd) : (s.dropCmdReads c).is930 = s.is930 := rfl
@[simp] theorem State.dropCmdReads_boot (c : Cmd) : (s.dropCmdReads c).boot = s.boot := rfl
@[simp] theorem State.dropCmdReads_cycle (c : Cmd) : (s.dropCmdReads c).cycle = s.cycle := rfl
@[simp] theorem State.dropCmdReads_dtime (c : Cmd) : (s.dropCmdReads c).dtime = s.dtime := rfl
@[simp] theorem State.dropCmdReads_prevDtime (c : Cmd) : (s.dropCmdReads c).prevDtime = s.prevDtime := rfl
@[simp] theorem State.dropCmdReads_absorb (c : Cmd) : (s.dropCmdReads c).absorb = s.absorb := rfl
@[simp] theorem State.dropCmdReads_halfTick (c : Cmd) : (s.dropCmdReads c).halfTick = s.halfTick := rfl
@[simp] theorem State.dropCmdReads_sysNode (c : Cmd) : (s.dropCmdReads c).sysNode = s.sysNode := rfl
@[simp] theorem State.dropCmdReads_mem (c : Cmd) : (s.dropCmdReads c).mem = s.mem := rfl
@[simp] theorem State.dropCmdReads_poison (c : Cmd) : (s.dropCmdReads c).poison = s.poison := rfl
@[simp] theorem State.dropCmdReads_own (c : Cmd) : (s.dropCmdReads c).own = s.own := rfl
@[simp] theorem State.dropCmdReads_banks (c : Cmd) : (s.dropCmdReads c).banks = s.banks := rfl
@[simp] theorem State.dropCmdReads_redir (c : Cmd) : (s.dropCmdReads c).redir = s.redir := rfl
@[simp] theorem State.dropCmdReads_quads (c : Cmd) : (s.dropCmdReads c).quads = s.quads := rfl
@[simp] theorem State.dropCmdReads_pquads (c : Cmd) : (s.dropCmdReads c).pquads = s.pquads := rfl
@[simp] theorem State.dropCmdReads_tlb2 (c : Cmd) : (s.dropCmdReads c).tlb2 = s.tlb2 := rfl
@[simp] theorem State.dropCmdReads_halls (c : Cmd) : (s.dropCmdReads c).halls = s.halls := rfl
@[simp] theorem State.dropCmdReads_parts (c : Cmd) : (s.dropCmdReads c).parts = s.parts := rfl
@[simp] theorem State.dropCmdReads_remap (c : Cmd) : (s.dropCmdReads c).remap = s.remap := rfl
@[simp] theorem State.dropCmdReads_lqpart (c : Cmd) : (s.dropCmdReads c).lqpart = s.lqpart := rfl
@[simp] theorem State.dropCmdReads_ctxown (c : Cmd) : (s.dropCmdReads c).ctxown = s.ctxown := rfl
@[simp] theorem State.dropCmdReads_tables (c : Cmd) : (s.dropCmdReads c).tables = s.tables := rfl
@[simp] theorem State.dropCmdReads_ports (c : Cmd) : (s.dropCmdReads c).ports = s.ports := rfl
@[simp] theorem State.dropCmdReads_sources (c : Cmd) : (s.dropCmdReads c).sources = s.sources := rfl
@[simp] theorem State.dropCmdReads_nextSeq (c : Cmd) : (s.dropCmdReads c).nextSeq = s.nextSeq := rfl
@[simp] theorem State.dropCmdReads_peerOut (c : Cmd) : (s.dropCmdReads c).peerOut = s.peerOut := rfl
@[simp] theorem State.dropCmdReads_owing (c : Cmd) : (s.dropCmdReads c).owing = s.owing := rfl
@[simp] theorem State.dropCmdReads_posted (c : Cmd) : (s.dropCmdReads c).posted = s.posted := rfl
@[simp] theorem State.dropCmdReads_served (c : Cmd) : (s.dropCmdReads c).served = s.served := rfl
@[simp] theorem State.dropCmdReads_late (c : Cmd) : (s.dropCmdReads c).late = s.late := rfl
@[simp] theorem State.dropCmdReads_launches (c : Cmd) : (s.dropCmdReads c).launches = s.launches := rfl
@[simp] theorem State.dropCmdReads_nextLaunch (c : Cmd) : (s.dropCmdReads c).nextLaunch = s.nextLaunch := rfl
@[simp] theorem State.dropCmdReads_regions (c : Cmd) : (s.dropCmdReads c).regions = s.regions := rfl
@[simp] theorem State.dropCmdReads_pending (c : Cmd) : (s.dropCmdReads c).pending = s.pending := rfl
@[simp] theorem State.dropCmdReads_homes (c : Cmd) : (s.dropCmdReads c).homes = s.homes := rfl
@[simp] theorem State.dropCmdReads_nextId (c : Cmd) : (s.dropCmdReads c).nextId = s.nextId := rfl
@[simp] theorem State.dropCmdReads_ranges (c : Cmd) : (s.dropCmdReads c).ranges = s.ranges := rfl
@[simp] theorem State.dropCmdReads_images (c : Cmd) : (s.dropCmdReads c).images = s.images := rfl
@[simp] theorem State.dropCmdReads_nextImage (c : Cmd) : (s.dropCmdReads c).nextImage = s.nextImage := rfl
@[simp] theorem State.dropCmdReads_taskTrees (c : Cmd) : (s.dropCmdReads c).taskTrees = s.taskTrees := rfl
@[simp] theorem State.dropCmdReads_streams (c : Cmd) : (s.dropCmdReads c).streams = s.streams := rfl
@[simp] theorem State.dropCmdReads_byteAt (c : Cmd) (pa : Nat) : (s.dropCmdReads c).byteAt pa = s.byteAt pa := rfl
@[simp] theorem State.dropCmdReads_queueOf (c : Cmd) (i j : Nat) : (s.dropCmdReads c).queueOf i j = s.queueOf i j := rfl
@[simp] theorem State.dropCmdReads_quadOf (c : Cmd) (i : Nat) : (s.dropCmdReads c).quadOf i = s.quadOf i := rfl

/-! ### completeLate -/

@[simp] theorem State.completeLate_agenda (c : Cmd) : (s.completeLate c).agenda = s.agenda := rfl
@[simp] theorem State.completeLate_stepNo (c : Cmd) : (s.completeLate c).stepNo = s.stepNo := rfl
@[simp] theorem State.completeLate_taken (c : Cmd) : (s.completeLate c).taken = s.taken := rfl
@[simp] theorem State.completeLate_focus (c : Cmd) : (s.completeLate c).focus = s.focus := rfl
@[simp] theorem State.completeLate_upset (c : Cmd) : (s.completeLate c).upset = s.upset := rfl
@[simp] theorem State.completeLate_out (c : Cmd) : (s.completeLate c).out = s.out := rfl
@[simp] theorem State.completeLate_powered (c : Cmd) : (s.completeLate c).powered = s.powered := rfl
@[simp] theorem State.completeLate_is930 (c : Cmd) : (s.completeLate c).is930 = s.is930 := rfl
@[simp] theorem State.completeLate_boot (c : Cmd) : (s.completeLate c).boot = s.boot := rfl
@[simp] theorem State.completeLate_cycle (c : Cmd) : (s.completeLate c).cycle = s.cycle := rfl
@[simp] theorem State.completeLate_dtime (c : Cmd) : (s.completeLate c).dtime = s.dtime := rfl
@[simp] theorem State.completeLate_prevDtime (c : Cmd) : (s.completeLate c).prevDtime = s.prevDtime := rfl
@[simp] theorem State.completeLate_absorb (c : Cmd) : (s.completeLate c).absorb = s.absorb := rfl
@[simp] theorem State.completeLate_halfTick (c : Cmd) : (s.completeLate c).halfTick = s.halfTick := rfl
@[simp] theorem State.completeLate_sysNode (c : Cmd) : (s.completeLate c).sysNode = s.sysNode := rfl
@[simp] theorem State.completeLate_mem (c : Cmd) : (s.completeLate c).mem = s.mem := rfl
@[simp] theorem State.completeLate_poison (c : Cmd) : (s.completeLate c).poison = s.poison := rfl
@[simp] theorem State.completeLate_own (c : Cmd) : (s.completeLate c).own = s.own := rfl
@[simp] theorem State.completeLate_banks (c : Cmd) : (s.completeLate c).banks = s.banks := rfl
@[simp] theorem State.completeLate_redir (c : Cmd) : (s.completeLate c).redir = s.redir := rfl
@[simp] theorem State.completeLate_quads (c : Cmd) : (s.completeLate c).quads = s.quads := rfl
@[simp] theorem State.completeLate_pquads (c : Cmd) : (s.completeLate c).pquads = s.pquads := rfl
@[simp] theorem State.completeLate_tlb2 (c : Cmd) : (s.completeLate c).tlb2 = s.tlb2 := rfl
@[simp] theorem State.completeLate_halls (c : Cmd) : (s.completeLate c).halls = s.halls := rfl
@[simp] theorem State.completeLate_parts (c : Cmd) : (s.completeLate c).parts = s.parts := rfl
@[simp] theorem State.completeLate_remap (c : Cmd) : (s.completeLate c).remap = s.remap := rfl
@[simp] theorem State.completeLate_lqpart (c : Cmd) : (s.completeLate c).lqpart = s.lqpart := rfl
@[simp] theorem State.completeLate_ctxown (c : Cmd) : (s.completeLate c).ctxown = s.ctxown := rfl
@[simp] theorem State.completeLate_tables (c : Cmd) : (s.completeLate c).tables = s.tables := rfl
@[simp] theorem State.completeLate_ports (c : Cmd) : (s.completeLate c).ports = s.ports := rfl
@[simp] theorem State.completeLate_sources (c : Cmd) : (s.completeLate c).sources = s.sources := rfl
@[simp] theorem State.completeLate_nextSeq (c : Cmd) : (s.completeLate c).nextSeq = s.nextSeq := rfl
@[simp] theorem State.completeLate_peerOut (c : Cmd) : (s.completeLate c).peerOut = s.peerOut := rfl
@[simp] theorem State.completeLate_owing (c : Cmd) : (s.completeLate c).owing = s.owing := rfl
@[simp] theorem State.completeLate_peerReads (c : Cmd) : (s.completeLate c).peerReads = s.peerReads := rfl
@[simp] theorem State.completeLate_posted (c : Cmd) : (s.completeLate c).posted = s.posted := rfl
@[simp] theorem State.completeLate_served (c : Cmd) : (s.completeLate c).served = s.served := rfl
@[simp] theorem State.completeLate_launches (c : Cmd) : (s.completeLate c).launches = s.launches := rfl
@[simp] theorem State.completeLate_nextLaunch (c : Cmd) : (s.completeLate c).nextLaunch = s.nextLaunch := rfl
@[simp] theorem State.completeLate_regions (c : Cmd) : (s.completeLate c).regions = s.regions := rfl
@[simp] theorem State.completeLate_pending (c : Cmd) : (s.completeLate c).pending = s.pending := rfl
@[simp] theorem State.completeLate_homes (c : Cmd) : (s.completeLate c).homes = s.homes := rfl
@[simp] theorem State.completeLate_nextId (c : Cmd) : (s.completeLate c).nextId = s.nextId := rfl
@[simp] theorem State.completeLate_ranges (c : Cmd) : (s.completeLate c).ranges = s.ranges := rfl
@[simp] theorem State.completeLate_images (c : Cmd) : (s.completeLate c).images = s.images := rfl
@[simp] theorem State.completeLate_nextImage (c : Cmd) : (s.completeLate c).nextImage = s.nextImage := rfl
@[simp] theorem State.completeLate_taskTrees (c : Cmd) : (s.completeLate c).taskTrees = s.taskTrees := rfl
@[simp] theorem State.completeLate_streams (c : Cmd) : (s.completeLate c).streams = s.streams := rfl
@[simp] theorem State.completeLate_byteAt (c : Cmd) (pa : Nat) : (s.completeLate c).byteAt pa = s.byteAt pa := rfl
@[simp] theorem State.completeLate_queueOf (c : Cmd) (i j : Nat) : (s.completeLate c).queueOf i j = s.queueOf i j := rfl
@[simp] theorem State.completeLate_quadOf (c : Cmd) (i : Nat) : (s.completeLate c).quadOf i = s.quadOf i := rfl

/-! ### writeAt -/

@[simp] theorem State.writeAt_agenda (a : Nat) (bs : List Byte) : (s.writeAt a bs).agenda = s.agenda := rfl
@[simp] theorem State.writeAt_stepNo (a : Nat) (bs : List Byte) : (s.writeAt a bs).stepNo = s.stepNo := rfl
@[simp] theorem State.writeAt_taken (a : Nat) (bs : List Byte) : (s.writeAt a bs).taken = s.taken := rfl
@[simp] theorem State.writeAt_focus (a : Nat) (bs : List Byte) : (s.writeAt a bs).focus = s.focus := rfl
@[simp] theorem State.writeAt_upset (a : Nat) (bs : List Byte) : (s.writeAt a bs).upset = s.upset := rfl
@[simp] theorem State.writeAt_out (a : Nat) (bs : List Byte) : (s.writeAt a bs).out = s.out := rfl
@[simp] theorem State.writeAt_powered (a : Nat) (bs : List Byte) : (s.writeAt a bs).powered = s.powered := rfl
@[simp] theorem State.writeAt_is930 (a : Nat) (bs : List Byte) : (s.writeAt a bs).is930 = s.is930 := rfl
@[simp] theorem State.writeAt_boot (a : Nat) (bs : List Byte) : (s.writeAt a bs).boot = s.boot := rfl
@[simp] theorem State.writeAt_cycle (a : Nat) (bs : List Byte) : (s.writeAt a bs).cycle = s.cycle := rfl
@[simp] theorem State.writeAt_dtime (a : Nat) (bs : List Byte) : (s.writeAt a bs).dtime = s.dtime := rfl
@[simp] theorem State.writeAt_prevDtime (a : Nat) (bs : List Byte) : (s.writeAt a bs).prevDtime = s.prevDtime := rfl
@[simp] theorem State.writeAt_absorb (a : Nat) (bs : List Byte) : (s.writeAt a bs).absorb = s.absorb := rfl
@[simp] theorem State.writeAt_halfTick (a : Nat) (bs : List Byte) : (s.writeAt a bs).halfTick = s.halfTick := rfl
@[simp] theorem State.writeAt_sysNode (a : Nat) (bs : List Byte) : (s.writeAt a bs).sysNode = s.sysNode := rfl
@[simp] theorem State.writeAt_own (a : Nat) (bs : List Byte) : (s.writeAt a bs).own = s.own := rfl
@[simp] theorem State.writeAt_banks (a : Nat) (bs : List Byte) : (s.writeAt a bs).banks = s.banks := rfl
@[simp] theorem State.writeAt_redir (a : Nat) (bs : List Byte) : (s.writeAt a bs).redir = s.redir := rfl
@[simp] theorem State.writeAt_quads (a : Nat) (bs : List Byte) : (s.writeAt a bs).quads = s.quads := rfl
@[simp] theorem State.writeAt_pquads (a : Nat) (bs : List Byte) : (s.writeAt a bs).pquads = s.pquads := rfl
@[simp] theorem State.writeAt_tlb2 (a : Nat) (bs : List Byte) : (s.writeAt a bs).tlb2 = s.tlb2 := rfl
@[simp] theorem State.writeAt_parts (a : Nat) (bs : List Byte) : (s.writeAt a bs).parts = s.parts := rfl
@[simp] theorem State.writeAt_remap (a : Nat) (bs : List Byte) : (s.writeAt a bs).remap = s.remap := rfl
@[simp] theorem State.writeAt_lqpart (a : Nat) (bs : List Byte) : (s.writeAt a bs).lqpart = s.lqpart := rfl
@[simp] theorem State.writeAt_ctxown (a : Nat) (bs : List Byte) : (s.writeAt a bs).ctxown = s.ctxown := rfl
@[simp] theorem State.writeAt_tables (a : Nat) (bs : List Byte) : (s.writeAt a bs).tables = s.tables := rfl
@[simp] theorem State.writeAt_ports (a : Nat) (bs : List Byte) : (s.writeAt a bs).ports = s.ports := rfl
@[simp] theorem State.writeAt_sources (a : Nat) (bs : List Byte) : (s.writeAt a bs).sources = s.sources := rfl
@[simp] theorem State.writeAt_nextSeq (a : Nat) (bs : List Byte) : (s.writeAt a bs).nextSeq = s.nextSeq := rfl
@[simp] theorem State.writeAt_peerOut (a : Nat) (bs : List Byte) : (s.writeAt a bs).peerOut = s.peerOut := rfl
@[simp] theorem State.writeAt_owing (a : Nat) (bs : List Byte) : (s.writeAt a bs).owing = s.owing := rfl
@[simp] theorem State.writeAt_peerReads (a : Nat) (bs : List Byte) : (s.writeAt a bs).peerReads = s.peerReads := rfl
@[simp] theorem State.writeAt_posted (a : Nat) (bs : List Byte) : (s.writeAt a bs).posted = s.posted := rfl
@[simp] theorem State.writeAt_served (a : Nat) (bs : List Byte) : (s.writeAt a bs).served = s.served := rfl
@[simp] theorem State.writeAt_late (a : Nat) (bs : List Byte) : (s.writeAt a bs).late = s.late := rfl
@[simp] theorem State.writeAt_launches (a : Nat) (bs : List Byte) : (s.writeAt a bs).launches = s.launches := rfl
@[simp] theorem State.writeAt_nextLaunch (a : Nat) (bs : List Byte) : (s.writeAt a bs).nextLaunch = s.nextLaunch := rfl
@[simp] theorem State.writeAt_regions (a : Nat) (bs : List Byte) : (s.writeAt a bs).regions = s.regions := rfl
@[simp] theorem State.writeAt_pending (a : Nat) (bs : List Byte) : (s.writeAt a bs).pending = s.pending := rfl
@[simp] theorem State.writeAt_homes (a : Nat) (bs : List Byte) : (s.writeAt a bs).homes = s.homes := rfl
@[simp] theorem State.writeAt_nextId (a : Nat) (bs : List Byte) : (s.writeAt a bs).nextId = s.nextId := rfl
@[simp] theorem State.writeAt_ranges (a : Nat) (bs : List Byte) : (s.writeAt a bs).ranges = s.ranges := rfl
@[simp] theorem State.writeAt_images (a : Nat) (bs : List Byte) : (s.writeAt a bs).images = s.images := rfl
@[simp] theorem State.writeAt_nextImage (a : Nat) (bs : List Byte) : (s.writeAt a bs).nextImage = s.nextImage := rfl
@[simp] theorem State.writeAt_taskTrees (a : Nat) (bs : List Byte) : (s.writeAt a bs).taskTrees = s.taskTrees := rfl
@[simp] theorem State.writeAt_streams (a : Nat) (bs : List Byte) : (s.writeAt a bs).streams = s.streams := rfl
@[simp] theorem State.writeAt_queueOf (a : Nat) (bs : List Byte) (i j : Nat) : (s.writeAt a bs).queueOf i j = s.queueOf i j := rfl
@[simp] theorem State.writeAt_quadOf (a : Nat) (bs : List Byte) (i : Nat) : (s.writeAt a bs).quadOf i = s.quadOf i := rfl

/-! ### putNum -/

@[simp] theorem State.putNum_agenda (a n v : Nat) : (s.putNum a n v).agenda = s.agenda := rfl
@[simp] theorem State.putNum_stepNo (a n v : Nat) : (s.putNum a n v).stepNo = s.stepNo := rfl
@[simp] theorem State.putNum_taken (a n v : Nat) : (s.putNum a n v).taken = s.taken := rfl
@[simp] theorem State.putNum_focus (a n v : Nat) : (s.putNum a n v).focus = s.focus := rfl
@[simp] theorem State.putNum_upset (a n v : Nat) : (s.putNum a n v).upset = s.upset := rfl
@[simp] theorem State.putNum_out (a n v : Nat) : (s.putNum a n v).out = s.out := rfl
@[simp] theorem State.putNum_powered (a n v : Nat) : (s.putNum a n v).powered = s.powered := rfl
@[simp] theorem State.putNum_is930 (a n v : Nat) : (s.putNum a n v).is930 = s.is930 := rfl
@[simp] theorem State.putNum_boot (a n v : Nat) : (s.putNum a n v).boot = s.boot := rfl
@[simp] theorem State.putNum_cycle (a n v : Nat) : (s.putNum a n v).cycle = s.cycle := rfl
@[simp] theorem State.putNum_dtime (a n v : Nat) : (s.putNum a n v).dtime = s.dtime := rfl
@[simp] theorem State.putNum_prevDtime (a n v : Nat) : (s.putNum a n v).prevDtime = s.prevDtime := rfl
@[simp] theorem State.putNum_absorb (a n v : Nat) : (s.putNum a n v).absorb = s.absorb := rfl
@[simp] theorem State.putNum_halfTick (a n v : Nat) : (s.putNum a n v).halfTick = s.halfTick := rfl
@[simp] theorem State.putNum_sysNode (a n v : Nat) : (s.putNum a n v).sysNode = s.sysNode := rfl
@[simp] theorem State.putNum_own (a n v : Nat) : (s.putNum a n v).own = s.own := rfl
@[simp] theorem State.putNum_banks (a n v : Nat) : (s.putNum a n v).banks = s.banks := rfl
@[simp] theorem State.putNum_redir (a n v : Nat) : (s.putNum a n v).redir = s.redir := rfl
@[simp] theorem State.putNum_quads (a n v : Nat) : (s.putNum a n v).quads = s.quads := rfl
@[simp] theorem State.putNum_pquads (a n v : Nat) : (s.putNum a n v).pquads = s.pquads := rfl
@[simp] theorem State.putNum_tlb2 (a n v : Nat) : (s.putNum a n v).tlb2 = s.tlb2 := rfl
@[simp] theorem State.putNum_parts (a n v : Nat) : (s.putNum a n v).parts = s.parts := rfl
@[simp] theorem State.putNum_remap (a n v : Nat) : (s.putNum a n v).remap = s.remap := rfl
@[simp] theorem State.putNum_lqpart (a n v : Nat) : (s.putNum a n v).lqpart = s.lqpart := rfl
@[simp] theorem State.putNum_ctxown (a n v : Nat) : (s.putNum a n v).ctxown = s.ctxown := rfl
@[simp] theorem State.putNum_tables (a n v : Nat) : (s.putNum a n v).tables = s.tables := rfl
@[simp] theorem State.putNum_ports (a n v : Nat) : (s.putNum a n v).ports = s.ports := rfl
@[simp] theorem State.putNum_sources (a n v : Nat) : (s.putNum a n v).sources = s.sources := rfl
@[simp] theorem State.putNum_nextSeq (a n v : Nat) : (s.putNum a n v).nextSeq = s.nextSeq := rfl
@[simp] theorem State.putNum_peerOut (a n v : Nat) : (s.putNum a n v).peerOut = s.peerOut := rfl
@[simp] theorem State.putNum_owing (a n v : Nat) : (s.putNum a n v).owing = s.owing := rfl
@[simp] theorem State.putNum_peerReads (a n v : Nat) : (s.putNum a n v).peerReads = s.peerReads := rfl
@[simp] theorem State.putNum_posted (a n v : Nat) : (s.putNum a n v).posted = s.posted := rfl
@[simp] theorem State.putNum_served (a n v : Nat) : (s.putNum a n v).served = s.served := rfl
@[simp] theorem State.putNum_late (a n v : Nat) : (s.putNum a n v).late = s.late := rfl
@[simp] theorem State.putNum_launches (a n v : Nat) : (s.putNum a n v).launches = s.launches := rfl
@[simp] theorem State.putNum_nextLaunch (a n v : Nat) : (s.putNum a n v).nextLaunch = s.nextLaunch := rfl
@[simp] theorem State.putNum_regions (a n v : Nat) : (s.putNum a n v).regions = s.regions := rfl
@[simp] theorem State.putNum_pending (a n v : Nat) : (s.putNum a n v).pending = s.pending := rfl
@[simp] theorem State.putNum_homes (a n v : Nat) : (s.putNum a n v).homes = s.homes := rfl
@[simp] theorem State.putNum_nextId (a n v : Nat) : (s.putNum a n v).nextId = s.nextId := rfl
@[simp] theorem State.putNum_ranges (a n v : Nat) : (s.putNum a n v).ranges = s.ranges := rfl
@[simp] theorem State.putNum_images (a n v : Nat) : (s.putNum a n v).images = s.images := rfl
@[simp] theorem State.putNum_nextImage (a n v : Nat) : (s.putNum a n v).nextImage = s.nextImage := rfl
@[simp] theorem State.putNum_taskTrees (a n v : Nat) : (s.putNum a n v).taskTrees = s.taskTrees := rfl
@[simp] theorem State.putNum_streams (a n v : Nat) : (s.putNum a n v).streams = s.streams := rfl
@[simp] theorem State.putNum_queueOf (a n v : Nat) (i j : Nat) : (s.putNum a n v).queueOf i j = s.queueOf i j := rfl
@[simp] theorem State.putNum_quadOf (a n v : Nat) (i : Nat) : (s.putNum a n v).quadOf i = s.quadOf i := rfl

/-! ### A queue whose word has left issue -/

@[simp] theorem Queue.settled_pc (x : Queue) : x.settled.pc = x.pc := rfl
@[simp] theorem Queue.settled_regs (x : Queue) : x.settled.regs = x.regs := rfl
@[simp] theorem Queue.settled_loops (x : Queue) : x.settled.loops = x.loops := rfl
@[simp] theorem Queue.settled_st (x : Queue) : x.settled.st = x.st := rfl
@[simp] theorem Queue.settled_tvec (x : Queue) : x.settled.tvec = x.tvec := rfl
@[simp] theorem Queue.settled_mxmode (x : Queue) : x.settled.mxmode = x.mxmode := rfl
@[simp] theorem Queue.settled_wait (x : Queue) : x.settled.wait = x.wait := rfl
@[simp] theorem Queue.settled_phase (x : Queue) : x.settled.phase = .fresh := rfl
@[simp] theorem Queue.settled_ctl (x : Queue) : x.settled.ctl = none := rfl

/-! ### Reads after updates -/

/-- A region that was put is found. -/
@[simp] theorem State.setRegion_region_self (r : Nat) (x : Region) : (s.setRegion r x).region? r = some x := NatMap.find_insert_self _ _ _
/-- Another region is as before. -/
theorem State.setRegion_region_other {r q : Nat} (x : Region) (h : q ≠ r) : (s.setRegion r x).region? q = s.region? q :=
  NatMap.find_insert_other _ _ h
/-- The second of two updates of a region is the one that counts. -/
@[simp] theorem State.setRegion_setRegion (r : Nat) (x y : Region) : (s.setRegion r x).setRegion r y = s.setRegion r y := by
  simp [State.setRegion]
/-- A launch that was put is found. -/
@[simp] theorem State.setLaunch_launch_self (l : Nat) (x : Launch) : (s.setLaunch l x).launch? l = some x := NatMap.find_insert_self _ _ _
/-- The second of two updates of a launch is the one that counts. -/
@[simp] theorem State.setLaunch_setLaunch (l : Nat) (x y : Launch) : (s.setLaunch l x).setLaunch l y = s.setLaunch l y := by
  simp [State.setLaunch]
/-- Another logical quad is as before. -/
theorem State.setQuad_quadOf_other {lq k : Nat} (x : Quad) (h : k ≠ lq) : (s.setQuad lq x).quadOf k = s.quadOf k :=
  NatMap.get_set_other _ _ _ h
/-- A queue of another logical quad is as before. -/
theorem State.setQueue_queueOf_otherQuad {lq q k j : Nat} (x : Queue) (h : k ≠ lq) : (s.setQueue lq q x).queueOf k j = s.queueOf k j := by
  unfold State.queueOf State.setQueue
  rw [State.setQuad_quadOf_other s _ h]
/-- A logical quad that was put is read back. -/
@[simp] theorem State.setQuad_quadOf_self (lq : Nat) (x : Quad) : (s.setQuad lq x).quadOf lq = x := NatMap.get_set_self _ _ _ _
/-- A queue that was put is read back. -/
@[simp] theorem State.setQueue_queueOf_self (lq q : Nat) (x : Queue) : (s.setQueue lq q x).queueOf lq q = x := by
  simp [State.queueOf, State.setQueue, Quad.setQueue]
/-- Another queue of the quad is as before. -/
theorem State.setQueue_queueOf_other {lq q j : Nat} (x : Queue) (h : j ≠ q) : (s.setQueue lq q x).queueOf lq j = s.queueOf lq j := by
  simp [State.queueOf, State.setQueue, Quad.setQueue, NatMap.get_set_other _ _ _ h]
/-- A queue that is put changes no semaphore. -/
@[simp] theorem State.setQueue_semOf (lq q k n : Nat) (x : Queue) : ((s.setQueue lq q x).quadOf k).semOf n = (s.quadOf k).semOf n := by
  by_cases h : k = lq
  · subst h; simp [State.setQueue]; rfl
  · simp [State.setQueue, State.setQuad_quadOf_other s _ h]
/-- A partition that was put is read back. -/
@[simp] theorem State.setPart_partOf_self (p : Nat) (x : Partition) : (s.setPart p x).partOf p = x := NatMap.get_set_self _ _ _ _
/-- Another partition is as before. -/
theorem State.setPart_partOf_other {p k : Nat} (x : Partition) (h : k ≠ p) : (s.setPart p x).partOf k = s.partOf k := NatMap.get_set_other _ _ _ h
/-- A hall that was put is read back. -/
@[simp] theorem State.setHall_hallOf_self (h : Nat) (x : Hall) : (s.setHall h x).hallOf h = x := NatMap.get_set_self _ _ _ _
/-- A channel that was put is read back. -/
@[simp] theorem State.setChan_chan_self (lq k : Nat) (x : Channel8) : ((s.setChan lq k x).quadOf lq).chan k = x := by
  simp [State.setChan, Quad.setChan, Quad.chan]
/-- A tile that was put is read back. -/
@[simp] theorem State.setMx_mx_self (lq m : Nat) (x : Mxt) : ((s.setMx lq m x).quadOf lq).mx m = x := by
  simp [State.setMx, Quad.setMx, Quad.mx]
/-- A launch queue that was put is read back. -/
@[simp] theorem State.setLq_lqOf_self (p k : Nat) (x : LaunchQ) : (s.setLq p k x).lqOf p k = x := by
  simp [State.setLq, State.lqOf]

end Sys2Proof.Machine
end

