-- ==== Sys2Proof/Laws/Access.lean ====
section
/-! SUPPORT. Accesses by virtual address: what a write for a context changes, and that it keeps the canonical form of memory. -/

namespace Sys2Proof.Machine

/-- A write for a context changes the bytes of its run, or, in deterministic operation, no byte. -/
theorem viewWrite_outside {s t : State} {ctx pa a : Nat} {bs : List Byte} (h : s.viewWrite ctx pa bs = some t) (ha : a < pa ∨ pa + bs.length ≤ a) :
    t.byteAt a = s.byteAt a := by
  unfold State.viewWrite at h
  split at h
  · cases h; exact State.writeAt_outside s bs ha
  · simp only at h
    split at h
    · cases h
    · cases h; rfl

/-- A write for a context keeps the canonical form of memory. -/
theorem viewWrite_wf {s t : State} {ctx pa : Nat} {bs : List Byte} (h : s.viewWrite ctx pa bs = some t) (hw : Memory.wf s = true) :
    Memory.wf t = true := by
  unfold State.viewWrite at h
  split at h
  · cases h; exact State.writeAt_wf pa bs hw
  · simp only at h
    split at h
    · cases h
    · cases h; exact hw

/-- Flits sent change no byte of memory. -/
@[simp] theorem sendFlits_mem (s : State) (k : Nat) (fs : List (List Byte)) : (s.sendFlits k fs).mem = s.mem := by
  unfold State.sendFlits; split <;> rfl

/-- A request sent to a linked device changes no byte of memory. -/
@[simp] theorem sendFar_mem (s : State) (a : Nat) (x : Far) (b c d e f : Nat) (bs : List Byte) (p : Part) (o : PeerOwner) :
    (s.sendFar a x b c d e f bs p o).mem = s.mem := by
  simp only [State.sendFar]; split <;> simp

/-- A request sent to a peer changes no byte of memory. -/
@[simp] theorem sendPeer_mem (s : State) (a b c d e f g : Nat) (bs : List Byte) (p : Part) : (s.sendPeer a b c d e f g bs p).mem = s.mem := by
  simp only [State.sendPeer, sendFar_mem]

/-- What a write of one run is: a request that leaves memory alone, or a write for the context. -/
theorem writeRun_cases {s t : State} {part ctx op : Nat} {r : Nat × Nat} {bs : List Byte} (h : s.writeRun part ctx r bs op = some t) :
    t.mem = s.mem ∨ s.viewWrite ctx r.1 bs = some t := by
  unfold State.writeRun at h
  split at h
  · cases h; exact .inl (by simp)
  · exact .inr h

/-- Writes of runs change the bytes of the runs and no other. -/
theorem writeRuns_outside {part ctx a : Nat} {runs : List (Nat × Nat)} : ∀ {s t : State} {bs : List Byte},
    s.writeRuns part ctx runs bs = some t → (∀ r ∈ runs, a < r.1 ∨ r.1 + r.2 ≤ a) → t.byteAt a = s.byteAt a := by
  induction runs with
  | nil => intro s t bs h _; cases h; rfl
  | cons r rs ih =>
    intro s t bs h ho
    obtain ⟨s1, h1, h2⟩ := Option.bind_eq_some_iff.mp h
    refine (ih h2 fun x hx => ho x (by simp [hx])).trans ?_
    rcases writeRun_cases h1 with hm | hv
    · simp [State.byteAt, hm]
    · have hr := ho r (by simp)
      exact viewWrite_outside hv (by simp only [List.length_take]; omega)

/-- Writes of runs keep the canonical form of memory. -/
theorem writeRuns_wf {part ctx : Nat} {runs : List (Nat × Nat)} : ∀ {s t : State} {bs : List Byte},
    s.writeRuns part ctx runs bs = some t → Memory.wf s = true → Memory.wf t = true := by
  induction runs with
  | nil => intro s t bs h hw; cases h; exact hw
  | cons r rs ih =>
    intro s t bs h hw
    obtain ⟨s1, h1, h2⟩ := Option.bind_eq_some_iff.mp h
    refine ih h2 ?_
    rcases writeRun_cases h1 with hm | hv
    · simpa [Memory.wf, hm] using hw
    · exact viewWrite_wf hv hw

/-- A write by virtual address that is answered changes only bytes of the runs that translation gives. -/
theorem writeVa_outside {s t : State} {acc : Access} {va a : Nat} {bs : List Byte} {runs : List (Nat × Nat)}
    (hs : spread s { acc with want := .write } va bs.length = .ok runs) (h : s.writeVa acc va bs = .done t)
    (ha : ∀ r ∈ runs, a < r.1 ∨ r.1 + r.2 ≤ a) : t.byteAt a = s.byteAt a := by
  simp only [State.writeVa, hs] at h
  split at h
  · cases h
  · cases h
  · split at h
    · cases h
    · rename_i s1 h1
      cases h; exact writeRuns_outside h1 ha

/-- A write by virtual address that is answered keeps the canonical form of memory. -/
theorem writeVa_wf {s t : State} {acc : Access} {va : Nat} {bs : List Byte} (h : s.writeVa acc va bs = .done t) (hw : Memory.wf s = true) :
    Memory.wf t = true := by
  unfold State.writeVa at h
  split at h
  · cases h
  · cases h
  · split at h
    · cases h
    · cases h
    · split at h
      · cases h
      · rename_i s1 h1
        cases h; exact writeRuns_wf h1 hw

/-- A read by virtual address that is answered went by the runs that translation gives: no peer has refused it, none has still to answer. -/
theorem readVa_done {s : State} {acc : Access} {va n : Nat} {bs : List Byte} {bad : Bool} (h : s.readVa acc va n = .done (bs, bad)) :
    ∃ runs, spread s { acc with want := .read } va n = .ok runs ∧ runsStand s runs = none ∧ unread s acc va runs = none ∧ peerRefusal s acc va = none ∧
      bs = s.readRuns acc runs ∧ bad = s.runsPoisoned acc runs := by
  unfold State.readVa at h
  split at h
  · cases h
  · cases h
  · cases h
  · rename_i runs hp hr
    unfold State.readAt at h
    split at h
    · cases h
    · cases h
    · cases h
    · rename_i h1 h2
      cases h; exact ⟨runs, hr, h1, h2, hp, rfl, rfl⟩

end Sys2Proof.Machine
end

