-- ==== Sys2Proof/Laws/Fire.lean ====
section
/-! SUPPORT. The firing of a slot: what a firing comes to by how it is judged. -/

namespace Sys2Proof.Machine

/-- A token sent to both targets of a word of a region that has just been put. -/
theorem toBoth_setRegion (f : Fab) (s : State) (k : Nat) (r : Region) (t : Token) :
    toBoth f (s.setRegion k r) k t = s.setRegion k (r.sendBoth f t) := by simp [toBoth]

section
variable {i : Instr} {ty : Port → LaneTy} {j : Firing → Judged} {act : State → Nat → Nat → Nat → Firing → State}
  {other : State → Nat → Nat → Firing → Token → State} {fin : State → Nat → Nat → Token → State} {s : State} {rid slot ctx : Nat} {r : Region}
  {set : CandSet} {span : Span}

/-- The region after a firing: the set is emitted, tokens past their last firing are gone, and an instruction that cannot be replayed marks it. -/
def afterSet (i : Instr) (r : Region) (slot ctx : Nat) (set : CandSet) : Region :=
  let r1 := r.setNode slot ctx (afterFiring i (r.node slot ctx) set)
  if breaksReplay i then { r1 with unreplayable := true } else r1

/-- A firing without upset or consumed poison comes to what it is judged to be. -/
theorem fireWith_judged (hf : s.focus = .slot rid slot ctx) (hr : s.region? rid = some r) (hl : r.live = true)
    (hn : nextSet i (r.node slot ctx) = some set) (hs : set.span? = some span)
    (hb : slotReady i s r slot ctx (some (set.firing i ty span)) = true) (hu : s.upset = .none)
    (hp : consumesPoison i (set.firing i ty span) = false) :
    fireWith i ty j act other fin s = .next
      (match j (set.firing i ty span) with
        | .consumed => s.setRegion rid (afterSet i r slot ctx set)
        | .fault => other (s.setRegion rid (afterSet i r slot ctx set)) rid slot (set.firing i ty span) ((set.firing i ty span).faultResult ctx)
        | .null => other (s.setRegion rid (afterSet i r slot ctx set)) rid slot (set.firing i ty span) ((set.firing i ty span).nullResult ctx)
        | .ordinary => act (s.setRegion rid ((afterSet i r slot ctx set).raise slot ctx (set.firing i ty span).interpFlags)) rid slot ctx
            (set.firing i ty span)) := by
  simp only [fireWith, hf, hr, hn, hs]
  rw [if_neg (by simp [hl]), if_neg (by simp [hb]), if_neg (by simp [hu]), if_neg (by simp [hp])]
  simp only [hu]
  cases j (set.firing i ty span) <;> rfl

/-- An ordinary firing that computes raises its flags and sends one DATA token to both targets. -/
theorem computeFire_ordinary {f : Fab} {val : Nat → Firing → Computed} (hf : s.focus = .slot rid slot ctx) (hr : s.region? rid = some r)
    (hl : r.live = true) (hn : nextSet i (r.node slot ctx) = some set) (hs : set.span? = some span)
    (hb : slotReady i s r slot ctx (some (set.firing i ty span)) = true) (hu : s.upset = .none)
    (hp : consumesPoison i (set.firing i ty span) = false) (hj : judge f.pm (set.firing i ty span) = .ordinary) :
    computeFire i f ty s val = .next (s.setRegion rid
      ((((afterSet i r slot ctx set).raise slot ctx (set.firing i ty span).interpFlags).raise slot ctx (val ctx (set.firing i ty span)).flags).sendBoth f
        ((set.firing i ty span).result ctx .data (val ctx (set.firing i ty span)).pred (val ctx (set.firing i ty span)).lanes))) := by
  simp only [computeFire, fire, fireWith_judged hf hr hl hn hs hb hu hp, hj, State.setRegion_region_self, State.setRegion_setRegion, toBoth_setRegion]

/-- A slot that is not in focus, whatever its instruction, does nothing. -/
theorem fireWith_idle (hf : s.focus = .idle) : fireWith i ty j act other fin s = .next s := by simp [fireWith, hf]

end

end Sys2Proof.Machine
end

