-- ==== Sys2Proof/Laws/Issue.lean ====
section
/-! SUPPORT. The issue of sequencer words: what running a word for the queue in focus comes to, by what its effect is; what a trap and a
retirement leave of the queue. -/

namespace Sys2Proof.Machine

/-- A word of the queue in focus has its effect and its turn ends. -/
theorem runWord_focus {raw : Nat} {h : Hdr} {s : State} {lq q : Nat} (hf : s.focus = .queue lq q) (f : Nat → Nat → Queue → WordResult) :
    runWord raw h s f = .next (finishWord s lq q raw h (f lq q (s.queueOf lq q))) := by simp [runWord, hf]

/-- A word that only writes registers retires in the state with the queue so written. -/
theorem regWord_focus {raw : Nat} {h : Hdr} {s : State} {lq q : Nat} (hf : s.focus = .queue lq q) (f : Queue → Queue) :
    regWord raw h s f = .next (retireWord s (s.setQueue lq q (f (s.queueOf lq q))) lq q raw (sigOf h) .next) := by
  simp [regWord, runWord_focus hf, finishWord]

/-- A system word that no other queue goes before has its effect in the state in which the port has served its queue. -/
theorem systemWord_first {raw : Nat} {h : Hdr} {s : State} {lq q : Nat} (hf : s.focus = .queue lq q) (hp : (s.queueOf lq q).phase ≠ .issued)
    (hr : rival s lq q .system = false) (f : State → Nat → Nat → Queue → WordResult) :
    systemWord raw h s f = .next (finishWord s lq q raw h (f (served s lq q .system) lq q (s.queueOf lq q))) := by
  simp [systemWord, runWord_focus hf, hp, hr]

/-- A system word that another queue goes before waits at the port. -/
theorem systemWord_rival {raw : Nat} {h : Hdr} {s : State} {lq q : Nat} (hf : s.focus = .queue lq q) (hp : (s.queueOf lq q).phase ≠ .issued)
    (hr : rival s lq q .system = true) (f : State → Nat → Nat → Queue → WordResult) : systemWord raw h s f = .next (waitWord s lq q .port 0 0 0) := by
  simp [systemWord, runWord_focus hf, hp, hr, finishWord]

/-- A system word that has had the port goes on, whoever else is ready for it. -/
theorem systemWord_issued {raw : Nat} {h : Hdr} {s : State} {lq q : Nat} (hf : s.focus = .queue lq q) (hp : (s.queueOf lq q).phase = .issued)
    (f : State → Nat → Nat → Queue → WordResult) : systemWord raw h s f = .next (finishWord s lq q raw h (f s lq q (s.queueOf lq q))) := by
  simp [systemWord, runWord_focus hf, hp]

section
variable {raw : Nat} {h : Hdr} {o : OpE} {s : State} {lq q : Nat} {check : Cmd → Option (Nat × Nat)} {accept : State → Cmd → WordResult}

/-- An engine word addressed to a unit the part lacks traps. -/
theorem engineWord_absent (hf : s.focus = .queue lq q) (ha : absentUnit s raw = true) :
    engineWord raw h o s check accept = .next (s.trap lq q codeAbsent raw 0 0) := by
  simp [engineWord, runWord_focus hf, ha, finishWord]

/-- An engine word that its unit's check refuses traps with the check's code. -/
theorem engineWord_refused {code va : Nat} (hf : s.focus = .queue lq q) (ha : absentUnit s raw = false)
    (hc : check (mkCmd s lq q (s.queueOf lq q) raw h o) = some (code, va)) :
    engineWord raw h o s check accept = .next (s.trap lq q code raw va 0) := by
  simp [engineWord, runWord_focus hf, ha, hc, finishWord]

/-- An engine word that its target's access table refuses traps. -/
theorem engineWord_denied (hf : s.focus = .queue lq q) (ha : absentUnit s raw = false)
    (hc : check (mkCmd s lq q (s.queueOf lq q) raw h o) = none) (hp : commandPasses s lq raw = false) :
    engineWord raw h o s check accept = .next (s.trap lq q codeDenied raw 0 0) := by
  simp [engineWord, runWord_focus hf, ha, hc, hp, finishWord]

/-- An engine word that another queue goes before, or whose unit has no room, waits at the port. -/
theorem engineWord_waits (hf : s.focus = .queue lq q) (ha : absentUnit s raw = false)
    (hc : check (mkCmd s lq q (s.queueOf lq q) raw h o) = none) (hp : commandPasses s lq raw = true)
    (hw : rival s lq q .engine = true ∨ canAccept s lq raw = false) :
    engineWord raw h o s check accept = .next (waitWord s lq q .port 0 0 0) := by
  rcases hw with hw | hw <;> simp [engineWord, runWord_focus hf, ha, hc, hp, hw, finishWord]

/-- An engine word that nothing holds back has the effect its engine gives it. -/
theorem engineWord_goes (hf : s.focus = .queue lq q) (ha : absentUnit s raw = false)
    (hc : check (mkCmd s lq q (s.queueOf lq q) raw h o) = none) (hp : commandPasses s lq raw = true)
    (hr : rival s lq q .engine = false) (hr' : canAccept s lq raw = true) :
    engineWord raw h o s check accept =
      .next (finishWord s lq q raw h (accept (served s lq q .engine) (mkCmd s lq q (s.queueOf lq q) raw h o))) := by
  simp [engineWord, runWord_focus hf, ha, hc, hp, hr, hr']

end

/-- A trap leaves the queue TRAPPED. -/
theorem trap_queue_st (s : State) (lq q code w a0 a1 : Nat) : ((s.trap lq q code w a0 a1).queueOf lq q).st = .trapped := by simp [State.trap, Queue.trapped]
/-- A trap leaves the queue at its word. -/
theorem trap_queue_pc (s : State) (lq q code w a0 a1 : Nat) : ((s.trap lq q code w a0 a1).queueOf lq q).pc = (s.queueOf lq q).pc := by
  simp [State.trap, Queue.trapped]
/-- A trap changes no register of the queue. -/
theorem trap_queue_regs (s : State) (lq q code w a0 a1 : Nat) : ((s.trap lq q code w a0 a1).queueOf lq q).regs = (s.queueOf lq q).regs := by
  simp [State.trap, Queue.trapped]
/-- A trap changes no byte of memory. -/
theorem trap_byteAt (s : State) (lq q code w a0 a1 a : Nat) : (s.trap lq q code w a0 a1).byteAt a = s.byteAt a := by simp [State.trap, Queue.trapped]
/-- A trap changes no region. -/
theorem trap_regions (s : State) (lq q code w a0 a1 : Nat) : (s.trap lq q code w a0 a1).regions = s.regions := by simp [State.trap, Queue.trapped]

/-- What retirement can come to: LOOP_ENTRY in the state before the word's effect; SEM_OVERFLOW in the state after it; or the queue put
with its new PC and frames, the signalled semaphore with it. -/
theorem retireWord_cases (s0 s : State) (lq q raw : Nat) (sig : Option (Nat × Nat)) (f : Flow) :
    ((s.queueOf lq q).flow f = none ∧ retireWord s0 s lq q raw sig f = s0.trap lq q codeLoopEntry raw 0 0) ∨
    ∃ y, (s.queueOf lq q).flow f = some y ∧
      let w := { y.settled with wait := y.wait.hold s.cycle }
      ((sig = none ∧ retireWord s0 s lq q raw sig f = (s.dropWordReads lq q).setQueue lq q w) ∨
       (∃ n v, sig = some (n, v) ∧ (s.quadOf lq).addSem n v = none ∧ retireWord s0 s lq q raw sig f = s.trap lq q codeSemOverflow raw 0 0) ∨
       ∃ n v z, sig = some (n, v) ∧ (s.quadOf lq).addSem n v = some z ∧ retireWord s0 s lq q raw sig f = (s.dropWordReads lq q).setQuad lq (z.setQueue q w)) := by
  cases hx : (s.queueOf lq q).flow f with
  | none => exact .inl ⟨rfl, by simp [retireWord, hx]⟩
  | some y =>
    refine .inr ⟨y, rfl, ?_⟩
    cases sig with
    | none => exact .inl ⟨rfl, by simp [retireWord, hx]⟩
    | some e =>
      obtain ⟨n, v⟩ := e
      cases ha : (s.quadOf lq).addSem n v with
      | none => exact .inr (.inl ⟨n, v, rfl, ha, by simp [retireWord, hx, ha]⟩)
      | some z => exact .inr (.inr ⟨n, v, z, rfl, ha, by simp [retireWord, hx, ha]⟩)

/-- Retirement to the next word, no signal and no loop body ending there: the PC moves on by 16. -/
theorem flow_next {x : Queue} (h : ∀ f ∈ x.loops.head?, f.last ≠ x.pc) : x.flow .next = some { x with pc := x.pc + 16 } := by
  rcases hx : x.loops with _ | ⟨f, fs⟩
  · simp [Queue.flow, loopEnd, hx]
  · have := h f (by simp [hx])
    simp [Queue.flow, loopEnd, hx, this]

end Sys2Proof.Machine
end

