-- ==== Sys2Proof/Laws/PerInstr.lean ====
section
/-! SUPPORT. Laws of every instruction as syntax. `EncodesWithin`: what the encoder writes is a word of 64 or 128 bits. -/

namespace Sys2Proof.Laws.EncodesWithin

/-- What the encoder writes for an instruction fits the number of bits it names, 64 or 128 (R89, R98). -/
def Statement (i : Instr) : Prop := ∀ n w, encode i = some (n, w) → (n = 64 ∨ n = 128) ∧ w < 2 ^ n

theorem laneTyCode_lt (t : LaneTy) : laneTyCode t < 16 := by cases t <;> decide
theorem gapCode_lt (g : Gap) : gapCode g < 4 := by cases g <;> decide
theorem pmCode_lt (p : Pm) : pmCode p < 4 := by cases p <;> decide
theorem portCode_lt (p : Port) : portCode p < 4 := by cases p <;> decide
theorem b2n_lt (b : Bool) : b2n b < 2 := by cases b <;> decide
theorem targetCode_lt (t : Option Target) : targetCode t < 512 := by
  cases t with
  | none => decide
  | some t => have := t.slot.isLt; have := portCode_lt t.port; simp only [targetCode]; omega

/-- A fabric word has 64 bits. -/
theorem encodeFab_lt (op : Nat) (f : Fab) (h : op < 256) : encodeFab op f < 2 ^ 64 := by
  have := laneTyCode_lt f.ty; have := gapCode_lt f.ga; have := gapCode_lt f.gb; have := pmCode_lt f.pm
  have := targetCode_lt f.t0; have := targetCode_lt f.t1; have := b2n_lt f.imf; have := f.sub.isLt; have := f.imm.isLt
  simp only [encodeFab]; omega

/-- A sequencer word has 128 bits. -/
theorem encodeSeq_lt (op : Nat) (h : Hdr) (x : SeqOperands) (ho : op < 256) : encodeSeq op h x < 2 ^ 128 := by
  have := b2n_lt h.we; have := h.wsem.isLt; have := h.wthr.isLt; have := b2n_lt h.se; have := h.ssem.isLt; have := h.inc.isLt
  have hx : encodeOperands x < 2 ^ 80 := by
    cases x with
    | formatA a =>
      have := a.qd.isLt; have := a.qs.isLt; have := a.qt.isLt; have := b2n_lt a.b64; have := a.imm.isLt
      simp only [encodeOperands]; omega
    | formatE e =>
      have := e.qd.isLt; have := e.qs.isLt; have := e.qt.isLt; have := e.qv.isLt; have := e.unit.isLt; have := e.sub.isLt; have := e.imm.isLt
      simp only [encodeOperands]; omega
  simp only [encodeSeq, encodeHdr]; omega

/-- The statement for an instruction that the fabric encoder writes. -/
theorem of_fabric {i : Instr} {op : Nat} {f : Fab} (h : fabricParts i = some (op, f)) (ho : op < 256) : Statement i := by
  intro n w hw
  simp only [encode, h] at hw
  cases hw
  exact ⟨.inl rfl, encodeFab_lt op f ho⟩

/-- The statement for an instruction that the sequencer encoder writes. -/
theorem of_sequencer {i : Instr} {op : Nat} {hd : Hdr} {x : SeqOperands} (hf : fabricParts i = none) (h : sequencerParts i = some (op, hd, x))
    (ho : op < 256) : Statement i := by
  intro n w hw
  simp only [encode, hf, h] at hw
  cases hw
  exact ⟨.inr rfl, encodeSeq_lt op hd x ho⟩

/-- The statement for an event, which has no word. -/
theorem of_event {i : Instr} (h : encode i = none) : Statement i := by
  intro n w hw
  simp only [h] at hw
  cases hw

theorem powerOnReset (writes : List RegWrite) : Statement (.powerOnReset writes) := of_event rfl
theorem thermalLimit : Statement (.thermalLimit) := of_event rfl
theorem attestationReport (nonce : List Byte) : Statement (.attestationReport nonce) := of_event rfl
theorem dtimeAdjust (off : Word64) : Statement (.dtimeAdjust off) := of_event rfl
theorem tsyncStart (port : Nat) (v : Word64) : Statement (.tsyncStart port v) := of_event rfl
theorem tsyncRequestArrival (port : Nat) (t1 : Word64) : Statement (.tsyncRequestArrival port t1) := of_event rfl
theorem tsyncReply (port : Nat) (t1 t2 t3 : Word64) : Statement (.tsyncReply port t1 t2 t3) := of_event rfl
theorem launchDoorbell (p k : Nat) (v : Word64) : Statement (.launchDoorbell p k v) := of_event rfl
theorem launchRecordTake (p k : Nat) : Statement (.launchRecordTake p k) := of_event rfl
theorem launchStart (l : Nat) : Statement (.launchStart l) := of_event rfl
theorem priorityAging (l : Nat) : Statement (.priorityAging l) := of_event rfl
theorem launchEnd (l : Nat) : Statement (.launchEnd l) := of_event rfl
theorem phaseEnd (r : Nat) : Statement (.phaseEnd r) := of_event rfl
theorem replicaAdd (l stage : Nat) : Statement (.replicaAdd l stage) := of_event rfl
theorem replicaRemove (l stage : Nat) : Statement (.replicaRemove l stage) := of_event rfl
theorem rangeSplitRequest (r slot : Nat) : Statement (.rangeSplitRequest r slot) := of_event rfl
theorem turnChange (pq : Nat) : Statement (.turnChange pq) := of_event rfl
theorem tokenArrival (r slot port : Nat) : Statement (.tokenArrival r slot port) := of_event rfl
theorem spillReturn (r pe set : Nat) : Statement (.spillReturn r pe set) := of_event rfl
theorem deadlockDetect (r : Nat) : Statement (.deadlockDetect r) := of_event rfl
theorem replayPoint (r : Nat) : Statement (.replayPoint r) := of_event rfl
theorem faultRecordWrite (p : Nat) : Statement (.faultRecordWrite p) := of_event rfl
theorem memoryRequestAccept (lq mt : Nat) : Statement (.memoryRequestAccept lq mt) := of_event rfl
theorem pageWalkComplete (pq n : Nat) : Statement (.pageWalkComplete pq n) := of_event rfl
theorem accessPerformAtHome (id : Nat) : Statement (.accessPerformAtHome id) := of_event rfl
theorem rmwPipelineUpdate (id : Nat) : Statement (.rmwPipelineUpdate id) := of_event rfl
theorem mtReplyRelease (r slot : Nat) : Statement (.mtReplyRelease r slot) := of_event rfl
theorem stairTransferFailure (pq bank : Nat) : Statement (.stairTransferFailure pq bank) := of_event rfl
theorem evacuationComplete (hall slot : Nat) : Statement (.evacuationComplete hall slot) := of_event rfl
theorem preemptionDecision (l : Nat) : Statement (.preemptionDecision l) := of_event rfl
theorem preemptReadoutComplete (image lq : Nat) : Statement (.preemptReadoutComplete image lq) := of_event rfl
theorem lateReplyIntoImage (image id : Nat) : Statement (.lateReplyIntoImage image id) := of_event rfl
theorem launchRestore (l : Nat) : Statement (.launchRestore l) := of_event rfl
theorem bceCommandStart (lq ch : Nat) : Statement (.bceCommandStart lq ch) := of_event rfl
theorem bceGranuleTransfer (lq ch : Nat) : Statement (.bceGranuleTransfer lq ch) := of_event rfl
theorem bceCommandComplete (lq ch : Nat) : Statement (.bceCommandComplete lq ch) := of_event rfl
theorem mxtCommandStart (lq m : Nat) : Statement (.mxtCommandStart lq m) := of_event rfl
theorem mxtGroupApply (lq m : Nat) : Statement (.mxtGroupApply lq m) := of_event rfl
theorem accoutTokenEmit (lq m : Nat) : Statement (.accoutTokenEmit lq m) := of_event rfl
theorem cruLeafArrival (p n : Nat) : Statement (.cruLeafArrival p n) := of_event rfl
theorem cruDeadline (p gid : Nat) : Statement (.cruDeadline p gid) := of_event rfl
theorem pseCommandPerform (hall tree : Nat) : Statement (.pseCommandPerform hall tree) := of_event rfl
theorem gmeCommandPerform (hall : Nat) : Statement (.gmeCommandPerform hall) := of_event rfl
theorem vieFrameDecoded (stream : Nat) (frame : Frame) : Statement (.vieFrameDecoded stream frame) := of_event rfl
theorem vieFrameJudge (stream : Nat) : Statement (.vieFrameJudge stream) := of_event rfl
theorem hostAccess (fn : HostFn) (acc : HostAcc) : Statement (.hostAccess fn acc) := of_event rfl
theorem cxlMemAccess (p off : Nat) (acc : HostAcc) : Statement (.cxlMemAccess p off acc) := of_event rfl
theorem linkFlitReceive (port : Nat) (flit : List Byte) : Statement (.linkFlitReceive port flit) := of_event rfl
theorem peerRequestArrival (port : Nat) : Statement (.peerRequestArrival port) := of_event rfl
theorem linkResendTimeout (port seq : Nat) : Statement (.linkResendTimeout port seq) := of_event rfl
theorem linkRetrainTimeout (port : Nat) : Statement (.linkRetrainTimeout port) := of_event rfl
theorem partitionReset (p : Nat) : Statement (.partitionReset p) := of_event rfl
theorem partitionResetDone (p : Nat) : Statement (.partitionResetDone p) := of_event rfl
theorem qsqStart (lq : Nat) (v : Word64) : Statement (.qsqStart lq v) := of_event rfl
theorem qsqPcWrite (lq q : Nat) (v : Word64) : Statement (.qsqPcWrite lq q v) := of_event rfl
theorem qsqQctlWrite (lq q : Nat) (v : Word64) : Statement (.qsqQctlWrite lq q v) := of_event rfl
theorem semWrite (lq n : Nat) (v : Word64) : Statement (.semWrite lq n v) := of_event rfl
theorem qsqMxmodeWrite (lq q : Nat) (v : Word64) : Statement (.qsqMxmodeWrite lq q v) := of_event rfl
theorem bceResume (lq ch : Nat) : Statement (.bceResume lq ch) := of_event rfl
theorem bceDiscard (lq ch : Nat) : Statement (.bceDiscard lq ch) := of_event rfl
theorem peBrkRelease (pq pe : Nat) : Statement (.peBrkRelease pq pe) := of_event rfl
theorem sysLqpartWrite (lq : Nat) (v : Word64) : Statement (.sysLqpartWrite lq v) := of_event rfl
theorem sysCtxownWrite (c : Nat) (v : Word64) : Statement (.sysCtxownWrite c v) := of_event rfl
theorem sysSaveWrite (p : Nat) (v : Word64) : Statement (.sysSaveWrite p v) := of_event rfl
theorem sysLqbaseWrite (p k : Nat) (v : Word64) : Statement (.sysLqbaseWrite p k v) := of_event rfl
theorem qosWordWrite (a : Nat) (v : Word64) : Statement (.qosWordWrite a v) := of_event rfl
theorem registerWrite (a : Nat) (v : Word64) : Statement (.registerWrite a v) := of_event rfl
theorem input (f : Fab) : Statement (.input f) := of_fabric rfl (by decide)
theorem output (f : Fab) : Statement (.output f) := of_fabric rfl (by decide)
theorem const (f : Fab) : Statement (.const f) := of_fabric rfl (by decide)
theorem nullgen (f : Fab) : Statement (.nullgen f) := of_fabric rfl (by decide)
theorem copy (f : Fab) : Statement (.copy f) := of_fabric rfl (by decide)
theorem drop (f : Fab) : Statement (.drop f) := of_fabric rfl (by decide)
theorem steer (f : Fab) : Statement (.steer f) := of_fabric rfl (by decide)
theorem merge (f : Fab) : Statement (.merge f) := of_fabric rfl (by decide)
theorem omerge (f : Fab) : Statement (.omerge f) := of_fabric rfl (by decide)
theorem lcarry (f : Fab) : Statement (.lcarry f) := of_fabric rfl (by decide)
theorem lexit (f : Fab) : Statement (.lexit f) := of_fabric rfl (by decide)
theorem ends (f : Fab) : Statement (.ends f) := of_fabric rfl (by decide)
theorem gate (f : Fab) : Statement (.gate f) := of_fabric rfl (by decide)
theorem sel (f : Fab) : Statement (.sel f) := of_fabric rfl (by decide)
theorem join (f : Fab) : Statement (.join f) := of_fabric rfl (by decide)
theorem bartok (f : Fab) : Statement (.bartok f) := of_fabric rfl (by decide)
theorem spanset (f : Fab) : Statement (.spanset f) := of_fabric rfl (by decide)
theorem spanshift (f : Fab) : Statement (.spanshift f) := of_fabric rfl (by decide)
theorem spanclip (f : Fab) : Statement (.spanclip f) := of_fabric rfl (by decide)
theorem stale (f : Fab) : Statement (.stale f) := of_fabric rfl (by decide)
theorem rangeMake (f : Fab) : Statement (.rangeMake f) := of_fabric rfl (by decide)
theorem rangeExpand (f : Fab) : Statement (.rangeExpand f) := of_fabric rfl (by decide)
theorem ctxnew (f : Fab) : Statement (.ctxnew f) := of_fabric rfl (by decide)
theorem ctxfree (f : Fab) : Statement (.ctxfree f) := of_fabric rfl (by decide)
theorem spawn (f : Fab) : Statement (.spawn f) := of_fabric rfl (by decide)
theorem add (f : Fab) : Statement (.add f) := of_fabric rfl (by decide)
theorem sub (f : Fab) : Statement (.sub f) := of_fabric rfl (by decide)
theorem mul (f : Fab) : Statement (.mul f) := of_fabric rfl (by decide)
theorem mulh (f : Fab) : Statement (.mulh f) := of_fabric rfl (by decide)
theorem mad (f : Fab) : Statement (.mad f) := of_fabric rfl (by decide)
theorem div (f : Fab) : Statement (.div f) := of_fabric rfl (by decide)
theorem rem (f : Fab) : Statement (.rem f) := of_fabric rfl (by decide)
theorem neg (f : Fab) : Statement (.neg f) := of_fabric rfl (by decide)
theorem abs (f : Fab) : Statement (.abs f) := of_fabric rfl (by decide)
theorem min (f : Fab) : Statement (.min f) := of_fabric rfl (by decide)
theorem max (f : Fab) : Statement (.max f) := of_fabric rfl (by decide)
theorem adds (f : Fab) : Statement (.adds f) := of_fabric rfl (by decide)
theorem subs (f : Fab) : Statement (.subs f) := of_fabric rfl (by decide)
theorem avg (f : Fab) : Statement (.avg f) := of_fabric rfl (by decide)
theorem cmp (f : Fab) : Statement (.cmp f) := of_fabric rfl (by decide)
theorem idx (f : Fab) : Statement (.idx f) := of_fabric rfl (by decide)
theorem and (f : Fab) : Statement (.and f) := of_fabric rfl (by decide)
theorem or (f : Fab) : Statement (.or f) := of_fabric rfl (by decide)
theorem xor (f : Fab) : Statement (.xor f) := of_fabric rfl (by decide)
theorem not (f : Fab) : Statement (.not f) := of_fabric rfl (by decide)
theorem shl (f : Fab) : Statement (.shl f) := of_fabric rfl (by decide)
theorem shr (f : Fab) : Statement (.shr f) := of_fabric rfl (by decide)
theorem sar (f : Fab) : Statement (.sar f) := of_fabric rfl (by decide)
theorem rot (f : Fab) : Statement (.rot f) := of_fabric rfl (by decide)
theorem popc (f : Fab) : Statement (.popc f) := of_fabric rfl (by decide)
theorem clz (f : Fab) : Statement (.clz f) := of_fabric rfl (by decide)
theorem ctz (f : Fab) : Statement (.ctz f) := of_fabric rfl (by decide)
theorem bfe (f : Fab) : Statement (.bfe f) := of_fabric rfl (by decide)
theorem bfi (f : Fab) : Statement (.bfi f) := of_fabric rfl (by decide)
theorem fadd (f : Fab) : Statement (.fadd f) := of_fabric rfl (by decide)
theorem fsub (f : Fab) : Statement (.fsub f) := of_fabric rfl (by decide)
theorem fmul (f : Fab) : Statement (.fmul f) := of_fabric rfl (by decide)
theorem fma (f : Fab) : Statement (.fma f) := of_fabric rfl (by decide)
theorem fmin (f : Fab) : Statement (.fmin f) := of_fabric rfl (by decide)
theorem fmax (f : Fab) : Statement (.fmax f) := of_fabric rfl (by decide)
theorem fabs (f : Fab) : Statement (.fabs f) := of_fabric rfl (by decide)
theorem fneg (f : Fab) : Statement (.fneg f) := of_fabric rfl (by decide)
theorem fcmp (f : Fab) : Statement (.fcmp f) := of_fabric rfl (by decide)
theorem fdiv (f : Fab) : Statement (.fdiv f) := of_fabric rfl (by decide)
theorem frcp (f : Fab) : Statement (.frcp f) := of_fabric rfl (by decide)
theorem fsqrt (f : Fab) : Statement (.fsqrt f) := of_fabric rfl (by decide)
theorem frsq (f : Fab) : Statement (.frsq f) := of_fabric rfl (by decide)
theorem fexp2 (f : Fab) : Statement (.fexp2 f) := of_fabric rfl (by decide)
theorem flog2 (f : Fab) : Statement (.flog2 f) := of_fabric rfl (by decide)
theorem fsig (f : Fab) : Statement (.fsig f) := of_fabric rfl (by decide)
theorem ftanh (f : Fab) : Statement (.ftanh f) := of_fabric rfl (by decide)
theorem fscale (f : Fab) : Statement (.fscale f) := of_fabric rfl (by decide)
theorem fclass (f : Fab) : Statement (.fclass f) := of_fabric rfl (by decide)
theorem frnd (f : Fab) : Statement (.frnd f) := of_fabric rfl (by decide)
theorem perm (f : Fab) : Statement (.perm f) := of_fabric rfl (by decide)
theorem bcast (f : Fab) : Statement (.bcast f) := of_fabric rfl (by decide)
theorem lrot (f : Fab) : Statement (.lrot f) := of_fabric rfl (by decide)
theorem lsum (f : Fab) : Statement (.lsum f) := of_fabric rfl (by decide)
theorem lmax (f : Fab) : Statement (.lmax f) := of_fabric rfl (by decide)
theorem flsum (f : Fab) : Statement (.flsum f) := of_fabric rfl (by decide)
theorem fldot (f : Fab) : Statement (.fldot f) := of_fabric rfl (by decide)
theorem cvt (f : Fab) : Statement (.cvt f) := of_fabric rfl (by decide)
theorem pack (f : Fab) : Statement (.pack f) := of_fabric rfl (by decide)
theorem unpack (f : Fab) : Statement (.unpack f) := of_fabric rfl (by decide)
theorem ld (f : Fab) : Statement (.ld f) := of_fabric rfl (by decide)
theorem ldc (f : Fab) : Statement (.ldc f) := of_fabric rfl (by decide)
theorem st (f : Fab) : Statement (.st f) := of_fabric rfl (by decide)
theorem ord (f : Fab) : Statement (.ord f) := of_fabric rfl (by decide)
theorem atom (f : Fab) : Statement (.atom f) := of_fabric rfl (by decide)
theorem red (f : Fab) : Statement (.red f) := of_fabric rfl (by decide)
theorem acq (f : Fab) : Statement (.acq f) := of_fabric rfl (by decide)
theorem fence (f : Fab) : Statement (.fence f) := of_fabric rfl (by decide)
theorem publish (f : Fab) : Statement (.publish f) := of_fabric rfl (by decide)
theorem pref (f : Fab) : Statement (.pref f) := of_fabric rfl (by decide)
theorem wptr (f : Fab) : Statement (.wptr f) := of_fabric rfl (by decide)
theorem waitwp (f : Fab) : Statement (.waitwp f) := of_fabric rfl (by decide)
theorem trap (f : Fab) : Statement (.trap f) := of_fabric rfl (by decide)
theorem brk (f : Fab) : Statement (.brk f) := of_fabric rfl (by decide)
theorem li (h : Hdr) (o : OpA) : Statement (.li h o) := of_sequencer rfl rfl (by decide)
theorem addi (h : Hdr) (o : OpA) : Statement (.addi h o) := of_sequencer rfl rfl (by decide)
theorem scalarAdd (h : Hdr) (o : OpA) : Statement (.scalarAdd h o) := of_sequencer rfl rfl (by decide)
theorem scalarSub (h : Hdr) (o : OpA) : Statement (.scalarSub h o) := of_sequencer rfl rfl (by decide)
theorem scalarAnd (h : Hdr) (o : OpA) : Statement (.scalarAnd h o) := of_sequencer rfl rfl (by decide)
theorem scalarOr (h : Hdr) (o : OpA) : Statement (.scalarOr h o) := of_sequencer rfl rfl (by decide)
theorem scalarXor (h : Hdr) (o : OpA) : Statement (.scalarXor h o) := of_sequencer rfl rfl (by decide)
theorem scalarShl (h : Hdr) (o : OpA) : Statement (.scalarShl h o) := of_sequencer rfl rfl (by decide)
theorem scalarShr (h : Hdr) (o : OpA) : Statement (.scalarShr h o) := of_sequencer rfl rfl (by decide)
theorem scalarSar (h : Hdr) (o : OpA) : Statement (.scalarSar h o) := of_sequencer rfl rfl (by decide)
theorem scalarMul (h : Hdr) (o : OpA) : Statement (.scalarMul h o) := of_sequencer rfl rfl (by decide)
theorem slt (h : Hdr) (o : OpA) : Statement (.slt h o) := of_sequencer rfl rfl (by decide)
theorem sltu (h : Hdr) (o : OpA) : Statement (.sltu h o) := of_sequencer rfl rfl (by decide)
theorem ldq (h : Hdr) (o : OpA) : Statement (.ldq h o) := of_sequencer rfl rfl (by decide)
theorem stq (h : Hdr) (o : OpA) : Statement (.stq h o) := of_sequencer rfl rfl (by decide)
theorem br (h : Hdr) (o : OpA) : Statement (.br h o) := of_sequencer rfl rfl (by decide)
theorem brc (h : Hdr) (o : OpA) : Statement (.brc h o) := of_sequencer rfl rfl (by decide)
theorem call (h : Hdr) (o : OpA) : Statement (.call h o) := of_sequencer rfl rfl (by decide)
theorem ret (h : Hdr) (o : OpA) : Statement (.ret h o) := of_sequencer rfl rfl (by decide)
theorem loop (h : Hdr) (o : OpA) : Statement (.loop h o) := of_sequencer rfl rfl (by decide)
theorem yield (h : Hdr) (o : OpA) : Statement (.yield h o) := of_sequencer rfl rfl (by decide)
theorem halt (h : Hdr) (o : OpA) : Statement (.halt h o) := of_sequencer rfl rfl (by decide)
theorem wait (h : Hdr) (o : OpA) : Statement (.wait h o) := of_sequencer rfl rfl (by decide)
theorem sig (h : Hdr) (o : OpA) : Statement (.sig h o) := of_sequencer rfl rfl (by decide)
theorem semset (h : Hdr) (o : OpA) : Statement (.semset h o) := of_sequencer rfl rfl (by decide)
theorem semrd (h : Hdr) (o : OpA) : Statement (.semrd h o) := of_sequencer rfl rfl (by decide)
theorem nbarr (h : Hdr) (o : OpA) : Statement (.nbarr h o) := of_sequencer rfl rfl (by decide)
theorem nbwait (h : Hdr) (o : OpA) : Statement (.nbwait h o) := of_sequencer rfl rfl (by decide)
theorem taskdef (h : Hdr) (o : OpA) : Statement (.taskdef h o) := of_sequencer rfl rfl (by decide)
theorem taskdone (h : Hdr) (o : OpA) : Statement (.taskdone h o) := of_sequencer rfl rfl (by decide)
theorem tasknext (h : Hdr) (o : OpA) : Statement (.tasknext h o) := of_sequencer rfl rfl (by decide)
theorem launch (h : Hdr) (o : OpE) : Statement (.launch h o) := of_sequencer rfl rfl (by decide)
theorem cfgload (h : Hdr) (o : OpE) : Statement (.cfgload h o) := of_sequencer rfl rfl (by decide)
theorem qwait (h : Hdr) (o : OpE) : Statement (.qwait h o) := of_sequencer rfl rfl (by decide)
theorem bceCopy (h : Hdr) (o : OpE) : Statement (.bceCopy h o) := of_sequencer rfl rfl (by decide)
theorem copymx (h : Hdr) (o : OpE) : Statement (.copymx h o) := of_sequencer rfl rfl (by decide)
theorem copysh (h : Hdr) (o : OpE) : Statement (.copysh h o) := of_sequencer rfl rfl (by decide)
theorem gather (h : Hdr) (o : OpE) : Statement (.gather h o) := of_sequencer rfl rfl (by decide)
theorem scatter (h : Hdr) (o : OpE) : Statement (.scatter h o) := of_sequencer rfl rfl (by decide)
theorem fill (h : Hdr) (o : OpE) : Statement (.fill h o) := of_sequencer rfl rfl (by decide)
theorem mma (h : Hdr) (o : OpE) : Statement (.mma h o) := of_sequencer rfl rfl (by decide)
theorem mmat (h : Hdr) (o : OpE) : Statement (.mmat h o) := of_sequencer rfl rfl (by decide)
theorem accinit (h : Hdr) (o : OpE) : Statement (.accinit h o) := of_sequencer rfl rfl (by decide)
theorem acccnt (h : Hdr) (o : OpE) : Statement (.acccnt h o) := of_sequencer rfl rfl (by decide)
theorem accout (h : Hdr) (o : OpE) : Statement (.accout h o) := of_sequencer rfl rfl (by decide)
theorem accdrain (h : Hdr) (o : OpE) : Statement (.accdrain h o) := of_sequencer rfl rfl (by decide)
theorem accpart (h : Hdr) (o : OpE) : Statement (.accpart h o) := of_sequencer rfl rfl (by decide)
theorem mxcfgMode (h : Hdr) (o : OpE) : Statement (.mxcfgMode h o) := of_sequencer rfl rfl (by decide)
theorem mxcfgPolicy (h : Hdr) (o : OpE) : Statement (.mxcfgPolicy h o) := of_sequencer rfl rfl (by decide)
theorem ovfstat (h : Hdr) (o : OpE) : Statement (.ovfstat h o) := of_sequencer rfl rfl (by decide)
theorem cred (h : Hdr) (o : OpE) : Statement (.cred h o) := of_sequencer rfl rfl (by decide)
theorem crfix (h : Hdr) (o : OpE) : Statement (.crfix h o) := of_sequencer rfl rfl (by decide)
theorem crstat (h : Hdr) (o : OpE) : Statement (.crstat h o) := of_sequencer rfl rfl (by decide)
theorem stinit (h : Hdr) (o : OpE) : Statement (.stinit h o) := of_sequencer rfl rfl (by decide)
theorem stins (h : Hdr) (o : OpE) : Statement (.stins h o) := of_sequencer rfl rfl (by decide)
theorem stdraw (h : Hdr) (o : OpE) : Statement (.stdraw h o) := of_sequencer rfl rfl (by decide)
theorem stupd (h : Hdr) (o : OpE) : Statement (.stupd h o) := of_sequencer rfl rfl (by decide)
theorem stwgtBeta (h : Hdr) (o : OpE) : Statement (.stwgtBeta h o) := of_sequencer rfl rfl (by decide)
theorem stwgt (h : Hdr) (o : OpE) : Statement (.stwgt h o) := of_sequencer rfl rfl (by decide)
theorem ststat (h : Hdr) (o : OpE) : Statement (.ststat h o) := of_sequencer rfl rfl (by decide)
theorem pdaload (h : Hdr) (o : OpE) : Statement (.pdaload h o) := of_sequencer rfl rfl (by decide)
theorem pdastep (h : Hdr) (o : OpE) : Statement (.pdastep h o) := of_sequencer rfl rfl (by decide)
theorem mask (h : Hdr) (o : OpE) : Statement (.mask h o) := of_sequencer rfl rfl (by decide)
theorem sample (h : Hdr) (o : OpE) : Statement (.sample h o) := of_sequencer rfl rfl (by decide)
theorem gmcfg (h : Hdr) (o : OpE) : Statement (.gmcfg h o) := of_sequencer rfl rfl (by decide)
theorem gmstat (h : Hdr) (o : OpE) : Statement (.gmstat h o) := of_sequencer rfl rfl (by decide)
theorem vopen (h : Hdr) (o : OpE) : Statement (.vopen h o) := of_sequencer rfl rfl (by decide)
theorem vbind (h : Hdr) (o : OpE) : Statement (.vbind h o) := of_sequencer rfl rfl (by decide)
theorem vclose (h : Hdr) (o : OpE) : Statement (.vclose h o) := of_sequencer rfl rfl (by decide)
theorem vstat (h : Hdr) (o : OpE) : Statement (.vstat h o) := of_sequencer rfl rfl (by decide)
theorem sysrd (h : Hdr) (o : OpA) : Statement (.sysrd h o) := of_sequencer rfl rfl (by decide)
theorem syswr (h : Hdr) (o : OpA) : Statement (.syswr h o) := of_sequencer rfl rfl (by decide)
theorem tlbInv (h : Hdr) (o : OpA) : Statement (.tlbInv h o) := of_sequencer rfl rfl (by decide)
theorem qflush (h : Hdr) (o : OpA) : Statement (.qflush h o) := of_sequencer rfl rfl (by decide)
theorem ctxsave (h : Hdr) (o : OpA) : Statement (.ctxsave h o) := of_sequencer rfl rfl (by decide)
theorem ctxload (h : Hdr) (o : OpA) : Statement (.ctxload h o) := of_sequencer rfl rfl (by decide)
theorem event (h : Hdr) (o : OpA) : Statement (.event h o) := of_sequencer rfl rfl (by decide)
theorem modulePowerLoss : Statement (.modulePowerLoss) := of_event rfl
theorem portRetrained (port : Nat) : Statement (.portRetrained port) := of_event rfl
theorem accessUnitTaken (stream : Nat) (decodes : Bool) : Statement (.accessUnitTaken stream decodes) := of_event rfl

end Sys2Proof.Laws.EncodesWithin
end

