-- ==== Sys2Proof/Laws/Step.lean ====
section
/-! SUPPORT. A step, and the events of the system cores. -/

namespace Sys2Proof.Machine

/-- With power, a step is the act of the turn at the head of the agenda, once that turn has begun. -/
theorem step_agenda {s : State} {u : Turn} {ts : List Turn} (hp : s.powered = true) (ha : s.agenda = u :: ts) :
    step s = actStep (beginTurn u { s with agenda := ts }) u.act := by
  simp [step, nextTurn, ha, hp]

/-- A write of the system cores takes place once the boot ROM has accepted a slot. -/
theorem byCore_next {s : State} (h : s.boot.phase = .firmware ∨ s.boot.phase = .running) (f : State → State) : s.byCore f = .next (f s) := by
  rcases h with h | h <;> simp only [State.byCore, h]

/-- Where the boot ROM has rejected both slots, a write of the system cores changes nothing. -/
theorem byCore_failed {s : State} {n : Nat} (h : s.boot.phase = .failed n) (f : State → State) : s.byCore f = .next s := by
  simp only [State.byCore, h]

/-- Nor before the boot ROM has run. -/
theorem byCore_rom {s : State} (h : s.boot.phase = .rom) (f : State → State) : s.byCore f = .next s := by
  simp only [State.byCore, h]

/-- A write of the system cores has a next state. -/
theorem byCore_completes (s : State) (f : State → State) : ∃ t, s.byCore f = .next t := by
  simp only [State.byCore]
  cases s.boot.phase <;> exact ⟨_, rfl⟩

/-- An event of the surroundings acts unless the boot ROM has rejected both slots. -/
theorem unlessFailed_next {s : State} (h : ∀ n, s.boot.phase ≠ .failed n) (f : State → State) : s.unlessFailed f = .next (f s) := by
  unfold State.unlessFailed
  split
  · exact absurd ‹_› (h _)
  · rfl

/-- Where it has, such an event changes nothing. -/
theorem unlessFailed_failed {s : State} {n : Nat} (h : s.boot.phase = .failed n) (f : State → State) : s.unlessFailed f = .next s := by
  simp only [State.unlessFailed, h]

end Sys2Proof.Machine
end

