-- ==== Sys2Proof/Tests/Slice0.lean ====
section
/-! SUPPORT. Tests: ill-formed terms that the checks refuse, words written out from the spec's encodings, single steps with results worked out by
hand from the spec, and for every statement with hypotheses a concrete case that meets them. -/

open Sys2Proof Sys2Proof.Machine Sys2Proof.Claims

namespace Sys2Proof.Tests

set_option Elab.async false

/-! ## Decoding: the opcode grids of R97 and R102, row by row -/

/-- The fields .i32, ga HOLD, gb INTERP, predicate true, 5.b, 9.c, I, mod 5, imm 0xABCDEF (R89 to R91). -/
def fabX : Fab := ⟨.i32, .hold, .interp, .onTrue, some ⟨5, .b⟩, some ⟨9, .c⟩, true, 5, 0xABCDEF⟩

/-- A row of the grid of R97: opcode row * 16 + column, the other fields those of `fabX`, written as bits: ty 0011, ga 01, gb 10, pm 01, t0 000010101,
t1 000100110, I 1, mod 101. -/
def fabRow (row : Nat) (cs : List (Fab → Instr)) : Bool :=
  cs.zipIdx.all fun e => decide (decodeTableWord 64 ((16 * row + e.2) * 2 ^ 56 +
    (0b0011 * 2 ^ 52 + 0b01 * 2 ^ 50 + 0b10 * 2 ^ 48 + 0b01 * 2 ^ 46 + 0b000010101 * 2 ^ 37 + 0b000100110 * 2 ^ 28 + 2 ^ 27 + 0b101 * 2 ^ 24 + 0xABCDEF)) =
    some (e.1 fabX))

/-- Opcodes of a row that are unassigned. -/
def fabNone (row : Nat) (ks : List Nat) : Bool := ks.all fun k => (decodeTableWord 64 ((16 * row + k) * 2 ^ 56)).isNone

theorem test_fabric_row_0 : fabRow 0x0 [.input, .output, .const, .nullgen, .copy, .drop, .steer, .merge, .omerge, .lcarry, .lexit, .ends, .gate, .sel,
  .join, .bartok] = true := by decide +kernel
theorem test_fabric_row_1 : (fabRow 0x1 [.spanset, .spanshift, .spanclip, .stale, .rangeExpand] && fabNone 0x1 [5, 6, 7, 8, 9, 10, 11, 12, 13, 14, 15]) = true := by
  decide +kernel
theorem test_fabric_row_2 : fabRow 0x2 [.add, .sub, .mul, .mulh, .mad, .div, .rem, .neg, .abs, .min, .max, .adds, .subs, .avg, .cmp, .idx] = true := by
  decide +kernel
theorem test_fabric_row_3 : (fabRow 0x3 [.and, .or, .xor, .not, .shl, .shr, .sar, .rot, .popc, .clz, .ctz, .bfe, .bfi] && fabNone 0x3 [13, 14, 15]) = true := by
  decide +kernel
theorem test_fabric_row_4 : fabRow 0x4 [.fadd, .fsub, .fmul, .fma, .fmin, .fmax, .fabs, .fneg, .fcmp, .fdiv, .frcp, .fsqrt, .frsq, .fexp2, .flog2,
  .fsig] = true := by decide +kernel
theorem test_fabric_row_5 : (fabRow 0x5 [.ftanh, .fscale, .fclass, .frnd] && fabNone 0x5 [4, 5, 6, 7, 8, 9, 10, 11, 12, 13, 14, 15]) = true := by
  decide +kernel
theorem test_fabric_row_6 : (fabRow 0x6 [.perm, .bcast, .lrot, .lsum, .lmax, .flsum, .fldot] && fabNone 0x6 [7, 8, 9, 10, 11, 12, 13, 14, 15]) = true := by
  decide +kernel
theorem test_fabric_row_7 : (fabRow 0x7 [.cvt, .pack, .unpack] && fabNone 0x7 [3, 4, 15] && fabNone 0x9 [0, 15] && fabNone 0xC [0] && fabNone 0xF [15]) =
  true := by decide +kernel
theorem test_fabric_row_8 : (fabRow 0x8 [.ld, .ldc, .st, .ord, .atom, .red, .acq, .fence, .publish, .pref, .wptr, .waitwp] &&
  fabNone 0x8 [12, 13, 14, 15]) = true := by decide +kernel
theorem test_fabric_row_A_B : (fabRow 0xA [.ctxnew, .ctxfree, .spawn] && fabRow 0xB [.trap, .brk] && fabNone 0xA [3] && fabNone 0xB [2]) = true := by
  decide +kernel
/-- RANGE with mod 0 makes a RANGE token, with mod 1 expands one (R140, R156). -/
theorem test_fabric_range : decodeTableWord 64 (0x14 * 2 ^ 56 + 0b000000100 * 2 ^ 37 + 0b111111111 * 2 ^ 28) =
  some (.rangeMake ⟨.none, .refuse, .refuse, .none, some ⟨1, .a⟩, none, false, 0, 0⟩) := by decide +kernel
/-- Reserved ty and pm codes are refused by name (R90, R97). -/
theorem test_fabric_reserved : ([9, 15].all fun ty => (decodeTableWord 64 (0x20 * 2 ^ 56 + ty * 2 ^ 52)).isNone) = true ∧
  decodeTableWord 64 (0x20 * 2 ^ 56 + 3 * 2 ^ 46) = none := by decide +kernel

/-- Wait field W(sem 0x81, 0x1234), signal S(sem 0x42, 0x55) (R98). -/
def hdrX : Hdr := ⟨true, 0x81, 0x1234, true, 0x42, 0x55⟩
/-- The bits [119:80] of `hdrX`: WE 1, WSEM, WTHR, SE 1, SSEM, INC (R98). -/
def hdrBits : Nat := 2 ^ 119 + 0x81 * 2 ^ 111 + 0x1234 * 2 ^ 96 + 2 ^ 95 + 0x42 * 2 ^ 87 + 0x55 * 2 ^ 80
/-- qd 3, qs 9, qt 17 and a 64-bit immediate (R101). -/
def opaX : OpA := ⟨3, 9, 17, false, 0xFEDCBA9876543210⟩
/-- qd 3, qs 9, qt 17, qv 30, unit 6, sub, imm 0xBA9876543210 (R101). -/
def opeX (sub : BitVec 8) : OpE := ⟨3, 9, 17, 30, 6, sub, 0xBA9876543210⟩

/-- A row of the grid of R102 in format A: class * 16 + column at [127:120]. -/
def seqRowA (row : Nat) (cs : List (Hdr → OpA → Instr)) : Bool :=
  cs.zipIdx.all fun e => decide (decodeTableWord 128 ((16 * row + e.2) * 2 ^ 120 + hdrBits +
    (3 * 2 ^ 75 + 9 * 2 ^ 70 + 17 * 2 ^ 65 + 0xFEDCBA9876543210)) = some (e.1 hdrX opaX))
/-- A row of the grid of R102 in format E, with sub. -/
def seqRowE (row sub : Nat) (cs : List (Hdr → OpE → Instr)) : Bool :=
  cs.zipIdx.all fun e => decide (decodeTableWord 128 ((16 * row + e.2) * 2 ^ 120 + hdrBits +
    (3 * 2 ^ 75 + 9 * 2 ^ 70 + 17 * 2 ^ 65 + 30 * 2 ^ 60 + 6 * 2 ^ 56 + sub * 2 ^ 48 + 0xBA9876543210)) = some (e.1 hdrX (opeX (BitVec.ofNat 8 sub))))
/-- Opcodes of a class that are unassigned. -/
def seqNone (row : Nat) (ks : List Nat) : Bool := ks.all fun k => (decodeTableWord 128 ((16 * row + k) * 2 ^ 120)).isNone

theorem test_sequencer_row_0 : (seqRowA 0 [.li, .addi, .scalarAdd, .scalarSub, .scalarAnd, .scalarOr, .scalarXor, .scalarShl, .scalarShr, .scalarSar,
  .scalarMul, .slt, .sltu, .ldq, .stq] && seqNone 0 [15]) = true := by decide +kernel
theorem test_sequencer_row_1 : (seqRowA 1 [.br, .brc, .call, .ret, .loop, .yield, .halt] && seqNone 1 [7, 15]) = true := by decide +kernel
theorem test_sequencer_row_2 : (seqRowA 2 [.wait, .sig, .semset, .semrd, .nbarr, .nbwait, .taskdef, .taskdone, .tasknext] && seqNone 2 [9, 15]) = true := by
  decide +kernel
theorem test_sequencer_row_3_4 : (seqRowE 3 0xA5 [.launch, .cfgload, .qwait] && seqRowE 4 0xA5 [.bceCopy, .copymx, .copysh, .gather, .scatter, .fill] &&
  seqNone 3 [3] && seqNone 4 [6]) = true := by decide +kernel
theorem test_sequencer_row_5 : (seqRowE 5 0 [.mma, .mmat, .accinit, .acccnt, .accout, .accdrain, .accpart, .mxcfgMode, .ovfstat] &&
  seqRowE 5 1 [.mma, .mmat, .accinit, .acccnt, .accout, .accdrain, .accpart, .mxcfgPolicy] && seqNone 5 [9]) = true := by decide +kernel
theorem test_sequencer_row_6_7 : (seqRowE 6 0xA5 [.cred, .crfix, .crstat] && seqRowE 7 0 [.stinit, .stins, .stdraw, .stupd, .stwgt, .ststat] &&
  seqRowE 7 1 [.stinit, .stins, .stdraw, .stupd, .stwgtBeta, .ststat] && seqNone 6 [3] && seqNone 7 [6]) = true := by decide +kernel
theorem test_sequencer_row_8_9 : (seqRowE 8 0xA5 [.pdaload, .pdastep, .mask, .sample, .gmcfg, .gmstat] && seqRowE 9 0xA5 [.vopen, .vbind, .vclose, .vstat] &&
  seqNone 8 [6] && seqNone 9 [4]) = true := by decide +kernel
theorem test_sequencer_row_A : (seqRowA 0xA [.sysrd, .syswr, .tlbInv, .qflush, .ctxsave, .ctxload, .event] && seqNone 0xA [7] && seqNone 0xB [0] &&
  seqNone 0xF [15]) = true := by decide +kernel

/-- The assembly of R103's and the families' examples, with the words that the spec prints or that R89 and R101 give for them. -/
theorem test_words_of_examples :
    decodeTableWord 64 0x2E30013FFA000000 = some (.cmp ⟨.i32, .refuse, .refuse, .none, some ⟨2, .b⟩, none, true, 2, 0⟩) ∧
    decodeTableWord 64 0x0600018111000000 = some (.steer ⟨.none, .refuse, .refuse, .none, some ⟨3, .a⟩, some ⟨4, .b⟩, false, 1, 0⟩) ∧
    decodeTableWord 64 0x7080029FF0000037 = some (.cvt ⟨.b32, .refuse, .refuse, .none, some ⟨5, .a⟩, none, false, 0, 0x37⟩) ∧
    decodeTableWord 64 0x8560049FF0240001 = some (.red ⟨.n32, .refuse, .refuse, .none, some ⟨9, .a⟩, none, false, 0, 0x240001⟩) ∧
    decodeTableWord 64 0xB0003FFFF000002A = some (.trap ⟨.none, .refuse, .refuse, .none, none, none, false, 0, 0x2A⟩) ∧
    decodeTableWord 128 0x26000000000003000000000705300204 = some (.taskdef ⟨false, 0, 0, false, 0, 0⟩ ⟨0, 12, 0, false, 0x705300204⟩) ∧
    decodeTableWord 128 0x4000000081810086410A000000000045 =
      some (.bceCopy ⟨false, 0, 0, true, 3, 1⟩ ⟨0, 2, 3, 4, 1, 10, 0x45⟩) ∧
    decodeTableWord 128 0x61808001810100000001000000070001 = some (.crfix ⟨true, 1, 1, true, 2, 1⟩ ⟨0, 0, 0, 0, 0, 1, 0x70001⟩) := by
  decide +kernel

/-! ## Well-formedness: a term for each check, which the check refuses -/

/-- No wait, no signal. -/
def h0 : Hdr := ⟨false, 0, 0, false, 0, 0⟩
/-- Format A. -/
def opA (d s t : BitVec 5) (imm : BitVec 64) : OpA := ⟨d, s, t, false, imm⟩
/-- Format E. -/
def opE (d s t v : BitVec 5) (unit : BitVec 4) (sub : BitVec 8) (imm : BitVec 48) : OpE := ⟨d, s, t, v, unit, sub, imm⟩
/-- Targets 4.a and 9.b. -/
def two (ty : LaneTy) (imm : BitVec 24) : Fab := ⟨ty, .refuse, .refuse, .none, some ⟨4, .a⟩, some ⟨9, .b⟩, false, 0, imm⟩
/-- Target 4.a. -/
def one (ty : LaneTy) (imm : BitVec 24) : Fab := { two ty imm with t1 := none }
/-- No target. -/
def bare (ty : LaneTy) (imm : BitVec 24) : Fab := { two ty imm with t0 := none, t1 := none }
/-- Every term is refused. -/
def allRefused (is : List Instr) : Bool := is.all fun i => !i.wellFormed
/-- Every term is let through. -/
def allOk (is : List Instr) : Bool := is.all fun i => i.wellFormed

/-- R92, R162: type, mod, immediate form, gap rule of an unused port, imm, targets. -/
theorem test_wf_integer :
    allRefused [.add (two .f 0), .add (two .b32 0), .add { two .i32 0 with sub := 1 }, .neg { two .i32 0 with imf := true }, .neg (two .n32 0),
      .neg { two .i32 0 with gb := .hold }, .add { two .i32 5 with imf := true, gb := .hold }, .add (two .i32 5), .add { two .i32 0 with t0 := none },
      .add { two .i32 0 with t1 := some ⟨4, .a⟩ }, .add { two .i32 0 with t0 := some ⟨127, .p⟩ }, .cmp { two .i32 0 with sub := 6 }, .idx (two .i16 0),
      .shr (two .i32 0), .sar (two .n32 0), .bfe (two .i32 0), .bfe (two .i32 0x1F02), .bfi (two .i32 1), .bfe (two .i16 1), .bfe (two .i32 0x41), .popc (two .i32 1),
      .mad { two .i32 0x400000 with imf := true }, .mad (two .i32 1)] = true ∧
    allOk [.add (two .i32 0), .add { two .i32 5 with imf := true }, .cmp { two .i32 0 with sub := 5 }, .idx { two .n32 8 with sub := 7 }, .bfe (two .i32 0x1F01),
      .bfi (two .b32 0x20), .mad (two .i32 0x400000), .sar (two .b32 0)] = true := by decide +kernel

/-- R172, R173, R186: types and mod of the float instructions, CVT pairs, PACK and UNPACK. -/
theorem test_wf_float :
    allRefused [.fadd (two .i32 0), .fadd { two .f 0 with sub := 4 }, .fmin { two .f 0 with sub := 1 }, .fexp2 (two .f 1), .fclass (two .f 1024), .perm (two .i32 0),
      .perm { two .none 0 with ga := .interp }, .bcast (two .none 8), .lrot { two .none 8 with imf := true }, .lmax (two .b32 0), .fldot (two .f 1),
      .cvt (two .f 0x7), .cvt (two .i32 8), .cvt { two .f 8 with sub := 1 }, .cvt { two .f 8 with ga := .interp }, .cvt (two .b32 0x97), .cvt (two .b32 0x137),
      .cvt (two .none 7), .pack (two .none 3), .unpack (two .none 8)] = true ∧
    allOk [.fadd { two .f 0 with sub := 3 }, .fclass (two .f 1023), .lrot { two .none 7 with imf := true }, .cvt (two .f 8), .cvt { two .b32 0x37 with sub := 4 },
      .cvt (two .i16 7), .unpack (two .none 6)] = true := by decide +kernel

/-- R140: the stream instructions. -/
theorem test_wf_stream :
    allRefused [.input (bare .none 0), .input (one .none 8192), .input { one .none 0 with ga := .hold }, .output (one .none 0), .output (bare .none 17),
      .output (bare .none 32), .const (bare .i32 0), .const (two .none 0), .drop (one .none 0), .steer { two .none 0 with sub := 2 },
      .merge { two .none 0 with sub := 3 }, .merge { two .none 0 with pm := .onTrue }, .omerge (two .none 1), .lcarry { two .none 0 with ga := .hold },
      .lexit (two .none 0 |> fun f => { f with t1 := none }), .lexit { two .none 0 with t1 := some ⟨9, .a⟩ }, .ends (two .none 8),
      .sel (two .none 1), .join (two .none 0x400000), .bartok (two .none 8), .spanset (two .none 0), .spanset { two .none 5 with sub := 1 },
      .spanshift { two .none 0 with sub := 6 }, .spanclip (two .none 0), .stale { two .none 0 with sub := 2 }, .rangeMake { two .none 0 with sub := 1 },
      .rangeExpand { two .none 0 with sub := 1 }, .ctxnew (bare .none 0), .ctxfree (two .none 1), .spawn (bare .none 0), .trap (one .none 0),
      .brk (bare .none 0)] = true ∧
    allOk [.input (one .none 8191), .output (bare .none 16), .const (two .i32 0xFFFFFF), .lexit (two .none 0), .join { two .none 0x400000 with sub := 1 },
      .spanset (two .none 1), .rangeExpand { two .none 7 with sub := 1 }, .ctxfree (bare .none 0), .trap (bare .none 42), .brk (one .none 0)] = true := by
  decide +kernel

/-- R232 to R234: the access forms. -/
theorem test_wf_memory :
    allRefused [.ld (two .f 0), .ld (two .f 0x3400FF), .ld (two .f 0x0301FF), .ld (two .i32 0x0000FF), .ld (two .f 0x1400F0), .ld (two .f 0x0040FF), .ld (two .f 0x4000FF),
      .ld (two .f 0x0080FF), .ld { two .f 0xFF with ga := .interp }, .ld { two .f 0xFF with sub := 1 }, .st (two .f 0x0070FF), .st (two .f 0x0008FF),
      .st { two .f 0xFF with sub := 4 }, .st { two .i32 0x2400FF with sub := 4 }, .atom (two .none 0x2400FF), .atom { two .n32 0x2400FF with sub := 7 },
      .red { two .n32 0x2400FF with sub := 6 }, .acq { two .n32 0x2400FF with sub := 6 }, .acq (two .f 0x1400FF), .pref (one .f 0xFF), .pref (bare .f 0x80FF),
      .ord { two .none 0 with sub := 2 }, .ord (two .none 1), .ord { two .none 0 with gb := .hold }, .fence { two .none 0 with sub := 6 }, .publish (two .none 64),
      .wptr (two .none 8), .waitwp (bare .none 0)] = true ∧
    allOk [.ld (two .f 0xFF), .ld (bare .f 0x80FF), .st (two .f 0x00C0FF |> fun f => { f with t0 := none, t1 := none }), .st (two .f 0x006FFF |> fun f => { f with imm := 0x0068FF }),
      .st { two .f 0x0400FF with sub := 4 }, .atom { two .n32 0x24000F with sub := 7 }, .pref (bare .f 0xFF), .ord { two .none 0 with sub := 1 },
      .publish (two .none 63)] = true := by decide +kernel

/-- R98, R101, R257: wait and signal fields, unused fields of layout A, and the fields of the scalar, control and synchronisation words. -/
theorem test_wf_sequencer :
    allRefused [.li { h0 with wsem := 1 } (opA 1 0 0 5), .li { h0 with wthr := 1 } (opA 1 0 0 5), .li { h0 with ssem := 1 } (opA 1 0 0 5), .li { h0 with inc := 1 } (opA 1 0 0 5),
      .li h0 (opA 1 1 0 5), .li h0 (opA 1 0 1 5), .li h0 { opA 1 0 0 5 with b64 := true }, .scalarAdd h0 (opA 1 1 1 1), .stq h0 (opA 1 1 1 0), .br h0 (opA 1 0 0 0),
      .brc h0 (opA 6 0 0 0), .call h0 (opA 1 1 0 0), .ret h0 (opA 0 1 0 1), .loop h0 (opA 0 0 0 0), .loop h0 (opA 0 0 0 0x10001), .loop h0 (opA 0 1 0 0x100000001),
      .yield h0 (opA 0 0 0 1), .halt h0 (opA 0 0 0 1), .wait h0 (opA 0 0 0 0x1), .wait h0 (opA 0 0 0 0x100000100), .wait h0 (opA 0 0 0 0x200000000), .sig h0 (opA 0 1 0 0x100),
      .semset h0 (opA 0 1 0 0x100000000), .semrd h0 (opA 1 0 0 0x100), .nbarr h0 (opA 0 0 0 0), .nbarr h0 (opA 0 0 0 0x500), .nbarr h0 (opA 0 0 0 0x120),
      .nbwait h0 (opA 0 0 0 0x20), .taskdef h0 (opA 0 1 0 0x40), .taskdone h0 (opA 0 0 0 0x40), .tasknext h0 (opA 1 0 0 1)] = true ∧
    allOk [.li ⟨true, 1, 1, true, 1, 1⟩ (opA 1 0 0 5), .brc h0 (opA 5 1 1 0), .loop h0 (opA 0 0 0 0x10000FFFF), .wait h0 (opA 0 0 0 0x1FFFF00FF), .nbarr h0 (opA 0 0 0 0x41F),
      .taskdef h0 (opA 0 1 0 0x3F3F3F3FFFFF3F), .taskdone h0 (opA 0 1 0 0x3F)] = true := by decide +kernel

/-- R257, R282, R315, R344, R356, R381, R389, R409, R433: the engine, launch and system words. -/
theorem test_wf_engines :
    allRefused [.launch h0 (opE 0 1 0 0 0 0 64), .cfgload h0 (opE 0 1 1 1 0 2 0), .cfgload h0 (opE 0 1 1 1 0 0 4), .qwait h0 (opE 1 1 0 0 0 0 1), .bceCopy h0 (opE 0 1 1 1 8 0 0),
      .bceCopy h0 (opE 0 1 1 1 0 6 0), .bceCopy h0 (opE 0 1 1 1 0 0x40 0), .bceCopy h0 (opE 0 1 1 1 0 0 0x80), .bceCopy h0 (opE 0 1 1 1 0 0 1), .copysh h0 (opE 0 1 1 1 0 0 0),
      .gather h0 (opE 1 1 1 1 0 0 0), .fill h0 (opE 1 1 1 1 0 0 0), .fill h0 (opE 0 1 1 1 0 4 0), .mma h0 (opE 0 1 1 0 3 0 0), .mma h0 (opE 0 1 1 0 0 4 0), .mma h0 (opE 0 1 1 0 0 0 1),
      .mma h0 (opE 0 1 1 0 0 0 0x100), .accinit h0 (opE 0 1 1 0 0 0 10), .accinit h0 (opE 0 1 1 0 0 0 0x20), .acccnt h0 (opE 0 1 0 0 0 0 0x10000), .accout h0 (opE 0 0 1 0 0 0 0x2000),
      .accdrain h0 (opE 0 0 0 0 0 0 1), .accpart h0 (opE 0 0 0 0 0 4 0), .mxcfgMode h0 (opE 0 1 0 0 1 0 0), .mxcfgPolicy h0 (opE 0 0 0 0 0 1 4), .ovfstat h0 (opE 1 0 0 0 3 0 0),
      .cred h0 (opE 0 1 0 0 1 0 0), .crfix h0 (opE 0 0 0 0 0 3 0), .crfix h0 (opE 0 0 0 0 0 0 0x1000000), .crstat h0 (opE 1 0 0 0 0 0 256)] = true ∧
    allRefused [.stinit h0 (opE 0 1 1 0 2 0 0x10000), .stinit h0 (opE 0 0 0 0 0 0 0x1D0000), .stinit h0 (opE 0 1 0 0 0 0 0), .stins h0 (opE 0 1 0 0 0 0 0x40), .stdraw h0 (opE 0 1 0 0 0 0 0x4000000),
      .stupd h0 (opE 0 1 0 0 0 1 0), .stwgtBeta h0 (opE 0 1 1 0 0 0 0), .stwgt h0 (opE 0 1 1 0 0 1 0), .ststat h0 (opE 1 0 0 0 0 6 0), .pdaload h0 (opE 0 1 1 0 0 0 16),
      .pdastep h0 (opE 0 1 1 0 0 0 1024), .mask h0 (opE 1 1 1 0 0 0 0), .sample h0 (opE 1 1 1 1 0 0 0x4000), .gmcfg h0 (opE 0 1 0 0 2 0 0), .gmstat h0 (opE 1 0 0 0 0 6 0),
      .vopen h0 (opE 0 1 0 0 0 0 1024), .vbind h0 (opE 1 1 1 0 0 0 0), .vclose h0 (opE 0 1 0 0 0 0 0), .vstat h0 (opE 1 0 0 0 0 8 0), .sysrd h0 (opA 1 1 1 0), .syswr h0 (opA 1 1 1 0),
      .tlbInv h0 (opA 0 1 1 1), .qflush h0 (opA 0 1 0 16), .ctxsave h0 (opA 1 1 1 0), .ctxload h0 (opA 1 1 0 1), .event h0 (opA 0 1 0 256)] = true ∧
    allOk [.launch h0 (opE 0 1 0 0 0 0 63), .cfgload h0 (opE 1 1 1 1 0 1 3), .bceCopy h0 (opE 0 1 1 1 7 0x3D 0x7F), .copysh h0 (opE 0 1 1 1 0 0 0x100), .fill h0 (opE 0 1 1 1 0 3 0),
      .mma h0 (opE 1 1 1 0 2 3 0x500), .stinit h0 (opE 0 0 0 0 0 0 0x3F), .stwgtBeta h0 (opE 0 1 1 0 0 1 0), .sample h0 (opE 1 1 1 1 0 0 0x3FFF), .vstat h0 (opE 1 0 0 0 0 7 1023),
      .ctxsave h0 (opA 1 1 1 0xFFFFFFFF), .event h0 (opA 0 1 0 255)] = true := by decide +kernel

/-! ## Small states -/

/-- An answer that is this value. -/
def answered {α : Type} [DecidableEq α] (x : Access.Answer α) (v : α) : Bool :=
  match x with
  | .done y => decide (y = v)
  | _ => false
theorem of_answered {α : Type} [DecidableEq α] {x : Access.Answer α} {v : α} (h : answered x v = true) : x = .done v := by
  cases x <;> simp_all [answered]
/-- An answer that is this fault. -/
def faulted {α : Type} (x : Access.Answer α) (c v : Nat) : Bool :=
  match x with
  | .fault d w => decide (d = c ∧ w = v)
  | _ => false
theorem of_faulted {α : Type} {x : Access.Answer α} {c v : Nat} (h : faulted x c v = true) : x = .fault c v := by
  cases x <;> simp_all [faulted]
/-- An access that is held. -/
def heldUp {α : Type} (x : Access.Answer α) : Bool :=
  match x with
  | .wait _ => true
  | _ => false
theorem of_heldUp {α : Type} {x : Access.Answer α} (h : heldUp x = true) : ∃ p, x = .wait p := by
  cases x <;> simp_all [heldUp]
/-- The next state of a result. -/
def after (r : Host.Outcome State Fault Refusal) : Option State :=
  match r with
  | .next t => some t
  | _ => none
/-- A property of the next state. -/
def then' (r : Host.Outcome State Fault Refusal) (p : State → Bool) : Bool := (after r).any p

/-- With power, logical quad 0 partition 0's, its queue 0 in focus as given. -/
def qState (x : Queue) : State :=
  { State.reset with powered := true, boot := { State.reset.boot with phase := .running }, lqpart := NatMap.set 0 [] 0 0x10, focus := .queue 0 0,
                     quads := NatMap.set .init [] 0 { Quad.init with queues := NatMap.set .init [] 0 x } }
/-- A running queue at address 0 with these registers. -/
def q0 (rs : List (Nat × Word64)) : Queue := { Queue.init with st := .running, regs := rs }
/-- The same with page 0 and the page behind it translated to the near vault, read and write, tagged to nobody; the tables let the quad read and write. -/
def mState (rs : List (Nat × Word64)) (bs : List Byte) : State :=
  let s := withQueueWord (qState (q0 rs)) 0
  { s with focus := .queue 0 0, tables := NatMap.set 0 s.tables (regAddr 5 0 0) 0x843F, mem := putBytes [] (s.nearBase 0) bs,
           quads := NatMap.set .init [] 0 { Quad.init with queues := NatMap.set .init [] 0 (q0 rs) } }

/-- A token over [0, 1) of kind DATA. -/
def tok (v : Lanes) (p : Pred) : Token := { fetchToken p with lanes := v }
/-- The END that follows it. -/
def tokEnd : Token := { fetchToken .none with kind := .fin, lo := 1, hi := 1 }
/-- A port that a token and its END have reached, where the instruction uses it. -/
def portWith (i : Instr) (k : Port) (t : Token) : PortState :=
  if portUsed i k then (PortState.init.join (gapRule i k) t).join (gapRule i k) tokEnd else .init
/-- A configuration of one PE with one slot. -/
def block1 (w : Nat) : Block := ⟨0, 0, 0, false, false, false, false, 1, 0, 0, 0, 0, 1, 1, [], [w], [(0, 0)]⟩
/-- A region of one PE with a node in slot 0, context 0. -/
def region1 (w : Nat) (n : Node) : Region := { Region.init with mask := 1, blocks := [(0, block1 w)], running := true, nodes := [(nodeKey 0 0 0, n)] }
/-- Its machine, the slot in focus. -/
def rState (r : Region) : State := { qState Queue.init with focus := .slot 0 0 0, regions := NatMap.insert [] 0 r }
/-- The firing of an instruction on these tokens. -/
def firing (i : Instr) (a b c p : Token) : FiringAt :=
  let n : Node := { Node.init with a := portWith i .a a, b := portWith i .b b, c := portWith i .c c, p := portWith i .p p }
  let r := region1 (((encode i).map (·.2)).getD 0) n
  let set := (nextSet i (r.node 0 0)).getD ⟨[], 0, none, 0, false⟩
  ⟨rState r, 0, 0, 0, r, set, set.span?.getD ⟨0, 0⟩⟩
/-- `Ready`, as a test. -/
def isReady (z : FiringAt) (i : Instr) (ty : Port → LaneTy) : Bool :=
  let inPlace := decide (z.s.focus = .slot z.rid z.slot z.ctx ∧ z.s.region? z.rid = some z.r ∧ z.r.live = true)
  let matched := decide (nextSet i (z.r.node z.slot z.ctx) = some z.set ∧ z.set.span? = some z.span)
  inPlace && (matched && slotReady i z.s z.r z.slot z.ctx (some (z.ops i ty)))
/-- `Sound`, as a test. -/
def isSound (z : FiringAt) (i : Instr) (ty : Port → LaneTy) : Bool := decide (z.s.upset = .none ∧ consumesPoison i (z.ops i ty) = false)
theorem sound_of {z : FiringAt} {i : Instr} {ty : Port → LaneTy} (h : isSound z i ty = true) : z.Sound i ty :=
  show z.s.upset = .none ∧ consumesPoison i (z.ops i ty) = false from of_decide_eq_true h
theorem ready_of {z : FiringAt} {i : Instr} {ty : Port → LaneTy} (h : isReady z i ty = true) : z.Ready i ty := by
  unfold isReady at h
  have hs := Bool.and_eq_true_iff.mp h
  have hm := Bool.and_eq_true_iff.mp hs.2
  have place := of_decide_eq_true hs.1
  have sets := of_decide_eq_true hm.1
  exact { focus := place.1, region := place.2.1, live := place.2.2, next := sets.1, span := sets.2, ready := hm.2 }
/-- The firing meets what the statements on ordinary firings suppose of it: `Ready`, `Sound`, judged ordinary. -/
def meets (z : FiringAt) (i : Instr) (ty : Port → LaneTy) (pm : Pm) : Bool := isReady z i ty && (isSound z i ty && decide (judge pm (z.ops i ty) = .ordinary))
theorem meets_iff {z : FiringAt} {i : Instr} {ty : Port → LaneTy} {pm : Pm} (h : meets z i ty pm = true) :
    z.Ready i ty ∧ z.Sound i ty ∧ judge pm (z.ops i ty) = .ordinary :=
  have hr := Bool.and_eq_true_iff.mp h
  have hj := Bool.and_eq_true_iff.mp hr.2
  ⟨ready_of hr.1, sound_of hj.1, of_decide_eq_true hj.2⟩
/-- A region of a state, and a property of the node of slot 0 and of the tokens on their way. -/
def region0 (r : Host.Outcome State Fault Refusal) (p : Region → Bool) : Bool := then' r fun t => (t.region? 0).any p
/-- The lanes of the first token on its way out of the region's slot after a firing. -/
def sentLanes (r : Host.Outcome State Fault Refusal) : Option Lanes :=
  ((after r).bind fun t => t.region? 0).bind fun r => r.flight.head?.map fun x => x.tok.lanes
/-- All lanes equal. -/
def all8 (x : Lane) : Lanes := ⟨x, x, x, x, x, x, x, x⟩
/-- Result of an instruction on operand tokens of equal lanes: lane 0 of what it sends. -/
def lane0 (i : Instr) (a b c : Lane) : Option Lane :=
  (sentLanes (exec i (firing i (tok (all8 a) .none) (tok (all8 b) .none) (tok (all8 c) .none) (tok .zero .true)).s)).map (·.get 0)


/-! ## Fabric instructions -/

/-- The firing of a form on tokens that suit it. -/
def typical (i : Instr) : FiringAt :=
  firing i (tok (all8 7) .none) (tok (all8 2) .true) (tok (all8 1) .true) (tok .zero .true)

/-- The integer forms. -/
def intForms : List (Fab → Instr) := intTable.map (·.1) ++ [.mad, .neg, .abs]
theorem witness_IntegerArithmetic : ∀ e ∈ intForms, ∃ (f : Fab) (z : FiringAt), f.ty ∈ [LaneTy.i8, .i16, .i32, .n8, .n16, .n32] ∧
    z.Ready (e f) (fun _ => f.ty) ∧ z.Sound (e f) (fun _ => f.ty) ∧ judge f.pm (z.ops (e f) (fun _ => f.ty)) = .ordinary :=
  fun e he => ⟨two .i32 0, typical (e (two .i32 0)), by decide, meets_iff (List.all_eq_true.mp
    (by decide +kernel : intForms.all (fun e => meets (typical (e (two .i32 0))) (e (two .i32 0)) (fun _ => .i32) .none) = true) e he)⟩

/-- R164, R165, R166, R163: the examples the spec prints, and wraps. -/
theorem test_integer_results :
    lane0 (.div (two .i16 0)) 0xFFFFFFF9 2 0 = some 0xFFFFFFFD ∧ lane0 (.rem (two .i16 0)) 0xFFFFFFF9 2 0 = some 0xFFFFFFFF ∧
    lane0 (.div (two .n8 0)) 9 0 0 = some 255 ∧ lane0 (.rem (two .n8 0)) 9 0 0 = some 9 ∧ lane0 (.div (two .i32 0)) 5 0 0 = some 0 ∧
    lane0 (.div (two .i8 0)) 0xFFFFFF80 0xFFFFFFFF 0 = some 0xFFFFFF80 ∧ lane0 (.add (two .i32 0)) 0x7FFFFFFF 1 0 = some 0x80000000 ∧
    lane0 (.sub (two .n8 0)) 0 1 0 = some 0xFF ∧ lane0 (.mul (two .i16 0)) 0x7FFF 2 0 = some 0xFFFFFFFE ∧ lane0 (.mulh (two .i8 0)) 0xFFFFFF80 1 0 = some 0xFFFFFFFF ∧
    lane0 (.mad (two .n32 0)) 0xFFFFFFFF 2 5 = some 3 ∧ lane0 (.neg (two .i8 0)) 0xFFFFFF80 0 0 = some 0xFFFFFF80 ∧ lane0 (.abs (two .i32 0)) 0xFFFFFFFB 0 0 = some 5 ∧
    lane0 (.min (two .i8 0)) 0xFFFFFFFF 1 0 = some 0xFFFFFFFF ∧ lane0 (.max (two .n8 0)) 0xFF 1 0 = some 0xFF ∧ lane0 (.adds (two .i8 0)) 0x7F 1 0 = some 0x7F ∧
    lane0 (.subs (two .n16 0)) 1 2 0 = some 0 ∧ lane0 (.avg (two .n8 0)) 0xFF 0xFE 0 = some 0xFF := by decide +kernel

theorem witness_BitsAndAddresses_cmp : ∀ e ∈ [(Instr.and : Fab → Instr), .or, .xor, .not, .shl, .rot, .popc, .clz, .ctz, .cmp, .idx], ∃ (f : Fab) (z : FiringAt),
    f.ty ∈ [LaneTy.i8, .i16, .i32, .n8, .n16, .n32] ∧ z.Ready (e f) (fun _ => f.ty) ∧ z.Sound (e f) (fun _ => f.ty) ∧
    judge f.pm (z.ops (e f) (fun _ => f.ty)) = .ordinary :=
  fun e he => ⟨two .i32 0, typical (e (two .i32 0)), by decide, meets_iff (List.all_eq_true.mp
    (by decide +kernel : [(Instr.and : Fab → Instr), .or, .xor, .not, .shl, .rot, .popc, .clz, .ctz, .cmp, .idx].all
      (fun e => meets (typical (e (two .i32 0))) (e (two .i32 0)) (fun _ => .i32) .none) = true) e he)⟩
theorem witness_BitsAndAddresses : ∀ e ∈ [(Instr.shr : Fab → Instr), .sar, .bfe, .bfi], ∃ (f : Fab) (z : FiringAt),
    f.ty = .b32 ∧ 1 ≤ bits f.imm.toNat 5 0 ∧ bits f.imm.toNat 12 8 + bits f.imm.toNat 5 0 = 32 ∧ z.Ready (e f) (fun _ => f.ty) ∧ z.Sound (e f) (fun _ => f.ty) ∧
    judge f.pm (z.ops (e f) (fun _ => f.ty)) = .ordinary :=
  fun e he => ⟨two .b32 0x1F01, typical (e (two .b32 0x1F01)), rfl, by decide, by decide, meets_iff (List.all_eq_true.mp
    (by decide +kernel : [(Instr.shr : Fab → Instr), .sar, .bfe, .bfi].all
      (fun e => meets (typical (e (two .b32 0x1F01))) (e (two .b32 0x1F01)) (fun _ => .b32) .none) = true) e he)⟩

theorem test_bit_results :
    lane0 (.and (two .n8 0)) 0xF0 0x3C 0 = some 0x30 ∧ lane0 (.or (two .n8 0)) 0xF0 0x3C 0 = some 0xFC ∧ lane0 (.xor (two .n8 0)) 0xF0 0x3C 0 = some 0xCC ∧
    lane0 (.not (two .n16 0)) 0x00FF 0 0 = some 0xFF00 ∧ lane0 (.shl (two .n8 0)) 0x81 1 0 = some 2 ∧ lane0 (.shl (two .i32 0)) 1 32 0 = some 0 ∧
    lane0 (.shr (two .n32 0)) 0x80000000 31 0 = some 1 ∧ lane0 (.shr (two .b32 0)) 1 256 0 = some 1 ∧ lane0 (.sar (two .i8 0)) 0xFFFFFF80 9 0 = some 0xFFFFFFFF ∧
    lane0 (.sar (two .b32 0)) 0x80000000 4 0 = some 0xF8000000 ∧ lane0 (.rot (two .n8 0)) 0x81 9 0 = some 3 ∧ lane0 (.popc (two .n16 0)) 0xFFFF 0 0 = some 16 ∧
    lane0 (.clz (two .n8 0)) 0 0 0 = some 8 ∧ lane0 (.clz (two .b32 0)) 1 0 0 = some 31 ∧ lane0 (.ctz (two .b32 0)) 8 0 0 = some 3 ∧
    lane0 (.bfe (two .i32 0x404)) 0xB7 0 0 = some 0xFFFFFFFB ∧ lane0 (.bfi (two .b32 0x404)) 0xFFFFFFFF 0 0 = some 0xFFFFFF0F ∧
    lane0 (.cmp { two .i8 0 with sub := 2 }) 0xFFFFFFFF 0 0 = some 1 ∧ lane0 (.cmp { two .n8 0 with sub := 2 }) 0xFF 0 0 = some 0 ∧
    lane0 (.idx { two .i32 4 with sub := 3 }) 0x10 0xFFFFFFFF 0 = some 0xC := by decide +kernel

/-- The float forms with the type each port is read by. -/
def floatForms : List (Fab → Instr) := floatTable.map (·.1) ++ floatOneTable.map (·.1) ++ [.fma, .fcmp, .fclass]
theorem witness_FloatInstructions : (∀ e ∈ floatForms, ∃ (f : Fab) (z : FiringAt), z.Ready (e f) (fun _ => f.ty) ∧ z.Sound (e f) (fun _ => f.ty) ∧
      judge f.pm (z.ops (e f) (fun _ => f.ty)) = .ordinary) ∧
    ∃ (f : Fab) (z : FiringAt), z.Ready (.fscale f) (fun k => if k = .b then .i32 else f.ty) ∧ z.Sound (.fscale f) (fun k => if k = .b then .i32 else f.ty) ∧
      judge f.pm (z.ops (.fscale f) (fun k => if k = .b then .i32 else f.ty)) = .ordinary :=
  ⟨fun e he => ⟨two .f 0, typical (e (two .f 0)), meets_iff (List.all_eq_true.mp
    (by decide +kernel : floatForms.all (fun e => meets (typical (e (two .f 0))) (e (two .f 0)) (fun _ => .f) .none) = true) e he)⟩,
   ⟨two .f 0, typical (.fscale (two .f 0)), meets_iff (by decide +kernel)⟩⟩

/-- 1.0, 2.0, 4.0 and 0.5 of IF36 (R105): exponent bias 1023, 24 bits of fraction. -/
theorem test_float_results :
    lane0 (.fadd (two .f 0)) 0x3FF000000 0x3FF000000 0 = some 0x400000000 ∧ lane0 (.fsub (two .f 0)) 0x3FF000000 0x3FF000000 0 = some 0 ∧
    lane0 (.fmul (two .f 0)) 0x400000000 0x400000000 0 = some 0x401000000 ∧ lane0 (.fma (two .f 0)) 0x400000000 0x400000000 0xC01000000 = some 0 ∧
    lane0 (.fdiv (two .f 0)) 0x3FF000000 0x400000000 0 = some 0x3FE000000 ∧ lane0 (.frcp (two .f 0)) 0x400000000 0 0 = some 0x3FE000000 ∧
    lane0 (.fsqrt (two .f 0)) 0x401000000 0 0 = some 0x400000000 ∧ lane0 (.frsq (two .f 0)) 0x401000000 0 0 = some 0x3FE000000 ∧
    lane0 (.fmin (two .f 0)) 0 0x800000000 0 = some 0x800000000 ∧ lane0 (.fmax (two .f 0)) 0x7FF800000 0x3FF000000 0 = some 0x3FF000000 ∧
    lane0 (.fabs (two .f 0)) 0xBFF000000 0 0 = some 0x3FF000000 ∧ lane0 (.fneg (two .f 0)) 0x3FF000000 0 0 = some 0xBFF000000 ∧
    lane0 (.fcmp { two .f 0 with sub := 6 }) 0x7FF800000 0 0 = some 1 ∧ lane0 (.fexp2 (two .f 0)) 0x400000000 0 0 = some 0x401000000 ∧
    lane0 (.flog2 (two .f 0)) 0x401000000 0 0 = some 0x400000000 ∧ lane0 (.fsig (two .f 0)) 0 0 0 = some 0x3FE000000 ∧ lane0 (.ftanh (two .f 0)) 0 0 0 = some 0 ∧
    lane0 (.fscale (two .f 0)) 0x3FF000000 2 0 = some 0x401000000 ∧ lane0 (.frnd (two .f 0)) 0x3FE000000 0 0 = some 0 := by decide +kernel

theorem witness_FloatFixedCases : (ofIF36 0x3FF000000).isNaN = false ∧ 0 < 1 := by decide +kernel

theorem witness_LaneInstructions : (∀ e ∈ [(Instr.perm : Fab → Instr), .bcast, .lrot, .pack, .unpack], ∃ (f : Fab) (z : FiringAt), bits f.imm.toNat 1 0 < 3 ∧
      z.Ready (e f) (fun _ => f.ty) ∧ z.Sound (e f) (fun _ => f.ty) ∧ judge f.pm (z.ops (e f) (fun _ => f.ty)) = .ordinary) ∧
    (∀ e ∈ [(Instr.lsum : Fab → Instr), .lmax], ∃ (f : Fab) (z : FiringAt), f.ty ∈ [LaneTy.i8, .i16, .i32, .n8, .n16, .n32] ∧
      z.Ready (e f) (fun _ => f.ty) ∧ z.Sound (e f) (fun _ => f.ty) ∧ judge f.pm (z.ops (e f) (fun _ => f.ty)) = .ordinary) ∧
    (∀ e ∈ [(Instr.lmax : Fab → Instr), .flsum, .fldot], ∃ (f : Fab) (z : FiringAt), f.ty = .f ∧
      z.Ready (e f) (fun _ => f.ty) ∧ z.Sound (e f) (fun _ => f.ty) ∧ judge f.pm (z.ops (e f) (fun _ => f.ty)) = .ordinary) ∧
    ∃ (f : Fab) (z : FiringAt), let src := (tyOfCode (bits f.imm.toNat 3 0)).getD .b32
      z.Ready (.cvt f) (fun _ => src) ∧ z.Sound (.cvt f) (fun _ => src) ∧ judge f.pm (z.ops (.cvt f) (fun _ => src)) = .ordinary :=
  ⟨fun e he => ⟨two .none 2, typical (e (two .none 2)), by decide, meets_iff (List.all_eq_true.mp
      (by decide +kernel : [(Instr.perm : Fab → Instr), .bcast, .lrot, .pack, .unpack].all
        (fun e => meets (typical (e (two .none 2))) (e (two .none 2)) (fun _ => .none) .none) = true) e he)⟩,
   fun e he => ⟨two .i32 0, typical (e (two .i32 0)), by decide, meets_iff (List.all_eq_true.mp
      (by decide +kernel : [(Instr.lsum : Fab → Instr), .lmax].all (fun e => meets (typical (e (two .i32 0))) (e (two .i32 0)) (fun _ => .i32) .none) = true) e he)⟩,
   fun e he => ⟨two .f 0, typical (e (two .f 0)), rfl, meets_iff (List.all_eq_true.mp
      (by decide +kernel : [(Instr.lmax : Fab → Instr), .flsum, .fldot].all (fun e => meets (typical (e (two .f 0))) (e (two .f 0)) (fun _ => .f) .none) = true) e he)⟩,
   ⟨two .i32 7, typical (.cvt (two .i32 7)), meets_iff (by decide +kernel)⟩⟩

/-- R184's PERM example reverses the token; R185 to R187 on small values. -/
theorem test_lane_results :
    sentLanes (exec (.perm { two .none 0x053977 with imf := true }) (firing (.perm { two .none 0x053977 with imf := true }) (tok ⟨0, 1, 2, 3, 4, 5, 6, 7⟩ .none)
      (tok .zero .none) (tok .zero .none) (tok .zero .true)).s) = some ⟨7, 6, 5, 4, 3, 2, 1, 0⟩ ∧
    sentLanes (exec (.lrot { two .none 1 with imf := true }) (firing (.lrot { two .none 1 with imf := true }) (tok ⟨0, 1, 2, 3, 4, 5, 6, 7⟩ .none)
      (tok .zero .none) (tok .zero .none) (tok .zero .true)).s) = some ⟨7, 0, 1, 2, 3, 4, 5, 6⟩ ∧
    sentLanes (exec (.bcast (two .none 5)) (firing (.bcast (two .none 5)) (tok ⟨0, 1, 2, 3, 4, 5, 6, 7⟩ .none) (tok .zero .none) (tok .zero .none)
      (tok .zero .true)).s) = some (all8 5) ∧
    lane0 (.lsum (two .i8 0)) 0x7F 0 0 = some 0xFFFFFFF8 ∧ lane0 (.lmax (two .i8 0)) 0xFFFFFFFF 0 0 = some 0xFFFFFFFF ∧ lane0 (.flsum (two .f 0)) 0x3FF000000 0 0 = some 0x402000000 ∧
    lane0 (.fldot (two .f 0)) 0x3FF000000 0x400000000 0 = some 0x403000000 ∧ lane0 (.cvt (two .i32 7)) 0xC00000000 0 0 = some 0xFFFFFFFE ∧
    lane0 (.cvt (two .f 3)) 0xFFFFFFFE 0 0 = some 0xC00000000 ∧ lane0 (.pack (two .none 1)) 0x1AB 0 0 = some 0xABABABAB ∧
    lane0 (.unpack (two .none 5)) 0xFF 0 0 = some 0xFFFFFFFF := by decide +kernel

/-! ## Tokens, spans, contexts, requests -/

/-- The firing's operand on a port is there. -/
def opA? (z : FiringAt) (i : Instr) (ty : Port → LaneTy) : Option Token := (z.ops i ty).a

theorem witness_TokensMadeAndForwarded : (∀ e ∈ [(Instr.const : Fab → Instr), .nullgen, .copy, .gate, .drop, .join], ∃ (f : Fab) (z : FiringAt),
      z.Ready (e f) (fun _ => f.ty) ∧ z.Sound (e f) (fun _ => f.ty) ∧ judge f.pm (z.ops (e f) (fun _ => f.ty)) = .ordinary) ∧
    (∀ e ∈ [(Instr.ord : Fab → Instr), .fence], ∃ (f : Fab) (z : FiringAt),
      z.Ready (e f) (fun _ => .b32) ∧ z.Sound (e f) (fun _ => .b32) ∧ judge f.pm (z.ops (e f) (fun _ => .b32)) = .ordinary) :=
  ⟨fun e he => ⟨two .none 0, typical (e (two .none 0)), meets_iff (List.all_eq_true.mp (by decide +kernel :
      [(Instr.const : Fab → Instr), .nullgen, .copy, .gate, .drop, .join].all (fun e => meets (typical (e (two .none 0))) (e (two .none 0)) (fun _ => .none) .none) = true) e he)⟩,
   fun e he => ⟨two .none 0, typical (e (two .none 0)), meets_iff (List.all_eq_true.mp (by decide +kernel :
      [(Instr.ord : Fab → Instr), .fence].all (fun e => meets (typical (e (two .none 0))) (e (two .none 0)) (fun _ => .b32) .none) = true) e he)⟩⟩
/-- ENDS where b's predicate value is true, and where it is not. -/
theorem witness_TokensMadeAndForwarded_ends : ∀ p ∈ [Pred.true, .false, .none], ∃ (f : Fab) (z : FiringAt) (t u : Token), (z.ops (.ends f) (fun _ => f.ty)).a = some t ∧
    (z.ops (.ends f) (fun _ => f.ty)).b = some u ∧ u.pred = p ∧ z.Ready (.ends f) (fun _ => f.ty) ∧ z.Sound (.ends f) (fun _ => f.ty) ∧
    judge f.pm (z.ops (.ends f) (fun _ => f.ty)) = .ordinary := by
  intro p hp
  refine ⟨two .none 7, firing (.ends (two .none 7)) (tok .zero .none) (tok .zero p) (tok .zero .none) (tok .zero .true), tok .zero .none, tok .zero p, ?_⟩
  simp only [List.mem_cons, List.not_mem_nil, or_false] at hp
  rcases hp with rfl | rfl | rfl <;> exact ⟨by decide +kernel, by decide +kernel, rfl, meets_iff (by decide +kernel)⟩

/-- STEER and LEXIT in each mode with each control value. -/
def controls : List (Pred × BitVec 3) := [(.true, 1), (.true, 0), (.false, 1), (.false, 0), (.none, 0), (.null, 1)]
/-- A form of two none-typed operands with a control token. -/
def controlled (c : Fab → Instr) (f : Fab) (p : Pred) : FiringAt := firing (c f) (tok (all8 5) .none) (tok (all8 6) p) (tok (all8 1) p) (tok .zero .true)
theorem witness_ControlTokensRoute : ∀ c ∈ [(Instr.steer : Fab → Instr), .lexit], ∀ e ∈ controls, ∃ (f : Fab) (z : FiringAt) (t k : Token), f.sub = e.2 ∧
    (z.ops (c f) (fun _ => f.ty)).a = some t ∧ (z.ops (c f) (fun _ => f.ty)).b = some k ∧ k.pred = e.1 ∧ z.Ready (c f) (fun _ => f.ty) ∧
    z.Sound (c f) (fun _ => f.ty) ∧ judge f.pm (z.ops (c f) (fun _ => f.ty)) = .ordinary := by
  intro c hc e he
  refine ⟨{ two .none 0 with sub := e.2 }, controlled c { two .none 0 with sub := e.2 } e.1, tok (all8 5) .none, tok (all8 6) e.1, rfl, ?_⟩
  simp only [controls, List.mem_cons, List.not_mem_nil, or_false] at he hc
  rcases hc with rfl | rfl <;> rcases he with rfl | rfl | rfl | rfl | rfl | rfl <;>
    exact ⟨by decide +kernel, by decide +kernel, rfl, meets_iff (by decide +kernel)⟩
theorem witness_ControlTokensRoute_sel : ∀ e ∈ controls, ∃ (f : Fab) (z : FiringAt) (t u k : Token), f.sub = e.2 ∧
    (z.ops (.sel f) (fun _ => f.ty)).a = some t ∧ (z.ops (.sel f) (fun _ => f.ty)).b = some u ∧ (z.ops (.sel f) (fun _ => f.ty)).c = some k ∧
    (z.ops (.sel f) (fun _ => f.ty)).p = none ∧ t.kind ≠ .null ∧ u.kind ≠ .fault ∧ k.kind ≠ .fault ∧ k.pred = e.1 ∧
    z.Ready (.sel f) (fun _ => f.ty) ∧ z.Sound (.sel f) (fun _ => f.ty) := by
  intro e he
  refine ⟨{ two .none 0 with sub := e.2 }, controlled .sel { two .none 0 with sub := e.2 } e.1, tok (all8 5) .none, tok (all8 6) e.1, tok (all8 1) e.1, rfl, ?_⟩
  simp only [controls, List.mem_cons, List.not_mem_nil, or_false] at he
  rcases he with rfl | rfl | rfl | rfl | rfl | rfl <;>
    exact ⟨by decide +kernel, by decide +kernel, by decide +kernel, by decide +kernel, by decide +kernel, by decide +kernel, by decide +kernel, rfl,
      (meets_iff (by decide +kernel : meets _ _ _ .none = true)).1, (meets_iff (by decide +kernel : meets _ _ _ .none = true)).2.1⟩

/-- A NULL token. -/
def tokNull : Token := { tok .zero .null with kind := .null }
theorem witness_MergeForwardsOrRestamps : ∀ e ∈ [(tok (all8 1) .none, tok (all8 2) .none), (tok (all8 1) .none, tokNull), (tokNull, tok (all8 2) .none), (tokNull, tokNull)],
    ∃ z : FiringAt, let i := Instr.merge (two .none 0)
      z.Ready i (fun _ => .none) ∧ z.Sound i (fun _ => .none) ∧ (z.ops i (fun _ => .none)).a = some e.1 ∧ (z.ops i (fun _ => .none)).b = some e.2 ∧
      (z.ops i (fun _ => .none)).c = none ∧ (z.ops i (fun _ => .none)).p = none := by
  intro e he
  refine ⟨firing (.merge (two .none 0)) e.1 e.2 (tok .zero .none) (tok .zero .none), ?_⟩
  simp only [List.mem_cons, List.not_mem_nil, or_false] at he
  rcases he with rfl | rfl | rfl | rfl <;>
    exact ⟨by constructor <;> decide +kernel, ⟨by decide +kernel, by decide +kernel⟩,
      by decide +kernel, by decide +kernel, by decide +kernel, by decide +kernel⟩

/-- A port on which one token waits. -/
def waits (t : Token) : PortState := { PortState.init with waiting := [⟨t, .store⟩], lastHi := t.hi }
/-- A region whose node is this, its slot in focus. -/
def atNode (w : Nat) (n : Node) : State := rState (region1 w n)
/-- That state's region. -/
def nodeRegion (w : Nat) (n : Node) : Region := region1 w n
/-- The word of an instruction. -/
def wordOf (i : Instr) : Nat := ((encode i).map (·.2)).getD 0
/-- The slot is in focus. -/
def atSlotB (s : State) (r : Region) : Bool := decide (s.focus = .slot 0 0 0) && decide (s.region? 0 = some r) && r.live && decide (s.upset = .none)
theorem atSlot_of {s : State} {r : Region} (h : atSlotB s r = true) : AtSlot s 0 0 0 r := by
  simp only [atSlotB, Bool.and_eq_true, decide_eq_true_eq] at h
  exact ⟨h.1.1.1, h.1.1.2, h.1.2, h.2⟩

theorem witness_MergeForwardsOrRestamps_ordered :
    (let n := { Node.init with a := waits (tok .zero .none), order := [false] }
     AtSlot (atNode (wordOf (.merge { two .none 0 with sub := 1 })) n) 0 0 0 (nodeRegion (wordOf (.merge { two .none 0 with sub := 1 })) n) ∧
     headIs n.a (tok .zero .none) ∧ n.order.head? = some false) ∧
    (let n := { Node.init with a := waits (tok .zero .none) }
     AtSlot (atNode (wordOf (.merge { two .none 0 with sub := 2 })) n) 0 0 0 (nodeRegion (wordOf (.merge { two .none 0 with sub := 2 })) n) ∧
     headIs n.a (tok .zero .none) ∧ n.turnB = false ∧ n.count < 0xFFFFFFFFFE ∧ ({ n with count := 0xFFFFFFFFFD }).count < 0xFFFFFFFFFE) ∧
    (let n := { Node.init with a := waits (tok .zero .none), order := [false], count := 0xFFFFFFFFFE }
     AtSlot (atNode (wordOf (.merge { two .none 0 with sub := 2 })) n) 0 0 0 (nodeRegion (wordOf (.merge { two .none 0 with sub := 2 })) n) ∧
     headIs n.a (tok .zero .none) ∧ n.order.head? = some false ∧ n.turnB = false ∧ 0xFFFFFFFFFE ≤ n.count) :=
  ⟨⟨atSlot_of (by decide +kernel), ⟨.store, [], rfl, by decide⟩, rfl⟩, ⟨atSlot_of (by decide +kernel), ⟨.store, [], rfl, by decide⟩, rfl, by decide, by decide⟩,
   ⟨atSlot_of (by decide +kernel), ⟨.store, [], rfl, by decide⟩, rfl, rfl, by decide⟩⟩

/-- Entry tokens, back-edge tokens and RANGE tokens, each at a node it suits. -/
theorem witness_StreamsMergeCarryExpand :
    (let n := { Node.init with a := waits (tok .zero .none), b := { waits { tok .zero .none with lo := 1, hi := 2 } with reach := 2 } }
     AtSlot (atNode 0 n) 0 0 0 (nodeRegion 0 n) ∧ headIs n.a (tok .zero .none) ∧ headIs n.b { tok .zero .none with lo := 1, hi := 2 } ∧
     (tok .zero .none).hi ≤ n.b.reachNow ∧ n.lastHi ≤ (tok .zero .none).lo) ∧
    (let n := { Node.init with a := waits (tok .zero .none) }
     AtSlot (atNode 0 n) 0 0 0 (nodeRegion 0 n) ∧ noneWaits n.b ∧ headIs n.a (tok .zero .none) ∧ n.live = false ∧ n.lastHi ≤ 0) ∧
    (let n := { Node.init with b := waits (tok .zero .none), live := true }
     AtSlot (atNode 0 n) 0 0 0 (nodeRegion 0 n) ∧ headIs n.b (tok .zero .none) ∧ n.live = true ∧ n.cur = 0 ∧ n.cur + 2 ≤ 0xFFFFFFFFFE) ∧
    (let n := { Node.init with b := waits tokNull, live := true }
     AtSlot (atNode 0 n) 0 0 0 (nodeRegion 0 n) ∧ headIs n.b tokNull ∧ tokNull.kind = .null ∧ tokNull.hi = n.cur + 1) ∧
    (let n := { Node.init with b := waits tokEnd }
     AtSlot (atNode 0 n) 0 0 0 (nodeRegion 0 n) ∧ headIs n.b tokEnd ∧ tokEnd.kind = .fin) :=
  ⟨⟨atSlot_of (by decide +kernel), ⟨.store, [], rfl, by decide⟩, ⟨.store, [], rfl, by decide⟩, by decide +kernel, by decide +kernel⟩,
   ⟨atSlot_of (by decide +kernel), rfl, ⟨.store, [], rfl, by decide⟩, rfl, by decide +kernel⟩,
   ⟨atSlot_of (by decide +kernel), ⟨.store, [], rfl, by decide⟩, rfl, rfl, by decide +kernel⟩,
   ⟨atSlot_of (by decide +kernel), ⟨.store, [], rfl, by decide⟩, rfl, rfl⟩, ⟨atSlot_of (by decide +kernel), ⟨.store, [], rfl, by decide⟩, rfl⟩⟩
theorem witness_StreamsMergeCarryExpand_range :
    (let n := { Node.init with range := some { tok .zero .none with kind := .range, hi := 2 } }
     AtSlot (atNode 0 n) 0 0 0 (nodeRegion 0 n) ∧ 0 + 1 < 2) ∧
    (let n := { Node.init with range := some { tok .zero .none with kind := .range } }
     AtSlot (atNode 0 n) 0 0 0 (nodeRegion 0 n) ∧ (tok .zero .none).hi = (tok .zero .none).lo + 1) ∧
    (let n := { Node.init with a := waits { tok .zero .none with kind := .range } }
     AtSlot (atNode 0 n) 0 0 0 (nodeRegion 0 n) ∧ n.range = none ∧ headIs n.a { tok .zero .none with kind := .range }) :=
  ⟨⟨atSlot_of (by decide +kernel), by decide⟩, ⟨atSlot_of (by decide +kernel), rfl⟩, ⟨atSlot_of (by decide +kernel), rfl, ⟨.store, [], rfl, by decide⟩⟩⟩

/-- A region's machine with translated, readable memory. -/
def rmState (r : Region) (bs : List Byte) : State := { mState [] bs with focus := .slot 0 0 0, regions := NatMap.insert [] 0 r }
/-- A launch of one context, 0. -/
def launch0 (ph : LaunchPhase) (gs : List Stage) (cs : List Channel) : Launch :=
  { rcd := ⟨0, 0, 0, false, false, [], 0, 1, 0⟩, part := 0, queue := 0, index := 0, bell := 0, since := 0, raised := 0, phase := ph, invalid := false, ctxs := [0]
    drawn := [], freed := [], stages := gs, chans := cs, sinkEnds := [], parent := none, task := [0], calls := [], spawns := [], started := 0, placed := 0
    restoredAt := none, views := [], flags := .none }
/-- A stage with these instances. -/
def stage0 (is : List Nat) : Stage := ⟨block1 0, 0, is, [(0, 1)], [], none, [], [], none, none⟩
/-- A state with a launch. -/
def withLaunch (s : State) (l : Launch) : State := { s with launches := NatMap.insert [] 0 l }

/-- An INPUT fed by a channel that holds a token; unfed INPUTs before and after their argument token. -/
theorem witness_InputsAndOutputs_inputs :
    (let f := one .none 0; let r := { region1 (wordOf (.input f)) .init with role := some ⟨0, 1, 0⟩, launch := some 0 }
     let s := withLaunch (rState r) (launch0 .running [stage0 [5], stage0 [0]] [⟨0, 0, 1, 0, 4, [tok (all8 3) .none]⟩])
     AtSlot s 0 0 0 r ∧ takeFirst (fun e => decide (e.1 = 0)) r.pendingReplay = none ∧ feedKind s r f = .channel ∧
     (takeInput s 0 r 0).any (fun e => decide (e.1.kind ≠ .fin) && decide (e.2.upset = .none) && (e.2.region? 0).any fun q => q.retained.isEmpty) = true) ∧
    (let f := one .none 0x20; let r := region1 (wordOf (.input f)) .init; let s := rmState r (toBytes 32 0 ++ toBytes 32 77)
     let a : Access := ⟨r.part, r.lqAt 0, 0, masterQuad (r.lqAt 0), .read, .plain, 4⟩
     AtSlot s 0 0 0 r ∧ takeFirst (fun e => decide (e.1 = 0)) r.pendingReplay = none ∧ feedKind s r f = .unfed ∧ firstCtx s r = 0 ∧ (r.node 0 0).count = 0 ∧
     argFault s a ((argBase s r + 32) % 2 ^ 57) = none ∧ s.readVa a ((argBase s r + 32) % 2 ^ 57) 32 = .done (toBytes 32 77, false)) ∧
    (let f := one .none 0; let r := region1 (wordOf (.input f)) { Node.init with count := 1 }; let s := rState r
     AtSlot s 0 0 0 r ∧ feedKind s r f = .unfed ∧ (r.node 0 (firstCtx s r)).count = 1) :=
  ⟨⟨atSlot_of (by decide +kernel), by decide +kernel, by decide +kernel, by decide +kernel⟩,
   ⟨atSlot_of (by decide +kernel), by decide +kernel, by decide +kernel, by decide +kernel, by decide +kernel, by decide +kernel, of_answered (by decide +kernel)⟩,
   ⟨atSlot_of (by decide +kernel), by decide +kernel, by decide +kernel⟩⟩
theorem witness_InputsAndOutputs_outputs :
    (let r := nodeRegion (wordOf (.output (bare .none 0))) { Node.init with a := waits (tok (all8 3) .none) }; let s := rState r
     AtSlot s 0 0 0 r ∧ headIs (r.node 0 0).a (tok (all8 3) .none) ∧ (0 : BitVec 24).toNat.testBit 4 = false ∧ r.replaying = [] ∧ outRoom s r 0 = true) ∧
    (let r := nodeRegion (wordOf (.output (bare .none 16))) { Node.init with a := waits (tok (all8 3) .none) }
     AtSlot (rState r) 0 0 0 r ∧ headIs (r.node 0 0).a (tok (all8 3) .none) ∧ (16 : BitVec 24).toNat.testBit 4 = true) ∧
    (let t := { tok (all8 8) .none with kind := .fault }; let r := nodeRegion (wordOf (.output (bare .none 0))) { Node.init with a := waits t }
     AtSlot (rState r) 0 0 0 r ∧ headIs (r.node 0 0).a t ∧ t.kind = .fault) :=
  ⟨⟨atSlot_of (by decide +kernel), ⟨.store, [], by decide +kernel, by decide⟩, by decide, rfl, by decide +kernel⟩,
   ⟨atSlot_of (by decide +kernel), ⟨.store, [], by decide +kernel, by decide⟩, by decide⟩, ⟨atSlot_of (by decide +kernel), ⟨.store, [], by decide +kernel, by decide⟩, rfl⟩⟩

/-- The span forms, each in each of its modes. -/
def spanForms : List Instr := [.spanset (one .none 1), .spanset { one .none 0 with sub := 1 }, .spanshift (one .none 1), .spanclip (one .none 1), .rangeMake (one .none 0),
  .stale (one .none 0), .stale { one .none 0 with sub := 1 }]
theorem witness_SpansAreSet : (∀ i ∈ spanForms, ∃ z : FiringAt, ((z.ops i (fun _ => .none)).a = some (tok ⟨0, 0, 1, 0, 0, 0, 0, 0⟩ .none)) ∧ z.Ready i (fun _ => .none) ∧
      z.Sound i (fun _ => .none) ∧ judge .none (z.ops i (fun _ => .none)) = .ordinary) ∧
    spanOk 0 1 false ∧ spanOk 0 0xFFFFFFFFFF true ∧ ¬ spanOk 0 0 false ∧ ¬ spanOk 0 0xFFFFFFFFFF false ∧ ¬ spanOk (-1) 1 true := by
  refine ⟨fun i hi => ⟨firing i (tok ⟨0, 0, 1, 0, 0, 0, 0, 0⟩ .none) (tok .zero .none) (tok .zero .none) (tok .zero .true), ?_⟩, ?_, ?_, ?_, ?_, ?_⟩
  · simp only [spanForms, List.mem_cons, List.not_mem_nil, or_false] at hi
    rcases hi with rfl | rfl | rfl | rfl | rfl | rfl | rfl <;> exact ⟨by decide +kernel, meets_iff (by decide +kernel)⟩
  all_goals simp [spanOk]

/-- CTXNEW, CTXFREE of a drawn context and of the firing's own, BARTOK in a generation that this firing does not complete. -/
theorem witness_ContextsBarriersSpawn : (∀ i ∈ [Instr.ctxnew (two .none 0), .ctxfree (two .none 0), .bartok (two .none 1)], ∃ z : FiringAt, z.r.launch = none ∧
      (z.ops i (fun _ => .none)).a = some (tok .zero .none) ∧ z.Ready i (fun _ => .none) ∧ z.Sound i (fun _ => .none) ∧ judge .none (z.ops i (fun _ => .none)) = .ordinary) ∧
    (rState (region1 0 .init)).lowestFree = some 0 ∧
    ({ region1 0 Node.init with drawn := [3] } : Region).drawn.contains 3 = true ∧ (region1 0 Node.init).drawn.contains 3 = false ∧
    (let z := firing (.bartok (two .none 1)) (tok .zero .none) (tok .zero .none) (tok .zero .none) (tok .zero .true); barrierDue z.s z.r z.slot z.ctx 1 = false) := by
  refine ⟨fun i hi => ⟨firing i (tok .zero .none) (tok .zero .none) (tok .zero .none) (tok .zero .true), ?_⟩, by decide +kernel, by decide, by decide, by decide +kernel⟩
  simp only [List.mem_cons, List.not_mem_nil, or_false] at hi
  rcases hi with rfl | rfl | rfl <;> exact ⟨rfl, by decide +kernel, meets_iff (by decide +kernel)⟩
/-- An arrival waits to be emitted; the record of a SPAWN is aligned and read, or misaligned. -/
theorem witness_ContextsBarriersSpawn_spawn :
    (let r := nodeRegion (wordOf (.bartok (two .none 0))) { Node.init with arrivals := [tok .zero .none] }
     (rState r).focus = .slot 0 0 0 ∧ (rState r).region? 0 = some r ∧ r.live = true ∧ (r.node 0 0).arrivals = tok .zero .none :: [] ∧
     (r.node 0 0).count = (r.node 0 0).generation ∧ ({ Node.init with generation := 1 } : Node).count < ({ Node.init with generation := 1 } : Node).generation) ∧
    (∀ v ∈ [(0 : Lane), 1], ∃ z : FiringAt, let i := Instr.spawn (two .none 0)
      z.r.launch = none ∧ spawnWaits z.s z.r z.slot z.ctx (two .none 0) = none ∧ laneAddr ((z.ops i (fun _ => .none)).lanesOf .a) 0 = v.toNat ∧
      (submitChild z.s z.r.part 0 ⟨none, z.rid, z.slot, z.s.nextId, [], tok .zero .none, 0⟩ [0]).toOption.isSome = true ∧ z.Ready i (fun _ => .none) ∧
      z.Sound i (fun _ => .none) ∧ judge .none (z.ops i (fun _ => .none)) = .ordinary) := by
  refine ⟨⟨rfl, by decide +kernel, by decide +kernel, by decide +kernel, rfl, by decide⟩, fun v hv => ⟨firing (.spawn (two .none 0)) (tok ⟨v, 0, 0, 0, 0, 0, 0, 0⟩ .none) (tok .zero .none) (tok .zero .none) (tok .zero .true), ?_⟩⟩
  simp only [List.mem_cons, List.not_mem_nil, or_false] at hv
  rcases hv with rfl | rfl <;> exact ⟨rfl, by decide +kernel, by decide +kernel, by decide +kernel, meets_iff (by decide +kernel)⟩

/-- The access forms with targets in the word and with a third-party target; PREF; PUBLISH of a valid and of an invalid entry, WPTR, WAITWP. -/
def accessForms : List (Fab → Instr) := accessTable.map (·.1) ++ [.pref]
theorem witness_AccessesAndPointers : (∀ e ∈ accessForms, ∃ (f : Fab) (z : FiringAt), f.xr = false ∧ z.r.replaying = [] ∧ z.Ready (e f) (fun _ => f.ty) ∧ z.Sound (e f) (fun _ => f.ty) ∧
      judge f.pm (z.ops (e f) (fun _ => f.ty)) = .ordinary) ∧
    (∀ e ∈ accessTable, ∃ (f : Fab) (z : FiringAt), f.xr = true ∧ destinations z f (z.ops (e.1 f) (fun _ => f.ty)) z.r = none ∧ z.Ready (e.1 f) (fun _ => f.ty) ∧
      z.Sound (e.1 f) (fun _ => f.ty) ∧ judge f.pm (z.ops (e.1 f) (fun _ => f.ty)) = .ordinary) ∧
    (∀ e ∈ [(Instr.publish : Fab → Instr), .wptr, .waitwp], ∃ (f : Fab) (z : FiringAt), detLaunchOf z.s z.ctx = none ∧ (z.ops (e f) (fun _ => .b32)).a = some (tok .zero .none) ∧
      z.Ready (e f) (fun _ => .b32) ∧ z.Sound (e f) (fun _ => .b32) ∧ judge f.pm (z.ops (e f) (fun _ => .b32)) = .ordinary) ∧
    PubEntry.init.w0.toNat.testBit 0 = false ∧ (⟨1, 0, 0, 0⟩ : PubEntry).w0.toNat.testBit 0 = true := by
  refine ⟨fun e he => ⟨two .i32 0x2400FF, typical (e (two .i32 0x2400FF)), by decide, rfl, meets_iff (List.all_eq_true.mp (by decide +kernel :
      accessForms.all (fun e => meets (typical (e (two .i32 0x2400FF))) (e (two .i32 0x2400FF)) (fun _ => .i32) .none) = true) e he)⟩, fun e he => ?_, fun e he => ?_, by decide, by decide⟩
  · refine ⟨bare .i32 0x2480FF, typical (e.1 (bare .i32 0x2480FF)), by decide, ?_, meets_iff (List.all_eq_true.mp (by decide +kernel :
      accessTable.all (fun e => meets (typical (e.1 (bare .i32 0x2480FF))) (e.1 (bare .i32 0x2480FF)) (fun _ => .i32) .none) = true) e he)⟩
    exact of_decide_eq_true (List.all_eq_true.mp (by decide +kernel : accessTable.all (fun e => decide (destinations (typical (e.1 (bare .i32 0x2480FF))) (bare .i32 0x2480FF)
      ((typical (e.1 (bare .i32 0x2480FF))).ops (e.1 (bare .i32 0x2480FF)) (fun _ => .i32)) (typical (e.1 (bare .i32 0x2480FF))).r = none)) = true) e he)
  · refine ⟨two .none 0, firing (e (two .none 0)) (tok .zero .none) (tok .zero .none) (tok .zero .none) (tok .zero .true), ?_⟩
    simp only [List.mem_cons, List.not_mem_nil, or_false] at he
    rcases he with rfl | rfl | rfl <;> exact ⟨by decide +kernel, by decide +kernel, meets_iff (by decide +kernel)⟩

theorem witness_TrapAndBreak : (∃ z : FiringAt, z.Ready (.trap (bare .none 42)) (fun _ => .none) ∧ z.Sound (.trap (bare .none 42)) (fun _ => .none) ∧
      judge .none (z.ops (.trap (bare .none 42)) (fun _ => .none)) = .ordinary) ∧
    (∃ z : FiringAt, (z.ops (.brk (one .none 0)) (fun _ => .none)).a = some (tok .zero .none) ∧ (z.r.node z.slot z.ctx).held = [] ∧ z.Ready (.brk (one .none 0)) (fun _ => .none) ∧
      z.Sound (.brk (one .none 0)) (fun _ => .none) ∧ judge .none (z.ops (.brk (one .none 0)) (fun _ => .none)) = .ordinary) ∧
    (let n := { Node.init with held := [⟨tok .zero .none, ⟨0, 1⟩, false⟩] }; let r := nodeRegion (wordOf (.brk (one .none 0))) n; let s := rState r
     s.regions = [(0, r)] ∧ r.activeNodes = [(0, 0, n)] ∧ r.instrAt 0 = some (.brk (one .none 0)) ∧ s.pqOf (r.lqAt 0) = 0 ∧ r.peBit 0 % 9 = 0 ∧ s.inTurn (r.lqAt 0) = true) ∧
    (let n := { Node.init with held := [⟨tok .zero .none, ⟨0, 1⟩, true⟩] }; let r := nodeRegion (wordOf (.brk (one .none 0))) n
     AtSlot (rState r) 0 0 0 r ∧ ∃ h hs, n.held = h :: hs ∧ h.freed = true) :=
  ⟨⟨firing (.trap (bare .none 42)) (tok .zero .none) (tok .zero .none) (tok .zero .none) (tok .zero .true), meets_iff (by decide +kernel)⟩,
   ⟨firing (.brk (one .none 0)) (tok .zero .none) (tok .zero .none) (tok .zero .none) (tok .zero .true), by decide +kernel, by decide +kernel, meets_iff (by decide +kernel)⟩,
   by and_intros <;> decide +kernel, ⟨atSlot_of (by decide +kernel), _, _, rfl, rfl⟩⟩
/-- A TRAP that fires freezes its region and leaves the record of its fault with 42 in ARG0 (R392). -/
theorem test_trap_freezes : then' (exec (.trap (bare .none 42)) (firing (.trap (bare .none 42)) (tok .zero .none) (tok .zero .none) (tok .zero .none) (tok .zero .true)).s)
    (fun t => (t.region? 0).any (·.frozen) && (t.partOf 0).records.any fun f => decide (f.code = 0x60) && decide (f.arg0 = 42)) = true := by decide +kernel

/-- Every form with a NULL operand, with a FAULT operand, with a predicate that does not match, with a poisoned one. -/
def nullForms (pm : Pm) (a p : Token) (want : Judged) : Bool := plainResults.all fun e =>
  let f : Fab := { two .i32 0 with pm := pm }
  let i := e.1 f
  let z := firing i a (tok (all8 2) .true) (tok (all8 1) .true) p
  decide (z.s.region? z.rid = some z.r) && decide (nextSet i (z.r.node z.slot z.ctx) = some z.set) && decide (z.set.span? = some z.span) &&
    slotReady i z.s z.r z.slot z.ctx (some (z.ops i fun _ => e.2 f)) && decide (judge f.pm (z.ops i fun _ => e.2 f) = want)
theorem witness_NullAndFaultFirings : nullForms .none tokNull (tok .zero .none) .null = true ∧
    nullForms .none { tok .zero .none with kind := .fault } (tok .zero .none) .fault = true ∧
    nullForms .onTrue (tok (all8 7) .none) (tok .zero .false) .consumed = true ∧
    (plainResults.all fun e => let i := e.1 { two .i32 0 with pm := .onTrue }
      consumesPoison i ((firing i (tok (all8 7) .none) (tok (all8 2) .none) (tok .zero .none) { tok .zero .true with poison := true }).ops i fun _ => .i32)) = true := by
  decide +kernel

theorem witness_ComputeFormsFrame : ∀ c ∈ computeForms, ∃ (f : Fab) (s : State) (r : Region) (z : CandSet) (t : State), s.focus = .slot 0 0 0 ∧ s.region? 0 = some r ∧
    nextSet (c f) (r.node 0 0) = some z ∧ s.upset = .none ∧ exec (c f) s = .next t := by
  intro c hc
  let z := firing (c (two .none 0)) (tok (all8 7) .none) (tok (all8 2) .none) (tok .zero .none) (tok .zero .true)
  have h : computeForms.all (fun c => let z := firing (c (two .none 0)) (tok (all8 7) .none) (tok (all8 2) .none) (tok .zero .none) (tok .zero .true)
      decide (z.s.region? 0 = some z.r) && decide (nextSet (c (two .none 0)) (z.r.node 0 0) = some z.set)) = true := by decide +kernel
  have h1 := List.all_eq_true.mp h c hc
  simp only [Bool.and_eq_true, decide_eq_true_eq] at h1
  have h2 : ∃ t, exec (c (two .none 0)) z.s = .next t := by
    have : computeForms.all (fun c => (after (exec (c (two .none 0)) (firing (c (two .none 0)) (tok (all8 7) .none) (tok (all8 2) .none) (tok .zero .none) (tok .zero .true)).s)).isSome) = true := by
      decide +kernel
    have h3 := List.all_eq_true.mp this c hc
    show ∃ t, exec (c (two .none 0)) (firing (c (two .none 0)) (tok (all8 7) .none) (tok (all8 2) .none) (tok .zero .none) (tok .zero .true)).s = .next t
    cases he : exec (c (two .none 0)) (firing (c (two .none 0)) (tok (all8 7) .none) (tok (all8 2) .none) (tok .zero .none) (tok .zero .true)).s with
    | next t => exact ⟨t, rfl⟩
    | fault f => rw [he] at h3; simp [after] at h3
    | refused f => rw [he] at h3; simp [after] at h3
  obtain ⟨t, ht⟩ := h2
  exact ⟨two .none 0, z.s, z.r, z.set, t, rfl, h1.1, h1.2, rfl, ht⟩

/-! ## Steps, sequencer words -/

/-- A powered package that is to run a word first. -/
def first (nbits w : Nat) : State := ({ State.reset with powered := true } : State).withFetchWord nbits w

theorem witness_StepRunsTheDecodedInstruction_queue :
    (let s := first 128 0x16000000000000000000000000000000
     let s1 := beginTurn ⟨1, 1, .none, .queue 0 0⟩ { s with agenda := [] }
     s.powered = true ∧ s.agenda = ⟨1, 1, .none, .queue 0 0⟩ :: [] ∧ (s1.queueOf 0 0).st = .running ∧ s1.lqOwner 0 ≠ none ∧ s1.inTurn 0 = true ∧
     (s1.queueOf 0 0).isAnswering = false ∧ frozenQueue s1 0 (s1.queueOf 0 0) = false ∧ fetchWord (fetchStruck s1 0 0) 0 0 = .done 0x16000000000000000000000000000000 ∧
     waitMet ((fetchStruck s1 0 0).quadOf 0) (hdrFields 0x16000000000000000000000000000000) = true ∧
     (∃ i, decodeTableWord 128 0x16000000000000000000000000000000 = some i ∧ i.wellFormed = true)) ∧
    (let s := first 128 0xF0000000000000000000000000000000
     let s1 := beginTurn ⟨1, 1, .none, .queue 0 0⟩ { s with agenda := [] }
     (s1.queueOf 0 0).st = .running ∧ s1.lqOwner 0 ≠ none ∧ s1.inTurn 0 = true ∧ fetchWord (fetchStruck s1 0 0) 0 0 = .done 0xF0000000000000000000000000000000 ∧
     decodeTableWord 128 0xF0000000000000000000000000000000 = none) :=
  ⟨⟨rfl, rfl, by decide +kernel, by decide +kernel, by decide +kernel, by decide +kernel, by decide +kernel, of_answered (by decide +kernel), by decide +kernel,
    .halt h0 (opA 0 0 0 0), by decide +kernel, by decide +kernel⟩,
   ⟨by decide +kernel, by decide +kernel, by decide +kernel, of_answered (by decide +kernel), by decide +kernel⟩⟩
theorem witness_StepRunsTheDecodedInstruction_pe :
    (let s := first 64 0x2030420258000005
     let s1 := beginTurn ⟨1, 1, .none, .pe 0 0⟩ { s with agenda := [] }
     s.agenda = ⟨1, 1, .none, .pe 0 0⟩ :: [] ∧ ∃ r, s1.region? 0 = some r ∧ r.live = true ∧ s1.inTurn (r.lqOfBit (r.pes.getD 0 0)) = true ∧
       selectFiring s1 0 r 0 = some (0, 0) ∧ (r.instrAt 0).isSome = true) ∧
    (let s1 := beginTurn ⟨1, 1, .none, .pe 0 0⟩ (rState (region1 0x2030420258000005 .init)); let r := (s1.region? 0).getD .init
     s1.region? 0 = some r ∧ r.live = true ∧ s1.inTurn (r.lqOfBit (r.pes.getD 0 0)) = true ∧ selectFiring s1 0 r 0 = none) ∧
    (let s : State := { State.reset with powered := false, agenda := [⟨0, 0, .none, .event .thermalLimit⟩] }
     s.powered = false ∧ s.agenda = ⟨0, 0, .none, .event .thermalLimit⟩ :: [] ∧ ∀ ws, Act.event Instr.thermalLimit ≠ .event (.powerOnReset ws)) :=
  ⟨⟨by decide +kernel, (first 64 0x2030420258000005).regions.head?.map (·.2) |>.getD .init, by decide +kernel, by decide +kernel, by decide +kernel, by decide +kernel, by decide +kernel⟩,
   ⟨by decide +kernel, by decide +kernel, by decide +kernel, by decide +kernel⟩, ⟨rfl, rfl, fun ws => by simp⟩⟩
/-- A step from a state whose memory is canonical has a next state. -/
theorem witness_EveryStepKeepsMemoryCanonical : Sys2Proof.Safety.MemInv (first 128 0x16000000000000000000000000000000) ∧ (after (step (first 128 0x16000000000000000000000000000000))).isSome = true :=
  ⟨by show _ = true; decide +kernel, by decide +kernel⟩
theorem witness_PoweredMachineNeverStops : (first 64 0x2030420258000005).powered = true := rfl
theorem witness_DecodingInvertsEncoding : (Instr.add (two .i32 0)).wellFormed = true ∧ encode (.add (two .i32 0)) = some (64, wordOf (.add (two .i32 0))) ∧
    (Instr.li h0 (opA 1 0 0 5)).wellFormed = true ∧ encode (.li h0 (opA 1 0 0 5)) = some (128, 0x8000000000000000005) := by decide +kernel

/-- A frame over words 0x10 to 0x30. -/
def frame (n : Nat) : LoopFrame := ⟨n, 0x10, 0x30⟩
theorem witness_RetirementLoopsAndBranches :
    noLoopEnd { q0 [] with loops := [frame 2] } ∧ ((qState (q0 [])).quadOf 0).semOf 3 + 65535 ≤ 65535 ∧ 65535 < ((qState (q0 [])).quadOf 0).semOf 3 + 65536 ∧
    framesAfter 0 0x20 [frame 2] = none ∧ (frame 2).last = 0x30 ∧ 1 < (frame 2).count ∧ (frame 1).count ≤ 1 ∧
    (frame 2).has 0 = false ∧ (frame 2).has 0x10 = true ∧ (frame 2).has 0x30 = true ∧ (frame 2).has 0x40 = false := by
  refine ⟨?_, by decide +kernel, by decide +kernel, by decide +kernel, rfl, by decide, by decide, by decide, by decide, by decide, by decide⟩
  intro f hf; cases hf; decide
theorem witness_TrapEntryAndVector : ({ q0 [] with tvec := 0x100 } : Queue).tvec ≠ 0 ∧ (q0 []).tvec = 0 := by decide
/-- R262: the body ends with a pass left, and with none. -/
theorem test_loop_end :
    then' (exec (.addi h0 (opA 1 1 0 1)) (qState { q0 [] with pc := 0x30, loops := [frame 2] })) (fun t => decide ((t.queueOf 0 0).pc = 0x10) && decide ((t.queueOf 0 0).loops = [frame 1])) = true ∧
    then' (exec (.addi h0 (opA 1 1 0 1)) (qState { q0 [] with pc := 0x30, loops := [frame 1] })) (fun t => decide ((t.queueOf 0 0).pc = 0x40) && decide ((t.queueOf 0 0).loops = [])) = true := by
  decide +kernel

/-- The queue after a word. -/
def qAfter (i : Instr) (s : State) (p : Queue → Bool) : Bool := then' (exec i s) fun t => p (t.queueOf 0 0)
/-- Register 1 after a scalar word over registers 2 and 3. -/
def reg1 (i : Hdr → OpA → Instr) (imm : BitVec 64) (a b : Word64) : Option Word64 :=
  (after (exec (i h0 (opA 1 2 3 imm)) (qState (q0 [(2, a), (3, b)])))).map fun t => (t.queueOf 0 0).reg 1
theorem witness_ScalarWordsGiveExactResults : (qState (q0 [])).focus = .queue 0 0 ∧ scalarTable.length = 13 := ⟨rfl, rfl⟩
/-- R258 at wraps, sign changes and shift counts above 63. -/
theorem test_scalar_results :
    reg1 .li 5 0 0 = some 5 ∧ reg1 .addi 1 0xFFFFFFFFFFFFFFFF 0 = some 0 ∧ reg1 .scalarAdd 0 0xFFFFFFFFFFFFFFFF 2 = some 1 ∧ reg1 .scalarSub 0 1 2 = some 0xFFFFFFFFFFFFFFFF ∧
    reg1 .scalarAnd 0 0xF0 0x3C = some 0x30 ∧ reg1 .scalarOr 0 0xF0 0x3C = some 0xFC ∧ reg1 .scalarXor 0 0xF0 0x3C = some 0xCC ∧ reg1 .scalarShl 0 1 65 = some 2 ∧
    reg1 .scalarShr 0 0x8000000000000000 63 = some 1 ∧ reg1 .scalarSar 0 0x8000000000000000 63 = some 0xFFFFFFFFFFFFFFFF ∧ reg1 .scalarMul 0 0x100000000 0x100000001 = some 0x100000000 ∧
    reg1 .slt 0 0xFFFFFFFFFFFFFFFF 0 = some 1 ∧ reg1 .sltu 0 0xFFFFFFFFFFFFFFFF 0 = some 0 ∧
    qAfter (.li h0 (opA 0 0 0 5)) (qState (q0 [])) (fun x => decide (x.reg 0 = 0) && decide (x.pc = 16)) = true := by decide +kernel

theorem witness_RegisterZeroStaysZero : (5 : Nat) ≠ 0 ∧ (7 : Nat) ≠ 5 := by decide
/-- BRC on each kind of condition at the values where it turns, RET aligned and not, a full loop stack, COUNT 0. -/
theorem witness_ControlWords :
    branchTaken 0 1 1 ∧ ¬ branchTaken 1 1 1 ∧ branchTaken 2 0xFFFFFFFFFFFFFFFF 0 ∧ branchTaken 3 0 0 ∧ ¬ branchTaken 4 0xFFFFFFFFFFFFFFFF 0 ∧ branchTaken 5 0 0 ∧
    (0x20 : Word64).toNat % 16 = 0 ∧ (0x21 : Word64).toNat % 16 ≠ 0 ∧ 4 ≤ ({ q0 [] with loops := [frame 1, frame 1, frame 1, frame 1] } : Queue).loops.length ∧
    (let s := qState (q0 []); bits (s.remapOf 0) 15 8 ≤ 1 ∧ s.launchOfCtx (s.queueOf 0 0).ctx = none) ∧
    (let s := withLaunch (qState (q0 [])) (launch0 .running [] [])
     ∃ l, s.launchOfCtx (s.queueOf 0 0).ctx = some (0, l) ∧ yieldsTo s 0 l = none) ∧
    1 < bits (({ qState (q0 []) with remap := NatMap.set 0 [] 0 0x200 } : State).remapOf 0) 15 8 := by
  refine ⟨?_, ?_, ?_, ?_, ?_, ?_, by decide, by decide, by decide, ⟨by decide +kernel, by decide +kernel⟩, ⟨launch0 .running [] [], by decide +kernel, by decide +kernel⟩, by decide +kernel⟩ <;>
    simp [branchTaken]
/-- R260, R261: branch targets, CALL's return address, LOOP's frame and its skip. -/
theorem test_control :
    qAfter (.br h0 (opA 0 0 0 0xFFFFFFFFFFFFFFFF)) (qState { q0 [] with pc := 0x40 }) (fun x => decide (x.pc = 0x40)) = true ∧
    qAfter (.brc h0 (opA 2 2 0 1)) (qState (q0 [(2, 0xFFFFFFFFFFFFFFFF)])) (fun x => decide (x.pc = 0x20)) = true ∧
    qAfter (.call h0 (opA 5 0 0 2)) (qState (q0 [])) (fun x => decide (x.pc = 0x30) && decide (x.reg 5 = 0x10)) = true ∧
    qAfter (.ret h0 (opA 0 2 0 0)) (qState (q0 [(2, 0x120)])) (fun x => decide (x.pc = 0x120)) = true ∧
    qAfter (.ret h0 (opA 0 2 0 0)) (qState (q0 [(2, 0x121)])) (fun x => decide (x.st = .trapped) && decide (x.pc = 0)) = true ∧
    qAfter (.loop h0 (opA 0 0 0 0x300000002)) (qState (q0 [])) (fun x => decide (x.loops = [⟨3, 0x10, 0x20⟩]) && decide (x.pc = 0x10)) = true ∧
    qAfter (.loop h0 (opA 0 0 0 0x000000002)) (qState (q0 [])) (fun x => decide (x.loops = []) && decide (x.pc = 0x30)) = true ∧
    qAfter (.halt h0 (opA 0 0 0 0)) (qState (q0 [])) (fun x => decide (x.st = .halted) && decide (x.pc = 0x10)) = true ∧
    qAfter (.yield h0 (opA 0 0 0 0)) (qState (q0 [])) (fun x => decide (x.pc = 0x10)) = true := by decide +kernel

/-- SEM[1] at 65,535. -/
def semFull : State := let s := qState (q0 [(2, 1), (3, 0x10000)]); s.setQuad 0 { ((s.quadOf 0).setSem 1 65535) with semPrev := NatMap.set 0 [] 1 65535 }
theorem witness_SemaphoreAndBarrierWords :
    (0 : BitVec 64).toNat.testBit 32 = false ∧ (0x1FFFF0000 : BitVec 64).toNat.testBit 32 = true ∧ (semFull.quadOf 0).semSeen 0 < bits (0x1FFFF0000 : BitVec 64).toNat 31 16 ∧
    (semFull.quadOf 0).semOf 0 + 65535 ≤ 65535 ∧ 65535 < (semFull.quadOf 0).semOf 1 + 1 ∧ bits (0x000 : BitVec 64).toNat 10 8 = 0 ∧ 4 < bits (0x500 : BitVec 64).toNat 10 8 ∧
    bits (0x400 : BitVec 64).toNat 10 8 = 4 ∧ (semFull.quadOf 0).nbOf 0 = ⟨0, [], 0, 0⟩ ∧
    (let y := (semFull.quadOf 0).setNb 0 ⟨0, [(0, true)], 2, 1⟩; NatMap.get false (y.nbOf 0).pend 0 = true ∧ NatMap.get false (y.nbOf 0).pend 1 = false ∧ (y.nbOf 0).arr + 1 = (y.nbOf 0).exp) := by
  decide +kernel
/-- R264, R266. -/
theorem test_semaphores :
    then' (exec (.sig h0 (opA 0 2 0 0x10000)) (qState (q0 [(2, 3)]))) (fun t => decide ((t.quadOf 0).semOf 0 = 4)) = true ∧
    then' (exec (.sig h0 (opA 0 2 0 1)) semFull) (fun t => decide ((t.quadOf 0).semOf 1 = 65535) && decide ((t.queueOf 0 0).st = .trapped)) = true ∧
    then' (exec (.semset h0 (opA 0 2 0 0x60005)) (qState (q0 [(2, 3)]))) (fun t => decide ((t.quadOf 0).semOf 5 = 9)) = true ∧
    then' (exec (.semset h0 (opA 0 3 0 5)) semFull) (fun t => decide ((t.quadOf 0).semOf 5 = 0) && decide ((t.queueOf 0 0).st = .trapped)) = true ∧
    qAfter (.semrd h0 (opA 4 0 0 1)) semFull (fun x => decide (x.reg 4 = 65535)) = true ∧
    qAfter (.wait h0 (opA 0 0 0 0x100010000)) semFull (fun x => decide (x.pc = 0) && decide (x.wait.kind = .sem)) = true ∧
    then' (exec (.nbarr h0 (opA 0 0 0 0x203)) semFull) (fun t => decide ((t.quadOf 0).nbOf 3 = ⟨0, [(0, true)], 2, 1⟩)) = true ∧
    then' (exec (.nbarr h0 (opA 0 0 0 0x103)) semFull) (fun t => decide ((t.quadOf 0).nbOf 3 = ⟨1, [], 1, 0⟩)) = true ∧
    qAfter (.nbwait h0 (opA 0 0 0 3)) semFull (fun x => decide (x.pc = 16)) = true := by decide +kernel

/-- A task table: task 0 READY at PRIO 1, task 1 READY at PRIO 2, task 2 waits with CNT 1, task 3's successor is 2. -/
def tasks : Quad := { ([(0, ⟨1, 0, [0, 0, 0, 0], 0, .ready, 0x100⟩), (1, ⟨2, 0, [0, 0, 0, 0], 0, .ready, 0x200⟩), (2, ⟨0, 0, [0, 0, 0, 0], 1, .wait, 0x300⟩),
  (3, ⟨0, 1, [2, 0, 0, 0], 0, .run, 0x400⟩)].foldl (fun y (e : Nat × TaskEntry) => y.setTask e.1 e.2) ((qState (q0 [(2, 64), (3, 0x101)])).quadOf 0)) with fresh := [] }
/-- Its machine. -/
def taskState (y : Quad) : State := (qState (q0 [(2, 64), (3, 0x101)])).setQuad 0 y
theorem witness_TaskWords : readyHead tasks = some 1 ∧ (∀ e ∈ tasks.tasks, e.2.prio ≤ 15 ∧ e.1 < 64) ∧ rival (taskState tasks) 0 0 .task = false ∧
    (∀ t ∈ (tasks.taskOf 3).successors, (tasks.taskOf 3).successors.count t ≤ (tasks.taskOf t).cnt) ∧
    (∃ t ∈ ((tasks.setTask 2 .init).taskOf 3).successors, ((tasks.setTask 2 .init).taskOf t).cnt < ((tasks.setTask 2 .init).taskOf 3).successors.count t) ∧
    readyHead ((tasks.setTask 0 .init).setTask 1 .init) = none ∧ (∃ e ∈ ((tasks.setTask 0 .init).setTask 1 .init).tasks, e.2.st = .wait) ∧
    readyHead Quad.init = none ∧ (∀ e ∈ Quad.init.tasks, e.2.st ≠ .wait ∧ e.2.st ≠ .ready) ∧ (64 : Word64).toNat % 16 = 0 ∧ (0x101 : Word64).toNat % 16 ≠ 0 := by
  refine ⟨by decide +kernel, by decide +kernel, by decide +kernel, by decide +kernel, ⟨2, by decide +kernel, by decide +kernel⟩, by decide +kernel, ⟨(2, ⟨0, 0, [0, 0, 0, 0], 1, .wait, 0x300⟩), by decide +kernel, rfl⟩, by decide +kernel, by decide, by decide, by decide⟩
/-- R268 to R270. -/
theorem test_tasks :
    then' (exec (.taskdef h0 (opA 0 2 0 0x705300204)) (taskState tasks)) (fun t => decide ((t.quadOf 0).taskOf 4 = ⟨0, 3, [5, 7, 0, 0], 2, .wait, 64⟩)) = true ∧
    then' (exec (.taskdone h0 (opA 0 0 0 3)) (taskState tasks)) (fun t => decide (((t.quadOf 0).taskOf 2).st = .ready) && decide (((t.quadOf 0).taskOf 3).st = .done)) = true ∧
    qAfter (.tasknext h0 (opA 5 0 0 0)) (taskState tasks) (fun x => decide (x.reg 5 = 1) && decide (x.pc = 0x200)) = true ∧
    qAfter (.tasknext h0 (opA 5 0 0 0)) (qState (q0 [])) (fun x => decide (x.reg 5 = 0xFFFFFFFFFFFFFFFF) && decide (x.pc = 16)) = true := by decide +kernel

/-! ## Memory and system words -/

/-- A queue in a quad whose first page is in the capacity tier, read and write, holding these bytes. -/
def hState (x : Queue) (bs : List Byte) : State :=
  let s := qState x
  { s with pquads := NatMap.set .init [] 0 { (s.pquadOf 0) with tlb := [⟨0, 0, 2 ^ 16, 0x2000000007F⟩] }, parts := NatMap.set .init s.parts 0 { (s.partOf 0) with ptroot := 1 }, tables := NatMap.set 0 [] (regAddr 6 16 0) 0x843F, mem := putBytes [] capBase bs }

/-- Read and write of a translated page, ALIGNMENT, an untranslated page that faults, a wait of the walker, a poisoned granule. -/
theorem witness_QueueLoadsAndStores :
    (let s := mState [(2, 8)] (toBytes 8 0 ++ toBytes 8 0x1122334455667788); let acc := queueAccess s 0 (s.queueOf 0 0)
     s.focus = .queue 0 0 ∧ s.readVa acc 8 8 = .done (toBytes 8 0x1122334455667788, false) ∧ (∃ t, s.writeVa acc 8 (toBytes 8 5) = .done t) ∧
     ({ s with poison := NatMap.set false [] (s.nearBase 0 / 64) true } : State).readVa acc 8 8 = .done (toBytes 8 0x1122334455667788, true)) ∧
    (let s := qState (q0 []); let acc := queueAccess s 0 (s.queueOf 0 0); (∃ c v, s.readVa acc 8 8 = .fault c v) ∧ ∃ c v, s.writeVa acc 8 (toBytes 8 5) = .fault c v) ∧
    (3 : Nat) % 8 ≠ 0 := by
  refine ⟨⟨rfl, of_answered (by decide +kernel), ?_, of_answered (by decide +kernel)⟩, ?_, by decide⟩
  · have : (match (mState [(2, 8)] (toBytes 8 0 ++ toBytes 8 0x1122334455667788)).writeVa (queueAccess (mState [(2, 8)] (toBytes 8 0 ++ toBytes 8 0x1122334455667788)) 0
        ((mState [(2, 8)] (toBytes 8 0 ++ toBytes 8 0x1122334455667788)).queueOf 0 0)) 8 (toBytes 8 5) with | .done _ => true | _ => false) = true := by decide +kernel
    split at this
    · rename_i t h; exact ⟨t, h⟩
    · cases this
  · exact ⟨⟨_, _, of_faulted (c := 0x10) (v := 8) (by decide +kernel)⟩, ⟨_, _, of_faulted (c := 0x10) (v := 8) (by decide +kernel)⟩⟩
/-- R259: LDQ reads little-endian; STQ writes, and LDQ of a misaligned address traps. -/
theorem test_loads :
    qAfter (.ldq h0 (opA 4 2 0 8)) (mState [(2, 0)] (toBytes 8 0 ++ toBytes 8 0x1122334455667788)) (fun x => decide (x.reg 4 = 0x1122334455667788) && decide (x.pc = 16)) = true ∧
    qAfter (.ldq h0 (opA 4 2 0 4)) (mState [(2, 0)] []) (fun x => decide (x.st = .trapped)) = true ∧
    (let s := mState [(2, 16), (3, 0x0102)] []
     then' (exec (.stq h0 (opA 0 2 3 8)) s) fun t => decide (t.byteAt (s.nearBase 0 + 24) = 2) && decide (t.byteAt (s.nearBase 0 + 25) = 1)) = true := by decide +kernel

/-- The address of a register of partition 0, of SEM 3 of logical quad 0, of DTIME; one that names none; one of SPACE 5. -/
theorem witness_RegisterAccessWords :
    (let s := qState (q0 []); s.focus = .queue 0 0 ∧ rival s 0 0 .system = false ∧
     (let s1 := served s 0 0 .system
      regAt s1 0x4000000008 = some .dtime ∧ mayRead s1 0 0x4000000008 = true ∧ mayWrite s1 0 .dtime 0x4000000008 = false ∧
      regAt s1 (regAddr 3 0 0x18) = some (.fidx 0) ∧ mayWrite s1 0 (.fidx 0) (regAddr 3 0 0x18) = true ∧ mayRead s1 0 (regAddr 3 1 0x18) = false ∧
      regAt s1 (regAddr 3 1 0x18) = some (.fidx 1) ∧ regAt s1 0x4000000F00 = none ∧ (0x4000000F00 : Nat) / 2 ^ 36 ≠ 5 ∧ (0x5000000000 : Nat) / 2 ^ 36 = 5 ∧ (0x13 : Nat) % 8 ≠ 0)) := by
  decide +kernel
theorem test_register_words :
    qAfter (.sysrd h0 (opA 4 2 0 8)) ({ qState (q0 [(2, 0x4000000000)]) with dtime := 77 } : State) (fun x => decide (x.reg 4 = 77) && decide (x.pc = 16)) = true ∧
    qAfter (.syswr h0 (opA 0 2 3 8)) (qState (q0 [(2, 0x4000000000)])) (fun x => decide (x.st = .trapped)) = true := by decide +kernel

/-- A partition whose fault ring has 64 slots. -/
def ringState (x : Queue) : State := let s := hState x []; s.setPart 0 { (s.partOf 0) with fring := 6 }
/-- The same, the ring's page being held. -/
def heldRing (x : Queue) : State :=
  let s := ringState x
  { s with pquads := NatMap.set .init [] 0 { (s.pquadOf 0) with tlb := [⟨0, 0, 2 ^ 16, 0x2000000007F + 2 ^ 52⟩] } }
theorem witness_MaintenanceWords :
    (let s := qState (q0 [(3, 1)]); s.focus = .queue 0 0 ∧ rival s 0 0 .system = false ∧ (s.queueOf 0 0).phase = .fresh ∧ travelling s ⟨0, 0, 2 ^ 57⟩ = [] ∧ travelling s ⟨0, 0, 2 ^ 16⟩ = [] ∧
     (served s 0 0 .system).lqOwner 0 = some 0 ∧ (served s 0 0 .system).lqOwner 1 = none ∧ (∀ k ∈ [0, 1, 2, 3], accessOut ((served s 0 0 .system).queueOf 0 k) = false) ∧
     (2 : Nat).testBit 0 = false ∧ (1 : Nat).testBit 0 = true ∧ ((served s 0 0 .system).partOf 0).ringRoom = false ∧
     accessOut ((s.setQueue 0 1 { q0 [] with phase := .access }).queueOf 0 1) = true ∧ ((served (ringState (q0 [])) 0 0 .system).partOf 0).ringRoom = true ∧
     (served (ringState (q0 [])) 0 0 .system).ringWaits 0 0 = false ∧ (served (heldRing (q0 [])) 0 0 .system).ringWaits 0 0 = true) ∧
    (let s := qState { q0 [] with phase := .draining [3] }; rival s 0 0 .system = false ∧ (s.queueOf 0 0).phase = .draining [3] ∧ ∀ i ∈ [3], (∀ p ∈ s.pending, p.req.id ≠ i) ∧ ∀ e ∈ s.peerOut, e.acc.id ≠ i) := by
  exact ⟨by decide +kernel, by decide +kernel, by decide +kernel, fun i _ => ⟨fun p hp => (by cases hp), fun e he => (by cases he)⟩⟩
/-- R412: a flushed queue is HALTED with an empty stack; R413: a record of KIND 2 with the code and qs. -/
theorem test_maintenance :
    (let s := qState (q0 [(2, 0)])
     then' (exec (.qflush h0 (opA 0 2 0 2)) (s.setQueue 0 1 { q0 [] with loops := [frame 2] })) fun t => decide ((t.queueOf 0 1).st = .halted) && decide ((t.queueOf 0 1).loops = []) && decide ((t.queueOf 0 0).pc = 16)) = true ∧
    then' (exec (.event h0 (opA 0 2 0 0x81)) (ringState (q0 [(2, 9)]))) (fun t => decide ((t.queueOf 0 0).pc = 16) && decide ((t.partOf 0).fwidx = 1)) = true ∧
    qAfter (.event h0 (opA 0 2 0 0x7F)) (ringState (q0 [(2, 9)])) (fun x => decide (x.st = .trapped)) = true := by decide +kernel

/-- A queue of context 0 saves a running launch of context 5, with no page and with one. -/
def saveState : State := withLaunch (hState (q0 [(2, 5), (3, 0)]) []) { launch0 .running [] [] with ctxs := [5] }
/-- An image of no sections. -/
def imageE (st : ImageState) : Image := ⟨1, st, 0, 0, 0, 256, 0, 0, 0, 0, [], 0, [], [], [], [], [], [], [], [], [], [], [], []⟩
def pagesOk (x : AreaPages) (n : Nat) : Bool := match x with | .ok ps => decide (ps.length = n) | _ => false
theorem witness_SaveAndLoadWords :
    (let s := saveState; let s1 := served s 0 0 .system; let l := { launch0 .running [] [] with ctxs := [5] }
     s.focus = .queue 0 0 ∧ rival s 0 0 .system = false ∧ (s.queueOf 0 0).phase = .fresh ∧ s1.launchOfCtx 5 = some (0, l) ∧ l.phase = .running ∧ l.part = s1.partOfLq 0 ∧
     l.allCtxs.contains (s.queueOf 0 0).ctx = false ∧ pagesOk (areaPages s1 (queueAccess s1 0 (s1.queueOf 0 0)) []) 0 = true ∧
     pagesOk (areaPages s1 (queueAccess s1 0 (s1.queueOf 0 0)) [0]) 1 = true ∧ 0 < imageSize s1 0 l ∧ imageSize s1 0 l ≤ 65536 ∧ launchOwes s1 0 l = false ∧
     launchOwes (s1.setPart 0 { (s1.partOf 0) with records := [{ FaultRecord.blank with ends := some 0 }] }) 0 l = true) ∧
    (let s := { qState { q0 [] with phase := .saving 0 } with images := [(0, imageE .complete)] }
     NatMap.find? s.images 0 = some (imageE .complete) ∧ (imageE .complete).st = .complete) ∧
    (let s := withLaunch { qState { q0 [] with phase := .restoring 0 } with images := [(0, imageE .complete)] } (launch0 .running [] [])
     NatMap.find? s.images 0 = some (imageE .complete) ∧ s.launch? 0 = some (launch0 .running [] []) ∧ imageFree s [] (imageE .complete) = true) := by decide +kernel
/-- R435: an area of no page: qd takes 2^63 plus the size. -/
theorem test_ctxsave_small : qAfter (.ctxsave h0 (opA 4 2 3 0)) saveState (fun x => decide (2 ^ 63 < (x.reg 4).toNat) && decide (x.pc = 16)) = true := by decide +kernel

/-- A block image whose only word is DROP, its descriptor at 64 and its placement table at 128. -/
def blockImageBytes : List Byte :=
  let h := 1 * 2 ^ 124 + 3 * 2 ^ 87 + 1 * 2 ^ 79
  toBytes 16 (h + headerCheck (toBytes 16 h)) ++ toBytes 8 (wordOf (.drop (bare .none 0))) ++ toBytes 16 0
/-- A queue with the operands of CFGLOAD at 0, 64 and 128, its partition holding context 0. -/
def cfgState : State :=
  let s := mState [(2, 0), (3, 64), (4, 128)] ((blockImageBytes ++ toBytes (64 - blockImageBytes.length) 0) ++ toBytes 32 1 ++ toBytes 32 0)
  { s with ctxown := NatMap.set 0 s.ctxown 0 0x20000 }
def cfgRead (s : State) : Option CfgImages := match readCfg s (queueAccess s 0 (s.queueOf 0 0)) 0 64 128 with | .done c => some c | _ => none
/-- Its operands as read. -/
def cfgOf (x : Option CfgImages) : CfgImages := x.getD ⟨⟨0, 0, [], []⟩, [], 0, 0, 0⟩
theorem of_cfgRead {s : State} {c : CfgImages} (h : cfgRead s = some c) : readCfg s (queueAccess s 0 (s.queueOf 0 0)) 0 64 128 = .done c := by
  unfold cfgRead at h
  split at h <;> simp_all
/-- Whether an access was answered. -/
def isDone {α : Type} (x : Access.Answer α) : Bool := match x with | .done _ => true | _ => false
theorem of_isDone {α : Type} {x : Access.Answer α} (h : isDone x = true) : ∃ v, x = .done v := by
  cases x <;> simp_all [isDone]
/-- An answer with poison. -/
def poisonedAnswer {α : Type} (x : Access.Answer (α × Bool)) : Bool := match x with | .done (_, b) => b | _ => false
theorem of_poisoned {α : Type} {x : Access.Answer (α × Bool)} (h : poisonedAnswer x = true) : ∃ v, x = .done (v, true) := by
  match x, h with
  | .done (v, true), _ => exact ⟨v, rfl⟩
/-- Launch queue 0 of partition 0 with two records. -/
def lqState (s : State) (x : LaunchQ) : State := s.setLq 0 0 x
theorem witness_LaunchAndRegionWords :
    (let s := lqState cfgState { LaunchQ.init with base := 1 }; let acc := queueAccess s 0 (s.queueOf 0 0); let e := s.lqOf 0 0
     s.focus = .queue 0 0 ∧ e.enabled = true ∧ (e.widx + 2 ^ 32 - e.ridx) % 2 ^ 32 < 2 ^ e.logn ∧ (∃ v, s.readVa acc 0 128 = .done v) ∧
     ∃ v, s.writeVa acc (e.slotAt e.widx) (toBytes 128 5) = .done v) ∧
    (let s := cfgState; let c := cfgOf (cfgRead s)
     s.focus = .queue 0 0 ∧ readCfg s (queueAccess s 0 (s.queueOf 0 0)) 0 64 128 = .done c ∧ cfgRejects c = none ∧ ((List.range 144).filter fun i => c.mask.testBit i) = [0] ∧ c.gal = 0 ∧
     s.lqOwner 0 = some 0 ∧ s.launchOfCtx 0 = none ∧ s.heldCtx 0 = true ∧ bits (NatMap.get 0 s.ctxown 0).toNat 3 0 = 0 ∧ s.regions = []) ∧
    (∀ c ∈ [some 8, none], let r := { region1 0 .init with configured := true, stop := c }
      (rState r).configuredRegion? 0 0 = some r ∧ (rState r).region? 0 = some r ∧ r.part = 0 ∧ r.configured = true ∧ r.stop = c) ∧
    (let r := { region1 0 .init with configured := true, part := 1 }; (∀ x, (rState r).region? 0 = some x → x.part ≠ 0 ∨ x.configured = false) ∧
      ∀ im ∈ (rState r).images, ∀ x, NatMap.find? im.2.regions 0 = some x → x.part ≠ 0 ∨ x.configured = false) ∧
    (let r := { region1 0 .init with configured := true }; let im := { imageE .complete with regions := [(0, r)] }
     NatMap.find? im.regions 0 = some r ∧ r.part = 0 ∧ r.configured = true) ∧
    (let s := lqState cfgState { LaunchQ.init with base := 1 }; ∃ v, ({ s with poison := NatMap.set false [] (s.nearBase 0 / 64) true } : State).readVa (queueAccess s 0 (s.queueOf 0 0)) 0 128 = .done (v, true)) ∧
    (65 : Nat) % 64 ≠ 0 ∧ (33 : Nat) % 32 ≠ 0 ∧ (9 : Nat) % 8 ≠ 0 ∧ (LaunchQ.init).enabled = false ∧ ¬ ((1 : Nat) + 2 ^ 32 - 0) % 2 ^ 32 < 2 ^ 0 :=
  ⟨⟨rfl, by decide +kernel, by decide +kernel, of_isDone (by decide +kernel), of_isDone (by decide +kernel)⟩,
   ⟨rfl, of_cfgRead (by decide +kernel), by and_intros <;> decide +kernel⟩,
   fun c hc => by
     simp only [List.mem_cons, List.not_mem_nil, or_false] at hc
     rcases hc with rfl | rfl <;> exact ⟨by decide +kernel, by decide +kernel, rfl, rfl, rfl⟩,
   ⟨fun x hx => by
      have h : (some { region1 0 .init with configured := true, part := 1 } : Option Region) = some x := hx
      cases h; decide, fun im h => by cases h⟩,
   ⟨by decide +kernel, rfl, rfl⟩, of_poisoned (by decide +kernel), by decide, by decide, by decide, by decide +kernel, by decide⟩
/-- R274: CFGLOAD with START places the block on PE 0 of gallery 0 and runs it, its handle 0; R440: LAUNCH raises WIDX. -/
theorem test_cfgload :
    then' (exec (.cfgload h0 (opE 5 2 3 4 0 1 0)) cfgState) (fun t => decide ((t.queueOf 0 0).pc = 16) && (t.region? 0).any fun r => r.running && decide (r.mask = 1)) = true ∧
    then' (exec (.launch h0 (opE 0 2 0 0 0 0 0)) (lqState cfgState { LaunchQ.init with base := 1 })) (fun t => decide ((t.lqOf 0 0).widx = 1)) = true ∧
    qAfter (.qwait h0 (opE 5 2 0 0 0 0 0)) cfgState (fun x => decide (x.st = .trapped)) = true := by decide +kernel

/-! ## Engine words -/

/-- A queue whose quad every engine lets command it; the CRU and the VIE may reach the same memory. -/
def eState (rs : List (Nat × Word64)) (bs : List Byte) : State :=
  let s := hState (q0 rs) bs
  let as := [regAddr 5 0 0x2000, regAddr 6 32 0, regAddr 6 33 0, regAddr 6 34 0, regAddr 6 35 0, regAddr 6 36 0, regAddr 6 37 0]
  let ms := [regAddr 6 16 0, regAddr 6 16 (2 * 0x180), regAddr 6 16 (2 * 0x214)]
  { s with tables := (as ++ ms).foldl (fun m a => NatMap.set 0 m a 0x843F) s.tables }
/-- Whether an engine word can be accepted in a state. -/
def goes (s : State) (raw : Nat) : Bool :=
  decide (s.focus = .queue 0 0) && !absentUnit s raw && commandPasses s 0 raw && !rival s 0 0 .engine && canAccept s 0 raw
theorem of_goes {s : State} {raw : Nat} (h : goes s raw = true) : EngineGo s 0 0 raw := by
  unfold goes at h
  have last := Bool.and_eq_true_iff.mp h
  have free := Bool.and_eq_true_iff.mp last.1
  have may := Bool.and_eq_true_iff.mp free.1
  have start := Bool.and_eq_true_iff.mp may.1
  exact ⟨of_decide_eq_true start.1, Bool.not_eq_true' _ |>.mp start.2, may.2, Bool.not_eq_true' _ |>.mp free.2, last.2⟩
/-- Register 2 holds 0, registers 3 to 5 0 too. -/
def opE0 : OpE := opE 4 2 3 5 0 0 0
theorem witness_EngineWordsTrapOrWait :
    (∀ e ∈ engineWords, let raw := wordE e.2.1 h0 opE0; (eState [] []).focus = .queue 0 0 ∧ absentUnit (eState [] []) raw = false ∧ commandPasses (eState [] []) 0 raw = true ∧
      commandPasses (qState (q0 [])) 0 raw = false) ∧
    (let s := { eState [] [] with is930 := true }; absentUnit s (wordE 0x70 h0 opE0) = true ∧ absentUnit s (wordE 0x82 h0 (opE 4 2 3 5 1 0 0)) = true) ∧
    (let s := eState [] []; let h := s.hallOf 0; let c : Cmd := commandOfWord s 0 0 (wordE 0x82 h0 opE0) h0 opE0
     canAccept (s.setHall 0 { h with gmeQ := List.replicate 16 c }) 0 (wordE 0x82 h0 opE0) = false) := by
  refine ⟨fun e he => ?_, by decide +kernel, by decide +kernel⟩
  have := List.all_eq_true.mp (by decide +kernel : engineWords.all (fun e => decide (absentUnit (eState [] []) (wordE e.2.1 h0 opE0) = false ∧
    commandPasses (eState [] []) 0 (wordE e.2.1 h0 opE0) = true ∧ commandPasses (qState (q0 [])) 0 (wordE e.2.1 h0 opE0) = false)) = true) e he
  exact ⟨rfl, of_decide_eq_true this⟩

/-- Every copy, matrix, sampling and grammar word can be accepted. -/
theorem witness_CopyWordsEnterChannels :
    (∀ e ∈ copyWords, EngineGo (eState [] []) 0 0 (wordE e.2 h0 opE0)) ∧ (((eState [] []).quadOf 0).chan 0).cur = none ∧
    (let s := eState [] []; let k := (s.quadOf 0).chan 0; let c := commandOfWord s 0 0 (wordE 0x45 h0 opE0) h0 opE0
     let s2 := s.setChan 0 0 { k with cur := some c }
     goes s2 (wordE 0x45 h0 opE0) = true ∧ ((s2.quadOf 0).chan 0).cur ≠ none) ∧
    (32 : Nat) % 64 ≠ 0 ∧ (64 : Nat) % 64 = 0 ∧ (6 : Nat) % 4 ≠ 0 :=
  ⟨fun e he => of_goes (List.all_eq_true.mp (by decide +kernel : copyWords.all (fun e => goes (eState [] []) (wordE e.2 h0 opE0)) = true) e he),
   by decide +kernel, by decide +kernel, by decide, by decide, by decide⟩
theorem witness_MatrixWordsEnterTiles :
    (∀ e ∈ tileWords, EngineGo (eState [] []) 0 0 (wordE e.2 h0 opE0)) ∧ EngineGo (eState [] []) 0 0 (wordE 0x56 h0 opE0) ∧ EngineGo (eState [] []) 0 0 (wordE 0x58 h0 opE0) ∧
    modeOk 0 = true ∧ modeOk 0xFFFFFFFFFFFFFFFF = false :=
  ⟨fun e he => of_goes (List.all_eq_true.mp (by decide +kernel : tileWords.all (fun e => goes (eState [] []) (wordE e.2 h0 opE0)) = true) e he),
   of_goes (by decide +kernel), of_goes (by decide +kernel), by decide +kernel, by decide +kernel⟩
theorem test_engine_words :
    then' (exec (.fill h0 (opE 4 2 3 5 0 3 0)) (eState [] [])) (fun t => ((t.quadOf 0).chan 0).cur.isSome && decide ((t.queueOf 0 0).pc = 16)) = true ∧
    qAfter (.bceCopy h0 (opE 4 2 3 5 0 0 0)) (eState [(5, 32)] []) (fun x => decide (x.st = .trapped)) = true ∧
    then' (exec (.mma h0 (opE 4 2 3 5 2 0 0)) (eState [] [])) (fun t => decide (((t.quadOf 0).mx 2).queue.length = 1)) = true ∧
    qAfter (.mxcfgMode h0 (opE 0 2 0 0 0 0 0)) (eState [(2, 0)] []) (fun x => decide (x.pc = 16)) = true := by decide +kernel

/-- The descriptor of a collective of one fp32 element at 64 and one contributor, group 7, and the element 1.0. -/
def credBytes : List Byte :=
  toBytes 8 64 ++ toBytes 8 64 ++ toBytes 8 128 ++ toBytes 8 0 ++ toBytes 4 1 ++ toBytes 4 7 ++ toBytes 2 0 ++ toBytes 2 1 ++ toBytes 4 0x00070000 ++ [0xFF] ++ toBytes 15 0 ++
  toBytes 4 0x3F800000
/-- A partition with a CRU area of 64 KiB. -/
def cruState : State := let s := eState [] credBytes; s.setPart 0 { (s.partOf 0) with cruarea := 0x1000000000000 }
theorem witness_CollectiveWordsSetOut :
    (let s := cruState; EngineGo s 0 0 (wordE 0x60 h0 opE0) ∧ (commandOfWord s 0 0 (wordE 0x60 h0 opE0) h0 opE0).s.toNat % 64 = 0 ∧
     ∃ l, credStart (served s 0 0 .engine) (commandOfWord s 0 0 (wordE 0x60 h0 opE0) h0 opE0) = .done l) ∧
    (let s := cruState; EngineGo s 0 0 (wordE 0x61 h0 opE0) ∧ detLaunchOf s 0 = none ∧ EngineGo s 0 0 (wordE 0x62 h0 opE0)) ∧
    (let s := withLaunch cruState (let l := launch0 .running [] []; { l with rcd := { l.rcd with det := true } }); detLaunchOf s 0 ≠ none) :=
  ⟨⟨of_goes (by decide +kernel), by decide +kernel, of_isDone (by decide +kernel)⟩, ⟨of_goes (by decide +kernel), by decide +kernel, of_goes (by decide +kernel)⟩, by decide +kernel⟩
/-- R345: the word retires with the command on its way; the leaf it makes holds the source's element. -/
theorem test_cred : then' (exec (.cred h0 opE0) cruState) (fun t => decide ((t.queueOf 0 0).pc = 16) && then' (exec (.cruLeafArrival 0 0) t) fun u =>
    (u.partOf 0).cruWay.any fun x => match x with
      | .leaf l => decide (l.desc.gid = 7) && decide (l.elems = [0x3F800000])
      | _ => false) = true := by decide +kernel

/-- A deterministic launch in context 0. -/
def detState (s : State) : State := withLaunch s (let l := launch0 .running [] []; { l with rcd := { l.rcd with det := true } })
theorem witness_SamplingAndGrammarWords :
    (∀ e ∈ treeWords, EngineGo (eState [] []) 0 0 (wordE e.2 h0 opE0) ∧ EngineGo (detState (eState [] [])) 0 0 (wordE e.2 h0 opE0)) ∧
    (∀ e ∈ grammarWords, EngineGo (eState [] []) 0 0 (wordE e.2.1 h0 opE0)) ∧ EngineGo (eState [] []) 0 0 (wordE 0x85 h0 opE0) ∧
    detLaunchOf (eState [] []) 0 = none ∧ detLaunchOf (detState (eState [] [])) 0 ≠ none ∧
    (let s : State := { detState (eState [] []) with taskTrees := [(0, [(0, [(0, { PseTree.init with valid := true })])])] }
     let y := NatMap.get PseTree.init (NatMap.get [] (NatMap.get [] s.taskTrees 0) 0) 0
     EngineGo s 0 0 (wordE 0x75 h0 opE0) ∧ (detLaunchOf s 0).any (fun e => decide (4096 * e.1 + e.2.ctxs.idxOf 0 = 0)) = true ∧ y.valid = true ∧ y.part = s.partOfLq 0) := by
  refine ⟨fun e he => ?_, fun e he => of_goes (List.all_eq_true.mp (by decide +kernel : grammarWords.all (fun e => goes (eState [] []) (wordE e.2.1 h0 opE0)) = true) e he),
    of_goes (by decide +kernel), by decide +kernel, by decide +kernel, of_goes (by decide +kernel), by decide +kernel, by decide +kernel, by decide +kernel⟩
  have := List.all_eq_true.mp (by decide +kernel : treeWords.all (fun e => goes (eState [] []) (wordE e.2 h0 opE0) && goes (detState (eState [] [])) (wordE e.2 h0 opE0)) = true) e he
  simp only [Bool.and_eq_true] at this
  exact ⟨of_goes this.1, of_goes this.2⟩
theorem test_sampling_words :
    then' (exec (.stinit h0 opE0) (eState [] [])) (fun t => decide ((t.hallOf 0).pseQ.length = 1) && decide ((t.queueOf 0 0).pc = 16)) = true ∧
    then' (exec (.pdastep h0 opE0) (eState [] [])) (fun t => decide ((t.hallOf 0).gmeQ.length = 1)) = true ∧
    qAfter (.pdaload h0 opE0) (detState (eState [] [])) (fun x => decide (x.st = .trapped)) = true := by decide +kernel

/-- A stream descriptor: ring of 64 KiB, two slots of 64 KiB, PERIOD 1, context 0. -/
def streamBytes : List Byte := toBytes 8 0 ++ toBytes 8 65536 ++ toBytes 8 0 ++ toBytes 8 65536 ++ toBytes 4 65536 ++ toBytes 4 2 ++ toBytes 8 1 ++ toBytes 16 0
/-- A state whose stream 0 is `x`, with a launch whose stage 0 has region 0 with a stream INPUT. -/
def vieState (x : Stream) : State :=
  let r := { region1 (wordOf (.input (one .none 0x1FE0))) .init with role := some ⟨0, 0, 0⟩, launch := some 0 }
  let s := withLaunch (eState [] streamBytes) (launch0 .running [stage0 [0]] [])
  { s with regions := NatMap.insert [] 0 r, streams := NatMap.set .init [] 0 x }
/-- Stream 0 with a descriptor. -/
def stream0 (st : StreamState) : Stream := { Stream.init with st := st, desc := (streamDesc streamBytes).getD Stream.init.desc }
theorem witness_VideoWordsActOnStreams :
    (let s := eState [] streamBytes; let s1 := served s 0 0 .engine; let c := commandOfWord s 0 0 (wordE 0x90 h0 opE0) h0 opE0
     EngineGo s 0 0 (wordE 0x90 h0 opE0) ∧ 0 < s.numStreams ∧ (s1.streamOf 0).st = .closed ∧ c.s.toNat % 64 = 0 ∧
     engineRead (s1.struck ⟨0, 0, 0, masterVie, .read, .plain, 0⟩ 0) ⟨0, 0, 0, masterVie, .read, .plain, 0⟩ 0 64 = .done streamBytes ∧ (streamDesc streamBytes).isSome = true) ∧
    (let s := vieState (stream0 .opened); let s1 := served s 0 0 .engine; let c := commandOfWord s 0 0 (wordE 0x91 h0 opE0) h0 opE0
     EngineGo s 0 0 (wordE 0x91 h0 opE0) ∧ (s1.streamOf 0).st = .opened ∧ (s1.streamOf 0).part = 0 ∧ c.t.toNat < 2 ^ 40 ∧
     ((bindTarget s1 (s1.streamOf 0) 0 c.s.toNat).any fun e => decide (e.2.2.block?.map (·.tshift) = some (s1.streamOf 0).desc.shift) && !e.2.1.rcd.det) = true) ∧
    (∀ st ∈ [StreamState.opened, .bound], let s := vieState (stream0 st); EngineGo s 0 0 (wordE 0x92 h0 opE0) ∧ ((served s 0 0 .engine).streamOf 0).st = st ∧
      ((served s 0 0 .engine).streamOf 0).part = s.partOfLq 0) ∧
    EngineGo (vieState (stream0 .bound)) 0 0 (wordE 0x93 h0 opE0) ∧ ({ eState [] [] with is930 := true } : State).numStreams ≤ 1023 := by
  refine ⟨⟨of_goes (by decide +kernel), by decide +kernel, by decide +kernel, by decide +kernel, of_answered (by decide +kernel), by decide +kernel⟩,
    ⟨of_goes (by decide +kernel), by decide +kernel, by decide +kernel, by decide +kernel, by decide +kernel⟩, fun st hst => ?_, of_goes (by decide +kernel), by decide +kernel⟩
  simp only [List.mem_cons, List.not_mem_nil, or_false] at hst
  rcases hst with rfl | rfl <;> exact ⟨of_goes (by decide +kernel), by decide +kernel, by decide +kernel⟩
/-- R389: VOPEN opens stream 0 with its descriptor; a stream the part does not have is ILLEGAL_CMD. -/
theorem test_vopen :
    then' (exec (.vopen h0 opE0) (eState [] streamBytes)) (fun t => decide ((t.streamOf 0).st = .opened) && decide ((t.streamOf 0).desc.rsize = 65536) && decide ((t.queueOf 0 0).pc = 16)) = true ∧
    qAfter (.vopen h0 { opE0 with imm := 1023 }) { eState [] streamBytes with is930 := true } (fun x => decide (x.st = .trapped)) = true := by decide +kernel

/-! ## Registers, power, the host, resets -/

/-- The QoS word of partition 0 at bank 0 of physical quad 0. -/
def qosWord : Nat := regAddr 5 0 0x2800
/-- A load of 32 bytes at address 0 for partition 0, logical quad 0. -/
def request0 : Request := ⟨7, 0, 0, 0, 0, 0, 0, ⟨0, 1⟩, .load, 0, 9, .i32, 0xFF, 0, 0, .zero, [], false, false, false, 0, false, 0⟩

theorem witness_SequencerRegisterWrites :
    (let s := qState (q0 []); (1 : Word64).toNat % 16 = 2 ^ 0 ∧ s.lqOwner 0 = some 0 ∧ s.lqOwner 1 = none ∧ (s.queueOf 0 0).st = .running ∧ (s.queueOf 0 1).st = .halted ∧ coresAct s ∧
     modeOk 0 = true ∧ modeOk 0xFFFFFFFFFFFFFFFF = false ∧ ctxFor s 0 5 = false ∧ idleQuad s 0 = false ∧ idleQuad s 1 = true ∧ fieldsOf 0x13 [(4, 0)] ≠ NatMap.get 0 s.lqpart 1) ∧
    (let s := qState { q0 [] with phase := .access }; s.lqOwner 0 = some 0 ∧ (s.queueOf 0 0).st = .running ∧ (s.queueOf 0 0).phase ≠ .fresh) ∧ coresAct ({ State.reset with boot := { State.reset.boot with phase := .firmware } } : State) ∧
    ctxFor ({ qState (q0 []) with ctxown := NatMap.set 0 [] 5 0x20000 } : State) 0 5 = true := by
  refine ⟨⟨by decide, by decide +kernel, by decide +kernel, by decide +kernel, by decide +kernel, .inr rfl, by decide +kernel, by decide +kernel,
    by decide +kernel, by decide +kernel, by decide +kernel, by decide +kernel⟩, by decide +kernel, .inl rfl, by decide +kernel⟩
theorem test_register_writes :
    then' (exec (.qsqStart 0 2) (qState (q0 []))) (fun t => decide ((t.queueOf 0 1).st = .running) && decide ((t.queueOf 0 2).st = .halted)) = true ∧
    then' (exec (.qsqPcWrite 0 1 0x123) (qState (q0 []))) (fun t => decide ((t.queueOf 0 1).pc = 0x120)) = true ∧
    then' (exec (.semWrite 0 3 0x12345) (qState (q0 []))) (fun t => decide ((t.quadOf 0).semOf 3 = 0x2345)) = true ∧
    then' (exec (.qsqQctlWrite 0 0 0x0050000000000300) ({ qState (q0 []) with ctxown := NatMap.set 0 [] 5 0x20000 } : State))
      (fun t => decide ((t.queueOf 0 0).prio = 3) && decide ((t.queueOf 0 0).ctx = 5)) = true := by decide +kernel

theorem witness_SystemRegisterWrites :
    (let s := qState (q0 [])
     bits (0x20000 : Word64).toNat 17 16 = 2 ∧ s.freeCtx 5 = true ∧ usedPages s 0 = [] ∧ regAt s (regAddr 5 0 0x3000) = none ∧
     ({ s with ctxown := NatMap.set 0 [] 5 0x20000 } : State).heldCtx 5 = true ∧ ctxInUse s 5 = false ∧ regAt s 0x4000000008 = some .dtime ∧
     (0 : Int) ≤ (5 : Word64).toInt ∧ (0xFFFFFFFFFFFFFFFF : Word64).toInt < 0 ∧ 0 < s.numPorts ∧ (s.portOf 0).st ≠ .lost ∧ (s.lqOf 0 0).widx = (s.lqOf 0 0).ridx ∧
     ((s.setLq 0 0 { LaunchQ.init with widx := 1 }).lqOf 0 0).widx ≠ ((s.setLq 0 0 { LaunchQ.init with widx := 1 }).lqOf 0 0).ridx) ∧
    usedPages ({ qState (q0 []) with images := [(0, { imageE .complete with pages := [0] })] } : State) 0 ≠ [] ∧
    (let s := qState (q0 []); let a := qosWord; regAt s a = some (.qos a) ∧ (s.partOf (qosPart a)).busy = false ∧ qosSum s a 255 ≤ 255 ∧
      ({ s with tables := [(a + 8, 1)] } : State).tables = [(a + 8, 1)] ∧ 255 < qosSum { s with tables := [(a + 8, 1)] } a 255 ∧
      ((s.setPart 0 { (s.partOf 0) with busy := true }).partOf (qosPart a)).busy = true) ∧
    (∀ st ∈ [ChanState.fenced, .fault], ({ Channel8.init with st := st, fcode := 0x30 } : Channel8).st = st ∧ (0x30 : Nat) ≠ 0x70) := by
  decide +kernel

/-- Power comes with an empty flash: both slots fail step 1. A slot is accepted whose header is in order and whose hash, signatures and version are: no
slot is written out here, a signature of SLH-DSA having 16,224 bytes, the checking of which takes thousands of hashes. -/
theorem witness_PowerAndBoot : ((State.reset.coldReset true).boot.verify 0 = some 1 ∧ (State.reset.coldReset true).boot.verify 0x2000000 = some 1) ∧
    ∀ (b : Boot) (base : Nat), b.headerOk base = true → sha384 b.rsaKey = b.rsaHash → rsaVerifies b.rsaKey (b.bytes base 64 384) (b.bytes base 0 64) = true →
      sha384 b.slhKey = b.slhHash → slhVerifies b.slhKey (b.bytes base 448 16224) (b.bytes base 0 64) = true →
      sha384 (b.bytes base 16896 (b.num base 8 4)) = b.bytes base 16 48 → b.rollback ≤ b.num base 4 4 → b.verify base = none := by
  refine ⟨by decide +kernel, fun b base h1 hr h2 hs h3 h4 h5 => ?_⟩
  simp [Boot.verify, h1, hr, h2, hs, h3, h4, Nat.not_lt.mpr h5]
/-- R457: SHA-384 of the three letters abc, as FIPS 180-4 has it worked out. -/
theorem test_sha384 : sha384 [0x61, 0x62, 0x63] = toBe 48 0xCB00753F45A35E8BB5A03D699AC65007272C32AB0EDED1631A8B605A43FF5BED8086072BA1E7CC2358BAECA134C825A7 := by
  decide +kernel

theorem witness_HostReachesTheDevice :
    (let s := qState (q0 []); s.boot.phase = .running ∧ State.reset.boot.phase ≠ .running ∧ (0x4000000008 : Nat) % 8 = 0 ∧ regAt s 0x4000000008 = some .dtime ∧
     (toBytes 8 5).length = 8 ∧ bits (s.partOf 0).expsize.toNat 13 0 * 2 ^ 30 < 0 + 8 ∧ (toBytes 32 9).length = 32) ∧
    (let s0 := hState (q0 []) (toBytes 8 77); let s1 := s0.setPart 0 { (s0.partOf 0) with expsize := 1 }
     let s := { s1 with tables := NatMap.set 0 s1.tables (regAddr 6 16 (2 * 0x230)) 0x843F843F }
     0 + 8 ≤ bits (s.partOf 0).expsize.toNat 13 0 * 2 ^ 30 ∧ s.readVa (cxlAccess s 0) 0 8 = .done (toBytes 8 77, false) ∧ (∃ t, s.writeVa { cxlAccess s 0 with want := .write } 0 (toBytes 8 5) = .done t) ∧
     NatMap.get [] s.posted 0 = [] ∧ s.waitsFor (.host 0) = false ∧ ({ s with peerOut := [⟨0, 0, 1, 0, [], 0, 0, false, ⟨1, 1, 0, 0, 8⟩, .host 0⟩] } : State).waitsFor (.host 0) = true ∧
     ({ s with poison := NatMap.set false [] (capBase / 64) true } : State).readVa (cxlAccess s 0) 0 8 = .done (toBytes 8 77, true) ∧
     (∃ c v, s.readVa (cxlAccess s 0) 0x10000 8 = .fault c v) ∧
     ∃ h, ({ s with pquads := NatMap.set .init [] 0 { (s.pquadOf 0) with tlb := [⟨0, 0, 2 ^ 16, 0x2000000007F + 2 ^ 52⟩] } } : State).readVa (cxlAccess s 0) 0 8 = .wait h) :=
  ⟨by decide +kernel, ⟨by decide +kernel, of_answered (by decide +kernel), of_isDone (by decide +kernel), by decide +kernel, by decide +kernel, by decide +kernel,
    of_answered (by decide +kernel), ⟨_, _, of_faulted (c := 0x10) (v := 0x10000) (by decide +kernel)⟩, of_heldUp (by decide +kernel)⟩⟩
theorem test_host :
    then' (exec (.hostAccess .pf (.read 0x4000000008 8)) ({ qState (q0 []) with dtime := 77 } : State)) (fun t => decide (t.out = [.hostData (toBytes 8 77)])) = true ∧
    then' (exec (.hostAccess (.vf 0) (.write 0 (toBytes 8 1))) (lqState (qState (q0 [])) { LaunchQ.init with base := 1 })) (fun t => decide ((t.lqOf 0 0).widx = 1)) = true := by
  decide +kernel

theorem witness_PartitionResetStops :
    (let s := qState (q0 []); (s.partOf 0).busy = false ∧ (∀ e ∈ s.images, e.2.part ≠ 0)) ∧
    (let s0 := qState (q0 []); let s := s0.setPart 0 { (s0.partOf 0) with busy := true }
     (s.partOf 0).busy = true ∧ (∀ e ∈ s.pending, e.req.part ≠ 0) ∧ (∀ e ∈ s.peerOut, e.part ≠ 0) ∧ ∃ e ∈ ({ s with pending := [⟨request0, .input⟩] } : State).pending, e.req.part = 0) := by
  exact ⟨by decide +kernel, by decide +kernel, by decide +kernel, by decide +kernel, ⟨⟨request0, .input⟩, by decide, by decide +kernel⟩⟩

theorem witness_DoorbellsAndFaultRecords :
    (let s := lqState (qState (q0 [])) { LaunchQ.init with base := 1 }; let x := s.lqOf 0 0
     (s.partOf 0).busy = false ∧ x.enabled = true ∧ ((2 : Nat) + 2 ^ 32 - x.ridx) % 2 ^ 32 ≤ 2 ^ x.logn ∧ ((2 : Nat) + 2 ^ 32 - x.widx) % 2 ^ 32 < 2 ^ 31 ∧
     ¬ (((3 : Nat) + 2 ^ 32 - x.ridx) % 2 ^ 32 ≤ 2 ^ x.logn)) ∧
    (let s := lqState (hState (q0 []) (toBytes 128 0)) { LaunchQ.init with base := 1, widx := 1 }; let x := s.lqOf 0 0
     x.widx ≠ x.ridx ∧ s.readVa (arbAccess s 0) 0 128 = .done (toBytes 128 0, false) ∧
     (submit (s.setLq 0 0 { x with ridx := 1, bells := [] }) 0 0 0 s.cycle none [] (toBytes 128 0)).toOption.isSome = true) ∧
    (let s := lqState (qState (q0 [])) { LaunchQ.init with base := 1, widx := 1 }; ∃ c v, s.readVa (arbAccess s 0) 0 128 = .fault c v) ∧
    (let s := lqState (hState (q0 []) (toBytes 128 0)) { LaunchQ.init with base := 1, widx := 1 }
     ({ s with poison := NatMap.set false [] (capBase / 64) true } : State).readVa (arbAccess s 0) 0 128 = .done (toBytes 128 0, true) ∧
     ∃ h, ({ s with pquads := NatMap.set .init [] 0 { (s.pquadOf 0) with tlb := [⟨0, 0, 2 ^ 16, 0x2000000007F + 2 ^ 52⟩] } } : State).readVa (arbAccess s 0) 0 128 = .wait h) ∧
    (let f : FaultRecord := { FaultRecord.blank with kind := 1, code := 2, queue := some (0, 0) }
     let s := ringState { q0 [] with st := .trapped }
     let t := s.setPart 0 { (s.partOf 0) with records := [f] }
     let w := (t.setPart 0 { (t.partOf 0) with records := (t.partOf 0).records.erase f }).writeRecord f
     (t.partOf 0).ringRoom = true ∧ nextRecord (t.partOf 0).records = some f ∧ t.ringWaits 0 f.lq = false ∧ (heldRing (q0 [])).ringWaits 0 f.lq = true ∧ f.ends = none ∧ f.stops = none ∧ f.replays = none ∧
     w.1.savedQueue? 0 0 f.ctx = none ∧ (w.1.queueOf 0 0).st = .trapped) ∧ ((qState (q0 [])).partOf 0).ringRoom = false :=
  ⟨by decide +kernel, ⟨by decide +kernel, of_answered (by decide +kernel), by decide +kernel⟩, ⟨_, _, of_faulted (c := 0x10) (v := 0) (by decide +kernel)⟩,
   ⟨of_answered (by decide +kernel), of_heldUp (by decide +kernel)⟩, by decide +kernel, by decide +kernel⟩
/-- R393, R395: the record goes to the ring's first slot and the queue vectors with its address. -/
theorem test_record_vectors :
    (let f : FaultRecord := { FaultRecord.blank with kind := 1, code := 2, queue := some (0, 0), lq := 0, word := 0x40 }
     let s := ringState { q0 [] with st := .trapped, tvec := 0x100 }
     then' (exec (.faultRecordWrite 0) (s.setPart 0 { (s.partOf 0) with records := [f] })) fun t =>
       decide ((t.queueOf 0 0).st = .running) && decide ((t.queueOf 0 0).pc = 0x100) && decide ((t.queueOf 0 0).reg 29 = 2) && decide ((t.queueOf 0 0).reg 30 = 0x40) &&
       decide ((t.partOf 0).fwidx = 1)) = true := by decide +kernel

/-! ## Launches, regions, memory, pre-emption -/

/-- A launch in a phase and its machine. -/
def lState (ph : LaunchPhase) : State := withLaunch (qState Queue.init) (launch0 ph [] [])
/-- A launch that waits. -/
def waiting0 : Launch := { launch0 .waiting [] [] with ctxs := [] }
/-- A SPAWN held by its launch. -/
def spawn0 : HeldSpawn := ⟨0, 0, ⟨none, 0, 0, 0, [], tok .zero .none, 0⟩⟩
theorem witness_LaunchesStartAgeAndEnd :
    (let s := withLaunch (qState Queue.init) waiting0; let l := waiting0; s.launch? 0 = some l ∧ mayStart s 0 l = true ∧ reserve s l = some ([0], []) ∧ l.invalid = false ∧
     l.rcd.det = false ∧ l.rcd.prio + l.raised < 7 ∧ s.waits 0 l = true ∧ timeSince s.dtime l.since < 2000000 ∧
     2000000 ≤ timeSince ({ s with dtime := 2000000 } : State).dtime l.since ∧ ({ s with dtime := 2000000 } : State).waits 0 l = true) ∧
    (let l := { waiting0 with stages := [{ stage0 [] with block := { block1 0 with minpe := 100 }, deals := [] }] }; let s := withLaunch (qState Queue.init) l
     reserve s { l with stages := [{ stage0 [0] with block := { block1 0 with minpe := 100 } }] } = none) ∧
    (let s := lState .running; let l := launch0 .running [] []; s.launch? 0 = some l ∧ sinksEnded s 0 l = true ∧ ackFree s 0 l = true ∧ fencedCopies s l = false ∧ unboundStreams s 0 = false ∧
     s.regions = [] ∧ hasChildren s 0 l = false ∧ hasChildren s 0 { l with spawns := [spawn0] } = true) ∧
    (let s := withLaunch (hState Queue.init []) (launch0 (.owed (toBytes 32 1) 0) [] []); let l := launch0 (.owed (toBytes 32 1) 0) [] []
     s.launch? 0 = some l ∧ l.parent = none ∧ (NatMap.get LaunchQ.init (s.partOf 0).lqs 0).ien = false ∧ ∃ t, s.writeVa (arbAccess s 0) (l.rcd.done % 2 ^ 57) (toBytes 32 1) = .done t) :=
  ⟨by decide +kernel, by decide +kernel, by decide +kernel, by decide +kernel, by decide +kernel, by decide +kernel, of_isDone (by decide +kernel)⟩
/-- R73: a launch that is over writes 32 bytes at DONE with STATUS 0. -/
theorem test_launch_end : then' (exec (.launchEnd 0) (withLaunch (hState Queue.init (toBytes 32 (2 ^ 256 - 1))) (launch0 .running [] [])))
    (fun t => decide (t.launches = []) && decide (t.byteAt capBase ≠ 255)) = true := by decide +kernel

/-- A stage of two instances, the second placed on PE 1, above its high mark since cycle 0; the same below its low mark. -/
def stageB : Stage := { stage0 [0] with block := { block1 0 with imax := 4, minpe := 1 }, aboveSince := some 0 }
def stageC : Stage := { stage0 [0, 1] with block := { block1 0 with imax := 4, minpe := 1, imin := 0 }, deals := [(0, 2)], belowSince := some 0 }
/-- RANGE expand in slot 0 of two instances, the second with a range of 8. -/
def splitState : State :=
  let f : Fab := { one .none 1 with sub := 1 }
  let v (n : Nat) (o : Option Token) : Region := { region1 (wordOf (.rangeExpand f)) { Node.init with range := o } with mask := 2 ^ n, launch := some 0, role := some ⟨0, 0, n⟩ }
  let s := withLaunch (rState (v 0 none)) (launch0 .running [stage0 [0, 1]] [])
  { s with regions := [(0, v 0 none), (1, v 1 (some { tok .zero .none with hi := 8 }))], ranges := [(1, 0, 0, 8)] }
theorem witness_ReplicasAndSplits :
    (let l := launch0 .running [stageB] []; let s := { withLaunch (rState { region1 0 .init with launch := some 0 }) l with cycle := 4096 }
     s.launch? 0 = some l ∧ l.stages[0]? = some stageB ∧ stageB.change = none ∧ 0 + 4096 ≤ s.cycle ∧ ((stageB.deals.head?).map (·.2)).getD 1 = 1 ∧ 1 ≤ stageB.block.imax ∧ stageB.insts.length ≤ 1 ∧
     1 < ({ stageB with insts := [0, 1] } : Stage).insts.length ∧ areaHeld s l.part + 64 * stageB.block.mse * l.rcd.nctx ≤ vaultBytes s l.part ∧
     placeOne (partitionPes s l.part true) stageB.block.minpe = some [1]) ∧
    (let l := launch0 .running [stageC] []; stageC.deals = (0, stageC.insts.length) :: [] ∧ stageC.block.imin + 1 < stageC.insts.length ∧ stageC.belowSince = some 0 ∧ stageC.change = none ∧ l.stages[0]? = some stageC) ∧
    (let s := splitState; ∃ r v f t, s.region? 0 = some r ∧ r.live = true ∧ r.launch = some 0 ∧ r.instrAt 0 = some (.rangeExpand f) ∧ NatMap.find? r.asked 0 = none ∧
     leastBy (fun c => ((2 ^ 41 - c.1) * 128 + c.2.1) * 8 + c.2.2.1) (splitChoices s 0 0 r) = some (8, 0, 1, 1, 0) ∧ s.region? 1 = some v ∧ (v.node 0 0).range = some t ∧ t.hi = 8 ∧ 2 ≤ t.hi - t.lo) := by
  refine ⟨by decide +kernel, by decide +kernel, ⟨(splitState.region? 0).getD .init, (splitState.region? 1).getD .init, { one .none 1 with sub := 1 }, { tok .zero .none with hi := 8 }, ?_⟩⟩
  and_intros <;> decide +kernel

/-- A region of one PE whose set 0 is full. -/
def fullRegion : Region :=
  nodeRegion (wordOf (.add (two .i32 0))) { Node.init with a := { PortState.init with waiting := (List.range 8).map fun k => ⟨{ tok .zero .none with lo := 32 * k, hi := 32 * k + 1 }, .store⟩ } }
theorem witness_RegionsEndAndDetect :
    (let r := { region1 (wordOf (.add (two .i32 0))) .init with nodes := [], blocks := [(0, block1 (wordOf (.add (two .i32 0)))), (1, block1 0)] }; let s := rState r
     s.region? 0 = some r ∧ r.live = true ∧ regionEmpty s r = true ∧ onlyGroups s 0 r = true ∧ openGroups s 0 = [] ∧ r.windowsEmpty = true ∧ leaving s r = false ∧ r.select = none ∧
     inputsEnded s r = true ∧ NatMap.find? { r with select := some 1 }.blocks 1 = some (block1 0) ∧ atReplayPoint s r = true ∧ s.inTurn (r.lqOfBit (r.pes.getD 0 0)) = true ∧
     deadCondition s 0 r = false) ∧
    (let s := rState fullRegion; s.region? 0 = some fullRegion ∧ fullRegion.live = true ∧ deadCondition s 0 fullRegion = true ∧ s.inTurn (fullRegion.lqOfBit (fullRegion.pes.getD 0 0)) = true ∧
     (0 : Nat) + (0 - 0) < 2 ^ 20 ∧ deadCondition { s with cycle := 2 ^ 20 } 0 { fullRegion with stuckAt := some 0 } = true) := by
  exact ⟨by decide +kernel, by decide +kernel⟩

/-- A region to whose slot 0 a token is on its way to port a. -/
def arriving (t : Token) (p : PortState) : Region := { nodeRegion (wordOf (.add (two .i32 0))) { Node.init with a := p } with flight := [⟨0, .a, t⟩] }
theorem witness_TokensArrive :
    (∀ p ∈ [PortState.init, { PortState.init with lastHi := 8 }], let r := arriving (tok .zero .none) p; let s := rState r; ∃ i,
      s.region? 0 = some r ∧ r.live = true ∧ s.inTurn (r.lqAt 0) = true ∧
      takeFirst (fun x => decide (x.slot = 0) && decide (portCode x.port = 0)) r.flight = some (⟨0, .a, tok .zero .none⟩, []) ∧ r.instrAt 0 = some i ∧ ownIntake i = false ∧ (∀ y ∈ r.flight, portHeld s r 0 y.tok = false) ∧
      freedCtx (s.setRegion 0 { r with flight := [] }) { r with flight := [] } 0 = false ∧ ((r.node 0 0).port .a).ended = none) ∧
    (PortState.init.check (tok .zero .none) = none ∧ ({ PortState.init with lastHi := 8 } : PortState).check (tok .zero .none) ≠ none) ∧
    (let i := Instr.add (two .i32 0); let n := { Node.init with b := { PortState.init with ended := some (1, 1), reach := 0 } }
     uncovered i (n.setPort .a (PortState.init.join (gapRule i .a) (tok .zero .none))) .a (tok .zero .none) = true ∧ uncovered i n .b (tok .zero .none) = false) ∧
    (let r := nodeRegion (wordOf (.add (two .i32 0))) { Node.init with a := { PortState.init with waiting := [⟨tok .zero .none, .vault⟩] } }
     (r.spots.filter (r.inSet 0 (storeSet 0 0 0))).length = 1 ∧ leastBy (Spot.key r) ((r.spots.filter (r.inSet 0 (storeSet 0 0 0))).filter fun x => x.w.place.spilled) ≠ none) := by
  refine ⟨fun p hp => ?_, by decide +kernel, by decide +kernel, by decide +kernel⟩
  simp only [List.mem_cons, List.not_mem_nil, or_false] at hp
  rcases hp with rfl | rfl <;> exact ⟨.add (two .i32 0), by and_intros <;> decide +kernel⟩

/-- A machine with a request in its MT's input, or at its home, of the access tables and translation of `hState`. -/
def memState (q : Request) (st : ReqState) (ps : List Part) (bs : List Byte) : State :=
  { hState Queue.init bs with pending := [⟨q, st⟩], homes := ps, regions := NatMap.insert [] 0 (region1 (wordOf (.ld (two .i32 0x2400FF))) .init) }
/-- The page tables of a partition: 1 GiB of the capacity tier at VA 0, behind three levels of tables in HBM. -/
def walkState : State :=
  let s0 := hState Queue.init []
  let s := s0.setPart 0 { (s0.partOf 0) with ptroot := 0x10000000001, hbmr := [(0, 0x10000040001)] }
  { s with tables := NatMap.set 0 s.tables (regAddr 6 0 1064) 0x843F843F843F
           mem := putBytes (putBytes (putBytes [] hbmBase (toBytes 8 0x10000001001)) (hbmBase + 0x1000) (toBytes 8 0x10000002001)) (hbmBase + 0x2000) (toBytes 8 0x2000000007F) }
def leafIs (x : Walked) (pte level : Nat) : Bool := match x with | .leaf p l => decide (p = pte) && decide (l = level) | _ => false
theorem of_leafIs {x : Walked} {p l : Nat} (h : leafIs x p l = true) : x = .leaf p l := by
  cases x <;> simp_all [leafIs]
theorem witness_MemoryServesRequests :
    (∀ a ∈ [(0 : Nat), 2], let q := { request0 with addr := a, fmt := 0 }; let s := memState q .input [] []
     (s.pending.find? fun p => decide (p.req.lq = 0) && decide (p.req.mt = 0) && ((decide (p.st = .retry) && !(decide (p.req.want = .atm) && behindSlot s p.req)) || (decide (p.st = .input) && s.inTurn 0 && acceptable s p.req))) = some ⟨q, .input⟩ ∧ s.inTurn 0 = true ∧ acceptable s q = true ∧ typeOk q = true ∧ isB4Store q = false ∧
     alignedFor q.format q.addr = decide (a = 0)) ∧
    (let m : MissEntry := ⟨4, 0, 0, 0⟩; let s := walkState
     ((({ s with pquads := NatMap.set .init [] 0 { PhysQuad.init with misses := [m] } } : State).pquadOf 0).misses.find? fun m => m.key = 4) = some m ∧
     walk s 0 (((s.hosted 0).head?).getD 0) 0 = .leaf 0x2000000007F 2 ∧
     walkOut { s with pquads := NatMap.set .init [] 0 { PhysQuad.init with misses := [m] } } (0, m) = true ∧ (∀ x ∈ s.pending, ∀ k, x.st ≠ .miss k) ∧ secondLevel s 0 0 0 = none ∧
     (secondLevel { s with tlb2 := [(0, [⟨0, 0, 2 ^ 16, 0x2000000007F⟩])] } 0 0 0).isSome = true) ∧
    (∀ op ∈ [MemOp.load, .store, .atomic 0, .reduce 0], let q := { request0 with op := op, fmt := 0 }; let p : Part := ⟨1, 7, capBase, 0, 32⟩; let s := memState q (.homes 1 [] false) [p] []
     partAt s 1 = some (p, q) ∧ lostHome s p.req = false ∧ bankOf s p.pa = none ∧ s.upset = .none ∧ s.task? q.ctx = none ∧ detLaunchOf s q.ctx = none ∧ (s.partners q.id).any (·.dataPoison) = false ∧
     canPerform s p q = true ∧ isServed s p.pa q.part = true) ∧
    (let q := { request0 with op := .atomic 0, fmt := 0 }; let p : Part := ⟨1, 7, capBase, 0, 32⟩; let s := memState q (.homes 1 [] false) [p] []
     let b := { s with pending := [⟨{ q with id := 3 }, .homes 1 [] false⟩, ⟨q, .homes 1 [] false⟩], homes := [⟨0, 3, capBase, 0, 32⟩, p] }
     partAt b 1 = some (p, q) ∧ lostHome b 7 = false ∧ (∃ x ∈ partsHere b q.id, behindInput b x q = true ∨ evacuating b x.pa = true) ∧ q.want = .atm ∧ canPerform b p q = false) ∧
    (let p : Part := ⟨1, 7, capBase, 0, 32⟩; let s := memState { request0 with fmt := 0 } (.homes 1 [] false) [p] []
     isServed (s.serve capBase 0) capBase 0 = false ∧ lostHome (s.serve capBase 0) 7 = false) ∧
    (let q := { request0 with fmt := 0 }; let s := memState q .retry [] []
     (s.pending.find? fun p => decide (p.req.lq = 0) && decide (p.req.mt = 0) && ((decide (p.st = .retry) && !(decide (p.req.want = .atm) && behindSlot s p.req)) || (decide (p.st = .input) && s.inTurn 0 && acceptable s p.req))) = some ⟨q, .retry⟩) ∧
    lostHome ({ memState request0 (.homes 1 [] false) [⟨1, 7, 0, 0, 32⟩] [] with banks := [(0, .lost)] } : State) 7 = true ∧
    (let d : Dest := ⟨0, 0, .a⟩; let r := { region1 (wordOf (.ld (two .i32 0x2400FF))) .init with windows := [(0, [.ready (some (tok .zero .none)) [d] 0 false .none none])] }; let s := rState r
     s.region? 0 = some r ∧ r.frozen = false ∧ s.inTurn (r.lqAt 0) = true ∧ r.window 0 = .ready (some (tok .zero .none)) [d] 0 false .none none :: [] ∧
     ([d].head?.map (·.region)).getD 0 = 0 ∧ routersTake s [d] = true) := by
  refine ⟨by decide +kernel, ⟨by decide +kernel, of_leafIs (by decide +kernel), by decide +kernel, (fun x hx => by cases hx), by decide +kernel, by decide +kernel⟩, by and_intros <;> decide +kernel⟩
/-- A bank fails with slots free and with none; an evacuation ends. -/
theorem witness_MemoryServesRequests_banks :
    (let s := qState Queue.init; 0 < s.numPq ∧ NatMap.find? s.banks 0 = none ∧ freeSlot s 0 = some 0) ∧
    freeSlot ({ qState Queue.init with redir := (List.range 16).map fun n => (n, ⟨true, false, n, 0⟩) } : State) 0 = none ∧
    (let e : Redirect := ⟨true, false, 3, 1⟩; let s := { qState Queue.init with redir := [(0, e)] }; NatMap.get Redirect.init s.redir 0 = e ∧ e.valid = true ∧ e.done = false ∧ s.upset = .none) := by
  decide +kernel
/-- R226, R230: a store writes its bytes little-endian at its home and no others. -/
theorem test_store_at_home :
    (let q := { request0 with op := .store, fmt := 9, data := all8 0x01020304 }
     then' (exec (.accessPerformAtHome 1) (memState q (.homes 1 [] false) [⟨1, 7, capBase, 0, 32⟩] [])) fun t =>
       decide (t.byteAt capBase = 4) && decide (t.byteAt (capBase + 3) = 1) && decide (t.byteAt (capBase + 31) = 1) && decide (t.byteAt (capBase + 32) = 0)) = true := by decide +kernel

/-- A launch of PRIO 0 runs on all nine PEs, one of PRIO 5 waits for them; the partition has a save area. -/
def crowded : State :=
  let st (n : Nat) : Stage := { stage0 [n] with block := { block1 0 with minpe := 9, imin := 0 } }
  let a := launch0 .running [st 0] []
  let b := { waiting0 with rcd := { waiting0.rcd with prio := 5 }, stages := [{ st 0 with insts := [] }] }
  let r := { region1 0 Node.init with mask := 511, launch := some 0 }
  let s := rState r
  let s1 := s.setPart 0 { (s.partOf 0) with save := 0x0008000010000000 }
  { s1 with launches := [(0, a), (1, b)] }
theorem witness_LaunchesAreSavedAndRestored :
    (let s := crowded; ∃ l v run, s.launch? 1 = some l ∧ lacksRoom s 1 l = true ∧ victims s 1 l = some [(0, v)] ∧ freeRuns s l.part (usedPages s l.part) [(0, v)] = some [run] ∧
     launchOwes s 0 v = false) ∧
    lacksRoom (withLaunch (qState Queue.init) waiting0) 0 waiting0 = false ∧
    (∀ k ∈ [(0 : Nat), 1], let im := { imageE .complete with check := k }; let l := launch0 .saved [] []; let s := { withLaunch (qState Queue.init) l with images := [(0, im)] }
     s.imageOf? 0 = some (0, im) ∧ s.waits 0 l = true ∧ mayStart s 0 l = true ∧ imageFree s [] im = true ∧ intact s im = decide (k = 0)) ∧
    (let im := { imageE .saving with reading := [0], late := [9] }; let l := launch0 .saved [] []; let s := { withLaunch (qState Queue.init) l with images := [(0, im)] }
     NatMap.find? s.images 0 = some im ∧ s.launch? im.launch = some l ∧ im.reading.contains 0 = true ∧ answersOwed s 0 l = false ∧ launchOwes s im.launch l = false ∧ s.upset = .none ∧ l.phase = .saved ∧ im.st = .saving ∧
     im.late.contains 9 = true ∧ ∀ p ∈ s.pending, p.req.id ≠ 9) ∧
    (let s := qState Queue.init; s.turnOf 0 = some 0 ∧ ([0, 1, 2, 3].all fun q => !accessOut (s.queueOf 0 q)) = true ∧ nothingToRun s 0 = true ∧ nothingToRun (qState (q0 [])) 0 = false ∧ s.cycle < (s.pquadOf 0).turnStart + 65536 ∧
     (s.pquadOf 0).turnStart + 65536 ≤ ({ s with cycle := 65536 } : State).cycle) := by
  refine ⟨?_, by decide +kernel, fun k hk => ?_, by decide +kernel, by decide +kernel⟩
  swap
  · simp only [List.mem_cons, List.not_mem_nil, or_false] at hk
    rcases hk with rfl | rfl <;> exact (by and_intros <;> decide +kernel)
  have h : (crowded.launch? 1).any (fun l => lacksRoom crowded 1 l && (victims crowded 1 l).any fun vs => match vs with
      | [(0, v)] => !launchOwes crowded 0 v && (match freeRuns crowded l.part (usedPages crowded l.part) [(0, v)] with | some [_] => true | _ => false)
      | _ => false) = true := by decide +kernel
  cases hl : crowded.launch? 1 with
  | none => rw [hl] at h; simp at h
  | some l =>
    rw [hl] at h
    simp only [Option.any_some, Bool.and_eq_true] at h
    obtain ⟨h1, h2⟩ := h
    cases hv : victims crowded 1 l with
    | none => rw [hv] at h2; simp at h2
    | some vs =>
      rw [hv] at h2
      simp only [Option.any_some] at h2
      split at h2
      · rename_i v
        simp only [Bool.and_eq_true, Bool.not_eq_true'] at h2
        obtain ⟨h3, h4⟩ := h2
        split at h4
        · rename_i run hr
          exact ⟨l, v, run, hl, h1, hv, hr, h3⟩
        · cases h4
      · cases h2

/-! ## Engines, streams, links -/

/-- Every master may reach the capacity tier. -/
def openState (rs : List (Nat × Word64)) (bs : List Byte) : State :=
  let s := eState rs bs
  { s with tables := [0x80, 0x100, 0x180, 0x200, 0x214].foldl (fun m k => NatMap.set 0 m (regAddr 6 16 (2 * k)) 0x843F843F843F843F) s.tables }
/-- COPY of two dimensions of one byte, from 128 to 192, its record at 0; FILL likewise. -/
def copyCmd (op : Nat) : Cmd := ⟨op * 2 ^ 120, 0, 0, 0, 0, 0, 0, 128, 192, 0, none, [], 0⟩
/-- The record of two elements in steps of 1, then bytes 128 to 191. -/
def copyBytes : List Byte := toBytes 8 (2 ^ 24 + 2) ++ toBytes 120 0 ++ toBytes 64 0x0807060504030201
/-- A channel with a running command. -/
def chanState (k : Channel8) (bs : List Byte) : State := (openState [] bs).setChan 0 0 k
def movedIs (x : Moved) (n : Nat) : Bool := match x, n with | .done _, 0 => true | .fence _ _, 1 => true | .abort _ _ _, 2 => true | _, _ => false
def readsAs (x : Access.Answer (List (Int × Nat) × List (Int × Nat) × Nat)) (c : Cmd) (refused : Bool) : Bool :=
  match x with
  | .done (a, b, w) => (bceRefuses c a b w).isSome == refused
  | _ => false
def jobC : BceJob := ⟨[(1, 2)], [(1, 2)], 0, none⟩
def chanC : Channel8 := { Channel8.init with st := .run, cur := some (copyCmd 0x40) }
theorem witness_CopyEnginesMoveElements :
    (let s := chanState chanC copyBytes; let k := (s.quadOf 0).chan 0; k.cur = some (copyCmd 0x40) ∧ k.st = .run ∧ k.job = none ∧ s.inTurn 0 = true ∧
     readsAs (bceRead s (copyCmd 0x40)) (copyCmd 0x40) false = true ∧ readsAs (bceRead (chanState chanC []) (copyCmd 0x40)) (copyCmd 0x40) true = true) ∧
    (let s := chanState { chanC with job := some jobC } copyBytes; let k := (s.quadOf 0).chan 0; let j := k.bytes / (copyCmd 0x40).esz
     k.job = some jobC ∧ s.upset = .none ∧ k.posted = none ∧ answered (withIndex s (copyCmd 0x40) jobC j) jobC = true ∧
     faulted (withIndex s (copyCmd 0x43) jobC j) 0x31 0 = true ∧ j < sizeProd jobC.dst ∧ granuleOf (copyCmd 0x40) ⟨[(64, 2)], [(64, 2)], 0, none⟩ (j + 1) ≠ granuleOf (copyCmd 0x40) ⟨[(64, 2)], [(64, 2)], 0, none⟩ j ∧
     movedIs (moveElem s 0 0 (copyCmd 0x40) jobC j) 0 = true ∧ movedIs (moveElem s 0 0 { copyCmd 0x40 with s := 0x10000 } jobC j) 2 = true) ∧
    (let s := chanState { chanC with job := some jobC, bytes := 2 } copyBytes; ((s.quadOf 0).chan 0).bytes = sizeProd jobC.dst * (copyCmd 0x40).esz ∧
     (copyCmd 0x40).word.testBit 6 = false ∧ (copyCmd 0x40).opcode ≠ 0x41 ∧ (copyCmd 0x41).opcode = 0x41 ∧ Sys2Proof.Machine.canAccept s 0 (0x50 * 2 ^ 120) = true ∧
     Sys2Proof.Machine.canAccept (s.setMx 0 0 { Mxt.init with queue := List.replicate 4 ⟨copyCmd 0x50, false, 0, 0, false, false⟩ }) 0 (0x50 * 2 ^ 120) = false ∧
     ({ copyCmd 0x40 with word := (copyCmd 0x40).word + 2 ^ 6 } : Cmd).word.testBit 6 = true ∧ s.pubValid 0 0 = false) := by decide +kernel
/-- A write of another owner's vault frame is fenced (R294). -/
theorem witness_CopyEnginesMoveElements_fence :
    (let s0 := mState [] (toBytes 8 9); let s := ({ s0 with own := NatMap.insert [] 0 3, tables := NatMap.set 0 s0.tables (regAddr 5 0 0x100) 0x843F } : State).setChan 0 0 { chanC with job := some jobC }
     movedIs (moveElem s 0 0 { copyCmd 0x40 with s := 0, t := 8 } jobC 0) 1 = true) := by decide +kernel
/-- Whether an access resolves to these runs. -/
def runsAre (x : Spread) (rs : List (Nat × Nat)) : Bool := match x with | .ok ys => decide (ys = rs) | _ => false
theorem of_runsAre {x : Spread} {rs : List (Nat × Nat)} (h : runsAre x rs = true) : x = .ok rs := by
  cases x <;> simp_all [runsAre]
/-- A COPY in a channel that moves an element of one byte to granule `t / 64`. -/
def carryState (s : State) (c : Cmd) : State := s.setChan 0 0 { chanC with cur := some c, job := some ⟨[(1, 2)], [(64, 2)], 0, none⟩ }
/-- An element goes from 128 to 192 of the capacity tier, and is fenced where its destination is a vault frame that another owner has. -/
theorem witness_CopyEnginesMoveElements_carries :
    (let s := carryState (openState [] copyBytes) (copyCmd 0x40)
     Claims.Carries s 0 0 (copyCmd 0x40) ⟨[(1, 2)], [(64, 2)], 0, none⟩ 0 (capBase + 128) (capBase + 192) ∧ rangeOf s (capBase + 192) ≠ .vault) ∧
    (let c := { copyCmd 0x40 with s := 0, t := 8 }; let s0 := mState [] (toBytes 8 9)
     let s := carryState { s0 with own := NatMap.insert [] 0 3, tables := NatMap.set 0 s0.tables (regAddr 5 0 0x100) 0x843F } c
     let v := (NatMap.get 0 s.own (1024 * vaultPq (s.nearBase 0 + 8) + 256 * vaultBank (s.nearBase 0 + 8) + vaultOff (s.nearBase 0 + 8) / 2 ^ 16)).toNat
     Claims.Carries s 0 0 c ⟨[(1, 2)], [(64, 2)], 0, none⟩ 0 (s.nearBase 0) (s.nearBase 0 + 8) ∧ rangeOf s (s.nearBase 0 + 8) = .vault ∧ v.testBit 16 = false) ∧
    (let s := carryState (openState [] copyBytes) (copyCmd 0x43)
     Claims.Moving s 0 0 (copyCmd 0x43) ⟨[(1, 2)], [(64, 2)], 0, none⟩ 0 ∧ (∃ bs, engineRead s (bceAccess (copyCmd 0x43)) 0 4 = .done bs ∧ bits (copyCmd 0x43).word 47 16 ≤ ofBytes bs)) :=
  ⟨⟨⟨⟨by decide +kernel, by decide +kernel, by decide +kernel, by decide +kernel, by decide +kernel, rfl, rfl, by decide +kernel, by decide +kernel, by decide +kernel⟩,
      by decide +kernel, by decide +kernel, by decide +kernel, by decide +kernel,
      ⟨by refine of_runsAre ?_; decide +kernel, by decide +kernel, by decide +kernel, by refine of_answered ?_; decide +kernel⟩,
      ⟨by refine of_runsAre ?_; decide +kernel, by decide +kernel, by decide +kernel⟩⟩, by decide +kernel⟩,
   ⟨⟨⟨by decide +kernel, by decide +kernel, by decide +kernel, by decide +kernel, by decide +kernel, rfl, rfl, by decide +kernel, by decide +kernel, by decide +kernel⟩,
      by decide +kernel, by decide +kernel, by decide +kernel, by decide +kernel,
      ⟨by refine of_runsAre ?_; decide +kernel, by decide +kernel, by decide +kernel, by refine of_answered ?_; decide +kernel⟩,
      ⟨by refine of_runsAre ?_; decide +kernel, by decide +kernel, by decide +kernel⟩⟩, by decide +kernel, by decide +kernel⟩,
   ⟨⟨by decide +kernel, by decide +kernel, by decide +kernel, by decide +kernel, by decide +kernel, rfl, rfl, by decide +kernel, by decide +kernel, by decide +kernel⟩,
      ⟨_, of_answered (v := toBytes 4 (2 ^ 24 + 2)) (by decide +kernel), by decide +kernel⟩⟩⟩
/-- R284: the command moves its two elements granule by granule, here in one transfer to granule 3. -/
theorem test_copy_moves : then' (exec (.bceGranuleTransfer 0 0) (chanState { chanC with job := some ⟨[(1, 2)], [(64, 2)], 0, none⟩ } copyBytes))
    (fun t => decide (t.byteAt (capBase + 192) = 1) && decide (((t.quadOf 0).chan 0).bytes = 1)) = true := by decide +kernel

/-- A matrix word by opcode, integer i8 operands (mode), K = 1. -/
def mxCmd (op : Nat) : MxCmd := ⟨⟨op * 2 ^ 120, 0, 0, 0, 0, 0x5500, 0, 0, 64, 0, none, [], 0⟩, false, 0, 0, false, false⟩
def mxState (k : MxCmd) (b : Option MxCmd) (y : AccNode) : State :=
  let s0 := mState [] (toBytes 128 0x0102)
  let s := { s0 with tables := NatMap.set 0 s0.tables (regAddr 5 0 0x200) 0x843F }
  s.setMx 0 0 { Mxt.init with queue := [k], bypass := b, nodes := [(0, y)] }
theorem witness_MatrixTilesApplyGroups :
    (let s := mxState (mxCmd 0x50) none { AccNode.init with st := .armed, isInt := true }; let x := (s.quadOf 0).mx 0; let k := mxCmd 0x50
     s.inTurn 0 = true ∧ x.bypass = none ∧ x.queue = k :: [] ∧ k.started = false ∧ frozenCtx s 0 k.cmd.ctx = false ∧ k.cmd.opcode ≤ 0x51 ∧ mmaFault s k.cmd (x.node k.cmd.nodeNo) = none ∧ checkOperands s k.cmd = .ok ∧
     k.step < (mmaArgs k.cmd).k ∧ (mmaArgs k.cmd).k ≤ 1) ∧
    (let s := mxState { mxCmd 0x50 with started := true } (some (mxCmd 0x56)) .init; let x := (s.quadOf 0).mx 0; x.bypass = some (mxCmd 0x56) ∧ (x.queue.head?.map (·.started)) = some true) ∧
    (∀ k ∈ [{ mxCmd 0x50 with started := true }, { mxCmd 0x50 with started := true, stalled := true }, { mxCmd 0x50 with started := true, stalled := true, retry := true }, { mxCmd 0x50 with started := true, out := 1, step := 1 }],
      let x := ((mxState k none .init).quadOf 0).mx 0; x.queue = k :: [] ∧ k.started = true ∧ k.cmd.opcode ≤ 0x51 ∧ x.bypass = none ∧ (k.step < (mmaArgs k.cmd).k ∨ k.out ≠ 0)) ∧
    ({ Mxt.init with bypass := some (mxCmd 0x56) } : Mxt).bypassMay = true ∧
    (let s := { mxState { mxCmd 0x54 with started := true } none .init with regions := NatMap.insert [] 0 (region1 (wordOf (.add (two .i32 0))) .init) }
     let k := { mxCmd 0x54 with started := true }; let d : Dest := ⟨0, 0, .a⟩
     accoutTarget s 0 0 = some d ∧ accoutTarget s 0 (2 ^ 20) = none ∧ (region1 (wordOf (.add (two .i32 0))) .init).running = true ∧
     (region1 (wordOf (.add (two .i32 0))) .init).frozen = false ∧ s.region? 0 = some (region1 (wordOf (.add (two .i32 0))) .init) ∧ (region1 (wordOf (.add (two .i32 0))) .init).routed ((region1 (wordOf (.add (two .i32 0))) .init).placeOf d.slot).1 < 8 ∧
     k.out < 16 * (bits k.cmd.word 6 0 + 1) ∧ 16 * (bits k.cmd.word 6 0 + 1) ≤ ({ k with out := 16 } : MxCmd).out) := by decide +kernel
/-- R311: 2^19 - 1 plus 1 escapes once and leaves -2^19; -2^19 minus 1 leaves 2^19 - 1. -/
theorem test_escape : intStep (2 ^ 19 - 1) 1 = (-(2 ^ 19), 1) ∧ intStep (-(2 ^ 19)) (-1) = (2 ^ 19 - 1, -1) ∧ intStep 5 6 = (11, 0) := by decide +kernel

/-- The leaf that `credBytes` makes. -/
def leaf0 : Leaf := ⟨commandOfWord cruState 0 0 (wordE 0x60 h0 opE0) h0 opE0, collDesc (credBytes.take 64), [0x3F800000], false, false⟩
/-- The instance it opens. -/
def inst0 : CollInst := ⟨7, 0, (leaf0).desc, [], .opened, [leaf0], [], [], none, [], []⟩
theorem witness_EnginesPerformTheirCommands :
    (∀ x ∈ [CruItem.leaf leaf0, .fix leaf0.cmd 7 0 0], let s := cruState.setPart 0 { (cruState.partOf 0) with cruWay := [x] }
     (s.partOf 0).cruWay[0]? = some x ∧ itemWaits s 0 x = none ∧ (∀ y ∈ (s.partOf 0).cruWay.take 0, y.cmd.lq ≠ x.cmd.lq ∨ y.cmd.q ≠ x.cmd.q) ∧ leafAbroad s 0 leaf0 = none ∧ (s.portOf 0).st ≠ .lost ∧
     NatMap.find? (s.partOf 0).insts leaf0.desc.gid = none ∧ goesAbroad (s.partOf 0) leaf0.cmd 7 0 = false ∧ leafAbroad s 0 { leaf0 with desc := { leaf0.desc with root := 3 } } = some ⟨0, bits ((s.partOf 0).peers.lookup 0 |>.getD 0).toNat 27 16, 0⟩) ∧
    (let s := cruState.setPart 0 { (cruState.partOf 0) with insts := [(7, inst0)] }
     NatMap.find? (s.partOf 0).insts 7 = some inst0 ∧ inst0.st = .opened ∧ instWaits s 0 7 = none ∧ inst0.leaves.head? = some leaf0 ∧ leaf0.det = false ∧ leaf0.desc.deadline ≤ s.prevDtime ∧ s.prevDtime < ({ leaf0.desc with deadline := 5 } : CollDesc).deadline) := by decide +kernel
/-- A CRED on its way reads its operands, or meets an untranslated page. -/
theorem witness_EnginesPerformTheirCommands_cred :
    (let x := CruItem.cred leaf0.cmd; let s := cruState.setPart 0 { (cruState.partOf 0) with cruWay := [x] }
     (s.partOf 0).cruWay[0]? = some x ∧ itemWaits s 0 x = none ∧ s.upset = .none ∧ ∃ l, credStart s leaf0.cmd = .done l) ∧
    (let x := CruItem.cred { leaf0.cmd with s := 0x100000 }; let s := cruState.setPart 0 { (cruState.partOf 0) with cruWay := [x] }
     itemWaits s 0 x = none ∧ credStart s { leaf0.cmd with s := 0x100000 } = .fault 0x10 0x100000) :=
  ⟨⟨by decide +kernel, by decide +kernel, by decide +kernel, of_isDone (by decide +kernel)⟩, ⟨by decide +kernel, of_faulted (by decide +kernel)⟩⟩
def performedIs (x : Performed) (done : Bool) : Bool := match x with | .done _ => done | .abort _ _ _ => !done | _ => false
theorem witness_EnginesPerformTheirCommands_halls :
    (let p : PseCmd := ⟨commandOfWord (eState [] []) 0 0 (wordE 0x75 h0 opE0) h0 opE0, 0, 0⟩
     let s := (eState [] []).setHall 0 { ((eState [] []).hallOf 0) with pseQ := [p] }
     ((s.hallOf 0).pseQ.find? fun p => p.tree = 0) = some p ∧ performedIs (psePerform (pseTake s 0 p) 0 p 0) false = true ∧
     (let t := s.setHall 0 { (s.hallOf 0) with trees := [(0, { PseTree.init with valid := true })] }; performedIs (psePerform (pseTake t 0 p) 0 p 0) true = true)) ∧
    (let c := commandOfWord (eState [] []) 0 0 (wordE 0x85 h0 opE0) h0 opE0; let s := (eState [] []).setHall 0 { ((eState [] []).hallOf 0) with gmeQ := [c] }
     (s.hallOf 0).gmeQ = c :: [] ∧ gmeOwes s 0 = false ∧ gmeOwes { s with owing := [c] } 0 = true ∧ performedIs (gmePerform (s.setHall 0 { (s.hallOf 0) with gmeQ := [] }) 0 c) true = true) ∧
    (let c := commandOfWord (eState [] []) 0 0 (wordE 0x71 h0 opE0) h0 opE0; treeOwes { eState [] [] with owing := [c] } 0 0 = true ∧ treeOwes (eState [] []) 0 0 = false) := by decide +kernel

/-- Frames that are in order, out of order, too large and of the last span. -/
def frameOf (ns : Nat) (w : Nat) : Frame := ⟨BitVec.ofNat 64 ns, w, 2, [], [], false⟩
/-- A frame of the largest size. -/
def frameBig : Frame := { frameOf 5 4096 with height := 2304 }
/-- The input of a stream with an access unit header at the ring's start: CAPNS 5, LEN 8; WIDX 40. -/
def auState (len : Nat) : State :=
  let d := { (stream0 .bound).desc with widx := 128 }
  let x := { stream0 .bound with desc := d }
  let s0 := vieState x
  { s0 with mem := putBytes [] capBase (toBytes 8 5 ++ toBytes 8 len ++ toBytes 112 0 ++ toBytes 8 40) }
theorem witness_StreamsJudgeFrames_units : ∀ len ∈ [(0 : Nat), 8, 65536], let s := auState len; let x := s.streamOf 0
    x.st = .bound ∧ s.readVa (vieAccess s 0 x) (x.desc.widx % 2 ^ 57) 8 = .done (toBytes 8 40, false) ∧
    s.readVa (vieAccess s 0 x) ((x.desc.ring + x.ridx % x.desc.rsize) % 2 ^ 57) 16 = .done (toBytes 8 5 ++ toBytes 8 len, false) ∧ (ofBytes (toBytes 8 40)) = 40 ∧ x.ridx + 16 + 8 ≤ 40 := by
  intro len h
  simp only [List.mem_cons, List.not_mem_nil, or_false] at h
  rcases h with rfl | rfl | rfl <;> exact ⟨by decide +kernel, of_answered (by decide +kernel), of_answered (by decide +kernel), by decide +kernel, by decide +kernel⟩
theorem witness_StreamsJudgeFrames :
    (let x := { stream0 .bound with taken := [(5, 0)], lastHi := 5 }; let s := vieState x; (s.streamOf 0).st = .bound ∧ (frameOf 5 4).concealed = false ∧ (s.streamOf 0).taken = ((frameOf 5 4).capns.toNat, 0) :: [] ∧ x.ended = false ∧ (frameOf 5 4).width ≤ 4096 ∧
     (frameBig).height ≤ 2304 ∧ frameBig.width ≤ 4096 ∧
     5 / 2 ^ x.desc.shift + x.desc.period ≤ 0xFFFFFFFFFE ∧ x.lastHi ≤ 5 / 2 ^ x.desc.shift ∧ 3 * (((frameOf 5 4).width * (if x.desc.ofmt = 1 then 2 else 1) + 63) / 64 * 64 * (frameOf 5 4).height) ≤ 2 * x.desc.slotsz ∧
     2 * x.desc.slotsz < 3 * ((frameBig.width * (if x.desc.ofmt = 1 then 2 else 1) + 63) / 64 * 64 * frameBig.height) ∧ 4 < x.lastHi) ∧
    (let t := { tok .zero .none with lo := 5, hi := 6 }; let x := { stream0 .bound with queue := [t], bound := 2 }; let s := { vieState x with dtime := 8 }; let y := s.streamOf 0
     let l := launch0 .running [stage0 [0]] []; ∃ r f, y.st = .bound ∧ y.ended = false ∧ s.launch? y.target.launch = some l ∧ l.stages[y.target.stage]? = some (stage0 [0]) ∧ (stage0 [0]).insts[y.target.inst]? = some 0 ∧
       s.region? 0 = some r ∧ (r.inputs.find? fun e => bits e.2.imm.toNat 3 0 = y.target.input) = some (0, f) ∧ r.live = true ∧ r.launch = some y.target.launch ∧ s.inTurn (r.lqAt 0) = true ∧
       (∀ e ∈ r.pendingReplay, e.1 ≠ y.target.input) ∧ (selectFiring s 0 r (r.placeOf 0).1).map (·.1) = some 0 ∧ y.queue = t :: [] ∧ s.dtime ≤ (t.hi + y.bound) * 2 ^ y.desc.shift ∧ (t.hi + 1) * 2 ^ y.desc.shift < s.dtime) := by
  refine ⟨by decide +kernel, { region1 (wordOf (.input (one .none 0x1FE0))) .init with role := some ⟨0, 0, 0⟩, launch := some 0 }, one .none 0x1FE0, ?_⟩
  decide +kernel

/-- An instance of three contributors, one of them here and one that came by port 0. -/
def inst2 : CollInst :=
  let d := { leaf0.desc with ncon := 3 }
  ⟨7, 0, d, [], .opened, [⟨leaf0.cmd, d, leaf0.elems, false, false⟩, ⟨farCmd 0 ⟨0, 1, 0⟩, { d with cidx := 1 }, leaf0.elems, false, false⟩], [0, 1], [], none, [], []⟩
/-- A partition with a peer behind port 0, which retrains, and that instance. -/
def linkState : State :=
  let s := cruState.setPort 0 { LinkPort.init with st := .retraining }
  { s.setPart 0 { (s.partOf 0) with insts := [(7, inst2)], peers := [(0, BitVec.ofNat 64 (2 ^ 63))] } with dtime := 1000000 }
/-- R342: the lost port closes the instance with STATUS LINK and the two leaves it holds, 1.0 and 1.0, and the CRED here completes with 2.0. -/
theorem test_lost_collective : then' (exec (.linkRetrainTimeout 0) linkState) (fun t =>
    ((NatMap.find? (t.partOf 0).insts 7).any fun i => decide (i.st = .closed) && decide ((i.delivery.map fun x => (x.status, x.pop, x.bitmap, x.vals)) = some (6, 2, 3, [0x40000000])))
      && decide (t.peerOut = [])) = true := by decide +kernel
/-- R342: a contribution for this device's root comes by port 0 and is on its way; what the root elsewhere delivers is written here. -/
theorem test_far_leaf :
    ((takeNews cruState 0 ⟨0, 1, 0⟩ (.leaf { leaf0.desc with ncon := 2, cidx := 1 } leaf0.elems false)).toOption.any fun t => (t.partOf 0).cruWay.any fun x => x.cmd.isFar) = true ∧
    decide ((deliverHere cruState ⟨[0x40000000], 0, 0, 1, 1, 9⟩ [] leaf0).byteAt (capBase + 64 + 3) = 0x40) = true := by decide +kernel
/-- A flit that holds its CRC. -/
def flit0 : List Byte := flitOf (toBytes 1 9)
/-- A port with one request that has arrived, from partition 0 of node 1, SEQ 5. -/
def portState (x : LinkPort) (newest : Option Nat) : State := { (qState Queue.init).setPort 0 x with sources := [⟨0, 1, 0, newest, [(5, [1])]⟩] }
def request5 : List Byte := toBytes 1 0 ++ [0] ++ toBytes 2 1 ++ toBytes 4 5 ++ toBytes 56 0
theorem witness_LinksCarryFlits :
    flitIntact flit0 = true ∧ flitIntact (toBytes 64 1) = false ∧ 7 < ofBytes (flit0.take 1) ∧ 0 < (qState Queue.init).numPorts ∧ LinkPort.init.st = .up ∧ LinkPort.init.header = none ∧
    (∀ n ∈ [(5, SeqPlace.within), (4, .newer), (2000, .older)], let s := portState { LinkPort.init with arrived := [request5] } (some n.1)
      let h := parseHeader (request5.take 64) (request5.drop 64); (s.portOf 0).arrived = request5 :: [] ∧ (s.sourceOf 0 h).place h.seq = n.2 ∧ NatMap.find? (s.sourceOf 0 h).cache h.seq = some [1] ∧ isPassing s 0 request5 = false ∧
      isPassing { s with peerOut := [⟨0, 0, 1, 5, [], 3, 0, false, ⟨1, 7, 0, 0, 8⟩, .passed 0 request5 [] false none⟩] } 0 request5 = true) ∧
    (let o : PeerOut := ⟨0, 0, 1, 5, [flit0], 3, 0, false, ⟨1, 7, 0, 0, 8⟩, .request⟩; let s := { qState Queue.init with peerOut := [o], dtime := 20000 }
     (s.peerOut.find? fun o => o.isAt 0 5 && !o.held && decide (20000 ≤ s.elapsed o.sentAt)) = some o ∧ ({ o with resends := 2 } : PeerOut).resends < 3 ∧ 3 ≤ o.resends ∧ loseWaits s = none) ∧
    (NatMap.find? (linkState.partOf 0).insts 7 = some inst2 ∧ inst2.st ≠ .closed ∧ inst2.present.length < inst2.fixed.ncon ∧ ∃ l ∈ inst2.leaves, l.cmd.isFar = true ∧ l.cmd.q = 0) ∧
    (let s := (qState Queue.init).setPort 0 { LinkPort.init with tsync := some (hbmBase, 9) }
     (s.portOf 0).st ≠ .lost ∧ (s.portOf 0).tsync = some (hbmBase, 9) ∧ rangeOf s hbmBase = .hbm ∧ rangeOf s (hbmBase + 39) = .hbm) ∧
    ({ LinkPort.init with st := .retraining } : LinkPort).st = .retraining ∧ (qState Queue.init).elapsed 0 ≤ 1000000 ∧ ({ LinkPort.init with st := .lost } : LinkPort).st = .lost := by decide +kernel
/-- R452: a flit whose CRC fails is asked for again, the second time the port retrains; a reserved TYPE is counted. -/
theorem test_links :
    then' (exec (.linkFlitReceive 0 (toBytes 64 1)) (qState Queue.init)) (fun t => (t.portOf 0).resent && decide ((t.portOf 0).st = .up)) = true ∧
    then' (exec (.linkFlitReceive 0 (toBytes 64 1)) ((qState Queue.init).setPort 0 { LinkPort.init with resent := true })) (fun t => decide ((t.portOf 0).st = .retraining)) = true ∧
    then' (exec (.linkFlitReceive 0 flit0) (qState Queue.init)) (fun t => decide ((t.portOf 0).bad = 1)) = true := by decide +kernel

/-- Words of each kind go on from a queue's state. -/
theorem witness_SequencerFrame : (∀ c ∈ registerWords ++ registerlessWords, (after (exec (c h0 (opA 1 2 3 0)) (qState (q0 [])))).isSome = true) ∧
    (∀ c ∈ [Instr.ldq, .stq], (after (exec (c h0 (opA 1 2 0 0)) (mState [(2, 8)] []))).isSome = true) ∧
    (let s := mState [(2, 8)] []; match spread s { queueAccess s 0 (s.queueOf 0 0) with want := .write } 8 8 with | .ok _ => true | _ => false) = true := by decide +kernel

/-- Two logical quads on physical quad 0, quad 0's turn over. -/
def shared : State := { qState Queue.init with remap := [(0, 0x200), (1, 0x200)], cycle := 65536 }
/-- A running device whose image has a digest of 48 bytes. -/
def booted : State := let s := qState Queue.init; { s with boot := { s.boot with digest := List.replicate 48 0 } }
/-- The events of the package each have a state they act on; a slot that verifies is in `witness_PowerAndBoot`, an export window in
`witness_HostReachesTheDevice`, the victim in `witness_LaunchesAreSavedAndRestored`. -/
theorem witness_EventsTakeEffect :
    (booted.boot.phase = .running ∧ booted.boot.digest.length = 48 ∧ (toBytes 32 9).length = 32 ∧ regAt booted 0x4000000008 = some .dtime) ∧
    (shared.turnOf 0 = some 0 ∧ 2 ≤ (shared.hosted 0).length ∧ (shared.pquadOf 0).turnStart + 65536 ≤ shared.cycle ∧ ∀ q, q < 4 → accessOut (shared.queueOf 0 q) = false) ∧
    (crowded.launches.any fun e => decide (e.1 = 1) && lacksRoom crowded 1 e.2 && (victims crowded 1 e.2).any fun vs => match vs with
      | [v] => !launchOwes crowded v.1 v.2 && (freeRuns crowded e.2.part (usedPages crowded e.2.part) [v]).any fun rs => decide (rs.length = 1)
      | _ => false) = true ∧
    (let im := { imageE .saving with reading := [0], late := [9] }; let l := launch0 .saved [] []; let s := { withLaunch (qState Queue.init) l with images := [(0, im)] }
     NatMap.find? s.images 0 = some im ∧ im.st = .saving ∧ s.launch? im.launch = some l ∧ im.reading.contains 0 = true ∧ answersOwed s 0 l = false ∧ launchOwes s im.launch l = false ∧ s.upset = .none ∧ l.phase = .saved ∧ im.st = .saving ∧
     (s.queueOf 0 0).ctx ∈ l.allCtxs ∧ 9 ∈ im.late ∧ ∀ p ∈ s.pending, p.req.id ≠ 9) ∧
    (let im := imageE .complete; let l := launch0 .saved [] []; let s := { withLaunch (qState Queue.init) l with images := [(0, im)] }
     s.launch? 0 = some l ∧ s.imageOf? 0 = some (0, im) ∧ s.waits 0 l = true ∧ mayStart s 0 l = true ∧ imageFree s [] im = true ∧ intact s im = true) := by
  and_intros <;> decide +kernel
/-- R57: the turn goes from quad 0 to quad 1. R456: a loss of power empties the machine. -/
theorem test_events :
    then' (exec (.turnChange 0) shared) (fun t => decide ((t.pquadOf 0).turn = some 1) && decide ((t.pquadOf 0).turnStart = 65536)) = true ∧
    then' (exec .thermalLimit shared) (fun t => decide (t.powered = false) && decide (t.remap = [])) = true := by decide +kernel
end Sys2Proof.Tests
end

section
/-! SUPPORT. Lanes as integers: rd, wr and Sat of the model are those of the statements (R9, R160), and its quotients and remainders
are written as R164 has them. -/

namespace Sys2Proof.Machine

open Sys2Proof.Claims

/-! ### Two's complement -/

/-- Two's complement of `w` bits is the signed reading of a word of `w` bits. -/
theorem sext_eq_toInt (w x : Nat) : sext w x = (BitVec.ofNat w x).toInt := by
  simp [sext, BitVec.toInt]

/-- An integer modulo `2 ^ w` is the unsigned reading of a word of `w` bits. -/
theorem wrapNat_eq_toNat (w : Nat) (v : Int) : wrapNat w v = (BitVec.ofInt w v).toNat :=
  (BitVec.toNat_ofInt v).symm

/-- An integer wrapped to `w` bits and read signed is that word's signed reading. -/
theorem sext_wrapNat (w : Nat) (v : Int) : sext w (wrapNat w v) = (BitVec.ofInt w v).toInt := by
  rw [sext_eq_toInt, wrapNat_eq_toNat, BitVec.ofNat_toNat, BitVec.setWidth_eq]

/-- A wrapped integer as a lane. -/
theorem ofNat_wrapNat (w : Nat) (v : Int) : BitVec.ofNat 36 (wrapNat w v) = (BitVec.ofInt w v).setWidth 36 := by
  rw [wrapNat_eq_toNat, BitVec.ofNat_toNat]

/-- A lane's signed reading by its low `w` bits. -/
theorem sext_toNat (w : Nat) (x : Lane) : sext w x.toNat = (x.setWidth w).toInt := by
  rw [sext_eq_toInt, BitVec.ofNat_toNat]

/-! ### The types -/

@[simp] theorem laneWidth_eq_widthOf (t : LaneTy) : laneWidth t = widthOf t := by cases t <;> rfl

@[simp] theorem isSigned_eq_signedTy (t : LaneTy) : isSigned t = signedTy t := by cases t <;> rfl

/-- The integer types are those of .i and those of .n (R160). -/
theorem isUnsigned_of_mem {t : LaneTy} (ht : t ∈ [LaneTy.i8, .i16, .i32, .n8, .n16, .n32]) : isUnsigned t = !signedTy t := by
  simp only [List.mem_cons, List.not_mem_nil, or_false] at ht
  rcases ht with rfl | rfl | rfl | rfl | rfl | rfl <;> rfl

/-! ### rd, wr and Sat -/

/-- The model's rd is R160's. -/
theorem rd_eq_rdOf (t : LaneTy) (x : Lane) : rd t x = rdOf t x := by
  cases t <;> simp [rd, rdOf, signedTy, widthOf, field, sext_toNat]

/-- The model's wr is R160's. -/
theorem wr_eq_wrOf (t : LaneTy) (v : Int) : wr t v = wrOf t v := by
  cases t <;> simp [wr, wrOf, signedTy, widthOf, sext_wrapNat, ofNat_wrapNat, BitVec.signExtend, -BitVec.toInt_ofInt]

/-- A number clamped to a range is the greater of its low end and the lesser of its high end and the number. -/
theorem clamp_eq_max_min {lo hi : Int} (h : lo ≤ hi) (v : Int) : clamp (lo, hi) v = max lo (min hi v) := by
  simp only [clamp]; split_ifs <;> omega

/-- The model's Sat is R9's. -/
theorem sat_eq_satOf (t : LaneTy) (v : Int) : sat t v = satOf t v := by
  cases t <;> exact clamp_eq_max_min (by decide) v

/-- Integers that agree modulo `2 ^ w` are written alike (R160). -/
theorem wrOf_congr {t : LaneTy} {u v : Int} (h : u % 2 ^ widthOf t = v % 2 ^ widthOf t) : wrOf t u = wrOf t v := by
  simp only [← wr_eq_wrOf, wr, wrapNat, laneWidth_eq_widthOf, Nat.cast_pow, Nat.cast_ofNat, h]

/-! ### Quotients and remainders -/

/-- The least number of a signed type and its negation are the same modulo `2 ^ w`. -/
theorem neg_least_emod (t : LaneTy) : (-(2 ^ (widthOf t - 1)) : Int) % 2 ^ widthOf t = 2 ^ (widthOf t - 1) % 2 ^ widthOf t := by
  cases t <;> rfl

/-- DIV's quotient is written as R164 has it: the one signed overflow, of the least number by -1, wraps to the dividend. -/
theorem wrOf_divQuot {t : LaneTy} (ht : t ∈ [LaneTy.i8, .i16, .i32, .n8, .n16, .n32]) (a b : Int) :
    wrOf t (divQuot t a b) = wrOf t (divOf t a b) := by
  by_cases hb : b = 0
  · cases hs : signedTy t <;> simp [divQuot, divOf, isUnsigned_of_mem ht, hb, hs]
  simp only [divQuot, divOf, truncDiv, if_neg hb]
  split_ifs with hover
  · simp only [Bool.and_eq_true, decide_eq_true_eq, laneWidth_eq_widthOf, Nat.cast_pow, Nat.cast_ofNat] at hover
    obtain ⟨⟨-, rfl⟩, rfl⟩ := hover
    exact wrOf_congr (by rw [Int.tdiv_neg, Int.tdiv_one, neg_neg, neg_least_emod])
  · rfl

/-- REM's remainder is R164's: the dividend for a zero divisor, otherwise with the sign of the dividend. -/
theorem divRem_eq_remOf (t : LaneTy) (a b : Int) : divRem t a b = remOf a b := by
  simp only [divRem, remOf, truncDiv]
  split_ifs with hb hover
  · rfl
  · simp only [Bool.and_eq_true, decide_eq_true_eq] at hover
    rw [hover.2, Int.tmod_neg, Int.tmod_one]
  · exact (Int.tmod_def a b).symm

end Sys2Proof.Machine
end

section
/-! SUPPORT. Integer instructions (R160 to R164): what the firing of an instruction that computes lane by lane sends, and that each writes its exact
result. -/

namespace Sys2Proof.Claims

open Sys2Proof.Machine

/-- An instruction that computes sends what it computes, lane by lane. -/
theorem FiringAt.computes_of_exec {z : FiringAt} {f : Fab} {i : Instr} {ty : Port → LaneTy} {flags : Firing → ExFlags} {p : Firing → Pred}
    {v : Firing → Nat → Lane} {val : Nat → Firing → Computed} (he : exec i z.s = computeFire i f ty z.s val)
    (hv : ∀ fr, val z.ctx fr = ⟨Lanes.ofFn (v fr), flags fr, p fr⟩) : z.computes f i ty flags p v := by
  intro hr ⟨hu, hp⟩ hj
  rw [he, computeFire_ordinary hr.focus hr.region hr.live hr.next hr.span hr.ready hu hp hj]
  simp only [hv, FiringAt.ops, FiringAt.fired, afterSet]

section
variable {z : FiringAt} {f : Fab} {i : Instr}

/-- An instruction of one operand sends its operation of each lane, without flags. -/
theorem computes_intOne {op : Lane → Lane} (he : exec i z.s = intOne i f z.s op) :
    z.computes f i (fun _ => f.ty) quiet plain fun fr k => op ((fr.lanesOf .a).get k) :=
  FiringAt.computes_of_exec he fun _ => rfl

/-- An instruction of two operands sends its operation of each pair of lanes, without flags; the immediate may stand for port b. -/
theorem computes_intTwo {op : Lane → Lane → Lane} (he : exec i z.s = intTwo i f z.s op) :
    z.computes f i (fun _ => f.ty) quiet plain fun fr k => op ((fr.lanesOf .a).get k) ((operandB f fr).get k) :=
  FiringAt.computes_of_exec he fun _ => rfl

/-- An instruction of three operands sends its operation of each triple of lanes, without flags; the immediate may stand for port c. -/
theorem computes_intThree {op : Lane → Lane → Lane → Lane} (he : exec i z.s = computeFire i f (fun _ => f.ty) z.s fun _ fr =>
      .plain (Lanes.map3 op (fr.lanesOf .a) (fr.lanesOf .b) (operandC f fr))) :
    z.computes f i (fun _ => f.ty) quiet plain fun fr k =>
      op ((fr.lanesOf .a).get k) ((fr.lanesOf .b).get k) ((operandC f fr).get k) :=
  FiringAt.computes_of_exec he fun _ => rfl

/-- An instruction that works on two integers sends the number that its operation writes (R160, R163). -/
theorem computes_intVals {op v : Int → Int → Int} (he : exec i z.s = intVals i f z.s op)
    (hop : ∀ a b, wrOf f.ty (op a b) = wrOf f.ty (v a b)) :
    z.computes f i (fun _ => f.ty) quiet plain fun fr k =>
      wrOf f.ty (v (rdOf f.ty ((fr.lanesOf .a).get k)) (rdOf f.ty ((operandB f fr).get k))) := by
  simpa only [wr_eq_wrOf, rd_eq_rdOf, hop] using computes_intTwo he

/-- MAD sends the exact a * b + c, wrapped once (R163). -/
theorem computes_mad : z.computes f (.mad f) (fun _ => f.ty) quiet plain fun fr k =>
    wrOf f.ty (rdOf f.ty ((fr.lanesOf .a).get k) * rdOf f.ty ((fr.lanesOf .b).get k) + rdOf f.ty ((operandC f fr).get k)) := by
  simpa only [wr_eq_wrOf, rd_eq_rdOf] using computes_intThree (z := z) (i := .mad f) rfl

/-- NEG sends the negated lanes (R163). -/
theorem computes_neg : z.computes f (.neg f) (fun _ => f.ty) quiet plain fun fr k => wrOf f.ty (-rdOf f.ty ((fr.lanesOf .a).get k)) := by
  simpa only [wr_eq_wrOf, rd_eq_rdOf] using computes_intOne (z := z) (i := .neg f) rfl

/-- ABS sends the magnitudes of the lanes (R163). -/
theorem computes_abs : z.computes f (.abs f) (fun _ => f.ty) quiet plain fun fr k => wrOf f.ty (rdOf f.ty ((fr.lanesOf .a).get k)).natAbs := by
  simpa only [wr_eq_wrOf, rd_eq_rdOf] using computes_intOne (z := z) (i := .abs f) rfl

/-- Each instruction of two integer operands performs an operation whose results are written as those its entry names (R163, R164). -/
theorem exec_intTable (ht : f.ty ∈ [LaneTy.i8, .i16, .i32, .n8, .n16, .n32]) :
    ∀ e ∈ intTable, ∃ op, (∀ s, exec (e.1 f) s = intVals (e.1 f) f s op) ∧ ∀ a b, wrOf f.ty (op a b) = wrOf f.ty (e.2 f.ty a b) := by
  simp only [intTable, List.forall_mem_cons]
  refine ⟨?add, ?sub, ?mul, ?mulh, ?div, ?rem, ?min, ?max, ?adds, ?subs, ?avg, List.forall_mem_nil _⟩
  case add => exact ⟨_, fun s => (rfl : execAdd f s = _), fun _ _ => rfl⟩
  case sub => exact ⟨_, fun s => (rfl : execSub f s = _), fun _ _ => rfl⟩
  case mul => exact ⟨_, fun s => (rfl : execMul f s = _), fun _ _ => rfl⟩
  case mulh => exact ⟨_, fun s => (rfl : execMulh f s = _), fun a b => by rw [laneWidth_eq_widthOf]⟩
  case div => exact ⟨_, fun s => (rfl : execDiv f s = _), wrOf_divQuot ht⟩
  case rem => exact ⟨_, fun s => (rfl : execRem f s = _), fun a b => by rw [divRem_eq_remOf]⟩
  case min => exact ⟨_, fun s => (rfl : execMin f s = _), fun _ _ => rfl⟩
  case max => exact ⟨_, fun s => (rfl : execMax f s = _), fun _ _ => rfl⟩
  case adds => exact ⟨_, fun s => (rfl : execAdds f s = _), fun a b => by rw [sat_eq_satOf]⟩
  case subs => exact ⟨_, fun s => (rfl : execSubs f s = _), fun a b => by rw [sat_eq_satOf]⟩
  case avg => exact ⟨_, fun s => (rfl : execAvg f s = _), fun _ _ => rfl⟩

/-- Each instruction of two integer operands sends the result its entry names (R163, R164). -/
theorem computes_intTable (ht : f.ty ∈ [LaneTy.i8, .i16, .i32, .n8, .n16, .n32]) {e : (Fab → Instr) × (LaneTy → Int → Int → Int)}
    (he : e ∈ intTable) : z.computes f (e.1 f) (fun _ => f.ty) quiet plain fun fr k =>
      wrOf f.ty (e.2 f.ty (rdOf f.ty ((fr.lanesOf .a).get k)) (rdOf f.ty ((operandB f fr).get k))) := by
  obtain ⟨op, hexec, hop⟩ := exec_intTable ht e he
  exact computes_intVals (hexec _) hop

end

/-- Settles O20: the model's rd, wr and Sat are R160's and R9's, and only DIV of the least number by -1 differs before it is wrapped. -/
theorem integerArithmetic : Obligations.IntegerArithmetic := fun _ _ ht =>
  ⟨fun _ he => computes_intTable ht he, computes_mad, computes_neg, computes_abs⟩

end Sys2Proof.Claims
end

section
/-! SUPPORT. Scalar words (R258): each operation of the model on words of 64 bits is the operation on integers taken modulo 2^64, and what a
scalar word of the queue in focus comes to. -/

namespace Sys2Proof.Claims

open Sys2Proof.Machine

/-! ### Operations on words as operations on integers -/

section
variable {w : Nat}

/-- The difference of two words is the difference of their values, taken modulo 2^w (SUB). -/
theorem sub_eq_ofInt (a b : BitVec w) : a - b = BitVec.ofInt w (a.toNat - b.toNat) := by
  rw [sub_eq_add_neg (a.toNat : Int), BitVec.ofInt_add, BitVec.ofInt_neg, BitVec.ofInt_natCast, BitVec.ofInt_natCast]
  simp [BitVec.sub_eq_add_neg]

/-- A shift to the left multiplies by a power of two (SHL). -/
theorem shiftLeft_eq_ofNat (a : BitVec w) (k : Nat) : a <<< k = BitVec.ofNat w (a.toNat * 2 ^ k) := by
  rw [← Nat.shiftLeft_eq]; rfl

/-- A logical shift to the right divides the unsigned value, downward (SHR). -/
theorem ushiftRight_eq_ofNat (a : BitVec w) (k : Nat) : a >>> k = BitVec.ofNat w (a.toNat / 2 ^ k) := by
  rw [← Nat.shiftRight_eq_div_pow, ← BitVec.toNat_ushiftRight, BitVec.ofNat_toNat, BitVec.setWidth_eq]

/-- An arithmetic shift to the right divides the signed value, downward (SAR). -/
theorem sshiftRight_eq_ofInt (a : BitVec w) (k : Nat) : a.sshiftRight k = BitVec.ofInt w (a.toInt / 2 ^ k) := by
  rw [BitVec.sshiftRight, Int.shiftRight_eq_div_pow, Nat.cast_pow, Nat.cast_ofNat]

/-- A truth value as a word is 1 or 0. -/
theorem ofNat_b2n_decide (p : Prop) [Decidable p] : BitVec.ofNat w (b2n (decide p)) = if p then 1 else 0 := by
  by_cases hp : p <;> simp [b2n, hp]

end

/-! ### The words -/

/-- A scalar word of the queue in focus writes its result to qd and retires to the next word (R258). -/
theorem scalarWord_focus {s : State} {lq q : Nat} (hf : s.focus = .queue lq q) (op : Nat) (h : Hdr) (o : OpA) (f : Word64 → Word64 → Word64) :
    scalarWord op h o s f =
      retires s (withReg s lq q o.qd.toNat (f ((s.queueOf lq q).reg o.qs.toNat) ((s.queueOf lq q).reg o.qt.toNat))) lq q (wordA op h o) h .next :=
  regWord_focus hf _

/-- Each word of R258 is a scalar word of its opcode, with an operation on words that agrees with the one its entry gives on integers. -/
theorem exec_scalarTable (h : Hdr) (o : OpA) : ∀ e ∈ scalarTable, ∃ f : Word64 → Word64 → Word64,
    (∀ s, exec (e.1 h o) s = scalarWord e.2.1 h o s f) ∧ ∀ a b, f a b = e.2.2 o.imm a b := by
  simp only [scalarTable, List.forall_mem_cons]
  refine ⟨?li, ?addi, ?add, ?sub, ?and, ?or, ?xor, ?shl, ?shr, ?sar, ?mul, ?slt, ?sltu, List.forall_mem_nil _⟩
  case li => exact ⟨_, fun s => (rfl : execLi h o s = _), fun _ _ => rfl⟩
  case addi => exact ⟨_, fun s => (rfl : execAddi h o s = _), fun a _ => BitVec.add_def a o.imm⟩
  case add => exact ⟨_, fun s => (rfl : execScalarAdd h o s = _), BitVec.add_def⟩
  case sub => exact ⟨_, fun s => (rfl : execScalarSub h o s = _), sub_eq_ofInt⟩
  case and => exact ⟨_, fun s => (rfl : execScalarAnd h o s = _), fun _ _ => by simp⟩
  case or => exact ⟨_, fun s => (rfl : execScalarOr h o s = _), fun _ _ => by simp⟩
  case xor => exact ⟨_, fun s => (rfl : execScalarXor h o s = _), fun _ _ => by simp⟩
  case shl => exact ⟨_, fun s => (rfl : execScalarShl h o s = _), fun a b => shiftLeft_eq_ofNat a (shiftOf b)⟩
  case shr => exact ⟨_, fun s => (rfl : execScalarShr h o s = _), fun a b => ushiftRight_eq_ofNat a (shiftOf b)⟩
  case sar => exact ⟨_, fun s => (rfl : execScalarSar h o s = _), fun a b => sshiftRight_eq_ofInt a (shiftOf b)⟩
  case mul => exact ⟨_, fun s => (rfl : execScalarMul h o s = _), fun _ _ => by simp [BitVec.ofNat_mul]⟩
  case slt => exact ⟨_, fun s => (rfl : execSlt h o s = _), fun a b => ofNat_b2n_decide (a.toInt < b.toInt)⟩
  case sltu => exact ⟨_, fun s => (rfl : execSltu h o s = _), fun a b => ofNat_b2n_decide (a.toNat < b.toNat)⟩

/-- Settles O10: each word is a scalar word whose operation is the exact one modulo 2^64, and a scalar word writes qd and retires. -/
theorem scalarWordsGiveExactResults : Obligations.ScalarWordsGiveExactResults := by
  intro e he h o s lq q hf
  obtain ⟨f, hexec, hop⟩ := exec_scalarTable h o e he
  rw [hexec, scalarWord_focus hf, hop]

end Sys2Proof.Claims
end

section
/-! SUPPORT. Every instruction has a next state: the shared operations always answer one, and every meaning is made of them. -/

namespace Sys2Proof.Machine

/-- The outcome is a next state: neither a fault nor a refusal. -/
def HasNext (r : Result) : Prop := ∃ t, r = .next t

theorem hasNext_next (t : State) : HasNext (.next t) := ⟨t, rfl⟩

/-- A sequencer word has a next state, whatever its effect. -/
theorem runWord_hasNext (raw : Nat) (h : Hdr) (s : State) (f : Nat → Nat → Queue → WordResult) : HasNext (runWord raw h s f) := by
  unfold runWord; split <;> exact hasNext_next _

/-- A firing has a next state, however it is judged. -/
theorem fireWith_hasNext (i : Instr) (ty : Port → LaneTy) (j : Firing → Judged) (act : State → Nat → Nat → Nat → Firing → State)
    (other : State → Nat → Nat → Firing → Token → State) (fin : State → Nat → Nat → Token → State) (s : State) :
    HasNext (fireWith i ty j act other fin s) := by
  fun_cases fireWith <;> exact hasNext_next _

/-- A slot that takes its tokens by a rule of its own has a next state. -/
theorem atSlot_hasNext (s : State) (f : State → Nat → Nat → Nat → Region → State) : HasNext (atSlot s f) := by
  fun_cases atSlot <;> exact hasNext_next _

/-- A write of the system cores has a next state. -/
theorem byCore_hasNext (s : State) (f : State → State) : HasNext (s.byCore f) := byCore_completes s f

/-- An event of the surroundings has a next state. -/
theorem unlessFailed_hasNext (s : State) (f : State → State) : HasNext (s.unlessFailed f) := by
  fun_cases State.unlessFailed <;> exact hasNext_next _


/-! The operations that instructions of one kind share are such a firing or such a word. -/

theorem fire_hasNext (i : Instr) (f : Fab) (ty : Port → LaneTy) (s : State) (act : State → Nat → Nat → Nat → Firing → State) : HasNext (fire i f ty s act) := by
  unfold fire; exact fireWith_hasNext ..
theorem computeFire_hasNext (i : Instr) (f : Fab) (ty : Port → LaneTy) (s : State) (val : Nat → Firing → Computed) : HasNext (computeFire i f ty s val) := by
  unfold computeFire; exact fire_hasNext ..
theorem accessFire_hasNext (i : Instr) (f : Fab) (op : MemOp) (s : State) : HasNext (accessFire i f op s) := by
  unfold accessFire; exact fireWith_hasNext ..
theorem intOne_hasNext (i : Instr) (f : Fab) (s : State) (op : Lane → Lane) : HasNext (intOne i f s op) := by
  unfold intOne; exact computeFire_hasNext ..
theorem intTwo_hasNext (i : Instr) (f : Fab) (s : State) (op : Lane → Lane → Lane) : HasNext (intTwo i f s op) := by
  unfold intTwo; exact computeFire_hasNext ..
theorem intVals_hasNext (i : Instr) (f : Fab) (s : State) (op : Int → Int → Int) : HasNext (intVals i f s op) := by
  unfold intVals; exact intTwo_hasNext ..
theorem intBits_hasNext (i : Instr) (f : Fab) (s : State) (op : Nat → Nat → Nat) : HasNext (intBits i f s op) := by
  unfold intBits; exact intTwo_hasNext ..
theorem intCount_hasNext (i : Instr) (f : Fab) (s : State) (op : Nat → Nat → Nat) : HasNext (intCount i f s op) := by
  unfold intCount; exact intOne_hasNext ..
theorem floatOne_hasNext (i : Instr) (f : Fab) (s : State) (op : Lane → Flagged Lane) : HasNext (floatOne i f s op) := by
  unfold floatOne; exact computeFire_hasNext ..
theorem floatTwo_hasNext (i : Instr) (f : Fab) (s : State) (op : Lane → Lane → Flagged Lane) : HasNext (floatTwo i f s op) := by
  unfold floatTwo; exact computeFire_hasNext ..
theorem laneMove_hasNext (i : Instr) (f : Fab) (s : State) (mv : Firing → Lanes → Lanes) : HasNext (laneMove i f s mv) := by
  unfold laneMove; exact computeFire_hasNext ..
theorem pairedMerge_hasNext (f : Fab) (s : State) : HasNext (pairedMerge f s) := by
  unfold pairedMerge; exact fireWith_hasNext ..
theorem regWord_hasNext (raw : Nat) (h : Hdr) (s : State) (f : Queue → Queue) : HasNext (regWord raw h s f) := by
  unfold regWord; exact runWord_hasNext ..
theorem scalarWord_hasNext (op : Nat) (h : Hdr) (o : OpA) (s : State) (f : Word64 → Word64 → Word64) : HasNext (scalarWord op h o s f) := by
  unfold scalarWord; exact regWord_hasNext ..
theorem systemWord_hasNext (raw : Nat) (h : Hdr) (s : State) (f : State → Nat → Nat → Queue → WordResult) : HasNext (systemWord raw h s f) := by
  unfold systemWord; exact runWord_hasNext ..
theorem engineWord_hasNext (raw : Nat) (h : Hdr) (o : OpE) (s : State) (check : Cmd → Option (Nat × Nat)) (accept : State → Cmd → WordResult) : HasNext (engineWord raw h o s check accept) := by
  unfold engineWord; exact runWord_hasNext ..

/-! Events whose meaning goes case by case: each case answers a next state. -/

theorem execLaunchRecordTake_hasNext (p k : Nat) (s : State) : HasNext (execLaunchRecordTake p k s) := by
  fun_cases execLaunchRecordTake <;> exact hasNext_next _
theorem execLaunchStart_hasNext (n : Nat) (s : State) : HasNext (execLaunchStart n s) := by
  fun_cases execLaunchStart <;> exact hasNext_next _
theorem execPriorityAging_hasNext (n : Nat) (s : State) : HasNext (execPriorityAging n s) := by
  fun_cases execPriorityAging <;> exact hasNext_next _
theorem execLaunchEnd_hasNext (n : Nat) (s : State) : HasNext (execLaunchEnd n s) := by
  fun_cases execLaunchEnd <;> exact hasNext_next _
theorem execPhaseEnd_hasNext (rid : Nat) (s : State) : HasNext (execPhaseEnd rid s) := by
  fun_cases execPhaseEnd <;> exact hasNext_next _
theorem execReplicaAdd_hasNext (n stage : Nat) (s : State) : HasNext (execReplicaAdd n stage s) := by
  fun_cases execReplicaAdd <;> exact hasNext_next _
theorem execReplicaRemove_hasNext (n stage : Nat) (s : State) : HasNext (execReplicaRemove n stage s) := by
  fun_cases execReplicaRemove <;> exact hasNext_next _
theorem execRangeSplitRequest_hasNext (rid slot : Nat) (s : State) : HasNext (execRangeSplitRequest rid slot s) := by
  fun_cases execRangeSplitRequest <;> exact hasNext_next _
theorem execTurnChange_hasNext (pq : Nat) (s : State) : HasNext (execTurnChange pq s) := by
  fun_cases execTurnChange <;> exact hasNext_next _
theorem execTokenArrival_hasNext (rid slot port : Nat) (s : State) : HasNext (execTokenArrival rid slot port s) := by
  fun_cases execTokenArrival <;> exact hasNext_next _
theorem execSpillReturn_hasNext (rid pe set : Nat) (s : State) : HasNext (execSpillReturn rid pe set s) := by
  fun_cases execSpillReturn <;> exact hasNext_next _
theorem execDeadlockDetect_hasNext (rid : Nat) (s : State) : HasNext (execDeadlockDetect rid s) := by
  fun_cases execDeadlockDetect <;> exact hasNext_next _
theorem execFaultRecordWrite_hasNext (p : Nat) (s : State) : HasNext (execFaultRecordWrite p s) := by
  fun_cases execFaultRecordWrite <;> exact hasNext_next _
theorem execMemoryRequestAccept_hasNext (lq mt : Nat) (s : State) : HasNext (execMemoryRequestAccept lq mt s) := by
  fun_cases execMemoryRequestAccept <;> exact hasNext_next _
theorem execPageWalkComplete_hasNext (pq n : Nat) (s : State) : HasNext (execPageWalkComplete pq n s) := by
  fun_cases execPageWalkComplete <;> exact hasNext_next _
theorem execAccessPerformAtHome_hasNext (id : Nat) (s : State) : HasNext (execAccessPerformAtHome id s) := by
  fun_cases execAccessPerformAtHome <;> exact hasNext_next _
theorem execRmwPipelineUpdate_hasNext (id : Nat) (s : State) : HasNext (execRmwPipelineUpdate id s) := by
  fun_cases execRmwPipelineUpdate <;> exact hasNext_next _
theorem execMtReplyRelease_hasNext (rid slot : Nat) (s : State) : HasNext (execMtReplyRelease rid slot s) := by
  fun_cases execMtReplyRelease <;> exact hasNext_next _
theorem execEvacuationComplete_hasNext (hall slot : Nat) (s : State) : HasNext (execEvacuationComplete hall slot s) := by
  fun_cases execEvacuationComplete <;> exact hasNext_next _
theorem execPreemptionDecision_hasNext (n : Nat) (s : State) : HasNext (execPreemptionDecision n s) := by
  fun_cases execPreemptionDecision <;> exact hasNext_next _
theorem execPreemptReadoutComplete_hasNext (k lq : Nat) (s : State) : HasNext (execPreemptReadoutComplete k lq s) := by
  fun_cases execPreemptReadoutComplete <;> exact hasNext_next _
theorem execLateReplyIntoImage_hasNext (k id : Nat) (s : State) : HasNext (execLateReplyIntoImage k id s) := by
  fun_cases execLateReplyIntoImage <;> exact hasNext_next _
theorem execLaunchRestore_hasNext (n : Nat) (s : State) : HasNext (execLaunchRestore n s) := by
  fun_cases execLaunchRestore <;> exact hasNext_next _
theorem execBceCommandStart_hasNext (lq ch : Nat) (s : State) : HasNext (execBceCommandStart lq ch s) := by
  fun_cases execBceCommandStart <;> exact hasNext_next _
theorem execBceGranuleTransfer_hasNext (lq ch : Nat) (s : State) : HasNext (execBceGranuleTransfer lq ch s) := by
  fun_cases execBceGranuleTransfer <;> exact hasNext_next _
theorem execBceCommandComplete_hasNext (lq ch : Nat) (s : State) : HasNext (execBceCommandComplete lq ch s) := by
  fun_cases execBceCommandComplete <;> exact hasNext_next _
theorem execMxtCommandStart_hasNext (lq m : Nat) (s : State) : HasNext (execMxtCommandStart lq m s) := by
  fun_cases execMxtCommandStart <;> exact hasNext_next _
theorem execMxtGroupApply_hasNext (lq m : Nat) (s : State) : HasNext (execMxtGroupApply lq m s) := by
  fun_cases execMxtGroupApply <;> exact hasNext_next _
theorem execAccoutTokenEmit_hasNext (lq m : Nat) (s : State) : HasNext (execAccoutTokenEmit lq m s) := by
  fun_cases execAccoutTokenEmit <;> exact hasNext_next _
theorem execCruLeafArrival_hasNext (p n : Nat) (s : State) : HasNext (execCruLeafArrival p n s) := by
  fun_cases execCruLeafArrival <;> exact hasNext_next _
theorem execCruDeadline_hasNext (p gid : Nat) (s : State) : HasNext (execCruDeadline p gid s) := by
  fun_cases execCruDeadline <;> exact hasNext_next _
theorem execPseCommandPerform_hasNext (hall tree : Nat) (s : State) : HasNext (execPseCommandPerform hall tree s) := by
  fun_cases execPseCommandPerform <;> exact hasNext_next _
theorem execGmeCommandPerform_hasNext (hall : Nat) (s : State) : HasNext (execGmeCommandPerform hall s) := by
  fun_cases execGmeCommandPerform <;> exact hasNext_next _
theorem execVieFrameDecoded_hasNext (n : Nat) (f : Frame) (s : State) : HasNext (execVieFrameDecoded n f s) := by
  fun_cases execVieFrameDecoded <;> exact hasNext_next _
theorem execVieFrameJudge_hasNext (n : Nat) (s : State) : HasNext (execVieFrameJudge n s) := by
  fun_cases execVieFrameJudge <;> exact hasNext_next _
theorem execHostAccess_hasNext (fn : HostFn) (acc : HostAcc) (s : State) : HasNext (execHostAccess fn acc s) := by
  fun_cases execHostAccess <;> exact hasNext_next _
theorem execCxlMemAccess_hasNext (p off : Nat) (acc : HostAcc) (s : State) : HasNext (execCxlMemAccess p off acc s) := by
  fun_cases execCxlMemAccess <;> exact hasNext_next _
theorem execPartitionResetDone_hasNext (p : Nat) (s : State) : HasNext (execPartitionResetDone p s) := by
  fun_cases execPartitionResetDone <;> exact hasNext_next _
theorem execMerge_hasNext (f : Fab) (s : State) : HasNext (execMerge f s) := by
  fun_cases execMerge
  · exact pairedMerge_hasNext f s
  · exact atSlot_hasNext ..
theorem execBartok_hasNext (f : Fab) (s : State) : HasNext (execBartok f s) := by
  fun_cases execBartok
  · exact atSlot_hasNext ..
  · exact fireWith_hasNext ..
theorem execSpawn_hasNext (f : Fab) (s : State) : HasNext (execSpawn f s) := by
  fun_cases execSpawn
  · exact hasNext_next _
  · exact fireWith_hasNext ..
theorem execCvt_hasNext (f : Fab) (s : State) : HasNext (execCvt f s) := by
  unfold execCvt; exact computeFire_hasNext ..
theorem execBrk_hasNext (f : Fab) (s : State) : HasNext (execBrk f s) := by
  fun_cases execBrk
  · exact hasNext_next _
  · exact fireWith_hasNext ..
theorem execAccessUnitTaken_hasNext (n : Nat) (decodes : Bool) (s : State) : HasNext (execAccessUnitTaken n decodes s) := by
  fun_cases execAccessUnitTaken <;> exact hasNext_next _

/-- Taking the next turn leaves the package's power as it is. -/
theorem nextTurn_powered {s s1 : State} {t : Turn} (h : nextTurn s = some (t, s1)) : s1.powered = s.powered := by
  unfold nextTurn at h
  split at h
  · cases h; rfl
  · obtain ⟨u, -, hu⟩ := Option.map_eq_some_iff.mp h
    cases hu; rfl

/-- Every instruction has a next state from every state. -/
theorem exec_hasNext (i : Instr) (s : State) : HasNext (exec i s) := by
  cases i
  case attestationReport | dtimeAdjust | tsyncStart | launchDoorbell | partitionReset | qsqStart | qsqPcWrite | qsqQctlWrite | semWrite |
      qsqMxmodeWrite | sysLqpartWrite | sysCtxownWrite | sysSaveWrite | sysLqbaseWrite | qosWordWrite | registerWrite =>
    dsimp only [exec, execAttestationReport, execDtimeAdjust, execTsyncStart, execLaunchDoorbell, execPartitionReset, execQsqStart,
      execQsqPcWrite, execQsqQctlWrite, execSemWrite, execQsqMxmodeWrite, execSysLqpartWrite, execSysCtxownWrite, execSysSaveWrite,
      execSysLqbaseWrite, execQosWordWrite, execRegisterWrite]
    exact byCore_hasNext ..
  case tsyncRequestArrival | tsyncReply | stairTransferFailure | linkFlitReceive | peerRequestArrival | linkResendTimeout |
      linkRetrainTimeout | portRetrained =>
    dsimp only [exec, execTsyncRequestArrival, execTsyncReply, execStairTransferFailure, execLinkFlitReceive, execPeerRequestArrival,
      execLinkResendTimeout, execLinkRetrainTimeout, execPortRetrained]
    exact unlessFailed_hasNext ..
  case input | output | omerge | lcarry | rangeExpand =>
    dsimp only [exec, execInput, execOutput, execOmerge, execLcarry, execRangeExpand]
    exact atSlot_hasNext ..
  case const | mad | cmp | idx | fma | fcmp | fscale | fclass | lmax | flsum | fldot =>
    dsimp only [exec, execConst, execMad, execCmp, execIdx, execFma, execFcmp, execFscale, execFclass, execLmax, execFlsum, execFldot]
    exact computeFire_hasNext ..
  case nullgen | copy | steer | lexit | ends | gate | join | spanset | spanshift | spanclip | stale | rangeMake | ctxnew | ctxfree | ord |
      fence | wptr | waitwp =>
    dsimp only [exec, execNullgen, execCopy, execSteer, execLexit, execEnds, execGate, execJoin, execSpanset, execSpanshift,
      execSpanclip, execStale, execRangeMake, execCtxnew, execCtxfree, execOrd, execFence, execWptr, execWaitwp]
    exact fire_hasNext ..
  case drop | sel | publish | pref | trap =>
    dsimp only [exec, execDrop, execSel, execPublish, execPref, execTrap]
    exact fireWith_hasNext ..
  case add | sub | mul | mulh | div | rem | min | max | adds | subs | avg =>
    dsimp only [exec, execAdd, execSub, execMul, execMulh, execDiv, execRem, execMin, execMax, execAdds, execSubs, execAvg]
    exact intVals_hasNext ..
  case neg | abs | not | bfe =>
    dsimp only [exec, execNeg, execAbs, execNot, execBfe]
    exact intOne_hasNext ..
  case and | or | xor =>
    dsimp only [exec, execAnd, execOr, execXor]
    exact intBits_hasNext ..
  case shl | shr | sar | rot | bfi =>
    dsimp only [exec, execShl, execShr, execSar, execRot, execBfi]
    exact intTwo_hasNext ..
  case popc | clz | ctz =>
    dsimp only [exec, execPopc, execClz, execCtz]
    exact intCount_hasNext ..
  case fadd | fsub | fmul | fmin | fmax | fdiv =>
    dsimp only [exec, execFadd, execFsub, execFmul, execFmin, execFmax, execFdiv]
    exact floatTwo_hasNext ..
  case fabs | fneg | frcp | fsqrt | frsq | fexp2 | flog2 | fsig | ftanh | frnd =>
    dsimp only [exec, execFabs, execFneg, execFrcp, execFsqrt, execFrsq, execFexp2, execFlog2, execFsig, execFtanh, execFrnd]
    exact floatOne_hasNext ..
  case perm | bcast | lrot | lsum | pack | unpack =>
    dsimp only [exec, execPerm, execBcast, execLrot, execLsum, execPack, execUnpack]
    exact laneMove_hasNext ..
  case ld | ldc | st | atom | red | acq =>
    dsimp only [exec, execLd, execLdc, execSt, execAtom, execRed, execAcq]
    exact accessFire_hasNext ..
  case li | addi | scalarAdd | scalarSub | scalarAnd | scalarOr | scalarXor | scalarShl | scalarShr | scalarSar | scalarMul | slt | sltu =>
    dsimp only [exec, execLi, execAddi, execScalarAdd, execScalarSub, execScalarAnd, execScalarOr, execScalarXor, execScalarShl,
      execScalarShr, execScalarSar, execScalarMul, execSlt, execSltu]
    exact scalarWord_hasNext ..
  case ldq | stq | br | brc | call | ret | loop | yield | halt | wait | sig | semset | semrd | nbarr | nbwait | taskdef | taskdone |
      tasknext | launch | cfgload | qwait | tlbInv | ctxsave | ctxload =>
    dsimp only [exec, execLdq, execStq, execBr, execBrc, execCall, execRet, execLoop, execYield, execHalt, execWait, execSig,
      execSemset, execSemrd, execNbarr, execNbwait, execTaskdef, execTaskdone, execTasknext, execLaunch, execCfgload, execQwait,
      execTlbInv, execCtxsave, execCtxload]
    exact runWord_hasNext ..
  case bceCopy | copymx | copysh | gather | scatter | fill | mma | mmat | accinit | acccnt | accout | accdrain | accpart | mxcfgMode |
      mxcfgPolicy | ovfstat | cred | crfix | crstat | stinit | stins | stdraw | stupd | stwgtBeta | stwgt | ststat | pdaload | pdastep |
      mask | sample | gmcfg | gmstat | vopen | vbind | vclose | vstat =>
    dsimp only [exec, execBceCopy, execCopymx, execCopysh, execGather, execScatter, execFill, execMma, execMmat, execAccinit,
      execAcccnt, execAccout, execAccdrain, execAccpart, execMxcfgMode, execMxcfgPolicy, execOvfstat, execCred, execCrfix, execCrstat,
      execStinit, execStins, execStdraw, execStupd, execStwgtBeta, execStwgt, execStstat, execPdaload, execPdastep, execMask,
      execSample, execGmcfg, execGmstat, execVopen, execVbind, execVclose, execVstat]
    exact engineWord_hasNext ..
  case sysrd | syswr | qflush | event =>
    dsimp only [exec, execSysrd, execSyswr, execQflush, execEvent]
    exact systemWord_hasNext ..
  case powerOnReset | thermalLimit | replayPoint | bceResume | bceDiscard | peBrkRelease | modulePowerLoss => exact hasNext_next _
  case launchRecordTake => exact execLaunchRecordTake_hasNext ..
  case launchStart => exact execLaunchStart_hasNext ..
  case priorityAging => exact execPriorityAging_hasNext ..
  case launchEnd => exact execLaunchEnd_hasNext ..
  case phaseEnd => exact execPhaseEnd_hasNext ..
  case replicaAdd => exact execReplicaAdd_hasNext ..
  case replicaRemove => exact execReplicaRemove_hasNext ..
  case rangeSplitRequest => exact execRangeSplitRequest_hasNext ..
  case turnChange => exact execTurnChange_hasNext ..
  case tokenArrival => exact execTokenArrival_hasNext ..
  case spillReturn => exact execSpillReturn_hasNext ..
  case deadlockDetect => exact execDeadlockDetect_hasNext ..
  case faultRecordWrite => exact execFaultRecordWrite_hasNext ..
  case memoryRequestAccept => exact execMemoryRequestAccept_hasNext ..
  case pageWalkComplete => exact execPageWalkComplete_hasNext ..
  case accessPerformAtHome => exact execAccessPerformAtHome_hasNext ..
  case rmwPipelineUpdate => exact execRmwPipelineUpdate_hasNext ..
  case mtReplyRelease => exact execMtReplyRelease_hasNext ..
  case evacuationComplete => exact execEvacuationComplete_hasNext ..
  case preemptionDecision => exact execPreemptionDecision_hasNext ..
  case preemptReadoutComplete => exact execPreemptReadoutComplete_hasNext ..
  case lateReplyIntoImage => exact execLateReplyIntoImage_hasNext ..
  case launchRestore => exact execLaunchRestore_hasNext ..
  case bceCommandStart => exact execBceCommandStart_hasNext ..
  case bceGranuleTransfer => exact execBceGranuleTransfer_hasNext ..
  case bceCommandComplete => exact execBceCommandComplete_hasNext ..
  case mxtCommandStart => exact execMxtCommandStart_hasNext ..
  case mxtGroupApply => exact execMxtGroupApply_hasNext ..
  case accoutTokenEmit => exact execAccoutTokenEmit_hasNext ..
  case cruLeafArrival => exact execCruLeafArrival_hasNext ..
  case cruDeadline => exact execCruDeadline_hasNext ..
  case pseCommandPerform => exact execPseCommandPerform_hasNext ..
  case gmeCommandPerform => exact execGmeCommandPerform_hasNext ..
  case vieFrameDecoded => exact execVieFrameDecoded_hasNext ..
  case vieFrameJudge => exact execVieFrameJudge_hasNext ..
  case hostAccess => exact execHostAccess_hasNext ..
  case cxlMemAccess => exact execCxlMemAccess_hasNext ..
  case partitionResetDone => exact execPartitionResetDone_hasNext ..
  case merge => exact execMerge_hasNext ..
  case bartok => exact execBartok_hasNext ..
  case spawn => exact execSpawn_hasNext ..
  case cvt => exact execCvt_hasNext ..
  case brk => exact execBrk_hasNext ..
  case accessUnitTaken => exact execAccessUnitTaken_hasNext ..

/-- A queue's turn has a next state. -/
theorem queueStep_hasNext (s : State) (lq q : Nat) : HasNext (queueStep s lq q) := by
  fun_cases queueStep
  case case1 => exact hasNext_next _
  case case2 => exact hasNext_next _
  case case3 => exact exec_hasNext ..

/-- A PE's turn has a next state. -/
theorem peStep_hasNext (s : State) (rid pe : Nat) : HasNext (peStep s rid pe) := by
  fun_cases peStep
  case case5 => exact exec_hasNext ..
  all_goals exact hasNext_next _

/-- What takes a turn answers a next state. -/
theorem actStep_hasNext (s : State) (a : Act) : HasNext (actStep s a) := by
  cases a with
  | queue lq q => exact queueStep_hasNext s lq q
  | pe rid pe => exact peStep_hasNext s rid pe
  | event i => exact exec_hasNext i s
  | core n p acc => exact byCore_hasNext s _
  | host off data => dsimp only [actStep]; fun_cases execHostMemory <;> exact hasNext_next _
  | enablePf => exact hasNext_next _

end Sys2Proof.Machine

namespace Sys2Proof.Claims

open Sys2Proof.Machine

/-- Settles O3: every meaning answers a next state, and with power a step is the act of its turn. -/
theorem poweredMachineNeverStops : Obligations.PoweredMachineNeverStops := by
  refine ⟨exec_hasNext, fun s hp => ?_⟩
  simp only [step]
  split
  · exact ⟨_, rfl⟩
  · next t s1 ht =>
    have hs1 : s1.powered = s.powered := nextTurn_powered ht
    rw [if_neg (by simp [hs1, hp])]
    exact actStep_hasNext ..

end Sys2Proof.Claims
end

section
/-! SUPPORT. Decoding undoes encoding (R89 to R103): the fields of a written word are read back, and an opcode with its fields names the instruction
it was written for. -/

namespace Sys2Proof.Laws.DecodesBack

open Sys2Proof.Laws.EncodesWithin

/-! ### The codes of the fields -/

theorem laneTyOf_code (t : LaneTy) : laneTyOf (laneTyCode t) = some t := by cases t <;> rfl
theorem gapOf_code (g : Gap) : gapOf (gapCode g) = g := by cases g <;> rfl
theorem pmOf_code (m : Pm) : pmOf (pmCode m) = some m := by cases m <;> rfl
theorem portOf_code (k : Port) : portOf (portCode k) = k := by cases k <;> rfl
theorem b2n_beq_one (b : Bool) : (b2n b == 1) = b := by cases b <;> rfl

/-- A target that its 9-bit field can hold is read back; port p of slot 127 would read as none (R91). -/
theorem targetOf_code {t : Option Target} (h : targetOk t = true) : targetOf (targetCode t) = t := by
  cases t with
  | none => rfl
  | some t =>
    obtain ⟨slot, port⟩ := t
    have hp := portCode_lt port
    have hne : slot.toNat * 4 + portCode port ≠ 0x1FF := by
      intro he
      have hs : slot = 127 := BitVec.eq_of_toNat_eq (by simp; omega)
      have hq : portCode port = 3 := by omega
      cases port <;> simp_all [targetOk, portCode]
    rw [targetCode, targetOf, if_neg hne]
    rw [show (slot.toNat * 4 + portCode port) / 4 = slot.toNat by omega, show (slot.toNat * 4 + portCode port) % 4 = portCode port by omega,
      portOf_code, BitVec.ofNat_toNat, BitVec.setWidth_eq]

/-! ### Fields of a word -/

/-- A field of `n` bits that lies at bit `lo` is read back. -/
theorem wfield_of_div {w lo n : Nat} {x : BitVec n} (h : w / 2 ^ lo % 2 ^ n = x.toNat) : wfield w lo n = x :=
  BitVec.eq_of_toNat_eq (by rw [wfield, BitVec.toNat_ofNat, h])

/-- The bytes of a word in memory give the word back, as far as they reach. -/
theorem wordOfBytes_toBytes (n w : Nat) : wordOfBytes n (toBytes n w) = some (w % 256 ^ n) := by
  induction n generalizing w with
  | zero => simp [wordOfBytes, Nat.mod_one]
  | succ n ih =>
    simp only [toBytes, wordOfBytes, ih, Option.map_some, BitVec.toNat_ofNat]
    rw [show (256 : Nat) ^ (n + 1) = 256 * 256 ^ n from Nat.pow_succ', Nat.mod_mul]

/-- The fields of a fabric word are read back (R89). -/
theorem fabFields_encodeFab (op : Nat) (f : Fab) (h0 : targetOk f.t0 = true) (h1 : targetOk f.t1 = true) :
    fabFields (encodeFab op f) f.ty f.pm = f := by
  have := laneTyCode_lt f.ty; have := gapCode_lt f.ga; have := gapCode_lt f.gb; have := pmCode_lt f.pm
  have := targetCode_lt f.t0; have := targetCode_lt f.t1; have := b2n_lt f.imf; have := f.sub.isLt; have := f.imm.isLt
  have hga : encodeFab op f / 2 ^ 50 % 4 = gapCode f.ga := by simp only [encodeFab]; omega
  have hgb : encodeFab op f / 2 ^ 48 % 4 = gapCode f.gb := by simp only [encodeFab]; omega
  have ht0 : encodeFab op f / 2 ^ 37 % 512 = targetCode f.t0 := by simp only [encodeFab]; omega
  have ht1 : encodeFab op f / 2 ^ 28 % 512 = targetCode f.t1 := by simp only [encodeFab]; omega
  have himf : encodeFab op f / 2 ^ 27 % 2 = b2n f.imf := by simp only [encodeFab]; omega
  have hsub : wfield (encodeFab op f) 24 3 = f.sub := wfield_of_div (by simp only [encodeFab]; omega)
  have himm : wfield (encodeFab op f) 0 24 = f.imm := wfield_of_div (by simp only [encodeFab]; omega)
  simp only [fabFields, hga, hgb, ht0, ht1, himf, hsub, himm, gapOf_code, targetOf_code h0, targetOf_code h1, b2n_beq_one]

/-- A fabric word whose type and predicate match are codes decodes to what its opcode makes of its fields (R89). -/
theorem decodeFabric_eq {w : Nat} {t : LaneTy} {pm : Pm} {i : Instr} (ht : laneTyOf (w / 2 ^ 52 % 16) = some t)
    (hpm : pmOf (w / 2 ^ 46 % 4) = some pm) (hi : fabricInstr (w / 2 ^ 56 % 256) (fabFields w t pm) = some i) : decodeFabric w = .ok i := by
  simp only [decodeFabric, ht, hpm, hi]

/-- A written fabric word decodes to what its opcode makes of its fields (R97). -/
theorem decodeFabric_encodeFab {op : Nat} {f : Fab} {i : Instr} (ho : op < 256) (h0 : targetOk f.t0 = true) (h1 : targetOk f.t1 = true)
    (hi : fabricInstr op f = some i) : decodeFabric (encodeFab op f) = .ok i := by
  have := laneTyCode_lt f.ty; have := gapCode_lt f.ga; have := gapCode_lt f.gb; have := pmCode_lt f.pm
  have := targetCode_lt f.t0; have := targetCode_lt f.t1; have := b2n_lt f.imf; have := f.sub.isLt; have := f.imm.isLt
  have hop : encodeFab op f / 2 ^ 56 % 256 = op := by simp only [encodeFab]; omega
  have hty : encodeFab op f / 2 ^ 52 % 16 = laneTyCode f.ty := by simp only [encodeFab]; omega
  have hpm : encodeFab op f / 2 ^ 46 % 4 = pmCode f.pm := by simp only [encodeFab]; omega
  refine decodeFabric_eq (t := f.ty) (pm := f.pm) ?_ ?_ ?_
  · rw [hty, laneTyOf_code]
  · rw [hpm, pmOf_code]
  · rw [hop, fabFields_encodeFab op f h0 h1, hi]

/-- Operands stand in the bits below 80 (R101). -/
theorem encodeOperands_lt (x : SeqOperands) : encodeOperands x < 2 ^ 80 := by
  cases x with
  | formatA a =>
    have := a.qd.isLt; have := a.qs.isLt; have := a.qt.isLt; have := b2n_lt a.b64; have := a.imm.isLt
    simp only [encodeOperands]; omega
  | formatE e =>
    have := e.qd.isLt; have := e.qs.isLt; have := e.qt.isLt; have := e.qv.isLt; have := e.unit.isLt; have := e.sub.isLt; have := e.imm.isLt
    simp only [encodeOperands]; omega

/-- The wait and signal fields of a sequencer word are read back (R98). -/
theorem hdrFields_encodeSeq (op : Nat) (h : Hdr) (x : SeqOperands) : hdrFields (encodeSeq op h x) = h := by
  have := b2n_lt h.we; have := h.wsem.isLt; have := h.wthr.isLt; have := b2n_lt h.se; have := h.ssem.isLt; have := h.inc.isLt
  have := encodeOperands_lt x
  have hwe : encodeSeq op h x / 2 ^ 119 % 2 = b2n h.we := by simp only [encodeSeq, encodeHdr]; omega
  have hse : encodeSeq op h x / 2 ^ 95 % 2 = b2n h.se := by simp only [encodeSeq, encodeHdr]; omega
  have hwsem : wfield (encodeSeq op h x) 111 8 = h.wsem := wfield_of_div (by simp only [encodeSeq, encodeHdr]; omega)
  have hwthr : wfield (encodeSeq op h x) 96 15 = h.wthr := wfield_of_div (by simp only [encodeSeq, encodeHdr]; omega)
  have hssem : wfield (encodeSeq op h x) 87 8 = h.ssem := wfield_of_div (by simp only [encodeSeq, encodeHdr]; omega)
  have hinc : wfield (encodeSeq op h x) 80 7 = h.inc := wfield_of_div (by simp only [encodeSeq, encodeHdr]; omega)
  simp only [hdrFields, hwe, hse, hwsem, hwthr, hssem, hinc, b2n_beq_one]

/-- Operands in layout A are read back (R101). -/
theorem opAFields_encodeSeq (op : Nat) (h : Hdr) (a : OpA) : opAFields (encodeSeq op h (.formatA a)) = a := by
  have := a.qd.isLt; have := a.qs.isLt; have := a.qt.isLt; have := b2n_lt a.b64; have := a.imm.isLt
  have hqd : wfield (encodeSeq op h (.formatA a)) 75 5 = a.qd := wfield_of_div (by simp only [encodeSeq, encodeHdr, encodeOperands]; omega)
  have hqs : wfield (encodeSeq op h (.formatA a)) 70 5 = a.qs := wfield_of_div (by simp only [encodeSeq, encodeHdr, encodeOperands]; omega)
  have hqt : wfield (encodeSeq op h (.formatA a)) 65 5 = a.qt := wfield_of_div (by simp only [encodeSeq, encodeHdr, encodeOperands]; omega)
  have hb64 : encodeSeq op h (.formatA a) / 2 ^ 64 % 2 = b2n a.b64 := by simp only [encodeSeq, encodeHdr, encodeOperands]; omega
  have himm : wfield (encodeSeq op h (.formatA a)) 0 64 = a.imm := wfield_of_div (by simp only [encodeSeq, encodeHdr, encodeOperands]; omega)
  simp only [opAFields, hqd, hqs, hqt, hb64, himm, b2n_beq_one]

/-- Operands in layout E are read back (R101). -/
theorem opEFields_encodeSeq (op : Nat) (h : Hdr) (e : OpE) : opEFields (encodeSeq op h (.formatE e)) = e := by
  have := e.qd.isLt; have := e.qs.isLt; have := e.qt.isLt; have := e.qv.isLt; have := e.unit.isLt; have := e.sub.isLt; have := e.imm.isLt
  have hqd : wfield (encodeSeq op h (.formatE e)) 75 5 = e.qd := wfield_of_div (by simp only [encodeSeq, encodeHdr, encodeOperands]; omega)
  have hqs : wfield (encodeSeq op h (.formatE e)) 70 5 = e.qs := wfield_of_div (by simp only [encodeSeq, encodeHdr, encodeOperands]; omega)
  have hqt : wfield (encodeSeq op h (.formatE e)) 65 5 = e.qt := wfield_of_div (by simp only [encodeSeq, encodeHdr, encodeOperands]; omega)
  have hqv : wfield (encodeSeq op h (.formatE e)) 60 5 = e.qv := wfield_of_div (by simp only [encodeSeq, encodeHdr, encodeOperands]; omega)
  have hunit : wfield (encodeSeq op h (.formatE e)) 56 4 = e.unit :=
    wfield_of_div (by simp only [encodeSeq, encodeHdr, encodeOperands]; omega)
  have hsub : wfield (encodeSeq op h (.formatE e)) 48 8 = e.sub := wfield_of_div (by simp only [encodeSeq, encodeHdr, encodeOperands]; omega)
  have himm : wfield (encodeSeq op h (.formatE e)) 0 48 = e.imm := wfield_of_div (by simp only [encodeSeq, encodeHdr, encodeOperands]; omega)
  simp only [opEFields, hqd, hqs, hqt, hqv, hunit, hsub, himm]

/-- The opcode of a sequencer word is read back (R98). -/
theorem opcode_encodeSeq {op : Nat} (h : Hdr) (x : SeqOperands) (ho : op < 256) : encodeSeq op h x / 2 ^ 120 % 256 = op := by
  have := b2n_lt h.we; have := h.wsem.isLt; have := h.wthr.isLt; have := b2n_lt h.se; have := h.ssem.isLt; have := h.inc.isLt
  have := encodeOperands_lt x
  simp only [encodeSeq, encodeHdr]; omega

/-! ### The opcodes -/

/-- The opcode of a fabric instruction with its fields names the instruction; a well-formed RANGE says its form in mod[0] (R97, R140). -/
theorem fabricInstr_parts {i : Instr} {op : Nat} {f : Fab} (hp : fabricParts i = some (op, f)) (hw : i.wellFormed = true) :
    fabricInstr op f = some i := by
  cases i
  case rangeMake g =>
    cases hp
    have hs : f.sub = 0 := by
      simp only [Instr.wellFormed, fabricForm, formS, Form.ok, Bool.and_eq_true, decide_eq_true_eq] at hw; tauto
    exact congrArg some (by rw [hs]; rfl : (if f.sub.getLsbD 0 then Instr.rangeExpand f else .rangeMake f) = _)
  case rangeExpand g =>
    cases hp
    have hs : f.sub = 1 := by
      simp only [Instr.wellFormed, fabricForm, formS, Form.ok, Bool.and_eq_true, decide_eq_true_eq] at hw; tauto
    exact congrArg some (by rw [hs]; rfl : (if f.sub.getLsbD 0 then Instr.rangeExpand f else .rangeMake f) = _)
  all_goals cases hp <;> rfl

/-- The fields that a fabric instruction is written with are those its entry checks, and its opcode has 8 bits (R89, R92). -/
theorem fabricForm_parts {i : Instr} {op : Nat} {f : Fab} (hp : fabricParts i = some (op, f)) :
    op < 256 ∧ ∃ m, fabricForm i = some (f, m) := by
  cases i <;> cases hp <;> exact ⟨by decide, _, rfl⟩

/-- A well-formed fabric instruction has targets that its word can hold (R92). -/
theorem targetOk_of_wellFormed {i : Instr} {op : Nat} {f : Fab} (hp : fabricParts i = some (op, f)) (hw : i.wellFormed = true) :
    targetOk f.t0 = true ∧ targetOk f.t1 = true := by
  obtain ⟨-, m, hm⟩ := fabricForm_parts hp
  simp only [Instr.wellFormed, hm, Form.ok, targetsOk, Bool.and_eq_true] at hw
  tauto

/-- Operands are what a word's operand field gives in their layout. -/
def ReadAs (a : OpA) (e : OpE) : SeqOperands → Prop
  | .formatA b => a = b
  | .formatE b => e = b

/-- The operand field of a written word gives its operands in their layout (R101). -/
theorem readAs_encodeSeq (op : Nat) (h : Hdr) (x : SeqOperands) : ReadAs (opAFields (encodeSeq op h x)) (opEFields (encodeSeq op h x)) x := by
  cases x with
  | formatA a => exact opAFields_encodeSeq op h a
  | formatE e => exact opEFields_encodeSeq op h e

/-- The opcode of a sequencer instruction with its fields names the instruction; well-formed MXCFG and STWGT say their form in sub[0] (R102, R322, R360). -/
theorem sequencerInstr_parts {i : Instr} {op : Nat} {h : Hdr} {x : SeqOperands} {a : OpA} {e : OpE} (hp : sequencerParts i = some (op, h, x))
    (hw : i.wellFormed = true) (hx : ReadAs a e x) : op < 256 ∧ sequencerInstr op h a e = some i := by
  cases i
  case mxcfgMode g o =>
    cases hp; cases hx
    have hs : e.sub = 0 := by simp only [Instr.wellFormed, fabricForm, sequencerFields, Bool.and_eq_true, decide_eq_true_eq] at hw; tauto
    exact ⟨by decide, congrArg some (by rw [hs]; rfl : (if e.sub.getLsbD 0 then Instr.mxcfgPolicy h e else .mxcfgMode h e) = _)⟩
  case mxcfgPolicy g o =>
    cases hp; cases hx
    have hs : e.sub = 1 := by simp only [Instr.wellFormed, fabricForm, sequencerFields, Bool.and_eq_true, decide_eq_true_eq] at hw; tauto
    exact ⟨by decide, congrArg some (by rw [hs]; rfl : (if e.sub.getLsbD 0 then Instr.mxcfgPolicy h e else .mxcfgMode h e) = _)⟩
  case stwgt g o =>
    cases hp; cases hx
    have hs : e.sub = 0 := by simp only [Instr.wellFormed, fabricForm, sequencerFields, Bool.and_eq_true, decide_eq_true_eq] at hw; tauto
    exact ⟨by decide, congrArg some (by rw [hs]; rfl : (if e.sub.getLsbD 0 then Instr.stwgtBeta h e else .stwgt h e) = _)⟩
  case stwgtBeta g o =>
    cases hp; cases hx
    have hs : e.sub = 1 := by simp only [Instr.wellFormed, fabricForm, sequencerFields, Bool.and_eq_true, decide_eq_true_eq] at hw; tauto
    exact ⟨by decide, congrArg some (by rw [hs]; rfl : (if e.sub.getLsbD 0 then Instr.stwgtBeta h e else .stwgt h e) = _)⟩
  all_goals cases hp <;> cases hx <;> exact ⟨by decide, rfl⟩

/-- A sequencer word decodes to what its opcode makes of its fields (R102). -/
theorem decodeSequencer_eq {w : Nat} {i : Instr} (hi : sequencerInstr (w / 2 ^ 120 % 256) (hdrFields w) (opAFields w) (opEFields w) = some i) :
    decodeSequencer w = .ok i := by
  simp only [decodeSequencer, hi]

/-- A written sequencer word decodes to its instruction (R102). -/
theorem decodeSequencer_encodeSeq {i : Instr} {op : Nat} {h : Hdr} {x : SeqOperands} (hp : sequencerParts i = some (op, h, x))
    (hw : i.wellFormed = true) : decodeSequencer (encodeSeq op h x) = .ok i := by
  obtain ⟨ho, hi⟩ := sequencerInstr_parts hp hw (readAs_encodeSeq op h x)
  exact decodeSequencer_eq (by rw [opcode_encodeSeq h x ho, hdrFields_encodeSeq, hi])

/-! ### Words in memory -/

/-- A fabric word of 64 bits is decoded from its eight bytes. -/
theorem decodeTableWord_fabric {w : Nat} {i : Instr} (hw : w < 2 ^ 64) (hd : decodeFabric w = .ok i) : decodeTableWord 64 w = some i := by
  have hb : wordOfBytes 8 (toBytes 8 w) = some w := by rw [wordOfBytes_toBytes, show (256 : Nat) ^ 8 = 2 ^ 64 from rfl, Nat.mod_eq_of_lt hw]
  simp only [decodeTableWord, if_true, decodeFabricBytes, hb, hd, Decoded.instr?]

/-- A sequencer word of 128 bits is decoded from its sixteen bytes. -/
theorem decodeTableWord_sequencer {w : Nat} {i : Instr} (hw : w < 2 ^ 128) (hd : decodeSequencer w = .ok i) : decodeTableWord 128 w = some i := by
  have hb : wordOfBytes 16 (toBytes 16 w) = some w := by
    rw [wordOfBytes_toBytes, show (256 : Nat) ^ 16 = 2 ^ 128 from rfl, Nat.mod_eq_of_lt hw]
  rw [decodeTableWord, if_neg (by decide), if_pos rfl]
  simp only [decodeSequencerBytes, hb, hd, Decoded.instr?]

end Sys2Proof.Laws.DecodesBack

namespace Sys2Proof.Claims

open Sys2Proof.Laws.DecodesBack Sys2Proof.Laws.EncodesWithin

/-- Settles O6: what the encoder writes is a fabric or a sequencer word, and each decodes field by field. -/
theorem decodingInvertsEncoding : Obligations.DecodingInvertsEncoding := by
  intro i n w hw he
  unfold encode at he
  split at he
  case h_1 op f hp =>
    cases he
    obtain ⟨h0, h1⟩ := targetOk_of_wellFormed hp hw
    have ho := (fabricForm_parts hp).1
    exact decodeTableWord_fabric (encodeFab_lt op f ho) (decodeFabric_encodeFab ho h0 h1 (fabricInstr_parts hp hw))
  case h_2 =>
    split at he
    case h_1 op h x hp =>
      cases he
      have ho := (sequencerInstr_parts hp hw (readAs_encodeSeq op h x)).1
      exact decodeTableWord_sequencer (encodeSeq_lt op h x ho) (decodeSequencer_encodeSeq hp hw)
    case h_2 => cases he

end Sys2Proof.Claims
end

section
/-! SUPPORT. Reset, the turn of a step, and worked examples (R89 to R103, R252, R253, R461). -/

namespace Sys2Proof.Claims

open Sys2Proof.Machine

/-- Settles O1: the state after reset lists nothing, so each part of it is the initial one. -/
theorem resetLeavesQueuesHalted : Obligations.ResetLeavesQueuesHalted :=
  ⟨rfl, rfl, rfl, rfl, fun _ _ _ _ => ⟨if_neg (show ¬ bit 0 4 = true by decide), rfl, rfl, rfl, rfl, rfl, rfl, by unfold Queue.reg; split <;> rfl, rfl, rfl, rfl⟩⟩

/-- Settles O5: memory lists nothing at reset. -/
theorem resetMemoryCanonical : Obligations.ResetMemoryCanonical := rfl

/-- Settles O7: each word is what the encoder writes for a well-formed instruction, and decoding undoes encoding. -/
theorem workedExamplesDecode : Obligations.WorkedExamplesDecode :=
  ⟨decodingInvertsEncoding _ _ _ rfl rfl, decodingInvertsEncoding _ _ _ rfl rfl, decodingInvertsEncoding _ _ _ rfl rfl,
    decodingInvertsEncoding _ _ _ rfl rfl⟩

end Sys2Proof.Claims

namespace Sys2Proof.Machine

/-! ### Scalar registers (R101, R252) -/

/-- Register 0 reads zero. -/
@[simp] theorem Queue.reg_zero (x : Queue) : x.reg 0 = 0 := rfl

/-- A write of register 0 is discarded. -/
@[simp] theorem Queue.setReg_zero (x : Queue) (v : Word64) : x.setReg 0 v = x := rfl

/-- A register that was written is read back. -/
theorem Queue.setReg_reg_self (x : Queue) {r : Nat} (v : Word64) (h : r ≠ 0) : (x.setReg r v).reg r = v := by
  simp [Queue.setReg, Queue.reg, h]

/-- Every other register is as before. -/
theorem Queue.setReg_reg_other (x : Queue) {r k : Nat} (v : Word64) (h : k ≠ r) : (x.setReg r v).reg k = x.reg k := by
  unfold Queue.setReg
  split
  · rfl
  · simp [Queue.reg, NatMap.get_set_other _ _ _ h]

/-! ### The turn of a queue and of a PE (R138, R253, R254) -/

/-- A sequencer word of 128 bits that the decoder of the table reads is the one the queue's decoder reads. -/
theorem decodeTableWord_eq_decodeSequencer {w : Nat} (hw : w < 2 ^ 128) : decodeTableWord 128 w = (decodeSequencer w).instr? := by
  have hb : wordOfBytes 16 (toBytes 16 w) = some w := by
    rw [Laws.DecodesBack.wordOfBytes_toBytes, show (256 : Nat) ^ 16 = 2 ^ 128 from rfl, Nat.mod_eq_of_lt hw]
  rw [decodeTableWord, if_neg (by decide), if_pos rfl]
  simp only [decodeSequencerBytes, hb]

/-- A queue that runs in an assigned quad in its turn, its fetch answered and its wait field met or tested before. -/
structure Issues (s : State) (lq q w : Nat) : Prop where
  running : (s.queueOf lq q).st = .running
  assigned : s.lqOwner lq ≠ none
  turn : s.inTurn lq = true
  answering : (s.queueOf lq q).isAnswering = false
  thawed : frozenQueue s lq (s.queueOf lq q) = false
  fetched : fetchWord (fetchStruck s lq q) lq q = .done w
  met : (s.queueOf lq q).phase.untested = true → waitMet ((fetchStruck s lq q).quadOf lq) (hdrFields w) = true

/-- The turn of such a queue runs the word that is well formed, and any other traps ILLEGAL_CMD. -/
theorem queueTurn_issues {s : State} {lq q w : Nat} (h : Issues s lq q w) :
    queueTurn s lq q =
      match decodeSequencer w with
      | .refused _ => .done ((clearWait (fetchStruck s lq q) lq q).trap lq q codeIllegal w 0 0)
      | .ok i =>
        if i.wellFormed then .run i { (goesOn (clearWait (fetchStruck s lq q) lq q) lq q) with focus := .queue lq q }
        else .done ((clearWait (fetchStruck s lq q) lq q).trap lq q codeIllegal w 0 0) := by
  have hgo : ¬ ((s.queueOf lq q).st ≠ .running ∨ s.lqOwner lq = none ∨ (!s.inTurn lq) = true ∨ (s.queueOf lq q).isAnswering = true ∨
      frozenQueue s lq (s.queueOf lq q) = true) := by
    simp [h.running, h.assigned, h.turn, h.answering, h.thawed]
  have hmet : ¬ ((s.queueOf lq q).phase.untested = true ∧ (!waitMet ((fetchStruck s lq q).quadOf lq) (hdrFields w)) = true) := by
    rintro ⟨hu, hn⟩; simp [h.met hu] at hn
  simp only [queueTurn, if_neg hgo, h.fetched, if_neg hmet] <;> rfl

/-- The step of such a queue is exec of the instruction that its word decodes to, where that is well formed. -/
theorem queueStep_runs {s : State} {lq q w : Nat} {i : Instr} (h : Issues s lq q w) (hw : w < 2 ^ 128) (hd : decodeTableWord 128 w = some i)
    (hi : i.wellFormed = true) :
    queueStep s lq q = exec i { (goesOn (clearWait (fetchStruck s lq q) lq q) lq q) with focus := .queue lq q } := by
  rw [decodeTableWord_eq_decodeSequencer hw] at hd
  unfold queueStep
  rw [queueTurn_issues h]
  cases hx : decodeSequencer w with
  | refused e => simp [hx, Decoded.instr?] at hd
  | ok j =>
    simp only [hx, Decoded.instr?, Option.some.injEq] at hd
    subst hd
    simp only [hi, if_true]

/-- The step of such a queue traps ILLEGAL_CMD where decoding or its entry's fields refuse the word. -/
theorem queueStep_illegal {s : State} {lq q w : Nat} (h : Issues s lq q w) (hw : w < 2 ^ 128)
    (hi : ∀ i, decodeTableWord 128 w = some i → i.wellFormed = false) :
    queueStep s lq q = .next ((clearWait (fetchStruck s lq q) lq q).trap lq q codeIllegal w 0 0) := by
  rw [decodeTableWord_eq_decodeSequencer hw] at hi
  unfold queueStep
  rw [queueTurn_issues h]
  cases hx : decodeSequencer w with
  | refused e => rfl
  | ok j =>
    have hj := hi j (by simp [hx, Decoded.instr?])
    simp only [hj]
    rfl

/-- A PE whose region's clock runs and whose quad is in its turn issues the firing that the selector picks. -/
theorem peStep_live {s : State} {rid pe : Nat} {r : Region} (hr : s.region? rid = some r) (hl : r.live = true)
    (ht : s.inTurn (r.lqOfBit (r.pes.getD pe 0)) = true) :
    (∀ slot ctx i, selectFiring s rid r pe = some (slot, ctx) → r.instrAt slot = some i →
      peStep s rid pe = exec i { issued s rid with focus := .slot rid slot ctx }) ∧
    (selectFiring s rid r pe = none → peStep s rid pe = .next s) := by
  have hgo : ¬ (!r.live || !s.inTurn (r.lqOfBit (r.pes.getD pe 0))) = true := by rw [hl, ht]; decide
  constructor
  · intro slot ctx i hsel hi
    simp only [peStep, hr, if_neg hgo, hsel, hi]
  · intro hsel
    simp only [peStep, hr, if_neg hgo, hsel]

/-- Without power a turn that does not bring it stops the step. -/
theorem step_unpowered {s : State} {u : Turn} {ts : List Turn} (hp : s.powered = false) (ha : s.agenda = u :: ts)
    (hg : givesPower u.act = false) : step s = .fault .noPower := by
  simp [step, nextTurn, ha, hp, hg]

/-- Only the event that brings power gives it. -/
theorem givesPower_eq_false {a : Act} (h : ∀ ws, a ≠ .event (.powerOnReset ws)) : givesPower a = false := by
  unfold givesPower
  split
  · exact absurd rfl (h _)
  · rfl

end Sys2Proof.Machine

namespace Sys2Proof.Claims

open Sys2Proof.Machine

/-- Settles O11: a register is a cell of a sparse map, but for register 0. -/
theorem registerZeroStaysZero : Obligations.RegisterZeroStaysZero := fun x _ v =>
  ⟨fun h => x.setReg_reg_self v h, x.setReg_zero v, x.reg_zero, fun _ h => x.setReg_reg_other v h⟩

/-- Settles O2: a step is the act of its turn, and each kind of act runs what its turn names. -/
theorem stepRunsTheDecodedInstruction : Obligations.StepRunsTheDecodedInstruction := by
  refine ⟨?queue, ?pe, ?event, ?accesses, ?unpowered⟩
  case queue =>
    intro s c ns u ts lq q w hp ha s1 x s2 hst hown hturn hans hfro hfet hw hmet
    have h : Issues s1 lq q w := ⟨hst, hown, hturn, hans, hfro, hfet, hmet⟩
    rw [step_agenda hp ha]
    exact ⟨fun i hd hi => queueStep_runs h hw hd hi, fun hi => queueStep_illegal h hw hi⟩
  case pe =>
    intro s c ns u ts rid pe r hp ha s1 hr hl ht
    rw [step_agenda hp ha]
    exact peStep_live hr hl ht
  case event =>
    intro s c ns u ts i hp ha
    exact step_agenda hp ha
  case accesses =>
    intro s c ns u ts hp
    exact ⟨fun n p acc ha => step_agenda hp ha, fun off data ha => step_agenda hp ha, fun ha => step_agenda hp ha⟩
  case unpowered =>
    intro s c ns u ts a hp ha hn
    exact step_unpowered hp ha (givesPower_eq_false hn)

end Sys2Proof.Claims
end

section
/-! SUPPORT. Retirement, traps and control words (R99, R256, R260 to R264, R394, R395, R434). -/

namespace Sys2Proof.Machine

/-! ### Retirement -/

section
variable {s0 s : State} {lq q raw : Nat} {f : Flow} {y : Queue}

/-- A word without a signal retires: its queue is put. -/
theorem retireWord_quiet (hf : (s.queueOf lq q).flow f = some y) :
    retireWord s0 s lq q raw none f = (s.dropWordReads lq q).setQueue lq q { y.settled with wait := y.wait.hold s.cycle } := by
  simp only [retireWord, hf]

/-- A word whose signal its semaphore can take retires: its queue and the semaphore are put. -/
theorem retireWord_signal {n v : Nat} {z : Quad} (hf : (s.queueOf lq q).flow f = some y) (ha : (s.quadOf lq).addSem n v = some z) :
    retireWord s0 s lq q raw (some (n, v)) f =
      (s.dropWordReads lq q).setQuad lq (z.setQueue q { y.settled with wait := y.wait.hold s.cycle }) := by
  simp only [retireWord, hf, ha]

/-- A signal past 65,535 is not applied: the queue traps in the state after the word's effect (log 20). -/
theorem retireWord_overflow {n v : Nat} (hf : (s.queueOf lq q).flow f = some y) (ha : (s.quadOf lq).addSem n v = none) :
    retireWord s0 s lq q raw (some (n, v)) f = s.trap lq q codeSemOverflow raw 0 0 := by
  simp only [retireWord, hf, ha]

/-- A word that enters a loop body traps in the state before its effect. -/
theorem retireWord_loopEntry {sig : Option (Nat × Nat)} (hf : (s.queueOf lq q).flow f = none) :
    retireWord s0 s lq q raw sig f = s0.trap lq q codeLoopEntry raw 0 0 := by
  simp only [retireWord, hf]

end

/-- Retirement to the next word moves the PC and the frames by the loop-end test. -/
theorem Queue.flow_next_eq (x : Queue) : x.flow .next = some { x with loops := (loopEnd x.pc x.loops).1, pc := (loopEnd x.pc x.loops).2 } := rfl

/-- A sum that stays within 65,535 is put. -/
theorem Quad.addSem_of_le {x : Quad} {n v : Nat} (h : x.semOf n + v ≤ 65535) : x.addSem n v = some (x.setSem n (x.semOf n + v)) := if_pos h

/-- A sum past 65,535 is not. -/
theorem Quad.addSem_of_lt {x : Quad} {n v : Nat} (h : 65535 < x.semOf n + v) : x.addSem n v = none := if_neg (by omega)

/-- A semaphore that was put is read back. -/
@[simp] theorem Quad.setSem_semOf_self (x : Quad) (n v : Nat) : (x.setSem n v).semOf n = v := NatMap.get_set_self _ _ _ _

/-- Another semaphore is as before. -/
theorem Quad.setSem_semOf_other (x : Quad) {n k : Nat} (v : Nat) (h : k ≠ n) : (x.setSem n v).semOf k = x.semOf k :=
  NatMap.get_set_other _ _ _ h

/-- A queue that is put changes no semaphore of its quad. -/
@[simp] theorem Quad.setQueue_semOf (x : Quad) (q n : Nat) (y : Queue) : (x.setQueue q y).semOf n = x.semOf n := rfl

/-- A queue of a quad that was put is read back. -/
@[simp] theorem State.setQuad_setQueue_queueOf (s : State) (lq q : Nat) (z : Quad) (y : Queue) : (s.setQuad lq (z.setQueue q y)).queueOf lq q = y := by
  simp [State.queueOf, Quad.setQueue]

/-! ### The loop-end test (R262) -/

section
variable {f : LoopFrame} {pc : VAddr}

/-- A frame with a pass left starts again. -/
theorem loopEnd_again (fs : List LoopFrame) (he : f.last = pc) (hc : 1 < f.count) :
    loopEnd pc (f :: fs) = ({ f with count := f.count - 1 } :: fs, f.start) := by
  rw [loopEnd, if_pos he, if_pos (by omega)]

/-- A spent frame is popped, and the frame below it is tested. -/
theorem loopEnd_spent (fs : List LoopFrame) (he : f.last = pc) (hc : f.count ≤ 1) : loopEnd pc (f :: fs) = loopEnd pc fs := by
  rw [loopEnd, if_pos he, if_neg (by omega)]

/-- A frame that does not end here stays, and the next word follows. -/
theorem loopEnd_elsewhere (fs : List LoopFrame) (he : f.last ≠ pc) : loopEnd pc (f :: fs) = (f :: fs, pc + 16) := by
  rw [loopEnd, if_neg he]

end

/-! ### What a branch leaves of the frames (R263) -/

/-- A branch into a body leaves none. -/
theorem branchLoops_enters {src dst : VAddr} {f : LoopFrame} (hs : f.has src = false) (hd : f.has dst = true) (fs : List LoopFrame) :
    branchLoops src dst (f :: fs) = none := by
  simp [branchLoops, hs, hd]

/-- A branch that leaves a body, or stands at its END, discards the one frame. -/
theorem branchLoops_discards {src dst : VAddr} {f : LoopFrame} (hs : f.has src = true) (h : f.has dst = false ∨ f.last = src) :
    branchLoops src dst [f] = some [] := by
  rcases h with h | h <;> simp [branchLoops, dropCount, hs, h]

/-- A branch within a body, or outside it, keeps the frame. -/
theorem branchLoops_keeps {src dst : VAddr} {f : LoopFrame} (h : f.has src = f.has dst) (he : f.last ≠ src) : branchLoops src dst [f] = some [f] := by
  simp [branchLoops, dropCount, h, he]

end Sys2Proof.Machine

namespace Sys2Proof.Claims

open Sys2Proof.Machine

/-- What a word that retires to the next word leaves of its queue and of the semaphores (R99, R262). -/
theorem retires_to_next (s0 s : State) (lq q w : Nat) (hn : noLoopEnd (s.queueOf lq q)) :
    ((retireWord s0 s lq q w none .next).queueOf lq q).pc = (s.queueOf lq q).pc + 16 ∧
    ((retireWord s0 s lq q w none .next).queueOf lq q).loops = (s.queueOf lq q).loops ∧
    ∀ n v, (s.quadOf lq).semOf n + v ≤ 65535 →
      ((retireWord s0 s lq q w (some (n, v)) .next).quadOf lq).semOf n = (s.quadOf lq).semOf n + v ∧
      ((retireWord s0 s lq q w (some (n, v)) .next).queueOf lq q).pc = (s.queueOf lq q).pc + 16 ∧
      ∀ m, m ≠ n → ((retireWord s0 s lq q w (some (n, v)) .next).quadOf lq).semOf m = (s.quadOf lq).semOf m := by
  have hf := flow_next hn
  rw [retireWord_quiet hf]
  refine ⟨by simp, by simp, fun n v hv => ?_⟩
  rw [retireWord_signal hf (Quad.addSem_of_le hv)]
  exact ⟨by simp, by simp, fun m hm => by simp [Quad.setSem_semOf_other _ _ hm]⟩

/-- Settles O8: retirement puts the queue that the loop-end test gives, and a branch discards frames by where it starts and goes. -/
theorem retirementLoopsAndBranches : Obligations.RetirementLoopsAndBranches := by
  refine ⟨fun s0 s lq q w => ⟨retires_to_next s0 s lq q w, ?overflow, ?entry, ?again⟩, ?ends, ?frames⟩
  case overflow => exact fun n v hv => retireWord_overflow (Queue.flow_next_eq _) (Quad.addSem_of_lt hv)
  case entry => exact fun t sig ht => retireWord_loopEntry (by simp only [Queue.flow, show branchLoops _ t _ = none from ht, Option.map_none])
  case again =>
    intro f fs hl he hc
    rw [retireWord_quiet (Queue.flow_next_eq _), hl, loopEnd_again fs he hc]
    simp
  case ends =>
    intro f g fs pc
    refine ⟨loopEnd_again fs, fun he hc hg => ?_, fun he hc => ?_, fun he hc hg hgc => ?_, loopEnd_elsewhere fs⟩
    · rw [loopEnd_spent _ he hc, loopEnd_elsewhere fs hg]
    · rw [loopEnd_spent _ he hc, loopEnd]
    · rw [loopEnd_spent _ he hc, loopEnd_again fs hg hgc]
  case frames =>
    intro src dst f
    exact ⟨branchLoops_enters, fun hs hd => branchLoops_discards hs (.inl hd), fun he hs => branchLoops_discards hs (.inr he),
      fun hs hd he => branchLoops_keeps (hs.trans hd.symm) he, fun hs hd he => branchLoops_keeps (hs.trans hd.symm) he⟩

end Sys2Proof.Claims

namespace Sys2Proof.Machine

/-! ### Traps (R256, R394, R395) -/

/-- A trap puts the trapped queue and adds its record. -/
theorem trap_queueOf_self (s : State) (lq q code w a0 a1 : Nat) :
    (s.trap lq q code w a0 a1).queueOf lq q = (s.queueOf lq q).trapped s.cycle := by simp [State.trap]

/-- A trap changes no other queue. -/
theorem trap_queueOf_other (s : State) {lq q k j : Nat} (code w a0 a1 : Nat) (h : k ≠ lq ∨ j ≠ q) :
    (s.trap lq q code w a0 a1).queueOf k j = s.queueOf k j := by
  by_cases hk : k = lq
  · subst hk
    simp [State.trap, State.setQueue_queueOf_other _ _ (h.resolve_left (· rfl))]
  · simp [State.trap, State.setQueue_queueOf_otherQuad _ _ hk]

/-- A record that is added is the last of those that wait, with the time of its making. -/
theorem addRecord_records (s : State) (f : FaultRecord) :
    ((s.addRecord f).partOf f.part).records = (s.partOf f.part).records ++ [{ f with dtime := s.dtime, cycle := s.cycle }] := by
  simp [State.addRecord]

/-- The record that a trap adds is the last that waits for its partition's ring. -/
theorem trap_records (s : State) (lq q code w a0 a1 : Nat) :
    ((s.trap lq q code w a0 a1).partOf (s.partOfLq lq)).records = (s.partOf (s.partOfLq lq)).records ++
      [{ s.trapRecord (s.queueOf lq q) lq q code w a0 a1 with dtime := s.dtime, cycle := s.cycle }] :=
  addRecord_records ((s.dropWordReads lq q).setQueue lq q ((s.queueOf lq q).trapped s.cycle)) (s.trapRecord (s.queueOf lq q) lq q code w a0 a1)

/-- A queue with a vector that its record enters: three registers take the trap, and it runs at the vector, its loop stack kept. -/
theorem Queue.vector_runs {x : Queue} (h : x.tvec ≠ 0) (code : Nat) (pc : VAddr) (addr : Nat) :
    x.vector code pc addr =
      { (((x.setReg 29 (BitVec.ofNat 64 code)).setReg 30 (BitVec.ofNat 64 pc.toNat)).setReg 31 (BitVec.ofNat 64 addr)) with
        tvec := 0, st := .running, pc := x.tvec } := if_neg h

/-- The registers of a queue that enters its vector: q29, q30 and q31 are written. -/
theorem Queue.vector_reg {x : Queue} (h : x.tvec ≠ 0) (code : Nat) (pc : VAddr) (addr r : Nat) :
    (x.vector code pc addr).reg r =
      (((x.setReg 29 (BitVec.ofNat 64 code)).setReg 30 (BitVec.ofNat 64 pc.toNat)).setReg 31 (BitVec.ofNat 64 addr)).reg r := by
  rw [Queue.vector_runs h]; rfl

/-- A write of a register leaves the loop stack. -/
@[simp] theorem Queue.setReg_loops (x : Queue) (r : Nat) (v : Word64) : (x.setReg r v).loops = x.loops := by unfold Queue.setReg; split <;> rfl

end Sys2Proof.Machine

namespace Sys2Proof.Claims

open Sys2Proof.Machine

/-- Settles O9: a trap puts the trapped queue and its record, and the vector is entered with three registers written. -/
theorem trapEntryAndVector : Obligations.TrapEntryAndVector := by
  refine ⟨fun s lq q code w a0 a1 => ?trap, fun x code pc addr => ⟨fun hv => ?vector, fun hv => if_pos hv⟩⟩
  case trap =>
    refine ⟨trap_queue_st .., trap_queue_pc .., trap_queue_regs .., ?_, ?_, fun k j h => trap_queueOf_other s code w a0 a1 h,
      trap_byteAt s lq q code w a0 a1, _, trap_records .., rfl, rfl, rfl, rfl, rfl, rfl, rfl, rfl, rfl, rfl⟩
    · rw [trap_queueOf_self]; rfl
    · rw [trap_queueOf_self]; rfl
  case vector =>
    simp only [Queue.vector_reg hv]
    refine ⟨?_, ?_, ?_, ?_, ?_, ?_, ?_, fun r hr => ?_⟩
    · rw [Queue.setReg_reg_other _ _ (by decide), Queue.setReg_reg_other _ _ (by decide), Queue.setReg_reg_self _ _ (by decide)]
    · rw [Queue.setReg_reg_other _ _ (by decide), Queue.setReg_reg_self _ _ (by decide)]
    · rw [Queue.setReg_reg_self _ _ (by decide)]
    · rw [Queue.vector_runs hv]
    · rw [Queue.vector_runs hv]
    · rw [Queue.vector_runs hv]
    · simp [Queue.vector_runs hv]
    · rw [Queue.setReg_reg_other _ _ (by omega), Queue.setReg_reg_other _ _ (by omega), Queue.setReg_reg_other _ _ (by omega)]

end Sys2Proof.Claims
end

section
/-! SUPPORT. Control words (R260, R261, R263, R434). -/

namespace Sys2Proof.Machine

/-! ### What running a word comes to, by the result of its effect -/

section
variable {raw : Nat} {h : Hdr} {s t : State} {lq q : Nat} {f : Nat → Nat → Queue → WordResult}

/-- A word whose effect retires. -/
theorem runWord_retires {fl : Flow} (hf : s.focus = .queue lq q) (hw : f lq q (s.queueOf lq q) = .retire t fl) :
    runWord raw h s f = Claims.retires s t lq q raw h fl := by
  rw [runWord_focus hf, hw]; rfl

/-- A word whose effect traps. -/
theorem runWord_traps {code a0 a1 : Nat} (hf : s.focus = .queue lq q) (hw : f lq q (s.queueOf lq q) = .trap t code a0 a1) :
    runWord raw h s f = Claims.traps t lq q raw code a0 a1 := by
  rw [runWord_focus hf, hw]; rfl

/-- A word whose effect is to wait. -/
theorem runWord_waits {k : WaitKind} {sem thr nbn : Nat} (hf : s.focus = .queue lq q)
    (hw : f lq q (s.queueOf lq q) = .wait t k sem thr nbn) : runWord raw h s f = .next (waitWord t lq q k sem thr nbn) := by
  rw [runWord_focus hf, hw]; rfl

/-- A word that has issued and waits for its own condition. -/
theorem runWord_stays {k : WaitKind} {nbn : Nat} (hf : s.focus = .queue lq q) (hw : f lq q (s.queueOf lq q) = stays t lq q k nbn) :
    runWord raw h s f = Claims.staysIssued t lq q k nbn := by
  rw [runWord_focus hf, hw]; rfl

end

/-! ### Branch targets and conditions -/


/-- The target of a branch, as a number modulo 2^57. -/
theorem targetOf57_eq (pc : VAddr) (imm : Word64) : targetOf57 pc imm = Claims.branchTarget pc imm := by
  apply BitVec.eq_of_toNat_eq
  simp [targetOf57, Claims.branchTarget, vaOf, BitVec.toNat_add]

/-- An address some bytes on, as a number modulo 2^57. -/
theorem add_vaOf (pc : VAddr) (n : Nat) : pc + vaOf n = BitVec.ofNat 57 (pc.toNat + n) := by
  apply BitVec.eq_of_toNat_eq
  simp [vaOf, BitVec.toNat_add]

/-- The condition of BRC holds where its field names one that holds. -/
theorem brCond_iff {cc : Nat} (hc : cc < 6) (a b : Word64) : brCond cc a b = true ↔ Claims.branchTaken cc a b := by
  have cases : cc = 0 ∨ cc = 1 ∨ cc = 2 ∨ cc = 3 ∨ cc = 4 ∨ cc = 5 := by omega
  rcases cases with rfl | rfl | rfl | rfl | rfl | rfl <;>
    simp [brCond, Claims.branchTaken, BitVec.slt, BitVec.ult]

/-- The check of LOOP against the enclosing frame (R261). -/
theorem bodyBeyond_iff (fs : List LoopFrame) (pc last : VAddr) :
    (match fs with | [] => false | f :: _ => f.has pc && decide (f.last.toNat < last.toNat)) = true ↔
      ∃ f gs, fs = f :: gs ∧ f.start.toNat ≤ pc.toNat ∧ pc.toNat ≤ f.last.toNat ∧ f.last.toNat < last.toNat := by
  cases fs with
  | nil => simp
  | cons f fs => simp [LoopFrame.has, and_assoc]

end Sys2Proof.Machine

namespace Sys2Proof.Claims

open Sys2Proof.Machine

/-! ### YIELD -/

section
variable {h : Hdr} {o : OpA} {s : State} {lq q : Nat}

/-- YIELD in a physical quad with one logical quad retires, freezing the launch of its context where one waits to which it yields. -/
theorem yield_alone (hf : s.focus = .queue lq q) (h1 : bits (s.remapOf lq) 15 8 ≤ 1) :
    exec (.yield h o) s = runWord (wordA 0x15 h o) h s fun _ _ x =>
      match s.launchOfCtx x.ctx with
      | none => .retire s .next
      | some (n, v) =>
        match yieldsTo s n v with
        | some run => .retire (freezeLaunch s n v 3 run) .next
        | none => .retire s .next := by
  dsimp only [exec, execYield]
  rw [runWord_focus hf, runWord_focus hf, if_neg (by omega)]
  rfl

/-- YIELD with an access of its quad outstanding waits. -/
theorem yield_accessOut (hf : s.focus = .queue lq q) (h1 : 1 < bits (s.remapOf lq) 15 8) (ha : ∃ k, k < 4 ∧ accessOut (s.queueOf lq k) = true) :
    exec (.yield h o) s = .next (waitWord s lq q .port 0 0 0) := by
  obtain ⟨k, hk, ha⟩ := ha
  have some : ([0, 1, 2, 3].any fun r => accessOut (s.queueOf lq r)) = true :=
    List.any_eq_true.2 ⟨k, by simp; omega, ha⟩
  dsimp only [exec, execYield]
  exact runWord_waits hf ((if_pos h1).trans (if_pos some))

/-- YIELD with no access of its quad outstanding changes the turn. -/
theorem yield_turn (hf : s.focus = .queue lq q) (h1 : 1 < bits (s.remapOf lq) 15 8) (ha : ∀ k, k < 4 → accessOut (s.queueOf lq k) = false) :
    exec (.yield h o) s = retires s (changeTurn s (s.pqOf lq)) lq q (wordA 0x15 h o) h .next := by
  have none : ¬ ([0, 1, 2, 3].any fun r => accessOut (s.queueOf lq r)) = true := by simp [ha]
  dsimp only [exec, execYield]
  exact runWord_retires hf ((if_pos h1).trans (if_neg none))

end

/-- LOOP, by its checks and its count (R261). -/
theorem loop_cases (h : Hdr) (o : OpA) (s : State) (lq q : Nat) (hf : s.focus = .queue lq q) :
    let x := s.queueOf lq q
    let last := BitVec.ofNat 57 (x.pc.toNat + 16 * bits o.imm.toNat 15 0)
    let count := if o.qs = 0 then bits o.imm.toNat 63 32 else (x.reg o.qs.toNat).toNat
    let badLoop : Prop := 4 ≤ x.loops.length ∨
      ∃ f fs, x.loops = f :: fs ∧ f.start.toNat ≤ x.pc.toNat ∧ x.pc.toNat ≤ f.last.toNat ∧ f.last.toNat < last.toNat
    (badLoop → exec (.loop h o) s = traps s lq q (wordA 0x14 h o) 0x22 0 0) ∧
    (¬ badLoop → count = 0 → exec (.loop h o) s = retires s s lq q (wordA 0x14 h o) h (.jump (last + 16))) ∧
    (¬ badLoop → count ≠ 0 →
      exec (.loop h o) s = retires s (s.setQueue lq q { x with loops := ⟨count, x.pc + 16, last⟩ :: x.loops }) lq q (wordA 0x14 h o) h .next) := by
  intro x last count badLoop
  have hl : x.pc + vaOf (16 * bits o.imm.toNat 15 0) = last := add_vaOf _ _
  have hb : _ ↔ badLoop :=
    (or_congr (Iff.refl _) (bodyBeyond_iff x.loops x.pc (x.pc + vaOf (16 * bits o.imm.toNat 15 0)))).trans (by rw [hl])
  rw [← hl]
  dsimp only [exec, execLoop]
  refine ⟨fun bad => runWord_traps hf (if_pos (hb.2 bad)), fun good hc => ?_, fun good hc => ?_⟩
  · exact runWord_retires hf ((if_neg (mt hb.1 good)).trans (if_pos hc))
  · exact runWord_retires hf ((if_neg (mt hb.1 good)).trans (if_neg hc))

/-- Settles O12: each control word is unfolded to the condition it branches on. -/
theorem controlWords : Obligations.ControlWords := by
  refine ⟨fun h o s lq q hf => ?_, fun h o s lq q hf => ⟨yield_turn hf, yield_accessOut hf, fun h1 hn => ?_, fun n v h1 hn hy => ?_, fun n v run h1 hn hy => ?_⟩⟩
  · intro x a last count badLoop
    refine ⟨?br, fun hc ht => ?taken, fun hc ht => ?untaken, fun hc => ?badcc, ?call, fun ha => ?ret, fun ha => ?misaligned, ?halt, loop_cases h o s lq q hf⟩
    case br => rw [← targetOf57_eq]; dsimp only [exec, execBr]; exact runWord_retires hf rfl
    case taken =>
      rw [← targetOf57_eq]
      dsimp only [exec, execBrc]
      exact runWord_retires hf ((if_neg (by omega)).trans (if_pos ((brCond_iff hc _ _).2 ht)))
    case untaken => dsimp only [exec, execBrc]; exact runWord_retires hf ((if_neg (by omega)).trans (if_neg (mt (brCond_iff hc _ _).1 ht)))
    case badcc => dsimp only [exec, execBrc]; exact runWord_traps hf (if_pos hc)
    case call => rw [← targetOf57_eq]; dsimp only [exec, execCall]; exact runWord_retires hf rfl
    case ret => dsimp only [exec, execRet]; exact runWord_retires hf (if_neg (by simpa using ha))
    case misaligned => dsimp only [exec, execRet]; exact runWord_traps hf (if_pos ha)
    case halt => dsimp only [exec, execHalt]; exact runWord_retires hf rfl
  · rw [yield_alone hf h1]
    exact runWord_retires hf (by simp only [hn])
  · rw [yield_alone hf h1]
    exact runWord_retires hf (by simp only [hn, hy])
  · rw [yield_alone hf h1]
    exact runWord_retires hf (by simp only [hn, hy])

end Sys2Proof.Claims
end

section
/-! SUPPORT. Semaphore, barrier and task words (R264, R266 to R270). -/

namespace Sys2Proof.Machine

/-- The value that SIG and SEMSET form, as a number modulo 2^64. -/
theorem semValue_eq (o : OpA) (x : Queue) :
    semValue o x = ((x.reg o.qs.toNat).toNat + bits o.imm.toNat 31 16) % 2 ^ 64 := by
  simp [semValue, BitVec.toNat_add]

/-! ### Arrivals at a named barrier (R266) -/

section
variable {b : NamedBarrier} {q e : Nat}

/-- A second arrival, or one with another count, overruns. -/
theorem arrive_overrun (h : NatMap.get false b.pend q = true ∨ (0 < b.arr ∧ e ≠ b.exp)) : b.arrive q e = none := if_pos h

/-- An arrival that is neither takes its place. -/
theorem arrive_fits (hp : NatMap.get false b.pend q = false) (he : b.arr = 0 ∨ e = b.exp) :
    b.arrive q e =
      if b.arr + 1 = (if b.arr = 0 then e else b.exp) then
        some { gen := (b.gen + 1) % 65536, pend := [], exp := if b.arr = 0 then e else b.exp, arr := 0 }
      else some { gen := b.gen, pend := NatMap.set false b.pend q true, exp := if b.arr = 0 then e else b.exp, arr := b.arr + 1 } :=
  if_neg (by
    rintro (h | ⟨ha, hne⟩)
    · rw [hp] at h; exact Bool.noConfusion h
    · exact he.elim (by omega) hne)

end

/-! ### The task table (R267 to R270) -/

/-- TASKDONE of a task with a successor whose counter is below its listings underflows. -/
theorem taskDone_underflow {x : Quad} {n : Nat}
    (h : ∃ t ∈ (x.taskOf n).successors, (x.taskOf t).cnt < (x.taskOf n).successors.count t) : taskDone x n = none := by
  obtain ⟨t, ht, hc⟩ := h
  exact if_pos (List.any_eq_true.2 ⟨t, ht, decide_eq_true hc⟩)

/-- TASKDONE of any other task lowers each listed counter and leaves the task DONE. -/
theorem taskDone_releases {x : Quad} {n : Nat}
    (h : ∀ t ∈ (x.taskOf n).successors, (x.taskOf n).successors.count t ≤ (x.taskOf t).cnt) :
    taskDone x n = some (((x.taskOf n).successors.foldl releaseTask x).setTask n
      { (((x.taskOf n).successors.foldl releaseTask x).taskOf n) with st := .done }) := by
  refine if_neg fun hb => ?_
  obtain ⟨t, ht, hc⟩ := List.any_eq_true.1 hb
  exact absurd (of_decide_eq_true hc) (Nat.not_lt.2 (h t ht))

/-- What is least by a key is in the list, and no element has a smaller key. -/
theorem leastBy_spec {α : Type} (key : α → Nat) {xs : List α} {x : α} (h : leastBy key xs = some x) : x ∈ xs ∧ ∀ y ∈ xs, key x ≤ key y := by
  induction xs generalizing x with
  | nil => simp [leastBy] at h
  | cons z zs ih =>
    rw [leastBy] at h
    cases hz : leastBy key zs with
    | none =>
      have empty : zs = [] := by
        cases zs with
        | nil => rfl
        | cons w ws =>
          rw [leastBy] at hz
          split at hz
          · cases hz
          · split at hz <;> cases hz
      rw [hz] at h
      obtain rfl := Option.some.inj h
      simp [empty]
    | some y =>
      obtain ⟨hy, hmin⟩ := ih hz
      rw [hz] at h
      dsimp only at h
      split at h
      · next hlt =>
        obtain rfl := Option.some.inj h
        exact ⟨List.mem_cons_of_mem _ hy, List.forall_mem_cons.2 ⟨Nat.le_of_lt hlt, hmin⟩⟩
      · next hge =>
        obtain rfl := Option.some.inj h
        exact ⟨List.mem_cons_self, List.forall_mem_cons.2 ⟨Nat.le_refl _, fun w hw => Nat.le_trans (by omega) (hmin w hw)⟩⟩

/-- The head of the ready queue is READY since before this cycle, and no other such task goes before it. -/
theorem readyHead_first {y : Quad} {k : Nat} (hb : ∀ e ∈ y.tasks, e.2.prio ≤ 15 ∧ e.1 < 64) (h : readyHead y = some k) :
    ∃ t, (k, t) ∈ y.tasks ∧ t.st = .ready ∧ k ∉ y.fresh ∧
      ∀ e ∈ y.tasks, e.2.st = .ready → e.1 ∉ y.fresh → e.2.prio < t.prio ∨ (e.2.prio = t.prio ∧ k ≤ e.1) := by
  obtain ⟨⟨k', t⟩, hl, rfl⟩ := Option.map_eq_some_iff.1 h
  obtain ⟨hm, hmin⟩ := leastBy_spec _ hl
  simp only [List.mem_filter, decide_eq_true_eq, Bool.not_eq_true', List.contains_eq_mem, decide_eq_false_iff_not] at hm hmin
  obtain ⟨hm, hst, hfresh⟩ := hm
  refine ⟨t, hm, hst, hfresh, fun e he hes hef => ?_⟩
  have key := hmin e ⟨he, hes, hef⟩
  have bt := hb _ hm
  have be := hb _ he
  simp only at key bt
  omega

end Sys2Proof.Machine

namespace Sys2Proof.Claims

open Sys2Proof.Machine

section
variable {h : Hdr} {o : OpA} {s : State} {lq q : Nat}

/-- WAIT with its operand wait (R264). -/
theorem wait_operand (hf : s.focus = .queue lq q) :
    (o.imm.toNat.testBit 32 = false ∨ bits o.imm.toNat 31 16 ≤ (s.quadOf lq).semSeen (bits o.imm.toNat 7 0) →
      exec (.wait h o) s = retires s s lq q (wordA 0x20 h o) h .next) ∧
    (o.imm.toNat.testBit 32 = true → (s.quadOf lq).semSeen (bits o.imm.toNat 7 0) < bits o.imm.toNat 31 16 →
      exec (.wait h o) s = .next (waitWord s lq q .sem (bits o.imm.toNat 7 0) (bits o.imm.toNat 31 16) 0)) := by
  dsimp only [exec, execWait]
  refine ⟨fun hw => runWord_retires hf (if_neg ?_), fun hb hw => runWord_waits hf (if_pos ?_)⟩
  · rcases hw with hb | hw
    · simp [bit, hb]
    · simp [Nat.not_lt.2 hw]
  · simp [bit, hb, hw]

/-- SIG adds, or traps past 65,535 (R264). -/
theorem sig_adds (hf : s.focus = .queue lq q) {v : Nat} (hv : semValue o (s.queueOf lq q) = v) :
    ((s.quadOf lq).semOf (bits o.imm.toNat 7 0) + v ≤ 65535 → exec (.sig h o) s =
      retires s (s.setQuad lq ((s.quadOf lq).setSem (bits o.imm.toNat 7 0) ((s.quadOf lq).semOf (bits o.imm.toNat 7 0) + v))) lq q (wordA 0x21 h o) h .next) ∧
    (65535 < (s.quadOf lq).semOf (bits o.imm.toNat 7 0) + v → exec (.sig h o) s = traps s lq q (wordA 0x21 h o) 0x20 0 0) := by
  subst hv
  dsimp only [exec, execSig]
  exact ⟨fun hle => runWord_retires hf (by simp only [Quad.addSem_of_le hle]),
    fun hlt => runWord_traps hf (by simp only [Quad.addSem_of_lt hlt]; rfl)⟩

/-- SEMSET sets, or traps past 65,535 (R264). -/
theorem semset_sets (hf : s.focus = .queue lq q) {v : Nat} (hv : semValue o (s.queueOf lq q) = v) :
    (v ≤ 65535 → exec (.semset h o) s =
      retires s (s.setQuad lq ((s.quadOf lq).setSem (bits o.imm.toNat 7 0) v)) lq q (wordA 0x22 h o) h .next) ∧
    (65535 < v → exec (.semset h o) s = traps s lq q (wordA 0x22 h o) 0x20 0 0) := by
  subst hv
  dsimp only [exec, execSemset]
  refine ⟨fun hle => runWord_retires hf ?_, fun hlt => runWord_traps hf ?_⟩
  · simp only [semset, if_pos hle]
  · simp only [semset, if_neg (Nat.not_le.2 hlt)]; rfl

/-- TASKNEXT with a task to take (R270). -/
theorem tasknext_takes (hf : s.focus = .queue lq q) {k : Nat} (hk : readyHead (s.quadOf lq) = some k) :
    (rival s lq q .task = false → exec (.tasknext h o) s = retires s
      ((served (s.setQuad lq ((s.quadOf lq).setTask k { ((s.quadOf lq).taskOf k) with st := .run })) lq q .task).setQueue lq q
        ((s.queueOf lq q).setReg o.qd.toNat (BitVec.ofNat 64 k))) lq q (wordA 0x28 h o) h (.branch ((s.quadOf lq).taskOf k).entry)) ∧
    (rival s lq q .task = true → exec (.tasknext h o) s = staysIssued s lq q .tasknext 0) := by
  dsimp only [exec, execTasknext]
  exact ⟨fun hr => runWord_retires hf (by simp only [hk, hr]; rfl), fun hr => runWord_stays hf (by simp only [hk, hr, if_true])⟩

/-- TASKNEXT with none to take (R270). -/
theorem tasknext_none (hf : s.focus = .queue lq q) (hk : readyHead (s.quadOf lq) = none) :
    ((∀ e ∈ (s.quadOf lq).tasks, e.2.st ≠ .wait ∧ e.2.st ≠ .ready) →
      exec (.tasknext h o) s = retires s (withReg s lq q o.qd.toNat (BitVec.allOnes 64)) lq q (wordA 0x28 h o) h .next) ∧
    ((∃ e ∈ (s.quadOf lq).tasks, e.2.st = .wait ∨ e.2.st = .ready) → exec (.tasknext h o) s = staysIssued s lq q .tasknext 0) := by
  have any : ((s.quadOf lq).tasks.any fun e => decide (e.2.st = .wait ∨ e.2.st = .ready)) = true ↔
      ∃ e ∈ (s.quadOf lq).tasks, e.2.st = .wait ∨ e.2.st = .ready := by simp
  dsimp only [exec, execTasknext]
  refine ⟨fun hn => runWord_retires hf ?_, fun hw => runWord_stays hf ?_⟩
  · simp only [hk]
    exact if_neg (mt any.1 fun ⟨e, he, hst⟩ => hst.elim (hn e he).1 (hn e he).2)
  · simp only [hk]
    exact if_pos (any.2 hw)

end

/-- Settles O13: the semaphore words by the sum they form, the barrier words by the arrival. -/
theorem semaphoreAndBarrierWords : Obligations.SemaphoreAndBarrierWords := by
  refine ⟨fun h o s lq q hf => ?sems, fun h o s lq q hf => ?barriers⟩
  case sems =>
    intro x y n v
    have hv : semValue o x = v := semValue_eq o x
    refine ⟨(wait_operand hf).1, (wait_operand hf).2, (sig_adds hf hv).1, (sig_adds hf hv).2, (semset_sets hf hv).1, (semset_sets hf hv).2, ?_⟩
    dsimp only [exec, execSemrd]
    exact runWord_retires hf rfl
  case barriers =>
    intro y n e b here exp
    dsimp only [exec, execNbarr, execNbwait]
    refine ⟨fun he => runWord_traps hf (if_pos he), fun h1 h4 ho => runWord_traps hf ((if_neg (by omega)).trans ?overrun),
      fun h1 h4 hh he ha => runWord_retires hf ((if_neg (by omega)).trans ?fits),
      fun h1 h4 hh he ha => runWord_retires hf ((if_neg (by omega)).trans ?completes),
      fun hh => runWord_retires hf (if_neg (ne_true_of_eq_false hh)), fun hh => runWord_stays hf (if_pos hh)⟩
    case overrun => rw [arrive_overrun ho]; rfl
    case fits => rw [arrive_fits hh he, if_neg ha]
    case completes => rw [arrive_fits hh he, if_pos ha]; rfl

/-- Settles O14: TASKDEF and TASKDONE by their checks, TASKNEXT by the head of the ready queue, which is least by priority and number. -/
theorem taskWords : Obligations.TaskWords := by
  refine ⟨fun h o s lq q hf => ?words, fun y k hb hk => readyHead_first hb hk⟩
  intro x y i a n ss
  have hn : (x.reg o.qs.toNat + BitVec.ofNat 64 (bits i 5 0)).toNat = n := by simp [n, a, BitVec.toNat_add]
  refine ⟨fun ha => ?misaligned, fun ha => ?defined, fun h64 => ?beyond, fun h64 hu => ?underflow, fun h64 hs => ?done,
    fun hr k hk => (tasknext_takes hf hk).1 hr, fun hr hk => ?rival, fun hk => (tasknext_none hf hk).1, fun hk => (tasknext_none hf hk).2⟩
  case misaligned => dsimp only [exec, execTaskdef]; exact runWord_traps hf (if_pos ha)
  case defined => dsimp only [exec, execTaskdef]; exact runWord_retires hf (if_neg (not_not.2 ha))
  case beyond =>
    rw [← hn] at h64
    dsimp only [exec, execTaskdone]
    exact runWord_traps hf (if_pos h64)
  case underflow =>
    dsimp only [exec, execTaskdone]
    refine runWord_traps hf ((if_neg (by rw [hn]; omega)).trans ?_)
    rw [hn, taskDone_underflow hu]; rfl
  case done =>
    dsimp only [exec, execTaskdone]
    refine runWord_retires hf ((if_neg (by rw [hn]; omega)).trans ?_)
    rw [hn, taskDone_releases hs]
  case rival =>
    obtain ⟨k, hk⟩ := Option.ne_none_iff_exists'.1 hk
    exact (tasknext_takes hf hk).2 hr

end Sys2Proof.Claims
end

section
/-! SUPPORT. The memory words of the sequencer and the system words (R202, R203, R255, R256, R259, R407 to R413, R435, R436). -/

namespace Sys2Proof.Machine

section
variable {raw : Nat} {h : Hdr} {s t : State} {lq q : Nat} {f : Nat → Nat → Queue → WordResult}

/-- A word whose effect is to wait in a phase of its own. -/
theorem runWord_staysAt {p : IssuePhase} {k : WaitKind} (hf : s.focus = .queue lq q) (hw : f lq q (s.queueOf lq q) = staysAt t lq q p k) :
    runWord raw h s f = Claims.staysIn t lq q p k := by
  rw [runWord_focus hf, hw]; rfl

end

/-! ### Words at the system port (R254, R255) -/

section
variable {raw : Nat} {h : Hdr} {s t : State} {lq q : Nat} {f : State → Nat → Nat → Queue → WordResult}

/-- A system word that no other queue goes before runs in the state in which it has the port. -/
theorem systemWord_port (hf : s.focus = .queue lq q) (hr : rival s lq q .system = false) :
    systemWord raw h s f = .next (finishWord s lq q raw h (f (Claims.portState s lq q) lq q (s.queueOf lq q))) := by
  by_cases hp : (s.queueOf lq q).phase = .issued
  · rw [systemWord_issued hf hp, Claims.portState, if_pos hp]
  · rw [systemWord_first hf hp hr, Claims.portState, if_neg hp]

/-- A system word whose effect retires. -/
theorem systemWord_retires {fl : Flow} (hf : s.focus = .queue lq q) (hr : rival s lq q .system = false)
    (hw : f (Claims.portState s lq q) lq q (s.queueOf lq q) = .retire t fl) : systemWord raw h s f = Claims.retires s t lq q raw h fl := by
  rw [systemWord_port hf hr, hw]; rfl

/-- A system word whose effect traps. -/
theorem systemWord_traps {code a0 a1 : Nat} (hf : s.focus = .queue lq q) (hr : rival s lq q .system = false)
    (hw : f (Claims.portState s lq q) lq q (s.queueOf lq q) = .trap t code a0 a1) :
    systemWord raw h s f = Claims.traps t lq q raw code a0 a1 := by
  rw [systemWord_port hf hr, hw]; rfl

/-- A system word whose effect is to wait. -/
theorem systemWord_waits {k : WaitKind} {sem thr nbn : Nat} (hf : s.focus = .queue lq q) (hr : rival s lq q .system = false)
    (hw : f (Claims.portState s lq q) lq q (s.queueOf lq q) = .wait t k sem thr nbn) :
    systemWord raw h s f = .next (waitWord t lq q k sem thr nbn) := by
  rw [systemWord_port hf hr, hw]; rfl

end

/-- A fresh word that has the port has been served. -/
theorem portState_fresh {s : State} {lq q : Nat} (hp : (s.queueOf lq q).phase = .fresh) : Claims.portState s lq q = served s lq q .system :=
  if_neg (by simp [hp])

/-! ### Registers that a queue names (R407, R444) -/

section
variable {s : State} {a : Nat}

/-- A misaligned address. -/
theorem namedReg_misaligned (ha : a % 8 ≠ 0) : namedReg s a = .error codeAlignment := if_pos ha

/-- An address of the access tables. -/
theorem namedReg_tables (ha : a % 8 = 0) (h : a / 2 ^ 36 = 5 ∨ a / 2 ^ 36 = 6) : namedReg s a = .error codePermission :=
  (if_neg (not_not.2 ha)).trans (if_pos h)

/-- Any other address names the register that stands there, or none. -/
theorem namedReg_of_spaces (ha : a % 8 = 0) (h5 : a / 2 ^ 36 ≠ 5) (h6 : a / 2 ^ 36 ≠ 6) :
    namedReg s a = match regAt s a with | some r => .ok r | none => .error codeIllegal :=
  (if_neg (not_not.2 ha)).trans (if_neg (not_or.2 ⟨h5, h6⟩))

end

end Sys2Proof.Machine

namespace Sys2Proof.Claims

open Sys2Proof.Machine

/-- Settles O15: LDQ by the answer of its read, STQ by its phase and the answer of its write. -/
theorem queueLoadsAndStores : Obligations.QueueLoadsAndStores := by
  intro h o s lq q hf
  dsimp only [exec, execLdq, execStq, seqAddr]
  refine ⟨fun ha => ⟨runWord_traps hf (if_pos ha), fun hp => runWord_traps hf ((if_neg hp).trans (if_pos ha))⟩,
    fun bs ha hr => runWord_retires hf ((if_neg (not_not.2 ha)).trans ?_), fun bs ha hr => runWord_retires hf ((if_neg (not_not.2 ha)).trans ?_),
    fun t hp ha hw ho => runWord_retires hf ((if_neg hp).trans ((if_neg (not_not.2 ha)).trans ?_)),
    fun t hp ha hw ho => runWord_staysAt hf ((if_neg hp).trans ((if_neg (not_not.2 ha)).trans ?_)),
    fun hp ho => runWord_retires hf ((if_pos hp).trans (if_neg (ne_true_of_eq_false ho))),
    fun c v ha hr => runWord_traps hf ((if_neg (not_not.2 ha)).trans ?_),
    fun c v hp ha hw => runWord_traps hf ((if_neg hp).trans ((if_neg (not_not.2 ha)).trans ?_)),
    fun k ha hr => runWord_staysAt hf ((if_neg (not_not.2 ha)).trans ?_),
    fun k hp ha hw => runWord_staysAt hf ((if_neg hp).trans ((if_neg (not_not.2 ha)).trans ?_))⟩
  · rw [hr]
  · rw [hr]
  · rw [hw]; exact if_neg (ne_true_of_eq_false ho)
  · rw [hw]; exact if_pos ho
  · rw [hr]
  · rw [hw]
  · rw [hr]
  · rw [hw]

/-- SYSRD and SYSWR where the address names no register that a queue may name. -/
theorem register_refused {h : Hdr} {o : OpA} {s : State} {lq q c a1 : Nat} (hf : s.focus = .queue lq q) (hr : rival s lq q .system = false)
    (hn : namedReg (portState s lq q) (((s.queueOf lq q).reg o.qs.toNat + o.imm).toNat) = .error c)
    (hc : (if c = codeIllegal then 0 else ((s.queueOf lq q).reg o.qs.toNat + o.imm).toNat) = a1) :
    exec (.sysrd h o) s = traps (portState s lq q) lq q (wordA 0xA0 h o) c a1 0 ∧
    exec (.syswr h o) s = traps (portState s lq q) lq q (wordA 0xA1 h o) c a1 0 := by
  dsimp only [exec, execSysrd, execSyswr]
  constructor
  · refine systemWord_traps hf hr ?_
    rw [hn, ← hc]
  · refine systemWord_traps hf hr ?_
    rw [hn, ← hc]

/-- Settles O16: the register that the address names, then the rights. -/
theorem registerAccessWords : Obligations.RegisterAccessWords := by
  intro h o s lq q hf hr x s1 p a rd wr
  refine ⟨fun ha => register_refused hf hr (namedReg_misaligned ha) rfl,
    fun ha h5 h6 hn => register_refused hf hr (c := codeIllegal) (by rw [namedReg_of_spaces ha h5 h6, hn]) rfl,
    fun ha ht => register_refused hf hr (namedReg_tables ha ht) rfl, fun r ha h5 h6 hn => ?_⟩
  have named : namedReg (portState s lq q) (((s.queueOf lq q).reg o.qs.toNat + o.imm).toNat) = .ok r := by
    rw [namedReg_of_spaces ha h5 h6, hn]
  dsimp only [exec, execSysrd, execSyswr]
  refine ⟨fun hm => systemWord_traps hf hr ?_, fun hm => systemWord_retires hf hr ?_, fun hm => systemWord_traps hf hr ?_,
    fun hm => systemWord_retires hf hr ?_⟩
  · rw [named]; exact if_pos (by rw [hm]; rfl)
  · rw [named]; exact if_neg (by rw [hm]; decide)
  · rw [named]; exact if_pos (by rw [hm]; rfl)
  · rw [named]; exact if_neg (by rw [hm]; decide)

/-! ### TLBINV, QFLUSH and EVENT -/

section
variable {h : Hdr} {o : OpA} {s : State} {lq q : Nat}

/-- The range that TLBINV names (R411). -/
def tlbRange (s : State) (lq lo n : Nat) : InvRange := if n = 0 then ⟨s.partOfLq lq, 0, 2 ^ 57⟩ else ⟨s.partOfLq lq, lo, lo + 2 ^ 16 * n⟩

/-- A fresh TLBINV of an aligned range within the address space drops its translations, and waits where an access goes by one. -/
theorem tlbInv_fresh (hf : s.focus = .queue lq q) (hr : rival s lq q .system = false) (hp : (s.queueOf lq q).phase = .fresh) {lo n : Nat}
    (hlo : ((s.queueOf lq q).reg o.qs.toNat).toNat = lo) (hn : ((s.queueOf lq q).reg o.qt.toNat).toNat = n) :
    (lo % 2 ^ 16 ≠ 0 → exec (.tlbInv h o) s = traps s lq q (wordA 0xA2 h o) 0x13 lo 0) ∧
    (lo % 2 ^ 16 = 0 → (tlbRange s lq lo n).hi ≤ 2 ^ 57 → travelling s (tlbRange s lq lo n) = [] →
      exec (.tlbInv h o) s = retires s (releaseHolds (dropTranslations (portState s lq q) (tlbRange s lq lo n)) (tlbRange s lq lo n)) lq q (wordA 0xA2 h o) h .next) ∧
    (lo % 2 ^ 16 = 0 → (tlbRange s lq lo n).hi ≤ 2 ^ 57 → travelling s (tlbRange s lq lo n) ≠ [] →
      exec (.tlbInv h o) s = .next (waitWord ((dropTranslations (portState s lq q) (tlbRange s lq lo n)).setQueue lq q
        { ((dropTranslations (portState s lq q) (tlbRange s lq lo n)).queueOf lq q) with phase := .draining (travelling s (tlbRange s lq lo n)) })
        lq q .port 0 0 0)) := by
  subst hlo hn
  have hr := ne_true_of_eq_false hr
  rw [portState_fresh hp]
  dsimp only [exec, execTlbInv]
  refine ⟨fun ha => runWord_traps hf ?_, fun ha hh ht => runWord_retires hf ?_, fun ha hh ht => runWord_waits hf ?_⟩
  · simp only [hp]
    exact (if_neg hr).trans (if_pos ha)
  · simp only [hp]
    exact (if_neg hr).trans ((if_neg (not_not.2 ha)).trans ((if_neg (Nat.not_lt.2 hh)).trans (if_pos (List.isEmpty_iff.2 ht))))
  · simp only [hp]
    exact (if_neg hr).trans ((if_neg (not_not.2 ha)).trans ((if_neg (Nat.not_lt.2 hh)).trans (if_neg (mt List.isEmpty_iff.1 ht))))

/-- A TLBINV that waits retires once none of the accesses it waits for is left. -/
theorem tlbInv_drained (hf : s.focus = .queue lq q) {ids : List Nat} (hp : (s.queueOf lq q).phase = .draining ids)
    (hd : ∀ i ∈ ids, (∀ p ∈ s.pending, p.req.id ≠ i) ∧ ∀ e ∈ s.peerOut, e.acc.id ≠ i) :
    exec (.tlbInv h o) s = retires s
      (releaseHolds s (tlbRange s lq ((s.queueOf lq q).reg o.qs.toNat).toNat ((s.queueOf lq q).reg o.qt.toNat).toNat)) lq q (wordA 0xA2 h o) h .next := by
  have left : (ids.filter fun i => (s.pending.any fun p => decide (p.req.id = i)) || s.peerOut.any fun e => decide (e.acc.id = i)) = [] := by
    refine List.filter_eq_nil_iff.2 fun i hi => ?_
    simpa using hd i hi
  dsimp only [exec, execTlbInv]
  refine runWord_retires hf ?_
  simp only [hp]
  exact if_pos (List.isEmpty_iff.2 left)

end

/-- Settles O17: TLBINV by its phase and what travels, QFLUSH and EVENT by their checks in order. -/
theorem maintenanceWords : Obligations.MaintenanceWords := by
  intro h o s lq q hf hr x s1 lo n r mask code
  refine ⟨fun hp ha hh ht => (tlbInv_fresh hf hr hp rfl rfl).2.1 ha hh ht, fun ids hp hd => tlbInv_drained hf hp hd,
    fun hp ht ha hh => (tlbInv_fresh hf hr hp rfl rfl).2.2 ha hh ht, fun hp ha => (tlbInv_fresh hf hr hp rfl rfl).1 ha, ?_⟩
  dsimp only [exec, execQflush, execEvent]
  refine ⟨fun hl hm ho hs ha => systemWord_retires hf hr ?flushes, fun hb => systemWord_traps hf hr (if_pos hb),
    fun hl h128 hm ho => systemWord_traps hf hr ?own, fun hl hm ho hs ha => systemWord_waits hf hr ?out, fun hl hm ho => systemWord_traps hf hr ?foreign,
    fun hc => systemWord_traps hf hr (if_pos hc), fun hc hw => systemWord_waits hf hr ?full, fun hc hroom hw => systemWord_retires hf hr ?written⟩
  case flushes =>
    have none : ¬ (([0, 1, 2, 3].filter fun k => bit mask k).any fun k => accessOut (s1.queueOf lo k)) = true := by
      simpa [bit] using ha
    exact (if_neg (not_or.2 ⟨Nat.not_le.2 hl, hm⟩)).trans ((if_neg (not_not.2 ho)).trans
      ((if_neg fun ⟨h1, h2⟩ => hs.elim (· h1) fun hb => Bool.false_ne_true (hb.symm.trans h2)).trans (if_neg none)))
  case own =>
    have own : s1.lqOwner lo = some (s1.partOfLq lq) := by
      obtain ⟨p, hp⟩ := Option.ne_none_iff_exists'.1 ho
      rw [hl, State.partOfLq, hp]; rfl
    have named : mask ≠ 0 := fun h0 => by simp [h0] at hm
    exact (if_neg (not_or.2 ⟨Nat.not_le.2 (lt_of_eq_of_lt hl h128), named⟩)).trans ((if_neg (not_not.2 own)).trans (if_pos ⟨hl, hm⟩))
  case out =>
    have some : (([0, 1, 2, 3].filter fun k => bit mask k).any fun k => accessOut (s1.queueOf lo k)) = true := by
      obtain ⟨k, hk, hb, ha⟩ := ha
      exact List.any_eq_true.2 ⟨k, List.mem_filter.2 ⟨hk, hb⟩, ha⟩
    exact (if_neg (not_or.2 ⟨Nat.not_le.2 hl, hm⟩)).trans ((if_neg (not_not.2 ho)).trans
      ((if_neg fun ⟨h1, h2⟩ => hs.elim (· h1) fun hb => Bool.false_ne_true (hb.symm.trans h2)).trans (if_pos some)))
  case foreign => exact (if_neg (not_or.2 ⟨Nat.not_le.2 hl, hm⟩)).trans (if_pos ho)
  case full => exact (if_neg (Nat.not_lt.2 hc)).trans (if_pos (by rcases hw with hw | hw <;> rw [hw] <;> simp))
  case written => exact (if_neg (Nat.not_lt.2 hc)).trans (if_neg (by rw [hroom, hw]; decide))

/-! ### CTXSAVE and CTXLOAD -/

section
variable {h : Hdr} {o : OpA} {s : State} {lq q : Nat}

/-- CTXSAVE of a context of a running launch of the partition, its area answered, begins the save. -/
theorem ctxsave_starts (hf : s.focus = .queue lq q) (hp : (s.queueOf lq q).phase = .fresh) (hr : rival s lq q .system = false) {n : Nat}
    {l : Launch} {ps : List Nat} (hc : ((s.queueOf lq q).reg o.qs.toNat).toNat < 2 ^ 12)
    (hl : (portState s lq q).launchOfCtx ((s.queueOf lq q).reg o.qs.toNat).toNat = some (n, l)) (hrun : l.phase = .running)
    (hpart : l.part = (portState s lq q).partOfLq lq) (hown : l.allCtxs.contains (s.queueOf lq q).ctx = false)
    (hva : ((s.queueOf lq q).reg o.qt.toNat).toNat % 2 ^ 16 = 0)
    (ha : areaPages (portState s lq q) (queueAccess (portState s lq q) lq (s.queueOf lq q))
      ((List.range (bits o.imm.toNat 31 0)).map fun i => (((s.queueOf lq q).reg o.qt.toNat).toNat + 2 ^ 16 * i) % 2 ^ 57) = .ok ps) :
    exec (.ctxsave h o) s = .next (finishWord s lq q (wordA 0xA4 h o) h (startSave (portState s lq q) lq q n l o.qd.toNat ps)) := by
  rw [portState_fresh hp] at *
  dsimp only [exec, execCtxsave]
  rw [runWord_focus hf]
  refine congrArg (fun w => Host.Outcome.next (finishWord s lq q (wordA 0xA4 h o) h w)) ?_
  simp only [hp, hr, reduceCtorEq, ne_eq, not_false_eq_true, true_and, Bool.false_eq_true, if_false]
  rw [if_neg (by omega), hl]
  dsimp only
  rw [if_neg (by rw [hrun, hpart]; simp), if_neg (ne_true_of_eq_false hown), if_neg (not_not.2 hva), ha]

end

/-- Settles O18: what CTXSAVE begins by the area's size, and how each word ends in its own phase. -/
theorem saveAndLoadWords : Obligations.SaveAndLoadWords := by
  intro h o s lq q hf x s1 c va d area
  refine ⟨fun n l ps hp hr hc hl hrun hpart hown hva ha => ?_, fun k im hp hk hst => ?saved, fun k im l hp hk hst hl hfree => ?restored⟩
  · rw [ctxsave_starts hf hp hr hc hl hrun hpart hown hva ha]
    refine ⟨fun hsz => ?_, fun hsz ho => ?_, fun hsz ho => ?_⟩
    · rw [startSave, if_pos hsz]; rfl
    · rw [startSave, if_neg (Nat.not_lt.2 hsz), if_pos ho]; rfl
    · rw [startSave, if_neg (Nat.not_lt.2 hsz), if_neg (ne_true_of_eq_false ho)]; rfl
  case saved =>
    dsimp only [exec, execCtxsave]
    refine runWord_retires hf ?_
    simp only [show (s.queueOf lq q).phase = .saving k from hp, awaitSave, hk, hst]
    rfl
  case restored =>
    dsimp only [exec, execCtxload]
    refine runWord_retires hf ?_
    simp only [show (s.queueOf lq q).phase = .restoring k from hp, tryLoad, hk, hl, hst, hfree]
    rfl

end Sys2Proof.Claims
end

section
/-! SUPPORT. Launch and region words (R273 to R275, R329, R440). -/

namespace Sys2Proof.Machine

/-! ### The regions that QWAIT may name (R275) -/

section
variable {s : State} {p a : Nat}

/-- A region in place that a queue of the partition configured. -/
theorem configuredRegion_inPlace {r : Region} (hr : s.region? a = some r) (hp : r.part = p) (hc : r.configured = true) :
    s.configuredRegion? p a = some r := by
  have mine : (s.region? a).filter (fun r => decide (r.part = p) && r.configured) = some r := by
    rw [hr]; exact Option.filter_some_pos (by simp [hp, hc])
  simp only [State.configuredRegion?, mine]

/-- A region of an image that a queue of the partition configured. -/
theorem configuredRegion_saved {im : Nat × Image} (hi : im ∈ s.images) {r : Region} (hr : NatMap.find? im.2.regions a = some r) (hp : r.part = p)
    (hc : r.configured = true) : ∃ y, s.configuredRegion? p a = some y := by
  have saved : (s.images.findSome? fun e => (NatMap.find? e.2.regions a).filter fun r => decide (r.part = p) && r.configured).isSome := by
    refine List.findSome?_isSome_iff.2 ⟨im, hi, ?_⟩
    simp [hr, hp, hc]
  dsimp only [State.configuredRegion?]
  split
  · exact ⟨_, rfl⟩
  · exact Option.isSome_iff_exists.1 saved

/-- No region, in place or in an image, that a queue of the partition configured. -/
theorem configuredRegion_none (hr : ∀ r, s.region? a = some r → r.part ≠ p ∨ r.configured = false)
    (hi : ∀ im ∈ s.images, ∀ r, NatMap.find? im.2.regions a = some r → r.part ≠ p ∨ r.configured = false) : s.configuredRegion? p a = none := by
  have other : ∀ x : Option Region, (∀ r, x = some r → r.part ≠ p ∨ r.configured = false) →
      x.filter (fun r => decide (r.part = p) && r.configured) = none := by
    intro x hx
    refine Option.filter_eq_none_iff.2 fun r hxr => ?_
    rcases hx r hxr with h | h <;> simp [h]
  rw [State.configuredRegion?, other _ hr]
  exact List.findSome?_eq_none_iff.2 fun im him => other _ (hi im him)

end

end Sys2Proof.Machine

namespace Sys2Proof.Claims

open Sys2Proof.Machine

/-- What the PEs' owners say of a mask of PEs: some PE is another partition's. -/
theorem someForeign_iff {s : State} {p gal : Nat} (pes : List Nat) :
    (pes.any fun b => decide (s.lqOwner (16 * gal + b / 9) ≠ some p)) = true ↔ ¬ ∀ b ∈ pes, s.lqOwner (16 * gal + b / 9) = some p := by
  simp

/-- A queue outside every launch may configure regions where its context is held for its partition and no other region runs in it. -/
theorem mayConfigure {s : State} {p ctx handle : Nat} {launch : Option Nat}
    (h : launch ≠ none ∨ (s.heldCtx ctx = true ∧ bits (NatMap.get 0 s.ctxown ctx).toNat 3 0 = p ∧
      ∀ e ∈ s.regions, e.1 ≠ handle → e.2.running = true → e.2.launch = none → e.2.ctx0 ≠ ctx)) :
    ¬ (launch.isNone && (!(s.heldCtx ctx && decide (bits (NatMap.get 0 s.ctxown ctx).toNat 3 0 = p)) ||
      s.regions.any fun e => decide (e.1 ≠ handle) && e.2.running && e.2.launch.isNone && decide (e.2.ctx0 = ctx))) = true := by
  rcases h with h | ⟨hh, hp, hr⟩
  · rw [Option.isNone_eq_false_iff.2 (Option.isSome_iff_ne_none.2 h)]
    exact Bool.false_ne_true
  · have shared : (s.regions.any fun e => decide (e.1 ≠ handle) && e.2.running && e.2.launch.isNone && decide (e.2.ctx0 = ctx)) = false := by
      refine List.any_eq_false.2 fun e he hb => ?_
      simp only [Bool.and_eq_true, decide_eq_true_eq, Option.isNone_iff_eq_none] at hb
      obtain ⟨⟨⟨hne, hrun⟩, hl⟩, hc⟩ := hb
      exact hr e he hne hrun hl hc
    rw [hh, shared, decide_eq_true hp]
    simp

/-- Settles O19: each word by its checks in order, then by the answers of its accesses. -/
theorem launchAndRegionWords : Obligations.LaunchAndRegionWords := by
  intro h o s lq q hf
  dsimp only [exec, execLaunch, execCfgload, execQwait]
  refine ⟨fun ha => ⟨runWord_traps hf (if_pos ha), runWord_traps hf (if_pos ha)⟩,
    fun ha hd => runWord_traps hf ((if_neg (not_not.2 ha)).trans (if_pos hd)),
    fun ha hd hp => runWord_traps hf ((if_neg (not_not.2 ha)).trans ((if_neg (not_not.2 hd)).trans (if_pos hp))),
    fun ha he => runWord_traps hf ((if_neg (not_not.2 ha)).trans (if_pos (by rw [he]; rfl))),
    fun ha he hroom => runWord_stays hf ((if_neg (not_not.2 ha)).trans ((if_neg (by rw [he]; decide)).trans (if_pos (Nat.not_lt.1 hroom)))),
    fun bs bad t ha he hroom hr hw => runWord_retires hf ((if_neg (not_not.2 ha)).trans
      ((if_neg (by rw [he]; decide)).trans ((if_neg (Nat.not_le.2 hroom)).trans ?launched))),
    fun c ha hd hp hc => ?placed, ?waits⟩
  case launched => rw [hr]; dsimp only; rw [hw]
  case waits =>
    refine ⟨fun r c hr hs => runWord_retires hf ?_, fun r hr hs => runWord_stays hf ?_, fun r => configuredRegion_inPlace,
      fun im hi r hr hp hc => configuredRegion_saved hi hr hp hc, fun hr hi => runWord_traps hf ?_⟩
    · rw [hr]; dsimp only; rw [hs]; rfl
    · rw [hr]; dsimp only; rw [hs]
    · rw [configuredRegion_none hr hi]; rfl
  case placed =>
    refine ⟨fun slot hs => runWord_traps hf ((if_neg (not_not.2 ha)).trans ((if_neg (not_not.2 hd)).trans ((if_neg (not_not.2 hp)).trans ?_))),
      fun hs hm => runWord_traps hf ((if_neg (not_not.2 ha)).trans ((if_neg (not_not.2 hd)).trans ((if_neg (not_not.2 hp)).trans ?_))),
      fun hs hm hmay hw => runWord_stays hf ((if_neg (not_not.2 ha)).trans ((if_neg (not_not.2 hd)).trans ((if_neg (not_not.2 hp)).trans ?_))),
      fun hs hm hmay hw => runWord_retires hf ((if_neg (not_not.2 ha)).trans ((if_neg (not_not.2 hd)).trans ((if_neg (not_not.2 hp)).trans ?_)))⟩
    · rw [hc]; dsimp only; rw [hs]; rfl
    · rw [hc]; dsimp only; rw [hs]; dsimp only
      exact if_pos ((someForeign_iff _).2 hm)
    · rw [hc]; dsimp only; rw [hs]; dsimp only
      refine (if_neg (mt (someForeign_iff _).1 (not_not.2 hm))).trans ((if_neg (mayConfigure ?_)).trans (if_pos (List.any_eq_true.2 hw)))
      exact hmay
    · rw [hc]; dsimp only; rw [hs]; dsimp only
      refine (if_neg (mt (someForeign_iff _).1 (not_not.2 hm))).trans ((if_neg (mayConfigure ?_)).trans (if_neg ?_))
      · exact hmay
      · exact ne_true_of_eq_false (List.any_eq_false.2 fun e he => ne_true_of_eq_false (hw e he))

end Sys2Proof.Claims
end

section
/-! SUPPORT. The frame of the sequencer's own words and of LDQ and STQ (R252 to R270). -/

namespace Sys2Proof.Machine

/-! ### What stays of the queues beside a write of memory -/

/-- A queue is read from the quads alone. -/
theorem queueOf_congr {s t : State} (h : t.quads = s.quads) (lq q : Nat) : t.queueOf lq q = s.queueOf lq q := by
  simp only [State.queueOf, State.quadOf, h]

/-- Memory is read from the memory alone. -/
theorem byteAt_congr {s t : State} (h : t.mem = s.mem) (a : Nat) : t.byteAt a = s.byteAt a := by
  simp only [State.byteAt, h]

/-- Flits sent change no quad. -/
@[simp] theorem sendFlits_quads (s : State) (k : Nat) (fs : List (List Byte)) : (s.sendFlits k fs).quads = s.quads := by
  unfold State.sendFlits; split <;> rfl

/-- A request sent to a linked device changes no quad. -/
@[simp] theorem sendFar_quads (s : State) (a : Nat) (x : Far) (b c d e f : Nat) (bs : List Byte) (p : Part) (o : PeerOwner) :
    (s.sendFar a x b c d e f bs p o).quads = s.quads := by
  simp only [State.sendFar]; split <;> simp

/-- A request sent to a peer changes no quad. -/
@[simp] theorem sendPeer_quads (s : State) (a b c d e f g : Nat) (bs : List Byte) (p : Part) : (s.sendPeer a b c d e f g bs p).quads = s.quads := by
  simp only [State.sendPeer, sendFar_quads]

/-- A question to a peer changes no quad. -/
@[simp] theorem askPeer_quads (s : State) (a : Access) (va : Nat) (r : Nat × Nat) : (s.askPeer a va r).quads = s.quads := by
  simp [State.askPeer]

/-- A question to a peer changes no byte of memory. -/
@[simp] theorem askPeer_mem (s : State) (a : Access) (va : Nat) (r : Nat × Nat) : (s.askPeer a va r).mem = s.mem := by
  simp [State.askPeer]

/-- What a fold keeps where each of its steps keeps it. -/
theorem foldl_keeps {α β γ : Type} (p : α → γ) (f : α → β → α) (h : ∀ s x, p (f s x) = p s) (s : α) (xs : List β) : p (xs.foldl f s) = p s := by
  induction xs generalizing s with
  | nil => rfl
  | cons x xs ih => exact (ih _).trans (h s x)

/-- A hold that is noted changes no quad. -/
@[simp] theorem noteHold_quads (s : State) (k : Option PageHold) : (s.noteHold k).quads = s.quads := by
  unfold State.noteHold
  split
  · rfl
  · dsimp only; split <;> rfl
  · exact foldl_keeps State.quads _ (fun s r => askPeer_quads s _ _ r) _ _

/-- A hold that is noted changes no byte of memory. -/
@[simp] theorem noteHold_mem (s : State) (k : Option PageHold) : (s.noteHold k).mem = s.mem := by
  unfold State.noteHold
  split
  · rfl
  · dsimp only; split <;> rfl
  · exact foldl_keeps State.mem _ (fun s r => askPeer_mem s _ _ r) _ _

/-- An error that is counted changes no quad. -/
@[simp] theorem countEcc_quads (s : State) (pa : Nat) (b : Bool) : (countEcc s pa b).quads = s.quads := by
  unfold countEcc; split <;> rfl

/-- An error that is counted changes no byte of memory. -/
@[simp] theorem countEcc_mem (s : State) (pa : Nat) (b : Bool) : (countEcc s pa b).mem = s.mem := by
  unfold countEcc; split <;> rfl

/-- An upset that strikes a read changes no quad. -/
@[simp] theorem readUpset_quads (s : State) (pa : Nat) : (readUpset s pa).quads = s.quads := by
  unfold readUpset
  split
  · rfl
  · split <;> simp

/-- An upset that strikes a read changes no byte of memory. -/
@[simp] theorem readUpset_mem (s : State) (pa : Nat) : (readUpset s pa).mem = s.mem := by
  unfold readUpset
  split
  · rfl
  · split <;> simp

/-- An upset of the step changes no quad. -/
@[simp] theorem struck_quads (s : State) (a : Access) (va : Nat) : (s.struck a va).quads = s.quads := by
  unfold State.struck
  split
  · rfl
  · split <;> simp

/-- An upset of the step changes no byte of memory. -/
@[simp] theorem struck_mem (s : State) (a : Access) (va : Nat) : (s.struck a va).mem = s.mem := by
  unfold State.struck
  split
  · rfl
  · split <;> simp

/-- A write for a context changes no quad. -/
theorem viewWrite_quads {s t : State} {ctx pa : Nat} {bs : List Byte} (h : s.viewWrite ctx pa bs = some t) : t.quads = s.quads := by
  unfold State.viewWrite at h
  split at h
  · cases h; rfl
  · simp only at h
    split at h
    · cases h
    · cases h; rfl

/-- Writes of runs change no quad. -/
theorem writeRuns_quads {part ctx : Nat} {runs : List (Nat × Nat)} : ∀ {s t : State} {bs : List Byte},
    s.writeRuns part ctx runs bs = some t → t.quads = s.quads := by
  induction runs with
  | nil => intro s t bs h; cases h; rfl
  | cons r rs ih =>
    intro s t bs h
    obtain ⟨s1, h1, h2⟩ := Option.bind_eq_some_iff.mp h
    refine (ih h2).trans ?_
    unfold State.writeRun at h1
    split at h1
    · cases h1; simp
    · exact viewWrite_quads h1

/-- A write by virtual address that is answered went by the runs that translation gives. -/
theorem writeVa_runs {s t : State} {acc : Access} {va : Nat} {bs : List Byte} (h : s.writeVa acc va bs = .done t) :
    ∃ runs, spread s { acc with want := .write } va bs.length = .ok runs ∧ s.writeRuns acc.part acc.ctx runs bs = some t := by
  unfold State.writeVa at h
  split at h
  · cases h
  · cases h
  · next runs hs =>
    split at h
    · cases h
    · cases h
    · split at h
      · cases h
      · next s1 h1 => cases h; exact ⟨runs, hs, h1⟩

/-- A write by virtual address that is answered changes no quad. -/
theorem writeVa_quads {s t : State} {acc : Access} {va : Nat} {bs : List Byte} (h : s.writeVa acc va bs = .done t) : t.quads = s.quads := by
  obtain ⟨runs, -, hr⟩ := writeVa_runs h
  exact writeRuns_quads hr

end Sys2Proof.Machine

namespace Sys2Proof.Claims

open Sys2Proof.Machine

/-! ### The frame of a word -/

/-- What a word keeps from `s` to `t`: what `sameBut` names; the registers outside `R` and the semaphores outside `S`; MXMODE and TVEC; PRIO and CTX where no
write of QSQ_QCTL waits. -/
structure WordFrame (s t : State) (lq q : Nat) (R S : Nat → Prop) : Prop where
  same : sameBut s t lq q
  regs : ∀ r, ¬ R r → (t.queueOf lq q).reg r = (s.queueOf lq q).reg r
  sems : ∀ n, ¬ S n → (t.quadOf lq).semOf n = (s.quadOf lq).semOf n
  ctl : (s.queueOf lq q).ctl = none →
    (t.queueOf lq q).ctl = none ∧ (t.queueOf lq q).prio = (s.queueOf lq q).prio ∧ (t.queueOf lq q).ctx = (s.queueOf lq q).ctx
  mxmode : (t.queueOf lq q).mxmode = (s.queueOf lq q).mxmode
  tvec : (t.queueOf lq q).tvec = (s.queueOf lq q).tvec

section
variable {s t u : State} {lq q : Nat} {R S : Nat → Prop}

/-- Nothing is changed. -/
theorem WordFrame.refl (s : State) (lq q : Nat) (R S : Nat → Prop) : WordFrame s s lq q R S := by
  constructor <;> simp [sameBut]

/-- One frame after another. -/
theorem WordFrame.trans (h1 : WordFrame s t lq q R S) (h2 : WordFrame t u lq q R S) : WordFrame s u lq q R S where
  same := by
    obtain ⟨a1, a2, a3, a4, a5, a6, a7, a8, a9, a10, a11, a12, a13, a14, a15, a16, a17, a18⟩ := h1.same
    obtain ⟨b1, b2, b3, b4, b5, b6, b7, b8, b9, b10, b11, b12, b13, b14, b15, b16, b17, b18⟩ := h2.same
    exact ⟨fun a => (b1 a).trans (a1 a), b2.trans a2, b3.trans a3, b4.trans a4, b5.trans a5, b6.trans a6, b7.trans a7, b8.trans a8, b9.trans a9,
      b10.trans a10, b11.trans a11, b12.trans a12, b13.trans a13, b14.trans a14, fun k hk => (b15 k hk).trans (a15 k hk),
      fun j hj => (b16 j hj).trans (a16 j hj), fun m => (b17 m).trans (a17 m), fun k => (b18 k).trans (a18 k)⟩
  regs := fun r hr => (h2.regs r hr).trans (h1.regs r hr)
  sems := fun n hn => (h2.sems n hn).trans (h1.sems n hn)
  ctl := fun h => by
    obtain ⟨c1, p1, x1⟩ := h1.ctl h
    obtain ⟨c2, p2, x2⟩ := h2.ctl c1
    exact ⟨c2, p2.trans p1, x2.trans x1⟩
  mxmode := h2.mxmode.trans h1.mxmode
  tvec := h2.tvec.trans h1.tvec

/-- A frame with more let go. -/
theorem WordFrame.mono {R' S' : Nat → Prop} (h : WordFrame s t lq q R S) (hR : ∀ r, R r → R' r) (hS : ∀ n, S n → S' n) :
    WordFrame s t lq q R' S' :=
  ⟨h.same, fun r hr => h.regs r fun h' => hr (hR r h'), fun n hn => h.sems n fun h' => hn (hS n h'), h.ctl, h.mxmode, h.tvec⟩

/-- A quad that is put with its engines and its other queues as they were. -/
theorem WordFrame.putQuad {z : Quad} (hmx : ∀ m, z.mx m = (s.quadOf lq).mx m) (hch : ∀ k, z.chan k = (s.quadOf lq).chan k)
    (hs : ∀ n, ¬ S n → z.semOf n = (s.quadOf lq).semOf n) (ho : ∀ j, j ≠ q → NatMap.get .init z.queues j = s.queueOf lq j) {y : Queue}
    (hy : NatMap.get .init z.queues q = y) (hr : ∀ r, ¬ R r → y.reg r = (s.queueOf lq q).reg r)
    (hc : (s.queueOf lq q).ctl = none → y.ctl = none ∧ y.prio = (s.queueOf lq q).prio ∧ y.ctx = (s.queueOf lq q).ctx)
    (hm : y.mxmode = (s.queueOf lq q).mxmode) (ht : y.tvec = (s.queueOf lq q).tvec) : WordFrame s (s.setQuad lq z) lq q R S := by
  have hqueue : ∀ j, (s.setQuad lq z).queueOf lq j = NatMap.get .init z.queues j := fun j => by simp [State.queueOf]
  have hself : (s.setQuad lq z).queueOf lq q = y := (hqueue q).trans hy
  refine ⟨?_, fun r hr' => by rw [hself]; exact hr r hr', fun n hn => by simpa using hs n hn, fun h => by rw [hself]; exact hc h,
    by rw [hself]; exact hm, by rw [hself]; exact ht⟩
  simp only [sameBut, State.setQuad_byteAt, State.setQuad_poison, State.setQuad_own, State.setQuad_regions, State.setQuad_launches,
    State.setQuad_pending, State.setQuad_halls, State.setQuad_streams, State.setQuad_ctxown, State.setQuad_lqpart, State.setQuad_dtime,
    State.setQuad_cycle, State.setQuad_images, State.setQuad_ports, State.setQuad_quadOf_self, implies_true, true_and]
  exact ⟨fun k hk => State.setQuad_quadOf_other _ _ hk, fun j hj => (hqueue j).trans (ho j hj), hmx, hch⟩

/-- A quad that is put with its engines and its queues as they were. -/
theorem WordFrame.setQuad {z : Quad} (hmx : ∀ m, z.mx m = (s.quadOf lq).mx m) (hch : ∀ k, z.chan k = (s.quadOf lq).chan k)
    (hq : z.queues = (s.quadOf lq).queues) (hs : ∀ n, ¬ S n → z.semOf n = (s.quadOf lq).semOf n) : WordFrame s (s.setQuad lq z) lq q R S :=
  WordFrame.putQuad hmx hch hs (fun _ _ => by rw [hq]; rfl) (by rw [hq]; rfl) (fun _ _ => rfl) (fun h => ⟨h, rfl, rfl⟩) rfl rfl

/-- A queue that is put, in a quad that may have signalled. -/
theorem WordFrame.setQuadQueue {z : Quad} {y : Queue} (hmx : ∀ m, z.mx m = (s.quadOf lq).mx m) (hch : ∀ k, z.chan k = (s.quadOf lq).chan k)
    (hq : z.queues = (s.quadOf lq).queues) (hs : ∀ n, ¬ S n → z.semOf n = (s.quadOf lq).semOf n) (hr : ∀ r, ¬ R r → y.reg r = (s.queueOf lq q).reg r)
    (hc : (s.queueOf lq q).ctl = none → y.ctl = none ∧ y.prio = (s.queueOf lq q).prio ∧ y.ctx = (s.queueOf lq q).ctx)
    (hm : y.mxmode = (s.queueOf lq q).mxmode) (ht : y.tvec = (s.queueOf lq q).tvec) : WordFrame s (s.setQuad lq (z.setQueue q y)) lq q R S :=
  WordFrame.putQuad hmx hch hs (fun j hj => (NatMap.get_set_other _ _ _ hj).trans (by rw [hq]; rfl)) (NatMap.get_set_self _ _ _ _) hr hc hm ht

/-- A queue that is put. -/
theorem WordFrame.setQueue {y : Queue} (hr : ∀ r, ¬ R r → y.reg r = (s.queueOf lq q).reg r)
    (hc : (s.queueOf lq q).ctl = none → y.ctl = none ∧ y.prio = (s.queueOf lq q).prio ∧ y.ctx = (s.queueOf lq q).ctx)
    (hm : y.mxmode = (s.queueOf lq q).mxmode) (ht : y.tvec = (s.queueOf lq q).tvec) : WordFrame s (s.setQueue lq q y) lq q R S :=
  WordFrame.setQuadQueue (fun _ => rfl) (fun _ => rfl) rfl (fun _ _ => rfl) hr hc hm ht

/-- Reads of peers that are dropped. -/
theorem WordFrame.dropWordReads : WordFrame s (s.dropWordReads lq q) lq q R S := by
  constructor <;> simp [sameBut]

/-- A record that is added. -/
theorem WordFrame.addRecord (f : FaultRecord) : WordFrame s (s.addRecord f) lq q R S := by
  constructor <;> simp [sameBut, State.addRecord]

/-- A queue that settles keeps PRIO and CTX where no write of QSQ_QCTL waits. -/
theorem settled_of_noCtl {x : Queue} (h : x.ctl = none) : x.settled.ctl = none ∧ x.settled.prio = x.prio ∧ x.settled.ctx = x.ctx := by
  simp [Queue.settled, h]

/-- A trap. -/
theorem WordFrame.trap (code w a0 a1 : Nat) : WordFrame s (s.trap lq q code w a0 a1) lq q R S :=
  (WordFrame.dropWordReads.trans (WordFrame.setQueue (y := (s.queueOf lq q).trapped s.cycle) (fun _ _ => rfl) settled_of_noCtl rfl rfl)).trans
    (WordFrame.addRecord _)

/-- A word that waits. -/
theorem WordFrame.waitWord (k : WaitKind) (sem thr nbn : Nat) : WordFrame s (waitWord s lq q k sem thr nbn) lq q R S :=
  WordFrame.setQueue (fun _ _ => rfl) (fun h => ⟨h, rfl, rfl⟩) rfl rfl

/-- The queue that a retirement puts. -/
theorem flow_keeps {x y : Queue} {f : Flow} (h : x.flow f = some y) :
    y.regs = x.regs ∧ y.ctl = x.ctl ∧ y.prio = x.prio ∧ y.ctx = x.ctx ∧ y.mxmode = x.mxmode ∧ y.tvec = x.tvec := by
  cases f with
  | next | jump | halt => cases h; exact ⟨rfl, rfl, rfl, rfl, rfl, rfl⟩
  | branch t =>
    obtain ⟨l, -, rfl⟩ := Option.map_eq_some_iff.1 h
    exact ⟨rfl, rfl, rfl, rfl, rfl, rfl⟩

/-- A queue that retires is put, in a quad that may have signalled. -/
theorem WordFrame.retired {y : Queue} {f : Flow} {z : Quad} (h : (s.queueOf lq q).flow f = some y) (hmx : ∀ m, z.mx m = (s.quadOf lq).mx m)
    (hch : ∀ k, z.chan k = (s.quadOf lq).chan k) (hq : z.queues = (s.quadOf lq).queues) (hs : ∀ n, ¬ S n → z.semOf n = (s.quadOf lq).semOf n)
    (w : WaitState) : WordFrame s (s.setQuad lq (z.setQueue q { y.settled with wait := w })) lq q R S := by
  obtain ⟨hr, hctl, hp, hx, hm, ht⟩ := flow_keeps h
  refine WordFrame.setQuadQueue hmx hch hq hs (fun r _ => ?_) (fun hn => ?_) hm ht
  · show Queue.reg { y.settled with wait := w } r = _
    simp [Queue.reg, hr]
  · obtain ⟨h1, h2, h3⟩ := settled_of_noCtl (hctl.trans hn)
    exact ⟨h1, h2.trans hp, h3.trans hx⟩

/-- A sum that is put in a semaphore. -/
theorem addSem_keeps {x z : Quad} {n v : Nat} (h : x.addSem n v = some z) :
    (∀ m, z.mx m = x.mx m) ∧ (∀ k, z.chan k = x.chan k) ∧ z.queues = x.queues ∧ ∀ k, k ≠ n → z.semOf k = x.semOf k := by
  unfold Quad.addSem at h
  split at h
  · cases h
    exact ⟨fun _ => rfl, fun _ => rfl, rfl, fun k hk => Quad.setSem_semOf_other x _ hk⟩
  · cases h

/-- A retirement, of a word whose effect keeps the frame; a semaphore that it signals changes. -/
theorem WordFrame.retireWord {raw : Nat} {sig : Option (Nat × Nat)} {f : Flow} (h : WordFrame s t lq q R S) :
    WordFrame s (retireWord s t lq q raw sig f) lq q R (fun n => S n ∨ ∃ v, sig = some (n, v)) := by
  have h' : WordFrame s t lq q R (fun n => S n ∨ ∃ v, sig = some (n, v)) := h.mono (fun _ hr => hr) (fun _ hn => .inl hn)
  rcases retireWord_cases s t lq q raw sig f with ⟨-, he⟩ | ⟨y, hy, ⟨-, he⟩ | ⟨n, v, -, -, he⟩ | ⟨n, v, z, hs, ha, he⟩⟩ <;> rw [he]
  · exact WordFrame.trap ..
  · exact h'.trans (WordFrame.dropWordReads.trans (WordFrame.retired (s := t.dropWordReads lq q) hy (fun _ => rfl) (fun _ => rfl) rfl (fun _ _ => rfl) _))
  · exact h'.trans (WordFrame.trap ..)
  · obtain ⟨hmx, hch, hq, ho⟩ := addSem_keeps ha
    have kept : ∀ k, ¬ (S k ∨ ∃ v, sig = some (k, v)) → z.semOf k = (t.quadOf lq).semOf k :=
      fun k hk => ho k fun hkn => hk (.inr ⟨v, by rw [hs, hkn]⟩)
    exact h'.trans (WordFrame.dropWordReads.trans (WordFrame.retired (s := t.dropWordReads lq q) hy hmx hch hq kept _))

/-- The effect of a word keeps the frame, whether it retires, waits or traps. -/
def Frames (s : State) (lq q : Nat) (R S : Nat → Prop) : WordResult → Prop
  | .retire t _ => WordFrame s t lq q R S
  | .wait t _ _ _ _ => WordFrame s t lq q R S
  | .trap t _ _ _ => WordFrame s t lq q R S
  | _ => False

/-- Either effect of a condition keeps the frame. -/
theorem Frames.ite {p : Prop} [Decidable p] {a b : WordResult} (ha : Frames s lq q R S a) (hb : Frames s lq q R S b) :
    Frames s lq q R S (if p then a else b) := by
  split
  · exact ha
  · exact hb

/-- A word whose effect keeps the frame keeps it, but for the semaphore it signals. -/
theorem Frames.runWord {raw : Nat} {h : Hdr} {f : Nat → Nat → Queue → WordResult} (hf : s.focus = .queue lq q)
    (hw : Frames s lq q R S (f lq q (s.queueOf lq q))) (he : runWord raw h s f = .next t) :
    WordFrame s t lq q R (fun n => S n ∨ (h.se = true ∧ n = h.ssem.toNat)) := by
  rw [runWord_focus hf] at he
  cases he
  have signalled : ∀ n, (S n ∨ ∃ v, sigOf h = some (n, v)) → S n ∨ (h.se = true ∧ n = h.ssem.toNat) := by
    rintro n (hn | ⟨v, hv⟩)
    · exact .inl hn
    · unfold sigOf at hv
      split at hv
      · next hse => cases hv; exact .inr ⟨hse, rfl⟩
      · cases hv
  cases hx : f lq q (s.queueOf lq q) with
  | retire u fl => rw [hx] at hw; exact hw.retireWord.mono (fun _ hr => hr) signalled
  | wait u k a b c => rw [hx] at hw; exact (hw.trans (WordFrame.waitWord ..)).mono (fun _ hr => hr) fun _ hn => .inl hn
  | trap u code a b => rw [hx] at hw; exact (hw.trans (WordFrame.trap ..)).mono (fun _ hr => hr) fun _ hn => .inl hn
  | accepted | completed | aborted => rw [hx] at hw; exact hw.elim

end

/-! ### The words -/

/-- No register, or no semaphore. -/
def nothing (_ : Nat) : Prop := False

section
variable {h : Hdr} {o : OpA} {s t : State} {lq q : Nat} {R S : Nat → Prop}

/-- What a write of a register leaves of its queue. -/
theorem setReg_keeps (x : Queue) (d : Nat) (v : Word64) :
    (x.setReg d v).ctl = x.ctl ∧ (x.setReg d v).prio = x.prio ∧ (x.setReg d v).ctx = x.ctx ∧ (x.setReg d v).mxmode = x.mxmode ∧
    (x.setReg d v).tvec = x.tvec := by
  unfold Queue.setReg
  split <;> exact ⟨rfl, rfl, rfl, rfl, rfl⟩

/-- A register that is written. -/
theorem WordFrame.withReg (d : Nat) (v : Word64) : WordFrame s (withReg s lq q d v) lq q (· = d) S :=
  have ⟨hctl, hp, hx, hm, ht⟩ := setReg_keeps (s.queueOf lq q) d v
  WordFrame.setQueue (fun _ hr => Queue.setReg_reg_other _ _ hr) (fun hc => ⟨hctl.trans hc, hp, hx⟩) hm ht

/-- The words that put a result into qd retire with that register written. -/
theorem registerWord_retires (hf : s.focus = .queue lq q) {c : Hdr → OpA → Instr} (hc : c ∈ registerWords) :
    ∃ v raw fl, exec (c h o) s = retires s (withReg s lq q o.qd.toNat v) lq q raw h fl := by
  rcases List.mem_append.1 (show c ∈ scalarTable.map (·.1) ++ [.semrd, .call] from hc) with hs | hs
  · obtain ⟨e, he, rfl⟩ := List.mem_map.1 hs
    exact ⟨_, _, _, scalarWordsGiveExactResults e he h o s lq q hf⟩
  · simp only [List.mem_cons, List.not_mem_nil, or_false] at hs
    rcases hs with rfl | rfl
    · obtain ⟨-, -, -, -, -, -, hr⟩ := semaphoreAndBarrierWords.1 h o s lq q hf
      exact ⟨_, _, _, hr⟩
    · obtain ⟨-, -, -, -, hr, -⟩ := controlWords.1 h o s lq q hf
      exact ⟨_, _, _, hr⟩

/-- The words that put a result into qd keep the frame. -/
theorem registerWord_frame (hf : s.focus = .queue lq q) {c : Hdr → OpA → Instr} (hc : c ∈ registerWords) (he : exec (c h o) s = .next t) :
    WordFrame s t lq q (· = o.qd.toNat) (fun n => nothing n ∨ (h.se = true ∧ n = h.ssem.toNat)) := by
  obtain ⟨v, raw, fl, hr⟩ := registerWord_retires (h := h) (o := o) hf hc
  have frames : Frames s lq q (· = o.qd.toNat) nothing (.retire (withReg s lq q o.qd.toNat v) fl) := WordFrame.withReg _ v
  have run : runWord raw h s (fun _ _ _ => .retire (withReg s lq q o.qd.toNat v) fl) = .next t := by
    rw [← he, hr, runWord_focus hf]; rfl
  exact frames.runWord hf run

/-- The words that write no register and no semaphore. -/
def quietWords : List (Hdr → OpA → Instr) := [.br, .brc, .ret, .halt, .loop, .wait, .nbarr, .nbwait, .taskdef, .taskdone]

/-- A quad that is put with nothing but its barriers and tasks changed. -/
theorem WordFrame.setSync {z : Quad} (hmx : z.mxt = (s.quadOf lq).mxt) (hch : z.bce = (s.quadOf lq).bce) (hq : z.queues = (s.quadOf lq).queues)
    (hs : z.sem = (s.quadOf lq).sem) : WordFrame s (s.setQuad lq z) lq q R S :=
  WordFrame.setQuad (fun m => by simp only [Quad.mx, hmx]) (fun k => by simp only [Quad.chan, hch]) hq (fun n _ => by simp only [Quad.semOf, hs])

/-- A counter that is lowered changes nothing but the tasks. -/
theorem releaseTask_keeps (x : Quad) (n : Nat) :
    (releaseTask x n).mxt = x.mxt ∧ (releaseTask x n).bce = x.bce ∧ (releaseTask x n).queues = x.queues ∧ (releaseTask x n).sem = x.sem := by
  dsimp only [releaseTask]
  split <;> exact ⟨rfl, rfl, rfl, rfl⟩

/-- What TASKDONE leaves of its quad. -/
theorem taskDone_keeps {x z : Quad} {n : Nat} (hz : taskDone x n = some z) :
    z.mxt = x.mxt ∧ z.bce = x.bce ∧ z.queues = x.queues ∧ z.sem = x.sem := by
  dsimp only [taskDone] at hz
  split at hz
  · cases hz
  · cases hz
    exact ⟨foldl_keeps Quad.mxt _ (fun y k => (releaseTask_keeps y k).1) _ _, foldl_keeps Quad.bce _ (fun y k => (releaseTask_keeps y k).2.1) _ _,
      foldl_keeps Quad.queues _ (fun y k => (releaseTask_keeps y k).2.2.1) _ _, foldl_keeps Quad.sem _ (fun y k => (releaseTask_keeps y k).2.2.2) _ _⟩

/-- A word that writes no register and no semaphore keeps the frame. -/
theorem quietWord_frame (hf : s.focus = .queue lq q) {c : Hdr → OpA → Instr} (hc : c ∈ quietWords) (he : exec (c h o) s = .next t) :
    WordFrame s t lq q nothing (fun n => nothing n ∨ (h.se = true ∧ n = h.ssem.toNat)) := by
  have self : WordFrame s s lq q nothing nothing := WordFrame.refl ..
  have pushed : ∀ fs, WordFrame s (s.setQueue lq q { (s.queueOf lq q) with loops := fs }) lq q nothing nothing :=
    fun _ => WordFrame.setQueue (fun _ _ => rfl) (fun hc => ⟨hc, rfl, rfl⟩) rfl rfl
  have phased : ∀ p, WordFrame s (s.setQueue lq q { (s.queueOf lq q) with phase := p }) lq q nothing nothing :=
    fun _ => WordFrame.setQueue (fun _ _ => rfl) (fun hc => ⟨hc, rfl, rfl⟩) rfl rfl
  simp only [quietWords, List.mem_cons, List.not_mem_nil, or_false] at hc
  rcases hc with rfl | rfl | rfl | rfl | rfl | rfl | rfl | rfl | rfl | rfl
  · exact Frames.runWord hf (by exact self) ((rfl : execBr h o s = _).trans he)
  · exact Frames.runWord hf (by exact Frames.ite self (Frames.ite self self)) ((rfl : execBrc h o s = _).trans he)
  · exact Frames.runWord hf (by exact Frames.ite self self) ((rfl : execRet h o s = _).trans he)
  · exact Frames.runWord hf (by exact self) ((rfl : execHalt h o s = _).trans he)
  · exact Frames.runWord hf (by exact Frames.ite self (Frames.ite self (pushed _))) ((rfl : execLoop h o s = _).trans he)
  · exact Frames.runWord hf (by exact Frames.ite self self) ((rfl : execWait h o s = _).trans he)
  · refine Frames.runWord hf ?_ ((rfl : execNbarr h o s = _).trans he)
    refine Frames.ite self ?_
    split
    · exact self
    · exact WordFrame.setSync rfl rfl rfl rfl
  · exact Frames.runWord hf (by exact Frames.ite (phased _) self) ((rfl : execNbwait h o s = _).trans he)
  · exact Frames.runWord hf (by exact Frames.ite self (WordFrame.setSync rfl rfl rfl rfl)) ((rfl : execTaskdef h o s = _).trans he)
  · refine Frames.runWord hf ?_ ((rfl : execTaskdone h o s = _).trans he)
    refine Frames.ite self ?_
    split
    · exact self
    · next hz =>
      obtain ⟨hmx, hch, hq, hs⟩ := taskDone_keeps hz
      exact WordFrame.setSync hmx hch hq hs

/-- SIG and SEMSET change the semaphore they name. -/
theorem semaphoreWord_frame (hf : s.focus = .queue lq q) {c : Hdr → OpA → Instr} (hc : c ∈ [Instr.sig, .semset]) (he : exec (c h o) s = .next t) :
    WordFrame s t lq q nothing (fun n => n = bits o.imm.toNat 7 0 ∨ (h.se = true ∧ n = h.ssem.toNat)) := by
  have self : WordFrame s s lq q nothing (· = bits o.imm.toNat 7 0) := WordFrame.refl ..
  simp only [List.mem_cons, List.not_mem_nil, or_false] at hc
  rcases hc with rfl | rfl
  · refine Frames.runWord hf ?_ ((rfl : execSig h o s = _).trans he)
    split
    · exact self
    · next hz =>
      obtain ⟨hmx, hch, hq, hs⟩ := addSem_keeps hz
      exact WordFrame.setQuad hmx hch hq hs
  · refine Frames.runWord hf ?_ ((rfl : execSemset h o s = _).trans he)
    unfold semset
    split
    · exact self
    · next hz =>
      split at hz
      · cases hz
        exact WordFrame.setQuad (fun _ => rfl) (fun _ => rfl) rfl (fun n hn => Quad.setSem_semOf_other _ _ hn)
      · cases hz

/-- Any semaphore. -/
def anything (_ : Nat) : Prop := True

/-- The words that write no register keep every register. -/
theorem registerlessWord_frame (hf : s.focus = .queue lq q) {c : Hdr → OpA → Instr} (hc : c ∈ registerlessWords) (he : exec (c h o) s = .next t) :
    WordFrame s t lq q nothing anything := by
  have split : c ∈ quietWords ∨ c ∈ [Instr.sig, .semset] := by
    simp only [registerlessWords, quietWords, List.mem_cons, List.not_mem_nil, or_false] at hc ⊢
    tauto
  rcases split with hq | hs
  · exact (quietWord_frame hf hq he).mono (fun _ hr => hr) fun _ _ => trivial
  · exact (semaphoreWord_frame hf hs he).mono (fun _ hr => hr) fun _ _ => trivial

/-! ### LDQ and STQ -/

/-- What a word comes to that retires to the next word, waits or traps, in the state its effect leaves. -/
inductive EndsIn (u : State) : WordResult → Prop
  | retire : EndsIn u (.retire u .next)
  | wait (k : WaitKind) (a b c : Nat) : EndsIn u (.wait u k a b c)
  | trap (c a b : Nat) : EndsIn u (.trap u c a b)

/-- The end of a word's turn keeps the frame from the state its effect leaves. -/
theorem EndsIn.frame {u : State} {w : WordResult} (hw : EndsIn u w) (raw : Nat) (h : Hdr) :
    WordFrame u (finishWord s lq q raw h w) lq q nothing anything := by
  cases hw with
  | retire =>
    have goesOn : finishWord s lq q raw h (.retire u .next) = Machine.retireWord u u lq q raw (sigOf h) .next := rfl
    rw [goesOn]
    exact (WordFrame.refl u lq q nothing nothing).retireWord.mono (fun _ hr => hr) fun _ _ => trivial
  | wait k a b c => exact WordFrame.waitWord ..
  | trap c a b => exact WordFrame.trap ..

/-- A word whose effect leaves memory, and of its queue's registers all but those of `R`, does so altogether. -/
theorem EndsIn.keeps {u : State} {w : WordResult} (hw : EndsIn u w) {raw : Nat} {h : Hdr} (hm : ∀ b, u.byteAt b = s.byteAt b)
    (hr : ∀ r, ¬ R r → (u.queueOf lq q).reg r = (s.queueOf lq q).reg r) :
    (∀ b, (finishWord s lq q raw h w).byteAt b = s.byteAt b) ∧
    ∀ r, ¬ R r → ((finishWord s lq q raw h w).queueOf lq q).reg r = (s.queueOf lq q).reg r := by
  have frame := hw.frame (s := s) (lq := lq) (q := q) raw h
  exact ⟨fun b => (frame.same.1 b).trans (hm b), fun r h' => (frame.regs r id).trans (hr r h')⟩

/-- A queue that is put in a state with the quads as they were reads as it is put. -/
theorem regs_of_quads {u : State} (h : u.quads = s.quads) (r : Nat) : (u.queueOf lq q).reg r = (s.queueOf lq q).reg r :=
  congrArg (Queue.reg · r) (queueOf_congr h lq q)

/-- A word that stays at issue in a phase of its own ends in the state in which its queue has that phase, whose registers are as they were. -/
theorem staysAt_ends (u : State) (lq q : Nat) (p : IssuePhase) (k : WaitKind) :
    ∃ v, EndsIn v (staysAt u lq q p k) ∧ v.mem = u.mem ∧ ∀ r, (v.queueOf lq q).reg r = (u.queueOf lq q).reg r :=
  ⟨_, .wait _ _ _ _, rfl, fun r => by rw [State.setQueue_queueOf_self]; rfl⟩

/-- The effect of LDQ leaves memory, and every register but qd. -/
theorem ldq_keeps (hf : s.focus = .queue lq q) (he : exec (.ldq h o) s = .next t) :
    (∀ b, t.byteAt b = s.byteAt b) ∧ ∀ r, r ≠ o.qd.toNat → (t.queueOf lq q).reg r = (s.queueOf lq q).reg r := by
  replace he := (rfl : execLdq h o s = _).trans he
  rw [execLdq, runWord_focus hf] at he
  cases he
  have mem := struck_mem s (queueAccess s lq (s.queueOf lq q)) (seqAddr (s.queueOf lq q) o)
  have quads := struck_quads s (queueAccess s lq (s.queueOf lq q)) (seqAddr (s.queueOf lq q) o)
  dsimp only
  split
  · exact (EndsIn.trap _ _ _).keeps (byteAt_congr mem) fun r _ => regs_of_quads quads r
  · split
    · next k _ =>
      obtain ⟨v, hv, hm, hr⟩ := staysAt_ends ((s.struck (queueAccess s lq (s.queueOf lq q)) (seqAddr (s.queueOf lq q) o)).noteHold k) lq q .access .access
      exact hv.keeps (byteAt_congr (hm.trans ((noteHold_mem _ _).trans mem))) fun r _ => (hr r).trans (regs_of_quads ((noteHold_quads _ _).trans quads) r)
    · exact (EndsIn.trap _ _ _).keeps (byteAt_congr mem) fun r _ => regs_of_quads quads r
    · exact EndsIn.retire.keeps (byteAt_congr mem) fun r hr => by rw [State.setQueue_queueOf_self, Queue.setReg_reg_other _ _ hr]
    · exact EndsIn.retire.keeps (byteAt_congr mem) fun r hr => by rw [State.setQueue_queueOf_self, Queue.setReg_reg_other _ _ hr]

/-- STQ ends in a state with its queue's registers as they were, whose memory is that of the state before it or of the write. -/
theorem stq_ends (hf : s.focus = .queue lq q) (he : exec (.stq h o) s = .next t) :
    ∃ u, (∀ b, t.byteAt b = u.byteAt b) ∧ (∀ r, (t.queueOf lq q).reg r = (s.queueOf lq q).reg r) ∧
      (u = s ∨ s.writeVa (queueAccess s lq (s.queueOf lq q)) (seqAddr (s.queueOf lq q) o) (toBytes 8 ((s.queueOf lq q).reg o.qt.toNat).toNat) = .done u) := by
  replace he := (rfl : execStq h o s = _).trans he
  rw [execStq, runWord_focus hf] at he
  cases he
  have ends : ∀ {v : State} {w : WordResult} {u : State}, EndsIn v w → v.mem = u.mem → (∀ r, (v.queueOf lq q).reg r = (s.queueOf lq q).reg r) →
      (∀ b, (finishWord s lq q (encodeSeq 0x0E h (.formatA o)) h w).byteAt b = u.byteAt b) ∧
      ∀ r, ((finishWord s lq q (encodeSeq 0x0E h (.formatA o)) h w).queueOf lq q).reg r = (s.queueOf lq q).reg r := by
    intro v w u hw hm hr
    have frame := hw.frame (s := s) (lq := lq) (q := q) (encodeSeq 0x0E h (.formatA o)) h
    exact ⟨fun b => (frame.same.1 b).trans (byteAt_congr hm b), fun r => (frame.regs r id).trans (hr r)⟩
  have stays : ∀ (v u : State) (p : IssuePhase), v.mem = u.mem → v.quads = s.quads →
      (∀ b, (finishWord s lq q (encodeSeq 0x0E h (.formatA o)) h (staysAt v lq q p .access)).byteAt b = u.byteAt b) ∧
      ∀ r, ((finishWord s lq q (encodeSeq 0x0E h (.formatA o)) h (staysAt v lq q p .access)).queueOf lq q).reg r = (s.queueOf lq q).reg r := by
    intro v u p hm hq
    obtain ⟨v', hv, hm', hr⟩ := staysAt_ends v lq q p .access
    exact ends hv (hm'.trans hm) fun r => (hr r).trans (regs_of_quads hq r)
  split
  · split
    · obtain ⟨hb, hr⟩ := stays s s .storing rfl rfl
      exact ⟨s, hb, hr, .inl rfl⟩
    · obtain ⟨hb, hr⟩ := ends (u := s) EndsIn.retire rfl fun _ => rfl
      exact ⟨s, hb, hr, .inl rfl⟩
  · split
    · obtain ⟨hb, hr⟩ := ends (u := s) (EndsIn.trap codeAlignment (seqAddr (s.queueOf lq q) o) 0) rfl fun _ => rfl
      exact ⟨s, hb, hr, .inl rfl⟩
    · split
      · next k _ =>
        obtain ⟨hb, hr⟩ := stays (s.noteHold k) s .access (noteHold_mem ..) (noteHold_quads ..)
        exact ⟨s, hb, hr, .inl rfl⟩
      · next c v _ =>
        obtain ⟨hb, hr⟩ := ends (u := s) (EndsIn.trap c v 0) rfl fun _ => rfl
        exact ⟨s, hb, hr, .inl rfl⟩
      · next u hw =>
        have quads : u.quads = s.quads := writeVa_quads hw
        dsimp only
        split
        · obtain ⟨hb, hr⟩ := stays (u.ownedBy s (.store lq q (s.queueOf lq q).ctx (seqAddr (s.queueOf lq q) o))) u .storing rfl quads
          exact ⟨u, hb, hr, .inr hw⟩
        · obtain ⟨hb, hr⟩ := ends (v := u.ownedBy s (.store lq q (s.queueOf lq q).ctx (seqAddr (s.queueOf lq q) o))) (u := u) EndsIn.retire rfl
            (regs_of_quads quads)
          exact ⟨u, hb, hr, .inr hw⟩

end

/-- Settles O59: each word's effect keeps the frame, and so do retirement, waiting and a trap; LDQ and STQ by what their accesses leave. -/
theorem sequencerFrame : Obligations.SequencerFrame := by
  refine ⟨fun h o s t lq q hf => ⟨fun c hc he => ?own, fun c hc he => ?registers, fun c hc he n hn => ?sems, fun c hc he n h1 h2 => ?named⟩,
    fun h o s t lq q hf => ⟨fun he => ldq_keeps hf he, fun he => ?stq⟩⟩
  case own =>
    have frame : WordFrame s t lq q (· = o.qd.toNat) anything := by
      rcases List.mem_append.1 hc with hc | hc
      · exact (registerWord_frame hf hc he).mono (fun _ hr => hr) fun _ _ => trivial
      · exact (registerlessWord_frame hf hc he).mono (fun _ hr => hr.elim) fun _ _ => trivial
    exact ⟨frame.same, frame.regs, Queue.reg_zero _, fun hn => (frame.ctl hn).2, frame.mxmode, frame.tvec⟩
  case registers => exact fun r => (registerlessWord_frame hf hc he).regs r id
  case sems =>
    have kept : ¬ (nothing n ∨ (h.se = true ∧ n = h.ssem.toNat)) := by
      rintro (h' | ⟨hse, h'⟩)
      · exact h'
      · simp_all
    rcases List.mem_append.1 hc with hc | hc
    · exact (registerWord_frame hf hc he).sems n kept
    · exact (quietWord_frame hf hc he).sems n kept
  case named => exact (semaphoreWord_frame hf hc he).sems n (by rintro (h' | ⟨hse, h'⟩) <;> simp_all)
  case stq =>
    obtain ⟨u, hb, hr, hu⟩ := stq_ends hf he
    refine ⟨hr, fun runs hs b ho => (hb b).trans ?_, fun hs b => (hb b).trans ?_⟩
    · rcases hu with rfl | hw
      · rfl
      · exact writeVa_outside (by rw [toBytes_length]; exact hs) hw ho
    · rcases hu with rfl | hw
      · rfl
      · obtain ⟨runs, hr, -⟩ := writeVa_runs hw
        rw [toBytes_length] at hr
        exact absurd hr (hs runs)

end Sys2Proof.Claims
end

section
/-! SUPPORT. Bit instructions, IDX and CMP (R165 to R168). -/

namespace Sys2Proof.Machine

open Sys2Proof.Claims

/-! ### Fields -/

/-- The model's w-bit field is R165's. -/
theorem field_eq_fieldOf (t : LaneTy) (x : Lane) : field t x = fieldOf t x := by
  rw [field, fieldOf, laneWidth_eq_widthOf]

/-- A field is below 2^w. -/
theorem fieldOf_lt (t : LaneTy) (x : Lane) : fieldOf t x < 2 ^ widthOf t := Nat.mod_lt _ (Nat.two_pow_pos _)

/-- The model's signed reading of a field is R165's. -/
theorem sext_eq_signedField (t : LaneTy) (x : Lane) : sext (widthOf t) x.toNat = signedField t x := by
  cases t <;> simp only [sext, signedField, fieldOf, widthOf] <;> split_ifs <;> omega

/-! ### Counts -/

/-- The model's population count is the number of set bits. -/
theorem popcount_eq_setBits (n x : Nat) : popcount n x = setBits n x := by
  induction n generalizing x with
  | zero => rfl
  | succ n ih =>
    have tail : ((List.map Nat.succ (List.range n)).filter fun i => x.testBit i).length = setBits n (x / 2) := by
      rw [List.filter_map, List.length_map]
      simp only [setBits, Function.comp_def, Nat.succ_eq_add_one, Nat.testBit_add_one]
    rw [popcount, ih, ← tail, setBits, List.range_succ_eq_map, List.filter_cons]
    rcases Nat.mod_two_eq_zero_or_one x with h | h <;> simp [h, Nat.add_comm]

/-- The leading zeros of a field of `w` bits, told by where its highest set bit stands. -/
theorem clz_unique {w x n : Nat} (hn : n ≤ w) (hx : x < 2 ^ (w - n)) (hs : n < w → 2 ^ (w - n - 1) ≤ x) : w - bitLen x = n := by
  by_cases h0 : x = 0
  · have : n = w := by
      by_contra hne
      have := hs (by omega)
      have := Nat.two_pow_pos (w - n - 1)
      omega
    simp [bitLen, h0, this]
  · have hlt : n < w := by
      by_contra hge
      rw [show w - n = 0 by omega, Nat.pow_zero] at hx
      omega
    have top : Nat.log2 x = w - n - 1 := (Nat.log2_eq_iff h0).2 ⟨hs hlt, by rwa [show w - n - 1 + 1 = w - n by omega]⟩
    rw [bitLen, if_neg h0, top]
    omega

/-- The trailing zeros of a field of `w` bits, told by where its lowest set bit stands. -/
theorem ctz_unique {w x n : Nat} (hn : n ≤ w) (hz : x % 2 ^ n = 0) (hs : n < w → x.testBit n = true) : trailing w x = n := by
  induction w generalizing x n with
  | zero => rw [trailing]; omega
  | succ w ih =>
    cases n with
    | zero =>
      have odd : x % 2 = 1 := by simpa using hs (Nat.succ_pos w)
      rw [trailing, if_pos odd]
    | succ n =>
      rw [Nat.pow_succ', Nat.mod_mul] at hz
      rw [trailing, if_neg (by omega), ih (by omega) (n := n) (by omega) fun h => by rw [← Nat.testBit_add_one]; exact hs (by omega)]

/-! ### BFI -/

/-- The bits of a field of `len` bits at `pos`. -/
theorem and_fieldMask (a pos len : Nat) : a &&& ((2 ^ len - 1) * 2 ^ pos) = a / 2 ^ pos % 2 ^ len * 2 ^ pos := by
  refine Nat.eq_of_testBit_eq fun j => ?_
  simp only [Nat.testBit_and, Nat.testBit_mul_two_pow, Nat.testBit_two_pow_sub_one, Nat.testBit_mod_two_pow, Nat.testBit_div_two_pow]
  by_cases hj : pos ≤ j
  · rw [Nat.sub_add_cancel hj]
    simp [hj, Bool.and_comm]
  · simp [hj]

/-- A number with a field put into it (R166). -/
theorem insertField (a b pos len : Nat) :
    a / 2 ^ (pos + len) * 2 ^ (pos + len) + b % 2 ^ len * 2 ^ pos + a % 2 ^ pos =
      (a - (a &&& ((2 ^ len - 1) * 2 ^ pos))) ||| (b % 2 ^ len * 2 ^ pos) := by
  have low : a % 2 ^ pos < 2 ^ pos := Nat.mod_lt _ (Nat.two_pow_pos _)
  have field : b % 2 ^ len * 2 ^ pos + a % 2 ^ pos < 2 ^ (pos + len) := by
    have hb : b % 2 ^ len + 1 ≤ 2 ^ len := Nat.mod_lt _ (Nat.two_pow_pos _)
    calc b % 2 ^ len * 2 ^ pos + a % 2 ^ pos < (b % 2 ^ len + 1) * 2 ^ pos := by rw [Nat.add_mul]; omega
      _ ≤ 2 ^ len * 2 ^ pos := Nat.mul_le_mul_right _ hb
      _ = 2 ^ (pos + len) := by rw [Nat.pow_add, Nat.mul_comm]
  have parts : a - (a &&& ((2 ^ len - 1) * 2 ^ pos)) = 2 ^ (pos + len) * (a / 2 ^ (pos + len)) + a % 2 ^ pos := by
    have h1 := Nat.div_add_mod a (2 ^ pos)
    have h2 := Nat.div_add_mod (a / 2 ^ pos) (2 ^ len)
    rw [Nat.div_div_eq_div_mul, ← Nat.pow_add] at h2
    have h3 : 2 ^ pos * (a / 2 ^ pos) = 2 ^ (pos + len) * (a / 2 ^ (pos + len)) + a / 2 ^ pos % 2 ^ len * 2 ^ pos := by
      rw [← h2, Nat.mul_add, ← Nat.mul_assoc, ← Nat.pow_add, h2, Nat.mul_comm (2 ^ pos)]
    rw [and_fieldMask]
    omega
  have lowLt : a % 2 ^ pos < 2 ^ (pos + len) := Nat.lt_of_le_of_lt (Nat.le_add_left _ _) field
  rw [parts, Nat.add_assoc, Nat.mul_comm (a / 2 ^ (pos + len)), Nat.two_pow_add_eq_or_of_lt field, Nat.two_pow_add_eq_or_of_lt lowLt,
    Nat.mul_comm (b % 2 ^ len), Nat.two_pow_add_eq_or_of_lt low, Nat.or_assoc, Nat.or_comm (2 ^ pos * _)]

end Sys2Proof.Machine

namespace Sys2Proof.Claims

open Sys2Proof.Machine

section
variable {z : FiringAt} {f : Fab} {i : Instr}

/-- An instruction of one operand whose operation is written as a number. -/
theorem computes_oneWritten {op : Lane → Lane} {v : Firing → Nat → Int} (he : exec i z.s = intOne i f z.s op)
    (hop : ∀ fr k, op ((fr.lanesOf .a).get k) = wrOf f.ty (v fr k)) :
    z.computes f i (fun _ => f.ty) quiet plain fun fr k => wrOf f.ty (v fr k) := by
  simpa only [hop] using computes_intOne he

/-- An instruction of two operands whose operation is written as a number. -/
theorem computes_twoWritten {op : Lane → Lane → Lane} {v : Lane → Lane → Int} (he : exec i z.s = intTwo i f z.s op)
    (hop : ∀ a b, op a b = wrOf f.ty (v a b)) :
    z.computes f i (fun _ => f.ty) quiet plain fun fr k => wrOf f.ty (v ((fr.lanesOf .a).get k) ((operandB f fr).get k)) := by
  simpa only [hop] using computes_intTwo he

/-- Each bit instruction of two operands writes the number its entry names (R165). -/
theorem exec_bitTable (f : Fab) : ∀ e ∈ bitTable, ∃ op, (∀ s, exec (e.1 f) s = intTwo (e.1 f) f s op) ∧ ∀ a b, op a b = wrOf f.ty (e.2 f.ty a b) := by
  simp only [bitTable, List.forall_mem_cons]
  refine ⟨?and, ?or, ?xor, ?shl, ?shr, ?sar, ?rot, List.forall_mem_nil _⟩
  case and => exact ⟨_, fun s => (rfl : execAnd f s = _), fun a b => by rw [wr_eq_wrOf, field_eq_fieldOf, field_eq_fieldOf]⟩
  case or => exact ⟨_, fun s => (rfl : execOr f s = _), fun a b => by rw [wr_eq_wrOf, field_eq_fieldOf, field_eq_fieldOf]⟩
  case xor => exact ⟨_, fun s => (rfl : execXor f s = _), fun a b => by rw [wr_eq_wrOf, field_eq_fieldOf, field_eq_fieldOf]⟩
  case shl =>
    refine ⟨_, fun s => (rfl : execShl f s = _), fun a b => ?_⟩
    rw [shlLane, wr_eq_wrOf, wr_eq_wrOf, field_eq_fieldOf, laneWidth_eq_widthOf, shiftCount, ← apply_ite (wrOf f.ty)]
  case shr =>
    refine ⟨_, fun s => (rfl : execShr f s = _), fun a b => ?_⟩
    rw [shrLane, wr_eq_wrOf, wr_eq_wrOf, field_eq_fieldOf, laneWidth_eq_widthOf, shiftCount, ← apply_ite (wrOf f.ty)]
  case sar =>
    refine ⟨_, fun s => (rfl : execSar f s = _), fun a b => ?_⟩
    simp only [sarLane, laneWidth_eq_widthOf, sext_eq_signedField, wr_eq_wrOf, shiftCount, ← apply_ite (wrOf f.ty), Nat.cast_pow, Nat.cast_ofNat]
  case rot =>
    refine ⟨_, fun s => (rfl : execRot f s = _), fun a b => ?_⟩
    simp only [rotLane, wr_eq_wrOf, field_eq_fieldOf, laneWidth_eq_widthOf, shiftCount]

/-- Each bit instruction of one operand writes the one number of which its entry's condition holds (R165). -/
theorem exec_intOneTable (f : Fab) : ∀ e ∈ intOneTable, ∃ op, (∀ s, exec (e.1 f) s = intOne (e.1 f) f s op) ∧
    ∀ a v, e.2 f.ty a v → op a = wrOf f.ty v := by
  simp only [intOneTable, List.forall_mem_cons]
  refine ⟨?not, ?popc, ?clz, ?ctz, List.forall_mem_nil _⟩
  case not =>
    refine ⟨_, fun s => (rfl : execNot f s = _), fun a v hv => ?_⟩
    have lt := fieldOf_lt f.ty a
    rw [wr_eq_wrOf, field_eq_fieldOf, laneWidth_eq_widthOf, hv, Nat.cast_sub (by omega), Nat.cast_sub (by omega)]
    simp
  case popc =>
    refine ⟨_, fun s => (rfl : execPopc f s = _), fun a v hv => ?_⟩
    rw [wr_eq_wrOf, field_eq_fieldOf, laneWidth_eq_widthOf, popcount_eq_setBits, hv]
  case clz =>
    refine ⟨_, fun s => (rfl : execClz f s = _), fun a v ⟨n, hv, hn, hx, hs⟩ => ?_⟩
    simp only [wr_eq_wrOf, field_eq_fieldOf, laneWidth_eq_widthOf, clz_unique hn hx hs, hv]
  case ctz =>
    refine ⟨_, fun s => (rfl : execCtz f s = _), fun a v ⟨n, hv, hn, hz, hs⟩ => ?_⟩
    simp only [wr_eq_wrOf, field_eq_fieldOf, laneWidth_eq_widthOf, ctz_unique hn hz hs, hv, Nat.min_eq_right hn]

/-- BFE's field, signed on .i32 (R166). -/
theorem bfeLane_eq {t : LaneTy} {pos len : Nat} (hl : 1 ≤ len) (a : Lane) :
    bfeLane t pos len a = wrOf t
      (if t = .i32 ∧ 2 ^ (len - 1) ≤ a.toNat % 2 ^ 32 / 2 ^ pos % 2 ^ len then ((a.toNat % 2 ^ 32 / 2 ^ pos % 2 ^ len : Nat) : Int) - 2 ^ len
        else ((a.toNat % 2 ^ 32 / 2 ^ pos % 2 ^ len : Nat) : Int)) := by
  have double : 2 ^ len = 2 * 2 ^ (len - 1) := by rw [← Nat.pow_succ', Nat.succ_eq_add_one, Nat.sub_add_cancel hl]
  rw [bfeLane, wr_eq_wrOf]
  congr 1
  by_cases ht : t = .i32
  · rw [if_pos ht, sext, Nat.mod_mod]
    by_cases hx : 2 ^ (len - 1) ≤ a.toNat % 2 ^ 32 / 2 ^ pos % 2 ^ len
    · rw [if_neg (by omega), if_pos ⟨ht, hx⟩]
      simp
    · rw [if_pos (by omega), if_neg fun h => hx h.2]
  · rw [if_neg ht, if_neg fun h => ht h.1]

/-- The number that BFI writes (R166): the first operand's low 32 bits, a field of the second put into them. -/
def bfiOf (pos len : Nat) (a b : Lane) : Nat :=
  (a.toNat % 2 ^ 32 - (a.toNat % 2 ^ 32 &&& ((2 ^ len - 1) * 2 ^ pos))) ||| (b.toNat % 2 ^ len * 2 ^ pos)

/-- BFI's lane (R166). -/
theorem bfiLane_eq {t : LaneTy} {pos len : Nat} (hl : len ≤ 32) (a b : Lane) : bfiLane t pos len a b = wrOf t (bfiOf pos len a b : Int) := by
  rw [bfiLane, wr_eq_wrOf, Nat.mod_mod_of_dvd _ (Nat.pow_dvd_pow 2 hl), insertField, bfiOf]

end

/-- An address of 57 bits is a number below 2^57. -/
theorem wrapNat_57 (v : Int) : ∃ n : Nat, wrapNat 57 v = n ∧ v % 2 ^ 57 = n ∧ n < 2 ^ 57 := by
  have nonneg := Int.emod_nonneg v (b := 2 ^ 57) (by decide)
  have lt := Int.emod_lt_of_pos v (b := 2 ^ 57) (by decide)
  exact ⟨(v % 2 ^ 57).toNat, rfl, (Int.toNat_of_nonneg nonneg).symm, by omega⟩

/-- The low lane of an address (R168). -/
theorem addrLane_low (v : Int) : (addrLanes (wrapNat 57 v)).1 = BitVec.ofInt 36 (v % 2 ^ 57 % 2 ^ 32) := by
  obtain ⟨n, hn, hv, -⟩ := wrapNat_57 v
  rw [hn, hv]
  exact (BitVec.ofInt_natCast 36 (n % 2 ^ 32)).symm

/-- The high lane of an address (R168). -/
theorem addrLane_high (v : Int) : (addrLanes (wrapNat 57 v)).2 = BitVec.ofInt 36 (v % 2 ^ 57 / 2 ^ 32) := by
  obtain ⟨n, hn, hv, hlt⟩ := wrapNat_57 v
  have whole : n / 2 ^ 32 % 2 ^ 25 = n / 2 ^ 32 := Nat.mod_eq_of_lt (by omega)
  rw [hn, hv, addrLanes, whole]
  exact (BitVec.ofInt_natCast 36 (n / 2 ^ 32)).symm

/-- An immediate read signed. -/
theorem sext_imm (d : BitVec 24) : sext 24 d.toNat = d.toInt := by
  rw [sext_eq_toInt, BitVec.ofNat_toNat, BitVec.setWidth_eq]

/-- IDX's lanes are the low and the high part of four addresses (R168). -/
theorem computes_idx {z : FiringAt} {f : Fab} : z.computes f (.idx f) (fun _ => f.ty) quiet plain fun fr k =>
    let j := k / 2
    let base : Nat := ((fr.lanesOf .a).get (2 * j + 1)).toNat % 2 ^ 25 * 2 ^ 32 + ((fr.lanesOf .a).get (2 * j)).toNat % 2 ^ 32
    let addr : Int := ((base : Int) + rdOf f.ty ((fr.lanesOf .b).get (2 * j)) * 2 ^ f.sub.toNat + f.imm.toInt) % 2 ^ 57
    if k % 2 = 0 then BitVec.ofInt 36 (addr % 2 ^ 32) else BitVec.ofInt 36 (addr / 2 ^ 32) := by
  refine FiringAt.computes_of_exec (rfl : execIdx f z.s = _) fun fr => ?_
  simp only [idxLanes, addrLane_low, addrLane_high, idxAddr, laneAddr, rd_eq_rdOf, sext_imm, Nat.cast_pow, Nat.cast_ofNat]
  rfl

/-- A condition of R94 on integers, as the model decides it. -/
theorem condInt_iff (cc : Nat) (a b : Int) : condInt cc a b = true ↔ condOf cc a b := by
  by_cases h : cc < 6
  · have cases : cc = 0 ∨ cc = 1 ∨ cc = 2 ∨ cc = 3 ∨ cc = 4 ∨ cc = 5 := by omega
    rcases cases with rfl | rfl | rfl | rfl | rfl | rfl <;> simp [condInt, condOf]
  · obtain ⟨n, rfl⟩ := Nat.exists_eq_add_of_le' (Nat.le_of_not_lt h)
    rw [show condInt (n + 6) a b = false from rfl]
    simp only [condOf, Bool.false_eq_true, false_iff]
    omega

/-- CMP (R167). -/
theorem computes_cmp {z : FiringAt} {f : Fab} {c : Firing → Nat → Bool}
    (hc : ∀ fr k, c fr k = true ↔ condOf f.sub.toNat (rdOf f.ty ((fr.lanesOf .a).get k)) (rdOf f.ty ((operandB f fr).get k))) :
    z.computes f (.cmp f) (fun _ => f.ty) quiet (fun fr => if c fr 0 then .true else .false) fun fr k => if c fr k then 1 else 0 := by
  have same : ∀ fr k, c fr k = condInt f.sub.toNat (rd f.ty ((fr.lanesOf .a).get k)) (rd f.ty ((operandB f fr).get k)) := fun fr k => by
    rw [Bool.eq_iff_iff, hc, condInt_iff, rd_eq_rdOf, rd_eq_rdOf]
  have lane : ∀ b : Bool, boolLane b = if b then 1 else 0 := by decide
  refine FiringAt.computes_of_exec (rfl : execCmp f z.s = _) fun fr => ?_
  simp only [same, ← lane]
  rfl

/-- Settles O21: each bit instruction writes the number its entry names; the counts by the one number of which their condition holds. -/
theorem bitsAndAddresses : Obligations.BitsAndAddresses := by
  refine ⟨fun f z _ => ⟨fun e he => ?two, fun e he v hv => ?one, fun h1 h32 hs => ⟨?bfe, ?bfi⟩, fun _ => computes_idx⟩, fun f z c _ hc => computes_cmp hc⟩
  case two =>
    obtain ⟨op, hexec, hop⟩ := exec_bitTable f e he
    exact computes_twoWritten (hexec _) hop
  case one =>
    obtain ⟨op, hexec, hop⟩ := exec_intOneTable f e he
    exact computes_oneWritten (hexec _) fun fr k => hop _ _ (hv fr k)
  case bfe => exact computes_oneWritten (rfl : execBfe f z.s = _) fun fr k => bfeLane_eq h1 _
  case bfi =>
    exact computes_twoWritten (v := fun a b => (bfiOf (bits f.imm.toNat 12 8) (bits f.imm.toNat 5 0) a b : Int)) (rfl : execBfi f z.s = _)
      (bfiLane_eq h32)

end Sys2Proof.Claims
end

section
/-! SUPPORT. Float instructions (R171, R174 to R182). -/

namespace Sys2Proof.Claims

open Sys2Proof.Machine

/-- A lane that holds a truth value. -/
theorem boolLane_eq (b : Bool) : boolLane b = if b then 1 else 0 := by cases b <;> rfl

/-- The class word of a lane is one of ten bits (R177). -/
theorem classWord_bit (a : Lane) : ∃ k, k < 10 ∧ classWord a = 2 ^ k := by
  have bit : ∀ n ∈ [1, 2, 4, 8, 16, 32, 64, 128, 256, 512], ∃ k, k < 10 ∧ n = 2 ^ k := by decide
  refine bit _ ?_
  unfold classWord
  split
  · split <;> decide
  · split <;> decide
  · dsimp only
    split
    · split <;> decide
    · split
      · split <;> decide
      · split <;> decide

/-- The class word fits its lane. -/
theorem classWord_toNat (a : Lane) : (BitVec.ofNat 36 (classWord a)).toNat = classWord a := by
  obtain ⟨k, hk, hw⟩ := classWord_bit a
  rw [BitVec.toNat_ofNat, hw, Nat.mod_eq_of_lt (Nat.pow_lt_pow_right (by decide) (by omega))]

section
variable {z : FiringAt} {f : Fab} {i : Instr}

/-- A float instruction of one operand sends its operation of each lane and raises the flags of all (R171). -/
theorem computes_floatOne {op : Lane → Flagged Lane} (he : exec i z.s = floatOne i f z.s op) :
    z.computes f i (fun _ => f.ty) (fun fr => allFlags fun k => op ((fr.lanesOf .a).get k)) plain fun fr k => (op ((fr.lanesOf .a).get k)).val :=
  FiringAt.computes_of_exec he fun _ => rfl

/-- A float instruction of two operands sends its operation of each pair of lanes and raises the flags of all (R171). -/
theorem computes_floatTwo {op : Lane → Lane → Flagged Lane} (he : exec i z.s = floatTwo i f z.s op) :
    z.computes f i (fun _ => f.ty) (fun fr => allFlags fun k => op ((fr.lanesOf .a).get k) ((operandB f fr).get k)) plain
      fun fr k => (op ((fr.lanesOf .a).get k) ((operandB f fr).get k)).val :=
  FiringAt.computes_of_exec he fun _ => rfl

/-- Each float instruction of two operands performs the operation its entry names. -/
theorem exec_floatTable (f : Fab) : ∀ e ∈ floatTable, ∀ s, exec (e.1 f) s = floatTwo (e.1 f) f s (e.2 (roundOf f)) := by
  simp only [floatTable, List.forall_mem_cons]
  refine ⟨?fadd, ?fsub, ?fmul, ?fdiv, ?fmin, ?fmax, List.forall_mem_nil _⟩
  case fadd => exact fun s => (rfl : execFadd f s = _)
  case fsub => exact fun s => (rfl : execFsub f s = _)
  case fmul => exact fun s => (rfl : execFmul f s = _)
  case fdiv => exact fun s => (rfl : execFdiv f s = _)
  case fmin => exact fun s => (rfl : execFmin f s = _)
  case fmax => exact fun s => (rfl : execFmax f s = _)

/-- Each float instruction of one operand performs the operation its entry names. -/
theorem exec_floatOneTable (f : Fab) : ∀ e ∈ floatOneTable, ∀ s, exec (e.1 f) s = floatOne (e.1 f) f s (e.2 (roundOf f)) := by
  simp only [floatOneTable, List.forall_mem_cons]
  refine ⟨?frcp, ?fsqrt, ?frsq, ?frnd, ?fabs, ?fneg, ?fexp2, ?flog2, ?fsig, ?ftanh, List.forall_mem_nil _⟩
  case frcp => exact fun s => (rfl : execFrcp f s = _)
  case fsqrt => exact fun s => (rfl : execFsqrt f s = _)
  case frsq => exact fun s => (rfl : execFrsq f s = _)
  case frnd => exact fun s => (rfl : execFrnd f s = _)
  case fabs => exact fun s => (rfl : execFabs f s = _)
  case fneg => exact fun s => (rfl : execFneg f s = _)
  case fexp2 => exact fun s => (rfl : execFexp2 f s = _)
  case flog2 => exact fun s => (rfl : execFlog2 f s = _)
  case fsig => exact fun s => (rfl : execFsig f s = _)
  case ftanh => exact fun s => (rfl : execFtanh f s = _)

end

/-- Settles O22: each entry's operation is the model's, lane by lane; FSCALE's count is rd.i32 or the immediate read signed, FCLASS's word fits its lane. -/
theorem floatInstructions : Obligations.FloatInstructions := by
  intro f z
  refine ⟨fun e he => computes_floatTwo (exec_floatTable f e he _), fun e he => computes_floatOne (exec_floatOneTable f e he _), ?fma, ?fscale, ?fcmp,
    ?fclass⟩
  case fma => exact FiringAt.computes_of_exec (rfl : execFma f z.s = _) fun _ => rfl
  case fscale =>
    refine FiringAt.computes_of_exec (rfl : execFscale f z.s = _) fun fr => ?_
    simp only [sext_imm, rd_eq_rdOf]
    rfl
  case fcmp =>
    refine FiringAt.computes_of_exec (rfl : execFcmp f z.s = _) fun fr => ?_
    simp only [boolLane_eq]
    rfl
  case fclass =>
    refine FiringAt.computes_of_exec (rfl : execFclass f z.s = _) fun fr => ?_
    rw [← classWord_toNat ((fr.lanesOf .a).get 0)]
    rfl

/-! ### The fixed cases (R174, R175, R177) -/

/-- The fixed quotients. -/
theorem fDiv_fixed (md : Rm) (p q : Bool) (m n : Nat) (e g : Int) (x : FVal) :
    fDiv md (.fin p 0 e) (.fin q 0 g) = ⟨.nan false, .inv⟩ ∧ fDiv md (.inf p) (.inf q) = ⟨.nan false, .inv⟩ ∧
    (0 < m → fDiv md (.fin p m e) (.fin q 0 g) = ⟨.inf (p != q), .dz⟩) ∧ fDiv md (.inf p) (.fin q n g) = ⟨.inf (p != q), .none⟩ ∧
    (fDiv md (.fin p m e) (.inf q)).val = .fin (p != q) 0 0 ∧ (fDiv md x (.nan false)).val = .nan false := by
  refine ⟨rfl, rfl, fun hm => ?_, rfl, rfl, ?_⟩
  · rw [fDiv, if_pos rfl, if_neg (by omega)]
  · cases x <;> rfl

/-- The fixed roots. -/
theorem fSqrt_fixed (md : Rm) (m : Nat) (e : Int) :
    (∃ v, fSqrt md (.fin true 0 e) = ⟨.fin true 0 v, .none⟩) ∧ fSqrt md (.inf false) = ⟨.inf false, .none⟩ ∧
    (0 < m → fSqrt md (.fin true m e) = ⟨.nan false, .inv⟩) ∧ fSqrt md (.inf true) = ⟨.nan false, .inv⟩ := by
  refine ⟨⟨0, rfl⟩, rfl, fun hm => ?_, rfl⟩
  rw [fSqrt, if_neg (by omega), if_pos rfl]; rfl

/-- The lane of the canonical NaN is one. -/
theorem ofIF36_canonicalNaN : ofIF36 0x7FF800000 = .nan false := by decide

/-- FMIN of a number and a NaN is the number. -/
theorem fMin_number {a : Lane} (h : (ofIF36 a).isNaN = false) : fMinMax true a 0x7FF800000 = ⟨a, .none⟩ := by
  have notSig : (ofIF36 a).isSig = false := by
    cases hx : ofIF36 a with
    | nan s => rw [hx] at h; cases h
    | inf | fin => rfl
  simp only [fMinMax, ofIF36_canonicalNaN, h, notSig]
  rfl

/-- FMAX of a NaN and a number is the number. -/
theorem fMax_number {a : Lane} (h : (ofIF36 a).isNaN = false) : fMinMax false 0x7FF800000 a = ⟨a, .none⟩ := by
  have notSig : (ofIF36 a).isSig = false := by
    cases hx : ofIF36 a with
    | nan s => rw [hx] at h; cases h
    | inf | fin => rfl
  simp only [fMinMax, ofIF36_canonicalNaN, h, notSig]
  rfl

/-- Settles O23: each fixed case is the branch of its function that names it. -/
theorem floatFixedCases : Obligations.FloatFixedCases := by
  refine ⟨fun md p q m n e g x => ?_, by decide, by decide, by decide, fun a => ⟨fun h => ⟨fMin_number h, fMax_number h⟩, classWord_bit a⟩⟩
  obtain ⟨d1, d2, d3, d4, d5, d6⟩ := fDiv_fixed md p q m n e g x
  obtain ⟨r1, r2, r3, r4⟩ := fSqrt_fixed md m e
  refine ⟨d1, d2, d3, d4, d5, r1, r2, r3, r4, rfl, ⟨0, rfl⟩, rfl, ?_, ?_, rfl, ?_, d6⟩
  · cases p <;> rfl
  · rfl
  · cases x <;> rfl

end Sys2Proof.Claims
end

section
/-! SUPPORT. Lane and conversion instructions (R129, R184 to R187). -/

namespace Sys2Proof.Machine

open Sys2Proof.Claims

/-- Tokens whose eight lanes agree are the same. -/
theorem Lanes.ofFn_congr {f g : Nat → Lane} (h : ∀ k, k < 8 → f k = g k) : Lanes.ofFn f = Lanes.ofFn g := by
  simp only [Lanes.ofFn, h 0 (by decide), h 1 (by decide), h 2 (by decide), h 3 (by decide), h 4 (by decide), h 5 (by decide), h 6 (by decide),
    h 7 (by decide)]

/-- The sum over the lanes, exact (R185). -/
theorem sumLanes_eq (t : LaneTy) (v : Lanes) : sumLanes t v = ((List.range 8).map fun k => rdOf t (v.get k)).sum := by
  rw [sumLanes, ← List.sum_eq_foldl, show rd t = rdOf t from funext (rd_eq_rdOf t)]
  rfl

/-- The greatest of the lanes is the number that is one of them and not below any (R185). -/
theorem maxLanes_eq {t : LaneTy} {v : Lanes} {m : Int} (hle : ∀ k, k < 8 → rdOf t (v.get k) ≤ m) (hm : ∃ k, k < 8 ∧ rdOf t (v.get k) = m) :
    maxLanes t v = m := by
  have unfolded : maxLanes t v = max (max (max (max (max (max (max (max (rdOf t (v.get 0)) (rdOf t (v.get 0))) (rdOf t (v.get 1))) (rdOf t (v.get 2)))
      (rdOf t (v.get 3))) (rdOf t (v.get 4))) (rdOf t (v.get 5))) (rdOf t (v.get 6))) (rdOf t (v.get 7)) := by
    rw [maxLanes, show rd t = rdOf t from funext (rd_eq_rdOf t)]
    rfl
  have h0 := hle 0 (by decide)
  have h1 := hle 1 (by decide)
  have h2 := hle 2 (by decide)
  have h3 := hle 3 (by decide)
  have h4 := hle 4 (by decide)
  have h5 := hle 5 (by decide)
  have h6 := hle 6 (by decide)
  have h7 := hle 7 (by decide)
  obtain ⟨k, hk, hm⟩ := hm
  rw [unfolded]
  interval_cases k <;> omega

/-! ### PACK and UNPACK (R187) -/

/-- The field of `n` bits at `r` of a number is that of its low 32 bits, where it lies in them. -/
theorem field_of_low {r n : Nat} (h : r + n ≤ 32) (x : Nat) : x % 2 ^ 32 / 2 ^ r % 2 ^ n = x / 2 ^ r % 2 ^ n := by
  refine Nat.eq_of_testBit_eq fun j => ?_
  simp only [Nat.testBit_mod_two_pow, Nat.testBit_div_two_pow]
  by_cases hj : j < n
  · simp [hj, show j + r < 32 by omega]
  · simp [hj]

/-- The lanes concatenated, 32 bits of each. -/
theorem concatLanes_word (v : Lanes) {q : Nat} (hq : q < 8) : concatLanes v / 2 ^ (32 * q) % 2 ^ 32 = (v.get q).toNat % 2 ^ 32 := by
  have unfolded : concatLanes v = v.l0.toNat % 2 ^ 32 + 2 ^ 32 * (v.l1.toNat % 2 ^ 32 + 2 ^ 32 * (v.l2.toNat % 2 ^ 32 + 2 ^ 32 *
      (v.l3.toNat % 2 ^ 32 + 2 ^ 32 * (v.l4.toNat % 2 ^ 32 + 2 ^ 32 * (v.l5.toNat % 2 ^ 32 + 2 ^ 32 * (v.l6.toNat % 2 ^ 32 + 2 ^ 32 *
      (v.l7.toNat % 2 ^ 32 + 2 ^ 32 * 0))))))) := rfl
  rw [unfolded]
  interval_cases q <;> simp only [Lanes.get] <;> omega

/-- UNPACK's field is read from the lane it stands in. -/
theorem concatLanes_field (v : Lanes) {n k : Nat} (hn : n = 16 ∨ n = 8 ∨ n = 4) (hk : k < 8) :
    concatLanes v / 2 ^ (n * k) % 2 ^ n = (v.get (k * n / 32)).toNat / 2 ^ (k * n % 32) % 2 ^ n := by
  have place : n * k = 32 * (k * n / 32) + k * n % 32 := by rw [Nat.div_add_mod, Nat.mul_comm]
  have inside : k * n % 32 + n ≤ 32 ∧ k * n / 32 < 8 := by rcases hn with rfl | rfl | rfl <;> omega
  rw [place, Nat.pow_add, ← Nat.div_div_eq_div_mul, ← field_of_low inside.1, concatLanes_word v inside.2, field_of_low inside.1]

/-- UNPACK's sign extension. -/
theorem wrapNat_sext {n y : Nat} (hn : n = 16 ∨ n = 8 ∨ n = 4) (hy : y < 2 ^ n) :
    wrapNat 32 (sext n y) = if 2 ^ (n - 1) ≤ y then y + 2 ^ 32 - 2 ^ n else y := by
  rcases hn with rfl | rfl | rfl <;> simp only [wrapNat, sext] <;> split_ifs <;> omega

/-- Fields concatenated, lowest first, are a number with those digits. -/
theorem foldr_fields (n : Nat) (xs : List Lane) :
    xs.foldr (fun x acc => x.toNat % 2 ^ n + 2 ^ n * acc) 0 = Nat.ofDigits (2 ^ n) (xs.map fun x => x.toNat % 2 ^ n) := by
  induction xs with
  | nil => rfl
  | cons x xs ih => rw [List.foldr_cons, ih, List.map_cons, Nat.ofDigits_cons]

/-- A word of 32 bits of the concatenated fields is made of the fields that stand in it. -/
theorem word_of_fields {n m : Nat} (hm : n * m = 32) (xs : List Lane) (k : Nat) :
    xs.foldr (fun x acc => x.toNat % 2 ^ n + 2 ^ n * acc) 0 / 2 ^ (32 * k) % 2 ^ 32 =
      Nat.ofDigits (2 ^ n) (((xs.map fun x => x.toNat % 2 ^ n).drop (m * k)).take m) := by
  have lt : ∀ d ∈ xs.map fun x => x.toNat % 2 ^ n, d < 2 ^ n := by
    intro d hd
    obtain ⟨x, -, rfl⟩ := List.mem_map.1 hd
    exact Nat.mod_lt _ (Nat.two_pow_pos _)
  rw [foldr_fields, show 2 ^ (32 * k) = (2 ^ n) ^ (m * k) by rw [← Nat.pow_mul, ← Nat.mul_assoc, hm],
    show (2 : Nat) ^ 32 = (2 ^ n) ^ m by rw [← Nat.pow_mul, hm], Nat.ofDigits_div_pow_eq_ofDigits_drop _ (Nat.two_pow_pos _) _ lt,
    Nat.ofDigits_mod_pow_eq_ofDigits_take _ (Nat.two_pow_pos _) _ fun d hd => lt d (List.mem_of_mem_drop hd)]

/-- A number whose digits are given in order is their sum by place. -/
theorem ofDigits_range (b m : Nat) (g : Nat → Nat) : Nat.ofDigits b ((List.range m).map g) = ((List.range m).map fun j => g j * b ^ j).sum := by
  induction m with
  | zero => rfl
  | succ m ih => simp [List.range_succ, Nat.ofDigits_append, ih, Nat.mul_comm]

/-- A stretch of a list given by a function. -/
theorem take_drop_range {α : Type} (g : Nat → α) {n a m : Nat} (h : a + m ≤ n) :
    (((List.range n).map g).drop a).take m = (List.range m).map fun j => g (a + j) := by
  refine List.ext_getElem (by simp; omega) fun j h1 h2 => ?_
  simp

/-- PACK's low words, by the width of its fields. -/
theorem packLanes_eq (v : Lanes) {c w : Nat} (hc : c < 3) (hw : w = [16, 8, 4].getD c 4) :
    packLanes c v = Lanes.ofFn fun k =>
      if k < w / 4 then BitVec.ofNat 36 (((List.range (32 / w)).map fun j => (v.get (32 / w * k + j)).toNat % 2 ^ w * 2 ^ (w * j)).sum) else 0 := by
  have cases : w = 16 ∨ w = 8 ∨ w = 4 := by
    interval_cases c <;> simp_all
  have width : packWidth c = w := by
    interval_cases c <;> simp_all [packWidth]
  have whole : w * (32 / w) = 32 := by rcases cases with rfl | rfl | rfl <;> rfl
  have lanes : v.toList.map (fun x => x.toNat % 2 ^ w) = (List.range 8).map fun i => (v.get i).toNat % 2 ^ w := rfl
  rw [packLanes, width]
  refine Lanes.ofFn_congr fun k hk => ?_
  rw [word_of_fields whole, lanes]
  split
  · next hlt =>
    rw [take_drop_range _ (by rcases cases with rfl | rfl | rfl <;> omega), ofDigits_range]
    simp only [Nat.pow_mul]
  · next hge =>
    rw [List.drop_eq_nil_of_le (by rw [List.length_map, List.length_range]; rcases cases with rfl | rfl | rfl <;> omega), List.take_nil]
    rfl

/-- UNPACK's lanes, by the width of its fields. -/
theorem unpackLanes_eq (v : Lanes) {c w : Nat} (hc : c < 3) (hw : w = [16, 8, 4].getD c 4) (sx : Bool) :
    unpackLanes c sx v = Lanes.ofFn fun k =>
      let x := (v.get (k * w / 32)).toNat / 2 ^ (k * w % 32) % 2 ^ w
      BitVec.ofNat 36 (if sx = true ∧ 2 ^ (w - 1) ≤ x then x + 2 ^ 32 - 2 ^ w else x) := by
  have cases : w = 16 ∨ w = 8 ∨ w = 4 := by
    interval_cases c <;> simp_all
  have width : packWidth c = w := by
    interval_cases c <;> simp_all [packWidth]
  rw [unpackLanes, width]
  refine Lanes.ofFn_congr fun k hk => ?_
  dsimp only
  rw [concatLanes_field v cases hk]
  cases sx with
  | false => simp
  | true =>
    rw [if_pos rfl, wrapNat_sext cases (Nat.mod_lt _ (Nat.two_pow_pos _))]
    simp

end Sys2Proof.Machine

namespace Sys2Proof.Claims

open Sys2Proof.Machine

/-- An instruction that moves the lanes of port a sends them, without flags. -/
theorem computes_laneMove {z : FiringAt} {f : Fab} {i : Instr} {mv : Firing → Lanes → Lanes} {v : Firing → Nat → Lane}
    (he : exec i z.s = laneMove i f z.s mv) (hv : ∀ fr, mv fr (fr.lanesOf .a) = Lanes.ofFn (v fr)) :
    z.computes f i (fun _ => f.ty) quiet plain v :=
  FiringAt.computes_of_exec he fun fr => by rw [Computed.plain, hv]; rfl

/-- Settles O24: the moves lane by lane, the sums and maxima as the trees of R129, PACK and UNPACK by the fields of the concatenated lanes. -/
theorem laneInstructions : Obligations.LaneInstructions := by
  intro f z
  refine ⟨?perm, ?bcast, ?lrot, fun ht => ⟨?lsum, fun m hm => ?lmax⟩, fun hf => ?fmax, ?flsum, ?fldot, ?cvt, fun hw => ⟨?pack, ?unpack⟩⟩
  case perm => exact computes_laneMove (rfl : execPerm f z.s = _) fun fr => by simp only [permLanes, apply_ite (· % 8)]
  case bcast => exact computes_laneMove (rfl : execBcast f z.s = _) fun fr => rfl
  case lrot => exact computes_laneMove (rfl : execLrot f z.s = _) fun fr => rfl
  case lsum => exact computes_laneMove (rfl : execLsum f z.s = _) fun fr => by rw [wr_eq_wrOf, sumLanes_eq]; rfl
  case lmax =>
    refine FiringAt.computes_of_exec (rfl : execLmax f z.s = _) fun fr => ?_
    obtain ⟨hle, hex⟩ := hm fr
    rw [if_neg (fun h => by rw [h] at ht; revert ht; decide), wr_eq_wrOf, maxLanes_eq hle hex]
    rfl
  case fmax =>
    refine FiringAt.computes_of_exec (rfl : execLmax f z.s = _) fun fr => ?_
    rw [if_pos hf]
    rfl
  case flsum => exact FiringAt.computes_of_exec (rfl : execFlsum f z.s = _) fun fr => rfl
  case fldot => exact FiringAt.computes_of_exec (rfl : execFldot f z.s = _) fun fr => rfl
  case cvt => exact FiringAt.computes_of_exec (rfl : execCvt f z.s = _) fun fr => rfl
  case pack => exact computes_laneMove (rfl : execPack f z.s = _) fun fr => packLanes_eq _ hw rfl
  case unpack =>
    exact computes_laneMove (rfl : execUnpack f z.s = _) fun fr => unpackLanes_eq _ hw rfl _

end Sys2Proof.Claims
end

section
/-! SUPPORT. Firings whose effect is an equation: what an instruction gives, from the effect its firing has on the region that has just been put
(R63, R64, R70). -/

namespace Sys2Proof.Claims

open Sys2Proof.Machine

/-- The region as an ordinary firing finds it: the set is emitted and what interpolation raised is raised. -/
def FiringAt.left (z : FiringAt) (i : Instr) (ty : Port → LaneTy) : Region := (z.fired i).raise z.slot z.ctx (z.ops i ty).interpFlags

section
variable {z : FiringAt} {f : Fab} {i : Instr} {ty : Port → LaneTy} {j : Firing → Judged} {act : State → Nat → Nat → Nat → Firing → State}
  {other : State → Nat → Nat → Firing → Token → State} {fin : State → Nat → Nat → Token → State} {out : Region → Firing → State}

/-- An instruction that fires where it is ready gives what its effect is on the region as the firing finds it. -/
theorem FiringAt.gives_of_ready (he : z.Ready i ty → exec i z.s = fireWith i ty j act other fin z.s)
    (ha : z.Ready i ty → act (z.s.setRegion z.rid (z.left i ty)) z.rid z.slot z.ctx (z.ops i ty) = out (z.left i ty) (z.ops i ty)) :
    z.gives i ty j out := by
  intro hr ⟨hu, hp⟩ hj
  rw [he hr, fireWith_judged hr.focus hr.region hr.live hr.next hr.span hr.ready hu hp]
  have hj' : j (z.set.firing i ty z.span) = .ordinary := hj
  rw [hj']
  exact congrArg Host.Outcome.next (ha hr)

/-- The same of an instruction that fires, ready or not. -/
theorem FiringAt.gives_of_fireWith (he : exec i z.s = fireWith i ty j act other fin z.s)
    (ha : z.Ready i ty → act (z.s.setRegion z.rid (z.left i ty)) z.rid z.slot z.ctx (z.ops i ty) = out (z.left i ty) (z.ops i ty)) :
    z.gives i ty j out :=
  gives_of_ready (fun _ => he) ha

/-- The same of an instruction whose null and fault results go to both targets. -/
theorem FiringAt.gives_of_fire (he : exec i z.s = fire i f ty z.s act)
    (ha : z.Ready i ty → act (z.s.setRegion z.rid (z.left i ty)) z.rid z.slot z.ctx (z.ops i ty) = out (z.left i ty) (z.ops i ty)) :
    z.gives i ty (judge f.pm) out :=
  gives_of_fireWith he ha

/-- An instruction that sends both targets a token that depends on the firing's context. -/
theorem FiringAt.gives_token {x : Nat → Firing → Token} {t : Firing → Token} (he : exec i z.s = fire i f ty z.s fun s rid _ ctx fr => toBoth f s rid (x ctx fr))
    (ht : x z.ctx (z.ops i ty) = t (z.ops i ty)) :
    z.gives i ty (judge f.pm) fun r fr => z.s.setRegion z.rid (r.sendBoth f (t fr)) :=
  gives_of_fire he fun _ => by rw [toBoth_setRegion, ht]

end

/-- A port's operand passed on is that token forwarded (R139). -/
theorem pass_eq_forwards {z : FiringAt} {fr : Firing} {k : Port} {t : Token} (h : fr.on k = some t) : fr.pass z.ctx k = forwards z fr t := by
  simp only [Firing.pass, h]; rfl

end Sys2Proof.Claims

namespace Sys2Proof.Machine

/-- A token sent to one target of a word of a region that has just been put. -/
theorem toOne_setRegion (x : Option Target) (s : State) (k : Nat) (r : Region) (t : Token) :
    toOne x (s.setRegion k r) k t = s.setRegion k (r.send x t) := by simp [toOne]

/-- The predicate value of a control token that is there. -/
theorem Firing.control_of_on {fr : Firing} {k : Port} {c : Token} (h : fr.on k = some c) : fr.control k = c.pred := by simp [control, h]

end Sys2Proof.Machine
end

section
/-! SUPPORT. O25: tokens made and forwarded. -/

namespace Sys2Proof.Claims

open Sys2Proof.Machine

/-- Every lane of an unvarying vector is its value. -/
theorem all_eq_ofFn (x : Lane) : Lanes.all x = Lanes.ofFn fun _ => x := rfl

/-- ENDS forwards a's token, and closes the nested stream behind it where its control is true (R152). -/
theorem ends_gives {f : Fab} {z : FiringAt} {t u : Token} (ha : (z.ops (.ends f) fun _ => f.ty).a = some t)
    (hb : (z.ops (.ends f) fun _ => f.ty).b = some u) :
    z.gives (.ends f) (fun _ => f.ty) (judge f.pm) fun r fr =>
      if u.pred = .true then z.s.setRegion z.rid ((r.sendBoth f (forwards z fr t)).sendBoth f (endToken z.ctx fr.span.hi (bits f.imm.toNat 2 0)))
      else z.s.setRegion z.rid (r.sendBoth f (forwards z fr t)) := by
  refine FiringAt.gives_of_fire (rfl : exec _ _ = execEnds f z.s) fun _ => ?_
  simp only [pass_eq_forwards (show Firing.on _ .a = _ from ha), Firing.control_of_on (show Firing.on _ .b = _ from hb), toBoth_setRegion]

/-- Settles O25: each is a firing that sends its token to both targets. -/
theorem tokensMadeAndForwarded : Obligations.TokensMadeAndForwarded := by
  intro f z t
  refine ⟨?const, ?nullgen, ?copy, ?gate, ?drop, ?join, ?ord, ?fence, ?ends⟩
  case const => exact FiringAt.computes_of_exec (rfl : exec _ _ = execConst f z.s) fun _ => rfl
  case nullgen => exact FiringAt.gives_token (rfl : exec _ _ = execNullgen f z.s) rfl
  case copy => exact fun ha => FiringAt.gives_token (rfl : exec _ _ = execCopy f z.s) (pass_eq_forwards (k := .a) ha)
  case gate => exact fun ha => FiringAt.gives_token (rfl : exec _ _ = execGate f z.s) (pass_eq_forwards (k := .a) ha)
  case drop => exact FiringAt.gives_of_fireWith (rfl : exec _ _ = execDrop f z.s) fun _ => rfl
  case join => exact FiringAt.gives_token (rfl : exec _ _ = execJoin f z.s) rfl
  case ord => exact FiringAt.gives_token (rfl : exec _ _ = execOrd f z.s) rfl
  case fence => exact FiringAt.gives_token (rfl : exec _ _ = execFence f z.s) rfl
  case ends =>
    refine fun ha => ⟨fun u hb hu => ?_, fun u hb hu => ?_⟩
    · simpa only [if_neg hu] using ends_gives ha hb
    · simpa only [if_pos hu] using ends_gives ha hb

end Sys2Proof.Claims
end

section
/-! SUPPORT. O26: tokens routed by a control token. -/

namespace Sys2Proof.Claims

open Sys2Proof.Machine

section
variable {f : Fab} {z : FiringAt} {t c : Token} {out : Region → Firing → State}

/-- STEER's effect, by the predicate value of its control (R145). -/
theorem steer_gives (ha : (z.ops (.steer f) fun _ => f.ty).a = some t) (hb : (z.ops (.steer f) fun _ => f.ty).b = some c)
    (ho : ∀ r fr, (match c.pred with
      | .true => let r1 := r.send f.t0 (forwards z fr t); z.s.setRegion z.rid (if bit f.sub.toNat 0 then r1.send f.t1 (fr.nullResult z.ctx) else r1)
      | .false => z.s.setRegion z.rid ((if bit f.sub.toNat 0 then r.send f.t0 (fr.nullResult z.ctx) else r).send f.t1 (forwards z fr t))
      | _ => z.s.setRegion z.rid (r.sendBoth f (fr.nullResult z.ctx))) = out r fr) :
    z.gives (.steer f) (fun _ => f.ty) (judge f.pm) out := by
  refine FiringAt.gives_of_fire (rfl : exec _ _ = execSteer f z.s) fun _ => ?_
  rw [← ho]
  simp only [pass_eq_forwards (show Firing.on _ .a = _ from ha), Firing.control_of_on (show Firing.on _ .b = _ from hb), toBoth_setRegion, toOne_setRegion]
  cases c.pred with
  | none => rfl
  | null => rfl
  | true => dsimp only; split_ifs <;> rfl
  | false => dsimp only; split_ifs <;> simp only [toOne_setRegion]

/-- LEXIT's effect, by the predicate value of its control (R151). -/
theorem lexit_gives (ha : (z.ops (.lexit f) fun _ => f.ty).a = some t) (hb : (z.ops (.lexit f) fun _ => f.ty).b = some c)
    (ho : ∀ r fr, (match c.pred with
      | .true => z.s.setRegion z.rid ((r.send f.t0 (forwards z fr t)).send f.t1 (fr.nullResult z.ctx))
      | .false => z.s.setRegion z.rid (r.send f.t1 (forwards z fr t))
      | _ => z.s.setRegion z.rid (r.sendBoth f (fr.nullResult z.ctx))) = out r fr) :
    z.gives (.lexit f) (fun _ => f.ty) (judge f.pm) out := by
  refine FiringAt.gives_of_fire (rfl : exec _ _ = execLexit f z.s) fun _ => ?_
  rw [← ho]
  simp only [pass_eq_forwards (show Firing.on _ .a = _ from ha), Firing.control_of_on (show Firing.on _ .b = _ from hb), toBoth_setRegion, toOne_setRegion] <;>
    cases c.pred <;> rfl

end

/-! ### SEL -/

/-- No operand but the predicate is a FAULT token: a firing without a predicate port is null or ordinary (R71). -/
theorem judge_of_noFault {pm : Pm} {fr : Firing} {t u c : Token} (ha : fr.a = some t) (hb : fr.b = some u) (hc : fr.c = some c) (hp : fr.p = none)
    (ht : t.kind ≠ .fault) (hu : u.kind ≠ .fault) (hk : c.kind ≠ .fault) :
    judge pm fr = if t.kind = .null ∨ u.kind = .null ∨ c.kind = .null then .null else .ordinary := by
  simp [judge, hp, judgeOperands, ha, hb, hc, ht, hu, hk]

/-- Token mode of SEL treats a NULL operand itself (R148). -/
theorem judgeSel_token {f : Fab} {fr : Firing} (hp : fr.p = none) (hs : bit f.sub.toNat 0 = false)
    (hj : judge f.pm fr = .null ∨ judge f.pm fr = .ordinary) : judgeSel f fr = .ordinary := by
  rcases hj with hj | hj <;> simp [judgeSel, hj, hs, hp]

/-- An operand that SEL chooses: a NULL token gives NULL (R148). -/
def chosen (z : FiringAt) (fr : Firing) (t : Token) : Token := if t.kind = .null then fr.nullResult z.ctx else forwards z fr t

section
variable {f : Fab} {z : FiringAt} {t u c : Token} {out : Region → Firing → State}

/-- The choice of SEL in token mode, by the predicate value of its control (R148). -/
theorem sel_token_gives (hs : bit f.sub.toNat 0 = false) (ha : (z.ops (.sel f) fun _ => f.ty).a = some t)
    (hb : (z.ops (.sel f) fun _ => f.ty).b = some u) (hc : (z.ops (.sel f) fun _ => f.ty).c = some c) :
    z.gives (.sel f) (fun _ => f.ty) (judgeSel f) fun r fr => z.s.setRegion z.rid (r.sendBoth f (match c.pred with
      | .true => chosen z fr t
      | .false => chosen z fr u
      | _ => fr.nullResult z.ctx)) := by
  refine FiringAt.gives_of_fireWith (rfl : exec _ _ = execSel f z.s) fun _ => ?_
  simp only [hs, pass_eq_forwards (show Firing.on _ .a = _ from ha), pass_eq_forwards (show Firing.on _ .b = _ from hb),
    Firing.control_of_on (show Firing.on _ .c = _ from hc), toBoth_setRegion]
  cases c.pred <;> rfl

/-- Lane mode of SEL (R148). -/
theorem sel_lane_gives (hs : bit f.sub.toNat 0 = true) :
    z.gives (.sel f) (fun _ => f.ty) (judgeSel f) fun r fr => z.s.setRegion z.rid (r.sendBoth f (fr.result z.ctx .data .none (selLanes fr))) := by
  refine FiringAt.gives_of_fireWith (rfl : exec _ _ = execSel f z.s) fun _ => ?_
  simp only [hs, toBoth_setRegion, if_true]

/-- The lanes that lane mode chooses (R148). -/
theorem selLanes_eq {fr : Firing} (ha : fr.a = some t) (hb : fr.b = some u) (hc : fr.c = some c) :
    selLanes fr = Lanes.ofFn fun k => if (c.lanes.get k).toNat % 2 = 1 then t.lanes.get k else u.lanes.get k := by
  simp [selLanes, Firing.lanesOf, Firing.on, ha, hb, hc]

end

/-- Settles O26: STEER and LEXIT by the four predicate values of their control, SEL by its mode. -/
theorem controlTokensRoute : Obligations.ControlTokensRoute := by
  intro f z t u c
  refine ⟨fun ha hb => ⟨fun hc hs => ?_, fun hc hs => ?_, fun hc hs => ?_, fun hc hs => ?_, fun hc => ?_⟩,
    fun ha hb => ⟨fun hc => ?_, fun hc => ?_, fun hc => ?_⟩, fun ha hb hc hp ht hu hk hR hS => ⟨fun hs => ⟨fun hv => ?_, fun hv => ?_, fun hv => ?_⟩, ?_⟩⟩
  · exact steer_gives ha hb fun r fr => by simp only [hc, bit, hs]; rfl
  · exact steer_gives ha hb fun r fr => by simp only [hc, bit, hs]; rfl
  · exact steer_gives ha hb fun r fr => by simp only [hc, bit, hs]; rfl
  · exact steer_gives ha hb fun r fr => by simp only [hc, bit, hs]; rfl
  · exact steer_gives ha hb fun r fr => by rcases hc with hc | hc <;> simp only [hc] <;> rfl
  · exact lexit_gives ha hb fun r fr => by simp only [hc]; rfl
  · exact lexit_gives ha hb fun r fr => by simp only [hc]
  · exact lexit_gives ha hb fun r fr => by rcases hc with hc | hc <;> simp only [hc] <;> rfl
  all_goals have hj := judge_of_noFault (pm := f.pm) ha hb hc hp ht hu hk
  · exact (sel_token_gives hs ha hb hc hR hS (judgeSel_token hp hs (by rw [hj]; split_ifs <;> simp))).trans (by simp only [hv]; rfl)
  · exact (sel_token_gives hs ha hb hc hR hS (judgeSel_token hp hs (by rw [hj]; split_ifs <;> simp))).trans (by simp only [hv]; rfl)
  · refine (sel_token_gives hs ha hb hc hR hS (judgeSel_token hp hs (by rw [hj]; split_ifs <;> simp))).trans ?_
    rcases hv with hv | hv <;> simp only [hv] <;> rfl
  · intro hs htn hun hcn
    rw [← selLanes_eq ha hb hc]
    exact sel_lane_gives hs hR hS (by simp [judgeSel, hj, htn, hun, hcn])

end Sys2Proof.Claims
end

section
/-! SUPPORT. Slots that do not fire by R63: the step of a slot in focus, the dual check that holds, and the head of a port's queue. -/

namespace Sys2Proof.Machine

open Sys2Proof.Claims

/-- A slot in focus of a region whose clock runs takes its step. -/
theorem atSlot_eq {s : State} {rid slot ctx : Nat} {r : Region} (h : AtSlot s rid slot ctx r) (step : State → Nat → Nat → Nat → Region → State) :
    atSlot s step = .next (step s rid slot ctx r) := by
  obtain ⟨hf, hr, hl, -⟩ := h
  simp [atSlot, hf, hr, hl]

/-- A token whose two computations agree is what was formed (R396). -/
theorem checked_none {s : State} (h : s.upset = .none) (rid slot ctx : Nat) (r : Region) (t : Token) (step : State → State) :
    checked s rid slot ctx r t step = step s := by simp [checked, h]

/-- The head of a port in the matching store is the head of its queue. -/
theorem head_of_headIs {x : PortState} {t : Token} (h : headIs x t) : x.head = some t := by
  obtain ⟨p, ws, hw, hp⟩ := h
  simp [PortState.head, hw, hp]

/-- It is the first token of the queue. -/
theorem first_of_headIs {x : PortState} {t : Token} (h : headIs x t) : x.first = some t := by
  obtain ⟨p, ws, hw, -⟩ := h
  simp [PortState.first, hw]

/-- A port where nothing waits has no head. -/
theorem head_of_noneWaits {x : PortState} (h : noneWaits x) : x.head = none := by simp [PortState.head, show x.waiting = [] from h]

/-- A token that is not an END. -/
theorem isEnd_of_ne {t : Token} (h : t.kind ≠ .fin) : t.isEnd = false := by simp [Token.isEnd, h]

/-- Where the head of port a is no END, the two ports do not both hold END. -/
theorem bothEnds_of_head {n : Node} {t : Token} (ha : headIs n.a t) (hk : t.kind ≠ .fin) : n.bothEnds = none := by
  simp only [Node.bothEnds, head_of_headIs ha]
  cases n.b.head <;> simp [isEnd_of_ne hk]

end Sys2Proof.Machine
end

section
/-! SUPPORT. O27: MERGE in its three modes. -/

namespace Sys2Proof.Claims

open Sys2Proof.Machine

/-- A paired MERGE forwards the operand that R146 names. -/
theorem merge_paired_gives {f : Fab} {z : FiringAt} (hs : f.sub = 0) : z.gives (.merge f) (fun _ => f.ty) judgeFaults fun r fr =>
    z.s.setRegion z.rid (r.sendBoth f (fr.merged z.ctx)) :=
  FiringAt.gives_of_fireWith ((rfl : exec _ _ = execMerge f z.s).trans (if_pos hs)) fun _ => toBoth_setRegion ..

/-- The operand that a paired MERGE forwards of two DATA or NULL operands (R146). -/
theorem merged_eq {z : FiringAt} {fr : Firing} {t u : Token} (ha : fr.a = some t) (hb : fr.b = some u) (hu : u.kind = .data ∨ u.kind = .null)
    (ht : t.kind = .data ∨ t.kind = .null) :
    fr.merged z.ctx = if t.kind = .data then forwards z fr t else if u.kind = .data then forwards z fr u else fr.nullResult z.ctx := by
  have hpa : fr.pass z.ctx .a = forwards z fr t := pass_eq_forwards ha
  have hpb : fr.pass z.ctx .b = forwards z fr u := pass_eq_forwards hb
  rcases ht with ht | ht <;> rcases hu with hu | hu <;> simp [Firing.merged, ha, hb, hpa, hpb, ht, hu]

/-- DATA and NULL operands make no fault firing. -/
theorem judgeFaults_pair {fr : Firing} {t u : Token} (ha : fr.a = some t) (hb : fr.b = some u) (hc : fr.c = none) (hp : fr.p = none)
    (ht : t.kind = .data ∨ t.kind = .null) (hu : u.kind = .data ∨ u.kind = .null) : judgeFaults fr = .ordinary := by
  rcases ht with ht | ht <;> rcases hu with hu | hu <;> simp [judgeFaults, Firing.operands, ha, hb, hc, hp, ht, hu]

section
variable {f : Fab} {s : State} {rid slot ctx : Nat} {r : Region} {t : Token}

/-- An unpaired MERGE takes a step of its own. -/
theorem merge_step (hat : AtSlot s rid slot ctx r) (hs : f.sub ≠ 0) : exec (.merge f) s = .next (mergeStep f s rid slot ctx r) :=
  ((rfl : exec _ _ = execMerge f s).trans (if_neg hs)).trans (atSlot_eq hat _)

/-- In arrival mode it is port a's turn where a's token arrived first. -/
theorem mergeTurn_arrival {n : Node} (ha : headIs n.a t) (hk : t.kind ≠ .fin) (ho : n.order.head? = some false) : n.mergeTurn false = some false := by
  obtain ⟨os, hos⟩ := List.head?_eq_some_iff.1 ho
  simp [Node.mergeTurn, hos, head_of_headIs ha, isEnd_of_ne hk]

/-- In rrobin mode it is port a's turn where its last token was not a's. -/
theorem mergeTurn_rrobin {n : Node} (ha : headIs n.a t) (hk : t.kind ≠ .fin) (ho : n.turnB = false) : n.mergeTurn true = some false := by
  simp [Node.mergeTurn, ho, head_of_headIs ha, isEnd_of_ne hk]

/-- A MERGE step at port a's turn restamps its token, or has no closed span left (R146; log 158). -/
theorem mergeStep_a (hat : AtSlot s rid slot ctx r) (ha : headIs (r.node slot ctx).a t) (hn : t.kind ≠ .null) (hk : t.kind ≠ .fin)
    (ht : (r.node slot ctx).mergeTurn (decide (f.sub = 2)) = some false) :
    let n := r.node slot ctx
    mergeStep f s rid slot ctx r =
      if 0xFFFFFFFFFE < n.count + 1 then s.regionFault rid codeSpanEmpty ⟨slot, 0, ctx, ⟨n.count, n.count⟩, [(0, t)], 0, 0⟩
      else s.setRegion rid ((r.setNode slot ctx { n with a := behindHead n.a, count := n.count + 1, turnB := true, order := n.order.erase false }).sendBoth f
        { t with lo := n.count, hi := n.count + 1, interp := false }) := by
  obtain ⟨-, -, -, hu⟩ := hat
  simp only [mergeStep, bothEnds_of_head ha hk, ht, Bool.false_eq_true, if_false, head_of_headIs ha, isEnd_of_ne hk, checked_none hu, toBoth_setRegion, if_neg hn]
  rfl

end

/-- Settles O27: the paired firing by the kinds of its operands, a step of the other modes by whose turn it is and the count. -/
theorem mergeForwardsOrRestamps : Obligations.MergeForwardsOrRestamps := by
  refine ⟨fun f z t u hs hR hS ha hb hc hp => ⟨fun ht hu => ?_, fun ht hu => ?_, fun ht hu => ?_, fun ht hu => ?_⟩, fun f s rid slot ctx r t hat hn hk => ⟨?arrival, ?rrobin, ?past⟩⟩
  case arrival =>
    intro hs ha ho hc
    have hs2 : decide (f.sub = 2) = false := by simp [hs]
    rw [merge_step hat (by simp [hs]), mergeStep_a hat ha hn hk (by rw [hs2]; exact mergeTurn_arrival ha hk ho), if_neg (by omega)]
    obtain ⟨os, hos⟩ := List.head?_eq_some_iff.1 ho
    simp only [hos, List.tail_cons, List.erase_cons_head]
  case rrobin =>
    intro hs ha ho hc
    have hs2 : decide (f.sub = 2) = true := by simp [hs]
    rw [merge_step hat (by simp [hs]), mergeStep_a hat ha hn hk (by rw [hs2]; exact mergeTurn_rrobin ha hk ho), if_neg (by omega)]
  case past =>
    intro hs ha ho hb hc
    have ht : (r.node slot ctx).mergeTurn (decide (f.sub = 2)) = some false := by
      cases decide (f.sub = 2)
      · exact mergeTurn_arrival ha hk ho
      · exact mergeTurn_rrobin ha hk hb
    rw [merge_step hat (by rcases hs with hs | hs <;> simp [hs]), mergeStep_a hat ha hn hk ht, if_pos (by omega)]
  all_goals
    refine (merge_paired_gives hs hR hS (judgeFaults_pair ha hb hc hp (by simp [ht]) (by simp [hu]))).trans ?_
    dsimp only
    rw [merged_eq ha hb (by simp [hu]) (by simp [ht])]
    simp [ht, hu, Firing.nullResult]

end Sys2Proof.Claims
end

section
/-! SUPPORT. O28: steps of OMERGE, LCARRY and RANGE expand. -/

namespace Sys2Proof.Claims

open Sys2Proof.Machine

section
variable {f : Fab} {s : State} {rid slot ctx : Nat} {r : Region} {t u : Token}

/-- OMERGE picks a's token where it is not above b's and b has passed its end (R147). -/
theorem omergeNext_a {n : Node} (ha : headIs n.a t) (hb : headIs n.b u) (ht : t.kind ≠ .fin) (hu : u.kind ≠ .fin) (hlo : t.lo ≤ u.lo)
    (hre : t.hi ≤ n.b.reachNow) : n.omergeNext = some (false, t) := by
  have keep : ∀ x : Token, x.kind ≠ .fin → (some x).filter (fun t => !t.isEnd) = some x := fun x hx => by simp [Option.filter, isEnd_of_ne hx]
  simp only [Node.omergeNext, first_of_headIs ha, first_of_headIs hb, keep t ht, keep u hu, if_pos hlo]
  simp [Option.filter, hre, head_of_headIs ha]

/-- A step of LCARRY at an entry token that starts an instance (R150). -/
theorem lcarry_entry (hat : AtSlot s rid slot ctx r) (hb : noneWaits (r.node slot ctx).b) (ha : headIs (r.node slot ctx).a t) :
    exec (.lcarry f) s = .next (entryToken f s rid slot ctx r (r.node slot ctx) t) := by
  refine (atSlot_eq hat _).trans ?_
  simp only [lcarryStep, head_of_noneWaits hb, head_of_headIs ha, checked_none hat.2.2.2]

/-- A step of LCARRY at a token of its back edge (R150). -/
theorem lcarry_back (hat : AtSlot s rid slot ctx r) (hb : headIs (r.node slot ctx).b u) :
    exec (.lcarry f) s = .next (backToken f s rid slot ctx r (r.node slot ctx) u) := by
  refine (atSlot_eq hat _).trans ?_
  simp only [lcarryStep, head_of_headIs hb, checked_none hat.2.2.2]

end

/-- The iteration of a range: its lane 7 is its index, the others are the range's (R156). -/
theorem rangeItem_spec (t : Token) : (rangeItem t).kind = .data ∧ (rangeItem t).lo = t.lo ∧ (rangeItem t).hi = t.lo + 1 ∧
    ((rangeItem t).lanes.get 7).toNat = t.lo % 2 ^ 32 ∧ ∀ k, k < 7 → (rangeItem t).lanes.get k = t.lanes.get k := by
  refine ⟨rfl, rfl, rfl, ?_, fun k hk => ?_⟩
  · show (BitVec.ofNat 36 (t.lo % 2 ^ 32)).toNat = _
    rw [BitVec.toNat_ofNat]
    exact Nat.mod_eq_of_lt (by omega)
  · interval_cases k <;> rfl

/-- Settles O28: the step of each stream instruction, by the tokens at the heads of its ports and its node. -/
theorem streamsMergeCarryExpand : Obligations.StreamsMergeCarryExpand := by
  intro f s rid slot ctx r t u hat
  have hup := hat.2.2.2
  refine ⟨?omerge, ?entry, ?back, ?null, ?fin, ?next, ?last, ?take, rangeItem_spec t⟩
  case omerge =>
    intro ha hb ht hu hlo hre hord
    refine (atSlot_eq hat _).trans ?_
    simp only [omergeStep, bothEnds_of_head ha ht, omergeNext_a ha hb ht hu hlo hre, if_neg (Nat.not_lt.2 hord), checked_none hup, toBoth_setRegion,
      Bool.false_eq_true, if_false]
    rfl
  case entry =>
    intro hb ha hk hl hord
    rw [lcarry_entry hat hb ha]
    rcases hk with hk | hk <;> simp [entryToken, hk, hl, Token.isEnd, Nat.not_lt.2 hord, toBoth_setRegion] <;> rfl
  case back =>
    intro hb hk hl hlo hhi hc
    rw [lcarry_back hat hb]
    simp [backToken, hk, hl, hlo, hhi, Token.isEnd, Nat.not_lt.2 hc, toBoth_setRegion]
    rfl
  case null =>
    intro hb hk hl hlo hhi
    rw [lcarry_back hat hb]
    simp [backToken, hk, hl, hlo, hhi, Token.isEnd]
    rfl
  case fin =>
    intro hb hk
    rw [lcarry_back hat hb]
    simp [backToken, hk, Token.isEnd]
    rfl
  case next =>
    intro hr hlt
    refine (atSlot_eq hat _).trans ?_
    simp [rangeStep, hr, checked_none hup, Nat.not_le.2 hlt]
  case last =>
    intro hr heq
    refine (atSlot_eq hat _).trans ?_
    simp [rangeStep, hr, checked_none hup, heq.le]
  case take =>
    intro hr ha hk
    refine (atSlot_eq hat _).trans ?_
    simp [rangeStep, hr, head_of_headIs ha, hk]
    rfl

end Sys2Proof.Claims
end

section
/-! SUPPORT. O29: INPUT delivers, OUTPUT sends. -/

namespace Sys2Proof.Claims

open Sys2Proof.Machine

section
variable {f : Fab} {s : State} {rid slot ctx : Nat} {r : Region} {t : Token}

/-- An INPUT with nothing to replay and no upset, fed by nothing, delivers a token of its own (R141). -/
theorem input_unfed (hat : AtSlot s rid slot ctx r) (hp : takeFirst (fun e => decide (e.1 = bits f.imm.toNat 3 0)) r.pendingReplay = none)
    (hf : feedKind s r f = .unfed) : exec (.input f) s = .next (unfedInput s rid slot r f) := by
  rw [show exec (.input f) s = execInput f s from rfl, execInput, atSlot_eq hat]
  simp only [hp, hf, checked_none hat.2.2.2]

/-- A token within the 64 that an input keeps is kept (R400). -/
theorem retain_of_lt {n : Nat} (h : (r.retained.filter fun e => e.1 = n).length < 64) : r.retain n t = { r with retained := r.retained ++ [(n, t)] } := by
  simp only [Region.retain, if_neg (Nat.not_le.2 h)]

/-- A token that is no END is delivered and nothing else changes (R141). -/
theorem deliverInput_of_ne (h : t.kind ≠ .fin) : r.deliverInput f slot t = r.sendBoth f t := by simp [Region.deliverInput, h]

/-- An OUTPUT takes the token at its head (R142). -/
theorem output_head (hat : AtSlot s rid slot ctx r) (ha : headIs (r.node slot ctx).a t) :
    let n := r.node slot ctx
    let m := (r.setNode slot ctx { n with a := behindHead n.a, left := n.left || (decide (t.kind = .fin) && decide (t.level = 0)) }).tookAt slot ctx
    exec (.output f) s = .next (if bit f.imm.toNat 4 then selectToken s rid slot m t else outputToken s rid slot r m (bits f.imm.toNat 3 0) t) := by
  intro n m
  rw [show exec (.output f) s = execOutput f s from rfl, execOutput, atSlot_eq hat]
  simp only [head_of_headIs ha, checked_none hat.2.2.2]
  rfl

/-- A region with nothing to replay has emitted nothing before (R401). -/
theorem emitted_of_noReplay (h : r.replaying = []) : r.emitted slot t = false := by simp [Region.emitted, h]

end

/-- Settles O29: INPUT by what feeds it, OUTPUT by the kind of its output and of its token. -/
theorem inputsAndOutputs : Obligations.InputsAndOutputs := by
  intro f s rid slot ctx r t hat
  refine ⟨?channel, ?argument, ?finish, ?send, ?select, ?fault⟩
  case channel =>
    intro s1 r1 hp hf hi hr1 hu1 hlen hk
    rw [show exec (.input f) s = execInput f s from rfl, execInput, atSlot_eq hat]
    simp only [hp, hf, hi, hr1, hat.2.2.2, checked_none hu1, retain_of_lt hlen, deliverInput_of_ne hk, reduceCtorEq, if_false]
  case argument =>
    intro bs bad hp hf
    dsimp only
    intro hc hfault hread
    refine (input_unfed hat hp hf).trans ?_
    simp only [unfedInput, hc, hfault, hread, if_true]
    rfl
  case finish =>
    intro hp hf hc
    refine (input_unfed hat hp hf).trans ?_
    simp [unfedInput, hc]
  case send =>
    intro ha hb hk hpo hre hroom
    refine (output_head hat ha).trans ?_
    simp only [bit, hb, outputToken, if_neg hk, hpo, emitted_of_noReplay hre, hroom, Bool.false_eq_true, and_false, if_false, if_true]
  case select =>
    intro ha hb hk
    refine (output_head hat ha).trans ?_
    simp only [bit, hb, selectToken, hk, if_true]
  case fault =>
    intro ha hk
    refine (output_head hat ha).trans ?_
    split_ifs
    · simp only [selectToken, hk]
    · simp only [outputToken, hk, if_true]

end Sys2Proof.Claims
end

section
/-! SUPPORT. What the firing of a slot leaves of its region. -/

namespace Sys2Proof.Machine

section
variable (r : Region) (slot ctx : Nat) (g : ExFlags) (n : Node)

@[simp] theorem Region.raise_blocks : (r.raise slot ctx g).blocks = r.blocks := by unfold Region.raise; split <;> rfl
@[simp] theorem Region.raise_active : (r.raise slot ctx g).active = r.active := by unfold Region.raise; split <;> rfl
@[simp] theorem Region.raise_launch : (r.raise slot ctx g).launch = r.launch := by unfold Region.raise; split <;> rfl
@[simp] theorem Region.raise_part : (r.raise slot ctx g).part = r.part := by unfold Region.raise; split <;> rfl
@[simp] theorem Region.raise_drawn : (r.raise slot ctx g).drawn = r.drawn := by unfold Region.raise; split <;> rfl
@[simp] theorem Region.raise_frozen : (r.raise slot ctx g).frozen = r.frozen := by unfold Region.raise; split <;> rfl
@[simp] theorem Region.raise_flight : (r.raise slot ctx g).flight = r.flight := by unfold Region.raise; split <;> rfl
@[simp] theorem Region.raise_nodes : (r.raise slot ctx g).nodes = r.nodes := by unfold Region.raise; split <;> rfl
@[simp] theorem Region.raise_windows : (r.raise slot ctx g).windows = r.windows := by unfold Region.raise; split <;> rfl
@[simp] theorem Region.raise_role : (r.raise slot ctx g).role = r.role := by unfold Region.raise; split <;> rfl
@[simp] theorem Region.raise_mask : (r.raise slot ctx g).mask = r.mask := by unfold Region.raise; split <;> rfl
@[simp] theorem Region.raise_gal : (r.raise slot ctx g).gal = r.gal := by unfold Region.raise; split <;> rfl
@[simp] theorem Region.raise_replaying : (r.raise slot ctx g).replaying = r.replaying := by unfold Region.raise; split <;> rfl
@[simp] theorem Region.raise_calls : (r.raise slot ctx g).calls = r.calls := by unfold Region.raise; split <;> rfl

end

end Sys2Proof.Machine

namespace Sys2Proof.Claims

open Sys2Proof.Machine

section
variable (z : FiringAt) (i : Instr) (ty : Port → LaneTy)

@[simp] theorem FiringAt.fired_blocks : (z.fired i).blocks = z.r.blocks := by unfold FiringAt.fired; dsimp only; split <;> rfl
@[simp] theorem FiringAt.fired_active : (z.fired i).active = z.r.active := by unfold FiringAt.fired; dsimp only; split <;> rfl
@[simp] theorem FiringAt.fired_launch : (z.fired i).launch = z.r.launch := by unfold FiringAt.fired; dsimp only; split <;> rfl
@[simp] theorem FiringAt.fired_part : (z.fired i).part = z.r.part := by unfold FiringAt.fired; dsimp only; split <;> rfl
@[simp] theorem FiringAt.fired_drawn : (z.fired i).drawn = z.r.drawn := by unfold FiringAt.fired; dsimp only; split <;> rfl
@[simp] theorem FiringAt.fired_frozen : (z.fired i).frozen = z.r.frozen := by unfold FiringAt.fired; dsimp only; split <;> rfl
@[simp] theorem FiringAt.fired_flight : (z.fired i).flight = z.r.flight := by unfold FiringAt.fired; dsimp only; split <;> rfl
@[simp] theorem FiringAt.fired_windows : (z.fired i).windows = z.r.windows := by unfold FiringAt.fired; dsimp only; split <;> rfl
@[simp] theorem FiringAt.fired_role : (z.fired i).role = z.r.role := by unfold FiringAt.fired; dsimp only; split <;> rfl
@[simp] theorem FiringAt.fired_mask : (z.fired i).mask = z.r.mask := by unfold FiringAt.fired; dsimp only; split <;> rfl
@[simp] theorem FiringAt.fired_gal : (z.fired i).gal = z.r.gal := by unfold FiringAt.fired; dsimp only; split <;> rfl
@[simp] theorem FiringAt.fired_replaying : (z.fired i).replaying = z.r.replaying := by unfold FiringAt.fired; dsimp only; split <;> rfl
@[simp] theorem FiringAt.fired_calls : (z.fired i).calls = z.r.calls := by unfold FiringAt.fired; dsimp only; split <;> rfl

/-- The firing keeps the region's block. -/
@[simp] theorem FiringAt.left_block? : (z.left i ty).block? = z.r.block? := by simp [FiringAt.left, Region.block?]

end

end Sys2Proof.Claims
end

section
/-! SUPPORT. O30: SPANSET, SPANSHIFT, SPANCLIP, RANGE make and STALE. -/

namespace Sys2Proof.Claims

open Sys2Proof.Machine

section
variable {f : Fab} {s : State} {rid slot ctx : Nat} {r : Region} {fr : Firing} {lo hi : Int} {opened : Bool} {kind : Option Kind}

/-- A span that R154 does not allow is one that the model refuses. -/
theorem not_spanOk_iff : ¬ spanOk lo hi opened ↔ lo < 0 ∨ hi ≤ lo ∨ 0xFFFFFFFFFF < hi ∨ (hi = 0xFFFFFFFFFF ∧ opened = false) := by
  cases opened <;> simp only [spanOk, Bool.false_eq_true, imp_false, and_true, implies_true, reduceCtorEq, and_false, or_false] <;> omega

/-- What a span instruction forwards: a's token, or a token of another kind with its payload. -/
def spanToken (kind : Option Kind) (ctx : Nat) (fr : Firing) : Token :=
  match kind with
  | some k => fr.result ctx k .none (fr.lanesOf .a)
  | none => fr.pass ctx .a

/-- A span that R154 allows is given to the token (R154). -/
theorem respan_of_ok (h : spanOk lo hi opened) : respan f kind (s.setRegion rid r) rid slot ctx fr lo hi opened =
    s.setRegion rid (r.sendBoth f { spanToken kind ctx fr with lo := lo.toNat, hi := hi.toNat }) := by
  cases kind <;> simp only [respan, if_neg fun hn => not_spanOk_iff.2 hn h, toBoth_setRegion, spanToken]

/-- Any other faults SPAN_EMPTY (R154). -/
theorem respan_of_not (h : ¬ spanOk lo hi opened) : respan f kind s rid slot ctx fr lo hi opened =
    s.regionFault rid codeSpanEmpty ⟨slot, 0xFF, ctx, fr.span, fr.images, 0, 0⟩ := if_pos (not_spanOk_iff.1 h)

end

section
variable {f : Fab} {z : FiringAt} {i : Instr} {ty : Port → LaneTy} {kind : Option Kind} {lo lo' hi hi' : Firing → Int} {opened opened' : Firing → Bool}
  {tok : Firing → Token}

/-- A span instruction gives its token the span it names, or faults SPAN_EMPTY (R154). -/
theorem span_gives (he : exec i z.s = fire i f ty z.s fun s rid slot ctx fr => respan f kind s rid slot ctx fr (lo' fr) (hi' fr) (opened' fr))
    (hlo : ∀ fr, lo' fr = lo fr) (hhi : ∀ fr, hi' fr = hi fr) (ho : ∀ fr, opened' fr = opened fr)
    (ht : spanToken kind z.ctx (z.ops i ty) = tok (z.ops i ty)) :
    (spanOk (lo (z.ops i ty)) (hi (z.ops i ty)) (opened (z.ops i ty)) → z.gives i ty (judge f.pm) fun r fr =>
      z.s.setRegion z.rid (r.sendBoth f { tok fr with lo := (lo fr).toNat, hi := (hi fr).toNat })) ∧
    (¬ spanOk (lo (z.ops i ty)) (hi (z.ops i ty)) (opened (z.ops i ty)) → z.gives i ty (judge f.pm) fun r fr =>
      firingFault z (z.s.setRegion z.rid r) 0x05 fr) := by
  refine ⟨fun h => FiringAt.gives_of_fire he fun _ => ?_, fun h => FiringAt.gives_of_fire he fun _ => ?_⟩
  all_goals simp only [hlo, hhi, ho]
  · rw [respan_of_ok h, ht]
  · exact respan_of_not h

/-- STALE's effect, by its mode and by whether the span is too old (R155). -/
theorem stale_gives {t : Token} (ha : (z.ops (.stale f) fun _ => f.ty).a = some t) {out : Region → Firing → State}
    (ho : ∀ r fr, (if bit f.sub.toNat 0 then
          z.s.setRegion z.rid (r.sendBoth f { forwards z fr t with pred := if staleSpan z.s z.r f.imm.toNat z.span then .false else .true })
        else z.s.setRegion z.rid (r.sendBoth f (if staleSpan z.s z.r f.imm.toNat z.span then fr.nullResult z.ctx else forwards z fr t))) = out r fr) :
    z.gives (.stale f) (fun _ => f.ty) (judge f.pm) out := by
  refine FiringAt.gives_of_fire (rfl : exec _ _ = execStale f z.s) fun _ => ?_
  have hold : staleSpan (z.s.setRegion z.rid (z.left (.stale f) fun _ => f.ty)) (z.left (.stale f) fun _ => f.ty) f.imm.toNat
      (z.ops (.stale f) fun _ => f.ty).span = staleSpan z.s z.r f.imm.toNat z.span := by
    simp only [staleSpan, FiringAt.left_block?, State.setRegion_dtime]; rfl
  rw [← ho]
  simp only [State.setRegion_region_self, toBoth_setRegion, hold, pass_eq_forwards (show Firing.on _ .a = _ from ha)]

end

/-- Whether a span is too old (R155). -/
theorem staleSpan_iff (s : State) (r : Region) (b : Nat) (i : Span) :
    staleSpan s r b i = true ↔ i.hi ≠ openHi ∧ (i.hi + b) * 2 ^ ((r.block?).map (·.tshift)).getD 0 < s.dtime := by
  simp [staleSpan]

/-- Settles O30: the span each instruction names, and STALE by its mode. -/
theorem spansAreSet : Obligations.SpansAreSet := by
  intro f z t
  have same : ∀ {i : Instr}, (z.ops i fun _ => f.ty).a = some t → spanToken none z.ctx (z.ops i fun _ => f.ty) = forwards z (z.ops i fun _ => f.ty) t :=
    fun ha => pass_eq_forwards ha
  refine ⟨fun hs ha => ?_, fun hs ha => ?_, fun ha => ?_, fun ha => ?_, fun ha => ?_, fun ha => ?_⟩
  · exact span_gives (lo := fun fr => tickIn (fr.lanesOf .a) 0) (hi := fun fr => (tickIn (fr.lanesOf .a) 0 + f.imm.toNat : Nat))
      (opened := fun _ => false) (tok := fun fr => forwards z fr t) (rfl : exec _ _ = execSpanset f z.s) (fun _ => rfl)
      (fun _ => by simp only [bit, hs]; rfl) (fun _ => hs) (same ha)
  · exact span_gives (lo := fun fr => tickIn (fr.lanesOf .a) 0) (hi := fun fr => tickIn (fr.lanesOf .a) 2)
      (opened := fun _ => true) (tok := fun fr => forwards z fr t) (rfl : exec _ _ = execSpanset f z.s) (fun _ => rfl)
      (fun _ => by simp only [bit, hs]; rfl) (fun _ => hs) (same ha)
  · exact span_gives (lo := fun fr => fr.span.lo + f.imm.toInt * 16 ^ f.sub.toNat)
      (hi := fun fr => if fr.span.hi = openHi then openHi else fr.span.hi + f.imm.toInt * 16 ^ f.sub.toNat)
      (opened := fun fr => decide (fr.span.hi = openHi)) (tok := fun fr => forwards z fr t) (rfl : exec _ _ = execSpanshift f z.s)
      (fun _ => rfl) (fun _ => by simp only [decide_eq_true_eq]) (fun _ => rfl) (same ha)
  · exact span_gives (lo := fun fr => fr.span.lo) (hi := fun fr => min fr.span.hi (fr.span.lo + f.imm.toNat)) (opened := fun _ => false)
      (tok := fun fr => forwards z fr t) (rfl : exec _ _ = execSpanclip f z.s) (fun _ => rfl) (fun _ => rfl) (fun _ => rfl) (same ha)
  · exact span_gives (lo := fun fr => tickIn (fr.lanesOf .a) 0) (hi := fun fr => tickIn (fr.lanesOf .a) 2) (opened := fun _ => false)
      (tok := fun fr => fr.result z.ctx .range .none t.lanes) (rfl : exec _ _ = execRangeMake f z.s) (fun _ => rfl) (fun _ => rfl) (fun _ => rfl)
      (by simp only [spanToken, Firing.lanesOf, show Firing.on _ .a = _ from ha, Option.map_some, Option.getD_some])
  · have hiff := staleSpan_iff z.s z.r f.imm.toNat z.span
    refine ⟨fun hs => ⟨fun h => ?_, fun h => ?_⟩, fun hs => ⟨fun h => ?_, fun h => ?_⟩⟩
    · exact stale_gives ha fun r fr => by simp only [bit, hs, hiff.2 h]; rfl
    · exact stale_gives ha fun r fr => by simp only [bit, hs, mt hiff.1 h]; rfl
    · exact stale_gives ha fun r fr => by simp only [bit, hs, hiff.2 h]; rfl
    · exact stale_gives ha fun r fr => by simp only [bit, hs, mt hiff.1 h]; rfl

end Sys2Proof.Claims
end

section
/-! SUPPORT. O31: contexts, barriers and SPAWN. Putting a region that has drawn the same contexts changes nothing of the pool; a node that was put is
found. -/

namespace Sys2Proof.NatMap

variable {α : Type}

/-- What is found is an element. -/
theorem mem_of_find {m : NatMap α} {k : Nat} {v : α} (h : find? m k = some v) : (k, v) ∈ m := by
  induction m with
  | nil => simp [find?] at h
  | cons e m ih =>
    obtain ⟨j, w⟩ := e
    by_cases hj : j = k
    · simp only [find?, if_pos hj, Option.some.injEq] at h
      rw [hj, h]; exact List.mem_cons_self
    · simp only [find?, if_neg hj] at h
      exact List.mem_cons_of_mem _ (ih h)

/-- A test that tells the old value at a key from the new one by nothing finds as many elements. -/
theorem any_insert_of_same {m : NatMap α} {k : Nat} {v w : α} {p : Nat × α → Bool} (h : find? m k = some v) (hp : p (k, w) = p (k, v)) :
    (insert m k w).any p = m.any p := by
  induction m with
  | nil => simp [find?] at h
  | cons e m ih =>
    obtain ⟨j, x⟩ := e
    unfold insert
    split_ifs with h1 h2
    · have hm : p (k, v) = true → ((j, x) :: m).any p = true := fun ht => List.any_eq_true.2 ⟨_, mem_of_find h, ht⟩
      rw [List.any_cons, hp]
      cases hv : p (k, v)
      · rfl
      · rw [hm hv]; rfl
    · subst h2
      simp only [find?, if_true, Option.some.injEq] at h
      simp only [List.any_cons, hp, h]
    · simp only [find?, if_neg (Ne.symm h2)] at h
      simp only [List.any_cons, ih h]

/-- An erasure of a key that was put is an erasure of the key. -/
theorem erase_insert (m : NatMap α) (k : Nat) (v : α) : erase (insert m k v) k = erase m k := by
  induction m with
  | nil => simp [insert, erase]
  | cons e m ih =>
    obtain ⟨j, w⟩ := e
    unfold insert
    split_ifs with h1 h2
    · simp [erase]
    · subst h2; simp [erase]
    · simp only [erase, if_neg (Ne.symm h2), ih]

/-- Of two writes at a key, the first of which lists it, the second counts. -/
theorem set_set [DecidableEq α] {d : α} (m : NatMap α) (k : Nat) {v : α} (w : α) (hv : v ≠ d) : set d (set d m k v) k w = set d m k w := by
  unfold set
  rw [if_neg hv]
  split_ifs
  · exact erase_insert m k v
  · exact insert_insert m k v w

end Sys2Proof.NatMap

namespace Sys2Proof.Machine

section
variable {s : State} {rid : Nat} {r r' : Region}

/-- Putting a region that has drawn the same contexts leaves every context free or not, as it was. -/
theorem State.freeCtx_setRegion (hr : s.region? rid = some r) (hd : r'.drawn = r.drawn) (c : Nat) : (s.setRegion rid r').freeCtx c = s.freeCtx c := by
  have hany : (NatMap.insert s.regions rid r').any (fun e => e.2.drawn.contains c) = s.regions.any fun e => e.2.drawn.contains c :=
    NatMap.any_insert_of_same hr (by simp only [hd])
  have hfind : (List.find? (fun e => e.2.drawn.contains c) (NatMap.insert s.regions rid r')).isSome = (List.find? (fun e => e.2.drawn.contains c) s.regions).isSome := by
    rw [List.isSome_find?, List.isSome_find?]
    exact hany
  simp only [State.freeCtx, State.drawnCtx]
  rw [show (s.setRegion rid r').launchOfCtx c = s.launchOfCtx c from rfl]
  cases s.launchOfCtx c with
  | some x => rfl
  | none =>
    simp only [← Option.not_isSome, Option.isSome_map]
    exact congrArg (fun b => !s.heldCtx c && !b) hfind

/-- So the lowest free context stays. -/
theorem State.lowestFree_setRegion (hr : s.region? rid = some r) (hd : r'.drawn = r.drawn) : (s.setRegion rid r').lowestFree = s.lowestFree := by
  simp only [State.lowestFree, funext (State.freeCtx_setRegion hr hd)]

/-- A region outside any launch draws a context for itself (R157). -/
theorem drawCtx_own (h : r.launch = none) (c : Nat) : drawCtx s rid r c = s.setRegion rid { (r.without c) with drawn := r.drawn ++ [c] } := by
  simp only [drawCtx, h]

/-- A region outside any launch gives back a context it drew, but for the firing's own (R158). -/
theorem returnCtx_own (h : r.launch = none) (c own : Nat) : returnCtx s rid r c own =
    if r.drawn.contains c ∧ c ≠ own then some (s.setRegion rid { r with drawn := r.drawn.erase c, freed := c :: r.freed.erase c }) else none := by
  simp only [returnCtx, h]

end

section
variable (r : Region) (slot ctx : Nat) (n : Node)

/-- A node that was put is found. -/
@[simp] theorem Region.node_setNode_self : (r.setNode slot ctx n).node slot ctx = n := NatMap.get_set_self _ _ _ _

/-- Of two writes of a node, the first of which lists it, the second counts. -/
theorem Region.setNode_setNode {m : Node} (h : m ≠ .init) : (r.setNode slot ctx m).setNode slot ctx n = r.setNode slot ctx n := by
  simp only [Region.setNode, NatMap.set_set _ _ _ h]

end

section
variable {f : Fab} {s : State} {r : Region} {slot ctx rid : Nat} {x : Token} {xs : List Token}

/-- A slot in focus of a region whose clock runs takes its step, whatever the upset. -/
theorem atSlot_live (hf : s.focus = .slot rid slot ctx) (hr : s.region? rid = some r) (hl : r.live = true)
    (step : State → Nat → Nat → Nat → Region → State) : atSlot s step = .next (step s rid slot ctx r) := by simp [atSlot, hf, hr, hl]

/-- A released arrival's token leaves (R153). -/
theorem passArrival_of_lt (ha : (r.node slot ctx).arrivals = x :: xs) (hc : (r.node slot ctx).count < (r.node slot ctx).generation) :
    r.passArrival f slot ctx =
      (r.setNode slot ctx { (r.node slot ctx) with arrivals := xs, count := (r.node slot ctx).count + 1 }).sendBoth f x := by
  simp only [Region.passArrival, ha, if_pos hc]

/-- Outside any launch a task's barrier has its own context alone (R153; log 15). -/
theorem participants_own (h : r.launch = none) (level : Nat) : participants s r level ctx = [ctx] := by
  simp [participants, State.launchOfRegion, h]

/-- An arrival that none has released completes the generation of a barrier of one participant (R153). -/
theorem barrierComplete_own (h : r.launch = none) (ha : (r.node slot ctx).arrivals = x :: xs) (hc : (r.node slot ctx).count = (r.node slot ctx).generation)
    (level : Nat) : barrierComplete s r slot ctx level = true := by
  simp [barrierComplete, participants_own h, Node.unreleased, ha, hc]

/-- BARTOK passes an arrival on, or completes a generation, where one is due (R153). -/
theorem execBartok_due (hf : s.focus = .slot rid slot ctx) (hr : s.region? rid = some r) (hl : r.live = true)
    (hd : barrierDue s r slot ctx (bits f.imm.toNat 2 0) = true) : exec (.bartok f) s = .next (barrierStep f s rid slot ctx r) := by
  rw [show exec (.bartok f) s = execBartok f s from rfl, execBartok]
  simp only [hf, hr, hl, hd, Bool.and_self, if_true]
  exact atSlot_live hf hr hl _

/-- With none due it fires. -/
theorem execBartok_fires (hf : s.focus = .slot rid slot ctx) (hr : s.region? rid = some r)
    (hd : barrierDue s r slot ctx (bits f.imm.toNat 2 0) = false) : exec (.bartok f) s =
      fireWith (.bartok f) (fun _ => f.ty) (judge f.pm) (fun s rid slot ctx fr => barrierArrive s rid slot (fr.result ctx .barrier .none .zero))
        (fun s rid slot _ t => barrierArrive s rid slot t) (fun s rid _ t => toBoth f s rid t) s := by
  rw [show exec (.bartok f) s = execBartok f s from rfl, execBartok]
  simp only [hf, hr, hd, Bool.and_false, Bool.false_eq_true, if_false]

/-- A generation of one participant completes, and its token leaves (R153). -/
theorem releaseBarrier_own (h : r.launch = none) (ha : (r.node slot ctx).arrivals = x :: xs) (hc : (r.node slot ctx).count = (r.node slot ctx).generation) :
    let n := r.node slot ctx
    releaseBarrier f s rid slot ctx r =
      s.setRegion rid ((r.setNode slot ctx { n with arrivals := xs, count := n.count + 1, generation := n.generation + 1 }).sendBoth f x) := by
  intro n
  have hu : (r.node slot ctx).unreleased.isEmpty = false := by simp [Node.unreleased, ha, hc]
  have hrel : releaseArrival slot r ctx = r.setNode slot ctx { n with generation := n.generation + 1 } := by
    simp only [releaseArrival, hu, Bool.false_eq_true, if_false]
    rfl
  have hne : ({ n with generation := n.generation + 1 } : Node) ≠ .init := fun he => by
    have := congrArg Node.arrivals he
    rw [show ({ n with generation := n.generation + 1 } : Node).arrivals = x :: xs from ha] at this
    exact List.cons_ne_nil _ _ this
  simp only [releaseBarrier, participants_own h, List.foldl_cons, List.foldl_nil, hrel, h]
  rw [passArrival_of_lt (x := x) (xs := xs) (by rw [Region.node_setNode_self]; exact ha) (by rw [Region.node_setNode_self]; exact Nat.lt_succ_of_le hc.le),
    Region.node_setNode_self, Region.setNode_setNode _ _ _ _ hne]

/-- The next number of a state is none of its regions. -/
theorem setRegion_nextId (s : State) (rid : Nat) (q : Region) (n : Nat) :
    ({ s.setRegion rid q with nextId := n } : State) = { s with nextId := n }.setRegion rid q := rfl

section
variable {fr : Firing}

/-- SPAWN of an aligned record in a region outside any launch (R159). -/
theorem spawnAct_child (h : r.launch = none) (hva : laneAddr (fr.lanesOf .a) 0 % 64 = 0) :
    spawnAct f (s.setRegion rid r) rid slot ctx fr = (submitChild ({ s with nextId := s.nextId + 1 }.setRegion rid
      { (r.setWindow slot (r.window slot ++ [WindowEntry.out s.nextId ctx false])) with calls := r.calls + 1 }) r.part (laneAddr (fr.lanesOf .a) 0)
      ⟨none, rid, slot, s.nextId, destOf rid f.t0, fr.result ctx .data .none .zero, r.calls⟩ [r.calls]).orElse (s.setRegion rid r) := by
  simp only [spawnAct, State.setRegion_region_self, h, if_neg (not_not.2 hva), State.setRegion_setRegion, setRegion_nextId, Option.getD_some,
    State.setRegion_nextId]
  rfl

/-- SPAWN of a misaligned record (R159). -/
theorem spawnAct_misaligned (h : r.launch = none) (hva : laneAddr (fr.lanesOf .a) 0 % 64 ≠ 0) :
    spawnAct f (s.setRegion rid r) rid slot ctx fr =
      fillSpawn ({ s with nextId := s.nextId + 1 }.setRegion rid (r.setWindow slot (r.window slot ++ [WindowEntry.out s.nextId ctx false])))
        ⟨none, rid, slot, s.nextId, destOf rid f.t0, fr.result ctx .data .none .zero, 0⟩
        (faultToken ctx fr.span codeAlignment (laneAddr (fr.lanesOf .a) 0) 0 7 (fr.result ctx .data .none .zero)) := by
  simp only [spawnAct, State.setRegion_region_self, h, if_pos hva, State.setRegion_setRegion, setRegion_nextId, State.setRegion_nextId]

end

end

end Sys2Proof.Machine

namespace Sys2Proof.Claims

open Sys2Proof.Machine

section
variable {f : Fab} {z : FiringAt} {i : Instr} {ty : Port → LaneTy}

@[simp] theorem FiringAt.left_launch (z : FiringAt) (i : Instr) (ty : Port → LaneTy) : (z.left i ty).launch = z.r.launch := by simp [FiringAt.left]
@[simp] theorem FiringAt.left_drawn (z : FiringAt) (i : Instr) (ty : Port → LaneTy) : (z.left i ty).drawn = z.r.drawn := by simp [FiringAt.left]
@[simp] theorem FiringAt.left_part (z : FiringAt) (i : Instr) (ty : Port → LaneTy) : (z.left i ty).part = z.r.part := by simp [FiringAt.left]
@[simp] theorem FiringAt.left_calls (z : FiringAt) (i : Instr) (ty : Port → LaneTy) : (z.left i ty).calls = z.r.calls := by simp [FiringAt.left]

/-- The pool is as it was when the firing's region is put. -/
theorem FiringAt.lowestFree_left (hr : z.Ready i ty) : (z.s.setRegion z.rid (z.left i ty)).lowestFree = z.s.lowestFree :=
  State.lowestFree_setRegion hr.region (z.left_drawn i ty)

/-- CTXNEW of a region outside any launch, with a context free (R157). -/
theorem ctxnew_draws {t : Token} {c : Nat} (h : z.r.launch = none) (ha : (z.ops (.ctxnew f) fun _ => f.ty).a = some t) (hc : z.s.lowestFree = some c) :
    z.gives (.ctxnew f) (fun _ => f.ty) (judge f.pm) fun r fr =>
      z.s.setRegion z.rid (({ (r.without c) with drawn := r.drawn ++ [c] }.send f.t0 (fr.result z.ctx .data .none ⟨BitVec.ofNat 36 c, 0, 0, 0, 0, 0, 0, 0⟩)).send f.t1
        { forwards z fr t with ctx := c }) := by
  refine FiringAt.gives_of_fire (rfl : exec _ _ = execCtxnew f z.s) fun hr => ?_
  simp only [State.setRegion_region_self, FiringAt.lowestFree_left hr, hc, drawCtx_own ((z.left_launch _ _).trans h), State.setRegion_setRegion,
    toOne_setRegion, pass_eq_forwards (show Firing.on _ .a = _ from ha)]

/-- CTXNEW with no context free (R157). -/
theorem ctxnew_exhausted (hc : z.s.lowestFree = none) : z.gives (.ctxnew f) (fun _ => f.ty) (judge f.pm) fun r fr =>
    z.s.setRegion z.rid (r.send f.t0 (fr.result z.ctx .fault .none ⟨0x09, 0, 0, 0, 0, 0, 0, 0⟩)) := by
  refine FiringAt.gives_of_fire (rfl : exec _ _ = execCtxnew f z.s) fun hr => ?_
  simp only [State.setRegion_region_self, FiringAt.lowestFree_left hr, hc, toOne_setRegion]
  rfl

/-- CTXFREE of a region outside any launch, by whether it may give the context back (R158). -/
theorem ctxfree_gives {t : Token} (h : z.r.launch = none) (ha : (z.ops (.ctxfree f) fun _ => f.ty).a = some t) :
    let c := (t.lanes.get 0).toNat
    z.gives (.ctxfree f) (fun _ => f.ty) (judge f.pm) fun r fr =>
      if z.r.drawn.contains c ∧ c ≠ z.ctx then
        z.s.setRegion z.rid ({ r with drawn := r.drawn.erase c, freed := c :: r.freed.erase c }.sendBoth f (forwards z fr t))
      else z.s.setRegion z.rid (r.sendBoth f (fr.result z.ctx .fault .none ⟨0x11, 0, 0, 0, 0, 0, 0, 0⟩)) := by
  intro c
  refine FiringAt.gives_of_fire (rfl : exec _ _ = execCtxfree f z.s) fun hr => ?_
  have hl : (z.ops (.ctxfree f) fun _ => f.ty).lanesOf .a = t.lanes := by simp only [Firing.lanesOf, show Firing.on _ .a = _ from ha, Option.map_some, Option.getD_some]
  simp only [State.setRegion_region_self, returnCtx_own ((z.left_launch _ _).trans h), hl, z.left_drawn]
  split_ifs <;> simp only [State.setRegion_setRegion, toBoth_setRegion, pass_eq_forwards (show Firing.on _ .a = _ from ha)] <;> rfl

/-- SPAWN whose child can be submitted fires (R159). -/
theorem execSpawn_fires {s : State} {rid slot ctx : Nat} {r : Region} (hf : s.focus = .slot rid slot ctx) (hr : s.region? rid = some r)
    (hw : spawnWaits s r slot ctx f = none) : exec (.spawn f) s =
      fireWith (.spawn f) (fun _ => f.ty) (judge f.pm) (spawnAct f) (fun s rid slot _ t => spawnOther s rid slot t (destsOf rid f))
        (fun s rid slot t => spawnOther s rid slot t (destsOf rid f)) s := by
  rw [show exec (.spawn f) s = execSpawn f s from rfl, execSpawn]
  simp only [hf, hr, hw]

end

/-- Settles O31: CTXNEW and CTXFREE by the pool and what the region drew, BARTOK by whether an arrival is due, SPAWN by its record's address. -/
theorem contextsBarriersSpawn : Obligations.ContextsBarriersSpawn := by
  refine ⟨fun f z t => ?_, fun f z s2 => ?_⟩ <;> dsimp only
  · refine fun h => ⟨fun ha => ⟨fun c hc => ctxnew_draws h ha hc, fun hc => ctxnew_exhausted hc⟩, fun ha => ⟨fun hd hne => ?free, fun hd => ?refused⟩,
      fun hd => ?arrive, fun x xs hf hr hl ha => ⟨fun hc => ?pass, fun hc => ?release⟩⟩
    case free => simpa only [hd, hne, ne_eq, not_false_eq_true, and_self, if_true] using ctxfree_gives h ha
    case refused =>
      have hn : ¬ (z.r.drawn.contains (t.lanes.get 0).toNat = true ∧ (t.lanes.get 0).toNat ≠ z.ctx) := by
        rintro ⟨hc, hne⟩
        rcases hd with hd | hd
        · rw [hd] at hc; exact Bool.false_ne_true hc
        · exact hne hd
      simpa only [if_neg hn] using ctxfree_gives h ha
    case arrive =>
      refine FiringAt.gives_of_ready (fun hr => execBartok_fires hr.focus hr.region hd) fun _ => ?_
      simp only [barrierArrive, State.setRegion_region_self, State.setRegion_setRegion]
      rfl
    case pass =>
      have hd : barrierDue z.s z.r z.slot z.ctx (bits f.imm.toNat 2 0) = true := by simp [barrierDue, hc]
      rw [execBartok_due hf hr hl hd, barrierStep, if_pos hc, passArrival_of_lt ha hc]
    case release =>
      have hd : barrierDue z.s z.r z.slot z.ctx (bits f.imm.toNat 2 0) = true := by simp [barrierDue, barrierComplete_own h ha hc]
      rw [execBartok_due hf hr hl hd, barrierStep, if_neg (by omega), releaseBarrier_own h ha hc]
  · refine fun h hw => ⟨fun hva hsub => ?child, fun hva => ?misaligned⟩
    case child =>
      refine FiringAt.gives_of_ready (fun hr => execSpawn_fires hr.focus hr.region hw) fun _ => ?_
      rw [spawnAct_child ((z.left_launch _ _).trans h) hva, z.left_part]
      exact congrArg (OrWait.orElse · _) hsub
    case misaligned =>
      refine FiringAt.gives_of_ready (fun hr => execSpawn_fires hr.focus hr.region hw) fun _ => ?_
      exact spawnAct_misaligned ((z.left_launch _ _).trans h) hva

end Sys2Proof.Claims
end

section
/-! SUPPORT. O32: the access forms make requests; PUBLISH, WPTR and WAITWP. -/

namespace Sys2Proof.Machine

/-- A slot's instruction is its block's. -/
theorem Region.instrAt_congr {r r' : Region} (h : r'.block? = r.block?) (k : Nat) : r'.instrAt k = r.instrAt k := by
  simp only [Region.instrAt, h]

/-- The instance of a stage is found by a region's place in its launch. -/
theorem instanceRegion_congr {s s' : State} {r r' : Region} (hl : s'.launches = s.launches) (hr : r'.role = r.role) (rid stage inst : Nat) :
    instanceRegion s' rid r' stage inst = instanceRegion s rid r stage inst := by
  simp only [instanceRegion, hr, State.launch?, hl]

/-- A third-party target is the same while the region that names it is put with its block and its place (R235). -/
theorem thirdParty_setRegion {s : State} {rid : Nat} {r r' : Region} (hr : s.region? rid = some r) (hb : r'.block? = r.block?)
    (ho : r'.role = r.role) (v : Lanes) : thirdParty (s.setRegion rid r') rid r' v = thirdParty s rid r v := by
  unfold thirdParty
  simp only [instanceRegion_congr (State.setRegion_launches s rid r') ho]
  split_ifs
  · rfl
  · cases instanceRegion s rid r (bits (v.get 6).toNat 25 16) ((v.get 7).toNat % 8) with
    | none => rfl
    | some d =>
      by_cases hd : d = rid
      · subst hd
        simp only [State.setRegion_region_self, hr, Region.instrAt_congr hb]
      · simp only [State.setRegion_region_other s r' hd]

/-- A region with nothing to replay performs every store (R401). -/
theorem replayedStore_of_noReplay {r : Region} (h : r.replaying = []) (slot ctx : Nat) (span : Span) : replayedStore r slot ctx span = false := by
  simp [replayedStore, h]

end Sys2Proof.Machine

namespace Sys2Proof.Claims

open Sys2Proof.Machine

section
variable {f : Fab} {z : FiringAt} {i : Instr} {ty : Port → LaneTy} {j : Firing → Judged} {op : MemOp}
  {other : State → Nat → Nat → Firing → Token → State} {fin : State → Nat → Nat → Token → State} {ds : List Dest}

@[simp] theorem FiringAt.left_role (z : FiringAt) (i : Instr) (ty : Port → LaneTy) : (z.left i ty).role = z.r.role := by simp [FiringAt.left]
@[simp] theorem FiringAt.left_replaying (z : FiringAt) (i : Instr) (ty : Port → LaneTy) : (z.left i ty).replaying = z.r.replaying := by
  simp [FiringAt.left]
/-- A slot of the region that has fired stands in the quad where it stood. -/
@[simp] theorem FiringAt.left_lqAt (z : FiringAt) (i : Instr) (ty : Port → LaneTy) (slot : Nat) : (z.left i ty).lqAt slot = z.r.lqAt slot := by
  simp [Region.lqAt, Region.peBit, Region.placeOf, Region.pes, Region.lqOfBit, FiringAt.left, Region.block?]

/-- The state with one more request at an entry MT (R226). -/
def asked (z : FiringAt) (f : Fab) (op : MemOp) (ds : List Dest) (r : Region) (fr : Firing) (w : Region) : State :=
  { z.s.setRegion z.rid w with
    nextId := z.s.nextId + 1, pending := z.s.pending ++ [⟨requestOf (z.s.setRegion z.rid r) z.rid z.slot z.ctx r f op fr ds, .input⟩] }

/-- The destinations of an access are those the firing's region names, put or not (R235). -/
theorem destinations_left (hr : z.Ready i ty) : (if f.xr then (thirdParty (z.s.setRegion z.rid (z.left i ty)) z.rid (z.left i ty) ((z.ops i ty).lanesOf .a)).map
      fun d => [d] else some (destsOf z.rid f)) = destinations z f (z.ops i ty) z.r := by
  rw [thirdParty_setRegion hr.region (z.left_block? i ty) (z.left_role i ty)]
  rfl

/-- An access with a target makes a request and takes a place in its window (R226, R227). -/
theorem access_asks (he : exec i z.s = fireWith i ty j (accessAct f op) other fin z.s) (hn : z.r.replaying = [])
    (hd : destinations z f (z.ops i ty) z.r = some ds) :
    z.gives i ty j fun r fr =>
      asked z f op ds r fr (if op = .prefetch then r else r.setWindow z.slot (r.window z.slot ++ [WindowEntry.out z.s.nextId z.ctx false])) := by
  refine FiringAt.gives_of_fireWith he fun hr => ?_
  simp only [accessAct, State.setRegion_region_self, destinations_left hr, hd, replayedStore_of_noReplay ((z.left_replaying i ty).trans hn), Bool.and_false,
    Bool.false_eq_true, if_false, State.setRegion_setRegion]
  rfl

/-- An access whose target is none faults PERMISSION (R235). -/
theorem access_refused (he : exec i z.s = fireWith i ty j (accessAct f op) other fin z.s) (hd : destinations z f (z.ops i ty) z.r = none) :
    z.gives i ty j fun r fr =>
      (z.s.setRegion z.rid r).regionFault z.rid 0x11 ⟨z.slot, 0xFF, z.ctx, fr.span, fr.images, laneAddr (fr.lanesOf .a) 0, 0⟩ := by
  refine FiringAt.gives_of_fireWith he fun hr => ?_
  simp only [accessAct, State.setRegion_region_self, destinations_left hr, hd]
  rfl

/-- The forms that make a request fire as accesses, none of them a prefetch. -/
theorem accessTable_fires {e : (Fab → Instr) × (Fab → MemOp)} (he : e ∈ accessTable) (f : Fab) (s : State) :
    exec (e.1 f) s = accessFire (e.1 f) f (e.2 f) s ∧ e.2 f ≠ .prefetch := by
  simp only [accessTable, List.mem_cons, List.not_mem_nil, or_false] at he
  rcases he with rfl | rfl | rfl | rfl | rfl | rfl <;> exact ⟨rfl, nofun⟩

/-- PUBLISH outside deterministic operation, by whether its entry is valid (R217, R248). -/
theorem publish_gives (hd : detLaunchOf z.s z.ctx = none) :
    let n := bits f.imm.toNat 5 0
    let x := z.s.partOf z.r.part
    let e := NatMap.get PubEntry.init x.pub n
    z.gives (.publish f) (fun _ => .b32) (judge f.pm) fun r fr =>
      if bit e.w0.toNat 0 then (z.s.setPart z.r.part { x with pub := NatMap.set .init x.pub n e.exchange }).setRegion z.rid
        (r.sendBoth f (fr.result z.ctx .order .none .zero))
      else faultBy f (z.s.setRegion z.rid r) z.rid z.slot z.ctx codePermission (laneAddr (fr.lanesOf .a) 0) 6 7 fr := by
  intro n x e
  refine FiringAt.gives_of_fireWith (rfl : exec _ _ = execPublish f z.s) fun hr => ?_
  have hdet : detLaunchOf (z.s.setRegion z.rid (z.left (.publish f) fun _ => .b32)) z.ctx = none := hd
  simp only [State.setRegion_region_self, State.publishFor, hdet, z.left_part]
  refine if_congr Iff.rfl ?_ rfl
  rw [show (z.s.setRegion z.rid (z.left (.publish f) fun _ => .b32)).publish z.r.part (bits f.imm.toNat 5 0) =
    (z.s.setPart z.r.part { x with pub := NatMap.set .init x.pub n e.exchange }).setRegion z.rid (z.left (.publish f) fun _ => .b32) from rfl,
    toBoth_setRegion]

/-- The exchange of a publish entry in its words (R217). -/
theorem exchange_eq (e : PubEntry) :
    e.exchange = ⟨e.w0, BitVec.ofNat 64 ((e.w1.toNat / 2 ^ 32 + 1) % 2 ^ 32 * 2 ^ 32 + e.w1.toNat % 2 ^ 32), e.w3, e.w2⟩ := by
  have h : bits e.w1.toNat 63 32 = e.w1.toNat / 2 ^ 32 := by
    have := e.w1.isLt
    simp only [bits]
    omega
  simp only [PubEntry.exchange, h]

/-- The write pointer in two lanes (R250). -/
theorem writePointer_halves (s : State) (lq ch : Nat) :
    let c := (s.quadOf lq).chan ch
    s.writePointer lq ch % 2 ^ 32 = c.bytes % 2 ^ 32 ∧ s.writePointer lq ch / 2 ^ 32 = c.seq % 2 ^ 16 * 2 ^ 16 + c.bytes / 2 ^ 32 % 2 ^ 16 := by
  dsimp only [State.writePointer]
  omega

end

/-- Settles O32: the accesses by whether they have a target, PUBLISH by its entry, WPTR and WAITWP. -/
theorem accessesAndPointers : Obligations.AccessesAndPointers := by
  refine ⟨fun f z ds hn => ?_, fun f z t => ?_⟩ <;> dsimp only
  · refine ⟨fun e he => ⟨fun hd => ?_, fun hd => ?_⟩, fun hx hds => ?_⟩
    · obtain ⟨hex, hop⟩ := accessTable_fires he f z.s
      have h := access_asks hex hn hd
      simp only [if_neg hop] at h
      exact h
    · exact access_refused (accessTable_fires he f z.s).1 hd
    · exact access_asks (rfl : exec _ _ = execPref f z.s) hn (by simp [destinations, hx, hds])
  · refine ⟨fun hd => ⟨fun hv => ?_, fun hv => ?_⟩, ?_, fun ha => ?_⟩
    · have h := publish_gives (f := f) hd
      simp only [bit, hv, Bool.false_eq_true, if_false] at h
      exact h
    · have h := publish_gives (f := f) hd
      simp only [bit, hv, if_true, exchange_eq] at h
      exact h
    · refine FiringAt.gives_of_fire (rfl : exec _ _ = execWptr f z.s) fun _ => ?_
      obtain ⟨hlo, hhi⟩ := writePointer_halves z.s (z.r.lqAt z.slot) (bits f.imm.toNat 2 0)
      have hp : (z.s.setRegion z.rid (z.left (.wptr f) fun _ => .b32)).writePointer ((z.left (.wptr f) fun _ => .b32).lqAt z.slot) (bits f.imm.toNat 2 0) =
          z.s.writePointer (z.r.lqAt z.slot) (bits f.imm.toNat 2 0) := by rw [z.left_lqAt]; rfl
      simp only [State.setRegion_region_self, hp, hlo, hhi, toBoth_setRegion]
    · refine FiringAt.gives_of_fire (rfl : exec _ _ = execWaitwp f z.s) fun _ => ?_
      simp only [ha, toBoth_setRegion]
      rfl

end Sys2Proof.Claims
end

section
/-! SUPPORT. O33: TRAP faults its region, BRK holds its token and PE_BRK releases it. -/

namespace Sys2Proof.Machine

/-- Putting a port leaves what a node holds. -/
theorem Node.setPort_held (n : Node) (k : Port) (x : PortState) : (n.setPort k x).held = n.held := by cases k <;> rfl

/-- Discarding tokens leaves what a node holds. -/
theorem sweep_held (i : Instr) (n : Node) : (sweep i n).held = n.held :=
  foldl_keeps Node.held _ (fun m _ => Node.setPort_held m _ _) n _

/-- So does a firing. -/
theorem afterFiring_held (i : Instr) (n : Node) (set : CandSet) : (afterFiring i n set).held = n.held := sweep_held i _

section
variable {s : State} {rid : Nat} {r : Region}

/-- A region fault freezes the region and leaves a record (R392). -/
theorem regionFault_eq (hr : s.region? rid = some r) (code : Nat) (a : FaultAt) : s.regionFault rid code a =
    (s.setRegion rid { r with frozen := true }).addRecord
      { regionRecord s r code 8 a with ends := r.launch, stops := if r.launch.isNone then some rid else none } := by
  simp only [State.regionFault, hr]

/-- A contained fault freezes its region, what is on its way staying there (R401). -/
theorem containedFault_region (hr : s.region? rid = some r) (code : Nat) (retire : Option Nat) (a : FaultAt) :
    ∃ r1, (s.containedFault rid code retire a).region? rid = some r1 ∧ r1.frozen = true ∧ r1.flight = r.flight := by
  refine ⟨{ (if r.unreplayable || r.replays code a.span.lo then r else r.replayFrom code a.span.lo) with frozen := true }, ?_, rfl, ?_⟩
  · simp only [State.containedFault, hr]
    cases retire <;> exact State.setRegion_region_self s rid _
  · dsimp only
    split_ifs <;> rfl

end

/-- BRK holds an ordinary firing where none that it holds has been released (R406). -/
theorem execBrk_fires {f : Fab} {s : State} {rid slot ctx : Nat} {r : Region} (hf : s.focus = .slot rid slot ctx) (hr : s.region? rid = some r)
    (hh : (r.node slot ctx).held = []) : exec (.brk f) s =
      fireWith (.brk f) (fun _ => f.ty) (judge f.pm) (holdFiring f) (fun s rid _ _ t => toBoth f s rid t) (fun s rid _ t => toBoth f s rid t) s := by
  rw [show exec (.brk f) s = execBrk f s from rfl, execBrk]
  simp only [hf, hr, Option.bind_some, Node.freed, hh, Option.map_none]
  cases r.live <;> rfl

/-- BRK sends a held firing that has been released (R406). -/
theorem execBrk_freed {f : Fab} {s : State} {rid slot ctx : Nat} {r : Region} {h : Held} {hs : List Held} (hf : s.focus = .slot rid slot ctx)
    (hr : s.region? rid = some r) (hl : r.live = true) (hh : (r.node slot ctx).held = h :: hs) (hfr : h.freed = true) : exec (.brk f) s =
      .next (s.setRegion rid ((r.setNode slot ctx { (r.node slot ctx) with held := hs }).sendBoth f h.tok)) := by
  rw [show exec (.brk f) s = execBrk f s from rfl, execBrk]
  simp [hf, hr, hl, Node.freed, hh, hfr]

end Sys2Proof.Machine

namespace Sys2Proof.Claims

open Sys2Proof.Machine

/-- A BRK's firing is held behind those it holds (R406). -/
theorem brk_gives {f : Fab} {z : FiringAt} {t : Token} (ha : (z.ops (.brk f) fun _ => f.ty).a = some t) (hh : (z.r.node z.slot z.ctx).held = []) :
    z.gives (.brk f) (fun _ => f.ty) (judge f.pm) fun r fr =>
      (z.s.setRegion z.rid (r.setNode z.slot z.ctx { (r.node z.slot z.ctx) with held := (r.node z.slot z.ctx).held ++ [⟨forwards z fr t, fr.span, false⟩] })).addRecord
        (regionRecord (z.s.setRegion z.rid r) r codeBreak 0 ⟨z.slot, 0xFF, z.ctx, fr.span, fr.a.toList.map fun t => (0, t), f.imm.toNat, 0⟩) := by
  refine FiringAt.gives_of_ready (fun hr => execBrk_fires hr.focus hr.region hh) fun _ => ?_
  simp only [holdFiring, State.setRegion_region_self, State.setRegion_setRegion, pass_eq_forwards (show Firing.on _ .a = _ from ha)]

/-- The node of a slot that has fired and raised nothing of its own holds what it held. -/
theorem FiringAt.left_held (z : FiringAt) (i : Instr) (ty : Port → LaneTy) : ((z.left i ty).node z.slot z.ctx).held = (z.r.node z.slot z.ctx).held := by
  have hn : (z.left i ty).node z.slot z.ctx = (z.fired i).node z.slot z.ctx := by simp [FiringAt.left, Region.node]
  have hfi : (z.fired i).node z.slot z.ctx = afterFiring i (z.r.node z.slot z.ctx) z.set := by
    simp only [FiringAt.fired]
    split <;> exact Region.node_setNode_self ..
  rw [hn, hfi, afterFiring_held]

/-- Settles O33: TRAP's region fault and what it changes, BRK's held firing, and its release. -/
theorem trapAndBreak : Obligations.TrapAndBreak := by
  refine ⟨fun f z => ?_, fun s pq pe rid slot ctx r f h n => ⟨?release, fun hs hf hr hl hn hh hfr => ?freed⟩⟩
  case freed =>
    subst hn
    exact execBrk_freed hf hr hl hh hfr
  case release =>
    intro hs hr hh hi hq hpe ht
    refine congrArg Host.Outcome.next ?_
    simp [releaseBrk, hs, hr, hq, hpe, ht, hh, releaseHeldAt, hi]
  · dsimp only
    refine ⟨FiringAt.gives_of_fireWith (rfl : exec _ _ = execTrap f z.s) fun _ => rfl, fun s r code a hr => ?_, fun t ha hh hR hS hj => ?_⟩
    · rw [regionFault_eq hr]
      refine ⟨State.setRegion_region_self s _ _, fun k hk => State.setRegion_region_other s _ hk, rfl, rfl, _, addRecord_records _ _, ?_⟩
      simp [regionRecord]
    · refine ⟨_, _, brk_gives ha hh hR hS hj, State.setRegion_region_self z.s _ _, ?_⟩
      have hheld := z.left_held (.brk f) fun _ => f.ty
      refine ⟨by simp [Region.setNode], ?_, by simp [Region.setNode]⟩
      rw [Region.node_setNode_self]
      simp only [show (z.fired (.brk f)).raise z.slot z.ctx (z.ops (.brk f) fun _ => f.ty).interpFlags = z.left (.brk f) fun _ => f.ty from rfl,
        hheld, hh, List.nil_append]
      rfl

end Sys2Proof.Claims
end

section
/-! SUPPORT. O34: null and fault firings, and firings that consume poison. -/

namespace Sys2Proof.Claims

open Sys2Proof.Machine

/-- The instruction computes a DATA token, reading its ports by `ty` (R64). -/
def Computes (i : Instr) (f : Fab) (ty : Port → LaneTy) (s : State) : Prop := ∃ val, exec i s = computeFire i f ty s val

namespace Computes

section
variable {i : Instr} {f : Fab} {s : State}

theorem of_computeFire {ty : Port → LaneTy} {val : Nat → Firing → Computed} (he : exec i s = computeFire i f ty s val) : Computes i f ty s := ⟨val, he⟩
theorem of_intOne {op : Lane → Lane} (he : exec i s = intOne i f s op) : Computes i f (fun _ => f.ty) s := ⟨_, he.trans rfl⟩
theorem of_intTwo {op : Lane → Lane → Lane} (he : exec i s = intTwo i f s op) : Computes i f (fun _ => f.ty) s := ⟨_, he.trans rfl⟩
theorem of_intVals {op : Int → Int → Int} (he : exec i s = intVals i f s op) : Computes i f (fun _ => f.ty) s := of_intTwo he
theorem of_intBits {op : Nat → Nat → Nat} (he : exec i s = intBits i f s op) : Computes i f (fun _ => f.ty) s := of_intTwo he
theorem of_intCount {op : Nat → Nat → Nat} (he : exec i s = intCount i f s op) : Computes i f (fun _ => f.ty) s := of_intOne he
theorem of_floatOne {op : Lane → Flagged Lane} (he : exec i s = floatOne i f s op) : Computes i f (fun _ => f.ty) s := ⟨_, he.trans rfl⟩
theorem of_floatTwo {op : Lane → Lane → Flagged Lane} (he : exec i s = floatTwo i f s op) : Computes i f (fun _ => f.ty) s := ⟨_, he.trans rfl⟩
theorem of_laneMove {op : Firing → Lanes → Lanes} (he : exec i s = laneMove i f s op) : Computes i f (fun _ => f.ty) s := ⟨_, he.trans rfl⟩

end

end Computes

/-- The instructions that compute a DATA token, with the type they read their ports by. -/
def computing : List ((Fab → Instr) × (Fab → LaneTy)) :=
  ([.const, .add, .sub, .mul, .mulh, .mad, .div, .rem, .neg, .abs, .min, .max, .adds, .subs, .avg, .cmp, .idx, .and, .or, .xor, .not, .shl, .shr, .sar,
    .rot, .popc, .clz, .ctz, .bfe, .bfi, .fadd, .fsub, .fmul, .fma, .fmin, .fmax, .fabs, .fneg, .fcmp, .fdiv, .frcp, .fsqrt, .frsq, .fexp2, .flog2, .fsig, .ftanh,
    .fclass, .frnd, .perm, .bcast, .lrot, .lsum, .lmax, .flsum, .fldot, .pack, .unpack].map fun c => (c, Fab.ty)) ++
  [(.cvt, fun f => (tyOfCode (bits f.imm.toNat 3 0)).getD .b32)]

open Computes in
/-- Each of them computes. -/
theorem computing_computes : ∀ e ∈ computing, ∀ (f : Fab) (s : State), Computes (e.1 f) f (fun _ => e.2 f) s := by
  refine List.forall_iff_forall_mem.1 ?_
  simp only [computing, List.map_cons, List.map_nil, List.cons_append, List.nil_append, List.forall_cons, List.Forall]
  exact ⟨fun f s => of_computeFire (show exec (.const f) s = execConst f s from rfl), fun f s => of_intVals (show exec (.add f) s = execAdd f s from rfl),
    fun f s => of_intVals (show exec (.sub f) s = execSub f s from rfl), fun f s => of_intVals (show exec (.mul f) s = execMul f s from rfl),
    fun f s => of_intVals (show exec (.mulh f) s = execMulh f s from rfl), fun f s => of_computeFire (show exec (.mad f) s = execMad f s from rfl),
    fun f s => of_intVals (show exec (.div f) s = execDiv f s from rfl), fun f s => of_intVals (show exec (.rem f) s = execRem f s from rfl),
    fun f s => of_intOne (show exec (.neg f) s = execNeg f s from rfl), fun f s => of_intOne (show exec (.abs f) s = execAbs f s from rfl),
    fun f s => of_intVals (show exec (.min f) s = execMin f s from rfl), fun f s => of_intVals (show exec (.max f) s = execMax f s from rfl),
    fun f s => of_intVals (show exec (.adds f) s = execAdds f s from rfl), fun f s => of_intVals (show exec (.subs f) s = execSubs f s from rfl),
    fun f s => of_intVals (show exec (.avg f) s = execAvg f s from rfl), fun f s => of_computeFire (show exec (.cmp f) s = execCmp f s from rfl),
    fun f s => of_computeFire (show exec (.idx f) s = execIdx f s from rfl), fun f s => of_intBits (show exec (.and f) s = execAnd f s from rfl),
    fun f s => of_intBits (show exec (.or f) s = execOr f s from rfl), fun f s => of_intBits (show exec (.xor f) s = execXor f s from rfl),
    fun f s => of_intOne (show exec (.not f) s = execNot f s from rfl), fun f s => of_intTwo (show exec (.shl f) s = execShl f s from rfl),
    fun f s => of_intTwo (show exec (.shr f) s = execShr f s from rfl), fun f s => of_intTwo (show exec (.sar f) s = execSar f s from rfl),
    fun f s => of_intTwo (show exec (.rot f) s = execRot f s from rfl), fun f s => of_intCount (show exec (.popc f) s = execPopc f s from rfl),
    fun f s => of_intCount (show exec (.clz f) s = execClz f s from rfl), fun f s => of_intCount (show exec (.ctz f) s = execCtz f s from rfl),
    fun f s => of_intOne (show exec (.bfe f) s = execBfe f s from rfl), fun f s => of_intTwo (show exec (.bfi f) s = execBfi f s from rfl),
    fun f s => of_floatTwo (show exec (.fadd f) s = execFadd f s from rfl), fun f s => of_floatTwo (show exec (.fsub f) s = execFsub f s from rfl),
    fun f s => of_floatTwo (show exec (.fmul f) s = execFmul f s from rfl), fun f s => of_computeFire (show exec (.fma f) s = execFma f s from rfl),
    fun f s => of_floatTwo (show exec (.fmin f) s = execFmin f s from rfl), fun f s => of_floatTwo (show exec (.fmax f) s = execFmax f s from rfl),
    fun f s => of_floatOne (show exec (.fabs f) s = execFabs f s from rfl), fun f s => of_floatOne (show exec (.fneg f) s = execFneg f s from rfl),
    fun f s => of_computeFire (show exec (.fcmp f) s = execFcmp f s from rfl), fun f s => of_floatTwo (show exec (.fdiv f) s = execFdiv f s from rfl),
    fun f s => of_floatOne (show exec (.frcp f) s = execFrcp f s from rfl), fun f s => of_floatOne (show exec (.fsqrt f) s = execFsqrt f s from rfl),
    fun f s => of_floatOne (show exec (.frsq f) s = execFrsq f s from rfl), fun f s => of_floatOne (show exec (.fexp2 f) s = execFexp2 f s from rfl),
    fun f s => of_floatOne (show exec (.flog2 f) s = execFlog2 f s from rfl), fun f s => of_floatOne (show exec (.fsig f) s = execFsig f s from rfl),
    fun f s => of_floatOne (show exec (.ftanh f) s = execFtanh f s from rfl), 
    fun f s => of_computeFire (show exec (.fclass f) s = execFclass f s from rfl), fun f s => of_floatOne (show exec (.frnd f) s = execFrnd f s from rfl),
    fun f s => of_laneMove (show exec (.perm f) s = execPerm f s from rfl), fun f s => of_laneMove (show exec (.bcast f) s = execBcast f s from rfl),
    fun f s => of_laneMove (show exec (.lrot f) s = execLrot f s from rfl), fun f s => of_laneMove (show exec (.lsum f) s = execLsum f s from rfl),
    fun f s => of_computeFire (show exec (.lmax f) s = execLmax f s from rfl), fun f s => of_computeFire (show exec (.flsum f) s = execFlsum f s from rfl),
    fun f s => of_computeFire (show exec (.fldot f) s = execFldot f s from rfl), fun f s => of_laneMove (show exec (.pack f) s = execPack f s from rfl),
    fun f s => of_laneMove (show exec (.unpack f) s = execUnpack f s from rfl), fun f s => of_computeFire (show exec (.cvt f) s = execCvt f s from rfl)⟩

/-- The instructions that send other tokens, and whose null and fault results go to both targets. -/
def sending : List ((Fab → Instr) × (Fab → LaneTy)) :=
  ([.nullgen, .copy, .steer, .lexit, .ends, .gate, .join, .spanset, .spanshift, .spanclip, .stale, .rangeMake, .ctxnew, .ctxfree].map fun c => (c, Fab.ty)) ++
  [(.ord, fun _ => .b32), (.fence, fun _ => .b32), (.wptr, fun _ => .b32)]

/-- Each of them fires so. -/
theorem sending_fire : ∀ e ∈ sending, ∀ (f : Fab) (s : State), ∃ act, exec (e.1 f) s = fire (e.1 f) f (fun _ => e.2 f) s act := by
  refine List.forall_iff_forall_mem.1 ?_
  simp only [sending, List.map_cons, List.map_nil, List.cons_append, List.nil_append, List.forall_cons, List.Forall]
  exact ⟨fun f s => ⟨_, show exec (.nullgen f) s = execNullgen f s from rfl⟩, fun f s => ⟨_, show exec (.copy f) s = execCopy f s from rfl⟩,
    fun f s => ⟨_, show exec (.steer f) s = execSteer f s from rfl⟩, fun f s => ⟨_, show exec (.lexit f) s = execLexit f s from rfl⟩,
    fun f s => ⟨_, show exec (.ends f) s = execEnds f s from rfl⟩, fun f s => ⟨_, show exec (.gate f) s = execGate f s from rfl⟩,
    fun f s => ⟨_, show exec (.join f) s = execJoin f s from rfl⟩, fun f s => ⟨_, show exec (.spanset f) s = execSpanset f s from rfl⟩,
    fun f s => ⟨_, show exec (.spanshift f) s = execSpanshift f s from rfl⟩, fun f s => ⟨_, show exec (.spanclip f) s = execSpanclip f s from rfl⟩,
    fun f s => ⟨_, show exec (.stale f) s = execStale f s from rfl⟩, fun f s => ⟨_, show exec (.rangeMake f) s = execRangeMake f s from rfl⟩,
    fun f s => ⟨_, show exec (.ctxnew f) s = execCtxnew f s from rfl⟩, fun f s => ⟨_, show exec (.ctxfree f) s = execCtxfree f s from rfl⟩,
    fun f s => ⟨_, show exec (.ord f) s = execOrd f s from rfl⟩, fun f s => ⟨_, show exec (.fence f) s = execFence f s from rfl⟩,
    fun f s => ⟨_, show exec (.wptr f) s = execWptr f s from rfl⟩⟩

/-- An instruction whose null and fault results go to both targets computes, or sends another token. -/
theorem plainResults_subset : ∀ e ∈ plainResults, e ∈ computing ∨ e ∈ sending := by
  refine List.forall_iff_forall_mem.1 ?_
  simp only [plainResults, List.map_cons, List.map_nil, List.cons_append, List.nil_append, List.forall_cons, List.Forall]
  and_intros <;> simp [computing, sending]

/-- The instructions whose null and fault results go to both targets fire so (R71). -/
theorem plainResults_fire : ∀ e ∈ plainResults, ∀ (f : Fab) (s : State), ∃ act, exec (e.1 f) s = fire (e.1 f) f (fun _ => e.2 f) s act := by
  intro e he f s
  rcases plainResults_subset e he with h | h
  · obtain ⟨val, hv⟩ := computing_computes e h f s
    exact ⟨_, hv⟩
  · exact sending_fire e h f s

/-- A fault firing's result carries the payload of its first FAULT operand (R71). -/
theorem faultResult_eq {fr : Firing} {t : Token} (h : fr.operands.find? (fun x => x.kind = .fault) = some t) (ctx : Nat) :
    fr.faultResult ctx = fr.result ctx .fault .none t.lanes := by
  simp only [Firing.faultResult, h, Option.map_some, Option.getD_some]

section
variable {z : FiringAt} {f : Fab} {i : Instr} {ty : Port → LaneTy} {act : State → Nat → Nat → Nat → Firing → State}

/-- A firing whose null and fault results go to both targets, without upset or consumed poison. -/
theorem fire_judged (he : exec i z.s = fire i f ty z.s act) (hr : z.Ready i ty) (hu : z.s.upset = .none) (hp : consumesPoison i (z.ops i ty) = false) :
    exec i z.s = .next (match judge f.pm (z.ops i ty) with
      | .consumed => z.s.setRegion z.rid (z.fired i)
      | .fault => z.s.setRegion z.rid ((z.fired i).sendBoth f ((z.ops i ty).faultResult z.ctx))
      | .null => z.s.setRegion z.rid ((z.fired i).sendBoth f ((z.ops i ty).nullResult z.ctx))
      | .ordinary => act (z.s.setRegion z.rid (z.left i ty)) z.rid z.slot z.ctx (z.ops i ty)) := by
  rw [he, fire, fireWith_judged hr.focus hr.region hr.live hr.next hr.span hr.ready hu hp]
  simp only [toBoth_setRegion]
  rfl

/-- A firing that consumes poison is contained (R399). -/
theorem fire_poisoned (he : exec i z.s = fire i f ty z.s act) (hr : z.Ready i ty) (hu : z.s.upset = .none) (hp : consumesPoison i (z.ops i ty) = true) :
    exec i z.s = .next (z.s.containedFault z.rid codeUncorrectable none ⟨z.slot, 0xFF, z.ctx, z.span, (z.ops i ty).images, 0, 0⟩) := by
  have hready : slotReady i z.s z.r z.slot z.ctx (some (z.set.firing i ty z.span)) = true := hr.ready
  have hpoison : consumesPoison i (z.set.firing i ty z.span) = true := hp
  rw [he, fire]
  simp only [fireWith, hr.focus, hr.region, hr.live, hr.next, hr.span, hready, hu, hpoison, Bool.not_true, Bool.false_eq_true, reduceCtorEq, if_false, if_true]
  rfl

end

/-- Settles O34: by how the firing is judged, and whether it consumes poison. -/
theorem nullAndFaultFirings : Obligations.NullAndFaultFirings := by
  intro e hmem f z i ty fr hr hu
  obtain ⟨act, he⟩ := plainResults_fire e hmem f z.s
  refine ⟨fun hp => ⟨fun hj => ?_, fun hj => ?_, fun t hj ht => ?_⟩, fun hp => ?_⟩
  · rw [fire_judged he hr hu hp, hj]
  · rw [fire_judged he hr hu hp, hj]; rfl
  · rw [fire_judged he hr hu hp, hj]
    exact congrArg (fun x => Host.Outcome.next (z.s.setRegion z.rid ((z.fired i).sendBoth f x))) (faultResult_eq ht z.ctx)
  · obtain ⟨r1, h1, h2, h3⟩ := containedFault_region hr.region codeUncorrectable none ⟨z.slot, 0xFF, z.ctx, z.span, fr.images, 0, 0⟩
    exact ⟨_, r1, fire_poisoned he hr hu hp, h1, h2, h3⟩

end Sys2Proof.Claims
end

section
/-! SUPPORT. O60: the frame of the fabric instructions that only compute. What such a firing does is put its region again, its tokens sent and its
flags raised. -/

namespace Sys2Proof.Claims

open Sys2Proof.Machine

/-- A region with other tokens on their way and other flags. -/
def sent (r : Region) (x : List Flight) (g : NatMap ExFlags) : Region := { r with flight := x, flags := g }

/-- What a firing does to a region that has just been put: it sends tokens and raises flags. -/
def Sends (rid : Nat) (g : State → State) : Prop := ∀ (s : State) (r : Region), ∃ x y, g (s.setRegion rid r) = s.setRegion rid (sent r x y)

namespace Sends

variable {rid : Nat} {g h : State → State}

theorem id (rid : Nat) : Sends rid fun s => s := fun _ r => ⟨r.flight, r.flags, rfl⟩

/-- One after the other. -/
theorem comp (hg : Sends rid g) (hh : Sends rid h) : Sends rid fun s => h (g s) := fun s r => by
  obtain ⟨x, y, hx⟩ := hg s r
  obtain ⟨x', y', hx'⟩ := hh s (sent r x y)
  exact ⟨x', y', (congrArg h hx).trans hx'⟩

/-- One or the other. -/
theorem ite {p : Prop} [Decidable p] (hg : Sends rid g) (hh : Sends rid h) : Sends rid fun s => if p then g s else h s := by
  split_ifs
  · exact hg
  · exact hh

theorem toOne (x : Option Target) (rid : Nat) (t : Token) : Sends rid fun s => Machine.toOne x s rid t := fun s r => by
  simp only [toOne_setRegion]
  cases x with
  | none => exact ⟨r.flight, r.flags, rfl⟩
  | some x => exact ⟨_, r.flags, rfl⟩

theorem toBoth (f : Fab) (rid : Nat) (t : Token) : Sends rid fun s => Machine.toBoth f s rid t := fun s r => by
  obtain ⟨x, y, h⟩ := (toOne f.t0 rid t).comp (toOne f.t1 rid t) s r
  refine ⟨x, y, ?_⟩
  rw [← h]
  simp only [toBoth_setRegion, toOne_setRegion]
  rfl

/-- Flags raised in the region. -/
theorem raise (rid slot ctx : Nat) (g : ExFlags) : Sends rid fun s => match s.region? rid with
    | some r => s.setRegion rid (r.raise slot ctx g)
    | none => s := fun s r => by
  simp only [State.setRegion_region_self, State.setRegion_setRegion]
  unfold Region.raise
  split_ifs
  · exact ⟨r.flight, r.flags, rfl⟩
  · exact ⟨r.flight, _, rfl⟩

end Sends

/-- An instruction whose firings, null and fault firings among them, only send tokens and raise flags. -/
def OnlySends (i : Instr) (s : State) : Prop := ∃ ty j act other fin, exec i s = fireWith i ty j act other fin s ∧
  (∀ rid slot ctx fr, Sends rid fun s => act s rid slot ctx fr) ∧ ∀ rid slot fr t, Sends rid fun s => other s rid slot fr t

section
variable {i : Instr} {f : Fab} {s : State}

/-- An instruction whose null and fault results go to both targets. -/
theorem OnlySends.of_fire {ty : Port → LaneTy} {act : State → Nat → Nat → Nat → Firing → State} (he : exec i s = fire i f ty s act)
    (ha : ∀ rid slot ctx fr, Sends rid fun s => act s rid slot ctx fr) : OnlySends i s :=
  ⟨ty, _, act, _, _, he, ha, fun rid _ _ t => Sends.toBoth f rid t⟩

/-- An instruction that computes. -/
theorem OnlySends.of_computeFire {ty : Port → LaneTy} {val : Nat → Firing → Computed} (he : exec i s = computeFire i f ty s val) : OnlySends i s :=
  .of_fire he fun rid slot ctx fr => (Sends.raise rid slot ctx (val ctx fr).flags).comp (Sends.toBoth f rid _)

/-- STEER sends its tokens (R145). -/
theorem steer_onlySends (f : Fab) (s : State) : OnlySends (.steer f) s := by
  refine .of_fire (show exec (.steer f) s = execSteer f s from rfl) fun rid slot ctx fr => ?_
  cases fr.control .b with
  | true => exact (Sends.toOne f.t0 rid _).comp (.ite (Sends.toOne f.t1 rid _) (Sends.id rid))
  | false => exact (Sends.ite (Sends.toOne f.t0 rid _) (Sends.id rid)).comp (Sends.toOne f.t1 rid _)
  | none => exact Sends.toBoth f rid _
  | null => exact Sends.toBoth f rid _

/-- LEXIT sends its tokens (R151). -/
theorem lexit_onlySends (f : Fab) (s : State) : OnlySends (.lexit f) s := by
  refine .of_fire (show exec (.lexit f) s = execLexit f s from rfl) fun rid slot ctx fr => ?_
  cases fr.control .b with
  | true => exact (Sends.toOne f.t0 rid _).comp (Sends.toOne f.t1 rid _)
  | false => exact Sends.toOne f.t1 rid _
  | none => exact Sends.toBoth f rid _
  | null => exact Sends.toBoth f rid _

/-- ENDS sends its tokens (R152). -/
theorem ends_onlySends (f : Fab) (s : State) : OnlySends (.ends f) s :=
  .of_fire (show exec (.ends f) s = execEnds f s from rfl) fun rid _ _ _ => (Sends.toBoth f rid _).comp (.ite (Sends.toBoth f rid _) (Sends.id rid))

/-- SEL sends its token (R148). -/
theorem sel_onlySends (f : Fab) (s : State) : OnlySends (.sel f) s :=
  ⟨_, _, _, _, _, show exec (.sel f) s = execSel f s from rfl, fun rid _ _ _ => .ite (Sends.toBoth f rid _) (Sends.toBoth f rid _),
    fun rid _ _ t => Sends.toBoth f rid t⟩

/-- DROP sends none (R144). -/
theorem drop_onlySends (f : Fab) (s : State) : OnlySends (.drop f) s :=
  ⟨_, _, _, _, _, show exec (.drop f) s = execDrop f s from rfl, fun rid _ _ _ => Sends.id rid, fun rid _ _ _ => Sends.id rid⟩

end

/-- The forms that compute no DATA token, and FSCALE, whose ports have types of their own. -/
def otherForms : List (Fab → Instr) := [.nullgen, .copy, .drop, .steer, .lexit, .ends, .gate, .sel, .join, .ord, .fence, .fscale]

/-- Each of them only sends. -/
theorem otherForms_onlySends : ∀ c ∈ otherForms, ∀ (f : Fab) (s : State), OnlySends (c f) s := by
  refine List.forall_iff_forall_mem.1 ?_
  simp only [otherForms, List.forall_cons, List.Forall]
  exact ⟨fun f s => .of_fire (show exec (.nullgen f) s = execNullgen f s from rfl) fun rid _ _ _ => Sends.toBoth f rid _,
    fun f s => .of_fire (show exec (.copy f) s = execCopy f s from rfl) fun rid _ _ _ => Sends.toBoth f rid _,
    drop_onlySends, steer_onlySends, lexit_onlySends, ends_onlySends,
    fun f s => .of_fire (show exec (.gate f) s = execGate f s from rfl) fun rid _ _ _ => Sends.toBoth f rid _,
    sel_onlySends,
    fun f s => .of_fire (show exec (.join f) s = execJoin f s from rfl) fun rid _ _ _ => Sends.toBoth f rid _,
    fun f s => .of_fire (show exec (.ord f) s = execOrd f s from rfl) fun rid _ _ _ => Sends.toBoth f rid _,
    fun f s => .of_fire (show exec (.fence f) s = execFence f s from rfl) fun rid _ _ _ => Sends.toBoth f rid _,
    fun f s => .of_computeFire (show exec (.fscale f) s = execFscale f s from rfl)⟩

/-- The forms that only compute are those and the forms that compute a DATA token. -/
theorem computeForms_subset : ∀ c ∈ computeForms, c ∈ computing.map Prod.fst ∨ c ∈ otherForms := by
  refine List.forall_iff_forall_mem.1 ?_
  simp only [computeForms, List.forall_cons, List.Forall]
  and_intros <;> simp [computing, otherForms]

/-- Each of them only sends. -/
theorem computeForms_onlySends {c : Fab → Instr} (hc : c ∈ computeForms) (f : Fab) (s : State) : OnlySends (c f) s := by
  rcases computeForms_subset c hc with h | h
  · obtain ⟨e, he, rfl⟩ := List.mem_map.1 h
    obtain ⟨val, hv⟩ := computing_computes e he f s
    exact .of_computeFire hv
  · exact otherForms_onlySends c h f s

/-- The node of another slot or another context stays when a node is put. -/
theorem node_setNode_other {r : Region} {slot ctx k d : Nat} (n : Node) (_ : slot < 128) (hc : ctx < 4096) (_ : k < 128) (hd : d < 4096)
    (h : k ≠ slot ∨ d ≠ ctx) : (r.setNode slot ctx n).node k d = r.node k d := by
  refine NatMap.get_set_other _ _ _ ?_
  simp only [nodeKey, Region.setNode]
  omega

/-- What a firing that only sends leaves of its region. -/
structure RegionKept (r w : Region) (slot ctx : Nat) : Prop where
  blocks : w.blocks = r.blocks
  pes : w.pes = r.pes
  running : w.running = r.running
  frozen : w.frozen = r.frozen
  nodes : slot < 128 → ctx < 4096 → ∀ k d, k < 128 → d < 4096 → (k ≠ slot ∨ d ≠ ctx) → w.node k d = r.node k d
  windows : ∀ k, w.window k = r.window k

/-- What interpolation raises counts among the flags. -/
theorem sent_raise (r : Region) (slot ctx : Nat) (g : ExFlags) (x : List Flight) (y : NatMap ExFlags) : sent (r.raise slot ctx g) x y = sent r x y := by
  unfold Region.raise
  split_ifs <;> rfl

/-- A region that has fired and sent tokens keeps the rest. -/
theorem sent_afterSet_kept (i : Instr) (r : Region) (slot ctx : Nat) (set : CandSet) (x : List Flight) (y : NatMap ExFlags) :
    RegionKept r (sent (afterSet i r slot ctx set) x y) slot ctx := by
  unfold afterSet
  dsimp only
  split_ifs <;> exact ⟨rfl, rfl, rfl, rfl, fun hs hc k d hk hd h => node_setNode_other _ hs hc hk hd h, fun _ => rfl⟩

/-- A firing of an instruction that only sends: nothing happens, or its region is put with what it keeps. -/
theorem OnlySends.outcome {i : Instr} {s t : State} {rid slot ctx : Nat} {r : Region} {z : CandSet} (ho : OnlySends i s) (hf : s.focus = .slot rid slot ctx)
    (hr : s.region? rid = some r) (hz : nextSet i (r.node slot ctx) = some z) (hu : s.upset = .none)
    (hp : ∀ ty sp, consumesPoison i (z.firing i ty sp) = false) (ht : exec i s = .next t) :
    t = s ∨ ∃ w, t = s.setRegion rid w ∧ RegionKept r w slot ctx := by
  obtain ⟨ty, j, act, other, fin, he, ha, hoth⟩ := ho
  rw [he] at ht
  by_cases hl : r.live = true
  swap
  · simp only [fireWith, hf, hr, Bool.not_eq_true _ ▸ hl, Bool.not_false, if_true] at ht
    exact .inl (Host.Outcome.next.inj ht).symm
  cases hs : z.span? with
  | none =>
    simp only [fireWith, hf, hr, hl, hz, hs, Bool.not_true, Bool.false_eq_true, if_false] at ht
    exact .inl (Host.Outcome.next.inj ht).symm
  | some sp =>
    by_cases hb : slotReady i s r slot ctx (some (z.firing i ty sp)) = true
    swap
    · simp only [fireWith, hf, hr, hl, hz, hs, Bool.not_eq_true _ ▸ hb, Bool.not_true, Bool.not_false, Bool.false_eq_true, if_false, if_true] at ht
      exact .inl (Host.Outcome.next.inj ht).symm
    rw [fireWith_judged hf hr hl hz hs hb hu (hp ty sp)] at ht
    have ht := Host.Outcome.next.inj ht
    refine .inr ?_
    cases hj : j (z.firing i ty sp) <;> rw [hj] at ht
    case consumed => exact ⟨_, ht.symm, sent_afterSet_kept i r slot ctx z _ _⟩
    case ordinary =>
      obtain ⟨x, y, h⟩ := ha rid slot ctx (z.firing i ty sp) s ((afterSet i r slot ctx z).raise slot ctx (z.firing i ty sp).interpFlags)
      exact ⟨_, ht.symm.trans h, sent_raise (afterSet i r slot ctx z) .. ▸ sent_afterSet_kept i r slot ctx z x y⟩
    all_goals
      obtain ⟨x, y, h⟩ := hoth rid slot (z.firing i ty sp) _ s (afterSet i r slot ctx z)
      exact ⟨_, ht.symm.trans h, sent_afterSet_kept i r slot ctx z x y⟩

/-- Settles O60: the machine as it was, or with the firing's region put again. -/
theorem computeFormsFrame : Obligations.ComputeFormsFrame := by
  intro c hc f s t rid slot ctx r hf hr z hz hu hp ht
  rcases (computeForms_onlySends hc f s).outcome hf hr hz hu hp ht with rfl | ⟨w, rfl, hk⟩
  · exact ⟨fun _ => rfl, rfl, rfl, rfl, rfl, rfl, rfl, fun _ _ => rfl, r, hr, rfl, rfl, rfl, rfl, fun _ _ _ _ _ _ _ => rfl, fun _ => rfl⟩
  · exact ⟨fun _ => rfl, rfl, rfl, rfl, rfl, rfl, rfl, fun k hne => State.setRegion_region_other s w hne, w, State.setRegion_region_self s rid w,
      hk.blocks, hk.pes, hk.running, hk.frozen, hk.nodes, hk.windows⟩

end Sys2Proof.Claims
end

section
/-! SUPPORT. O35 to O40: engine words. An engine word is its unit's check at issue and its unit's acceptance; a word that may go has the effect its
unit gives it. -/

namespace Sys2Proof.Claims

open Sys2Proof.Machine

section
variable {raw : Nat} {h : Hdr} {o : OpE} {s : State} {lq q : Nat} {check : Cmd → Option (Nat × Nat)} {accept : State → Cmd → WordResult} {i : Instr}

/-- An engine word that can be accepted has the effect its unit gives it (R103, R255). -/
theorem EngineGo.runs (g : EngineGo s lq q raw) (he : exec i s = engineWord raw h o s check accept) (hc : check (commandOfWord s lq q raw h o) = none) :
    exec i s = .next (finishWord s lq q raw h (accept (served s lq q .engine) (commandOfWord s lq q raw h o))) :=
  he.trans (engineWord_goes g.focus g.present hc g.allowed g.first g.room)

/-- One that its unit's check refuses traps (R255). -/
theorem engine_traps {code va : Nat} (he : exec i s = engineWord raw h o s check accept) (hf : s.focus = .queue lq q) (ha : absentUnit s raw = false)
    (hc : check (commandOfWord s lq q raw h o) = some (code, va)) : exec i s = traps s lq q raw code va 0 :=
  he.trans (engineWord_refused hf ha hc)

/-- The opcode of an engine word. -/
theorem opcode_wordE {op : Nat} (h : Hdr) (o : OpE) (ho : op < 256) : bits (wordE op h o) 127 120 = op := by
  rw [bits, Nat.shiftRight_eq_div_pow]
  exact Laws.DecodesBack.opcode_encodeSeq h (.formatE o) ho

/-- The register of an engine word's result. -/
theorem qd_wordE (op : Nat) (h : Hdr) (o : OpE) : bits (wordE op h o) 79 75 = o.qd.toNat := by
  have hqd : wfield (wordE op h o) 75 5 = o.qd := congrArg OpE.qd (Laws.DecodesBack.opEFields_encodeSeq op h o)
  rw [← hqd, wfield, BitVec.toNat_ofNat]
  simp only [bits, Nat.shiftRight_eq_div_pow]

end

/-- An engine word with its opcode; `plain` says that its unit makes no check of its own at issue (R103). -/
def IsEngineWord (e : (Hdr → OpE → Instr) × Nat × Bool) : Prop := ∀ (h : Hdr) (o : OpE) (s : State), ∃ check accept,
  exec (e.1 h o) s = engineWord (wordE e.2.1 h o) h o s check accept ∧ (e.2.2 = true → ∀ c, check c = none)

/-- The engine words are engine words. -/
theorem engineWords_are : ∀ e ∈ engineWords, IsEngineWord e := by
  refine List.forall_iff_forall_mem.1 ?_
  simp only [engineWords, List.forall_cons, List.Forall]
  exact ⟨fun h o s => ⟨_, _, show exec (.bceCopy h o) s = execBceCopy h o s from rfl, nofun⟩,
    fun h o s => ⟨_, _, show exec (.copymx h o) s = execCopymx h o s from rfl, nofun⟩,
    fun h o s => ⟨_, _, show exec (.copysh h o) s = execCopysh h o s from rfl, nofun⟩,
    fun h o s => ⟨_, _, show exec (.gather h o) s = execGather h o s from rfl, nofun⟩,
    fun h o s => ⟨_, _, show exec (.scatter h o) s = execScatter h o s from rfl, nofun⟩,
    fun h o s => ⟨_, _, show exec (.fill h o) s = execFill h o s from rfl, nofun⟩,
    fun h o s => ⟨_, _, show exec (.mma h o) s = execMma h o s from rfl, fun _ _ => rfl⟩,
    fun h o s => ⟨_, _, show exec (.mmat h o) s = execMmat h o s from rfl, fun _ _ => rfl⟩,
    fun h o s => ⟨_, _, show exec (.accinit h o) s = execAccinit h o s from rfl, fun _ _ => rfl⟩,
    fun h o s => ⟨_, _, show exec (.acccnt h o) s = execAcccnt h o s from rfl, fun _ _ => rfl⟩,
    fun h o s => ⟨_, _, show exec (.accout h o) s = execAccout h o s from rfl, fun _ _ => rfl⟩,
    fun h o s => ⟨_, _, show exec (.accdrain h o) s = execAccdrain h o s from rfl, fun _ _ => rfl⟩,
    fun h o s => ⟨_, _, show exec (.accpart h o) s = execAccpart h o s from rfl, fun _ _ => rfl⟩,
    fun h o s => ⟨_, _, show exec (.mxcfgMode h o) s = execMxcfgMode h o s from rfl, nofun⟩,
    fun h o s => ⟨_, _, show exec (.mxcfgPolicy h o) s = execMxcfgPolicy h o s from rfl, fun _ _ => rfl⟩,
    fun h o s => ⟨_, _, show exec (.ovfstat h o) s = execOvfstat h o s from rfl, fun _ _ => rfl⟩,
    fun h o s => ⟨_, _, show exec (.cred h o) s = execCred h o s from rfl, nofun⟩,
    fun h o s => ⟨_, _, show exec (.crfix h o) s = execCrfix h o s from rfl, nofun⟩,
    fun h o s => ⟨_, _, show exec (.crstat h o) s = execCrstat h o s from rfl, fun _ _ => rfl⟩,
    fun h o s => ⟨_, _, show exec (.stinit h o) s = execStinit h o s from rfl, fun _ _ => rfl⟩,
    fun h o s => ⟨_, _, show exec (.stins h o) s = execStins h o s from rfl, fun _ _ => rfl⟩,
    fun h o s => ⟨_, _, show exec (.stdraw h o) s = execStdraw h o s from rfl, fun _ _ => rfl⟩,
    fun h o s => ⟨_, _, show exec (.stupd h o) s = execStupd h o s from rfl, fun _ _ => rfl⟩,
    fun h o s => ⟨_, _, show exec (.stwgtBeta h o) s = execStwgtBeta h o s from rfl, fun _ _ => rfl⟩,
    fun h o s => ⟨_, _, show exec (.stwgt h o) s = execStwgt h o s from rfl, fun _ _ => rfl⟩,
    fun h o s => ⟨_, _, show exec (.ststat h o) s = execStstat h o s from rfl, fun _ _ => rfl⟩,
    fun h o s => ⟨_, _, show exec (.pdaload h o) s = execPdaload h o s from rfl, nofun⟩,
    fun h o s => ⟨_, _, show exec (.pdastep h o) s = execPdastep h o s from rfl, fun _ _ => rfl⟩,
    fun h o s => ⟨_, _, show exec (.mask h o) s = execMask h o s from rfl, fun _ _ => rfl⟩,
    fun h o s => ⟨_, _, show exec (.sample h o) s = execSample h o s from rfl, fun _ _ => rfl⟩,
    fun h o s => ⟨_, _, show exec (.gmcfg h o) s = execGmcfg h o s from rfl, nofun⟩,
    fun h o s => ⟨_, _, show exec (.gmstat h o) s = execGmstat h o s from rfl, fun _ _ => rfl⟩,
    fun h o s => ⟨_, _, show exec (.vopen h o) s = execVopen h o s from rfl, nofun⟩,
    fun h o s => ⟨_, _, show exec (.vbind h o) s = execVbind h o s from rfl, nofun⟩,
    fun h o s => ⟨_, _, show exec (.vclose h o) s = execVclose h o s from rfl, nofun⟩,
    fun h o s => ⟨_, _, show exec (.vstat h o) s = execVstat h o s from rfl, nofun⟩⟩

/-- Settles O35: the unit, the access table, the port and the room are looked at in this order. -/
theorem engineWordsTrapOrWait : Obligations.EngineWordsTrapOrWait := by
  intro e hmem h o s lq q hf raw
  obtain ⟨check, accept, he, hn⟩ := engineWords_are e hmem h o s
  refine ⟨fun ha => he.trans (engineWord_absent hf ha), fun hp ha => ⟨fun hd => ?_, fun hd hw => ?_⟩⟩
  · exact he.trans (engineWord_denied hf ha (hn hp _) hd)
  · exact he.trans (engineWord_waits hf ha (hn hp _) hd hw)

end Sys2Proof.Claims
end

section
/-! SUPPORT. O36: copy words enter their channel. -/

namespace Sys2Proof.Claims

open Sys2Proof.Machine

/-- What no element of a list is, is not found in it. -/
theorem takeFirst_none {α : Type} {p : α → Bool} {xs : List α} (h : ∀ x ∈ xs, p x = false) : takeFirst p xs = none := by
  induction xs with
  | nil => rfl
  | cons x xs ih => simp [takeFirst, h x List.mem_cons_self, ih fun y hy => h y (List.mem_cons_of_mem _ hy)]

/-- A command that no channel has set aside is loaded afresh (R277). -/
theorem load_fresh {k : Channel8} {c : Cmd} (h : ∀ a ∈ k.aside, a.1 ≠ c) : k.load c =
    { k with st := .run, cur := some c, started := false, wasFenced := false, posted := none, job := none, ctx := c.ctx, cover := [] } := by
  simp only [Channel8.load, takeFirst_none fun x hx => decide_eq_false (h x hx)]

/-- The alignment a copy word's index list or size record needs (R283). -/
def listAlign (op : Nat) : Nat := if op = 0x43 ∨ op = 0x44 then 4 else if op ≤ 0x42 then 64 else 1

/-- The checks of a copy word at issue (R283). -/
theorem bceCheck_eq (c : Cmd) : bceCheck c =
    if c.v.toNat % 64 ≠ 0 then some (codeAlignment, c.v.toNat)
    else if c.d.toNat % listAlign c.opcode ≠ 0 then some (codeAlignment, c.d.toNat) else none := by
  simp only [bceCheck, listAlign]
  split_ifs <;> first | rfl | omega

/-- The copy words are engine words of the copy engine. -/
theorem copyWords_are : ∀ e ∈ copyWords, e.2 < 256 ∧ ∀ (h : Hdr) (o : OpE) (s : State),
    exec (e.1 h o) s = engineWord (wordE e.2 h o) h o s bceCheck bceAccept := by
  refine List.forall_iff_forall_mem.1 ?_
  simp only [copyWords, List.forall_cons, List.Forall]
  exact ⟨⟨by decide, fun _ _ _ => rfl⟩, ⟨by decide, fun _ _ _ => rfl⟩, ⟨by decide, fun _ _ _ => rfl⟩, ⟨by decide, fun _ _ _ => rfl⟩,
    ⟨by decide, fun _ _ _ => rfl⟩, ⟨by decide, fun _ _ _ => rfl⟩⟩

/-- Settles O36: the checks at issue, then the channel takes the command. -/
theorem copyWordsEnterChannels : Obligations.CopyWordsEnterChannels := by
  intro e hmem h o s lq q raw c s1 n k list
  obtain ⟨hop, he⟩ := copyWords_are e hmem
  have hlist : listAlign c.opcode = list := congrArg listAlign (opcode_wordE h o hop)
  refine ⟨fun hv hd g => ?_, fun hf ha hv => ?_, fun hf ha hv hd => ?_⟩
  · have hrun := g.runs (he h o s) ((bceCheck_eq c).trans (by rw [hlist, if_neg (not_not.2 hv), if_neg (not_not.2 hd)]))
    refine ⟨fun hc => ⟨hrun.trans ?_, load_fresh⟩, fun hc => hrun.trans ?_⟩
    · have htake : k.take c = k.load c := if_pos (by rw [hc]; rfl)
      exact congrArg (fun x => accepts s (s1.setChan lq n x) lq q raw) htake
    · have htake : k.take c = { k with queue := k.queue ++ [c] } := if_neg (by rw [Option.isNone_iff_eq_none]; exact hc)
      exact congrArg (fun x => accepts s (s1.setChan lq n x) lq q raw) htake
  · exact engine_traps (he h o s) hf ha ((bceCheck_eq c).trans (if_pos hv))
  · exact engine_traps (he h o s) hf ha ((bceCheck_eq c).trans (by rw [hlist, if_neg (not_not.2 hv), if_pos hd]; rfl))

end Sys2Proof.Claims
end

section
/-! SUPPORT. O37: matrix words enter their tile. -/

namespace Sys2Proof.Claims

open Sys2Proof.Machine

/-- The words that a tile queues are engine words of a tile, and none takes the bypass slot (R312). -/
theorem tileWords_are : ∀ e ∈ tileWords, e.2 < 256 ∧ ¬ (e.2 = 0x56 ∨ e.2 = 0x58) ∧ ∀ (h : Hdr) (o : OpE) (s : State),
    exec (e.1 h o) s = engineWord (wordE e.2 h o) h o s noCheck mxAccept := by
  refine List.forall_iff_forall_mem.1 ?_
  simp only [tileWords, List.forall_cons, List.Forall]
  exact ⟨⟨by decide, by decide, fun _ _ _ => rfl⟩, ⟨by decide, by decide, fun _ _ _ => rfl⟩, ⟨by decide, by decide, fun _ _ _ => rfl⟩,
    ⟨by decide, by decide, fun _ _ _ => rfl⟩, ⟨by decide, by decide, fun _ _ _ => rfl⟩, ⟨by decide, by decide, fun _ _ _ => rfl⟩,
    ⟨by decide, by decide, fun _ _ _ => rfl⟩⟩

/-- Settles O37: a tile's queue, its bypass slot, the queue's mode and the overflow state. -/
theorem matrixWordsEnterTiles : Obligations.MatrixWordsEnterTiles := by
  intro h o s lq q
  refine ⟨fun e hmem g => ?_, fun g => ?_, ⟨fun g hm => ?_, fun hf ha hm => ?_⟩, fun g => ?_⟩
  · obtain ⟨hop, hb, he⟩ := tileWords_are e hmem
    refine (g.runs (he h o s) rfl).trans ?_
    have hcmd : ¬ ((commandOfWord s lq q (wordE e.2 h o) h o).opcode = 0x56 ∨ (commandOfWord s lq q (wordE e.2 h o) h o).opcode = 0x58) := by
      rw [show (commandOfWord s lq q (wordE e.2 h o) h o).opcode = e.2 from opcode_wordE h o hop]
      exact hb
    simp only [mxAccept, Mxt.take, if_neg hcmd]
    rfl
  · refine (g.runs (show exec (.accpart h o) s = execAccpart h o s from rfl) rfl).trans ?_
    have hcmd : (commandOfWord s lq q (wordE 0x56 h o) h o).opcode = 0x56 ∨ (commandOfWord s lq q (wordE 0x56 h o) h o).opcode = 0x58 :=
      .inl (opcode_wordE h o (by decide))
    simp only [mxAccept, Mxt.take, if_pos hcmd]
    rfl
  · exact g.runs (show exec (.mxcfgMode h o) s = execMxcfgMode h o s from rfl) (if_pos hm)
  · exact engine_traps (show exec (.mxcfgMode h o) s = execMxcfgMode h o s from rfl) hf ha (if_neg (ne_true_of_eq_false hm))
  · refine (g.runs (show exec (.ovfstat h o) s = execOvfstat h o s from rfl) rfl).trans ?_
    simp only [show bits (commandOfWord s lq q (wordE 0x58 h o) h o).word 79 75 = o.qd.toNat from qd_wordE 0x58 h o]
    rfl

end Sys2Proof.Claims
end

section
/-! SUPPORT. O38: CRED, CRFIX and CRSTAT. -/

namespace Sys2Proof.Claims

open Sys2Proof.Machine

/-- Settles O38: the check of the descriptor and of the task, then the item sets out. -/
theorem collectiveWordsSetOut : Obligations.CollectiveWordsSetOut := by
  intro h o s lq q
  refine ⟨⟨fun g hc => ?_, fun hf ha hc => ?_⟩, ⟨fun g hd => ?_, fun hf ha hd => ?_⟩, fun g => ?_⟩
  · exact g.runs (show exec (.cred h o) s = execCred h o s from rfl) (if_neg (not_not.2 hc))
  · exact engine_traps (show exec (.cred h o) s = execCred h o s from rfl) hf ha (if_pos hc)
  · exact g.runs (show exec (.crfix h o) s = execCrfix h o s from rfl) (if_neg (by rw [isDet, hd]; exact Bool.false_ne_true))
  · exact engine_traps (show exec (.crfix h o) s = execCrfix h o s from rfl) hf ha (if_pos (Option.isSome_iff_ne_none.2 hd))
  · refine (g.runs (show exec (.crstat h o) s = execCrstat h o s from rfl) rfl).trans ?_
    simp only [show bits (commandOfWord s lq q (wordE 0x62 h o) h o).word 79 75 = o.qd.toNat from qd_wordE 0x62 h o]
    rfl

end Sys2Proof.Claims
end

section
/-! SUPPORT. O39: sampling and grammar words. -/

namespace Sys2Proof.Claims

open Sys2Proof.Machine

/-- The words that a sampling engine takes as commands are engine words of it. -/
theorem treeWords_are : ∀ e ∈ treeWords, e.2 < 256 ∧ ∀ (h : Hdr) (o : OpE) (s : State),
    exec (e.1 h o) s = engineWord (wordE e.2 h o) h o s noCheck pseAccept := by
  refine List.forall_iff_forall_mem.1 ?_
  simp only [treeWords, List.forall_cons, List.Forall]
  exact ⟨⟨by decide, fun _ _ _ => rfl⟩, ⟨by decide, fun _ _ _ => rfl⟩, ⟨by decide, fun _ _ _ => rfl⟩, ⟨by decide, fun _ _ _ => rfl⟩,
    ⟨by decide, fun _ _ _ => rfl⟩, ⟨by decide, fun _ _ _ => rfl⟩⟩

/-- The words that a grammar engine takes as commands are engine words of it; deterministic tasks may use all but two. -/
theorem grammarWords_are : ∀ e ∈ grammarWords, ∀ (h : Hdr) (o : OpE) (s : State),
    exec (e.1 h o) s = engineWord (wordE e.2.1 h o) h o s (if e.2.2 then noCheck else sharedCheck s) gmeAccept := by
  refine List.forall_iff_forall_mem.1 ?_
  simp only [grammarWords, List.forall_cons, List.Forall]
  exact ⟨fun _ _ _ => rfl, fun _ _ _ => rfl, fun _ _ _ => rfl, fun _ _ _ => rfl, fun _ _ _ => rfl⟩

/-- A command joins the queue of its hall with its number (R352). -/
theorem pseEnqueue_eq (s : State) (hall : Nat) (c : Cmd) :
    let t := bits c.word 5 0
    let x := s.hallOf hall
    let n := if c.opcode = 0x70 then 0 else (x.tree t).nextSeq
    pseEnqueue s hall c = s.setHall hall { (x.setTree t { (x.tree t) with nextSeq := n + 1 }) with pseQ := x.pseQ ++ [⟨c, t, n⟩] } := by
  simp only [pseEnqueue, numberCmd, decide_eq_true_eq]
  rfl

/-- Settles O39: by whether the task is deterministic. -/
theorem samplingAndGrammarWords : Obligations.SamplingAndGrammarWords := by
  intro h o s lq q
  refine ⟨fun e hmem g => ⟨fun hd => ?_, fun hd => ?_⟩, fun g => ⟨fun hd => ?_, fun n l hd hv hp => ?_⟩,
    fun e hmem => ⟨fun g hd => ?_, fun hf ha hp hd => ?_⟩, fun g => ?_⟩
  · obtain ⟨hop, he⟩ := treeWords_are e hmem
    have hdet : detLaunchOf (served s lq q .engine) (commandOfWord s lq q (wordE e.2 h o) h o).ctx = none := hd
    have hcode : (commandOfWord s lq q (wordE e.2 h o) h o).opcode = e.2 := opcode_wordE h o hop
    refine (g.runs (he h o s) rfl).trans ?_
    simp only [pseAccept, hdet, Option.isSome_none, Bool.false_eq_true, if_false, pseEnqueue_eq, hcode]
    rfl
  · obtain ⟨hop, he⟩ := treeWords_are e hmem
    have hdet : (detLaunchOf (served s lq q .engine) (commandOfWord s lq q (wordE e.2 h o) h o).ctx).isSome = true := Option.isSome_iff_ne_none.2 hd
    refine (g.runs (he h o s) rfl).trans ?_
    simp only [pseAccept, hdet, if_true]
    rfl
  · have hdet : detLaunchOf (served s lq q .engine) (commandOfWord s lq q (wordE 0x75 h o) h o).ctx = none := hd
    have hcode : (commandOfWord s lq q (wordE 0x75 h o) h o).opcode ≠ 0x70 := by
      rw [show (commandOfWord s lq q (wordE 0x75 h o) h o).opcode = 0x75 from opcode_wordE h o (by decide)]
      decide
    refine (g.runs (show exec (.ststat h o) s = execStstat h o s from rfl) rfl).trans ?_
    simp only [hdet, pseEnqueue_eq, if_neg hcode]
    rfl
  · have hdet : detLaunchOf (served s lq q .engine) (commandOfWord s lq q (wordE 0x75 h o) h o).ctx = some (n, l) := hd
    refine (g.runs (show exec (.ststat h o) s = execStstat h o s from rfl) rfl).trans ?_
    simp only [hdet]
    rw [if_neg, show bits (commandOfWord s lq q (wordE 0x75 h o) h o).word 79 75 = o.qd.toNat from qd_wordE 0x75 h o]
    · rfl
    · rw [Bool.or_eq_true, Bool.not_eq_true', decide_eq_true_eq, not_or]
      exact ⟨ne_false_of_eq_true hv, not_not.2 hp⟩
  · have he := grammarWords_are e hmem h o s
    refine (g.runs he ?_).trans rfl
    split_ifs with hshare
    · rfl
    · exact if_neg (by rw [isDet, show detLaunchOf s (commandOfWord s lq q (wordE e.2.1 h o) h o).ctx = none from hd.resolve_left hshare]; exact Bool.false_ne_true)
  · refine engine_traps (grammarWords_are e hmem h o s) hf ha ?_
    rw [hp]
    exact if_pos (Option.isSome_iff_ne_none.2 hd)
  · exact g.runs (show exec (.gmstat h o) s = execGmstat h o s from rfl) rfl

end Sys2Proof.Claims
end

section
/-! SUPPORT. O40: video words act on streams. -/

namespace Sys2Proof.Claims

open Sys2Proof.Machine

/-- The check of a video word: its stream is one that the part has (R389). -/
theorem vieCheck_pass {s : State} {c : Cmd} (h : bits c.word 9 0 < s.numStreams) : vieCheck s c = none := if_neg (Nat.not_le.2 h)

/-- The video words are engine words that make this check. -/
theorem videoWords_are : ∀ e ∈ [(Instr.vopen, 0x90), (.vbind, 0x91), (.vclose, 0x92), (.vstat, 0x93)], ∀ (h : Hdr) (o : OpE) (s : State), ∃ accept,
    exec (e.1 h o) s = engineWord (wordE e.2 h o) h o s (vieCheck s) accept := by
  refine List.forall_iff_forall_mem.1 ?_
  simp only [List.Forall]
  exact ⟨fun h o s => ⟨_, show exec (.vopen h o) s = execVopen h o s from rfl⟩, fun h o s => ⟨_, show exec (.vbind h o) s = execVbind h o s from rfl⟩,
    fun h o s => ⟨_, show exec (.vclose h o) s = execVclose h o s from rfl⟩, fun h o s => ⟨_, show exec (.vstat h o) s = execVstat h o s from rfl⟩⟩

/-- VOPEN opens a closed stream with a descriptor in order (R390). -/
theorem vieOpen_opens {s : State} {c : Cmd} {bs : List Byte} {d : StreamDesc} (hst : (s.streamOf (bits c.word 9 0)).st = .closed) (ha : c.s.toNat % 64 = 0)
    (hr : engineRead (s.struck (vieCmdAccess c) c.s.toNat) (vieCmdAccess c) (c.s.toNat % 2 ^ 57) 64 = .done bs) (hd : streamDesc bs = some d) :
    let s3 := (s.struck (vieCmdAccess c) c.s.toNat).dropOwnReads (vieCmdAccess c)
    vieOpen s c = .completed (s3.setStream (bits c.word 9 0) { Stream.init with st := .opened, part := c.part, decoder := freeDecoder s3, desc := d }) c := by
  simp only [vieOpen, hst, ha, hr, hd, ne_eq, not_true_eq_false, false_and, if_false]

/-- VBIND binds an opened stream of its partition to an input with its bound (R390). -/
theorem vieBind_binds {s : State} {c : Cmd} {t : StreamTarget} {l : Launch} {r : Region} (hst : (s.streamOf (bits c.word 9 0)).st = .opened)
    (hp : (s.streamOf (bits c.word 9 0)).part = c.part) (hb : c.t.toNat < 2 ^ 40)
    (ht : bindTarget s (s.streamOf (bits c.word 9 0)) c.part c.s.toNat = some (t, l, r))
    (hs : (r.block?).map (·.tshift) = some (s.streamOf (bits c.word 9 0)).desc.shift) (hd : l.rcd.det = false) :
    vieBind s c = .completed (s.setStream (bits c.word 9 0) { (s.streamOf (bits c.word 9 0)) with st := .bound, target := t, bound := c.t.toNat }) c := by
  simp only [vieBind, hst, hp, ht, hs, hd, Nat.not_le.2 hb, ne_eq, not_true_eq_false, and_false, or_self, if_false, Bool.false_eq_true]

/-- VCLOSE of a stream of its partition, by the stream's state (R390). -/
theorem vieClose_eq {s : State} {c : Cmd} (hp : (s.streamOf (bits c.word 9 0)).part = c.part) :
    let x := s.streamOf (bits c.word 9 0)
    vieClose s c = match x.st with
      | .opened => .completed (s.setStream (bits c.word 9 0) { x with st := .closed, busy := [], queue := [], taken := [] }) c
      | .bound => .accepted (s.setStream (bits c.word 9 0) { x with st := .closing, closeCmd := some c })
      | _ => .aborted s c codeIllegal 0 := by
  intro x
  exact if_neg fun hx => hx.2 hp

/-- Settles O40: each word by the state of its stream. -/
theorem videoWordsActOnStreams : Obligations.VideoWordsActOnStreams := by
  intro h o s lq q
  refine ⟨fun bs d g hn hst ha hr hd => ?_, fun t l r g hn hst hp hb ht hs hd => ?_, fun g hn hp => ⟨fun hst => ?_, fun hst => ?_⟩, fun g hn => ?_,
    fun e hmem hf ha hn => ?_⟩
  · refine (g.runs (show exec (.vopen h o) s = execVopen h o s from rfl) (vieCheck_pass hn)).trans ?_
    rw [vieOpen_opens hst ha hr hd]
    rfl
  · refine (g.runs (show exec (.vbind h o) s = execVbind h o s from rfl) (vieCheck_pass hn)).trans ?_
    rw [vieBind_binds hst hp hb ht hs hd]
    rfl
  · refine (g.runs (show exec (.vclose h o) s = execVclose h o s from rfl) (vieCheck_pass hn)).trans ?_
    rw [vieClose_eq hp]
    simp only [show ((served s lq q .engine).streamOf (bits (commandOfWord s lq q (wordE 0x92 h o) h o).word 9 0)).st = .opened from hst]
    rfl
  · refine (g.runs (show exec (.vclose h o) s = execVclose h o s from rfl) (vieCheck_pass hn)).trans ?_
    rw [vieClose_eq hp]
    simp only [show ((served s lq q .engine).streamOf (bits (commandOfWord s lq q (wordE 0x92 h o) h o).word 9 0)).st = .bound from hst]
    rfl
  · refine (g.runs (show exec (.vstat h o) s = execVstat h o s from rfl) (vieCheck_pass hn)).trans ?_
    simp only [show bits (commandOfWord s lq q (wordE 0x93 h o) h o).word 79 75 = o.qd.toNat from qd_wordE 0x93 h o]
    rfl
  · obtain ⟨accept, he⟩ := videoWords_are e hmem h o s
    exact engine_traps he hf ha (if_pos hn)

end Sys2Proof.Claims
end

section
/-! SUPPORT. O41, O42: writes of registers by the system cores. -/

namespace Sys2Proof.Claims

open Sys2Proof.Machine

/-- The fields of a written value are those of the statements. -/
theorem fields_eq_fieldsOf (v : Word64) (fs : List (Nat × Nat)) : fields v fs = fieldsOf v fs := by
  rw [fields, fieldsOf, List.sum_eq_foldl]

/-- A write of the system cores, once they act. -/
theorem core_next {s t : State} {i : Instr} {f : State → State} (hc : coresAct s) (he : exec i s = s.byCore f) (ht : f s = t) : exec i s = .next t := by
  rw [he, byCore_next hc, ht]

/-- Before they act, and where both slots were rejected, there is none (R456, R458). -/
theorem byCore_of_not {s : State} (h : ¬ coresAct s) (f : State → State) : s.byCore f = .next s := by
  cases hp : s.boot.phase with
  | rom => exact byCore_rom hp f
  | failed n => exact byCore_failed hp f
  | firmware => exact absurd (.inl hp) h
  | running => exact absurd (.inr hp) h

/-- The low four bits that name one queue. -/
theorem testBit_of_mod {v q j : Nat} (h : v % 16 = 2 ^ q) (hj : j < 4) : v.testBit j = decide (q = j) := by
  have hv : (v % 2 ^ 4).testBit j = v.testBit j := by rw [Nat.testBit_mod_two_pow, decide_eq_true hj, Bool.true_and]
  rw [← hv, show v % 2 ^ 4 = 2 ^ q from h, Nat.testBit_two_pow]

/-- QSQ_START that names one queue (R253). -/
theorem startQueues_one {s : State} {lq q v p : Nat} (hq : q < 4) (hv : v % 16 = 2 ^ q) (ho : s.lqOwner lq = some p) :
    startQueues s lq v = if (s.queueOf lq q).st ≠ .running then
      s.setQueue lq q { (s.queueOf lq q) with st := .running, loops := [], phase := .fresh } else s := by
  have hb : ∀ j < 4, bit v j = decide (q = j) := fun j hj => testBit_of_mod hv hj
  simp only [startQueues, ho, Option.isNone_some, Bool.false_eq_true, if_false, List.foldl_cons, List.foldl_nil, hb 0 (by decide), hb 1 (by decide),
    hb 2 (by decide), hb 3 (by decide)]
  interval_cases q <;> simp

/-- QSQ_QCTL of a quad that a partition owns (R253, R451). -/
theorem writeQctl_owned {s : State} {lq q v p : Nat} (ho : s.lqOwner lq = some p) :
    let x := s.queueOf lq q
    let c := if ctxFor s p (bits v 63 52) then bits v 63 52 else (x.ctl.map (·.1)).getD x.ctx
    writeQctl s lq q v = s.setQueue lq q (if x.st = .running ∧ x.phase ≠ .fresh then { x with ctl := some (c, bits v 10 8) }
      else { x with ctx := c, prio := bits v 10 8, ctl := none }) := by
  intro x c
  have hc : x.control.1 = (x.ctl.map (·.1)).getD x.ctx := by
    simp only [Queue.control]
    cases x.ctl <;> rfl
  simp only [writeQctl, ho, show (s.queueOf lq q).control.1 = _ from hc]
  rfl

/-- Settles O41: each register's write, by the state of its queue or quad. -/
theorem sequencerRegisterWrites : Obligations.SequencerRegisterWrites := by
  intro s lq q n v hc
  dsimp only
  refine ⟨fun hq hv ho => ⟨fun hst => ?_, fun hst => ?_⟩, fun ho => ?_, fun hst => ?_, fun hst => ?_, fun p ho => ⟨fun h => ?_, fun hst hph => ?_⟩, ?_,
    fun hm => ?_, fun hm => ?_, fun hi hne => ?_, fun hi => ?_⟩
  · obtain ⟨p, ho⟩ := Option.ne_none_iff_exists'.1 ho
    exact core_next hc (show exec (.qsqStart lq v) s = s.byCore fun s => startQueues s lq v.toNat from rfl) ((startQueues_one hq hv ho).trans (if_pos hst))
  · obtain ⟨p, ho⟩ := Option.ne_none_iff_exists'.1 ho
    exact core_next hc (show exec (.qsqStart lq v) s = s.byCore fun s => startQueues s lq v.toNat from rfl) ((startQueues_one hq hv ho).trans (if_neg (not_not.2 hst)))
  · exact core_next hc (show exec (.qsqStart lq v) s = s.byCore fun s => startQueues s lq v.toNat from rfl) (if_pos (by rw [ho]; rfl))
  · have hpc : bits v.toNat 56 4 * 16 = v.toNat % 2 ^ 57 / 16 * 16 := by simp only [bits, Nat.shiftRight_eq_div_pow]; omega
    exact core_next hc (show exec (.qsqPcWrite lq q v) s = s.byCore fun s => writePc s lq q v.toNat from rfl) ((if_neg hst).trans (by rw [hpc]))
  · exact core_next hc (show exec (.qsqPcWrite lq q v) s = s.byCore fun s => writePc s lq q v.toNat from rfl) (if_pos hst)
  · refine core_next hc (show exec (.qsqQctlWrite lq q v) s = s.byCore fun s => writeQctl s lq q v.toNat from rfl) ((writeQctl_owned ho).trans ?_)
    rw [if_neg fun hn => h.elim (fun h => h hn.1) (fun h => hn.2 h)]
  · exact core_next hc (show exec (.qsqQctlWrite lq q v) s = s.byCore fun s => writeQctl s lq q v.toNat from rfl) ((writeQctl_owned ho).trans (by rw [if_pos ⟨hst, hph⟩]))
  · have hb : bits v.toNat 15 0 = v.toNat % 2 ^ 16 := by simp only [bits, Nat.shiftRight_zero]
    have hle : bits v.toNat 15 0 ≤ 65535 := by rw [hb]; omega
    refine core_next hc (show exec (.semWrite lq n v) s = s.byCore fun s => writeSem s lq n v.toNat from rfl) ?_
    rw [writeSem, semset, if_pos hle, hb]
    rfl
  · exact core_next hc (show exec (.qsqMxmodeWrite lq q v) s = s.byCore fun s => writeMxmode s lq q v from rfl) (if_pos hm)
  · exact core_next hc (show exec (.qsqMxmodeWrite lq q v) s = s.byCore fun s => writeMxmode s lq q v from rfl) (if_neg (ne_true_of_eq_false hm))
  · refine core_next hc (show exec (.sysLqpartWrite lq v) s = s.byCore fun s => writeLqpart s lq v from rfl) ?_
    rw [writeLqpart, fields_eq_fieldsOf, if_neg]
    rintro (h | h)
    · exact hne h
    · rw [hi] at h; exact Bool.false_ne_true h
  · exact core_next hc (show exec (.sysLqpartWrite lq v) s = s.byCore fun s => writeLqpart s lq v from rfl) (if_pos (.inr (by rw [hi]; rfl)))

/-- A partition whose area holds an image keeps its SYS_SAVE (R416). -/
theorem writeSave_eq (s : State) (p : Nat) (v : Word64) :
    writeSave s p v = if usedPages s p = [] then s.setPart p { (s.partOf p) with save := fieldsOf v [(63, 48), (46, 16)] } else s := by
  simp only [writeSave, fields_eq_fieldsOf, List.isEmpty_iff]

/-- A positive offset of device time is added at once, a negative one absorbed (R461). -/
theorem adjustTime_eq (s : State) (v : Word64) :
    adjustTime s v = if 0 ≤ v.toInt then { s with dtime := (s.dtime + v.toNat) % 2 ^ 64, absorb := 0, halfTick := false }
      else { s with absorb := (-v.toInt).toNat, halfTick := false } := by
  have hd : sext 64 v.toNat = v.toInt := by rw [sext_eq_toInt, BitVec.ofNat_toNat, BitVec.setWidth_eq]
  simp only [adjustTime, hd]
  split_ifs with h
  · rw [show v.toInt.toNat = v.toNat by rw [BitVec.toInt_eq_toNat_of_msb (by rw [BitVec.msb_eq_toInt]; exact decide_eq_false (not_lt.2 h))]; rfl]
  · rfl

/-- The writes of registers by the system cores (R408). -/
def coreWrites (p k c a lq : Nat) (v : Word64) : List Instr :=
  [.qsqStart lq v, .qsqPcWrite lq k v, .qsqQctlWrite lq k v, .semWrite lq k v, .qsqMxmodeWrite lq k v, .sysLqpartWrite lq v, .sysCtxownWrite c v,
    .sysSaveWrite p v, .qosWordWrite a v, .registerWrite a v, .dtimeAdjust v, .tsyncStart k v, .sysLqbaseWrite p k v, .launchDoorbell p k v, .partitionReset p]

/-- Each of them is a write of the system cores. -/
theorem coreWrites_byCore (p k c a lq : Nat) (v : Word64) (s : State) : ∀ i ∈ coreWrites p k c a lq v, ∃ f, exec i s = s.byCore f := by
  refine List.forall_iff_forall_mem.1 ?_
  simp only [coreWrites, List.Forall]
  exact ⟨⟨_, show exec (.qsqStart lq v) s = s.byCore fun s => startQueues s lq v.toNat from rfl⟩,
    ⟨_, show exec (.qsqPcWrite lq k v) s = s.byCore fun s => writePc s lq k v.toNat from rfl⟩,
    ⟨_, show exec (.qsqQctlWrite lq k v) s = s.byCore fun s => writeQctl s lq k v.toNat from rfl⟩,
    ⟨_, show exec (.semWrite lq k v) s = s.byCore fun s => writeSem s lq k v.toNat from rfl⟩,
    ⟨_, show exec (.qsqMxmodeWrite lq k v) s = s.byCore fun s => writeMxmode s lq k v from rfl⟩,
    ⟨_, show exec (.sysLqpartWrite lq v) s = s.byCore fun s => writeLqpart s lq v from rfl⟩,
    ⟨_, show exec (.sysCtxownWrite c v) s = s.byCore fun s => writeCtxown s c v from rfl⟩,
    ⟨_, show exec (.sysSaveWrite p v) s = s.byCore fun s => writeSave s p v from rfl⟩,
    ⟨_, show execQosWordWrite a v s = s.byCore _ from rfl⟩,
    ⟨_, show exec (.registerWrite a v) s = s.byCore fun s => writeAddr s a v from rfl⟩,
    ⟨_, show exec (.dtimeAdjust v) s = s.byCore fun s => adjustTime s v from rfl⟩,
    ⟨_, show exec (.tsyncStart k v) s = s.byCore fun s => (if k < s.numPorts then startTsync s k v else s) from rfl⟩,
    ⟨_, show exec (.sysLqbaseWrite p k v) s = s.byCore fun s => writeLqbase s p k v from rfl⟩,
    ⟨_, show exec (.launchDoorbell p k v) s = s.byCore fun s => ringDoorbell s p k v.toNat from rfl⟩,
    ⟨_, show exec (.partitionReset p) s = s.byCore fun s => startReset s p from rfl⟩⟩

/-- Settles O42: each register's write, and none before the firmware runs. -/
theorem systemRegisterWrites : Obligations.SystemRegisterWrites := by
  intro s p k c a lq v
  refine ⟨fun hc => ?cores, fun hc hw => ?lqbase, fun hw => ?lqbaseBusy, fun hst hf => ?resume, fun hst => ?discard, fun hn => ?off⟩
  case cores =>
    refine ⟨fun hv hfree => ?_, fun hv hheld huse => ?_, fun hu => ?_, fun hu => ?_, fun b hb => ⟨fun hbusy => ?_, fun hbusy hsum => ?_, fun hbusy hsum => ?_⟩,
      fun r ha hr => ?_, fun h => ?_, fun hv => ?_, fun hv => ?_, fun hk hst => ?_⟩
    · exact core_next hc (show exec (.sysCtxownWrite c v) s = s.byCore fun s => writeCtxown s c v from rfl) (by rw [writeCtxown, if_pos ⟨hv, hfree⟩, fields_eq_fieldsOf])
    · refine core_next hc (show exec (.sysCtxownWrite c v) s = s.byCore fun s => writeCtxown s c v from rfl) ?_
      rw [writeCtxown, if_neg (by rw [hv]; rintro ⟨h, -⟩; cases h), if_pos ⟨hv, hheld, by rw [huse]; rfl⟩]
    · exact core_next hc (show exec (.sysSaveWrite p v) s = s.byCore fun s => writeSave s p v from rfl) ((writeSave_eq s p v).trans (if_pos hu))
    · exact core_next hc (show exec (.sysSaveWrite p v) s = s.byCore fun s => writeSave s p v from rfl) ((writeSave_eq s p v).trans (if_neg hu))
    · refine core_next hc (show exec (.qosWordWrite a v) s = execQosWordWrite a v s from rfl) ?_
      simp only [hb]
      exact if_pos hbusy
    · refine core_next hc (show exec (.qosWordWrite a v) s = execQosWordWrite a v s from rfl) ?_
      simp only [hb]
      refine (if_neg (ne_true_of_eq_false hbusy)).trans ((if_neg (Nat.not_lt.2 hsum)).trans ?_)
      simp [fieldsOf]
    · refine core_next hc (show exec (.qosWordWrite a v) s = execQosWordWrite a v s from rfl) ?_
      simp only [hb]
      exact (if_neg (ne_true_of_eq_false hbusy)).trans (if_pos hsum)
    · refine core_next hc (show exec (.registerWrite a v) s = s.byCore fun s => writeAddr s a v from rfl) ((if_neg (not_not.2 ha)).trans ?_)
      simp only [hr]
    · refine core_next hc (show exec (.registerWrite a v) s = s.byCore fun s => writeAddr s a v from rfl) ?_
      simp only [writeAddr]
      split_ifs with ha
      · rfl
      · simp only [h.resolve_left ha]
    · exact core_next hc (show exec (.dtimeAdjust v) s = s.byCore fun s => adjustTime s v from rfl) ((adjustTime_eq s v).trans (if_pos hv))
    · exact core_next hc (show exec (.dtimeAdjust v) s = s.byCore fun s => adjustTime s v from rfl) ((adjustTime_eq s v).trans (if_neg (not_le.2 hv)))
    · exact core_next hc (show exec (.tsyncStart k v) s = s.byCore fun s => (if k < s.numPorts then startTsync s k v else s) from rfl) ((if_pos hk).trans (if_neg hst))
  case lqbase =>
    refine core_next hc (show exec (.sysLqbaseWrite p k v) s = s.byCore fun s => writeLqbase s p k v from rfl) ((if_neg (not_not.2 hw)).trans ?_)
    simp [fieldsOf]
  case lqbaseBusy =>
    by_cases hc : coresAct s
    · exact core_next hc (show exec (.sysLqbaseWrite p k v) s = s.byCore fun s => writeLqbase s p k v from rfl) (if_pos hw)
    · exact byCore_of_not hc fun s => writeLqbase s p k v
  case resume =>
    refine congrArg Host.Outcome.next (congrArg (s.setChan lq k) ?_)
    rw [Channel8.resume, hst]
    exact if_neg hf
  case discard =>
    refine congrArg Host.Outcome.next (congrArg (s.setChan lq k) ?_)
    rw [Channel8.discard]
    rcases hst with hst | hst <;> rw [hst]
  case off =>
    intro i hi
    obtain ⟨f, he⟩ := coreWrites_byCore p k c a lq v s i hi
    rw [he, byCore_of_not hn]

end Sys2Proof.Claims
end

section
/-! SUPPORT. O43, O44: power, boot and the host. -/

namespace Sys2Proof.Claims

open Sys2Proof.Machine

/-- A slot whose header is not in order fails the first step (R458). -/
theorem verify_of_header {b : Boot} {base : Nat} (h : b.headerOk base = false) : b.verify base = some 1 := by
  rw [Boot.verify, h]
  rfl

/-- A header in order has its magic number and its length (R457). -/
theorem headerOk_fields {b : Boot} {base : Nat} (h : b.headerOk base = true) :
    ofBytes (b.bytes base 0 4) = 0x31464D48 ∧ ofBytes (b.bytes base 8 4) ≤ 0x01FFBE00 := by
  simp only [Boot.headerOk, Boot.num, Bool.and_eq_true] at h
  obtain ⟨⟨⟨⟨hm, -⟩, -⟩, hl⟩, -⟩ := h
  exact ⟨of_decide_eq_true hm, of_decide_eq_true hl⟩

/-- What an accepted slot has passed (R458). -/
theorem verify_none {b : Boot} {base : Nat} (h : b.verify base = none) :
    b.rollback ≤ ofBytes (b.bytes base 4 4) ∧ sha384 (b.bytes base 16896 (ofBytes (b.bytes base 8 4))) = b.bytes base 16 48 ∧
      sha384 b.rsaKey = b.rsaHash ∧ rsaVerifies b.rsaKey (b.bytes base 64 384) (b.bytes base 0 64) = true ∧
      sha384 b.slhKey = b.slhHash ∧ slhVerifies b.slhKey (b.bytes base 448 16224) (b.bytes base 0 64) = true := by
  unfold Boot.verify at h
  split_ifs at h with h1 h2 h3 h4 h5
  obtain ⟨hr, hr'⟩ := not_or.1 h2
  obtain ⟨hs, hs'⟩ := not_or.1 h3
  exact ⟨Nat.not_lt.1 h5, not_not.1 h4, not_not.1 hr, by simpa using hr', not_not.1 hs, by simpa using hs'⟩

/-- The firmware of a slot that writes no register (R459). -/
theorem runFirmware_boot (s : State) (slot : Nat) :
    (runFirmware s slot []).boot.phase = .firmware ∧ (enablePf (runFirmware s slot [])).boot.phase = .running ∧
      (runFirmware s slot []).boot.identity = Config.identityKeys s.boot.secrets ∧ (runFirmware s slot []).boot.slot = slot ∧
      ((runFirmware s slot []).boot.rollback = s.boot.rollback ∨ (runFirmware s slot []).boot.rollback = (runFirmware s slot []).boot.version) := by
  refine ⟨rfl, rfl, rfl, rfl, ?_⟩
  simp only [runFirmware, List.foldl_nil]
  split_ifs
  · exact .inr rfl
  · exact .inl rfl

/-- The boot ROM starts slot A where it is accepted (R458). -/
theorem bootRom_slotA {s : State} {ws : List RegWrite} (h : s.boot.verify 0 = none) : bootRom s ws = runFirmware s 0 ws := by
  rw [bootRom, h]

/-- Else slot B. -/
theorem bootRom_slotB {s : State} {ws : List RegWrite} {n : Nat} (h : s.boot.verify 0 = some n) (hb : s.boot.verify slotB = none) :
    bootRom s ws = runFirmware s 1 ws := by
  simp only [bootRom, h, hb]

/-- Else the device stays in its reset state. -/
theorem bootRom_failed {s : State} {ws : List RegWrite} {n m : Nat} (h : s.boot.verify 0 = some n) (hb : s.boot.verify slotB = some m) :
    bootRom s ws = { s with boot := { s.boot with phase := .failed m } }.emit (.bootFailure m) := by
  simp only [bootRom, h, hb]

/-- Settles O43: the cold reset field by field, then the boot ROM's three outcomes and its checks. -/
theorem powerAndBoot : Obligations.PowerAndBoot := by
  refine ⟨fun s ws => ⟨rfl, rfl, rfl, rfl, rfl, rfl, rfl, rfl, rfl, rfl, rfl, rfl, rfl, rfl, rfl, rfl, rfl, rfl, fun h => ?_, fun n ha hb => ?_, fun n m ha hb => ?_,
    fun slot => runFirmware_boot (s.coldReset true) slot⟩, fun b base => ⟨fun h => ?_, fun h => ?_, verify_none⟩⟩
  · exact congrArg Host.Outcome.next (bootRom_slotA (s := s.coldReset true) h)
  · exact congrArg Host.Outcome.next (bootRom_slotB (s := s.coldReset true) ha hb)
  · exact congrArg Host.Outcome.next (bootRom_failed (s := s.coldReset true) ha hb)
  · exact verify_of_header (Bool.eq_false_iff.2 fun hh => h (headerOk_fields hh).1)
  · exact verify_of_header (Bool.eq_false_iff.2 fun hh => absurd (headerOk_fields hh).2 (Nat.not_le.2 h))

/-! ### Accesses of the host -/

/-- The PF reads one word that names a register (R437). -/
theorem pfAccess_read {s : State} {a : Nat} {r : Reg} (ha : a % 8 = 0) (hr : regAt s a = some r) :
    pfAccess s (.read a 8) = (afterRead s r).emit (.hostData (toBytes 8 (BitVec.ofNat 64 (readReg s r)).toNat)) := by
  have hw : wordsOf a 8 = some [a] := if_pos ⟨ha, rfl⟩
  simp only [pfAccess, hw, pfRead, pfWord, hr, List.append_nil]

/-- The PF writes one word that names a register (R437). -/
theorem pfAccess_write {s : State} {a : Nat} {r : Reg} {data : List Byte} (ha : a % 8 = 0) (hr : regAt s a = some r) (hd : data.length = 8) :
    pfAccess s (.write a data) = writeReg s r (BitVec.ofNat 64 (ofBytes data)) := by
  have hw : wordsOf a data.length = some [a] := by rw [hd]; exact if_pos ⟨ha, rfl⟩
  have ht : data.take 8 = data := List.take_of_length_le hd.le
  simp only [pfAccess, hw, List.foldl_cons, List.foldl_nil, Nat.sub_self, List.drop_zero, ht, writeAddr, if_neg (not_not.2 ha), hr]

/-- The bytes of a number, one by one (R4). -/
theorem toBytes_eq_map (n x : Nat) : toBytes n x = (List.range n).map fun i => BitVec.ofNat 8 (x / 256 ^ i) := by
  induction n generalizing x with
  | zero => rfl
  | succ n ih =>
    rw [toBytes, ih, List.range_succ_eq_map, List.map_cons, List.map_map]
    refine congrArg₂ _ (by rw [pow_zero, Nat.div_one]) (List.map_congr_left fun i _ => ?_)
    rw [Nat.div_div_eq_div_mul, ← Nat.pow_succ']
    rfl

/-- A VF reads WIDX at a doorbell (R437). -/
theorem vfAccess_doorbell (s : State) (p : Nat) {k : Nat} (hk : k < 64) :
    vfAccess s p (.read (8 * k) 8) = s.emit (.hostData (toBytes 8 (s.lqOf p k).widx)) := by
  rw [vfAccess, toBytes_eq_map]
  refine congrArg (fun l => s.emit (.hostData l)) (List.map_congr_left fun i hi => ?_)
  have hi : i < 8 := List.mem_range.1 hi
  rw [show (8 * k + i) / 8 = k by omega, show (8 * k + i) % 8 = i by omega, vfWord, if_pos hk]
  rfl

/-- A VF rings a doorbell (R437). -/
theorem vfAccess_ring (s : State) (p : Nat) {k : Nat} {data : List Byte} (hk : k < 64) (hd : data.length = 8) :
    vfAccess s p (.write (8 * k) data) = ringDoorbell s p k (ofBytes data % 2 ^ 32) := by
  have ht : touchedWords (8 * k) data.length = [k] := by
    rw [hd, touchedWords, if_neg (by decide), show (8 * k + 8 - 1) / 8 + 1 - 8 * k / 8 = 1 by omega, show 8 * k / 8 = k by omega]
    rfl
  have hm : (List.range 8).map (mergedByte (s.partOf p) (8 * k) data k) = data := by
    refine List.ext_getElem (by rw [List.length_map, List.length_range, hd]) fun i _ hi => ?_
    have hi8 : i < 8 := hd ▸ hi
    rw [List.getElem_map, List.getElem_range, mergedByte, if_pos ⟨by omega, by omega⟩, Nat.add_sub_cancel_left, List.getD_eq_getElem _ _ hi]
  simp only [vfAccess, ht, List.foldl_cons, List.foldl_nil, hm, vfWriteWord, if_pos hk]

/-- An access of a VF that nothing is before and that is answered (R438). -/
theorem hostArrives_free {s t : State} {p : Nat} {x : HostPosted} (hq : NatMap.get [] s.posted p = []) (hw : s.waitsFor (.host p) = false)
    (hx : hostStep s p x = .ok t) : hostArrives s p x = { t with posted := NatMap.set [] t.posted p [] } := by
  simp only [hostArrives, hq, List.nil_append, drainHost, hw, Bool.false_eq_true, if_false, hx]

/-- One that nothing is before and that must wait (R438). -/
theorem hostArrives_held {s : State} {p : Nat} {x : HostPosted} {h : Option PageHold} (hq : NatMap.get [] s.posted p = []) (hw : s.waitsFor (.host p) = false)
    (hx : hostStep s p x = .error h) : hostArrives s p x = { s.noteHold h with posted := NatMap.set [] (s.noteHold h).posted p [x] } := by
  simp only [hostArrives, hq, List.nil_append, drainHost, hw, Bool.false_eq_true, if_false, hx]

/-- One that follows writes which have not been performed (R438). -/
theorem hostArrives_waits {s : State} {p : Nat} {x : HostPosted} (hw : s.waitsFor (.host p) = true) :
    hostArrives s p x = { s with posted := NatMap.set [] s.posted p (NatMap.get [] s.posted p ++ [x]) } := by
  rw [hostArrives]
  cases hl : NatMap.get [] s.posted p with
  | nil => simp only [List.nil_append, drainHost, hw, if_true]
  | cons y ys => simp only [List.cons_append, drainHost, hw, if_true]

/-- The host's access to a VF (R438). -/
theorem exec_hostAccess_vf {s : State} {p : Nat} (acc : HostAcc) (hr : s.boot.phase = .running) (hp : p < 16) :
    exec (.hostAccess (.vf p) acc) s = .next (hostArrives s p (.bar acc)) := by
  rw [show exec (.hostAccess (.vf p) acc) s = execHostAccess (.vf p) acc s from rfl, execHostAccess, if_neg (not_not.2 hr)]
  exact if_pos hp

/-- The host's access to the PF (R437). -/
theorem exec_hostAccess_pf {s : State} (acc : HostAcc) (hr : s.boot.phase = .running) : exec (.hostAccess .pf acc) s = .next (pfAccess s acc) := by
  rw [show exec (.hostAccess .pf acc) s = execHostAccess .pf acc s from rfl, execHostAccess, if_neg (not_not.2 hr)]

/-- The host's access through the export window (R447). -/
theorem exec_cxlMemAccess {s : State} {p : Nat} (off : Nat) (acc : HostAcc) (hr : s.boot.phase = .running) (hp : p < 16) :
    exec (.cxlMemAccess p off acc) s = .next (hostArrives s p (.window off acc)) := by
  rw [show exec (.cxlMemAccess p off acc) s = execCxlMemAccess p off acc s from rfl, execCxlMemAccess,
    if_neg (not_or.2 ⟨not_not.2 hr, Nat.not_le.2 hp⟩)]

/-- Before the firmware has enabled the PF the host reaches nothing (R459). -/
theorem host_unanswered {s : State} (fn : HostFn) (p off : Nat) (acc : HostAcc) (hr : s.boot.phase ≠ .running) :
    exec (.hostAccess fn acc) s = .next s ∧ exec (.cxlMemAccess p off acc) s = .next s := by
  rw [show exec (.hostAccess fn acc) s = execHostAccess fn acc s from rfl, show exec (.cxlMemAccess p off acc) s = execCxlMemAccess p off acc s from rfl]
  exact ⟨if_pos hr, if_pos (.inl hr)⟩

/-- An access beyond the export window (R447). -/
theorem windowAccess_beyond {s : State} {p off n : Nat} (h : bits (s.partOf p).expsize.toNat 13 0 * 2 ^ 30 < off + n) :
    windowAccess s p off (.read 0 n) = .ok (s.emit (.hostFault 0x12)) := if_pos h

/-- A read within it (R447). -/
theorem windowAccess_read {s : State} {p off n : Nat} (h : off + n ≤ bits (s.partOf p).expsize.toNat 13 0 * 2 ^ 30) :
    windowAccess s p off (.read 0 n) = masterAccess s (cxlAccess s p) ((bits (s.partOf p).expbase.toNat 56 30 * 2 ^ 30 + off) % 2 ^ 57) none n (.host p)
      Msg.hostData Msg.hostFault := if_neg (Nat.not_lt.2 h)

/-- A write within it (R447). -/
theorem windowAccess_write {s t : State} {p off : Nat} {data : List Byte} (h : off + data.length ≤ bits (s.partOf p).expsize.toNat 13 0 * 2 ^ 30)
    (ht : s.writeVa { cxlAccess s p with want := .write } ((bits (s.partOf p).expbase.toNat 56 30 * 2 ^ 30 + off) % 2 ^ 57) data = .done t) :
    windowAccess s p off (.write 0 data) = .ok (t.ownedBy s (.host p)) := by
  refine (if_neg (Nat.not_lt.2 h)).trans ?_
  simp only [masterAccess, accData, accOff, Nat.add_zero, ht]

/-- The body of a report begins with its nonce (R462). -/
theorem reportBody_take (s : State) {nonce : List Byte} (h : nonce.length = 32) : (reportBody s nonce).take 32 = nonce := by
  have hp : padTo 32 nonce = nonce := by
    rw [padTo, h, Nat.sub_self, List.replicate_zero, List.append_nil]
    exact List.take_of_length_le h.le
  simp only [reportBody, hp, List.append_assoc]
  exact List.take_left' h

/-- Settles O44: each access by the lemma of its path. -/
theorem hostReachesTheDevice : Obligations.HostReachesTheDevice := by
  intro s fn acc p k a off n r nonce data
  dsimp only
  refine ⟨host_unanswered fn p off acc, fun hr => ⟨fun ha hreg => ⟨?_, fun hd => ?_⟩, fun hp hk => ⟨fun ⟨hq, hw⟩ => ⟨?_, fun hd => ?_⟩, fun hw => ?_⟩,
    fun hp ⟨hq, hw⟩ => ⟨fun hb => ?_, fun hb => ⟨fun bs h => ?_, fun bs h => ?_, fun c v h => ?_, fun w h => ?_⟩, fun hb t ht => ?_⟩, ?_, reportBody_take s⟩⟩
  · rw [exec_hostAccess_pf _ hr, pfAccess_read ha hreg]
  · rw [exec_hostAccess_pf _ hr, pfAccess_write ha hreg hd]
  · rw [exec_hostAccess_vf _ hr hp, hostArrives_free (x := .bar (.read (8 * k) 8)) hq hw (congrArg Except.ok (vfAccess_doorbell s p hk))]
  · rw [exec_hostAccess_vf _ hr hp, hostArrives_free (x := .bar (.write (8 * k) data)) hq hw (congrArg Except.ok (vfAccess_ring s p hk hd))]
  · rw [exec_hostAccess_vf _ hr hp, hostArrives_waits hw]
  · rw [exec_cxlMemAccess _ _ hr hp, hostArrives_free (x := .window off (.read 0 n)) hq hw (windowAccess_beyond hb)]
  · rw [exec_cxlMemAccess _ _ hr hp, hostArrives_free (x := .window off (.read 0 n)) hq hw ((windowAccess_read hb).trans (by simp only [masterAccess, h]; rfl))]
    rfl
  · rw [exec_cxlMemAccess _ _ hr hp, hostArrives_free (x := .window off (.read 0 n)) hq hw ((windowAccess_read hb).trans (by simp only [masterAccess, h]; rfl))]
    rfl
  · rw [exec_cxlMemAccess _ _ hr hp, hostArrives_free (x := .window off (.read 0 n)) hq hw ((windowAccess_read hb).trans (by simp only [masterAccess, h]; rfl))]
  · rw [exec_cxlMemAccess _ _ hr hp, hostArrives_held (x := .window off (.read 0 n)) hq hw ((windowAccess_read hb).trans (by simp only [masterAccess, h]; rfl))]
  · rw [exec_cxlMemAccess _ _ hr hp, hostArrives_free (x := .window off (.write 0 data)) hq hw (windowAccess_write hb ht)]
  · exact byCore_next (.inr hr) fun s =>
      let salt := s.freeBytes 48
      let rand := salt.2.freeBytes 24
      rand.2.emit (.report (reportBody s nonce ++ signatures s.boot salt.1 rand.1 (reportBody s nonce)))

end Sys2Proof.Claims
end

section
/-! SUPPORT. O45: a partition reset. -/

namespace Sys2Proof.Machine

/-! ### What a write of memory, here or at a peer, changes -/

/-- What writes of memory change, here and at peers: memory with its marks and checks, the views of deterministic tasks, and the requests to peers. -/
structure Wrote (s t : State) : Prop where
  eq : ∃ m po h l o ns pe ni,
    t = { s with mem := m, poison := po, halls := h, launches := l, out := o, nextSeq := ns, peerOut := pe, nextId := ni }
  views : ∀ e ∈ t.launches, ∃ l v, (e.1, l) ∈ s.launches ∧ e.2 = { l with views := v }

/-- Nothing written. -/
theorem Wrote.refl (s : State) : Wrote s s := ⟨⟨_, _, _, _, _, _, _, _, rfl⟩, fun e he => ⟨e.2, e.2.views, he, rfl⟩⟩

/-- One write after another. -/
theorem Wrote.trans {s t u : State} (h : Wrote s t) (h' : Wrote t u) : Wrote s u := by
  obtain ⟨⟨m, po, hl, l, o, ns, pe, ni, rfl⟩, hv⟩ := h
  obtain ⟨⟨m', po', hl', l', o', ns', pe', ni', rfl⟩, hv'⟩ := h'
  refine ⟨⟨_, _, _, _, _, _, _, _, rfl⟩, fun e he => ?_⟩
  obtain ⟨x, v, hx, hxv⟩ := hv' e he
  obtain ⟨y, w, hy, hyw⟩ := hv _ hx
  exact ⟨y, v, hy, by rw [hxv, show x = _ from hyw]⟩

/-- Bytes written at a physical address. -/
theorem wrote_writeAt (s : State) (pa : Nat) (bs : List Byte) : Wrote s (s.writeAt pa bs) :=
  ⟨⟨_, _, _, _, _, _, _, _, rfl⟩, (Wrote.refl s).views⟩

/-- Flits sent are messages. -/
theorem sendFlits_out (s : State) (k : Nat) (fs : List (List Byte)) : ∃ o, s.sendFlits k fs = { s with out := o } := by
  unfold State.sendFlits
  split
  · exact ⟨_, rfl⟩
  · exact ⟨s.out, rfl⟩

/-- A request to a linked device. -/
theorem wrote_sendFar (s : State) (a : Nat) (x : Far) (b c d e f : Nat) (bs : List Byte) (p : Part) (o : PeerOwner) :
    Wrote s (s.sendFar a x b c d e f bs p o) := by
  have hw : ∀ (u : State) ns pe, (∃ o, u = { s with out := o }) → Wrote s { u with nextSeq := ns, peerOut := pe } := by
    rintro u ns pe ⟨o, rfl⟩
    exact ⟨⟨_, _, _, _, _, _, _, _, rfl⟩, (Wrote.refl s).views⟩
  refine hw _ _ _ ?_
  split
  · exact ⟨s.out, rfl⟩
  · exact sendFlits_out s _ _

/-- Bytes written for a context. -/
theorem wrote_viewWrite {s t : State} {ctx pa : Nat} {bs : List Byte} (h : s.viewWrite ctx pa bs = some t) : Wrote s t := by
  unfold State.viewWrite at h
  split at h
  · cases h
    exact wrote_writeAt s pa bs
  · next n l hl =>
    dsimp only at h
    split at h
    · cases h
    · cases h
      refine ⟨⟨_, _, _, _, _, _, _, _, rfl⟩, fun e he => ?_⟩
      rcases NatMap.mem_insert he with rfl | he
      · exact ⟨l, _, List.mem_of_find?_eq_some hl, rfl⟩
      · exact (Wrote.refl s).views e he

/-- A number for a request. -/
theorem wrote_nextId (s : State) (n : Nat) : Wrote s { s with nextId := n } := ⟨⟨_, _, _, _, _, _, _, _, rfl⟩, (Wrote.refl s).views⟩

/-- A request to a peer. -/
theorem wrote_sendPeer (s : State) (a b c d e f g : Nat) (bs : List Byte) (p : Part) : Wrote s (s.sendPeer a b c d e f g bs p) :=
  wrote_sendFar s _ _ _ _ _ _ _ _ _ _

/-- The list of images aside. -/
theorem Wrote.withImages {s t : State} (h : Wrote s t) (ims : NatMap Image) : Wrote { s with images := ims } { t with images := ims } := by
  obtain ⟨⟨m, po, hl, l, o, ns, pe, ni, rfl⟩, hv⟩ := h
  exact ⟨⟨_, _, _, _, _, _, _, _, rfl⟩, hv⟩

/-- The write of one run. -/
theorem wrote_writeRun {s t : State} {part ctx : Nat} {r : Nat × Nat} {bs : List Byte} {op : Nat} (h : s.writeRun part ctx r bs op = some t) : Wrote s t := by
  unfold State.writeRun at h
  split at h
  · cases h
    exact (wrote_nextId s _).trans (wrote_sendPeer _ _ _ _ _ _ _ _ _ _)
  · exact wrote_viewWrite h

/-- The writes of runs. -/
theorem wrote_writeRuns {part ctx : Nat} {runs : List (Nat × Nat)} : ∀ {s t : State} {bs : List Byte},
    s.writeRuns part ctx runs bs = some t → Wrote s t := by
  induction runs with
  | nil => intro s t bs h; cases h; exact Wrote.refl s
  | cons r rs ih =>
    intro s t bs h
    obtain ⟨s1, h1, h2⟩ := Option.bind_eq_some_iff.mp h
    exact (wrote_writeRun h1).trans (ih h2)


/-- The header of an image. -/
theorem wrote_writeHeader (s : State) (im : Image) : Wrote s (writeHeader s im) := by
  unfold writeHeader
  split
  · exact Wrote.refl s
  · split
    · cases hw : s.writeRuns im.part 4096 _ im.header with
      | none => exact Wrote.refl s
      | some t => exact wrote_writeRuns hw
    · exact wrote_writeAt s _ _

end Sys2Proof.Machine

namespace Sys2Proof.Claims

open Sys2Proof.Machine

/-- The images of a partition are abandoned (R455). -/
def abandons (s : State) (xs : List (Nat × Image)) : State := xs.foldl (fun s e => putImage s e.1 (e.2.emptied .abandoned)) s

/-- What that changes: what writes of memory change, and the images. -/
theorem abandons_wrote (xs : List (Nat × Image)) (s : State) : ∃ ims, Wrote { s with images := ims } (abandons s xs) := by
  induction xs generalizing s with
  | nil => exact ⟨s.images, Wrote.refl s⟩
  | cons x xs ih =>
    obtain ⟨ims, h⟩ := ih (putImage s x.1 (x.2.emptied .abandoned))
    have hw := (wrote_writeHeader { s with images := NatMap.insert s.images x.1 (x.2.emptied .abandoned) } (x.2.emptied .abandoned)).withImages ims
    exact ⟨ims, Wrote.trans hw h⟩

/-- The quads of a partition are cleared (R455). -/
def clearsQuads (s : State) (lqs : List Nat) : State := lqs.foldl (fun s lq => s.setQuad lq (s.quadOf lq).cleared) s

/-- What that changes. -/
theorem clearsQuads_eq (lqs : List Nat) (s : State) : ∃ qs, clearsQuads s lqs = { s with quads := qs } := by
  induction lqs generalizing s with
  | nil => exact ⟨s.quads, rfl⟩
  | cons lq lqs ih =>
    obtain ⟨qs, h⟩ := ih (s.setQuad lq (s.quadOf lq).cleared)
    exact ⟨qs, h⟩

/-- The regions that a partition reset leaves (R455). -/
def leftRegions (s : State) (p : Nat) : NatMap Region :=
  s.regions.filter fun e => !((s.regions.filter fun e => decide (e.2.part = p)).map (·.1)).contains e.1

/-- They were there, and none is the partition's. -/
theorem mem_leftRegions {s : State} {p : Nat} {e : Nat × Region} (h : e ∈ leftRegions s p) : e ∈ s.regions ∧ e.2.part ≠ p := by
  obtain ⟨hm, hn⟩ := List.mem_filter.1 h
  refine ⟨hm, fun hp => ?_⟩
  have hk : e.1 ∈ (s.regions.filter fun e => decide (e.2.part = p)).map (·.1) :=
    List.mem_map.2 ⟨e, List.mem_filter.2 ⟨hm, decide_eq_true hp⟩, rfl⟩
  rw [List.contains_iff_mem.2 hk] at hn
  cases hn

/-- The images of a partition that a reset abandons (R455). -/
def openImages (s : State) (p : Nat) : List (Nat × Image) :=
  s.images.filter fun e => decide (e.2.part = p) && (decide (e.2.st = .saving) || decide (e.2.st = .complete))

/-- Step 2 of a reset, in its parts (R455). -/
theorem discardWork_fields (s : State) (p : Nat) :
    let t := discardWork s p
    t.regions = leftRegions s p ∧ (∀ e ∈ t.launches, e.2.part ≠ p) ∧ (t.partOf p).busy = (s.partOf p).busy ∧ (t.partOf p).lqs = (s.partOf p).lqs ∧
      (openImages s p = [] → t.mem = s.mem) ∧ t.dtime = s.dtime := by
  intro t
  let s1 : State := { s with
    regions := leftRegions s p
    launches := s.launches.filter fun e => decide (e.2.part ≠ p)
    pending := s.pending.filter fun q => decide (q.req.part ≠ p) || (match q.st with
      | .homes _ _ _ => true
      | _ => false) }
  let s2 := abandons s1 (openImages s p)
  obtain ⟨qs, h3⟩ := clearsQuads_eq (partQuads s2 p) s2
  obtain ⟨ims, h2⟩ := abandons_wrote (openImages s p) s1
  obtain ⟨⟨m, po, hl, l, o, ns, pe, ni, he⟩, hv⟩ := h2
  have hs2 : s2 = _ := he
  have hparts : (clearsQuads s2 (partQuads s2 p)).parts = s.parts := by rw [h3, hs2]
  have hpart : (clearsQuads s2 (partQuads s2 p)).partOf p = s.partOf p := by rw [State.partOf, hparts]; rfl
  have ht : t.partOf p = _ := State.setPart_partOf_self _ p _
  refine ⟨?_, fun e he' => ?_, ?_, ?_, fun hi => ?_, ?_⟩
  · show (clearsQuads s2 (partQuads s2 p)).regions = _
    rw [h3, hs2]
  · have hel : e ∈ (clearsQuads s2 (partQuads s2 p)).launches := he'
    rw [h3] at hel
    obtain ⟨x, v, hx, hxv⟩ := hv e hel
    rw [hxv]
    exact of_decide_eq_true (List.mem_filter.1 hx).2
  · rw [ht]
    show ((clearsQuads s2 (partQuads s2 p)).partOf p).busy = _
    rw [hpart]
  · rw [ht]
    show ((clearsQuads s2 (partQuads s2 p)).partOf p).lqs = _
    rw [hpart]
  · show (clearsQuads s2 (partQuads s2 p)).mem = _
    rw [h3]
    show (abandons s1 (openImages s p)).mem = _
    rw [hi]
    rfl
  · show (clearsQuads s2 (partQuads s2 p)).dtime = _
    rw [h3, hs2]

/-! ### The end of a reset -/

/-- What the writes of QoS words and the vectors of the end of a reset leave alone (R455): what they reach is the tables, the messages, and MSI-X bits. -/
def ResetKeeps (p : Nat) (s t : State) : Prop :=
  t.pquads = s.pquads ∧ t.tlb2 = s.tlb2 ∧ t.mem = s.mem ∧
    (t.partOf p).busy = (s.partOf p).busy ∧ (t.partOf p).insts = (s.partOf p).insts ∧ (t.partOf p).qosLater = (s.partOf p).qosLater

/-- One step after another. -/
theorem ResetKeeps.trans {p : Nat} {s t u : State} (h : ResetKeeps p s t) (h' : ResetKeeps p t u) : ResetKeeps p s u := by
  obtain ⟨a, b, c, d, e, f⟩ := h
  obtain ⟨a', b', c', d', e', f'⟩ := h'
  exact ⟨a'.trans a, b'.trans b, c'.trans c, d'.trans d, e'.trans e, f'.trans f⟩

/-- A fold whose steps keep it keeps it. -/
theorem resetKeeps_foldl {p : Nat} {β : Type} (f : State → β → State) (h : ∀ s x, ResetKeeps p s (f s x)) (xs : List β) (s : State) :
    ResetKeeps p s (xs.foldl f s) := by
  induction xs generalizing s with
  | nil => exact ⟨rfl, rfl, rfl, rfl, rfl, rfl⟩
  | cons x xs ih => exact (h s x).trans (ih _)

/-- A QoS word. -/
theorem resetKeeps_putQos (p : Nat) (s : State) (a : Nat) (v : Word64) : ResetKeeps p s (putQos s a v) := by
  unfold putQos
  split_ifs <;> exact ⟨rfl, rfl, rfl, rfl, rfl, rfl⟩

/-- A message. -/
theorem resetKeeps_emit (p : Nat) (s : State) (m : Msg) : ResetKeeps p s (s.emit m) := ⟨rfl, rfl, rfl, rfl, rfl, rfl⟩

/-- The pending bits of vectors. -/
theorem resetKeeps_msixPend (p : Nat) (s : State) (m : NatMap Bool) : ResetKeeps p s (s.setPart p { (s.partOf p) with msixPend := m }) := by
  have hp : (s.setPart p { (s.partOf p) with msixPend := m }).partOf p = { (s.partOf p) with msixPend := m } := State.setPart_partOf_self s p _
  exact ⟨rfl, rfl, rfl, by rw [hp], by rw [hp], by rw [hp]⟩

/-- A vector. -/
theorem resetKeeps_flushVector (p : Nat) (s : State) (v : Nat) : ResetKeeps p s (flushVector p s v) := by
  unfold flushVector State.raiseVector
  dsimp only
  split_ifs
  · exact resetKeeps_msixPend p s _
  · exact (resetKeeps_msixPend p s _).trans (resetKeeps_emit p _ _)
  · exact ⟨rfl, rfl, rfl, rfl, rfl, rfl⟩

/-- The end of a reset (R455). -/
theorem endReset_fields (s : State) (p : Nat) :
    let t := endReset s p
    (t.partOf p).busy = false ∧ (t.partOf p).insts = (s.partOf p).insts ∧ (t.partOf p).qosLater = [] ∧ t.pquads = s.pquads ∧ t.tlb2 = s.tlb2 ∧ t.mem = s.mem := by
  intro t
  let s1 := s.setPart p { (s.partOf p) with busy := false, qosLater := [] }
  have h1 : s1.partOf p = _ := State.setPart_partOf_self s p _
  have h2 := resetKeeps_foldl (p := p) (fun s (e : Nat × Word64) => putQos s e.1 e.2) (fun s e => resetKeeps_putQos p s e.1 e.2) (s.partOf p).qosLater s1
  obtain ⟨hq, hl, hm, hb, hi, ho⟩ := h2.trans ((resetKeeps_emit p _ (.msix 16 0)).trans
    (resetKeeps_foldl (flushVector p) (resetKeeps_flushVector p) (List.range 64) _))
  exact ⟨hb.trans (by rw [h1]), hi.trans (by rw [h1]), ho.trans (by rw [h1]), hq, hl, hm⟩

/-- No traffic of a partition is outstanding. -/
theorem traffic_eq_true {s : State} {p : Nat} : traffic s p = true ↔ (∃ e ∈ s.pending, e.req.part = p) ∨ ∃ e ∈ s.peerOut, e.part = p := by
  simp only [traffic, Bool.or_eq_true, List.any_eq_true, decide_eq_true_eq]

/-- Settles O45: GO by `discardWork_fields`, the end by `endReset_fields`. -/
theorem partitionResetStops : Obligations.PartitionResetStops := by
  intro s p
  have he : exec (.partitionReset p) s = s.byCore fun s => startReset s p := rfl
  refine ⟨fun hb => ?_, fun hc hb => ?_, fun hb hp ho => ?_, fun hb ht => ?_⟩
  · have hs : startReset s p = s := if_pos hb
    by_cases hc : coresAct s
    · rw [he, byCore_next hc, hs]
    · rw [he, byCore_of_not hc]
  · obtain ⟨hr, hl, hbusy, hq, hm, hd⟩ := discardWork_fields (stopLaunches s p) p
    have hpart : (stopLaunches s p).partOf p = _ := State.setPart_partOf_self s p _
    refine ⟨discardWork (stopLaunches s p) p, by rw [he, byCore_next hc, startReset, if_neg (ne_true_of_eq_false hb)], ?_, fun e h => ?_, hl, fun e h => ?_,
      fun e h => ?_, fun hi => hm ?_, hd⟩
    · rw [hbusy, hpart]
    · rw [hr] at h
      exact (mem_leftRegions h).2
    · rw [hq, hpart] at h
      obtain ⟨x, -, rfl⟩ := List.mem_map.1 h
      rfl
    · rw [hr] at h
      exact (mem_leftRegions h).1
    · refine List.filter_eq_nil_iff.2 fun e h => ?_
      rw [decide_eq_false (hi e h), Bool.false_and]
      exact Bool.false_ne_true
  · have ht : traffic s p = false := Bool.eq_false_iff.2 fun h => (traffic_eq_true.1 h).elim (fun ⟨e, h, h'⟩ => hp e h h') (fun ⟨e, h, h'⟩ => ho e h h')
    obtain ⟨hb', hi, hq, hpq, hl, hm⟩ := endReset_fields (scrub s p) p
    refine ⟨endReset (scrub s p) p, ?_, hb', hi.trans ?_, hq, fun e h x hx => ?_, fun e h x hx => ?_, hm⟩
    · refine if_neg ?_
      rw [hb, ht]
      exact Bool.false_ne_true
    · exact congrArg Partition.insts (State.setPart_partOf_self _ p _)
    · rw [hpq] at h
      obtain ⟨y, -, rfl⟩ := List.mem_map.1 h
      obtain ⟨-, hx⟩ := List.mem_filter.1 hx
      simpa using hx
    · rw [hl] at h
      obtain ⟨y, -, rfl⟩ := List.mem_map.1 h
      obtain ⟨-, hx⟩ := List.mem_filter.1 hx
      simpa using hx
  · refine if_pos ?_
    rw [traffic_eq_true.2 ht, Bool.or_true]

end Sys2Proof.Claims
end

section
/-! SUPPORT. O46, O48: doorbells, fault records, instances and splits. -/

namespace Sys2Proof.Claims

open Sys2Proof.Machine

/-! ### Doorbells and launch records -/

/-- What a doorbell write may do (R440): the ring has room for it, and it does not go back. -/
def ringTakes (x : LaunchQ) (v : Nat) : Prop :=
  x.enabled = true ∧ (v % 2 ^ 32 + 2 ^ 32 - x.ridx) % 2 ^ 32 ≤ 2 ^ x.logn ∧ (v % 2 ^ 32 + 2 ^ 32 - x.widx) % 2 ^ 32 < 2 ^ 31

/-- A doorbell write that the ring refuses (R440). -/
theorem ring_refuses {x : LaunchQ} {v : Nat} (now : Nat) (h : ¬ ringTakes x v) : x.ring v now = { x with err := true } := by
  refine if_pos ?_
  by_contra hn
  simp only [Bool.or_eq_true, Bool.not_eq_true', decide_eq_true_eq, not_or, Bool.not_eq_false, Nat.not_lt, Nat.not_le] at hn
  obtain ⟨⟨he, hr⟩, hw⟩ := hn
  exact h ⟨he, hr, hw⟩

/-- One that it takes. -/
theorem ring_takes {x : LaunchQ} {v : Nat} (now : Nat) (h : ringTakes x v) :
    x.ring v now = { x with widx := v % 2 ^ 32, bells := x.bells ++ List.replicate ((v % 2 ^ 32 + 2 ^ 32 - x.widx) % 2 ^ 32) now } := by
  obtain ⟨he, hr, hw⟩ := h
  refine if_neg ?_
  simp only [he, Bool.or_eq_true, Bool.not_eq_true', decide_eq_true_eq, not_or, Nat.not_lt, Nat.not_le]
  exact ⟨⟨by decide, hr⟩, hw⟩

/-- A doorbell while no reset of the partition is under way. -/
theorem ringDoorbell_rings {s : State} {p : Nat} (k v : Nat) (hb : (s.partOf p).busy = false) :
    ringDoorbell s p k v = s.setLq p k ((s.lqOf p k).ring v s.cycle) := if_neg (ne_true_of_eq_false hb)

/-- The address of a record of a ring (R439). -/
theorem slotAt_eq (x : LaunchQ) (j : Nat) : x.slotAt j = x.base.toNat / 2 ^ 7 % 2 ^ 50 * 2 ^ 7 + 128 * (j % 2 ^ x.logn) := by
  simp only [LaunchQ.slotAt, bits, Nat.shiftRight_eq_div_pow]

/-- Without an upset none of an engine's reads is struck. -/
theorem struckIn_none {s : State} (h : s.upset = .none) (a : Access) (rs : List (Nat × Nat)) : s.struckIn a rs = s := if_pos h

/-- The arbiter takes a record (R440), no upset striking. -/
theorem launchRecordTake_eq {s : State} {p k : Nat} (hu : s.upset = .none) (hb : (s.partOf p).busy = false) (he : (s.lqOf p k).enabled = true)
    (hw : (s.lqOf p k).widx ≠ (s.lqOf p k).ridx) :
    let x := s.lqOf p k
    let r := s.readVa (arbAccess s p) (x.slotAt x.ridx) 128
    let took := (if r.faults then s.dropArbReads p else s).setLq p k { x with ridx := (x.ridx + 1) % 2 ^ 32, bells := x.bells.tail }
    exec (.launchRecordTake p k) s = match r with
      | .wait h => .next (s.noteHold h)
      | .fault c _ => .next (took.addEvent p c (k + x.ridx * 2 ^ 32) 0xFF)
      | .done (bs, bad) =>
        if bad then .next (took.addEvent p 0x42 (k + x.ridx * 2 ^ 32) 0xFF)
        else .next ((submit took p k x.ridx (x.bells.headD s.cycle) none [] bs).orElse s) := by
  dsimp only
  have hn : ¬ ((s.lqOf p k).widx = (s.lqOf p k).ridx ∨ (s.lqOf p k).enabled = false ∨ (s.partOf p).busy = true) := by
    rw [he, hb]
    rintro (h | h | h)
    · exact hw h
    · cases h
    · cases h
  rw [show exec (.launchRecordTake p k) s = execLaunchRecordTake p k s from rfl]
  simp only [execLaunchRecordTake, if_neg hn, struckIn_none hu]
  rfl

/-! ### Fault records -/

/-- What follows a record that neither ends, stops nor replays (R395). -/
theorem afterRecord_plain {s : State} {f : FaultRecord} {addr : Nat} (he : f.ends = none) (hs : f.stops = none) (hr : f.replays = none)
    (hq : f.queue = none) : afterRecord s f addr = s := by
  simp only [afterRecord, he, hs, hr, hq]

/-- What follows the record of a trap (R395). -/
theorem afterRecord_trap {s : State} {f : FaultRecord} {addr lq q : Nat} (he : f.ends = none) (hs : f.stops = none) (hr : f.replays = none)
    (hq : f.queue = some (lq, q)) (hv : s.savedQueue? lq q f.ctx = none) (ht : (s.queueOf lq q).st = .trapped) :
    afterRecord s f addr = s.setQueue lq q ((s.queueOf lq q).vector f.code (vaOf f.word) addr) := by
  simp only [afterRecord, he, hs, hr, hq, hv, ht, if_true]

/-- A record that can be written is (R393). -/
theorem faultRecordWrite_eq {s : State} {p : Nat} {f : FaultRecord} (hroom : (s.partOf p).ringRoom = true) (hn : nextRecord (s.partOf p).records = some f)
    (hw : s.ringWaits p f.lq = false) :
    exec (.faultRecordWrite p) s =
      let w := (s.setPart p { (s.partOf p) with records := (s.partOf p).records.erase f }).writeRecord f
      .next (afterRecord w.1 f w.2) := by
  rw [show exec (.faultRecordWrite p) s = execFaultRecordWrite p s from rfl]
  simp only [execFaultRecordWrite, hroom, Bool.not_true, Bool.false_eq_true, if_false, hn, hw]

/-- One that cannot stays (R393). -/
theorem faultRecordWrite_stays {s : State} {p : Nat} {f : FaultRecord}
    (h : (s.partOf p).ringRoom = false ∨ (nextRecord (s.partOf p).records = some f ∧ s.ringWaits p f.lq = true)) : exec (.faultRecordWrite p) s = .next s := by
  rw [show exec (.faultRecordWrite p) s = execFaultRecordWrite p s from rfl]
  simp only [execFaultRecordWrite]
  rcases h with h | ⟨hn, hw⟩
  · simp only [h, Bool.not_false, if_true]
  · split_ifs
    · rfl
    · simp only [hn, hw, if_true]

/-- Settles O46: the doorbell's ring, the arbiter's read of a record, and what follows a fault record. -/
theorem doorbellsAndFaultRecords : Obligations.DoorbellsAndFaultRecords := by
  refine ⟨fun s p k v => ?bells, fun s p f => ?records⟩
  case bells =>
    dsimp only
    rw [← slotAt_eq]
    have he : exec (.launchDoorbell p k v) s = s.byCore fun s => ringDoorbell s p k v.toNat := rfl
    refine ⟨fun hb => ?_, fun hc hb hg => ?_, fun hc hb hg => ?_, fun hu hb hx hw => ⟨fun c y hr => ?_, fun bs hr => ?_, fun h hr => ?_, fun bs t hr ht => ?_⟩, fun h => ?_⟩
    · have hs : ringDoorbell s p k v.toNat = s := if_pos hb
      by_cases hc : coresAct s
      · rw [he, byCore_next hc, hs]
      · rw [he, byCore_of_not hc]
    · rw [he, byCore_next hc, ringDoorbell_rings _ _ hb, ring_takes _ hg]
    · rw [he, byCore_next hc, ringDoorbell_rings _ _ hb, ring_refuses _ hg]
    · simp only [launchRecordTake_eq hu hb hx hw, hr, Access.Answer.faults, if_true]
    · simp only [launchRecordTake_eq hu hb hx hw, hr, Access.Answer.faults, Bool.false_eq_true, if_true, if_false]
    · simp only [launchRecordTake_eq hu hb hx hw, hr]
    · simp only [launchRecordTake_eq hu hb hx hw, hr, Access.Answer.faults, Bool.false_eq_true, if_false, ht]
      rfl
    · exact if_pos (h.elim (fun h => .inr (.inr h)) fun h => h.elim (fun h => .inr (.inl h)) .inl)
  case records =>
    dsimp only
    refine ⟨faultRecordWrite_stays, fun hroom hn hw he hs hr => ⟨fun hq => ?_, fun lq q hq hv ht => ?_⟩⟩
    · rw [faultRecordWrite_eq hroom hn hw]
      exact congrArg Host.Outcome.next (afterRecord_plain he hs hr hq)
    · rw [faultRecordWrite_eq hroom hn hw]
      exact congrArg Host.Outcome.next (afterRecord_trap he hs hr hq hv ht)

/-! ### Instances and splits -/

/-- A comparison with the time since which something holds. -/
theorem long_of_since {o : Option Nat} {c now : Nat} (h : o = some c) (hc : c + 4096 ≤ now) : (o.map fun c => decide (c + 4096 ≤ now)).getD false = true := by
  rw [h]
  exact decide_eq_true hc

/-- Settles O48: each event with its conditions met. -/
theorem replicasAndSplits : Obligations.ReplicasAndSplits := by
  intro s n stage l g hl hg hp hd hchange
  dsimp only
  refine ⟨fun c hs hc hi hlt => ?again, fun c pes hs hc hi hle hpl hv => ?more, fun c hs hc hi => ?fewer,
    fun rid slot q ctx len a b r v f t hr hlive hrl hq hins hask hleast hv hrange h2 => ?split⟩
  case again =>
    rw [show exec (.replicaAdd n stage) s = execReplicaAdd n stage s from rfl]
    simp only [execReplicaAdd, hl, hg]
    rw [if_neg, if_pos hlt]
    simp only [hp, hd, long_of_since hs hc, hchange, ne_eq, not_true_eq_false, Bool.false_eq_true, Bool.true_eq_false, Option.isSome_none, false_or]
    omega
  case more =>
    rw [show exec (.replicaAdd n stage) s = execReplicaAdd n stage s from rfl]
    simp only [execReplicaAdd, hl, hg]
    rw [if_neg, if_neg (Nat.not_lt.2 hle)]
    · simp only [hpl]
      exact if_neg (Nat.not_lt.2 hv)
    · simp only [hp, hd, long_of_since hs hc, hchange, ne_eq, not_true_eq_false, Bool.false_eq_true, Bool.true_eq_false, Option.isSome_none, false_or]
      omega
  case fewer =>
    rw [show exec (.replicaRemove n stage) s = execReplicaRemove n stage s from rfl]
    simp only [execReplicaRemove, hl, hg]
    rw [if_neg]
    simp only [hp, hd, long_of_since hs hc, hchange, ne_eq, not_true_eq_false, Bool.false_eq_true, Bool.true_eq_false, Option.isSome_none, false_or]
    omega
  case split =>
    have hdet : ((s.launchOfRegion r).map (·.rcd.det)).getD false = false := by
      rw [State.launchOfRegion, hrl]
      simp only [hl, Option.map_some, Option.getD_some, hd]
    rw [show exec (.rangeSplitRequest rid slot) s = execRangeSplitRequest rid slot s from rfl]
    simp only [execRangeSplitRequest, hr, hdet, hlive, hask, hins, Bool.not_true, Bool.or_self, Bool.false_eq_true, if_false, hleast, hv, hrange]
    exact if_neg (Nat.not_lt.2 h2)

end Sys2Proof.Claims
end

section
/-! SUPPORT. O47: launches start, age and end, and a list of launches with two entries for one handle. -/

namespace Sys2Proof.Claims

open Sys2Proof.Machine

/-- A launch that is over and owes 32 bytes. -/
def owesRecord : Launch :=
  { rcd := ⟨0, 0, 0, false, false, [], 0, 1, 0⟩, part := 0, queue := 0, index := 0, bell := 0, since := 0, raised := 0, phase := .owed (toBytes 32 1) 0
    invalid := false, ctxs := [], drawn := [], freed := [], stages := [], chans := [], sinkEnds := [], parent := none, task := [], calls := [], spawns := []
    started := 0, placed := 0, restoredAt := none, views := [], flags := .none }

/-- A deterministic launch whose task is the context by which the arbiter writes, its write set bounded by one granule. -/
def writesAsTask : Launch :=
  { owesRecord with
    rcd := { owesRecord.rcd with det := true }, phase := .running, ctxs := [4096]
    stages := [⟨⟨0, 0, 0, false, false, false, false, 1, 1, 0, 0, 0, 1, 1, [], [0], [(0, 0)]⟩, 0, [], [(0, 1)], [], none, [], [], none, none⟩] }

/-- A machine that lists both under handle 0, page 0 of partition 0 being written to the capacity tier. -/
def twiceListed : State :=
  { State.reset with
    powered := true, boot := { State.reset.boot with phase := .running }, lqpart := NatMap.set 0 [] 0 0x10
    pquads := NatMap.set .init [] 0 { PhysQuad.init with tlb := [⟨0, 0, 2 ^ 16, 0x2000000007F⟩] }
    parts := NatMap.set .init [] 0 { Partition.init with ptroot := 1 }, tables := NatMap.set 0 [] (regAddr 6 16 0) 0x843F
    launches := [(0, owesRecord), (0, writesAsTask)] }

/-- The write of the record is answered at home; the task's write set then stands under the handle, and the launch is not closed. -/
theorem twiceListed_write :
    (match twiceListed.writeVa (arbAccess twiceListed owesRecord.part) (owesRecord.rcd.done % 2 ^ 57) (toBytes 32 1) with
      | .done t => decide (t.nextId = twiceListed.nextId) && !(NatMap.get LaunchQ.init (t.partOf owesRecord.part).lqs owesRecord.queue).ien &&
          decide ((NatMap.erase t.launches 0).length = 0)
      | _ => false) = true ∧ (payRecord twiceListed 0).launches.length = 2 := by
  decide +kernel

/-- Refutes O47: its last clause takes the launch written for to be the one found again after the write. Where the list of launches holds two entries for one
handle (which `NatMap.insert` makes of no rising list), the write of a deterministic task puts the second in front of the first, and nothing is closed. -/
theorem not_launchesStartAgeAndEnd : ¬ Obligations.LaunchesStartAgeAndEnd := by
  rintro ⟨-, h⟩
  have hl : twiceListed.launch? 0 = some owesRecord := rfl
  obtain ⟨hw, hpay⟩ := twiceListed_write
  obtain ⟨-, -, -, -, hlast⟩ := h twiceListed 0 owesRecord hl
  split at hw
  case h_2 => cases hw
  case h_1 t ht =>
    simp only [Bool.and_eq_true, Bool.not_eq_true', decide_eq_true_eq] at hw
    obtain ⟨⟨hid, hien⟩, hlen⟩ := hw
    obtain ⟨hpaid, -⟩ := hlast _ _ t rfl rfl rfl ht
    rw [hpaid hid hien] at hpay
    exact absurd (hlen.symm.trans hpay) (by decide)

end Sys2Proof.Claims
end

section
/-! SUPPORT. O49, O50: phases, replay points, the deadlock detector, arrivals. -/

namespace Sys2Proof.Claims

open Sys2Proof.Machine

/-! ### Phases and replay points -/

/-- A live region that is empty and has an end to come (R51). -/
theorem phaseEnd_eq {s : State} {rid : Nat} {r : Region} (hr : s.region? rid = some r) (hl : r.live = true) (he : regionEmpty s r = true)
    (hg : onlyGroups s rid r = true) (ho : openGroups s rid = []) (hw : r.windowsEmpty = true) (hv : leaving s r = false)
    (hend : r.select.isSome = true ∨ inputsEnded s r = true) : exec (.phaseEnd rid) s = .next (nextPeriod s rid r) := by
  rw [show exec (.phaseEnd rid) s = execPhaseEnd rid s from rfl]
  simp only [execPhaseEnd, hr, hl, he, hg, ho, hw, hv, Bool.not_true, Bool.or_self, Bool.false_eq_true, if_false, List.isEmpty_nil]
  exact if_pos (Bool.or_eq_true _ _ ▸ hend)

/-- The last period of a region (R51). -/
theorem nextPeriod_stops {s : State} {rid : Nat} {r : Region} (hr : s.region? rid = some r) (hs : r.select = none) :
    nextPeriod s rid r = (s.dropAccesses fun q => decide (q = rid)).setRegion rid (r.stopped 0) := by
  simp only [nextPeriod, hs, State.stopRegion, hr]

/-- The next period of a region in a configuration context that it has (R51, R400). -/
theorem nextPeriod_goes {s : State} {rid c : Nat} {r : Region} {b : Block} (hs : r.select = some c) (hb : NatMap.find? r.blocks c = some b) :
    nextPeriod s rid r = s.setRegion rid (Region.copied { r with active := c, select := none }) := by
  simp only [nextPeriod, hs, hb]
  exact if_neg Bool.false_ne_true

/-! ### The deadlock detector -/

/-- The quiescence tree of a live region in its turn (R404). -/
theorem watchTree_eq {s : State} {rid : Nat} {r : Region} (hr : s.region? rid = some r) (hl : r.live = true)
    (ht : s.inTurn (r.lqOfBit (r.pes.getD 0 0)) = true) :
    watchTree s rid = s.setRegion rid (r.watched (deadCondition s rid r) s.cycle) := by
  simp only [watchTree, hr]
  exact if_pos ⟨hl, ht⟩

/-- Watching counts, and changes nothing else. -/
theorem watched_eq (r : Region) (d : Bool) (now : Nat) : ∃ a b, r.watched d now = { r with stuck := a, stuckAt := b } := by
  unfold Region.watched
  split_ifs
  · exact ⟨_, _, rfl⟩
  · exact ⟨r.stuck, r.stuckAt, rfl⟩
  · exact ⟨r.stuck, _, rfl⟩

/-- Where the condition does not hold the count starts again. -/
theorem watched_clear (r : Region) (now : Nat) : r.watched false now = { r with stuck := 0, stuckAt := none } := if_pos rfl

/-- Where it has held already the count goes on. -/
theorem watched_goes {r : Region} {c : Nat} (now : Nat) (h : r.stuckAt = some c) : r.watched true now = r := by
  rw [Region.watched, if_neg (by decide), if_pos (by rw [h]; rfl)]

/-- Where it begins to hold the count begins. -/
theorem watched_starts {r : Region} (now : Nat) (h : r.stuckAt = none) : r.watched true now = { r with stuckAt := some now } := by
  rw [Region.watched, if_neg (by decide), if_neg (by rw [h]; exact Bool.false_ne_true)]

/-- The detector before 2^20 cycles (R404). -/
theorem deadlockDetect_waits {s : State} {rid : Nat} {r : Region} (hr : s.region? rid = some r) (hl : r.live = true)
    (ht : s.inTurn (r.lqOfBit (r.pes.getD 0 0)) = true) (hc : ((r.watched (deadCondition s rid r) s.cycle).pause s.cycle).stuck < 2 ^ 20) :
    exec (.deadlockDetect rid) s = .next (s.setRegion rid (r.watched (deadCondition s rid r) s.cycle)) := by
  rw [show exec (.deadlockDetect rid) s = execDeadlockDetect rid s from rfl]
  simp only [execDeadlockDetect, watchTree_eq hr hl ht, State.setRegion_region_self]
  refine if_pos ?_
  rw [show (s.setRegion rid (r.watched (deadCondition s rid r) s.cycle)).cycle = s.cycle from rfl, decide_eq_true hc, Bool.or_true]

/-- The detector after 2^20 cycles (R404). -/
theorem deadlockDetect_faults {s : State} {rid : Nat} {r : Region} (hr : s.region? rid = some r) (hl : r.live = true)
    (ht : s.inTurn (r.lqOfBit (r.pes.getD 0 0)) = true) (hc : 2 ^ 20 ≤ ((r.watched (deadCondition s rid r) s.cycle).pause s.cycle).stuck) :
    ∃ a, exec (.deadlockDetect rid) s = .next ((s.setRegion rid (r.watched (deadCondition s rid r) s.cycle)).regionFault rid 0x08 a) := by
  obtain ⟨n, o, hq⟩ := watched_eq r (deadCondition s rid r) s.cycle
  rw [show exec (.deadlockDetect rid) s = execDeadlockDetect rid s from rfl]
  simp only [execDeadlockDetect, watchTree_eq hr hl ht, State.setRegion_region_self]
  rw [if_neg]
  · exact ⟨_, rfl⟩
  · rw [show (s.setRegion rid (r.watched (deadCondition s rid r) s.cycle)).cycle = s.cycle from rfl, decide_eq_false (Nat.not_lt.2 hc)]
    have hlive : (r.watched (deadCondition s rid r) s.cycle).live = true := by rw [hq]; exact hl
    have hturn : (s.setRegion rid (r.watched (deadCondition s rid r) s.cycle)).inTurn
        ((r.watched (deadCondition s rid r) s.cycle).lqOfBit ((r.watched (deadCondition s rid r) s.cycle).pes.getD 0 0)) = true := by rw [hq]; exact ht
    rw [hlive, hturn]
    exact Bool.false_ne_true

/-- A record that is added waits. -/
theorem addRecord_waits (s : State) (f : FaultRecord) : ∃ g ∈ ((s.addRecord f).partOf f.part).records, g.kind = f.kind ∧ g.code = f.code := by
  rw [addRecord_records]
  exact ⟨_, List.mem_append_right _ (List.mem_singleton.2 rfl), rfl, rfl⟩

/-- A region fault freezes its region, and its record waits (R392, R394). -/
theorem regionFault_freezes {s : State} {rid : Nat} {r : Region} (hr : s.region? rid = some r) (code : Nat) (a : FaultAt) :
    (s.regionFault rid code a).region? rid = some { r with frozen := true } ∧
      ∃ f ∈ ((s.regionFault rid code a).partOf r.part).records, f.kind = 0 ∧ f.code = code := by
  rw [regionFault_eq hr]
  exact ⟨State.setRegion_region_self s rid _, addRecord_waits _ _⟩

/-- Settles O49: phases and replay points by their periods, the detector by what its quiescence tree has counted. -/
theorem regionsEndAndDetect : Obligations.RegionsEndAndDetect := by
  intro s rid r hr hl
  refine ⟨fun he hg ho hw hv => ⟨fun hs hi => ?_, fun c b hs hb => ?_⟩, fun hat => ?_, fun ht => ⟨fun hd => ?_, fun c hd hc hlt => ?_, fun hd hn hlt => ?_,
    fun c hd hc hle => ?_⟩⟩
  · rw [phaseEnd_eq hr hl he hg ho hw hv (.inr hi), nextPeriod_stops hr hs]
    rfl
  · rw [phaseEnd_eq hr hl he hg ho hw hv (.inl (by rw [hs]; rfl)), nextPeriod_goes hs hb]
    rfl
  · rw [show exec (.replayPoint rid) s = .next (replayPoint s rid) from rfl]
    simp only [replayPoint, hr]
    rw [if_pos ⟨hl, hat⟩]
    rfl
  · have hw : r.watched (deadCondition s rid r) s.cycle = { r with stuck := 0, stuckAt := none } := by rw [hd, watched_clear]
    rw [deadlockDetect_waits hr hl ht (by rw [hw]; exact Nat.zero_lt_succ _), hw]
  · have hw : r.watched (deadCondition s rid r) s.cycle = r := by rw [hd, watched_goes _ hc]
    rw [deadlockDetect_waits hr hl ht (by rw [hw]; simp only [Region.pause, hc]; exact hlt), hw]
  · have hw : r.watched (deadCondition s rid r) s.cycle = { r with stuckAt := some s.cycle } := by rw [hd, watched_starts _ hn]
    rw [deadlockDetect_waits hr hl ht (by rw [hw]; simp only [Region.pause, Nat.sub_self]; exact hlt), hw]
  · have hw : r.watched (deadCondition s rid r) s.cycle = r := by rw [hd, watched_goes _ hc]
    obtain ⟨a, he⟩ := deadlockDetect_faults hr hl ht (by rw [hw]; simp only [Region.pause, hc]; exact hle)
    rw [hw] at he
    obtain ⟨hf, hrec⟩ := regionFault_freezes (State.setRegion_region_self s rid r) 0x08 a
    exact ⟨_, _, he, hf, rfl, hrec⟩

/-! ### Arrival -/

/-- The first token on its way to a port arrives where the port holds none back (R61). -/
theorem tokenArrival_eq {s : State} {rid slot port : Nat} {r : Region} {x : Flight} {rest : List Flight} (hr : s.region? rid = some r) (hl : r.live = true)
    (ht : s.inTurn (r.lqAt slot) = true) (hx : takeFirst (fun x => decide (x.slot = slot) && decide (portCode x.port = port)) r.flight = some (x, rest))
    (hh : ∀ y ∈ r.flight, portHeld s r slot y.tok = false) :
    exec (.tokenArrival rid slot port) s = .next (arrive (s.setRegion rid { r with flight := rest }) rid slot x.port x.tok) := by
  have hheld : (r.flight.filter fun x => decide (x.slot = slot) && decide (portCode x.port = port) && portHeld s r slot x.tok) = [] := by
    refine List.filter_eq_nil_iff.2 fun y hy => ?_
    rw [hh y hy, Bool.and_false]
    exact Bool.false_ne_true
  rw [show exec (.tokenArrival rid slot port) s = execTokenArrival rid slot port s from rfl]
  simp only [execTokenArrival, hr, hl, ht, Bool.not_true, Bool.or_self, Bool.false_eq_true, if_false, hheld, List.any_nil, Bool.not_false, Bool.and_true, hx]

/-- The region at an arrival, the spilled tokens of the token's set having returned (R135). -/
def returned (r : Region) (slot : Nat) (t : Token) : Region := returnFirst (r.placeOf slot).1 (storeSet t.lo (r.placeOf slot).2 t.ctx) 8 r

/-- An arrival that fails the order check (R61). -/
theorem arrive_refused {s : State} {rid slot c : Nat} {r : Region} {k : Port} {t : Token} {i : Instr} (hr : s.region? rid = some r)
    (hi : r.instrAt slot = some i) (hf : freedCtx s (returned r slot t) t.ctx = false)
    (hc : (((returned r slot t).node slot t.ctx).port k).check t = some c) :
    arrive s rid slot k t = s.regionFault rid c ⟨slot, portCode k, t.ctx, ⟨t.lo, t.hi⟩, [(portCode k, t)], 0, 0⟩ := by
  unfold returned at hf hc
  simp only [arrive, hr, hi]
  rw [if_neg (ne_true_of_eq_false hf)]
  simp only [hc]

/-- An arrival that passes it, at an instruction that keeps no queue (R61, R65). -/
theorem arrive_joins {s : State} {rid slot : Nat} {r : Region} {k : Port} {t : Token} {i : Instr} (hr : s.region? rid = some r)
    (hi : r.instrAt slot = some i) (ho : ownIntake i = false) (hf : freedCtx s (returned r slot t) t.ctx = false)
    (hc : (((returned r slot t).node slot t.ctx).port k).check t = none) :
    arrive s rid slot k t =
      spill s rid ((returned r slot t).setNode slot t.ctx (accept i ((returned r slot t).node slot t.ctx) k t)) slot t.ctx t := by
  have harr : ∀ m : Region, m.arrivedAt i slot t.ctx = m := by
    intro m
    unfold Region.arrivedAt
    split
    · cases ho
    · rfl
  unfold returned at hf hc ⊢
  simp only [arrive, hr, hi]
  rw [if_neg (ne_true_of_eq_false hf)]
  simp only [hc, ho, Bool.false_eq_true, if_false, harr]

/-- A token joins a port that has not ended (R65). -/
theorem accept_open {i : Instr} {n : Node} {k : Port} (t : Token) (h : (n.port k).ended = none) :
    accept i n k t = sweep i (
      let joined := n.setPort k ((n.port k).join (gapRule i k) t)
      if t.kind ≠ .fin ∧ uncovered i joined k t = true then
        joined.setPort k { (joined.port k) with
          waiting := (n.port k).waiting
          cut := if (n.port k).waiting.isEmpty then (n.port k).cut else (n.port k).cut.orElse fun _ => some t.lo }
      else joined) := by
  simp only [accept, h, Option.isSome_none, Bool.false_eq_true, if_false]
  exact (apply_ite (sweep i) _ _ _).symm

/-- A set of at most eight tokens spills nothing (R134). -/
theorem spill_fits {s : State} {rid slot ctx : Nat} {r : Region} {t : Token}
    (h : (r.storeSpots.filter fun x => r.inSet (r.placeOf slot).1 (storeSet t.lo (r.placeOf slot).2 ctx) x && decide (x.w.place = .store)).length ≤ 8) :
    spill s rid r slot ctx t = s.setRegion rid r := if_pos h

/-- Settles O50: the arrival by the order check, the return of a spilled token by its set's room. -/
theorem tokensArrive : Obligations.TokensArrive := by
  intro s rid slot port r hr hl
  refine ⟨fun x rest i ht hx hi => ?arrival, fun pe set x ht => ?returns⟩
  case arrival =>
    dsimp only
    intro hh ho hf hn
    have hs1 : (s.setRegion rid { r with flight := rest }).region? rid = some { r with flight := rest } := State.setRegion_region_self s rid _
    rw [tokenArrival_eq hr hl ht hx hh]
    refine ⟨fun c hc => ?_, fun hc hroom => ?_⟩
    · rw [arrive_refused hs1 (i := i) hi hf hc]
    · rw [arrive_joins hs1 hi ho hf hc, accept_open (n := (returned { r with flight := rest } slot x.tok).node slot x.tok.ctx) x.tok hn]
      exact congrArg Host.Outcome.next ((spill_fits hroom).trans (State.setRegion_setRegion s rid _ _))
  case returns =>
    dsimp only
    intro hroom hx
    rw [show exec (.spillReturn rid pe set) s = execSpillReturn rid pe set s from rfl]
    simp only [execSpillReturn, hr, hl, ht, decide_eq_true hroom, Bool.not_true, Bool.or_self, Bool.false_eq_true, if_false, Bool.true_or, Bool.and_true, hx,
      if_true]

end Sys2Proof.Claims
end

section
/-! SUPPORT. O51: requests to memory, page walks, stair retirement. -/

namespace Sys2Proof.Machine

/-! ### Bytes put at places -/

/-- One of the bytes read. -/
theorem bytesAt_getD (s : State) (pa : Nat) {n i : Nat} (h : i < n) : (s.bytesAt pa n).getD i 0 = s.byteAt (pa + i) := by
  induction n generalizing pa i with
  | zero => exact absurd h (Nat.not_lt_zero i)
  | succ n ih =>
    cases i with
    | zero => rfl
    | succ i =>
      rw [State.bytesAt, List.getD_cons_succ, ih _ (Nat.lt_of_succ_lt_succ h)]
      exact congrArg s.byteAt (by omega)

/-- Bytes are read from the memory alone. -/
theorem bytesAt_congr {s t : State} (h : t.mem = s.mem) (pa n : Nat) : t.bytesAt pa n = s.bytesAt pa n := by
  induction n generalizing pa with
  | zero => rfl
  | succ n ih => rw [State.bytesAt, State.bytesAt, ih, byteAt_congr h]

/-- Bytes written one by one. -/
def State.writeEach (s : State) (pa : Nat) (bs : List (Nat × Byte)) : State := bs.foldl (fun s e => s.writeAt (pa + e.1) [e.2]) s

/-- Outside deterministic operation the bytes of an access are put into shared memory (R208). -/
theorem putEach_shared {ctx : Nat} {s : State} (pa : Nat) (bs : List (Nat × Byte)) (h : detLaunchOf s ctx = none) :
    putEach s ctx pa bs = some (s.writeEach pa bs) := by
  induction bs generalizing s with
  | nil => rfl
  | cons b bs ih =>
    have hw : s.viewWrite ctx (pa + b.1) [b.2] = some (s.writeAt (pa + b.1) [b.2]) := by simp only [State.viewWrite, h]
    simp only [putEach, hw]
    exact ih h

/-- Bytes written at places that rise by one leave these bytes. -/
theorem writeEach_byteAt (s : State) (pa n : Nat) {g : Nat → Option (Nat × Byte)} (hg : ∀ i e, g i = some e → e.1 = i) (a : Nat) :
    (s.writeEach pa ((List.range n).filterMap g)).byteAt a =
      if pa ≤ a ∧ a < pa + n then ((g (a - pa)).map (·.2)).getD (s.byteAt a) else s.byteAt a := by
  induction n with
  | zero => exact (if_neg (by omega)).symm
  | succ n ih =>
    rw [List.range_succ, List.filterMap_append, State.writeEach, List.foldl_append]
    change (State.writeEach (s.writeEach pa ((List.range n).filterMap g)) pa ([n].filterMap g)).byteAt a = _
    cases hn : g n with
    | none =>
      have hnil : [n].filterMap g = [] := by rw [List.filterMap_cons_none hn, List.filterMap_nil]
      rw [hnil, State.writeEach, List.foldl_nil, ih]
      by_cases ha : a = pa + n
      · rw [if_neg (by omega), if_pos (by omega), ha, Nat.add_sub_cancel_left, hn]
        rfl
      · exact if_congr (by omega) rfl rfl
    | some e =>
      have hone : [n].filterMap g = [e] := by rw [List.filterMap_cons_some hn, List.filterMap_nil]
      rw [hone, State.writeEach, List.foldl_cons, List.foldl_nil, hg n e hn]
      by_cases ha : a = pa + n
      · subst ha
        have hin := State.writeAt_inside (s.writeEach pa ((List.range n).filterMap g)) (pa + n) [e.2] (i := 0) Nat.one_pos
        rw [Nat.add_zero] at hin
        rw [hin, if_pos (by omega), Nat.add_sub_cancel_left, hn]
        rfl
      · rw [State.writeAt_outside _ _ (by rw [List.length_singleton]; omega), ih]
        exact if_congr (by omega) rfl rfl

/-- The bytes that writes give at their places (R241). -/
theorem writtenBytes_eq (ws : List ByteWrite) (off : Nat) (old : List Byte) : ∃ g : Nat → Option (Nat × Byte),
    writtenBytes ws off old = (List.range old.length).filterMap g ∧ (∀ i e, g i = some e → e.1 = i) ∧
      ∀ i, i < old.length → ((g i).map (·.2)).getD (old.getD i 0) = (partBytes ws off old).getD i 0 := by
  let g : Nat → Option (Nat × Byte) := fun i => match ws.filter fun w => w.off = off + i with
    | [] => none
    | us => some (i, us.foldl (fun b w => w.apply b) (old.getD i 0))
  refine ⟨g, rfl, fun i e h => ?_, fun i hi => ?_⟩
  · dsimp only [g] at h
    split at h
    · cases h
    · cases h; rfl
  · have hp : (partBytes ws off old).getD i 0 = (ws.filter fun w => w.off = off + i).foldl (fun b w => w.apply b) (old.getD i 0) := by
      rw [partBytes, List.getD_eq_getElem _ _ (by rw [List.length_map, List.length_range]; exact hi), List.getElem_map, List.getElem_range]
    rw [hp]
    dsimp only [g]
    split
    · next h => rw [h]; rfl
    · rfl

/-- The target's service changes the services alone (R445). -/
theorem serve_eq (s : State) (pa part : Nat) : ∃ v, s.serve pa part = { s with served := v } := by
  unfold State.serve
  split
  · exact ⟨s.served, rfl⟩
  · exact ⟨_, rfl⟩

/-! ### Page walks -/

/-- A translation that fills a buffer is in it. -/
theorem mem_fillTlb {n : Nat} (t : TlbEntry) (m : List TlbEntry) (hn : 0 < n) : t ∈ fillTlb n t m := by
  unfold fillTlb
  split
  · next h => exact List.contains_iff_mem.1 h
  · rw [List.drop_append_of_le_length (by omega)]
    exact List.mem_append_right _ (List.mem_singleton.2 rfl)

/-- Where a walk has landed (R201): its translation is in the buffers of the quad and of its gallery, and its entry is gone. -/
structure Landed (e : TlbEntry) (pq n : Nat) (t : State) : Prop where
  first : e ∈ (t.pquadOf pq).tlb
  second : e ∈ NatMap.get [] t.tlb2 (pq / 16)
  gone : ∀ x ∈ (t.pquadOf pq).misses, x.key ≠ n

/-- The translation that a walk brings an entry (R201). -/
def leafEntry (part vpn pte level : Nat) : TlbEntry := ⟨part, alignDown (pageSize level) (vpn * 2 ^ 16), pageSize level, BitVec.ofNat 64 pte⟩

/-- What a landing changes: the quads' buffers. -/
theorem landWalk_frame (w : Walked) (s : State) (a : Nat × MissEntry) :
    (landWalk w s a).mem = s.mem ∧ (landWalk w s a).pending = s.pending ∧ (landWalk w s a).lqpart = s.lqpart ∧ (landWalk w s a).remap = s.remap := by
  cases w <;> exact ⟨rfl, rfl, rfl, rfl⟩

/-- The walk lands at an entry. -/
theorem landWalk_landed (s : State) (pq : Nat) (m : MissEntry) (pte level : Nat) :
    Landed (leafEntry m.part m.vpn pte level) pq m.key (landWalk (.leaf pte level) s (pq, m)) := by
  have hp : (landWalk (.leaf pte level) s (pq, m)).pquadOf pq = _ := NatMap.get_set_self _ _ _ _
  refine ⟨?_, ?_, ?_⟩
  · rw [hp]
    exact mem_fillTlb _ _ (by decide)
  · rw [show NatMap.get [] (landWalk (.leaf pte level) s (pq, m)).tlb2 (pq / 16) = _ from NatMap.get_set_self _ _ _ _]
    exact mem_fillTlb _ _ (by decide)
  · rw [hp]
    intro x hx
    simpa using (List.mem_filter.1 hx).2


/-- The walk landing at another entry that shares it keeps what has landed. -/
theorem landWalk_keeps {s : State} {e : TlbEntry} {pq n pte level : Nat} {a : Nat × MissEntry} (he : leafEntry a.2.part a.2.vpn pte level = e)
    (h : Landed e pq n s) : Landed e pq n (landWalk (.leaf pte level) s a) := by
  obtain ⟨h1, h2, h3⟩ := h
  refine ⟨?_, ?_, ?_⟩
  · by_cases hpq : pq = a.1
    · subst hpq
      rw [show (landWalk (.leaf pte level) s a).pquadOf a.1 = _ from NatMap.get_set_self _ _ _ _]
      exact he ▸ mem_fillTlb _ _ (by decide)
    · rw [show (landWalk (.leaf pte level) s a).pquadOf pq = s.pquadOf pq from NatMap.get_set_other _ _ _ hpq]
      exact h1
  · by_cases hg : pq / 16 = a.1 / 16
    · rw [hg]
      rw [show NatMap.get [] (landWalk (.leaf pte level) s a).tlb2 (a.1 / 16) = _ from NatMap.get_set_self _ _ _ _]
      exact he ▸ mem_fillTlb _ _ (by decide)
    · rw [show NatMap.get [] (landWalk (.leaf pte level) s a).tlb2 (pq / 16) = NatMap.get [] s.tlb2 (pq / 16) from NatMap.get_set_other _ _ _ hg]
      exact h2
  · by_cases hpq : pq = a.1
    · subst hpq
      rw [show (landWalk (.leaf pte level) s a).pquadOf a.1 = _ from NatMap.get_set_self _ _ _ _]
      exact fun x hx => h3 x (List.mem_filter.1 hx).1
    · rw [show (landWalk (.leaf pte level) s a).pquadOf pq = s.pquadOf pq from NatMap.get_set_other _ _ _ hpq]
      exact h3

/-- A walk that lands at entries that share it, one of them given, has landed there. -/
theorem landWalks_landed {e : TlbEntry} {pq pte level : Nat} {m : MissEntry} (he : leafEntry m.part m.vpn pte level = e) {es : List (Nat × MissEntry)} :
    ∀ {s : State}, (∀ a ∈ es, leafEntry a.2.part a.2.vpn pte level = e) → ((pq, m) ∈ es ∨ Landed e pq m.key s) →
      Landed e pq m.key (es.foldl (landWalk (.leaf pte level)) s) := by
  induction es with
  | nil => exact fun _ h => h.resolve_left (List.not_mem_nil)
  | cons a es ih =>
    intro s hall h
    refine ih (fun b hb => hall b (List.mem_cons_of_mem a hb)) ?_
    rcases h with h | h
    · rcases List.mem_cons.1 h with rfl | h
      · exact .inr (he ▸ landWalk_landed s pq m pte level)
      · exact .inl h
    · exact .inr (landWalk_keeps (hall a List.mem_cons_self) h)

/-- Landings change neither memory nor the requests. -/
theorem landWalks_frame (w : Walked) (es : List (Nat × MissEntry)) (s : State) :
    (es.foldl (landWalk w) s).mem = s.mem ∧ (es.foldl (landWalk w) s).pending = s.pending :=
  ⟨foldl_keeps State.mem (landWalk w) (fun s a => (landWalk_frame w s a).1) s es, foldl_keeps State.pending (landWalk w) (fun s a => (landWalk_frame w s a).2.1) s es⟩

/-- Where no request waits on a walk none goes on. -/
theorem goOn_none {s : State} (h : ∀ x ∈ s.pending, ∀ k, x.st ≠ .miss k) (es : List (Nat × MissEntry)) (vpn : Nat) : goOn s es vpn = s := by
  have hn : (s.pending.filter fun x => es.any fun a => decide (x.st = .miss a.2.key) && decide (s.pqOf x.req.lq = a.1)) = [] := by
    refine List.filter_eq_nil_iff.2 fun x hx => ?_
    rw [List.any_eq_true]
    rintro ⟨a, -, ha⟩
    exact h x hx a.2.key (of_decide_eq_true (Bool.and_eq_true _ _ ▸ ha).1)
  rw [goOn, hn, List.foldl_nil]

/-- An entry whose page the second level does not hold is one of its hall's misses (R201). -/
theorem mem_hallMisses {s : State} {pq : Nat} {m : MissEntry} (hm : m ∈ (s.pquadOf pq).misses) (hs : secondLevel s pq m.part m.vpn = none) :
    (pq, m) ∈ hallMisses s (pq / 64) := by
  have hmem : (pq, s.pquadOf pq) ∈ s.pquads := by
    rw [State.pquadOf, NatMap.get_eq] at hm ⊢
    cases hf : NatMap.find? s.pquads pq with
    | none => rw [hf] at hm; cases hm
    | some x => exact NatMap.mem_of_find hf
  refine List.mem_flatMap.2 ⟨_, hmem, ?_⟩
  rw [if_pos rfl]
  exact List.mem_map.2 ⟨m, List.mem_filter.2 ⟨hm, by rw [hs]; rfl⟩, rfl⟩

/-- A page walk whose leaf is found (R201). -/
theorem pageWalkComplete_leaf {s : State} {pq n pte level : Nat} {m : MissEntry} (hm : (s.pquadOf pq).misses.find? (fun m => m.key = n) = some m)
    (hp : ∀ x ∈ s.pending, ∀ k, x.st ≠ .miss k) (hs : secondLevel s pq m.part m.vpn = none) (ho : walkOut s (pq, m) = true)
    (hw : walk s m.part (((s.hosted pq).head?).getD 0) (m.vpn * 2 ^ 16) = .leaf pte level) :
    ∃ t, execPageWalkComplete pq n s = .next t ∧ Landed (leafEntry m.part m.vpn pte level) pq n t ∧ t.mem = s.mem ∧ t.pending = s.pending := by
  let es := (hallMisses s (pq / 64)).filter fun b => sharesWalk (pq, m) b
  have hkey : m.key = n := by simpa using List.find?_some hm
  obtain ⟨hmem, hpend⟩ := landWalks_frame (.leaf pte level) es s
  refine ⟨es.foldl (landWalk (.leaf pte level)) s, ?_, ?_, hmem, hpend⟩
  · simp only [execPageWalkComplete, hm, hs, ho, Bool.not_true, Bool.false_eq_true, if_false, hw]
    exact congrArg Host.Outcome.next (goOn_none (by rw [hpend]; exact hp) _ _)
  · refine hkey ▸ landWalks_landed rfl (fun a ha => ?_) (.inl (List.mem_filter.2 ⟨mem_hallMisses (List.mem_of_find?_eq_some hm) hs, ?_⟩))
    · have hsh := (List.mem_filter.1 ha).2
      simp only [sharesWalk, Bool.and_eq_true, decide_eq_true_eq] at hsh
      obtain ⟨⟨-, hpart⟩, hvpn⟩ := hsh
      rw [← hpart, ← hvpn]
    · simp only [sharesWalk, decide_true, Bool.and_self]

/-- A page walk that the second level answers (R201). -/
theorem pageWalkComplete_second {s : State} {pq n : Nat} {m : MissEntry} {e : TlbEntry} (hm : (s.pquadOf pq).misses.find? (fun m => m.key = n) = some m)
    (hp : ∀ x ∈ s.pending, ∀ k, x.st ≠ .miss k) (hs : secondLevel s pq m.part m.vpn = some e) :
    execPageWalkComplete pq n s = .next (landSecond e s (pq, m)) ∧ e ∈ ((landSecond e s (pq, m)).pquadOf pq).tlb ∧
      ∀ x ∈ ((landSecond e s (pq, m)).pquadOf pq).misses, x.key ≠ n := by
  have hkey : m.key = n := by simpa using List.find?_some hm
  have hq : (landSecond e s (pq, m)).pquadOf pq = _ := NatMap.get_set_self _ _ _ _
  refine ⟨?_, ?_, fun x hx => ?_⟩
  · simp only [execPageWalkComplete, hm, hs]
    exact congrArg Host.Outcome.next (goOn_none (s := landSecond e s (pq, m)) hp _ _)
  · rw [hq]
    exact mem_fillTlb _ _ (by decide)
  · rw [hq] at hx
    have h := (List.mem_filter.1 hx).2
    rw [hkey] at h
    exact of_decide_eq_true h

/-! ### Performing at home -/

/-- A part in a lost bank (R223). -/
theorem perform_lost {s : State} {id : Nat} {p : Part} {q : Request} (hp : partAt s id = some (p, q)) (hl : lostHome s p.req = true) :
    execAccessPerformAtHome id s = .next (faultAll s q.id 0x42 q.addr 7 true) ∧ execRmwPipelineUpdate id s = .next (faultAll s q.id 0x42 q.addr 7 true) := by
  simp only [execAccessPerformAtHome, execRmwPipelineUpdate, hp, hl, if_true]
  exact ⟨rfl, rfl⟩

/-- A part that cannot be performed yet, or whose target serves another (R445). -/
theorem perform_waits {s : State} {id : Nat} {p : Part} {q : Request} (hp : partAt s id = some (p, q)) (hl : lostHome s p.req = false)
    (h : canPerform s p q = false ∨ isServed s p.pa q.part = false) : execAccessPerformAtHome id s = .next s ∧ execRmwPipelineUpdate id s = .next s := by
  have h' : (!canPerform s p q) = true ∨ (!isServed s p.pa q.part) = true := h.imp (by rintro h; rw [h]; rfl) (by rintro h; rw [h]; rfl)
  simp only [execAccessPerformAtHome, execRmwPipelineUpdate, hp, hl, Bool.false_eq_true, if_false]
  exact ⟨if_pos (.inr h'), if_pos h'⟩

/-- A part that is performed, by the operation of its request (R206). -/
theorem perform_eq {s : State} {id : Nat} {p : Part} {q : Request} (hp : partAt s id = some (p, q)) (hl : lostHome s p.req = false)
    (hc : canPerform s p q = true) (hs : isServed s p.pa q.part = true) (hw : q.want ≠ .atm) :
    execAccessPerformAtHome id s = match q.op with
      | .store => .next (storePart (s.serve p.pa q.part) q p)
      | _ => .next (partDone (readUpset (s.serve p.pa q.part) p.pa) p ((readUpset (s.serve p.pa q.part) p.pa).viewBytes q.ctx p.pa p.len)
          ((readUpset (s.serve p.pa q.part) p.pa).poisonedFor q.ctx p.pa p.len)) := by
  have hn : ¬ (q.want = .atm ∨ (!canPerform s p q) = true ∨ (!isServed s p.pa q.part) = true) := by
    rw [hc, hs]
    rintro (h | h | h)
    · exact hw h
    · cases h
    · cases h
  simp only [execAccessPerformAtHome, hp, hl, Bool.false_eq_true, if_false]
  rw [if_neg hn]
  all_goals rfl

/-- An ATOM or RED that is performed (R230). -/
theorem update_eq {s : State} {id op : Nat} {p : Part} {q : Request} (hp : partAt s id = some (p, q)) (hl : lostHome s p.req = false)
    (hc : canPerform s p q = true) (hs : isServed s p.pa q.part = true) (ho : q.op = .atomic op ∨ q.op = .reduce op) :
    execRmwPipelineUpdate id s = .next (updateParts (s.serve p.pa q.part) op q p) := by
  simp only [execRmwPipelineUpdate, hp, hl, hc, hs, Bool.not_true, Bool.false_eq_true, if_false, or_self]
  rcases ho with ho | ho <;> simp only [ho]

/-- Without an upset a read strikes nothing (R397). -/
theorem readUpset_none {s : State} (h : s.upset = .none) (pa : Nat) : readUpset s pa = s := by
  simp only [readUpset, h, ite_self]

/-- The bytes that a context outside deterministic operation sees (R207). -/
theorem viewBytes_shared {s : State} {ctx : Nat} (h : detLaunchOf s ctx = none) (pa n : Nat) : s.viewBytes ctx pa n = s.bytesAt pa n := by
  simp only [State.viewBytes, State.task?, h, Option.map_none]

/-- A store of unpoisoned data at home, outside deterministic operation (R206, R208): it is done with the bytes its writes give. -/
theorem storePart_shared {s : State} {q : Request} {p : Part} (hd : detLaunchOf s q.ctx = none) (hb : (s.partners q.id).any (·.dataPoison) = false) :
    storePart s q p = partDone (s.writeEach p.pa (writtenBytes (requestWrites s q).1 p.off (s.bytesAt p.pa p.len))) p [] false := by
  have hps : storeParts s q p = [p] := by
    rw [storeParts, hd]
    rfl
  have hput : putWrites q.ctx (fun s _ => (requestWrites s q).1) [p] s =
      some (s.writeEach p.pa (writtenBytes (requestWrites s q).1 p.off (s.bytesAt p.pa p.len))) := by
    rw [putWrites, viewBytes_shared hd, putEach_shared _ _ hd]
    rfl
  simp only [storePart, hps, hput, hb, List.foldl_cons, List.foldl_nil, Bool.false_eq_true, if_false]

/-- What the bytes of a store are afterwards (R208, R241): its own, and no others changed. -/
theorem store_bytes (s : State) (p : Part) (ws : List ByteWrite) :
    let s1 := s.writeEach p.pa (writtenBytes ws p.off (s.bytesAt p.pa p.len))
    (∀ i, i < p.len → s1.byteAt (p.pa + i) = (partBytes ws p.off (s.bytesAt p.pa p.len)).getD i 0) ∧
      ∀ a, (a < p.pa ∨ p.pa + p.len ≤ a) → s1.byteAt a = s.byteAt a := by
  obtain ⟨g, hw, hg, hv⟩ := writtenBytes_eq ws p.off (s.bytesAt p.pa p.len)
  rw [State.bytesAt_length] at hw hv
  dsimp only
  rw [hw]
  refine ⟨fun i hi => ?_, fun (a : Nat) (ha : a < p.pa ∨ p.pa + p.len ≤ a) => ?_⟩
  · rw [writeEach_byteAt s p.pa p.len hg, if_pos (by omega), Nat.add_sub_cancel_left, ← hv i hi, bytesAt_getD s p.pa hi]
  · rw [writeEach_byteAt s p.pa p.len hg, if_neg fun ⟨h1, h2⟩ => ha.elim (fun h => Nat.not_lt.2 h1 h) fun h => Nat.not_lt.2 h h2]

/-- An ATOM or RED waits for the earlier ones of its input and for its banks (R221, R231). -/
theorem canPerform_atm {s : State} {p : Part} {q : Request} (hw : q.want = .atm)
    (h : ∃ x ∈ partsHere s q.id, behindInput s x q = true ∨ evacuating s x.pa = true) : canPerform s p q = false := by
  obtain ⟨x, hx, hb⟩ := h
  rw [canPerform, if_pos hw, Bool.and_eq_false_iff]
  refine .inr (List.all_eq_false.2 ⟨x, hx, ?_⟩)
  rcases hb with hb | hb <;> simp [hb]

/-! ### Slots of the evacuation area -/

/-- The slot that is found is free, and every lower one is taken (R222). -/
theorem freeSlot_some {s : State} {hall n : Nat} (h : freeSlot s hall = some n) :
    (NatMap.get Redirect.init s.redir (16 * hall + n)).valid = false ∧
      ∀ k, k < n → (NatMap.get Redirect.init s.redir (16 * hall + k)).valid = true := by
  obtain ⟨hv, hn, hlow⟩ := List.find?_range_eq_some.1 h
  refine ⟨by simpa using hv, fun k hk => ?_⟩
  simpa using hlow k hk

end Sys2Proof.Machine

namespace Sys2Proof.Claims

open Sys2Proof.Machine

/-- Settles O51: acceptance, walks, performing, release and stair retirement, each by the lemma of its event. -/
theorem memoryServesRequests : Obligations.MemoryServesRequests := by
  refine ⟨⟨fun s lq mt p hf => ?accept, fun s pq n m pte level hm hp => ?walk, fun s id p q hp => ?perform,
    fun s rid slot r x ds ctx wr ws hr hfr ht hw hd hroom => ?release⟩, fun s pq bank hall n => ?banks⟩
  case accept =>
    rw [show exec (.memoryRequestAccept lq mt) s = execMemoryRequestAccept lq mt s from rfl]
    simp only [execMemoryRequestAccept, hf]
    refine ⟨fun h => if_pos h, fun h h1 => ?_, fun h h1 h2 => ?_, fun h h1 h2 h3 => ?_⟩
    · rw [if_neg (by rw [h]; decide), if_pos (by rw [h1]; rfl)]
      rfl
    · rw [if_neg (by rw [h]; decide), if_neg (by rw [h1]; decide), if_pos (by rw [h2]; rfl)]
      rfl
    · rw [if_neg (by rw [h]; decide), if_neg (by rw [h1]; decide), if_neg (by rw [h2]; decide), if_neg (by rw [h3]; decide)]
  case walk =>
    refine ⟨fun hs ho hw => ?_, fun e hs => ?_⟩
    · obtain ⟨t, he, ⟨h1, h2, h3⟩, hmem, hpend⟩ := pageWalkComplete_leaf hm hp hs ho hw
      have hent : leafEntry m.part m.vpn pte level =
          ⟨m.part, m.vpn * 2 ^ 16 / pageSize level * pageSize level, pageSize level, BitVec.ofNat 64 pte⟩ := by
        rw [leafEntry, alignDown, ← Nat.div_mul_self_eq_mod_sub_self]
      dsimp only
      rw [← hent]
      exact ⟨t, he, h1, h2, h3, hmem, hpend⟩
    · obtain ⟨he, h1, h3⟩ := pageWalkComplete_second hm hp hs
      exact ⟨_, he, h1, h3, rfl, rfl, rfl⟩
  case perform =>
    refine ⟨perform_lost hp, perform_waits hp, fun hl hc hs => ⟨fun hu ho => ?_, fun ho hdet hbad => ?_, fun op ho => update_eq hp hl hc hs ho⟩, canPerform_atm⟩
    · have hw : q.want ≠ .atm := by rw [Request.want, ho]; decide
      obtain ⟨v, hv⟩ := serve_eq s p.pa q.part
      have hup : readUpset (s.serve p.pa q.part) p.pa = s.serve p.pa q.part := readUpset_none (by rw [hv]; exact hu) _
      rw [show exec (.accessPerformAtHome id) s = execAccessPerformAtHome id s from rfl, perform_eq hp hl hc hs hw]
      simp only [ho, hup]
    · have hw : q.want ≠ .atm := by rw [Request.want, ho]; decide
      obtain ⟨v, hv⟩ := serve_eq s p.pa q.part
      have hbytes := store_bytes (s.serve p.pa q.part) p (requestWrites (s.serve p.pa q.part) q).1
      refine ⟨(s.serve p.pa q.part).writeEach p.pa
        (writtenBytes (requestWrites (s.serve p.pa q.part) q).1 p.off ((s.serve p.pa q.part).bytesAt p.pa p.len)), ?_, ?_⟩
      · rw [show exec (.accessPerformAtHome id) s = execAccessPerformAtHome id s from rfl, perform_eq hp hl hc hs hw]
        simp only [ho]
        rw [storePart_shared (by rw [hv]; exact hdet) (by rw [hv]; exact hbad)]
      · have hmem : (s.serve p.pa q.part).mem = s.mem := by rw [hv]
        have hreq : requestWrites (s.serve p.pa q.part) q = requestWrites s q := by rw [hv]; rfl
        simp only [hreq, bytesAt_congr hmem, byteAt_congr hmem] at hbytes ⊢
        exact hbytes
  case release =>
    refine ⟨_, ?_, rfl⟩
    rw [show exec (.mtReplyRelease rid slot) s = execMtReplyRelease rid slot s from rfl]
    simp only [execMtReplyRelease, hr, hfr, ht, hw, hd, hroom, Bool.not_true, Bool.or_self, Bool.and_false, Bool.false_eq_true, if_false,
      State.setRegion_region_self, State.setRegion_setRegion]
  case banks =>
    refine ⟨fun hpq hb hn hf => ?_, freeSlot_some, fun e he hv hd hu => ?_⟩
    · have hskip : ¬ (s.numPq ≤ pq ∨ 4 ≤ bank ∨ (NatMap.find? s.banks (4 * pq + bank)).isSome = true) := by
        rw [hn]
        rintro (h | h | h)
        · omega
        · omega
        · cases h
      rw [show exec (.stairTransferFailure pq bank) s = execStairTransferFailure pq bank s from rfl, execStairTransferFailure, unlessFailed_next hf]
      dsimp only
      rw [if_neg hskip]
      exact ⟨fun h => by simp only [h], fun h => by simp only [h]⟩
    · rw [show exec (.evacuationComplete hall n) s = execEvacuationComplete hall n s from rfl]
      simp only [execEvacuationComplete, he, hv, hd, hu, Bool.not_true, Bool.or_self, Bool.false_eq_true, if_false, reduceCtorEq]

end Sys2Proof.Claims
end

section
/-! SUPPORT. O52: pre-emption, read-out, restore and turns. -/

namespace Sys2Proof.Claims

open Sys2Proof.Machine

/-- A launch that lacks room, and victims that make it, each with a run of pages (R415, R416). -/
theorem preemptionDecision_freezes {s : State} {n : Nat} {l : Launch} {vs : List (Nat × Launch)} {runs : List (List Nat)} (hl : s.launch? n = some l)
    (hr : lacksRoom s n l = true) (hv : victims s n l = some vs) (hf : freeRuns s l.part (usedPages s l.part) vs = some runs)
    (ho : ∀ e ∈ vs, launchOwes s e.1 e.2 = false) :
    exec (.preemptionDecision n) s = .next ((vs.zip runs).foldl (fun s e => freezeLaunch s e.1.1 e.1.2 1 e.2) s) := by
  rw [show exec (.preemptionDecision n) s = execPreemptionDecision n s from rfl]
  simp only [execPreemptionDecision, hl, hr, hv, hf, Bool.not_true, Bool.false_eq_true, if_false]
  refine if_neg fun h => ?_
  obtain ⟨e, he, h⟩ := List.any_eq_true.1 h
  rw [ho e he] at h
  cases h

/-- A saved launch that may go on and whose places are free (R427). -/
theorem launchRestore_eq {s : State} {n k : Nat} {l : Launch} {im : Image} (hl : s.launch? n = some l) (hi : s.imageOf? n = some (k, im))
    (hw : s.waits n l = true) (hm : mayStart s n l = true) (hf : imageFree s [] im = true) :
    exec (.launchRestore n) s = if intact s im then .next (restoreImage s k n im l) else .next (endLaunch s n 0x01) := by
  rw [show exec (.launchRestore n) s = execLaunchRestore n s from rfl]
  simp only [execLaunchRestore, hl, hi, hw, hm, hf, Bool.not_true, Bool.or_self, Bool.false_eq_true, if_false]
  cases intact s im <;> rfl

/-- A quad of an image whose answers are in, no upset striking (R419). -/
theorem preemptReadoutComplete_reads {s : State} {k lq : Nat} {im : Image} {l : Launch} (hi : NatMap.find? s.images k = some im) (hs : im.st = .saving)
    (hl : s.launch? im.launch = some l) (hp : l.phase = .saved) (hu : s.upset = .none) (hr : im.reading.contains lq = true)
    (ha : answersOwed s lq l = false) (ho : launchOwes s im.launch l = false) :
    exec (.preemptReadoutComplete k lq) s = .next (readQuad s k lq l im) := by
  rw [show exec (.preemptReadoutComplete k lq) s = execPreemptReadoutComplete k lq s from rfl]
  simp only [execPreemptReadoutComplete, hi, hl, hs, hp, hr, ha, ho, hu, ne_eq, not_true_eq_false, Bool.not_true, Bool.false_eq_true, or_self, if_false]

/-- A late reply that an image still owes (R419). -/
theorem lateReply_settles {s : State} {k id : Nat} {im : Image} (hi : NatMap.find? s.images k = some im) (hs : im.st = .saving)
    (hl : im.late.contains id = true) (hp : ∀ p ∈ s.pending, p.req.id ≠ id) :
    exec (.lateReplyIntoImage k id) s = .next (settleImage s k { im with late := im.late.filter (· ≠ id) }) := by
  have hn : (s.pending.any fun p => decide (p.req.id = id)) = false := List.any_eq_false.2 fun p h => by simpa using hp p h
  rw [show exec (.lateReplyIntoImage k id) s = execLateReplyIntoImage k id s from rfl]
  simp only [execLateReplyIntoImage, hi, hs, hl, hn, ne_eq, not_true_eq_false, Bool.not_true, Bool.false_eq_true, or_self, if_false]

/-- A turn whose queues have no access out (R57). -/
theorem turnChange_eq {s : State} {pq lq : Nat} (ht : s.turnOf pq = some lq) (ha : ([0, 1, 2, 3].all fun q => !accessOut (s.queueOf lq q)) = true) :
    exec (.turnChange pq) s = if (s.pquadOf pq).turnStart + 65536 ≤ s.cycle ∨ nothingToRun s lq = true then .next (changeTurn s pq) else .next s := by
  rw [show exec (.turnChange pq) s = execTurnChange pq s from rfl]
  simp only [execTurnChange, ht, ha, and_true]

/-- Settles O52: each event with its conditions met. -/
theorem launchesAreSavedAndRestored : Obligations.LaunchesAreSavedAndRestored := by
  refine ⟨fun s n l vs runs hl => ⟨fun hr hv hf ho => preemptionDecision_freezes hl hr hv hf ho, fun hr => ?_, fun k im hi hw hm hf => ?_⟩,
    fun s k lq id im l hi hs => ⟨fun hl hp hu hr ha ho => preemptReadoutComplete_reads hi hs hl hp hu hr ha ho, fun hl hp => lateReply_settles hi hs hl hp⟩,
    fun s pq lq ht ha => ⟨fun h => ?_, fun hc hn => ?_⟩⟩
  · rw [show exec (.preemptionDecision n) s = execPreemptionDecision n s from rfl]
    simp only [execPreemptionDecision, hl, hr, Bool.not_false, if_true]
  · rw [launchRestore_eq hl hi hw hm hf]
    exact ⟨fun h => if_pos h, fun h => if_neg (ne_true_of_eq_false h)⟩
  · rw [turnChange_eq ht ha, if_pos h]
  · rw [turnChange_eq ht ha, if_neg]
    rw [hn]
    rintro (h | h)
    · omega
    · cases h

end Sys2Proof.Claims
end

section
/-! SUPPORT. O53: a saved launch whose handle is listed twice. -/

namespace Sys2Proof.Claims

open Sys2Proof.Machine

/-- A launch that the arbiter has saved. -/
def savedLaunch : Launch := { owesRecord with phase := .saved }

/-- Its image, complete and without a section, whose first page starts 64 bytes before the end of the peer window. -/
def edgeImage : Image :=
  { cause := 1, st := .complete, part := 0, lid := 0, freeze := 0, size := 36, nq := 0, ntag := 0, check := 0, launch := 0, pages := [2 ^ 51 - 64], seed := 0
    reading := [], tags := [], regions := [], asked := [], queues := [], bce := [], bceCur := [], mxcmds := [], mxcfg := [], nodes := [], ovf := [], late := [] }

/-- A deterministic launch whose task is the context by which the header of an image is written, its write set bounded by three granules. -/
def headerTask : Launch :=
  { writesAsTask with stages := [⟨⟨0, 0, 0, false, false, false, false, 1, 3, 0, 0, 0, 1, 1, [], [0], [(0, 0)]⟩, 0, [], [(0, 1)], [], none, [], [], none, none⟩] }

/-- A machine that lists both launches under handle 0. -/
def savedTwice : State :=
  { State.reset with
    powered := true, boot := { State.reset.boot with phase := .running }, images := [(0, edgeImage)]
    launches := [(0, savedLaunch), (0, headerTask)] }

/-- The launch may go on, its places are free and its image is intact. -/
theorem savedTwice_restorable : savedTwice.waits 0 savedLaunch = true ∧ mayStart savedTwice 0 savedLaunch = true ∧
    imageFree savedTwice [] edgeImage = true ∧ intact savedTwice edgeImage = true := by
  decide +kernel

/-- Restored, the handle names the other launch. -/
theorem savedTwice_restored : ((restoreImage savedTwice 0 0 edgeImage savedLaunch).launch? 0).map (·.ctxs) = some [4096] := by
  decide +kernel

/-- Refutes O53: its last clause takes the launch that is put at its handle to be found there once the header of the image has been written. Where the list of
launches holds two entries for one handle (which `NatMap.insert` makes of no rising list), and the header, which starts in the peer window, ends outside it,
that write is one of a deterministic task and puts the second entry in front of the first. -/
theorem not_eventsTakeEffect : ¬ Obligations.EventsTakeEffect := by
  rintro ⟨-, -, -, -, -, h⟩
  have hl : savedTwice.launch? 0 = some savedLaunch := rfl
  have hi : savedTwice.imageOf? 0 = some (0, edgeImage) := rfl
  obtain ⟨hw, hm, hf, hin⟩ := savedTwice_restorable
  obtain ⟨-, -, hlast⟩ := h savedTwice 0 0 0 0 edgeImage savedLaunch rfl
  obtain ⟨t, m, he, ht, -, hc⟩ := hlast hl hi hw hm hf hin
  rw [launchRestore_eq hl hi hw hm hf, if_pos hin] at he
  cases he
  have hr := savedTwice_restored
  rw [ht] at hr
  have hctx : m.ctxs = [4096] := Option.some.inj hr
  exact absurd (hctx.symm.trans hc) (by decide)

end Sys2Proof.Claims
end

section
/-! SUPPORT. O54: the copy engines. -/

namespace Sys2Proof.Claims

open Sys2Proof.Machine

section Channel

variable {s : State} {lq ch : Nat} {c : Cmd}

/-! ### The start of a command -/

/-- Without an upset no read is struck. -/
theorem struck_none (h : s.upset = .none) (a : Access) (va : Nat) : s.struck a va = s := if_pos h

/-- A channel in its turn whose command has not been read yet reads it (R281), no upset striking. -/
theorem bceCommandStart_eq (hk : ((s.quadOf lq).chan ch).cur = some c) (hr : ((s.quadOf lq).chan ch).st = .run) (ht : s.inTurn lq = true)
    (hu : s.upset = .none) (hj : ((s.quadOf lq).chan ch).job = none) :
    exec (.bceCommandStart lq ch) s = match bceRead s c with
      | .wait h => .next (s.noteHold h)
      | .fault code v => .next (bceAbort (s.setChan lq ch ((s.quadOf lq).chan ch).begin) lq ch c code v)
      | .done (src, dst, w) =>
        match bceRefuses c src dst w with
        | some (code, v) => .next (bceAbort (s.setChan lq ch ((s.quadOf lq).chan ch).begin) lq ch c code v)
        | none => .next ((s.dropCmdReads c).setChan lq ch { ((s.quadOf lq).chan ch).begin with job := some ⟨src.take c.rank, dst.take c.rank, w, none⟩ }) := by
  rw [show exec (.bceCommandStart lq ch) s = execBceCommandStart lq ch s from rfl]
  simp only [execBceCommandStart, hk, hr, hj, ht, struck_none hu, ne_eq, not_true_eq_false, Option.isSome_none, Bool.not_true, Bool.false_eq_true, or_self,
    if_false]
  all_goals rfl

/-! ### A turn of a channel -/

/-- A channel in its turn moves the elements of one granule (R277), no upset striking. -/
theorem bceGranuleTransfer_eq {b : BceJob} (hk : ((s.quadOf lq).chan ch).cur = some c) (hb : ((s.quadOf lq).chan ch).job = some b)
    (hr : ((s.quadOf lq).chan ch).st = .run) (ht : s.inTurn lq = true) (hp : ((s.quadOf lq).chan ch).posted = none) (hu : s.upset = .none) :
    exec (.bceGranuleTransfer lq ch) s = .next (moveGranule lq ch c (granuleOf c b (((s.quadOf lq).chan ch).bytes / c.esz)) 64
      (((s.quadOf lq).chan ch).bytes / c.esz) b s) := by
  have hup : ∀ j, bceUpset s c b j = s := by
    intro j
    unfold bceUpset
    split_ifs
    · rfl
    · split
      · exact struck_none hu _ _
      · rfl
  rw [show exec (.bceGranuleTransfer lq ch) s = execBceGranuleTransfer lq ch s from rfl]
  simp only [execBceGranuleTransfer, hk, hb, hr, ht, hp, hup, ne_eq, not_true_eq_false, Option.isSome_none, Bool.not_true, Bool.false_eq_true, or_self, if_false]

variable {b : BceJob} {j : Nat}

/-- The first element of a turn, which is there to be moved. -/
theorem moveGranule_first (fuel : Nat) (hj : j < sizeProd b.dst) (hp : ((s.quadOf lq).chan ch).posted = none) :
    moveGranule lq ch c (granuleOf c b j) (fuel + 1) j b s = match withIndex s c b j with
      | .wait h => s.noteHold h
      | .fault code v => bceAbort s lq ch c code v
      | .done b1 =>
        let s0 := s.setChan lq ch { ((s.quadOf lq).chan ch) with job := some b1 }
        match moveElem s0 lq ch c b1 j with
        | .wait h => s0.noteHold h
        | .fence s1 va => bceFence s1 lq ch codeOwner va
        | .abort s1 code va => bceAbort s1 lq ch c code va
        | .done s1 => moveGranule lq ch c (granuleOf c b j) fuel (j + 1) b1 (elemMoved (s1.dropCmdReads c) lq ch c.esz) := by
  have hn : ¬ (sizeProd b.dst ≤ j ∨ granuleOf c b j ≠ granuleOf c b j ∨ ((s.quadOf lq).chan ch).posted.isSome = true) := by
    rw [hp]
    rintro (h | h | h)
    · omega
    · exact h rfl
    · cases h
  rw [moveGranule, if_neg hn]
  all_goals rfl

/-- A turn ends before the next granule, and with the last element (R277). -/
theorem moveGranule_ends {g : Int} (fuel : Nat) (h : granuleOf c b j ≠ g ∨ j = sizeProd b.dst) : moveGranule lq ch c g fuel j b s = s := by
  cases fuel with
  | zero => rfl
  | succ fuel => exact if_pos (h.elim (fun h => .inr (.inl h)) fun h => .inl h.ge)

/-- A turn that moves one element (R277, R284). -/
theorem transfer_moves {b1 : BceJob} {s1 : State} (hk : ((s.quadOf lq).chan ch).cur = some c) (hb : ((s.quadOf lq).chan ch).job = some b)
    (hr : ((s.quadOf lq).chan ch).st = .run) (ht : s.inTurn lq = true) (hp : ((s.quadOf lq).chan ch).posted = none) (hu : s.upset = .none)
    (he : j = ((s.quadOf lq).chan ch).bytes / c.esz) (hj : j < sizeProd b.dst) (hi : withIndex s c b j = .done b1)
    (hm : moveElem (s.setChan lq ch { ((s.quadOf lq).chan ch) with job := some b1 }) lq ch c b1 j = .done s1)
    (hl : granuleOf c b1 (j + 1) ≠ granuleOf c b j ∨ j + 1 = sizeProd b1.dst) :
    exec (.bceGranuleTransfer lq ch) s = .next (elemMoved (s1.dropCmdReads c) lq ch c.esz) := by
  rw [bceGranuleTransfer_eq hk hb hr ht hp hu, ← he, moveGranule_first 63 hj hp]
  simp only [hi, hm, moveGranule_ends 63 hl]

/-- A turn whose element is fenced (R294). -/
theorem transfer_fences {b1 : BceJob} {s1 : State} {va : Nat} (hk : ((s.quadOf lq).chan ch).cur = some c) (hb : ((s.quadOf lq).chan ch).job = some b)
    (hr : ((s.quadOf lq).chan ch).st = .run) (ht : s.inTurn lq = true) (hp : ((s.quadOf lq).chan ch).posted = none) (hu : s.upset = .none)
    (he : j = ((s.quadOf lq).chan ch).bytes / c.esz) (hj : j < sizeProd b.dst) (hi : withIndex s c b j = .done b1)
    (hm : moveElem (s.setChan lq ch { ((s.quadOf lq).chan ch) with job := some b1 }) lq ch c b1 j = .fence s1 va) :
    exec (.bceGranuleTransfer lq ch) s = .next (bceFence s1 lq ch 0x30 va) := by
  rw [bceGranuleTransfer_eq hk hb hr ht hp hu, ← he, moveGranule_first 63 hj hp]
  simp only [hi, hm]
  rfl

/-- A turn whose element aborts (R295). -/
theorem transfer_aborts {b1 : BceJob} {s1 : State} {code va : Nat} (hk : ((s.quadOf lq).chan ch).cur = some c)
    (hb : ((s.quadOf lq).chan ch).job = some b) (hr : ((s.quadOf lq).chan ch).st = .run) (ht : s.inTurn lq = true)
    (hp : ((s.quadOf lq).chan ch).posted = none) (hu : s.upset = .none) (he : j = ((s.quadOf lq).chan ch).bytes / c.esz) (hj : j < sizeProd b.dst)
    (hi : withIndex s c b j = .done b1)
    (hm : moveElem (s.setChan lq ch { ((s.quadOf lq).chan ch) with job := some b1 }) lq ch c b1 j = .abort s1 code va) :
    exec (.bceGranuleTransfer lq ch) s = .next (bceAbort s1 lq ch c code va) := by
  rw [bceGranuleTransfer_eq hk hb hr ht hp hu, ← he, moveGranule_first 63 hj hp]
  simp only [hi, hm]

/-- A turn whose index cannot be read, or is too large (R286). -/
theorem transfer_refuses {code va : Nat} (hk : ((s.quadOf lq).chan ch).cur = some c) (hb : ((s.quadOf lq).chan ch).job = some b)
    (hr : ((s.quadOf lq).chan ch).st = .run) (ht : s.inTurn lq = true) (hp : ((s.quadOf lq).chan ch).posted = none) (hu : s.upset = .none)
    (he : j = ((s.quadOf lq).chan ch).bytes / c.esz) (hj : j < sizeProd b.dst) (hi : withIndex s c b j = .fault code va) :
    exec (.bceGranuleTransfer lq ch) s = .next (bceAbort s lq ch c code va) := by
  rw [bceGranuleTransfer_eq hk hb hr ht hp hu, ← he, moveGranule_first 63 hj hp]
  simp only [hi]

/-! ### The end of a command -/

/-- A channel whose command has moved its last byte (R278, R288, R289). -/
theorem bceCommandComplete_eq (hk : ((s.quadOf lq).chan ch).cur = some c) (hb : ((s.quadOf lq).chan ch).job = some b)
    (hr : ((s.quadOf lq).chan ch).st = .run) (ht : s.inTurn lq = true) (hbytes : ((s.quadOf lq).chan ch).bytes = sizeProd b.dst * c.esz) :
    exec (.bceCommandComplete lq ch) s =
      if bit c.word 6 && !s.pubValid c.part (bits c.word 5 0) then .next (bceAbort s lq ch c codePermission (c.t.toNat % 2 ^ 57))
      else if c.opcode = 0x41 && !canAccept s lq b.follow then .next s
      else
        let s1 := s.setChan lq ch ((s.quadOf lq).chan ch).next
        let s2 := if bit c.word 6 then s1.publishFor c.ctx c.part (bits c.word 5 0) else s1
        let m := bits b.follow 59 56
        let s3 := if c.opcode = 0x41 then s2.setQuad lq ((s2.quadOf lq).setMx m (((s2.quadOf lq).mx m).take (c.followOn b.follow))) else s2
        .next (s3.complete c) := by
  rw [show exec (.bceCommandComplete lq ch) s = execBceCommandComplete lq ch s from rfl]
  simp only [execBceCommandComplete, hk, hb, hr, ht, hbytes, ne_eq, not_true_eq_false, Bool.not_true, Bool.false_eq_true, or_self, if_false]

end Channel

/-! ### An element of a COPY -/

section Carried

variable {s : State} {lq ch : Nat} {c : Cmd} {b : BceJob} {j qa pa : Nat}

/-- A COPY reads no index. -/
theorem copy_index (hc : c.opcode = 0x40) : withIndex s c b j = .done b := by
  rw [withIndex, if_pos (.inl (by rw [hc]; decide))]

/-- The channel's state as an element of a COPY is moved is the one it has. -/
theorem copy_channel (hb : ((s.quadOf lq).chan ch).job = some b) :
    s.setChan lq ch { ((s.quadOf lq).chan ch) with job := some b } = s.setChan lq ch ((s.quadOf lq).chan ch) := by
  rw [← hb]

/-- The addresses of an element of a COPY lie in the address space. -/
theorem copy_inside {x : Int} {n : Nat} (h : 0 ≤ x ∧ x + n ≤ 2 ^ 57) : outside n x = false := by
  rw [outside, decide_eq_false (by omega), decide_eq_false (by omega)]
  rfl

/-- The bytes of an element that is carried, none of them poisoned (R284, R292). -/
theorem carries_source (h : Carries s lq ch c b j qa pa) :
    sourceBytes (s.setChan lq ch ((s.quadOf lq).chan ch)) c ((c.s.toNat : Int) + offsetOf b.src j) = .done ((s.bytesAt qa c.esz).map fun x => (x, false)) := by
  obtain ⟨hs, -, hr, hread⟩ := h.source
  have hdone : (State.readRuns (s.setChan lq ch ((s.quadOf lq).chan ch)) (bceAccess c) [(qa, c.esz)],
      State.runsPoisoned (s.setChan lq ch ((s.quadOf lq).chan ch)) (bceAccess c) [(qa, c.esz)]) = (s.bytesAt qa c.esz, false) := by
    unfold State.readAt at hread
    split at hread
    · cases hread
    · cases hread
    · cases hread
    · exact Access.Answer.done.inj hread
  obtain ⟨hbytes, hbad⟩ := Prod.mk.inj hdone
  have hop : c.opcode ≠ 0x45 := by rw [h.copy]; decide
  rw [sourceBytes, if_neg hop]
  simp only [hr, hs, hread, markedBytes, List.flatMap_cons, List.flatMap_nil, List.append_nil, hbytes, hbad]

/-- The one write of an element that is carried (R284, R294). -/
theorem carries_move (h : Carries s lq ch c b j qa pa) :
    moveElem (s.setChan lq ch ((s.quadOf lq).chan ch)) lq ch c b j =
      if tagPasses s c pa = true then .done (((s.setChan lq ch ((s.quadOf lq).chan ch)).writeAt pa (s.bytesAt qa c.esz)).ownedBy
        (s.setChan lq ch ((s.quadOf lq).chan ch)) (.copy lq ch ((c.t.toNat : Int) + offsetOf b.dst j).toNat))
      else .fence (s.setChan lq ch ((s.quadOf lq).chan ch)) ((c.t.toNat : Int) + offsetOf b.dst j).toNat := by
  obtain ⟨hg, hpeer, hstand⟩ := h.goal
  have haddr : elemAddrs c b j = ((c.s.toNat : Int) + offsetOf b.src j, [(c.t.toNat : Int) + offsetOf b.dst j]) := by
    rw [elemAddrs, if_neg (by rw [h.copy]; decide), if_neg (by rw [h.copy]; decide), Cmd.bases, if_neg (by rw [h.copy]; decide)]
    rfl
  have hlen : ((s.bytesAt qa c.esz).map fun x => (x, false)).length = c.esz := by rw [List.length_map, State.bytesAt_length]
  have htag : tagPasses (s.setChan lq ch ((s.quadOf lq).chan ch)) c pa = tagPasses s c pa := rfl
  have hdet : detLaunchOf (s.setChan lq ch ((s.quadOf lq).chan ch)) c.ctx = none := h.plain
  have hin : inPeer (s.setChan lq ch ((s.quadOf lq).chan ch)) (pa, c.esz) = false := hpeer
  have hbytes : (((s.bytesAt qa c.esz).map fun x => (x, false)).take c.esz).map Prod.fst = s.bytesAt qa c.esz := by
    rw [List.take_of_length_le hlen.le, List.map_map]
    exact List.map_id _
  have hclean : ((((s.bytesAt qa c.esz).map fun x => (x, false)).take c.esz).any Prod.snd) = false := by
    rw [List.take_of_length_le hlen.le, List.any_map]
    exact List.any_eq_false.2 fun x _ => Bool.false_ne_true
  have hrun : bceWriteRun (s.setChan lq ch ((s.quadOf lq).chan ch)) lq ch c (pa, c.esz) (((s.bytesAt qa c.esz).map fun x => (x, false)).take c.esz) =
      some ((s.setChan lq ch ((s.quadOf lq).chan ch)).writeAt pa (s.bytesAt qa c.esz)) := by
    simp only [bceWriteRun, State.writeRun, hin, hbytes, hclean, State.viewWrite, hdet, Bool.false_eq_true, if_false]
    rw [if_neg (by rw [h.copy]; decide)]
  simp only [moveElem, haddr, copy_inside h.from0, Bool.and_false, Bool.false_eq_true, if_false, List.find?_cons, List.find?_nil, copy_inside h.to0,
    carries_source h, bceWrites, bceWrite, hlen, hg, hstand, bceWriteRuns, hdet, Option.isNone_none, Bool.true_and, htag, hrun]
  by_cases ht : tagPasses s c pa = true
  · simp only [ht, Bool.not_true, Bool.false_eq_true, if_false, if_true]
  · simp only [Bool.eq_false_iff.2 ht, Bool.not_false, if_true, Bool.false_eq_true, if_false]

/-- The frame of a vault address lets the command's write pass (R293). -/
theorem tagPasses_iff : tagPasses s c pa = true ↔
    let v := (NatMap.get 0 s.own (1024 * vaultPq pa + 256 * vaultBank pa + vaultOff pa / 2 ^ 16)).toNat
    rangeOf s pa ≠ .vault ∨ (v.testBit 16 = true ∧ bits v 15 12 = c.part ∧ (bits v 11 0 = c.ctx ∨ bits v 11 0 = 0xFFF)) := by
  unfold tagPasses
  by_cases hr : rangeOf s pa = .vault
  · rw [if_pos hr]
    simp only [bit, Bool.and_eq_true, Bool.or_eq_true, decide_eq_true_eq, hr, ne_eq, not_true_eq_false, false_or, and_assoc]
  · rw [if_neg hr]
    exact ⟨fun _ => .inl hr, fun _ => rfl⟩

/-- An element that is carried, its frame letting it pass: its bytes are those of its source, no other byte changes, and BYTES counts it (R284, R290). -/
theorem carries_done (h : Carries s lq ch c b j qa pa) (ht : tagPasses s c pa = true) :
    ∃ t, exec (.bceGranuleTransfer lq ch) s = .next t ∧ (∀ i, i < c.esz → t.byteAt (pa + i) = s.byteAt (qa + i)) ∧
      (∀ a, a < pa ∨ pa + c.esz ≤ a → t.byteAt a = s.byteAt a) ∧ ((t.quadOf lq).chan ch).bytes = ((s.quadOf lq).chan ch).bytes + c.esz := by
  obtain ⟨hk, hb, hr, hf, hturn, hu, hp, he, hj, hl⟩ := h.moving
  let s0 := s.setChan lq ch ((s.quadOf lq).chan ch)
  let s1 := (s0.writeAt pa (s.bytesAt qa c.esz)).ownedBy s0 (.copy lq ch ((c.t.toNat : Int) + offsetOf b.dst j).toNat)
  have hm : moveElem (s.setChan lq ch { ((s.quadOf lq).chan ch) with job := some b }) lq ch c b j = .done s1 := by
    rw [copy_channel hb, carries_move h, if_pos ht]
  have hpeer : (s1.dropCmdReads c).peerOut = [] := by
    show s.peerOut.map _ = []
    rw [hp, List.map_nil]
  have hcount : elemMoved (s1.dropCmdReads c) lq ch c.esz = countElem (s1.dropCmdReads c) lq ch c.esz := by
    rw [elemMoved, hpeer]
    exact if_neg Bool.false_ne_true
  have hlen : (s.bytesAt qa c.esz).length = c.esz := State.bytesAt_length s qa c.esz
  have hmem : (countElem (s1.dropCmdReads c) lq ch c.esz).mem = (s0.writeAt pa (s.bytesAt qa c.esz)).mem := by
    rw [countElem, State.setChan_mem, State.dropCmdReads_mem]
    rfl
  refine ⟨countElem (s1.dropCmdReads c) lq ch c.esz, ?_, fun i hi => ?_, fun a ha => ?_, ?_⟩
  · rw [transfer_moves hk hb hr hturn hf hu he hj (copy_index h.copy) hm hl.symm, hcount]
  · rw [byteAt_congr hmem, State.writeAt_inside s0 pa _ (by rw [hlen]; exact hi), bytesAt_getD s qa hi]
  · rw [byteAt_congr hmem, State.writeAt_outside s0 _ (by rw [hlen]; exact ha)]
    exact State.setChan_byteAt s lq ch _ a
  · have hs1 : ((s1.dropCmdReads c).quadOf lq).chan ch = (s.quadOf lq).chan ch := by
      have hq : (s1.dropCmdReads c).quads = s0.quads := by
        rw [State.dropCmdReads_quads]
        rfl
      rw [State.quadOf, hq]
      exact State.setChan_chan_self s lq ch _
    rw [countElem, State.setChan_chan_self, hs1]

/-- One whose frame refuses it: the channel is fenced and nothing is written (R294). -/
theorem carries_fenced (h : Carries s lq ch c b j qa pa) (ht : ¬ tagPasses s c pa = true) :
    ∃ t, exec (.bceGranuleTransfer lq ch) s = .next t ∧ t.mem = s.mem ∧ ((t.quadOf lq).chan ch).st = .fenced ∧
      ((t.quadOf lq).chan ch).fcode = 0x30 ∧ ((t.quadOf lq).chan ch).bytes = ((s.quadOf lq).chan ch).bytes := by
  obtain ⟨hk, hb, hr, hf, hturn, hu, hp, he, hj, hl⟩ := h.moving
  have hm : moveElem (s.setChan lq ch { ((s.quadOf lq).chan ch) with job := some b }) lq ch c b j =
      .fence (s.setChan lq ch ((s.quadOf lq).chan ch)) ((c.t.toNat : Int) + offsetOf b.dst j).toNat := by
    rw [copy_channel hb, carries_move h, if_neg ht]
  refine ⟨_, transfer_fences hk hb hr hturn hf hu he hj (copy_index h.copy) hm, ?_, ?_, ?_, ?_⟩
  · simp only [bceFence, State.setChan_mem, disown]
    cases (((s.setChan lq ch ((s.quadOf lq).chan ch)).quadOf lq).chan ch).cur <;> rfl
  · rw [bceFence, State.setChan_chan_self]
    rfl
  · rw [bceFence, State.setChan_chan_self]
    rfl
  · rw [bceFence, State.setChan_chan_self, State.setChan_chan_self]
    rfl

end Carried

/-- Settles O54: the start, one turn of a channel by what its first element comes to, and the end of a command. -/
theorem copyEnginesMoveElements : Obligations.CopyEnginesMoveElements := by
  refine ⟨fun s lq ch c src dst w => ?engine, fun s lq ch c b j => ?element⟩
  case engine =>
    dsimp only
    intro hk hr ht
    refine ⟨fun hu hj hread hok => ?_, fun code v hu hj hread hbad => ?_, fun b hb => ⟨fun hu hp hj hl => ⟨fun code va hi => ?_, fun b1 hi =>
      ⟨fun s1 hm hl1 => ?_, fun s1 va hm => ?_, fun s1 code va hm => ?_⟩⟩, fun hbytes => ?_⟩⟩
    · simp only [bceCommandStart_eq hk hr ht hu hj, hread, hok]
    · simp only [bceCommandStart_eq hk hr ht hu hj, hread, hbad]
    · exact transfer_refuses hk hb hr ht hp hu rfl hj hi
    · exact transfer_moves hk hb hr ht hp hu rfl hj hi hm hl1
    · exact transfer_fences hk hb hr ht hp hu rfl hj hi hm
    · exact transfer_aborts hk hb hr ht hp hu rfl hj hi hm
    · simp only [bceCommandComplete_eq hk hb hr ht hbytes, bit]
      refine ⟨fun h6 hv => ?_, fun h6 ho => ?_, fun h6 hv ho => ?_, fun h6 ho ha => ?_, fun h6 ho ha => ?_⟩
      · simp only [h6, hv, Bool.not_false, Bool.and_self, if_true]
        rfl
      · simp only [h6, ho, Bool.false_and, decide_false, Bool.false_eq_true, if_false]
      · simp only [h6, hv, ho, Bool.not_true, Bool.and_false, Bool.false_and, decide_false, Bool.false_eq_true, if_false, if_true]
      · simp only [h6, ho, ha, Bool.false_and, decide_true, Bool.not_false, Bool.and_self, Bool.false_eq_true, if_false, if_true]
      · simp only [h6, ho, ha, Bool.false_and, decide_true, Bool.not_true, Bool.and_false, Bool.false_eq_true, if_false, if_true]
  case element =>
    dsimp only
    refine ⟨fun qa pa h => ⟨fun hpass => ?_, fun hv hno => ?_⟩, fun bs h hop hidx hread hlim => ?_⟩
    · exact carries_done h (tagPasses_iff.2 hpass)
    · refine carries_fenced h fun ht => ?_
      rcases tagPasses_iff.1 ht with hr | ⟨h16, hpart, hctx⟩
      · exact hr hv
      · rcases hno with hno | hno | ⟨hno, hno'⟩
        · rw [h16] at hno; cases hno
        · exact hno hpart
        · exact hctx.elim hno hno'
    · obtain ⟨hk, hb, hr, hf, hturn, hu, -, he, hj, -⟩ := h
      refine transfer_refuses hk hb hr hturn hf hu he hj ?_
      have hn : ¬ ((c.opcode ≠ 0x43 ∧ c.opcode ≠ 0x44) ∨ b.index.map (·.1) = some (b.row j)) := by
        rintro (⟨h1, h2⟩ | h)
        · exact hop.elim h1 h2
        · exact hidx h
      rw [withIndex, if_neg hn]
      simp only [hread, if_pos hlim]
      rfl

end Sys2Proof.Claims
end

section
/-! SUPPORT. O55: the matrix tiles. -/

namespace Sys2Proof.Claims

open Sys2Proof.Machine

section Tile

variable {s : State} {lq m : Nat} {k : MxCmd} {ks : List MxCmd}

/-! ### The command that comes next -/

/-- The command of the bypass slot takes effect where it may (R321). -/
theorem mxtCommandStart_bypass {b : MxCmd} (ht : s.inTurn lq = true) (hb : ((s.quadOf lq).mx m).bypass = some b)
    (hmay : ((s.quadOf lq).mx m).bypassMay = true) (hc : frozenCtx s lq b.cmd.ctx = false) :
    exec (.mxtCommandStart lq m) s = .next (doPart s lq m b.cmd) := by
  rw [show exec (.mxtCommandStart lq m) s = execMxtCommandStart lq m s from rfl]
  simp only [execMxtCommandStart, ht, hb, hmay, hc, Bool.not_true, Bool.false_eq_true, if_false, if_true]

/-- With the bypass slot free, the head of the queue starts (R312). -/
theorem mxtCommandStart_head (ht : s.inTurn lq = true) (hb : ((s.quadOf lq).mx m).bypass = none) (hq : ((s.quadOf lq).mx m).queue = k :: ks)
    (hs : k.started = false) (hc : frozenCtx s lq k.cmd.ctx = false) : exec (.mxtCommandStart lq m) s = .next (startCommand s lq m k.cmd) := by
  rw [show exec (.mxtCommandStart lq m) s = execMxtCommandStart lq m s from rfl]
  simp only [execMxtCommandStart, ht, hb, hq, hs, hc, ite_self, Bool.not_true, Bool.false_eq_true, or_self, if_false]

/-- An MMA or MMAT whose node and operands are in order runs (R316). -/
theorem startCommand_mma (hq : ((s.quadOf lq).mx m).queue = k :: ks) (hop : k.cmd.opcode ≤ 0x51)
    (hf : mmaFault s k.cmd (((s.quadOf lq).mx m).node k.cmd.nodeNo) = none) (ho : checkOperands s k.cmd = .ok) :
    startCommand s lq m k.cmd = s.setMx lq m { ((s.quadOf lq).mx m) with queue := { k with started := true } :: ks } := by
  simp only [startCommand, if_pos hop, hf, ho, markStarted, hq]

/-! ### A group -/

/-- A running MMA or MMAT at a group boundary gives way to the bypass slot, and else applies its next group (R308, R321). -/
theorem mxtGroupApply_eq (ht : s.inTurn lq = true) (hq : ((s.quadOf lq).mx m).queue = k :: ks) (hs : k.started = true) (hop : k.cmd.opcode ≤ 0x51) :
    exec (.mxtGroupApply lq m) s = match if k.out = 0 then ((s.quadOf lq).mx m).bypass else none with
      | some b => .next (doPart s lq m b.cmd)
      | none =>
        if (mmaArgs k.cmd).k ≤ k.step then .next (mmaEnd s lq m k.cmd)
        else if k.stalled && !k.retry then .next s
        else .next (doGroup s lq m k.cmd k.step) := by
  have hmay : ((s.quadOf lq).mx m).bypassMay = decide (k.out = 0) := by
    simp only [Mxt.bypassMay, hq, if_pos hop]
  rw [show exec (.mxtGroupApply lq m) s = execMxtGroupApply lq m s from rfl]
  simp only [execMxtGroupApply, hq, ht, hs, Nat.not_lt.2 hop, hmay, Bool.not_true, Bool.false_eq_true, or_self, if_false, decide_eq_true_eq]
  all_goals rfl

/-- With no command to let by, a running MMA or MMAT goes on with its groups. -/
theorem mxtGroupApply_unpassed (ht : s.inTurn lq = true) (hq : ((s.quadOf lq).mx m).queue = k :: ks) (hs : k.started = true)
    (hop : k.cmd.opcode ≤ 0x51) (hn : ((s.quadOf lq).mx m).bypass = none ∨ k.out ≠ 0) :
    exec (.mxtGroupApply lq m) s =
      if (mmaArgs k.cmd).k ≤ k.step then .next (mmaEnd s lq m k.cmd)
      else if k.stalled && !k.retry then .next s
      else .next (doGroup s lq m k.cmd k.step) := by
  have hnone : (if k.out = 0 then ((s.quadOf lq).mx m).bypass else none) = none := by
    rcases hn with hn | hn
    · rw [hn, ite_self]
    · exact if_neg hn
  simp only [mxtGroupApply_eq ht hq hs hop, hnone]

/-! ### A token of an ACCOUT -/

variable {d : Dest} {r : Region}

/-- The target of a running ACCOUT is no longer there (R319). -/
theorem accoutTokenEmit_gone (ht : s.inTurn lq = true) (hq : ((s.quadOf lq).mx m).queue = k :: ks) (hs : k.started = true) (hop : k.cmd.opcode = 0x54)
    (hd : accoutTarget s (((s.quadOf lq).mx m).node k.cmd.nodeNo).ctx k.cmd.t.toNat = none) :
    exec (.accoutTokenEmit lq m) s = .next (mxAbort s lq m k.cmd 0x11 0) := by
  rw [show exec (.accoutTokenEmit lq m) s = execAccoutTokenEmit lq m s from rfl]
  simp only [execAccoutTokenEmit, hq, ht, hs, hop, hd, Bool.not_true, Bool.false_eq_true, ne_eq, not_true_eq_false, or_self, if_false]
  rfl

/-- The next token of a running ACCOUT leaves where its target accepts it (R319). -/
theorem accoutTokenEmit_eq (ht : s.inTurn lq = true) (hq : ((s.quadOf lq).mx m).queue = k :: ks) (hs : k.started = true) (hop : k.cmd.opcode = 0x54)
    (hd : accoutTarget s (((s.quadOf lq).mx m).node k.cmd.nodeNo).ctx k.cmd.t.toNat = some d) (hr : s.region? d.region = some r) :
    exec (.accoutTokenEmit lq m) s =
      if Machine.accepts r d then
        let s1 := (s.setMx lq m { ((s.quadOf lq).mx m) with queue := { k with out := k.out + 1 } :: ks }).deliver [d] (accoutToken ((s.quadOf lq).mx m) k.cmd k.out)
        .next (if 16 * (bits k.cmd.word 6 0 + 1) - (if k.cmd.word.testBit 10 then 1 else 0) ≤ k.out then accoutEnd s1 lq m k.cmd else s1)
      else .next s := by
  rw [show exec (.accoutTokenEmit lq m) s = execAccoutTokenEmit lq m s from rfl]
  cases ha : Machine.accepts r d <;>
    simp only [execAccoutTokenEmit, hq, ht, hs, hop, hd, hr, ha, b2n, bit, Option.map_some, Option.getD_some, Bool.not_true, Bool.not_false, Bool.false_eq_true,
      ne_eq, not_true_eq_false, or_self, if_false, if_true]
  all_goals rfl

/-- A port that accepts: its region runs and its router has room (R319, R426). -/
theorem accepts_iff : Machine.accepts r d = true ↔ r.running = true ∧ r.frozen = false ∧ r.routed (r.placeOf d.slot).1 < 8 := by
  simp only [Machine.accepts, Bool.and_eq_true, Bool.not_eq_true', decide_eq_true_eq, and_assoc]

end Tile

/-- A position of an integer node keeps its value and its carry in 20 and 2 bits (R308). -/
theorem intStep_spec {acc v : Int} (h1 : -(2 ^ 19) ≤ acc) (h2 : acc < 2 ^ 19) (h3 : -(2 ^ 19) < v) (h4 : v < 2 ^ 19) :
    (intStep acc v).1 + 2 ^ 20 * (intStep acc v).2 = acc + v ∧ -(2 ^ 19) ≤ (intStep acc v).1 ∧ (intStep acc v).1 < 2 ^ 19 ∧
      ((intStep acc v).2 = -1 ∨ (intStep acc v).2 = 0 ∨ (intStep acc v).2 = 1) := by
  unfold intStep
  dsimp only
  split_ifs <;> dsimp only <;> omega

/-- Settles O55: the start of a tile's next command, a group of a running one, a token of an ACCOUT, and the arithmetic of a position. -/
theorem matrixTilesApplyGroups : Obligations.MatrixTilesApplyGroups := by
  refine ⟨fun s lq m k ks ht => ?tile, fun acc v h1 h2 h3 h4 => intStep_spec h1 h2 h3 h4⟩
  case tile =>
    refine ⟨fun b hb hmay hc => mxtCommandStart_bypass ht hb hmay hc, fun hb hq hs hc => mxtCommandStart_head ht hb hq hs hc,
      fun hb hq hs hc hop hf ho => ?start, fun hq hs hop => ⟨fun b hb h0 => ?pass, fun hn hk => ⟨fun hgo => ?group, fun hst hre => ?stalled⟩,
        fun hn hk => ?ended⟩,
      fun hq hs hop => ⟨accoutTokenEmit_gone ht hq hs hop, fun d r hd hr => ⟨fun hno => ?full, fun hrun hfz hroom => ?token⟩⟩⟩
    case start => rw [mxtCommandStart_head ht hb hq hs hc, startCommand_mma hq hop hf ho]
    case pass => simp only [mxtGroupApply_eq ht hq hs hop, if_pos h0, hb]
    case group =>
      have hgo' : ¬ (k.stalled && !k.retry) = true := by
        rcases hgo with h | h <;> simp only [h, Bool.false_and, Bool.not_true, Bool.and_false, Bool.false_eq_true, not_false_eq_true]
      rw [mxtGroupApply_unpassed ht hq hs hop hn, if_neg (Nat.not_le.2 hk), if_neg hgo']
    case stalled =>
      rw [mxtGroupApply_unpassed ht hq hs hop hn, if_neg (Nat.not_le.2 hk), if_pos (by rw [hst, hre]; rfl)]
    case ended => rw [mxtGroupApply_unpassed ht hq hs hop hn, if_pos hk]
    case full =>
      have hn : ¬ Machine.accepts r d = true := fun ha => by
        obtain ⟨hrun, hfz, hroom⟩ := accepts_iff.1 ha
        rcases hno with h | h | h
        · rw [hrun] at h; cases h
        · rw [hfz] at h; cases h
        · exact Nat.not_lt.2 h hroom
      rw [accoutTokenEmit_eq ht hq hs hop hd hr, if_neg hn]
    case token =>
      rw [accoutTokenEmit_eq ht hq hs hop hd hr, if_pos (accepts_iff.2 ⟨hrun, hfz, hroom⟩)]
      exact ⟨fun hlt => congrArg Host.Outcome.next (if_neg (Nat.not_le.2 hlt)), fun hle => congrArg Host.Outcome.next (if_pos hle)⟩

end Sys2Proof.Claims
end

section
/-! SUPPORT. O56: collectives, sampling trees and grammars. -/

namespace Sys2Proof.Claims

open Sys2Proof.Machine

/-! ### Items of a collective -/

section Item

variable {s : State} {p n : Nat} {x : CruItem}

/-- The partition once its item `n` has come to the end of its way. -/
def offTheWay (s : State) (p n : Nat) : State := s.setPart p { (s.partOf p) with cruWay := (s.partOf p).cruWay.eraseIdx n }

/-- An item that no earlier one of its queue precedes and that nothing holds comes next (R335). -/
theorem cruLeafArrival_eq (hx : (s.partOf p).cruWay[n]? = some x) (hw : itemWaits s p x = none)
    (hfirst : ∀ y ∈ (s.partOf p).cruWay.take n, y.cmd.lq ≠ x.cmd.lq ∨ y.cmd.q ≠ x.cmd.q) :
    exec (.cruLeafArrival p n) s = .next (match x with
      | .cred c => startCred s p n c
      | .leaf l => leafArrives (offTheWay s p n) p l
      | .fix c g q choice => fixArrives (offTheWay s p n) p c g q choice) := by
  have hno : (((s.partOf p).cruWay.take n).any fun y => decide (y.cmd.lq = x.cmd.lq) && decide (y.cmd.q = x.cmd.q)) = false := by
    refine List.any_eq_false.2 fun y hy => ?_
    rw [Bool.and_eq_true, decide_eq_true_eq, decide_eq_true_eq]
    exact fun h => (hfirst y hy).elim (· h.1) (· h.2)
  rw [show exec (.cruLeafArrival p n) s = execCruLeafArrival p n s from rfl]
  simp only [execCruLeafArrival, hx, hw, hno, Bool.false_eq_true, if_false]
  cases x <;> rfl

/-- With no upset, no read of a CRED is struck. -/
theorem credStruck_none {c : Cmd} (hu : s.upset = .none) : credStruck s c = s := by
  unfold credStruck
  split <;> exact struck_none hu _ _

/-- A CRED that has read its operands leaves its leaf in its place (R345). -/
theorem startCred_done {c : Cmd} {l : Leaf} (hu : s.upset = .none) (h : credStart s c = .done l) :
    startCred s p n c = s.setPart p { (s.partOf p) with cruWay := listSet (s.partOf p).cruWay n (.leaf l) } := by
  simp only [startCred, credStruck_none hu, h]

/-- One that cannot aborts, and is gone from its place (R345). -/
theorem startCred_fault {c : Cmd} {code va : Nat} (hu : s.upset = .none) (h : credStart s c = .fault code va) :
    startCred s p n c = (offTheWay s p n).abort c code va := by
  simp only [startCred, credStruck_none hu, h, offTheWay]

/-- A leaf whose root is here, and whose group has no instance, comes to the root (R335). -/
theorem leafArrives_root {l : Leaf} (h : leafAbroad s p l = none) (hi : NatMap.find? (s.partOf p).insts l.desc.gid = none) :
    leafArrives s p l = arriveAtRoot s p (.leaf { l with late := lateLeaf s l }) := by
  simp only [leafArrives, h, hi]

/-- A leaf whose root is a linked device leaves for it (R342). -/
theorem leafArrives_abroad {l : Leaf} {far : Far} (h : leafAbroad s p l = some far) : leafArrives s p l = settleAbroad p (sendAbroad s p far l) := by
  simp only [leafArrives, h]

/-- A CRFIX whose root is here comes to it (R346). -/
theorem fixArrives_root {c : Cmd} {g q choice : Nat} (h : goesAbroad (s.partOf p) c g q = false) :
    fixArrives s p c g q choice = comeToRoot s p (.fix c g q choice) := if_neg (ne_true_of_eq_false h)

end Item

/-! ### What leaves by a port -/

/-- A TYPE 6 transaction of a partition, from this node, that is about an instance of a linked device (R452). -/
structure TellsOf (here part : Nat) (dst : Far) (off : Nat) (o : PeerOut) : Prop where
  byPort : o.port = dst.port
  ofPart : o.part = part
  toNode : o.node = dst.node
  asFlits : ∃ sq d, o.flits = FlitHeader.flits ⟨6, part, dst.part, here, sq, off, 0, 0, 0, d⟩

/-- A request to a linked device becomes outstanding (R453). -/
theorem sendFar_peerOut (s : State) (part : Nat) (dst : Far) (off : Nat) (data : List Byte) :
    ∃ o, (s.sendFar part dst 6 off 0 0 0 data ⟨0, 0, 0, 0, 0⟩ .nobody).peerOut = s.peerOut ++ [o] ∧ TellsOf s.sysNode part dst off o :=
  let seq := NatMap.get 0 s.nextSeq (4096 * part + dst.node)
  ⟨⟨dst.port, part, dst.node, seq, FlitHeader.flits ⟨6, part, dst.part, s.sysNode, seq, off, 0, 0, 0, data⟩, 0, s.dtime,
    decide (1024 ≤ s.outstanding part dst.node), ⟨0, 0, 0, 0, 0⟩, .nobody⟩, rfl, ⟨rfl, rfl, rfl, seq, data, rfl⟩⟩

/-- It leaves the number of the node as it was. -/
theorem sendFar_sysNode (s : State) (part : Nat) (dst : Far) (off : Nat) (data : List Byte) :
    (s.sendFar part dst 6 off 0 0 0 data ⟨0, 0, 0, 0, 0⟩ .nobody).sysNode = s.sysNode := by
  simp only [State.sendFar, State.sendFlits]
  split_ifs <;> rfl

/-- A message to a linked device becomes one request for each of its parts, in order (R342, R452). -/
theorem sendEach_peerOut (part : Nat) (dst : Far) (off : Nat) (ds : List (List Byte)) (s : State) :
    ∃ sent, (ds.foldl (fun s d => s.sendFar part dst 6 off 0 0 0 (d.take 64) ⟨0, 0, 0, 0, 0⟩ .nobody) s).peerOut = s.peerOut ++ sent ∧
      sent.length = ds.length ∧ ∀ o ∈ sent, TellsOf s.sysNode part dst off o := by
  induction ds generalizing s with
  | nil => exact ⟨[], (List.append_nil _).symm, rfl, fun o ho => absurd ho List.not_mem_nil⟩
  | cons d ds ih =>
    obtain ⟨o, ho, htell⟩ := sendFar_peerOut s part dst off (d.take 64)
    obtain ⟨sent, hsent, hlen, hall⟩ := ih (s.sendFar part dst 6 off 0 0 0 (d.take 64) ⟨0, 0, 0, 0, 0⟩ .nobody)
    rw [sendFar_sysNode] at hall
    refine ⟨o :: sent, ?_, by rw [List.length_cons, hlen, List.length_cons], fun y hy => ?_⟩
    · rw [List.foldl_cons, hsent, ho, List.append_assoc, List.singleton_append]
    · rcases List.mem_cons.1 hy with rfl | hy
      · exact htell
      · exact hall y hy

/-- The contribution that leaves for a linked device, its port not being lost (R342). -/
theorem sendAbroad_peerOut {s : State} {p : Nat} {far : Far} {l : Leaf} (h : (s.portOf far.port).st ≠ .lost) :
    ∃ sent, (sendAbroad s p far l).peerOut = s.peerOut ++ sent ∧ sent.length = (Config.cruData (.leaf l.desc l.elems l.det)).length ∧
      ∀ o ∈ sent, TellsOf s.sysNode p far (instBits l.desc.gid l.desc.seq) o := by
  unfold sendAbroad State.tell
  rw [if_neg (show ¬ ((s.setPart p _).portOf far.port).st = .lost from h)]
  exact sendEach_peerOut p far (instBits l.desc.gid l.desc.seq) (Config.cruData (.leaf l.desc l.elems l.det)) (s.setPart p _)

/-! ### Deadlines -/

section Deadline

variable {s : State} {p gid : Nat} {i : CollInst} {l : Leaf}

/-- The deadline of an open instance is its first leaf's, and is over once DTIME had come to it before this cycle (R337). -/
theorem overdue_opened (hi : i.st = .opened) (hl : i.leaves.head? = some l) (hd : l.det = false) : overdue s i = decide (l.desc.deadline ≤ s.prevDtime) := by
  simp only [overdue, hi, hl, lateLeaf, hd, decide_true, Bool.true_and, Option.map_some, Option.getD_some, Bool.not_false, Bool.and_true]

/-- Before its deadline is over an instance does not act (R337). -/
theorem cruDeadline_early (hf : NatMap.find? (s.partOf p).insts gid = some i) (ho : overdue s i = false) : exec (.cruDeadline p gid) s = .next s := by
  rw [show exec (.cruDeadline p gid) s = execCruDeadline p gid s from rfl]
  simp only [execCruDeadline, hf, ho, Bool.not_false, if_true]

/-- Once it is over, and no delivery has to wait, the instance acts and what waited at the root may act after it (R337). -/
theorem cruDeadline_due (hf : NatMap.find? (s.partOf p).insts gid = some i) (ho : overdue s i = true) (hw : instWaits s p gid = none) :
    exec (.cruDeadline p gid) s = .next (settleRoot p (((atDeadline s p i).partOf p).cruRoot.length + 1) (atDeadline s p i)) := by
  rw [show exec (.cruDeadline p gid) s = execCruDeadline p gid s from rfl]
  simp only [execCruDeadline, hf, ho, hw, Bool.not_true, Bool.false_eq_true, if_false]

end Deadline

/-! ### Commands of trees and grammar engines -/

/-- The first command of a tree, no write of an earlier one being owed, is performed whole (R352). -/
theorem pseCommandPerform_eq {s : State} {hall tree : Nat} {c : PseCmd} (hf : ((s.hallOf hall).pseQ.find? fun p => p.tree = tree) = some c) :
    exec (.pseCommandPerform hall tree) s = if treeOwes s hall tree = true then .next s else
      .next (pseFinish s c (psePerform (pseTake s hall c) hall c (if (detLaunchOf s c.cmd.ctx).isSome then 4096 else c.cmd.ctx))) := by
  rw [show exec (.pseCommandPerform hall tree) s = execPseCommandPerform hall tree s from rfl]
  simp only [execPseCommandPerform, hf]

/-- The oldest command of a grammar engine, no write of an earlier one being owed and no upset striking, is performed whole (R364). -/
theorem gmeCommandPerform_eq {s : State} {hall : Nat} {c : Cmd} {cs : List Cmd} (hq : (s.hallOf hall).gmeQ = c :: cs) (hu : s.upset = .none)
    (ho : gmeOwes s hall = false) :
    exec (.gmeCommandPerform hall) s = .next (gmeFinish s c (gmePerform (s.setHall hall { (s.hallOf hall) with gmeQ := cs }) hall c)) := by
  have hstruck : gmeStruck (s.setHall hall { (s.hallOf hall) with gmeQ := cs }) hall c = s.setHall hall { (s.hallOf hall) with gmeQ := cs } := if_pos hu
  rw [show exec (.gmeCommandPerform hall) s = execGmeCommandPerform hall s from rfl]
  simp only [execGmeCommandPerform, hq, ho, hstruck, Bool.false_eq_true, if_false]

/-- A grammar engine whose last command still has writes owed does nothing (R364). -/
theorem gmeCommandPerform_owes {s : State} {hall : Nat} (ho : gmeOwes s hall = true) : exec (.gmeCommandPerform hall) s = .next s := by
  rw [show exec (.gmeCommandPerform hall) s = execGmeCommandPerform hall s from rfl]
  unfold execGmeCommandPerform
  dsimp only
  split
  · rfl
  · rw [if_pos ho]

/-- Settles O56: an item of a collective by its kind, a deadline by the cycle, and the commands of trees and grammar engines by their end. -/
theorem enginesPerformTheirCommands : Obligations.EnginesPerformTheirCommands := by
  refine ⟨fun s p n x hx hw hfirst => ?item, fun s p gid i l hf hi hl hd => ⟨fun hlt => ?early, fun hle hw => ?due⟩,
    fun s hall tree p c cs t code va => ⟨fun hf => ?tree, gmeCommandPerform_owes, fun hq hu ho => ?grammar⟩⟩
  case item =>
    rw [cruLeafArrival_eq hx hw hfirst]
    refine ⟨fun c hc hu => ?_, fun l hl hroot hinst => ?_, fun l far hl habroad => ?_, fun c a b d hc hroot => ?_⟩
    · subst hc
      exact ⟨fun l h => congrArg Host.Outcome.next (startCred_done hu h), fun code va h => congrArg Host.Outcome.next (startCred_fault hu h)⟩
    · subst hl
      have hinst' : NatMap.find? ((offTheWay s p n).partOf p).insts l.desc.gid = none := by
        rw [offTheWay, State.setPart_partOf_self]
        exact hinst
      exact congrArg Host.Outcome.next (leafArrives_root hroot hinst')
    · subst hl
      refine ⟨congrArg Host.Outcome.next (leafArrives_abroad habroad), fun hport => ?_⟩
      obtain ⟨sent, hsent, hlen, hall⟩ := sendAbroad_peerOut (s := offTheWay s p n) (p := p) (l := l) (far := far) hport
      exact ⟨sent, hsent, hlen, fun o ho => ⟨(hall o ho).byPort, (hall o ho).ofPart, (hall o ho).toNode, (hall o ho).asFlits⟩⟩
    · subst hc
      exact congrArg Host.Outcome.next (fixArrives_root hroot)
  case early => exact cruDeadline_early hf (by rw [overdue_opened hi hl hd, decide_eq_false (Nat.not_le.2 hlt)])
  case due => exact cruDeadline_due hf (by rw [overdue_opened hi hl hd, decide_eq_true hle]) hw
  case tree =>
    rw [pseCommandPerform_eq hf]
    refine ⟨fun ho => if_pos ho, fun ho hdone => ?_, fun ho habort hstat => ?_⟩
    · rw [if_neg (ne_true_of_eq_false ho), hdone]
      rfl
    · rw [if_neg (ne_true_of_eq_false ho), habort]
      simp only [pseFinish, hstat, Bool.false_and, Bool.false_eq_true, if_false]
  case grammar =>
    rw [gmeCommandPerform_eq hq hu ho]
    refine ⟨fun hdone => ?_, fun habort hop => ?_⟩
    · rw [hdone]
      rfl
    · rw [habort]
      simp only [gmeFinish, hop, false_and, if_false]

end Sys2Proof.Claims
end

section
/-! SUPPORT. O57: the video streams. -/

namespace Sys2Proof.Claims

open Sys2Proof.Machine

/-! ### Access units -/

/-- Rounding up to a multiple of 16 (R384). -/
theorem alignUp_16 (x : Nat) : alignUp 16 x = (x + 15) / 16 * 16 := by
  rw [alignUp, alignDown]
  omega

/-- The pitch of a frame (R385). -/
theorem framePitch_eq (f : Frame) (d : StreamDesc) : framePitch f d = (f.width * (if d.ofmt = 1 then 2 else 1) + 63) / 64 * 64 := by
  unfold framePitch frameRow alignUp alignDown
  split_ifs <;> omega

section Unit

variable {s : State} {n : Nat} {wb hb : List Byte} {bad : Bool}

/-- A bound stream that has read its write index and the header below its read index, no upset striking, takes or skips the unit there, or waits for the
rest of it (R384, R386). -/
theorem accessUnitTaken_eq (hst : (s.streamOf n).st = .bound) (hu : s.upset = .none)
    (hw : s.readVa (vieAccess s n (s.streamOf n)) ((s.streamOf n).desc.widx % 2 ^ 57) 8 = .done (wb, false))
    (hh : s.readVa (vieAccess s n (s.streamOf n)) (((s.streamOf n).desc.ring + (s.streamOf n).ridx % (s.streamOf n).desc.rsize) % 2 ^ 57) 16 = .done (hb, bad))
    (d : Bool) :
    exec (.accessUnitTaken n d) s =
      let x := s.streamOf n
      let w := ofBytes wb
      let len := ofBytes ((hb.drop 8).take 4)
      let s1 := s.dropOwnReads (vieAccess s n x)
      let skipped := { x with ridx := (w + 15) / 16 * 16, err := x.err + 1, skips := x.skips + 1 }
      if w < x.ridx + 16 then .next s1
      else if bad = true ∨ ofBytes (hb.drop 12) ≠ 0 ∨ len = 0 ∨ x.desc.rsize - 16 < len then .next (s1.setStream n skipped)
      else if w < x.ridx + 16 + len then .next s1
      else if d = true then .next (s1.setStream n { x with ridx := (x.ridx + 16 + len + 15) / 16 * 16, taken := x.taken ++ [(ofBytes (hb.take 8), x.skips)] })
      else .next (s1.setStream n skipped) := by
  have hstruck : ∀ rs, s.struckIn (vieAccess s n (s.streamOf n)) rs = s := fun rs => if_pos hu
  rw [show exec (.accessUnitTaken n d) s = execAccessUnitTaken n d s from rfl]
  simp only [execAccessUnitTaken, Stream.skipTo, alignUp_16, hst, hstruck, hw, hh, ne_eq, not_true_eq_false, if_false]

end Unit

/-! ### Frames -/

section Frame

variable {s : State} {n u : Nat} {f : Frame} {rest : List (Nat × Nat)}

/-- A stream whose input is still there stays open (R390). -/
theorem closeEnded_open {x : Stream} (h : x.ended = false) : closeEnded (s.setStream n x) n = s.setStream n x := by
  have hx : NatMap.get .init (s.setStream n x).streams n = x := NatMap.get_set_self _ _ _ _
  simp only [closeEnded, hx, h, Bool.not_false, Bool.true_or, if_true]

/-- A frame of the unit that a stream has taken first (R385). -/
theorem vieFrameDecoded_eq (hst : (s.streamOf n).st = .bound ∨ (s.streamOf n).st = .closing) (hc : f.concealed = false) (hw : f.width ≤ 4096)
    (hh : f.height ≤ 2304) (ht : (s.streamOf n).taken = (f.capns.toNat, u) :: rest) :
    exec (.vieFrameDecoded n f) s = .next (OrWait.orElse ((decodedFrame s n { (s.streamOf n) with taken := rest, shown := max (s.streamOf n).shown u } f
      (decide ((s.streamOf n).shown < u))).map fun t => closeEnded t n) s) := by
  have hopen : ¬ (((s.streamOf n).st ≠ .bound ∧ (s.streamOf n).st ≠ .closing) ∨ (!frameFits f) = true) := by
    have hfits : frameFits f = true := by rw [frameFits, decide_eq_true hw, decide_eq_true hh, Bool.and_self]
    rw [hfits]
    rintro (h | h)
    · exact hst.elim h.1 h.2
    · cases h
  have htake : takeFirst (fun t => decide (t.1 = f.capns.toNat)) (s.streamOf n).taken = some ((f.capns.toNat, u), rest) := by
    rw [ht, takeFirst, if_pos (decide_eq_true rfl)]
  rw [show exec (.vieFrameDecoded n f) s = execVieFrameDecoded n f s from rfl]
  simp only [execVieFrameDecoded, if_neg hopen, htake, hc, Bool.false_eq_true, if_false]

section Decoded

variable {x : Stream} {disc : Bool}

/-- A frame out of order is dropped and counted (R385). -/
theorem decodedFrame_order (h : 0xFFFFFFFFFE < f.capns.toNat / 2 ^ x.desc.shift + x.desc.period ∨ f.capns.toNat / 2 ^ x.desc.shift < x.lastHi) :
    decodedFrame s n x f disc = .ok (s.setStream n { x with dropOrder := x.dropOrder + 1 }) := if_pos h

/-- One in order that is larger than its slot is dropped and counted, any other is placed (R385). -/
theorem decodedFrame_inOrder (h1 : f.capns.toNat / 2 ^ x.desc.shift + x.desc.period ≤ 0xFFFFFFFFFE) (h2 : x.lastHi ≤ f.capns.toNat / 2 ^ x.desc.shift) :
    decodedFrame s n x f disc =
      let lo := f.capns.toNat / 2 ^ x.desc.shift
      let y := { x with lastHi := lo + x.desc.period }
      if 2 * x.desc.slotsz < 3 * ((f.width * (if x.desc.ofmt = 1 then 2 else 1) + 63) / 64 * 64 * f.height) then
        .ok (s.setStream n { y with dropSize := x.dropSize + 1 })
      else placeFrame s n y f lo (lo + x.desc.period) disc := by
  rw [← framePitch_eq]
  exact if_neg fun h => h.elim (Nat.not_lt.2 h1) (Nat.not_lt.2 h2)

end Decoded

end Frame

/-! ### The judge -/

section Judge

variable {s : State} {n rid slot : Nat} {l : Launch} {g : Stage} {r : Region} {f : Fab}

/-- The INPUT that a stream is bound to (R387). -/
theorem boundInput_eq {x : Stream} (hl : s.launch? x.target.launch = some l) (hg : l.stages[x.target.stage]? = some g)
    (hi : g.insts[x.target.inst]? = some rid) (hr : s.region? rid = some r)
    (hf : (r.inputs.find? fun e => bits e.2.imm.toNat 3 0 = x.target.input) = some (slot, f)) : boundInput s x = some (rid, r, slot, f) := by
  simp only [boundInput, hl, hg, hi, hr, hf, Option.bind_eq_bind, Option.bind_some, Option.pure_def]

/-- A bound stream whose INPUT the firing selector picks has its next frame judged there (R387). -/
theorem vieFrameJudge_eq (hst : (s.streamOf n).st = .bound) (he : (s.streamOf n).ended = false) (hb : boundInput s (s.streamOf n) = some (rid, r, slot, f))
    (hlive : r.live = true) (hlaunch : r.launch = some (s.streamOf n).target.launch) (hturn : s.inTurn (r.lqAt slot) = true)
    (hreplay : ∀ e ∈ r.pendingReplay, e.1 ≠ (s.streamOf n).target.input) (hsel : (selectFiring s rid r (r.placeOf slot).1).map (·.1) = some slot) :
    exec (.vieFrameJudge n) s = .next (judgeFrame (issued s rid) rid slot { r with stuck := 0, stuckAt := none } f n (s.streamOf n)) := by
  have hno : (r.pendingReplay.any fun e => decide (e.1 = (s.streamOf n).target.input)) = false :=
    List.any_eq_false.2 fun e h => by rw [decide_eq_true_eq]; exact hreplay e h
  rw [show exec (.vieFrameJudge n) s = execVieFrameJudge n s from rfl]
  simp only [execVieFrameJudge, hst, he, hb, hlive, hlaunch, hturn, hno, hsel, ne_eq, not_true_eq_false, false_and, Bool.not_true, Bool.false_eq_true, or_self,
    if_false]

/-- An issue leaves the device time as it was. -/
theorem issued_dtime : (issued s rid).dtime = s.dtime := by
  unfold issued
  split <;> rfl

/-- A frame that is too old is dropped (R387). -/
theorem judgeFrame_stale {x : Stream} {t : Token} {ts : List Token} (hq : x.queue = t :: ts) (h : (t.hi + x.bound) * 2 ^ x.desc.shift < s.dtime) :
    judgeFrame s rid slot r f n x =
      { s with streams := NatMap.set .init s.streams n { { x with queue := ts }.freeSlot t with dropStale := x.dropStale + 1 } } := by
  simp only [judgeFrame, hq, if_pos h]

/-- Any other is delivered (R387). -/
theorem judgeFrame_fresh {x : Stream} {t : Token} {ts : List Token} (hq : x.queue = t :: ts) (h : s.dtime ≤ (t.hi + x.bound) * 2 ^ x.desc.shift) :
    judgeFrame s rid slot r f n x =
      ({ s with streams := NatMap.set .init s.streams n { x with queue := ts, delivered := x.delivered + 1 } }).setRegion rid
        { r.deliverInput f slot t with unreplayable := true } := by
  simp only [judgeFrame, hq, if_neg (Nat.not_lt.2 h)]

end Judge

/-- Settles O57: an access unit by its header, a frame by the order and its size, a frame at its INPUT by its age. -/
theorem streamsJudgeFrames : Obligations.StreamsJudgeFrames := by
  refine ⟨fun s n wb hb bad => ?unit, fun s n u f rest => ?frame, fun s n rid slot l g r f t ts => ?judge⟩
  case unit =>
    intro x w len s1 hst hu hw hh
    refine ⟨fun hlt d => ?_, fun hle hno d => ?_, fun hle hbad h12 hlen hfit => ?_⟩
    · rw [accessUnitTaken_eq hst hu hw hh]
      exact if_pos hlt
    · rw [accessUnitTaken_eq hst hu hw hh]
      exact (if_neg (Nat.not_lt.2 hle)).trans (if_pos hno)
    · have hgood : ¬ (bad = true ∨ ofBytes (hb.drop 12) ≠ 0 ∨ len = 0 ∨ x.desc.rsize - 16 < len) := by
        rintro (h | h | h | h)
        · rw [hbad] at h; cases h
        · exact h h12
        · exact hlen h
        · exact Nat.not_lt.2 hfit h
      rw [accessUnitTaken_eq hst hu hw hh]
      exact (if_neg (Nat.not_lt.2 ((Nat.le_add_right _ _).trans hle))).trans ((if_neg hgood).trans ((if_neg (Nat.not_lt.2 hle)).trans (if_pos rfl)))
  case frame =>
    intro x y lo pitch hst he hc hw hh ht
    rw [vieFrameDecoded_eq hst hc hw hh ht]
    refine ⟨fun horder => ?_, fun hhi hlo => ⟨fun hsize => ?_, fun hsize t hplace => ?_⟩⟩
    · rw [decodedFrame_order (x := y) horder]
      exact congrArg Host.Outcome.next (closeEnded_open he)
    · rw [decodedFrame_inOrder (x := y) hhi hlo]
      dsimp only
      rw [if_pos hsize]
      exact congrArg Host.Outcome.next (closeEnded_open he)
    · rw [decodedFrame_inOrder (x := y) hhi hlo]
      dsimp only
      rw [if_neg (Nat.not_lt.2 hsize), hplace]
      rfl
  case judge =>
    intro x hst he hl hg hi hr hf hlive hlaunch hturn hreplay hq hsel s1
    rw [vieFrameJudge_eq hst he (boundInput_eq hl hg hi hr hf) hlive hlaunch hturn hreplay hsel]
    refine ⟨fun hstale => ?_, fun hfresh => ?_⟩
    · rw [judgeFrame_stale hq (by rw [issued_dtime]; exact hstale)]
    · rw [judgeFrame_fresh hq (by rw [issued_dtime]; exact hfresh)]

end Sys2Proof.Claims
end

section
/-! SUPPORT. O58: the links. -/

namespace Sys2Proof.Claims

open Sys2Proof.Machine

section Port

variable {s : State} {k seq : Nat} {f : List Byte} {bs : List Byte} {rest : List (List Byte)} {o : PeerOut}

/-! ### Flits -/

/-- A flit that an up port receives, by its CRC and by whether it has been sent again (R452). -/
theorem linkFlitReceive_eq (hb : ∀ n, s.boot.phase ≠ .failed n) (hk : k < s.numPorts) (hst : (s.portOf k).st = .up) :
    exec (.linkFlitReceive k f) s = .next (
      let x := s.portOf k
      if (!flitIntact f) = true then
        if x.resent = true then s.setPort k { x with st := .retraining, since := s.dtime, resent := false, header := none }
        else s.setPort k { x with resent := true }
      else if x.resent = true then intactFlit (s.setPort k { x with resent := false, transient := x.transient + 1 }) k f
      else intactFlit s k f) := by
  have hgo : ¬ (s.numPorts ≤ k ∨ (s.portOf k).st ≠ .up) := fun h => h.elim (Nat.not_le.2 hk) fun h => h hst
  rw [show exec (.linkFlitReceive k f) s = execLinkFlitReceive k f s from rfl, execLinkFlitReceive, unlessFailed_next hb]
  dsimp only
  rw [if_neg hgo]

/-- A malformed header is dropped and counted (R452). -/
theorem intactFlit_malformed (hh : (s.portOf k).header = none) (hbad : 7 < ofBytes (f.take 1) ∨ ofBytes ((f.drop 18).take 6) ≠ 0) :
    intactFlit s k f = s.setPort k { (s.portOf k) with bad := (s.portOf k).bad + 1 } := by
  simp only [intactFlit, hh, if_pos hbad]

/-! ### Retraining, and a lost port -/

/-- A port is lost, where no delivery of a collective has to wait first (R454). -/
theorem tryLose_eq (h : loseWaits s = none) : tryLose s k = losePort s k := by
  simp only [tryLose, h]

/-- A port that retrains in time is up again (R452). -/
theorem portRetrained_eq (hb : ∀ n, s.boot.phase ≠ .failed n) (hst : (s.portOf k).st = .retraining) (ht : s.elapsed (s.portOf k).since ≤ 1000000) :
    exec (.portRetrained k) s = .next (s.setPort k { (s.portOf k) with st := .up }) := by
  rw [show exec (.portRetrained k) s = execPortRetrained k s from rfl, execPortRetrained, unlessFailed_next hb]
  exact congrArg Host.Outcome.next (if_pos ⟨hst, ht⟩)

/-- One that does not is lost (R452). -/
theorem linkRetrainTimeout_eq (hb : ∀ n, s.boot.phase ≠ .failed n) (hst : (s.portOf k).st = .retraining) (ht : 1000000 ≤ s.elapsed (s.portOf k).since)
    (hw : loseWaits s = none) : exec (.linkRetrainTimeout k) s = .next (losePort s k) := by
  rw [show exec (.linkRetrainTimeout k) s = execLinkRetrainTimeout k s from rfl, execLinkRetrainTimeout, unlessFailed_next hb]
  exact congrArg Host.Outcome.next ((if_pos ⟨hst, ht⟩).trans (tryLose_eq hw))

/-! ### The replay filter -/

/-- The oldest request of a port passes the replay filter (R453). -/
theorem peerRequestArrival_eq (hb : ∀ n, s.boot.phase ≠ .failed n) (ha : (s.portOf k).arrived = bs :: rest) :
    exec (.peerRequestArrival k) s = .next (
      let x := s.portOf k
      let h := headerOf bs
      let src := s.sourceOf k h
      match src.place h.seq, NatMap.find? src.cache h.seq with
      | .older, _ => s.setPort k { x with arrived := rest, stale := x.stale + 1 }
      | .within, some r => (s.setPort k { x with arrived := rest }).sendFlits k (toFlits r)
      | _, _ => if isPassing s k bs then s.setPort k { x with arrived := rest } else answerPeer s k h bs) := by
  rw [show exec (.peerRequestArrival k) s = execPeerRequestArrival k s from rfl, execPeerRequestArrival, unlessFailed_next hb]
  simp only [ha]
  all_goals rfl

/-! ### Resends -/

/-- The outstanding requests once one of them is sent again (R453). -/
def sendingAgain (s : State) (o : PeerOut) : State :=
  { s with peerOut := mapWhere (fun x => decide (x = o)) (fun x => { x with resends := x.resends + 1, sentAt := s.dtime }) s.peerOut }

/-- An outstanding request whose reply has not come in 20 µs (R453). -/
theorem linkResendTimeout_eq (hb : ∀ n, s.boot.phase ≠ .failed n)
    (ho : (s.peerOut.find? fun o => o.isAt k seq && !o.held && decide (20000 ≤ s.elapsed o.sentAt)) = some o) :
    exec (.linkResendTimeout k seq) s = .next (if 3 ≤ o.resends then tryLose s k else (sendingAgain s o).sendFlits k o.flits) := by
  rw [show exec (.linkResendTimeout k seq) s = execLinkResendTimeout k seq s from rfl, execLinkResendTimeout, unlessFailed_next hb]
  simp only [ho, sendingAgain]

/-- What an element that meets a test becomes stands in the mapped list. -/
theorem mem_mapWhere {α : Type} {p : α → Bool} {g : α → α} {xs : List α} {x : α} (hx : x ∈ xs) (hp : p x = true) : g x ∈ mapWhere p g xs :=
  List.mem_map.2 ⟨x, hx, if_pos hp⟩

/-- Flits leave by a port that is up. -/
theorem sendFlits_up (h : (s.portOf k).st = .up) (fs : List (List Byte)) : (s.sendFlits k fs).out = s.out ++ fs.map (Msg.flit k) := by
  have h' : (NatMap.get .init s.ports k).st = .up := h
  rw [State.sendFlits, if_pos h']

/-- Flits leave the outstanding requests as they were. -/
theorem sendFlits_peerOut (s : State) (k : Nat) (fs : List (List Byte)) : (s.sendFlits k fs).peerOut = s.peerOut := by
  unfold State.sendFlits
  split_ifs <;> rfl

/-! ### Collectives over a lost port -/

/-- An open instance that has a contributor behind the lost port ends (R342). -/
theorem cutCollectives_cut {p gid : Nat} {i : CollInst} (hf : NatMap.find? (s.partOf p).insts gid = some i) (hst : i.st ≠ .closed)
    (hn : i.present.length < i.fixed.ncon) (hl : ∃ l ∈ i.leaves, l.cmd.isFar = true ∧ l.cmd.q = k) :
    cutCollectives k p [gid] s = forgetParting (forgetFar (deliverAll s p i (i.make i.present 6 s.dtime (rootCode i.fixed))) k p gid) k p := by
  have hopen : ¬ (i.st = .closed ∨ i.fixed.ncon ≤ i.present.length) := fun h => h.elim hst (Nat.not_le.2 hn)
  have hany : (i.leaves.any fun l => l.cmd.isFar && decide (l.cmd.q = k)) = true := by
    obtain ⟨l, hl, hfar, hq⟩ := hl
    exact List.any_eq_true.2 ⟨l, hl, by rw [hfar, decide_eq_true hq]; rfl⟩
  have hcut : cutOff s k i = (true, s) := by
    rw [cutOff, if_neg hopen, if_pos hany]
  simp only [cutCollectives, hf, hcut, if_true]

end Port

/-- Settles O58: the flits, the retraining, the replay filter, the resends, a lost port and the time sync, each by its event. -/
theorem linksCarryFlits : Obligations.LinksCarryFlits := by
  intro s k seq f t1 t2 t3 bs rest o x h src hb
  refine ⟨fun hk hst => ?flits, fun hst => ⟨portRetrained_eq hb hst, fun ht hw => linkRetrainTimeout_eq hb hst ht hw⟩, fun ha => ?replay, fun ho => ?resend,
    fun p gid i hf hst hn hl => cutCollectives_cut hf hst hn hl, ?request, fun hlost => ?lost, fun pa u hup ht h1 h2 => ?reply⟩
  case flits =>
    rw [linkFlitReceive_eq hb hk hst]
    refine ⟨fun hi hr => ?_, fun hi hr => ?_, fun hi hr hh hbad => ?_, fun hi hr => ?_⟩
    · simp only [hi, show (s.portOf k).resent = false from hr, Bool.not_false, if_true, Bool.false_eq_true, if_false]
      rfl
    · simp only [hi, show (s.portOf k).resent = true from hr, Bool.not_false, if_true]
      rfl
    · simp only [hi, show (s.portOf k).resent = false from hr, Bool.not_true, Bool.false_eq_true, if_false]
      rw [intactFlit_malformed hh hbad]
    · simp only [hi, show (s.portOf k).resent = true from hr, Bool.not_true, Bool.false_eq_true, if_false, if_true]
      rfl
  case replay =>
    rw [peerRequestArrival_eq hb ha]
    refine ⟨fun hp => ?_, fun r hp hr => ?_, fun hp hpass => ?_, fun hp hpass => ?_⟩
    · simp only [show (s.sourceOf k (headerOf bs)).place (headerOf bs).seq = .older from hp]
      rfl
    · simp only [show (s.sourceOf k (headerOf bs)).place (headerOf bs).seq = .within from hp,
        show NatMap.find? (s.sourceOf k (headerOf bs)).cache (headerOf bs).seq = some r from hr]
      rfl
    · simp only [show (s.sourceOf k (headerOf bs)).place (headerOf bs).seq = .newer from hp, hpass, if_true]
      rfl
    · simp only [show (s.sourceOf k (headerOf bs)).place (headerOf bs).seq = .newer from hp, hpass, Bool.false_eq_true, if_false]
      rfl
  case resend =>
    rw [linkResendTimeout_eq hb ho]
    refine ⟨fun h3 hw => ?_, fun h3 => ⟨_, congrArg Host.Outcome.next (if_neg (Nat.not_le.2 h3)), fun hst => sendFlits_up (s := sendingAgain s o) hst _, ?_⟩⟩
    · rw [if_pos h3, tryLose_eq hw]
    · rw [sendFlits_peerOut]
      exact mem_mapWhere (List.mem_of_find?_eq_some ho) (decide_eq_true rfl)
  case request =>
    rw [show exec (.tsyncRequestArrival k t1) s = execTsyncRequestArrival k t1 s from rfl, execTsyncRequestArrival, unlessFailed_next hb]
    rfl
  case lost =>
    rw [show exec (.tsyncReply k t1 t2 t3) s = execTsyncReply k t1 t2 t3 s from rfl, execTsyncReply, unlessFailed_next hb]
    exact congrArg Host.Outcome.next (if_pos hlost)
  case reply =>
    have htake : takeTsync s k t1.toNat t2.toNat t3.toNat = (s.setPort k { x with tsync := none }).writeAt pa
        (toBytes 8 t1.toNat ++ toBytes 8 t2.toNat ++ toBytes 8 t3.toNat ++ toBytes 8 s.dtime ++ toBytes 8 1) := by
      simp only [takeTsync, show (s.portOf k).tsync = some (pa, u) from ht, h1, h2, and_self, if_true]
      rfl
    rw [show exec (.tsyncReply k t1 t2 t3) s = execTsyncReply k t1 t2 t3 s from rfl, execTsyncReply, unlessFailed_next hb]
    exact congrArg Host.Outcome.next ((if_neg hup).trans htake)

end Sys2Proof.Claims
end

section
/-! SUPPORT. What leaves memory alone: the operations of the model that write no byte, in the order of the model's files. -/

namespace Sys2Proof.Machine

/-- A choice between two states has the memory of the one chosen. -/
@[simp] theorem ite_mem (c : Prop) [Decidable c] (s t : State) :
    (if c then s else t).mem = if c then s.mem else t.mem := apply_ite State.mem c s t

/-- What is done for a value that may be missing. -/
@[simp] theorem elim_mem {α : Type} (o : Option α) (s : State) (f : α → State) (h : ∀ a, (f a).mem = s.mem) : (o.elim s f).mem = s.mem := by
  cases o with
  | none => rfl
  | some a => exact h a

@[simp] theorem freeValue_mem (s : State) : s.freeValue.2.mem = s.mem := rfl

/-! ### Flits -/

@[simp] theorem sendNext_mem (s : State) (part node : Nat) : (s.sendNext part node).mem = s.mem := by
  fun_cases State.sendNext <;> simp

/-! ### Ops -/

@[simp] theorem advance_mem (s : State) (cycles ns : Nat) : (s.advance cycles ns).mem = s.mem := by simp [State.advance]
@[simp] theorem freeBytes_mem (s : State) (n : Nat) : (s.freeBytes n).2.mem = s.mem := rfl
@[simp] theorem dropReads_mem (s : State) (p : PeerRead → Bool) : (s.dropReads p).mem = s.mem := rfl
@[simp] theorem putMarkFor_mem (s : State) (ctx pa : Nat) (b : Bool) : (s.putMarkFor ctx pa b).mem = s.mem := by
  fun_cases State.putMarkFor <;> simp
@[simp] theorem markFor_mem (s : State) (ctx pa : Nat) : (s.markFor ctx pa).mem = s.mem := by simp [State.markFor]
@[simp] theorem ownedBy_mem (s : State) (s0 : State) (o : PeerOwner) : (s.ownedBy s0 o).mem = s.mem := rfl
@[simp] theorem struckIn_mem (s : State) (a : Access) (rs : List (Nat × Nat)) : (s.struckIn a rs).mem = s.mem := by
  fun_cases State.struckIn <;> simp +zetaDelta
@[simp] theorem raiseVector_mem (s : State) (p v : Nat) : (s.raiseVector p v).mem = s.mem := by simp [State.raiseVector]
@[simp] theorem raiseAfter_mem (s : State) (s0 : State) (p v : Nat) : (s.raiseAfter s0 p v).mem = s.mem := by simp [State.raiseAfter]
@[simp] theorem addEvent_mem (s : State) (p code payload lq : Nat) : (s.addEvent p code payload lq).mem = s.mem := rfl
@[simp] theorem trap_mem (s : State) (lq q code word arg0 arg1 : Nat) : (s.trap lq q code word arg0 arg1).mem = s.mem := rfl
@[simp] theorem setSavedQueue_mem (s : State) (k lq q : Nat) (im : Image) (x : Queue) : (s.setSavedQueue k lq q im x).mem = s.mem := rfl
@[simp] theorem trapIssuer_mem (s : State) (lq q ctx code word arg0 arg1 : Nat) :
    (s.trapIssuer lq q ctx code word arg0 arg1).mem = s.mem := by
  fun_cases State.trapIssuer <;> simp
@[simp] theorem signal_mem (s : State) (lq q ctx word : Nat) (x0 : Option (Nat × Nat)) : (s.signal lq q ctx word x0).mem = s.mem := by
  fun_cases State.signal <;> simp
@[simp] theorem disownCmd_mem (s : State) (c : Cmd) : (disownCmd s c).mem = s.mem := rfl
@[simp] theorem complete_mem (s : State) (c : Cmd) : (s.complete c).mem = s.mem := by simp [State.complete]
@[simp] theorem abort_mem (s : State) (c : Cmd) (code va : Nat) : (s.abort c code va).mem = s.mem := by simp [State.abort]

/-! ### Fabric -/

@[simp] theorem regionFault_mem (s : State) (rid code : Nat) (a : FaultAt) : (s.regionFault rid code a).mem = s.mem := by
  fun_cases State.regionFault <;> simp
@[simp] theorem containedFault_mem (s : State) (rid code : Nat) (retire : Option Nat) (a : FaultAt) :
    (s.containedFault rid code retire a).mem = s.mem := by
  fun_cases State.containedFault <;> simp

/-! ### Fire -/

@[simp] theorem spill_mem (s : State) (rid : Nat) (r : Region) (slot ctx : Nat) (t : Token) : (spill s rid r slot ctx t).mem = s.mem := by
  fun_cases spill <;> simp
@[simp] theorem arrive_mem (s : State) (rid slot : Nat) (k : Port) (t : Token) : (arrive s rid slot k t).mem = s.mem := by
  fun_cases arrive <;> simp
@[simp] theorem countTransient_mem (s : State) (r : Region) (slot : Nat) : (countTransient s r slot).mem = s.mem := rfl
theorem emitEnd_mem (i : Instr) (s : State) (rid slot ctx : Nat) (r : Region) {deliver : State → Nat → Nat → Token → State}
    (h : ∀ s a b t, (deliver s a b t).mem = s.mem) : (emitEnd i s rid slot ctx r deliver).mem = s.mem := by
  fun_cases emitEnd <;> simp [h]
@[simp] theorem toBoth_mem (f : Fab) (s : State) (rid : Nat) (t : Token) : (toBoth f s rid t).mem = s.mem := by
  fun_cases toBoth <;> simp
@[simp] theorem toOne_mem (x : Option Target) (s : State) (rid : Nat) (t : Token) : (toOne x s rid t).mem = s.mem := by
  fun_cases toOne <;> simp

/-! ### MemOps -/

@[simp] theorem deliver_mem (s : State) (ds : List Dest) (t : Token) : (s.deliver ds t).mem = s.mem :=
  foldl_keeps State.mem _ (fun s d => by split <;> rfl) _ _
@[simp] theorem raiseToken_mem (s : State) (rid slot port : Nat) (t : Token) :
    (raiseToken s rid slot port t).mem = s.mem := by simp [raiseToken]
@[simp] theorem pushReady_mem (s : State) (rid slot : Nat) (t : Token) (ds : List Dest) : (pushReady s rid slot t ds).mem = s.mem := by
  fun_cases pushReady <;> simp
@[simp] theorem accessOther_mem (f : Fab) (s : State) (rid slot : Nat) (fr : Firing) (t : Token) :
    (accessOther f s rid slot fr t).mem = s.mem := by
  fun_cases accessOther <;> simp
@[simp] theorem accessEnd_mem (f : Fab) (s : State) (rid slot : Nat) (t : Token) :
    (accessEnd f s rid slot t).mem = s.mem := by simp [accessEnd]
@[simp] theorem accessAct_mem (f : Fab) (op : MemOp) (s : State) (rid slot ctx : Nat) (fr : Firing) :
    (accessAct f op s rid slot ctx fr).mem = s.mem := by
  fun_cases accessAct <;> simp +zetaDelta
@[simp] theorem publish_mem (s : State) (p n : Nat) : (s.publish p n).mem = s.mem := rfl
@[simp] theorem publishFor_mem (s : State) (ctx p n : Nat) : (s.publishFor ctx p n).mem = s.mem := by
  fun_cases State.publishFor <;> simp
@[simp] theorem faultBy_mem (f : Fab) (s : State) (rid slot ctx code va access level : Nat) (fr : Firing) :
    (faultBy f s rid slot ctx code va access level fr).mem = s.mem := by
  fun_cases faultBy <;> simp

/-! ### MemTile -/

@[simp] theorem ready_mem (s : State) (q : Request) (t : Option Token) (flags : ExFlags) (ack : Option Span) :
    (s.ready q t flags ack).mem = s.mem := by
  fun_cases State.ready <;> simp
@[simp] theorem requestFault_mem (s : State) (q : Request) (r : Region) (code : Nat) (a : FaultAt) :
    (requestFault s q r code a).mem = s.mem := by
  fun_cases requestFault <;> simp
@[simp] theorem dropRequest_mem (s : State) (id : Nat) : (s.dropRequest id).mem = s.mem := rfl
@[simp] theorem setPending_mem (s : State) (id : Nat) (st : ReqState) : (s.setPending id st).mem = s.mem := rfl
@[simp] theorem faultRequest_mem (s : State) (q : Request) (code va level : Nat) (forced : Bool) :
    (faultRequest s q code va level forced).mem = s.mem := by
  fun_cases faultRequest <;> simp +zetaDelta
@[simp] theorem faultAll_mem (s : State) (id code va level : Nat) (forced : Bool) : (faultAll s id code va level forced).mem = s.mem :=
  foldl_keeps State.mem _ (fun s q => faultRequest_mem s q code va level forced) _ _
@[simp] theorem edgeFlags_mem (s : State) (lq mt ctx part : Nat) (f : ExFlags) :
    (edgeFlags s lq mt ctx part f).mem = s.mem := by simp [edgeFlags]
@[simp] theorem sendPart_mem (s : State) (q : Request) (p : Nat × Nat × Nat) : (sendPart s q p).mem = s.mem := by
  fun_cases sendPart <;> simp +zetaDelta
@[simp] theorem queueRed_mem (s : State) (q : Request) (ps : List (Nat × Nat × Nat)) : (queueRed s q ps).mem = s.mem := by
  fun_cases queueRed <;> simp
@[simp] theorem forwardRequest_mem (s : State) (q : Request) (ps : List (Nat × Nat × Nat)) : (forwardRequest s q ps).mem = s.mem := by
  fun_cases forwardRequest
  case case4 => exact foldl_keeps State.mem _ (fun s p => sendPart_mem ..) _ _
  all_goals simp
@[simp] theorem missRequest_mem (s : State) (q : Request) (vpn : Nat) : (missRequest s q vpn).mem = s.mem := by
  fun_cases missRequest <;> simp +zetaDelta
@[simp] theorem proceed_mem (s : State) (q : Request) (walked : List Nat) : (proceed s q walked).mem = s.mem := by
  fun_cases proceed <;> simp
@[simp] theorem countRequest_mem (s : State) (q : Request) : (countRequest s q).mem = s.mem := by
  fun_cases countRequest <;> simp
@[simp] theorem assemble_mem (s : State) (q : Request) : (assemble s q).mem = s.mem := by simp [assemble]
@[simp] theorem landWalk_mem (w : Walked) (s : State) (a : Nat × MissEntry) : (landWalk w s a).mem = s.mem := by
  fun_cases landWalk <;> simp +zetaDelta
@[simp] theorem landSecond_mem (t : TlbEntry) (s : State) (a : Nat × MissEntry) : (landSecond t s a).mem = s.mem := rfl
@[simp] theorem goOn_mem (s : State) (es : List (Nat × MissEntry)) (vpn : Nat) : (goOn s es vpn).mem = s.mem := by
  unfold goOn
  exact foldl_keeps State.mem _ (fun s x => proceed_mem ..) _ _
@[simp] theorem finishRequest_mem (s : State) (q : Request) (got : List (Nat × Byte)) (bad : Bool) :
    (finishRequest s q got bad).mem = s.mem := by
  fun_cases finishRequest
  case case1 =>
    rw [edgeFlags_mem]
    exact (foldl_keeps State.mem _ (fun s x => dropRequest_mem ..) _ _).trans (foldl_keeps State.mem _ (fun s x => ready_mem ..) _ _)
  all_goals simp
@[simp] theorem partDone_mem (s : State) (p : Part) (bs : List Byte) (bad : Bool) : (partDone s p bs bad).mem = s.mem := by
  fun_cases partDone <;> simp +zetaDelta
@[simp] theorem serve_mem (s : State) (pa part : Nat) : (s.serve pa part).mem = s.mem := by
  fun_cases State.serve <;> simp

/-! ### Issue -/

/-- A word whose effect leaves memory alone retires with it as it was. -/
theorem retireWord_mem {s0 s : State} (h : s.mem = s0.mem) (lq q raw : Nat) (sig : Option (Nat × Nat)) (f : Flow) :
    (retireWord s0 s lq q raw sig f).mem = s0.mem := by
  fun_cases retireWord <;> simp [h]
@[simp] theorem waitWord_mem (s : State) (lq q : Nat) (kind : WaitKind) (sem thr nbn : Nat) :
    (waitWord s lq q kind sem thr nbn).mem = s.mem := rfl
@[simp] theorem clearWait_mem (s : State) (lq q : Nat) : (clearWait s lq q).mem = s.mem := by simp [clearWait]
@[simp] theorem flushLate_mem (s : State) (place : Nat) : (s.flushLate place).mem = s.mem := by
  unfold State.flushLate
  refine foldl_keeps State.mem _ (fun s x => ?_) _ _
  exact complete_mem ..
@[simp] theorem served_mem (s : State) (lq q : Nat) (x0 : PortKind) : (served s lq q x0).mem = s.mem := by
  fun_cases served <;> simp
@[simp] theorem answerSaved_mem (s : State) (c : Cmd) (v : Word64) : (answerSaved s c v).mem = s.mem := by
  fun_cases answerSaved <;> simp
@[simp] theorem answerWord_mem (s : State) (c : Cmd) (v : Word64) : (answerWord s c v).mem = s.mem := by
  fun_cases answerWord <;> simp +zetaDelta [retireWord_mem rfl]
@[simp] theorem fetchStruck_mem (s : State) (lq q : Nat) : (fetchStruck s lq q).mem = s.mem := by
  fun_cases fetchStruck <;> simp
@[simp] theorem goesOn_mem (s : State) (lq q : Nat) : (goesOn s lq q).mem = s.mem := by
  fun_cases goesOn <;> simp

/-! ### Pse -/

@[simp] theorem stageTree_mem (s t : State) (c : Cmd) : (stageTree s t c).mem = t.mem := by
  fun_cases stageTree <;> simp
@[simp] theorem settleTree_mem (s : State) (c : Cmd) (performed : Bool) : (settleTree s c performed).mem = s.mem := by
  fun_cases settleTree <;> simp
@[simp] theorem pseTake_mem (s : State) (hall : Nat) (p : PseCmd) : (pseTake s hall p).mem = s.mem := rfl
@[simp] theorem pseEnqueue_mem (s : State) (hall : Nat) (c : Cmd) : (pseEnqueue s hall c).mem = s.mem := rfl

/-! ### Bce -/

@[simp] theorem disown_mem (s : State) (lq k : Nat) : (disown s lq k).mem = s.mem := elim_mem _ s _ fun c => State.dropCmdReads_mem s c
@[simp] theorem bceAbort_mem (s : State) (lq k : Nat) (c : Cmd) (code va : Nat) :
    (bceAbort s lq k c code va).mem = s.mem := by simp [bceAbort]
@[simp] theorem bceFence_mem (s : State) (lq k code va : Nat) : (bceFence s lq k code va).mem = s.mem := by simp [bceFence]
@[simp] theorem coverRun_mem (s : State) (lq ch : Nat) (c : Cmd) (r : Nat × Nat) : (coverRun s lq ch c r).mem = s.mem := by simp [coverRun]
@[simp] theorem countElem_mem (s : State) (lq ch esz : Nat) : (countElem s lq ch esz).mem = s.mem := rfl
@[simp] theorem elemMoved_mem (s : State) (lq ch esz : Nat) : (elemMoved s lq ch esz).mem = s.mem := by simp [elemMoved]
@[simp] theorem bceUpset_mem (s : State) (c : Cmd) (b : BceJob) (j : Nat) : (bceUpset s c b j).mem = s.mem := by
  fun_cases bceUpset <;> simp
@[simp] theorem copyAnswered_mem (s : State) (lq ch : Nat) : (copyAnswered s lq ch).mem = s.mem := by
  fun_cases copyAnswered <;> simp
@[simp] theorem copyFailed_mem (s : State) (lq ch code va : Nat) : (copyFailed s lq ch code va).mem = s.mem := by
  fun_cases copyFailed <;> simp

/-! ### Arbiter -/

@[simp] theorem refusedRecord_mem (s : State) (lid reason stage : Nat) (short : Option (Nat × Nat)) :
    (refusedRecord s lid reason stage short).2.mem = s.mem := by
  unfold refusedRecord
  cases short <;> rfl
@[simp] theorem flushWindow_mem (rid slot n : Nat) (s : State) : (flushWindow rid slot n s).mem = s.mem := by
  induction n generalizing s with
  | zero => rfl
  | succ n ih =>
    unfold flushWindow
    split
    · rfl
    · split
      · split
        · rfl
        · dsimp only
          rw [ih]
          split
          · exact deliver_mem ..
          · rfl
      · rfl
@[simp] theorem fillSpawn_mem (s : State) (p : Parent) (t : Token) : (fillSpawn s p t).mem = s.mem := by
  fun_cases fillSpawn <;> simp
@[simp] theorem childResult_mem (s : State) (p : Parent) (status : Nat) : (childResult s p status).mem = s.mem := by simp [childResult]
@[simp] theorem closeLaunch_mem (s : State) (n : Nat) (l : Launch) (status : Nat) : (closeLaunch s n l status).mem = s.mem := by
  fun_cases closeLaunch <;> simp +zetaDelta
@[simp] theorem recordPaid_mem (s : State) (n : Nat) : (recordPaid s n).mem = s.mem := by
  fun_cases recordPaid <;> simp
@[simp] theorem recordLost_mem (s : State) (n code : Nat) : (recordLost s n code).mem = s.mem := by
  fun_cases recordLost <;> simp
@[simp] theorem addLaunch_mem (s : State) (l : Launch) : (addLaunch s l).mem = s.mem := rfl
@[simp] theorem dropArbReads_mem (s : State) (p : Nat) : (s.dropArbReads p).mem = s.mem := rfl
@[simp] theorem childFault_mem (s : State) (p : Parent) (code va level : Nat) : (childFault s p code va level).mem = s.mem := by
  fun_cases childFault <;> simp

/-! ### Det -/

@[simp] theorem unhold_mem (s : State) (ctx : Nat) : (unhold s ctx).mem = s.mem := by
  unfold unhold
  refine foldl_keeps State.mem _ (fun s x => ?_) _ _
  rfl
@[simp] theorem freshView_mem (s : State) (n : Nat) (tasks : List Nat) : (freshView s n tasks).mem = s.mem := by
  fun_cases freshView <;> simp +zetaDelta
@[simp] theorem mergeFault_mem (s : State) (rid n code granule : Nat) (ids : List (List Nat)) :
    (mergeFault s rid n code granule ids).mem = s.mem := by
  fun_cases mergeFault <;> simp

/-! ### Feed -/

@[simp] theorem clearFlags_mem (s : State) (ctxs : List Nat) : (clearFlags s ctxs).mem = s.mem := rfl
@[simp] theorem keepFlags_mem (s : State) (r : Region) : (keepFlags s r).mem = s.mem := by
  fun_cases keepFlags <;> simp

/-! ### Stream -/

theorem checked_mem (s : State) (rid slot ctx : Nat) (r : Region) (t : Token) {f : State → State} (h : ∀ s, (f s).mem = s.mem) :
    (checked s rid slot ctx r t f).mem = s.mem := by
  fun_cases checked <;> simp [h]
@[simp] theorem unfedSend_mem (s : State) (rid slot ctx : Nat) (f : Fab) (t : Token) : (unfedSend s rid slot ctx f t).mem = s.mem := by
  fun_cases unfedSend <;> simp
@[simp] theorem unfedInput_mem (s : State) (rid slot : Nat) (r : Region) (f : Fab) : (unfedInput s rid slot r f).mem = s.mem := by
  fun_cases unfedInput <;> simp +zetaDelta
@[simp] theorem judgeFrame_mem (s : State) (rid slot : Nat) (r : Region) (f : Fab) (k : Nat) (x : Stream) :
    (judgeFrame s rid slot r f k x).mem = s.mem := by
  fun_cases judgeFrame <;> simp +zetaDelta
@[simp] theorem selectToken_mem (s : State) (rid slot : Nat) (r : Region) (t : Token) : (selectToken s rid slot r t).mem = s.mem := by
  fun_cases selectToken <;> simp
@[simp] theorem mergeStep_mem (f : Fab) (s : State) (rid slot ctx : Nat) (r : Region) : (mergeStep f s rid slot ctx r).mem = s.mem := by
  fun_cases mergeStep
  case case2 | case6 => exact checked_mem _ _ _ _ _ _ fun s => by dsimp only; (repeat' split) <;> simp
  all_goals simp
@[simp] theorem omergeStep_mem (f : Fab) (s : State) (rid slot ctx : Nat) (r : Region) : (omergeStep f s rid slot ctx r).mem = s.mem := by
  fun_cases omergeStep
  case case2 | case5 => exact checked_mem _ _ _ _ _ _ fun s => by simp
  all_goals simp
@[simp] theorem backToken_mem (f : Fab) (s : State) (rid slot ctx : Nat) (r : Region) (n : Node) (u : Token) :
    (backToken f s rid slot ctx r n u).mem = s.mem := by simp [backToken]
@[simp] theorem entryToken_mem (f : Fab) (s : State) (rid slot ctx : Nat) (r : Region) (n : Node) (t : Token) :
    (entryToken f s rid slot ctx r n t).mem = s.mem := by simp [entryToken]
@[simp] theorem lcarryStep_mem (f : Fab) (s : State) (rid slot ctx : Nat) (r : Region) : (lcarryStep f s rid slot ctx r).mem = s.mem := by
  fun_cases lcarryStep
  case case1 | case2 => exact checked_mem _ _ _ _ _ _ fun s => by simp
  · rfl
@[simp] theorem barrierArrive_mem (s : State) (rid slot : Nat) (t : Token) : (barrierArrive s rid slot t).mem = s.mem := by
  fun_cases barrierArrive <;> simp
@[simp] theorem respan_mem (f : Fab) (kind : Option Kind) (s : State) (rid slot ctx : Nat) (fr : Firing) (lo hi : Int) (opened : Bool) :
    (respan f kind s rid slot ctx fr lo hi opened).mem = s.mem := by simp [respan]
@[simp] theorem rangeStep_mem (f : Fab) (s : State) (rid slot ctx : Nat) (r : Region) : (rangeStep f s rid slot ctx r).mem = s.mem := by
  fun_cases rangeStep
  case case1 | case5 | case6 => exact checked_mem _ _ _ _ _ _ fun s => by simp
  all_goals simp
@[simp] theorem drawCtx_mem (s : State) (rid : Nat) (r : Region) (c : Nat) : (drawCtx s rid r c).mem = s.mem := by
  fun_cases drawCtx <;> simp +zetaDelta
theorem returnCtx_mem {s t : State} {rid : Nat} {r : Region} {c own : Nat} (h : returnCtx s rid r c own = some t) : t.mem = s.mem := by
  revert h
  fun_cases returnCtx <;> intro h <;> cases h <;> simp

/-! ### Trap -/

@[simp] theorem holdFiring_mem (f : Fab) (s : State) (rid slot ctx : Nat) (fr : Firing) : (holdFiring f s rid slot ctx fr).mem = s.mem := by
  fun_cases holdFiring <;> simp
@[simp] theorem releaseBrk_mem (s : State) (pq pe : Nat) : (releaseBrk s pq pe).mem = s.mem := rfl

/-! ### Lifecycle -/

@[simp] theorem dropAccesses_mem (s : State) (gone : Nat → Bool) : (s.dropAccesses gone).mem = s.mem := rfl
@[simp] theorem forgetRegions_mem (s : State) (ks : List Nat) : (forgetRegions s ks).mem = s.mem := rfl
@[simp] theorem discardRegions_mem (s : State) (gone : Nat → Region → Bool) : (s.discardRegions gone).mem = s.mem := rfl
@[simp] theorem stopRegion_mem (s : State) (rid code : Nat) : (s.stopRegion rid code).mem = s.mem := by
  fun_cases State.stopRegion <;> simp
@[simp] theorem returnQueues_mem (s : State) (im : Image) : (returnQueues s im).mem = s.mem :=
  foldl_keeps State.mem _ (fun s e => by split <;> rfl) _ _
@[simp] theorem flushCtxs_mem (s : State) (lqs ctxs : List Nat) : (flushCtxs s lqs ctxs).mem = s.mem :=
  foldl_keeps State.mem _ (fun s lq => foldl_keeps State.mem _ (fun s q => by dsimp only; split <;> rfl) _ _) _ _
@[simp] theorem dropFrames_mem (s : State) (n : Nat) : (s.dropFrames n).mem = s.mem := rfl
@[simp] theorem closeEnded_mem (s : State) (k : Nat) : (closeEnded s k).mem = s.mem := by
  fun_cases closeEnded <;> simp +zetaDelta
@[simp] theorem closeStreams_mem (s : State) (n : Nat) : (closeStreams s n).mem = s.mem := by
  unfold closeStreams
  refine foldl_keeps State.mem _ (fun s x => ?_) _ _
  exact closeEnded_mem ..
@[simp] theorem keptRegions_mem (n code : Nat) (rs : NatMap Region) (t : State) : (keptRegions n code rs t).mem = t.mem :=
  foldl_keeps State.mem _ (fun t e => by split <;> rfl) _ _
@[simp] theorem stopLaunch_mem (s : State) (n code : Nat) : (stopLaunch s n code).mem = s.mem := by simp [stopLaunch]
@[simp] theorem dropHeld_mem (s : State) (ctxs : List Nat) : (dropHeld s ctxs).mem = s.mem := rfl
@[simp] theorem dropUnbegun_mem (s : State) (rid : Nat) : (dropUnbegun s rid).mem = s.mem := rfl
@[simp] theorem rollback_mem (s : State) (rid : Nat) : (rollback s rid).mem = s.mem := by
  fun_cases rollback <;> simp
@[simp] theorem moveQuad_mem (s : State) (host share : Nat) (lq : Nat) : (moveQuad s host share lq).mem = s.mem := rfl
@[simp] theorem replayPoint_mem (s : State) (rid : Nat) : (replayPoint s rid).mem = s.mem := by
  fun_cases replayPoint <;> simp
@[simp] theorem completeBlocks_mem (s : State) (rid : Nat) : (completeBlocks s rid).mem = s.mem := by
  unfold completeBlocks
  refine foldl_keeps State.mem _ (fun s q => ?_) _ _
  exact proceed_mem ..
@[simp] theorem nextPeriod_mem (s : State) (rid : Nat) (r : Region) : (nextPeriod s rid r).mem = s.mem := by
  fun_cases nextPeriod <;> simp
@[simp] theorem watchTree_mem (s : State) (rid : Nat) : (watchTree s rid).mem = s.mem := by
  fun_cases watchTree <;> simp
@[simp] theorem cycleBoundary_mem (s : State) : (cycleBoundary s).mem = s.mem :=
  foldl_keeps State.mem _ (fun s rid => by rw [watchTree_mem, replayPoint_mem]) _ _
@[simp] theorem issued_mem (s : State) (rid : Nat) : (issued s rid).mem = s.mem := by
  fun_cases issued <;> simp

/-! ### Launch -/

@[simp] theorem ringDoorbell_mem (s : State) (p k v : Nat) : (ringDoorbell s p k v).mem = s.mem := by simp [ringDoorbell]
@[simp] theorem writeLqbase_mem (s : State) (p k : Nat) (v : Word64) : (writeLqbase s p k v).mem = s.mem := by simp [writeLqbase]
@[simp] theorem placeRegion_mem (s : State) (h : Nat) (r : Region) : (s.placeRegion h r).mem = s.mem := by
  simp only [State.placeRegion, State.setRegion_mem, discardRegions_mem]
  exact foldl_keeps State.mem _ (fun s e => keepFlags_mem s _) _ _
@[simp] theorem placeInstances_mem (n : Nat) (l : Launch) (ctx0 : Nat) (ps : List (Nat × List Nat)) (s : State) (l1 : Launch) :
    (placeInstances n l ctx0 ps s l1).1.mem = s.mem := by
  fun_induction placeInstances <;> simp_all
@[simp] theorem spawnOther_mem (s : State) (rid slot : Nat) (t : Token) (ds : List Dest) :
    (spawnOther s rid slot t ds).mem = s.mem := by simp [spawnOther]
@[simp] theorem markRecord_mem (s : State) (a : Access) (va : Nat) : (markRecord s a va).mem = s.mem := by
  unfold markRecord
  split
  · exact foldl_keeps State.mem _ (fun s r => markFor_mem s _ _) _ _
  · rfl
@[simp] theorem cfgPlace_mem (s : State) (p ctx handle mask gal cctx args : Nat) (launch : Option Nat) (b : Block) (start : Bool) :
    (cfgPlace s p ctx handle mask gal cctx args launch b start).mem = s.mem := by simp [cfgPlace]

/-! ### Mxt -/

@[simp] theorem sendAdds_mem (s : State) (part pa : Nat) (vs : List Int) (n : Nat) : (sendAdds s part pa vs n).mem = s.mem := by
  induction n generalizing s pa vs with
  | zero => rfl
  | succ n ih => rw [sendAdds, ih, sendPeer_mem]
@[simp] theorem drainPublish_mem (s : State) (c : Cmd) (y : AccNode) : (drainPublish s c y).1.mem = s.mem := by
  fun_cases drainPublish <;> simp
@[simp] theorem dropHead_mem (s : State) (lq m : Nat) : (dropHead s lq m).mem = s.mem := rfl
@[simp] theorem mxDone_mem (s : State) (lq m : Nat) (c : Cmd) : (mxDone s lq m c).mem = s.mem := by simp [mxDone]
@[simp] theorem mxAbort_mem (s : State) (lq m : Nat) (c : Cmd) (code va : Nat) : (mxAbort s lq m c code va).mem = s.mem := by simp [mxAbort]
@[simp] theorem freeNode_mem (s : State) (lq m : Nat) (c : Cmd) (n : Nat) (f : Option (Nat × Nat)) :
    (freeNode s lq m c n f).mem = s.mem := by
  fun_cases freeNode <;> simp +zetaDelta
@[simp] theorem setOut_mem (s : State) (lq m out : Nat) : (setOut s lq m out).mem = s.mem := by
  fun_cases setOut <;> simp
theorem endRelease_mem {s t : State} {lq m : Nat} {c : Cmd} {n : Nat} (h : endRelease s lq m c n = .ok t) : t.mem = s.mem := by
  revert h
  fun_cases endRelease <;> intro h <;> cases h <;> simp +zetaDelta
@[simp] theorem writeFailed_mem (s : State) (c : Cmd) (code va : Nat) : (writeFailed s c code va).mem = s.mem := by simp [writeFailed]
@[simp] theorem leaveColumn_mem (lq rid : Nat) (s : State) (x : Spot) : (leaveColumn lq rid s x).mem = s.mem := by
  fun_cases leaveColumn <;> simp
@[simp] theorem emptyColumns_mem (s : State) (lq m n : Nat) : (emptyColumns s lq m n).mem = s.mem := by
  unfold emptyColumns
  exact foldl_keeps State.mem _ (fun s e => foldl_keeps State.mem _ (fun s x => leaveColumn_mem ..) _ _) _ _
@[simp] theorem startInit_mem (s : State) (lq m : Nat) (c : Cmd) : (startInit s lq m c).mem = s.mem := by
  fun_cases startInit <;> simp +zetaDelta
@[simp] theorem markStarted_mem (s : State) (lq m : Nat) : (markStarted s lq m).mem = s.mem := by
  fun_cases markStarted <;> simp
@[simp] theorem startPolicy_mem (s : State) (lq m : Nat) (c : Cmd) : (startPolicy s lq m c).mem = s.mem := by simp [startPolicy]
@[simp] theorem setStep_mem (s : State) (lq m step : Nat) : (setStep s lq m step).mem = s.mem := by
  fun_cases setStep <;> simp
@[simp] theorem countContrib_mem (s : State) (lq m n : Nat) : (countContrib s lq m n).mem = s.mem := rfl
@[simp] theorem mxPoison_mem (s : State) (lq m : Nat) (c : Cmd) (code va : Nat) :
    (mxPoison s lq m c code va).mem = s.mem := by simp [mxPoison]
@[simp] theorem stall_mem (s : State) (lq m : Nat) (c : Cmd) : (stall s lq m c).mem = s.mem := by simp [stall]
@[simp] theorem operandStruck_mem (s : State) (c : Cmd) (step : Nat) : (operandStruck s c step).mem = s.mem := by
  fun_cases operandStruck <;> simp
@[simp] theorem accoutEnd_mem (s : State) (lq m : Nat) (c : Cmd) : (accoutEnd s lq m c).mem = s.mem := by simp [accoutEnd]

/-! ### Preempt -/

@[simp] theorem takeQueued_mem (ctxs : List Nat) (im : Image) (lq : Nat) (s : State) : (takeQueued ctxs im lq s).2.mem = s.mem := by
  unfold takeQueued
  refine foldl_keeps (fun a : Image × State => a.2.mem) _ (fun a k => ?_) _ _
  dsimp only
  split
  · rfl
  · simp only [State.setChan_mem]
@[simp] theorem takeMx_mem (ctxs : List Nat) (im : Image) (lq : Nat) (s : State) : (takeMx ctxs im lq s).2.mem = s.mem := by
  refine foldl_keeps (fun a : Image × State => a.2.mem) _ (fun a m => ?_) _ _
  exact State.setMx_mem ..
@[simp] theorem takeNodes_mem (ctxs : List Nat) (lq : Nat) (im : Image) (s : State) : (takeNodes ctxs lq im s).2.mem = s.mem := by
  unfold takeNodes
  refine foldl_keeps (fun a : Image × State => a.2.mem) _ (fun a m => ?_) _ _
  refine foldl_keeps (fun a : Image × State => a.2.mem) _ (fun a e => ?_) _ _
  simp only [State.setMx_mem]
@[simp] theorem takeCopies_mem (ctxs : List Nat) (lq : Nat) (im : Image) (s : State) : (takeCopies ctxs lq im s).2.mem = s.mem := by
  unfold takeCopies
  refine foldl_keeps (fun a : Image × State => a.2.mem) _ (fun a k => ?_) _ _
  dsimp only
  split
  · rfl
  · split
    · rfl
    · simp only [State.setChan_mem, disown_mem]
@[simp] theorem takeQueues_mem (ctxs : List Nat) (lq : Nat) (im : Image) (s : State) : (takeQueues ctxs lq im s).2.mem = s.mem := by
  refine foldl_keeps (fun a : Image × State => a.2.mem) _ (fun a q => ?_) _ _
  rfl
@[simp] theorem takeTags_mem (l : Launch) (im : Image) (s : State) : (takeTags l im s).2.mem = s.mem := by
  simp [takeTags]
@[simp] theorem ownLate_mem (s : State) (k : Nat) (rids : List Nat) : (ownLate s k rids).mem = s.mem := rfl
@[simp] theorem stopCounts_mem (ctxs : List Nat) (s : State) (lq : Nat) : (stopCounts ctxs s lq).mem = s.mem := by
  unfold stopCounts
  refine foldl_keeps State.mem _ (fun s x => ?_) _ _
  rfl
@[simp] theorem returnSpot_mem (rid : Nat) (s : State) (x : Spot) : (returnSpot rid s x).mem = s.mem := by
  fun_cases returnSpot <;> simp
@[simp] theorem restoreRegion_mem (s : State) (rid : Nat) (r : Region) : (restoreRegion s rid r).mem = s.mem :=
  (foldl_keeps State.mem _ (fun s x => returnSpot_mem rid s x) _ _).trans (placeRegion_mem ..)
@[simp] theorem restoreChannel_mem (s : State) (cause key : Nat) (c : Channel8) :
    (restoreChannel s cause key c).mem = s.mem := by simp [restoreChannel]
@[simp] theorem restoreQueued_mem (s : State) (key : Nat) (cs : List Cmd) (cur : Bool) : (restoreQueued s key cs cur).mem = s.mem := by
  fun_cases restoreQueued <;> simp
@[simp] theorem restoreMx_mem (s : State) (key : Nat) (cs : List MxCmd) : (restoreMx s key cs).mem = s.mem := by simp [restoreMx]
@[simp] theorem restoreCfg_mem (s : State) (key : Nat) (v : Nat × Bool × Bool) : (restoreCfg s key v).mem = s.mem := rfl
@[simp] theorem restoreNode_mem (s : State) (im : Image) (key : Nat) (y : AccNode) : (restoreNode s im key y).mem = s.mem := rfl
@[simp] theorem leaveTurn_mem (s : State) (lq : Nat) : (leaveTurn s lq).mem = s.mem := by
  unfold leaveTurn
  dsimp only
  rw [foldl_keeps State.mem _ fun s q => State.setQueue_mem ..]
  refine foldl_keeps State.mem _ (fun s k => ?_) _ _
  split
  · rw [State.setChan_mem, disown_mem]
  · rfl
@[simp] theorem enterTurn_mem (s : State) (lq : Nat) : (enterTurn s lq).mem = s.mem := by
  unfold enterTurn
  dsimp only
  rw [foldl_keeps State.mem _ fun s g => signal_mem .., State.setQuad_mem, foldl_keeps State.mem _ fun s q => State.setQueue_mem ..]
  refine foldl_keeps State.mem _ (fun s k => ?_) _ _
  split
  · exact State.setChan_mem ..
  · rfl
@[simp] theorem changeTurn_mem (s : State) (pq : Nat) : (changeTurn s pq).mem = s.mem := by
  fun_cases changeTurn <;> simp +zetaDelta

/-! ### Reset -/

@[simp] theorem stopLaunches_mem (s : State) (p : Nat) : (stopLaunches s p).mem = s.mem := rfl
@[simp] theorem scrub_mem (s : State) (p : Nat) : (scrub s p).mem = s.mem := rfl
@[simp] theorem putQos_mem (s : State) (a : Nat) (v : Word64) : (putQos s a v).mem = s.mem := by simp [putQos]
@[simp] theorem writeQos_mem (s : State) (a : Nat) (v : Word64) : (writeQos s a v).mem = s.mem := by simp [writeQos]
@[simp] theorem flushVector_mem (p : Nat) (s : State) (v : Nat) : (flushVector p s v).mem = s.mem := by simp [flushVector]
@[simp] theorem endReset_mem (s : State) (p : Nat) : (endReset s p).mem = s.mem := by
  unfold endReset
  exact (foldl_keeps State.mem _ (fun s v => flushVector_mem ..) _ _).trans (foldl_keeps State.mem _ (fun s e => putQos_mem ..) _ _)

/-! ### Sync -/

theorem semset_mem {s t : State} {lq n v : Nat} (h : semset s lq n v = some t) : t.mem = s.mem := by
  unfold semset at h
  split at h <;> cases h
  rfl

/-! ### Registers -/

@[simp] theorem afterRead_mem (s : State) (x0 : Reg) : (afterRead s x0).mem = s.mem := by
  fun_cases afterRead <;> simp
@[simp] theorem startQueues_mem (s : State) (lq v : Nat) : (startQueues s lq v).mem = s.mem := by simp [startQueues]
@[simp] theorem writePc_mem (s : State) (lq q v : Nat) : (writePc s lq q v).mem = s.mem := by simp [writePc]
@[simp] theorem writeQctl_mem (s : State) (lq q v : Nat) : (writeQctl s lq q v).mem = s.mem := rfl
@[simp] theorem writeSem_mem (s : State) (lq n v : Nat) : (writeSem s lq n v).mem = s.mem := by
  unfold writeSem semset
  split <;> rfl
@[simp] theorem writeMxmode_mem (s : State) (lq q : Nat) (v : Word64) : (writeMxmode s lq q v).mem = s.mem := by simp [writeMxmode]
@[simp] theorem writeChctl_mem (s : State) (lq k v : Nat) : (writeChctl s lq k v).mem = s.mem := by simp [writeChctl]
@[simp] theorem writePeBrk_mem (s : State) (pq pe v : Nat) : (writePeBrk s pq pe v).mem = s.mem := by simp [writePeBrk]
@[simp] theorem writeLqpart_mem (s : State) (lq : Nat) (v : Word64) : (writeLqpart s lq v).mem = s.mem := by simp [writeLqpart]
@[simp] theorem writeCtxown_mem (s : State) (c : Nat) (v : Word64) : (writeCtxown s c v).mem = s.mem := by simp [writeCtxown]
@[simp] theorem writeSave_mem (s : State) (p : Nat) (v : Word64) : (writeSave s p v).mem = s.mem := by simp [writeSave]
@[simp] theorem writePub_mem (s : State) (p n w : Nat) (v : Word64) : (writePub s p n w v).mem = s.mem := rfl
@[simp] theorem writeLqctl_mem (s : State) (p k v : Nat) : (writeLqctl s p k v).mem = s.mem := rfl
@[simp] theorem adjustTime_mem (s : State) (v : Word64) : (adjustTime s v).mem = s.mem := by simp [adjustTime]
@[simp] theorem startTsync_mem (s : State) (k : Nat) (v : Word64) : (startTsync s k v).mem = s.mem := by simp [startTsync]
@[simp] theorem writePeer_mem (s : State) (p n : Nat) (v : Word64) : (writePeer s p n v).mem = s.mem := rfl

/-! ### Boot -/

@[simp] theorem enablePf_mem (s : State) : (enablePf s).mem = s.mem := by
  fun_cases enablePf <;> simp

/-! ### Cru -/

@[simp] theorem credStruck_mem (s : State) (c : Cmd) : (credStruck s c).mem = s.mem := by
  fun_cases credStruck <;> simp
@[simp] theorem tell_mem (s : State) (part : Nat) (dst : Far) (m : CruNews) : (s.tell part dst m).mem = s.mem := by
  unfold State.tell
  split
  · rfl
  · exact foldl_keeps State.mem _ (fun s d => sendFar_mem ..) _ _
@[simp] theorem finishFix_mem (s : State) (c : Cmd) (gid seq : Nat) : (s.finishFix c gid seq).mem = s.mem := by simp [State.finishFix]
@[simp] theorem refuseFix_mem (s : State) (c : Cmd) (gid seq code : Nat) :
    (s.refuseFix c gid seq code).mem = s.mem := by simp [State.refuseFix]
@[simp] theorem refuseLeaf_mem (s : State) (l : Leaf) : (s.refuseLeaf l).mem = s.mem := by simp [State.refuseLeaf]
@[simp] theorem finishFixes_mem (s : State) (i : CollInst) : (s.finishFixes i).mem = s.mem :=
  foldl_keeps State.mem _ (fun s c => finishFix_mem s c i.gid i.seq) _ _
@[simp] theorem settleFixes_mem (p gid : Nat) (s : State) : (settleFixes p gid s).mem = s.mem := by
  fun_cases settleFixes <;> simp +zetaDelta
@[simp] theorem settleParting_mem (p : Nat) (s : State) : (settleParting p s).mem = s.mem := foldl_keeps State.mem _ finishFixes_mem _ _
@[simp] theorem partWith_mem (s : State) (p : Nat) (i : CollInst) : (s.partWith p i).mem = s.mem := by simp [State.partWith]
@[simp] theorem sendCru_mem (s : State) (p : Nat) (x : CruItem) : (s.sendCru p x).mem = s.mem := rfl
@[simp] theorem sendAbroad_mem (s : State) (p : Nat) (dst : Far) (l : Leaf) : (sendAbroad s p dst l).mem = s.mem := by simp [sendAbroad]
theorem fixAbroad_mem {s t : State} {p : Nat} {c : Cmd} {gid seq choice : Nat} (h : fixAbroad s p c gid seq choice = some t) :
    t.mem = s.mem := by
  revert h
  fun_cases fixAbroad <;> intro h <;> cases h <;> simp
@[simp] theorem settleAbroad_mem (p : Nat) (s : State) : (settleAbroad p s).mem = s.mem := by
  refine foldl_keeps State.mem _ (fun s i => ?_) _ _
  split
  · split
    · split
      · next h => exact (State.setPart_mem ..).trans (fixAbroad_mem h)
      · rfl
    · rfl
  · rfl
@[simp] theorem farPerformed_mem (s : State) (p gid seq cidx : Nat) : (farPerformed s p gid seq cidx).mem = s.mem := by
  fun_cases farPerformed <;> simp
@[simp] theorem fixEnded_mem (s : State) (p : Nat) (from' : Far) (gid seq : Nat) (code : Option Nat) :
    (fixEnded s p from' gid seq code).mem = s.mem := by
  fun_cases fixEnded <;> simp +zetaDelta
@[simp] theorem tellPerformed_mem (s : State) (p : Nat) : (tellPerformed s p).mem = s.mem := by
  unfold tellPerformed
  exact foldl_keeps State.mem _ (fun s a => tell_mem ..) _ _
@[simp] theorem cutOff_mem (s : State) (k : Nat) (i : CollInst) : (cutOff s k i).2.mem = s.mem := by
  fun_cases cutOff <;> rfl
@[simp] theorem forgetFar_mem (s : State) (k p gid : Nat) : (forgetFar s k p gid).mem = s.mem := by
  fun_cases forgetFar <;> simp
@[simp] theorem forgetParting_mem (s : State) (k p : Nat) : (forgetParting s k p).mem = s.mem := by simp [forgetParting]
@[simp] theorem startCred_mem (s : State) (p n : Nat) (c : Cmd) : (startCred s p n c).mem = s.mem := by
  fun_cases startCred <;> simp +zetaDelta

/-! ### Gme -/

@[simp] theorem setLast_mem (s : State) (hall i : Nat) : (s.setLast hall i).mem = s.mem := rfl
@[simp] theorem countCache_mem (s : State) (hall g : Nat) (r : SeqRec) : (countCache s hall g r).mem = s.mem := by simp [countCache]
@[simp] theorem gmeStruck_mem (s : State) (hall : Nat) (c : Cmd) : (gmeStruck s hall c).mem = s.mem := by
  fun_cases gmeStruck <;> simp +zetaDelta
@[simp] theorem gmeEnqueue_mem (s : State) (c : Cmd) : (gmeEnqueue s c).mem = s.mem := rfl

/-! ### Vie -/

@[simp] theorem dropOwnReads_mem (s : State) (a : Access) : (s.dropOwnReads a).mem = s.mem := rfl
@[simp] theorem frameFault_mem (s : State) (n : Nat) (x : Stream) (code va : Nat) : (frameFault s n x code va).mem = s.mem := by
  fun_cases frameFault <;> simp
@[simp] theorem queueFrame_mem (s : State) (n : Nat) (t : Token) : (queueFrame s n t).mem = s.mem := by simp [queueFrame]

/-! ### Links -/

@[simp] theorem tellLost_mem (k : Nat) (s : State) (p : Nat) : (tellLost k s p).mem = s.mem := by simp [tellLost]
@[simp] theorem settleAll_mem (s : State) (p : Nat) : (settleAll s p).mem = s.mem := by
  rw [settleAll, tellPerformed_mem, settleParting_mem]
  exact foldl_keeps State.mem _ (fun s g => settleFixes_mem p g s) _ _
@[simp] theorem settleEngines_mem (s : State) (c : Cmd) (performed : Bool) :
    (settleEngines s c performed).mem = s.mem := by simp [settleEngines]
@[simp] theorem settleCommand_mem (s : State) (c : Cmd) : (settleCommand s c).mem = s.mem := by simp [settleCommand]
@[simp] theorem State.disown_mem (s : State) (o : PeerOwner) : (s.disown o).mem = s.mem := rfl
@[simp] theorem peerPerformed_mem (s : State) (o : PeerOwner) : (peerPerformed s o).mem = s.mem := by
  fun_cases peerPerformed <;> simp
@[simp] theorem peerFailed_mem (s : State) (o : PeerOwner) (code : Nat) : (peerFailed s o code).mem = s.mem := by
  fun_cases peerFailed <;> simp
@[simp] theorem readAnswered_mem (s : State) (id : Nat) (st : ReadState) : (s.readAnswered id st).mem = s.mem := rfl
@[simp] theorem putSource_mem (s : State) (x : SeqSource) : (s.putSource x).mem = s.mem := rfl
@[simp] theorem reply_mem (s : State) (k : Nat) (h : FlitHeader) (op : Nat) (data : List Byte) :
    (s.reply k h op data).mem = s.mem := by simp [State.reply]
@[simp] theorem answer_mem (s : State) (k : Nat) (h : FlitHeader) (got : List (Nat × Byte)) (bad : Bool) (x0 : Option Nat) :
    (s.answer k h got bad x0).mem = s.mem := by
  fun_cases State.answer <;> simp
@[simp] theorem passedAnswered_mem (s : State) (k : Nat) (bs : List Byte) (got : List (Nat × Byte)) (bad : Bool) (code : Option Nat) :
    (passedAnswered s k bs got bad code).mem = s.mem := by simp [passedAnswered]
@[simp] theorem requestLost_mem (s : State) (o : PeerOut) : (requestLost s o).mem = s.mem := by
  fun_cases requestLost <;> simp
@[simp] theorem failAll_mem (gone : List PeerOut) (s : State) : (failAll gone s).mem = s.mem := by
  refine foldl_keeps (fun a : State × List PeerOwner => a.1.mem) _ (fun a o => ?_) _ _
  split
  · rfl
  · exact requestLost_mem ..
@[simp] theorem answerTsync_mem (s : State) (k t1 : Nat) : (answerTsync s k t1).mem = s.mem := by simp [answerTsync]
@[simp] theorem requestRefused_mem (s : State) (p : Part) (code : Nat) : (requestRefused s p code).mem = s.mem := by
  fun_cases requestRefused <;> simp
@[simp] theorem takeReply_mem (s : State) (k : Nat) (h : FlitHeader) : (takeReply s k h).mem = s.mem := by
  fun_cases takeReply <;> simp +zetaDelta
@[simp] theorem passPart_mem (h : FlitHeader) (f : StFmt) (o : PeerOwner) (s : State) (p : Nat × Nat × Nat) :
    (passPart h f o s p).mem = s.mem := by simp [passPart]

/-! ### HostPort -/

@[simp] theorem pfWord_mem (s : State) (a : Nat) : (pfWord s a).2.mem = s.mem := by
  fun_cases pfWord <;> simp
@[simp] theorem pfRead_mem (s : State) (as : List Nat) : (pfRead s as).2.mem = s.mem := by
  induction as generalizing s with
  | nil => rfl
  | cons a as ih => exact (ih _).trans (pfWord_mem s a)
@[simp] theorem vfWriteWord_mem (s : State) (p w v : Nat) : (vfWriteWord s p w v).mem = s.mem := by simp [vfWriteWord]
@[simp] theorem vfAccess_mem (s : State) (p : Nat) (a : HostAcc) : (vfAccess s p a).mem = s.mem := by
  cases a with
  | read off n => rfl
  | write off data => exact foldl_keeps State.mem _ (fun s w => vfWriteWord_mem ..) _ _

/-! ### SystemWords -/

@[simp] theorem dropTranslations_mem (s : State) (r : InvRange) : (dropTranslations s r).mem = s.mem := by
  unfold dropTranslations
  exact foldl_keeps State.mem _ (fun s q => proceed_mem ..) _ _
@[simp] theorem releaseHolds_mem (s : State) (r : InvRange) : (releaseHolds s r).mem = s.mem := by
  unfold releaseHolds
  exact foldl_keeps State.mem _ (fun s q => proceed_mem ..) _ _
@[simp] theorem flushQueues_mem (s : State) (lq : Nat) (qs : List Nat) : (flushQueues s lq qs).mem = s.mem := by
  unfold flushQueues
  refine foldl_keeps State.mem _ (fun s x => ?_) _ _
  rfl

/-! ### Turns -/

theorem nextTurn_mem {s s1 : State} {t : Turn} (h : nextTurn s = some (t, s1)) : s1.mem = s.mem := by
  unfold nextTurn at h
  split at h
  · cases h; rfl
  · obtain ⟨u, -, hu⟩ := Option.map_eq_some_iff.mp h
    cases hu; rfl
@[simp] theorem passTime_mem (s : State) (n ns : Nat) : (passTime s n ns).mem = s.mem := by simp [passTime]

end Sys2Proof.Machine
end

section
/-! SUPPORT. What writes memory keeps its canonical form: the operations of the model that can write a byte, in the order of the model's files. -/

namespace Sys2Proof.Machine

/-- The canonical form of a memory: each listed byte once, in rising order of address, none equal to what an unlisted byte reads as. -/
def Canonical (m : NatMap Byte) : Prop := NatMap.wf unlisted m = true

/-- What a word has come to has its memory in canonical form. -/
@[simp] def WordCanonical : WordResult → Prop
  | .retire s _ => Canonical s.mem
  | .accepted s => Canonical s.mem
  | .completed s _ => Canonical s.mem
  | .aborted s _ _ _ => Canonical s.mem
  | .wait s _ _ _ _ => Canonical s.mem
  | .trap s _ _ _ => Canonical s.mem

/-- What a command has come to has its memory in canonical form. -/
@[simp] def PerformedCanonical : Performed → Prop
  | .wait _ => True
  | .abort s _ _ => Canonical s.mem
  | .done s => Canonical s.mem

/-- What an element of a copy has come to has its memory in canonical form. -/
@[simp] def MovedCanonical : Moved → Prop
  | .done s => Canonical s.mem
  | .wait _ => True
  | .fence s _ => Canonical s.mem
  | .abort s _ _ => Canonical s.mem

/-- What a request of a peer has come to has its memory in canonical form. -/
@[simp] def PeerCanonical : PeerResult → Prop
  | .wait _ => True
  | .refused _ => True
  | .done s _ _ => Canonical s.mem
  | .passed s => Canonical s.mem

/-- The outcome of an instruction has its memory in canonical form. -/
@[simp] def OutCanonical : Result → Prop
  | .next s => Canonical s.mem
  | .fault _ => True
  | .refused _ => True

/-- What is done for each element of a list keeps the canonical form where each step does. -/
theorem foldl_canonical {α : Type} {f : State → α → State} (h : ∀ s a, Canonical s.mem → Canonical (f s a).mem) (xs : List α) {s : State}
    (hs : Canonical s.mem) : Canonical (xs.foldl f s).mem := by
  induction xs generalizing s with
  | nil => exact hs
  | cons x xs ih => exact ih (h s x hs)

/-- A write keeps the canonical form. -/
@[simp] theorem writeAt_canonical {s : State} (pa : Nat) (bs : List Byte) (hs : Canonical s.mem) : Canonical (s.writeAt pa bs).mem :=
  State.writeAt_wf pa bs hs

theorem viewWrite_canonical {s t : State} {ctx pa : Nat} {bs : List Byte} (h : s.viewWrite ctx pa bs = some t) (hs : Canonical s.mem) :
    Canonical t.mem :=
  viewWrite_wf h hs

theorem writeRuns_canonical {s t : State} {part ctx : Nat} {rs : List (Nat × Nat)} {bs : List Byte}
    (h : s.writeRuns part ctx rs bs = some t) (hs : Canonical s.mem) : Canonical t.mem := writeRuns_wf h hs

theorem writeVa_canonical {s t : State} {a : Access} {va : Nat} {bs : List Byte} (h : s.writeVa a va bs = .done t) (hs : Canonical s.mem) :
    Canonical t.mem := writeVa_wf h hs

/-! ### Ops -/

theorem byCore_canonical {s : State} {f : State → State} (h : ∀ s, Canonical s.mem → Canonical (f s).mem) (hs : Canonical s.mem) :
    OutCanonical (s.byCore f) := by
  fun_cases State.byCore <;> simp [h, hs]
theorem unlessFailed_canonical {s : State} {f : State → State} (h : ∀ s, Canonical s.mem → Canonical (f s).mem) (hs : Canonical s.mem) :
    OutCanonical (s.unlessFailed f) := by
  fun_cases State.unlessFailed
  · exact hs
  · exact h s hs
theorem eachOf_canonical {α : Type} {f : State → α → OrWait} (hf : ∀ s a t, f s a = .ok t → Canonical s.mem → Canonical t.mem)
    (xs : List α) {s t : State} (h : eachOf f xs s = .ok t) (hs : Canonical s.mem) : Canonical t.mem := by
  induction xs generalizing s with
  | nil => cases h; exact hs
  | cons x xs ih =>
    unfold eachOf at h
    cases hx : f s x with
    | error k => rw [hx] at h; cases h
    | ok u => rw [hx] at h; exact ih h (hf s x u hx hs)
theorem orElse_canonical {r : OrWait} {s : State} (h : ∀ t, r = .ok t → Canonical t.mem) (hs : Canonical s.mem) :
    Canonical (r.orElse s).mem := by
  cases r with
  | ok t => exact h t rfl
  | error k => rw [OrWait.orElse, noteHold_mem]; exact hs
theorem writeRun_canonical {s t : State} {part ctx : Nat} {r : Nat × Nat} {bs : List Byte} {op : Nat}
    (h : s.writeRun part ctx r bs op = some t) (hs : Canonical s.mem) : Canonical t.mem := by
  revert h
  fun_cases State.writeRun <;> grind [sendPeer_mem, viewWrite_canonical]
@[simp] theorem writeRecord_canonical {s : State} (f : FaultRecord) (hs : Canonical s.mem) : Canonical (s.writeRecord f).1.mem := by
  grind [State.writeRecord, writeRuns_canonical, State.setPart_mem, State.emit_mem, raiseAfter_mem]

/-! ### Fire -/

theorem fireWith_canonical {i : Instr} {ty : Port → LaneTy} {j : Firing → Judged} {act : State → Nat → Nat → Nat → Firing → State}
    {other : State → Nat → Nat → Firing → Token → State} {fin : State → Nat → Nat → Token → State} {s : State}
    (ha : ∀ s rid slot ctx fr, Canonical s.mem → Canonical (act s rid slot ctx fr).mem)
    (ho : ∀ s rid slot fr t, (other s rid slot fr t).mem = s.mem)
    (hf : ∀ s rid slot t, (fin s rid slot t).mem = s.mem) (hs : Canonical s.mem) : OutCanonical (fireWith i ty j act other fin s) := by
  fun_cases fireWith <;> simp +zetaDelta [emitEnd_mem, ho, hf, hs, ha]
theorem fire_canonical {i : Instr} {f : Fab} {ty : Port → LaneTy} {s : State} {act : State → Nat → Nat → Nat → Firing → State}
    (ha : ∀ s rid slot ctx fr, Canonical s.mem → Canonical (act s rid slot ctx fr).mem) (hs : Canonical s.mem) :
    OutCanonical (fire i f ty s act) :=
  fireWith_canonical ha (fun s rid _ _ t => toBoth_mem f s rid t) (fun s rid _ t => toBoth_mem f s rid t) hs
theorem computeFire_canonical {i : Instr} {f : Fab} {ty : Port → LaneTy} {s : State} {val : Nat → Firing → Computed}
    (hs : Canonical s.mem) : OutCanonical (computeFire i f ty s val) := by
  refine fire_canonical (fun s rid slot ctx fr hs => ?_) hs
  rw [toBoth_mem]
  split <;> exact hs

/-! ### MemOps -/

theorem accessFire_canonical {i : Instr} {f : Fab} {op : MemOp} {s : State} (hs : Canonical s.mem) : OutCanonical (accessFire i f op s) :=
  fireWith_canonical (fun s rid slot ctx fr hs => by rw [accessAct_mem]; exact hs) (fun s rid slot fr t => accessOther_mem ..)
    (fun s rid slot t => accessEnd_mem ..) hs

/-! ### MemTile -/

theorem putEach_canonical {ctx pa : Nat} {xs : List (Nat × Byte)} {s t : State} (h : putEach s ctx pa xs = some t)
    (hs : Canonical s.mem) : Canonical t.mem := by
  fun_induction putEach with
  | case1 s => cases h; exact hs
  | case2 => cases h
  | case3 s i b bs u hu ih => exact ih h (viewWrite_canonical hu hs)
theorem putWrites_canonical {ctx : Nat} {ws : State → Part → List ByteWrite} {ps : List Part} {s t : State}
    (h : putWrites ctx ws ps s = some t) (hs : Canonical s.mem) : Canonical t.mem := by
  induction ps generalizing s with
  | nil => cases h; exact hs
  | cons p ps ih =>
    obtain ⟨u, hu, h⟩ := Option.bind_eq_some_iff.1 h
    exact ih h (putEach_canonical hu hs)
@[simp] theorem storePart_canonical {s : State} (q : Request) (p : Part) (hs : Canonical s.mem) : Canonical (storePart s q p).mem := by
  unfold storePart
  dsimp only
  split
  · rw [faultAll_mem]; exact hs
  · next h => exact foldl_canonical (fun s x hs => by rw [partDone_mem]; split <;> simp [hs]) _ (putWrites_canonical h hs)
@[simp] theorem updateParts_canonical {s : State} (op : Nat) (q : Request) (p : Part) (hs : Canonical s.mem) :
    Canonical (updateParts s op q p).mem := by
  unfold updateParts
  dsimp only
  split
  · simp [hs]
  · split
    · simp [hs]
    · next h => exact foldl_canonical (fun s x hs => by rw [partDone_mem]; exact hs) _ (putWrites_canonical h (by simp [hs]))

/-! ### Issue -/

@[simp] theorem retireWord_canonical {s0 s : State} (lq q raw : Nat) (sig : Option (Nat × Nat)) (f : Flow) (h0 : Canonical s0.mem)
    (hs : Canonical s.mem) : Canonical (retireWord s0 s lq q raw sig f).mem := by
  fun_cases retireWord <;> simp [h0, hs]
@[simp] theorem staysAt_canonical (s : State) (lq q : Nat) (p : IssuePhase) (kind : WaitKind) (hs : Canonical s.mem) :
    WordCanonical (staysAt s lq q p kind) := by simp [staysAt, hs]
@[simp] theorem stays_canonical (s : State) (lq q : Nat) (kind : WaitKind) (nbn : Nat) (hs : Canonical s.mem) :
    WordCanonical (stays s lq q kind nbn) := by simp [stays, hs]
@[simp] theorem finishWord_canonical {s0 : State} (lq q raw : Nat) (h : Hdr) {r : WordResult} (h0 : Canonical s0.mem)
    (hr : WordCanonical r) : Canonical (finishWord s0 lq q raw h r).mem := by
  cases r <;> simp only [WordCanonical] at hr <;> simp [finishWord, h0, hr]
theorem runWord_canonical {raw : Nat} {h : Hdr} {s : State} {f : Nat → Nat → Queue → WordResult} (hf : ∀ lq q x, WordCanonical (f lq q x))
    (hs : Canonical s.mem) : OutCanonical (runWord raw h s f) := by
  fun_cases runWord
  · exact finishWord_canonical _ _ raw h hs (hf ..)
  · exact hs
theorem regWord_canonical {raw : Nat} {h : Hdr} {s : State} {f : Queue → Queue} (hs : Canonical s.mem) : OutCanonical (regWord raw h s f) :=
  runWord_canonical (fun _ _ _ => hs) hs
@[simp] theorem awaitAnswer_canonical (s : State) (c : Cmd) (hs : Canonical s.mem) :
    WordCanonical (awaitAnswer s c) := by simp [awaitAnswer, hs]
theorem engineWord_canonical {raw : Nat} {h : Hdr} {o : OpE} {s : State} {check : Cmd → Option (Nat × Nat)}
    {accept : State → Cmd → WordResult} (ha : ∀ s c, Canonical s.mem → WordCanonical (accept s c)) (hs : Canonical s.mem) :
    OutCanonical (engineWord raw h o s check accept) := by
  refine runWord_canonical (fun lq q x => ?_) hs
  dsimp only
  split
  · exact hs
  · split
    · exact hs
    · split
      · exact hs
      · split
        · exact hs
        · exact ha _ _ (by simp [hs])

end Sys2Proof.Machine
end

section
/-! SUPPORT. What writes memory keeps its canonical form: sampling trees, copy engines, the launch arbiter and deterministic tasks. -/

namespace Sys2Proof.Machine

/-! ### Pse -/

@[simp] theorem scramble_canonical (s : State) (pa n : Nat) (hs : Canonical s.mem) : Canonical (s.scramble pa n).mem := by
  fun_cases State.scramble
  grind [freeBytes_mem, writeAt_canonical]
@[simp] theorem pseInit_canonical (s : State) (hall t : Nat) (c : Cmd) (ctx : Nat) (hs : Canonical s.mem) :
    PerformedCanonical (pseInit s hall t c ctx) := by
  fun_cases pseInit <;> simp +zetaDelta [hs]
theorem treeCheck_canonical {s : State} {hall t : Nat} {c : Cmd} {reads : Bool} {r : Performed} (h : treeCheck s hall t c reads = some r)
    (hs : Canonical s.mem) : PerformedCanonical r := by
  revert h
  fun_cases treeCheck <;> intro h <;> cases h <;> simp [hs]
@[simp] theorem rewriteTree_canonical (s : State) (hall t : Nat) (x : PseTree) (hs : Canonical s.mem) :
    Canonical (rewriteTree s hall t x).mem := by simp [rewriteTree, hs]
theorem writeStatuses_canonical {a : Access} {va : Nat} {xs : List Nat} {s t : State} (h : writeStatuses s a va xs = .done t)
    (hs : Canonical s.mem) : Canonical t.mem := by
  fun_induction writeStatuses with
  | case1 s => cases h; exact hs
  | case2 s va x xs u hu ih => exact ih h (writeVa_canonical hu hs)
  | case3 s va x xs hno => exact absurd h (hno t)
@[simp] theorem pseList_canonical {s : State} (hall t : Nat) (c : Cmd) (ctx : Nat) (upd : Bool) (hs : Canonical s.mem) :
    PerformedCanonical (pseList s hall t c ctx upd) := by
  fun_cases pseList
  case case1 h => exact treeCheck_canonical h hs
  all_goals grind [struckIn_mem, rewriteTree_canonical, writeStatuses_canonical, PerformedCanonical]
@[simp] theorem pseDraw_canonical {s : State} (hall t : Nat) (c : Cmd) (seq ctx : Nat) (hs : Canonical s.mem) :
    PerformedCanonical (pseDraw s hall t c seq ctx) := by
  fun_cases pseDraw
  case case1 h => exact treeCheck_canonical h hs
  all_goals grind [rewriteTree_canonical, writeVa_canonical, PerformedCanonical]
@[simp] theorem pseBeta_canonical {s : State} (hall t : Nat) (c : Cmd) (hs : Canonical s.mem) :
    PerformedCanonical (pseBeta s hall t c) := by
  fun_cases pseBeta
  case case1 h => exact treeCheck_canonical h hs
  all_goals grind [State.setTree_mem, PerformedCanonical]
@[simp] theorem pseWeights_canonical {s : State} (hall t : Nat) (c : Cmd) (ctx : Nat) (hs : Canonical s.mem) :
    PerformedCanonical (pseWeights s hall t c ctx) := by
  fun_cases pseWeights
  case case1 h => exact treeCheck_canonical h hs
  all_goals grind [struck_mem, writeVa_canonical, PerformedCanonical]
@[simp] theorem pseStat_canonical {s : State} (hall t : Nat) (c : Cmd) (seq : Nat) (hs : Canonical s.mem) :
    PerformedCanonical (pseStat s hall t c seq) := by
  fun_cases pseStat
  case case1 h => exact treeCheck_canonical h hs
  all_goals grind [answerWord_mem, PerformedCanonical]
@[simp] theorem pseEffect_canonical (s : State) (hall : Nat) (p : PseCmd) (ctx : Nat) (hs : Canonical s.mem) :
    PerformedCanonical (pseEffect s hall p ctx) := by
  fun_cases pseEffect <;> grind [pseBeta_canonical, pseDraw_canonical, pseInit_canonical, pseList_canonical, pseStat_canonical,
    pseWeights_canonical]
@[simp] theorem stillTampered_canonical (hall t : Nat) {r : Performed} (hr : PerformedCanonical r) :
    PerformedCanonical (stillTampered hall t r) := by
  cases r <;> exact hr
@[simp] theorem psePerform_canonical (s : State) (hall : Nat) (p : PseCmd) (ctx : Nat) (hs : Canonical s.mem) :
    PerformedCanonical (psePerform s hall p ctx) := by
  fun_cases psePerform <;> grind [freeValue_mem, State.setTree_mem, pseEffect_canonical, stillTampered_canonical]
@[simp] theorem pseFinish_canonical {s : State} (p : PseCmd) {r : Performed} (hs : Canonical s.mem) (hr : PerformedCanonical r) :
    Canonical (pseFinish s p r).mem := by
  cases r <;> simp only [PerformedCanonical] at hr <;> grind [pseFinish, noteHold_mem, abort_mem, stageTree_mem, ownedBy_mem, complete_mem]
@[simp] theorem pseAccept_canonical (s : State) (c : Cmd) (hs : Canonical s.mem) : WordCanonical (pseAccept s c) := by
  fun_cases pseAccept <;> simp +zetaDelta [hs]

/-! ### Bce -/

@[simp] theorem bceAccept_canonical (s : State) (c : Cmd) (hs : Canonical s.mem) : WordCanonical (bceAccept s c) := by simp [bceAccept, hs]
theorem bceWriteRun_canonical {s t : State} {lq ch : Nat} {c : Cmd} {r : Nat × Nat} {bs : List (Byte × Bool)}
    (h : bceWriteRun s lq ch c r bs = some t) (hs : Canonical s.mem) : Canonical t.mem := by
  revert h
  fun_cases bceWriteRun <;> grind [markFor_mem, writeRun_canonical, coverRun_mem]
@[simp] theorem bceWriteRuns_canonical (lq ch : Nat) (c : Cmd) (va : Nat) (rs : List (Nat × Nat)) (bs : List (Byte × Bool)) {s : State}
    (hs : Canonical s.mem) : MovedCanonical (bceWriteRuns lq ch c va rs bs s) := by
  fun_induction bceWriteRuns with
  | case4 va r rs bs s _ u hu ih => exact ih (bceWriteRun_canonical hu hs)
  | _ => exact hs
@[simp] theorem bceWrite_canonical (s : State) (lq ch : Nat) (c : Cmd) (dst : Int) (bs : List (Byte × Bool)) (hs : Canonical s.mem) :
    MovedCanonical (bceWrite s lq ch c dst bs) := by
  fun_cases bceWrite <;> grind [ownedBy_mem, bceWriteRuns_canonical, MovedCanonical]
@[simp] theorem bceWrites_canonical (lq ch : Nat) (c : Cmd) (bs : List (Byte × Bool)) (ds : List Int) {s : State} (hs : Canonical s.mem) :
    MovedCanonical (bceWrites lq ch c bs ds s) := by
  induction ds generalizing s with
  | nil => exact hs
  | cons d ds ih =>
    have hd := bceWrite_canonical s lq ch c d bs hs
    unfold bceWrites
    split
    · next h => rw [h] at hd; exact ih hd
    · exact hd
@[simp] theorem moveElem_canonical (s : State) (lq ch : Nat) (c : Cmd) (b : BceJob) (j : Nat) (hs : Canonical s.mem) :
    MovedCanonical (moveElem s lq ch c b j) := by
  fun_cases moveElem <;> grind [bceWrites_canonical, MovedCanonical]
@[simp] theorem moveGranule_canonical (lq ch : Nat) (c : Cmd) (g : Int) (n j : Nat) (b : BceJob) {s : State} (hs : Canonical s.mem) :
    Canonical (moveGranule lq ch c g n j b s).mem := by
  induction n generalizing j b s with
  | zero => exact hs
  | succ n ih => grind [moveGranule, moveElem_canonical, MovedCanonical, State.setChan_mem, noteHold_mem, bceFence_mem, bceAbort_mem,
    elemMoved_mem, State.dropCmdReads_mem]

/-! ### Arbiter -/

@[simp] theorem payRecord_canonical (s : State) (n : Nat) (hs : Canonical s.mem) : Canonical (payRecord s n).mem := by
  fun_cases payRecord <;> grind [noteHold_mem, ownedBy_mem, writeVa_canonical, recordLost_mem, recordPaid_mem]
theorem submit_canonical (s : State) (p queue index bell : Nat) (parent : Option Parent) (task : List Nat) (bs : List Byte) {t : State}
    (h : submit s p queue index bell parent task bs = .ok t) (hs : Canonical s.mem) : Canonical t.mem := by
  revert h
  fun_cases submit <;> grind [dropArbReads_mem, addLaunch_mem, payRecord_canonical, refusedRecord_mem]
theorem submitChild_canonical (s : State) (part va : Nat) (p : Parent) (task : List Nat) {t : State}
    (h : submitChild s part va p task = .ok t) (hs : Canonical s.mem) : Canonical t.mem := by
  revert h
  fun_cases submitChild <;> grind [dropArbReads_mem, freeValue_mem, struckIn_mem, childFault_mem, submit_canonical]
theorem startHeld_canonical {n : Nat} {xs : List HeldSpawn} {s t : State} (h : startHeld n xs s = .ok t) (hs : Canonical s.mem) :
    Canonical t.mem := by
  induction xs generalizing s with
  | nil => cases h; exact hs
  | cons x xs ih =>
    unfold startHeld at h
    split at h
    · cases h; exact hs
    · dsimp only at h
      cases hu : submitChild (s.setLaunch n _) _ x.va _ _ with
      | error k => rw [hu] at h; cases h
      | ok u => rw [hu] at h; exact ih h (submitChild_canonical _ _ _ _ _ hu hs)

/-! ### Det -/

@[simp] theorem applyWrites_canonical {s : State} (v : TaskView) (hs : Canonical s.mem) : Canonical (applyWrites s v).mem := by
  unfold applyWrites
  refine foldl_canonical (fun s e hs => ?_) _ (foldl_canonical (fun s e hs => ?_) _ hs)
  · exact hs
  · exact writeAt_canonical _ _ hs
@[simp] theorem applyRed_canonical {s : State} (r : QueuedRed) (hs : Canonical s.mem) : Canonical (applyRed s r).mem := by
  unfold applyRed
  split
  · split
    · rw [regionFault_mem]; exact hs
    · refine foldl_canonical (fun s p hs => ?_) _ hs
      rw [edgeFlags_mem]
      exact foldl_canonical (fun _ _ h => writeAt_canonical _ _ h) _ hs
  · exact hs
@[simp] theorem applyTask_canonical {s : State} (n i : Nat) (hs : Canonical s.mem) : Canonical (applyTask s n i).mem := by
  unfold applyTask
  split
  · exact hs
  · refine foldl_canonical (fun s e hs => ?_) _ (foldl_canonical (fun s r => applyRed_canonical r) _ (applyWrites_canonical _ hs))
    rw [publish_mem]
    exact hs
@[simp] theorem releaseEffect_canonical (s : State) (hall : Nat) (p : PseCmd) (hs : Canonical s.mem) :
    PerformedCanonical (releaseEffect s hall p) := by
  fun_cases releaseEffect <;> grind [psePerform_canonical, PerformedCanonical]
theorem releaseOne_canonical (s : State) (hall : Nat) (c : Cmd) {t : State} (h : releaseOne s hall c = .ok t) (hs : Canonical s.mem) :
    Canonical t.mem := by
  revert h
  fun_cases releaseOne <;> grind [pseEnqueue_mem, pseFinish_canonical, pseTake_mem, releaseEffect_canonical]
theorem releaseHeld_canonical (s : State) (ctx : Nat) {t : State} (h : releaseHeld s ctx = .ok t) (hs : Canonical s.mem) :
    Canonical t.mem := by
  revert h
  fun_cases releaseHeld
  grind [eachOf_canonical, releaseOne_canonical, unhold_mem]
theorem mergeTasks_canonical {s t : State} {rid n : Nat} {tasks : List Nat} (h : mergeTasks s rid n tasks = .ok t) (hs : Canonical s.mem) :
    Canonical t.mem := by
  revert h
  fun_cases mergeTasks
  case case6 l hl hdet hfree gs hok hstand ctxs s1 =>
    intro h
    have h1 : Canonical s1.mem := foldl_canonical (fun s i => applyTask_canonical n i) _ hs
    cases hu : eachOf releaseHeld ctxs s1 with
    | error k => rw [hu] at h; cases h
    | ok u =>
      rw [hu] at h
      have h2 := eachOf_canonical (fun s c t => releaseHeld_canonical s c) ctxs hu h1
      exact eachOf_canonical (fun s c t => startHeld_canonical) ctxs h (by rw [freshView_mem]; exact h2)
  all_goals intro h <;> cases h <;> simp [hs]

end Sys2Proof.Machine
end

section
/-! SUPPORT. What writes memory keeps its canonical form: feeds, streams, the ends of launches, launches and matrix tiles. -/

namespace Sys2Proof.Machine

/-! ### Feed -/

theorem sinkToken_canonical {s u : State} {rid n stage out : Nat} {t : Token} (h : sinkToken s rid n stage out t = .ok u)
    (hs : Canonical s.mem) : Canonical u.mem := by
  revert h
  fun_cases sinkToken <;> grind [State.setLaunch_mem, mergeTasks_canonical]
@[simp] theorem drainOut_canonical (rid n stage out fuel : Nat) {s : State} (hs : Canonical s.mem) :
    Canonical (drainOut rid n stage out fuel s).mem := by
  fun_induction drainOut
  case case5 h ih => exact ih (sinkToken_canonical h hs)
  all_goals simp_all
@[simp] theorem drainStage_canonical (rid n stage : Nat) {s : State} (hs : Canonical s.mem) : Canonical (drainStage rid n stage s).mem := by
  unfold drainStage
  split
  · exact hs
  · exact foldl_canonical (fun s out hs => drainOut_canonical rid n stage out _ hs) _ hs
@[simp] theorem sendOut_canonical (s : State) (rid : Nat) (r : Region) (out : Nat) (t : Token) (hs : Canonical s.mem) :
    Canonical (sendOut s rid r out t).mem := by
  fun_cases sendOut <;> grind [State.setLaunch_mem, drainOut_canonical]
theorem takeInput_canonical {s u : State} {rid : Nat} {r : Region} {input : Nat} {t : Token} (h : takeInput s rid r input = some (t, u))
    (hs : Canonical s.mem) : Canonical u.mem := by
  grind [takeInput, drainStage_canonical, State.setLaunch_mem]

/-! ### Stream -/

theorem atSlot_canonical {s : State} {f : State → Nat → Nat → Nat → Region → State}
    (h : ∀ s rid slot ctx r, Canonical s.mem → Canonical (f s rid slot ctx r).mem) (hs : Canonical s.mem) : OutCanonical (atSlot s f) := by
  fun_cases atSlot <;> simp [h, hs]
theorem checked_canonical {s : State} {rid slot ctx : Nat} {r : Region} {t : Token} {f : State → State}
    (h : ∀ s, Canonical s.mem → Canonical (f s).mem) (hs : Canonical s.mem) : Canonical (checked s rid slot ctx r t f).mem := by
  fun_cases checked <;> simp [h, hs]
@[simp] theorem outputToken_canonical (s : State) (rid slot : Nat) (r0 r : Region) (out : Nat) (t : Token) (hs : Canonical s.mem) :
    Canonical (outputToken s rid slot r0 r out t).mem := by
  fun_cases outputToken <;> grind [containedFault_mem, State.setRegion_mem, raiseToken_mem, sendOut_canonical]
@[simp] theorem pairedMerge_canonical (f : Fab) (s : State) (hs : Canonical s.mem) : OutCanonical (pairedMerge f s) := by
  fun_cases pairedMerge
  grind [fireWith_canonical, toBoth_mem]
@[simp] theorem releaseBarrier_canonical (f : Fab) (s : State) (rid slot ctx : Nat) (r : Region) (hs : Canonical s.mem) :
    Canonical (releaseBarrier f s rid slot ctx r).mem := by
  fun_cases releaseBarrier <;> grind [orElse_canonical, State.setRegion_mem, mergeTasks_canonical]
@[simp] theorem barrierStep_canonical (f : Fab) (s : State) (rid slot ctx : Nat) (r : Region) (hs : Canonical s.mem) :
    Canonical (barrierStep f s rid slot ctx r).mem := by
  fun_cases barrierStep <;> simp +zetaDelta [hs]

/-! ### Lifecycle -/

@[simp] theorem writeHeader_canonical {s : State} (im : Image) (hs : Canonical s.mem) : Canonical (writeHeader s im).mem := by
  unfold writeHeader
  split
  · exact hs
  · split
    · next p _ _ _ =>
      cases h : s.writeRuns im.part 4096 [(p, 64), (p + 64, 64), (p + 128, 64), (p + 192, 64)] im.header with
      | none => exact hs
      | some t => exact writeRuns_canonical h hs
    · exact writeAt_canonical _ _ hs
@[simp] theorem putImage_canonical (s : State) (k : Nat) (im : Image) (hs : Canonical s.mem) :
    Canonical (putImage s k im).mem := by simp [putImage, hs]
@[simp] theorem abandonImage_canonical (s : State) (ctxs : List Nat) (k : Nat) (im : Image) (hs : Canonical s.mem) :
    Canonical (abandonImage s ctxs k im).mem := by simp [abandonImage, hs]
@[simp] theorem abandonSaves_canonical {s : State} (n : Nat) (ctxs : List Nat) (hs : Canonical s.mem) :
    Canonical (abandonSaves s n ctxs).mem :=
  foldl_canonical (fun s e hs => abandonImage_canonical s ctxs e.1 e.2 hs) _ hs
@[simp] theorem endLaunch_canonical (s : State) (n status : Nat) (hs : Canonical s.mem) : Canonical (endLaunch s n status).mem := by
  fun_cases endLaunch <;> simp +zetaDelta [hs]
@[simp] theorem endByFault_canonical (s : State) (rid code : Nat) (hs : Canonical s.mem) : Canonical (endByFault s rid code).mem := by
  fun_cases endByFault <;> simp +zetaDelta [hs]
@[simp] theorem rollOrEnd_canonical (s : State) (rid code : Nat) (hs : Canonical s.mem) : Canonical (rollOrEnd s rid code).mem := by
  fun_cases rollOrEnd <;> simp +zetaDelta [hs]
@[simp] theorem retireQuad_canonical {s : State} (pq code : Nat) (hs : Canonical s.mem) : Canonical (retireQuad s pq code).mem := by
  unfold retireQuad
  dsimp only
  split
  · exact hs
  · split
    · exact foldl_canonical (fun s rid hs => endByFault_canonical s rid code hs) _ hs
    · refine foldl_canonical (fun s rid hs => rollOrEnd_canonical s rid code hs) _ ?_
      rw [foldl_keeps State.mem _ fun s lq => moveQuad_mem ..]
      exact hs
@[simp] theorem afterRecord_canonical (s : State) (f : FaultRecord) (addr : Nat) (hs : Canonical s.mem) :
    Canonical (afterRecord s f addr).mem := by
  fun_cases afterRecord <;> grind [State.setPquad_mem, State.setQueue_mem, setSavedQueue_mem, stopRegion_mem, endLaunch_canonical,
    retireQuad_canonical, rollback_mem]
@[simp] theorem releaseInstance_canonical (s : State) (rid : Nat) (r : Region) (hs : Canonical s.mem) :
    Canonical (releaseInstance s rid r).mem := by
  fun_cases releaseInstance <;> simp +zetaDelta [hs]

/-! ### Launch -/

@[simp] theorem startLaunch_canonical (s : State) (n : Nat) (l : Launch) (cs : List Nat) (ps : List (List Nat)) (hs : Canonical s.mem) :
    Canonical (startLaunch s n l cs ps).mem := by
  fun_cases startLaunch <;> grind [State.setLaunch_mem, endLaunch_canonical, freshView_mem, placeInstances_mem]
@[simp] theorem spawnAct_canonical (f : Fab) (s : State) (rid slot ctx : Nat) (fr : Firing) (hs : Canonical s.mem) :
    Canonical (spawnAct f s rid slot ctx fr).mem := by
  fun_cases spawnAct <;> grind [orElse_canonical, State.setLaunch_mem, State.setRegion_mem, fillSpawn_mem, submitChild_canonical]

/-! ### Mxt -/

theorem addRuns_canonical {part ctx : Nat} {rs : List (Nat × Nat)} {vs : List Int} {s t : State} (h : addRuns part ctx rs vs s = some t)
    (hs : Canonical s.mem) : Canonical t.mem := by
  induction rs generalizing vs s with
  | nil => cases h; exact hs
  | cons r rs ih =>
    unfold addRuns at h
    split at h
    · exact ih h (by rw [sendAdds_mem]; exact hs)
    · obtain ⟨u, hu, h⟩ := Option.bind_eq_some_iff.1 h
      exact ih h (writeRun_canonical hu hs)
@[simp] theorem writeRow_canonical {s : State} (c : Cmd) (y : AccNode) (va : Nat) (bs : List Byte) (vs : List Int) (hs : Canonical s.mem) :
    Canonical (writeRow s c y va bs vs).1.mem := by
  fun_cases writeRow <;> grind [addRuns_canonical, writeRuns_canonical]
@[simp] theorem writeRows_canonical (c : Cmd) (x : Mxt) (n : Nat) (rs : List Nat) {s : State} (hs : Canonical s.mem) :
    Canonical (writeRows c x n rs s).1.mem := by
  induction rs generalizing s with
  | nil => exact hs
  | cons r rs ih =>
    have hrow := fun y va bs vs => writeRow_canonical (s := s) c y va bs vs hs
    grind [writeRows]
@[simp] theorem drain_canonical {s : State} (c : Cmd) (m n : Nat) (hs : Canonical s.mem) : Canonical (drain s c m n).1.mem := by
  fun_cases drain <;> simp +zetaDelta [hs]
theorem release_canonical {s t : State} {lq m : Nat} {c : Cmd} {n : Nat} (h : release s lq m c n = .ok t) (hs : Canonical s.mem) :
    Canonical t.mem := by
  revert h
  fun_cases release <;> grind [endRelease_mem, drain_canonical, disownCmd_mem, freeNode_mem, setOut_mem]
@[simp] theorem mxAccept_canonical (s : State) (c : Cmd) (hs : Canonical s.mem) : WordCanonical (mxAccept s c) := by simp [mxAccept, hs]
theorem startCount_canonical (s : State) (lq m : Nat) (c : Cmd) {t : State} (h : startCount s lq m c = .ok t) (hs : Canonical s.mem) :
    Canonical t.mem := by
  revert h
  fun_cases startCount <;> grind [State.setMx_mem, mxAbort_mem, mxDone_mem, release_canonical]
@[simp] theorem startCommand_canonical (s : State) (lq m : Nat) (c : Cmd) (hs : Canonical s.mem) :
    Canonical (startCommand s lq m c).mem := by
  fun_cases startCommand <;> grind [orElse_canonical, noteHold_mem, markStarted_mem, mxAbort_mem, release_canonical, startCount_canonical,
    startInit_mem, startPolicy_mem]
@[simp] theorem doPart_canonical {s : State} (lq m : Nat) (c : Cmd) (hs : Canonical s.mem) : Canonical (doPart s lq m c).mem := by
  have hd := drain_canonical (s := s.setMx lq m ((s.quadOf lq).mx m).slotFreed) c m c.nodeNo hs
  fun_cases doPart <;> simp +zetaDelta [hs, hd]
@[simp] theorem mmaEnd_canonical (s : State) (lq m : Nat) (c : Cmd) (hs : Canonical s.mem) : Canonical (mmaEnd s lq m c).mem := by
  fun_cases mmaEnd <;> grind [orElse_canonical, mxDone_mem, release_canonical]
@[simp] theorem afterGroup_canonical (s : State) (lq m : Nat) (c : Cmd) (step : Nat) (hs : Canonical s.mem) :
    Canonical (afterGroup s lq m c step).mem := by
  fun_cases afterGroup <;> simp +zetaDelta [hs]
@[simp] theorem doGroup_canonical (s : State) (lq m : Nat) (c : Cmd) (step : Nat) (hs : Canonical s.mem) :
    Canonical (doGroup s lq m c step).mem := by
  fun_cases doGroup <;> simp +zetaDelta [hs]

end Sys2Proof.Machine
end

section
/-! SUPPORT. What writes memory keeps its canonical form: pre-emption, resets, registers, boot and collectives. -/

namespace Sys2Proof.Machine

/-! ### Preempt -/

@[simp] theorem writePages_canonical (im : Image) (fuel i : Nat) (bs : List Byte) {s : State} (hs : Canonical s.mem) :
    Canonical (writePages im fuel i bs s).mem := by
  fun_induction writePages <;> simp_all
@[simp] theorem completeImage_canonical (s : State) (k : Nat) (im : Image) (hs : Canonical s.mem) :
    Canonical (completeImage s k im).mem := by simp [completeImage, hs]
@[simp] theorem settleImage_canonical (s : State) (k : Nat) (im : Image) (hs : Canonical s.mem) : Canonical (settleImage s k im).mem := by
  fun_cases settleImage <;> simp +zetaDelta [hs]
@[simp] theorem readQuad_canonical {s : State} (k lq : Nat) (l : Launch) (im : Image) (hs : Canonical s.mem) :
    Canonical (readQuad s k lq l im).mem := by
  fun_cases readQuad <;> simp +zetaDelta [hs]
@[simp] theorem freezeLaunch_canonical {s : State} (n : Nat) (l : Launch) (cause : Nat) (pages : List Nat) (hs : Canonical s.mem) :
    Canonical (freezeLaunch s n l cause pages).mem := by
  have htaken : ∀ (qs : List Nat) (im : Image) (u : State), (qs.foldl (fun (a : Image × State) lq => takeMx l.allCtxs a.1 lq a.2)
      (qs.foldl (fun (a : Image × State) lq => takeQueued l.allCtxs a.1 lq a.2) (im, qs.foldl (stopCounts l.allCtxs) u))).2.mem = u.mem :=
        fun qs im u => by
    rw [foldl_keeps (fun a : Image × State => a.2.mem) _ fun a lq => takeMx_mem ..,
      foldl_keeps (fun a : Image × State => a.2.mem) _ fun a lq => takeQueued_mem ..]
    exact foldl_keeps State.mem _ (fun s lq => stopCounts_mem ..) _ _
  unfold freezeLaunch
  dsimp only
  split
  · refine settleImage_canonical _ _ _ (putImage_canonical _ _ _ ?_)
    rw [State.setLaunch_mem, htaken, ownLate_mem]
    exact hs
  · refine foldl_canonical (fun s lq hs => ?_) _ (putImage_canonical _ _ _ ?_)
    · split
      · exact readQuad_canonical _ lq l _ hs
      · exact hs
    · rw [State.setLaunch_mem, htaken, ownLate_mem]
      exact hs
@[simp] theorem readStruck_canonical (s : State) (k lq : Nat) (l : Launch) (im : Image) (hs : Canonical s.mem) :
    Canonical (readStruck s k lq l im).mem := by
  fun_cases readStruck <;> grind [freeValue_mem, endLaunch_canonical, readQuad_canonical]
@[simp] theorem restoreImage_canonical {s : State} (k n : Nat) (im : Image) (l : Launch) (hs : Canonical s.mem) :
    Canonical (restoreImage s k n im l).mem := by
  unfold restoreImage
  refine putImage_canonical _ k _ ?_
  rw [State.setLaunch_mem, foldl_keeps State.mem _ fun s e => restoreQueued_mem ..,
    foldl_keeps State.mem _ fun s e => restoreChannel_mem ..,
    foldl_keeps State.mem _ fun s e => restoreMx_mem .., foldl_keeps State.mem _ fun s e => restoreCfg_mem ..,
    foldl_keeps State.mem _ fun s e => State.setQueue_mem ..]
  dsimp only
  rw [foldl_keeps State.mem _ fun s e => restoreRegion_mem .., foldl_keeps State.mem _ fun s e => restoreNode_mem ..]
  exact hs
@[simp] theorem startSave_canonical (s : State) (lq q n : Nat) (l : Launch) (d : Nat) (pages : List Nat) (hs : Canonical s.mem) :
    WordCanonical (startSave s lq q n l d pages) := by
  fun_cases startSave <;> grind [State.setQueue_mem, freezeLaunch_canonical, putImage_canonical, WordCanonical]
@[simp] theorem awaitSave_canonical (s : State) (lq q d k : Nat) (hs : Canonical s.mem) : WordCanonical (awaitSave s lq q d k) := by
  fun_cases awaitSave <;> grind [State.setQueue_mem, startSave_canonical, WordCanonical]
@[simp] theorem tryLoad_canonical (s : State) (lq q d k : Nat) (first : Option Nat) (hs : Canonical s.mem) :
    WordCanonical (tryLoad s lq q d k first) := by
  fun_cases tryLoad <;> simp +zetaDelta [hs]

/-! ### Reset -/

@[simp] theorem discardWork_canonical {s : State} (p : Nat) (hs : Canonical s.mem) : Canonical (discardWork s p).mem := by
  unfold discardWork
  dsimp only
  rw [State.setPart_mem]
  dsimp only
  rw [foldl_keeps State.mem _ fun s lq => State.setQuad_mem ..]
  exact foldl_canonical (fun s e hs => putImage_canonical s e.1 _ hs) _ hs
@[simp] theorem startReset_canonical (s : State) (p : Nat) (hs : Canonical s.mem) : Canonical (startReset s p).mem := by
  fun_cases startReset <;> grind [discardWork_canonical, stopLaunches_mem]

/-! ### Registers -/

@[simp] theorem writeReg_canonical (s : State) (r : Reg) (v : Word64) (hs : Canonical s.mem) : Canonical (writeReg s r v).mem := by
  fun_cases writeReg <;> simp +zetaDelta [hs]
@[simp] theorem writeAddr_canonical (s : State) (a : Nat) (v : Word64) (hs : Canonical s.mem) : Canonical (writeAddr s a v).mem := by
  fun_cases writeAddr <;> simp +zetaDelta [hs]

/-! ### Boot -/

/-- After a loss of power memory lists nothing. -/
@[simp] theorem coldReset_canonical (s : State) (powered : Bool) : Canonical (s.coldReset powered).mem := rfl
@[simp] theorem runFirmware_canonical {s : State} (slot : Nat) (writes : List RegWrite) (hs : Canonical s.mem) :
    Canonical (runFirmware s slot writes).mem := by
  unfold runFirmware
  exact foldl_canonical (fun s w hs => writeAddr_canonical s w.addr w.value hs) _ hs
@[simp] theorem bootRom_canonical (s : State) (writes : List RegWrite) (hs : Canonical s.mem) : Canonical (bootRom s writes).mem := by
  fun_cases bootRom <;> simp +zetaDelta [hs]

/-! ### Cru -/

@[simp] theorem deliverHere_canonical (s : State) (x : Delivery) (served : List Nat) (l : Leaf) (hs : Canonical s.mem) :
    Canonical (deliverHere s x served l).mem := by
  fun_cases deliverHere <;> grind [abort_mem, complete_mem, ownedBy_mem, writeVa_canonical, disownCmd_mem, edgeFlags_mem]
@[simp] theorem deliverLeaf_canonical (s : State) (x : Delivery) (served : List Nat) (l : Leaf) (hs : Canonical s.mem) :
    Canonical (deliverLeaf s x served l).mem := by
  fun_cases deliverLeaf <;> simp +zetaDelta [hs]
@[simp] theorem store_canonical (i : CollInst) {s : State} (hs : Canonical s.mem) : Canonical (i.store s).mem := by
  unfold CollInst.store
  exact foldl_canonical (fun s e hs => scramble_canonical s e.1 _ hs) _ hs
@[simp] theorem setInst_canonical (s : State) (p : Nat) (i : CollInst) (hs : Canonical s.mem) :
    Canonical (s.setInst p i).mem := by simp [State.setInst, hs]
@[simp] theorem deliverAll_canonical {s : State} (p : Nat) (i : CollInst) (x : Delivery) (hs : Canonical s.mem) :
    Canonical (deliverAll s p i x).mem := by
  unfold deliverAll
  dsimp only
  rw [settleFixes_mem]
  exact setInst_canonical _ p _ (foldl_canonical (fun s l hs => deliverLeaf_canonical s x i.served l hs) _ hs)
@[simp] theorem deliverFull_canonical (s : State) (p : Nat) (i : CollInst) (hs : Canonical s.mem) :
    Canonical (deliverFull s p i).mem := by simp [deliverFull, hs]
@[simp] theorem settleInst_canonical (s : State) (p : Nat) (i : CollInst) (hs : Canonical s.mem) : Canonical (settleInst s p i).mem := by
  fun_cases settleInst <;> simp +zetaDelta [hs]
@[simp] theorem deliverPartial_canonical (s : State) (p : Nat) (i : CollInst) (x : Delivery) (hs : Canonical s.mem) :
    Canonical (deliverPartial s p i x).mem := by
  fun_cases deliverPartial <;> simp +zetaDelta [hs]
@[simp] theorem atDeadline_canonical (s : State) (p : Nat) (i : CollInst) (hs : Canonical s.mem) : Canonical (atDeadline s p i).mem := by
  fun_cases atDeadline <;> simp +zetaDelta [hs]
@[simp] theorem mismatch_canonical (s : State) (p : Nat) (i : CollInst) (l : Leaf) (hs : Canonical s.mem) :
    Canonical (mismatch s p i l).mem := by
  fun_cases mismatch <;> grind [setInst_canonical, deliverAll_canonical, deliverLeaf_canonical]
@[simp] theorem joinLeaf_canonical (s : State) (p : Nat) (i : CollInst) (l : Leaf) (hs : Canonical s.mem) :
    Canonical (joinLeaf s p i l).mem := by
  fun_cases joinLeaf <;> simp +zetaDelta [hs]
theorem openInst_canonical (s : State) (p : Nat) (l : Leaf) {t : State} (h : openInst s p l = some t) (hs : Canonical s.mem) :
    Canonical t.mem := by
  revert h
  fun_cases openInst <;> grind [refuseLeaf_mem, atDeadline_canonical, joinLeaf_canonical]
theorem rootLeaf_canonical {s t : State} {p : Nat} {l : Leaf} (h : rootLeaf s p l = some t) (hs : Canonical s.mem) : Canonical t.mem := by
  revert h
  fun_cases rootLeaf
  case case3 s1 =>
    have h1 : Canonical s1.mem := by
      show Canonical (ite _ _ _ : State).mem
      split <;> simp [hs]
    intro h
    obtain ⟨j, -, rfl⟩ := Option.map_eq_some_iff.1 h
    exact joinLeaf_canonical s1 p j l h1
  case case4 =>
    intro h
    obtain ⟨u, hu, rfl⟩ := Option.map_eq_some_iff.1 h
    rw [partWith_mem]
    exact openInst_canonical _ _ _ hu hs
  all_goals grind [refuseLeaf_mem, openInst_canonical]
@[simp] theorem chooseFix_canonical (s : State) (p : Nat) (i : CollInst) (c : Cmd) (choice : Nat) (hs : Canonical s.mem) :
    Canonical (chooseFix s p i c choice).mem := by
  fun_cases chooseFix <;> simp +zetaDelta [hs]
theorem rootFix_canonical (s : State) (p : Nat) (c : Cmd) (gid seq choice : Nat) {t : State} (h : rootFix s p c gid seq choice = some t)
    (hs : Canonical s.mem) : Canonical t.mem := by
  revert h
  fun_cases rootFix <;> grind [finishFix_mem, refuseFix_mem, chooseFix_canonical]
theorem rootItem_canonical (s : State) (p : Nat) (x0 : CruItem) {t : State} (h : rootItem s p x0 = some t) (hs : Canonical s.mem) :
    Canonical t.mem := by
  revert h
  fun_cases rootItem <;> grind [rootFix_canonical, rootLeaf_canonical]
theorem firstActing_canonical {s t : State} {p k j : Nat} {xs : List CruItem} (h : firstActing s p k xs = some (j, t))
    (hs : Canonical s.mem) : Canonical t.mem := by
  induction xs generalizing k with
  | nil => cases h
  | cons x xs ih =>
    unfold firstActing at h
    split at h
    · next hx => cases h; exact rootItem_canonical _ _ _ hx hs
    · exact ih h
@[simp] theorem settleRoot_canonical (p fuel : Nat) {s : State} (hs : Canonical s.mem) : Canonical (settleRoot p fuel s).mem := by
  induction fuel generalizing s with
  | zero => exact hs
  | succ fuel ih =>
    unfold settleRoot
    split
    · exact hs
    · next h =>
      refine ih ?_
      rw [State.setPart_mem]
      exact firstActing_canonical h hs
@[simp] theorem comeToRoot_canonical (s : State) (p : Nat) (x : CruItem) (hs : Canonical s.mem) : Canonical (comeToRoot s p x).mem := by
  fun_cases comeToRoot
  grind [State.setPart_mem, rootItem_canonical, settleRoot_canonical]
@[simp] theorem recallAbroad_canonical (p gid seq fuel : Nat) {s : State} (hs : Canonical s.mem) :
    Canonical (recallAbroad p gid seq fuel s).mem := by
  induction fuel generalizing s with
  | zero => exact hs
  | succ fuel ih =>
    unfold recallAbroad
    dsimp only
    split
    · exact hs
    · exact ih (comeToRoot_canonical _ p _ hs)
@[simp] theorem arriveAtRoot_canonical (s : State) (p : Nat) (x : CruItem) (hs : Canonical s.mem) : Canonical (arriveAtRoot s p x).mem := by
  fun_cases arriveAtRoot <;> simp +zetaDelta [hs]
theorem takeNews_canonical (s : State) (p : Nat) (from' : Far) (m : CruNews) {t : State} (h : takeNews s p from' m = .ok t)
    (hs : Canonical s.mem) : Canonical t.mem := by
  revert h
  fun_cases takeNews <;> grind [sendCru_mem, State.setPart_mem, deliverHere_canonical, farPerformed_mem, fixEnded_mem, settleAbroad_mem,
    tellPerformed_mem]
@[simp] theorem cutCollectives_canonical (k p : Nat) (gids : List Nat) {s : State} (hs : Canonical s.mem) :
    Canonical (cutCollectives k p gids s).mem := by
  induction gids generalizing s with
  | nil => rw [cutCollectives, forgetParting_mem]; exact hs
  | cons gid gids ih =>
    unfold cutCollectives
    split
    · exact ih hs
    · next i _ =>
      refine ih ?_
      rw [forgetFar_mem]
      split
      · exact deliverAll_canonical p i _ (by rw [cutOff_mem]; exact hs)
      · rw [cutOff_mem]; exact hs
@[simp] theorem leafArrives_canonical (s : State) (p : Nat) (l : Leaf) (hs : Canonical s.mem) : Canonical (leafArrives s p l).mem := by
  fun_cases leafArrives <;> grind [arriveAtRoot_canonical, atDeadline_canonical, sendAbroad_mem, settleAbroad_mem]
@[simp] theorem fixArrives_canonical (s : State) (p : Nat) (c : Cmd) (g q choice : Nat) (hs : Canonical s.mem) :
    Canonical (fixArrives s p c g q choice).mem := by
  fun_cases fixArrives <;> grind [State.setPart_mem, comeToRoot_canonical, fixAbroad_mem]

end Sys2Proof.Machine
end

section
/-! SUPPORT. What writes memory keeps its canonical form: grammar engines, video streams, links and the host. -/

namespace Sys2Proof.Machine

/-! ### Integer -/

@[simp] theorem intOne_canonical (i : Instr) (f : Fab) (s : State) (op : Lane → Lane) (hs : Canonical s.mem) :
    OutCanonical (intOne i f s op) := by
  fun_cases intOne
  grind [computeFire_canonical]
@[simp] theorem intTwo_canonical (i : Instr) (f : Fab) (s : State) (op : Lane → Lane → Lane) (hs : Canonical s.mem) :
    OutCanonical (intTwo i f s op) := by
  fun_cases intTwo
  grind [computeFire_canonical]
@[simp] theorem intVals_canonical (i : Instr) (f : Fab) (s : State) (op : Int → Int → Int) (hs : Canonical s.mem) :
    OutCanonical (intVals i f s op) := by
  fun_cases intVals
  grind [intTwo_canonical]
@[simp] theorem intBits_canonical (i : Instr) (f : Fab) (s : State) (op : Nat → Nat → Nat) (hs : Canonical s.mem) :
    OutCanonical (intBits i f s op) := by
  fun_cases intBits
  grind [intTwo_canonical]
@[simp] theorem intCount_canonical (i : Instr) (f : Fab) (s : State) (op : Nat → Nat → Nat) (hs : Canonical s.mem) :
    OutCanonical (intCount i f s op) := by
  fun_cases intCount
  grind [intOne_canonical]

/-! ### FloatOps -/

@[simp] theorem floatOne_canonical (i : Instr) (f : Fab) (s : State) (op : Lane → Flagged Lane) (hs : Canonical s.mem) :
    OutCanonical (floatOne i f s op) := by
  fun_cases floatOne
  grind [computeFire_canonical]
@[simp] theorem floatTwo_canonical (i : Instr) (f : Fab) (s : State) (op : Lane → Lane → Flagged Lane) (hs : Canonical s.mem) :
    OutCanonical (floatTwo i f s op) := by
  fun_cases floatTwo
  grind [computeFire_canonical]

/-! ### Gme -/

@[simp] theorem loadTables_canonical (s : State) (hall g : Nat) (c : Cmd) (h : GmHeader) (hs : Canonical s.mem) :
    PerformedCanonical (loadTables s hall g c h) := by
  fun_cases loadTables <;> simp +zetaDelta [hs]
@[simp] theorem gmeLoad_canonical (s : State) (hall : Nat) (c : Cmd) (hs : Canonical s.mem) : PerformedCanonical (gmeLoad s hall c) := by
  fun_cases gmeLoad <;> grind [setLast_mem, loadTables_canonical, PerformedCanonical]
theorem slotBroken_stops_canonical {s : State} {hall part g : Nat} {p : Performed} (h : slotBroken s hall part g = .inl p)
    (hs : Canonical s.mem) : PerformedCanonical p := by
  revert h
  fun_cases slotBroken <;> grind [PerformedCanonical, State.setSlot_mem, freeValue_mem]
theorem slotBroken_goesOn_canonical {s t : State} {hall part g : Nat} (h : slotBroken s hall part g = .inr t) (hs : Canonical s.mem) :
    Canonical t.mem := by
  revert h
  fun_cases slotBroken <;> grind [freeValue_mem]
@[simp] theorem maskAll_canonical (hall g : Nat) (c : Cmd) (x : GmeSlot) (b : Nat) (rs : List SeqRec) {s : State} (hs : Canonical s.mem) :
    PerformedCanonical (maskAll hall g c x b rs s) := by
  induction rs generalizing b s with
  | nil => exact hs
  | cons r rs ih =>
    unfold maskAll
    split
    · exact trivial
    · exact hs
    · next h => exact ih _ (by rw [countCache_mem]; exact writeVa_canonical h hs)
@[simp] theorem gmeMask_canonical {s : State} (hall : Nat) (c : Cmd) (hs : Canonical s.mem) : PerformedCanonical (gmeMask s hall c) := by
  fun_cases gmeMask
  case case3 => exact trivial
  case case5 h => exact slotBroken_stops_canonical h hs
  case case6 h => exact maskAll_canonical _ _ _ _ _ _ (slotBroken_goesOn_canonical h hs)
  all_goals exact hs
/-- The answer of a walk over a batch, read off its equation. -/
theorem performed_of_eq {x : Performed × Option Nat} {p : Performed} {b : Option Nat} (h : x = (p, b)) (hx : PerformedCanonical x.1) :
    PerformedCanonical p := by
  cases h
  exact hx
@[simp] theorem sampleAll_canonical (hall g : Nat) (c : Cmd) (x : GmeSlot) (k : GmeCfg) (b : Nat) (rs : List SeqRec) {s : State}
    (low : Option Nat) (hs : Canonical s.mem) : PerformedCanonical (sampleAll hall g c x k b rs s low).1 := by
  induction rs generalizing b s low with
  | nil => exact hs
  | cons r rs ih =>
    unfold sampleAll
    dsimp only
    split
    · exact trivial
    · exact hs
    · exact trivial
    · exact hs
    · split
      · exact trivial
      · exact hs
      · next h =>
        refine ih _ _ ?_
        have h1 := writeVa_canonical h hs
        split <;> exact h1
@[simp] theorem gmeSample_canonical {s : State} (hall : Nat) (c : Cmd) (hs : Canonical s.mem) :
    PerformedCanonical (gmeSample s hall c) := by
  fun_cases gmeSample
  case case6 => exact trivial
  case case9 hb => exact slotBroken_stops_canonical hb hs
  case case10 hb _ _ hx =>
    show Canonical (State.setLast _ _ _).mem
    rw [setLast_mem]
    exact performed_of_eq hx (sampleAll_canonical _ _ _ _ _ _ _ _ (slotBroken_goesOn_canonical hb hs))
  case case11 hb _ _ _ hx =>
    exact performed_of_eq hx (sampleAll_canonical _ _ _ _ _ _ _ _ (slotBroken_goesOn_canonical hb hs))
  all_goals exact hs
theorem writeRec_canonical (s : State) (a : Access) (va : Nat) (r : SeqRec) {t : State} (h : writeRec s a va r = .done t)
    (hs : Canonical s.mem) : Canonical t.mem := by
  revert h
  fun_cases writeRec <;> grind [writeVa_canonical]
@[simp] theorem stepAll_canonical (hall g : Nat) (c : Cmd) (x : GmeSlot) (b : Nat) (rs : List SeqRec) {s : State} (low : Option Nat)
    (hs : Canonical s.mem) : PerformedCanonical (stepAll hall g c x b rs s low).1 := by
  induction rs generalizing b s low with
  | nil => exact hs
  | cons r rs ih =>
    unfold stepAll
    dsimp only
    split
    · exact trivial
    · exact hs
    · split
      · exact trivial
      · exact hs
      · next s1 h =>
        have h1 : Canonical s1.mem := by
          revert h
          split
          · exact fun h => writeRec_canonical _ _ _ _ h hs
          · intro h; cases h; exact hs
        split
        · exact trivial
        · exact h1
        · next h =>
          refine ih _ _ ?_
          have h2 := writeVa_canonical h h1
          split <;> exact h2
@[simp] theorem gmeStep_canonical {s : State} (hall : Nat) (c : Cmd) (hs : Canonical s.mem) : PerformedCanonical (gmeStep s hall c) := by
  fun_cases gmeStep
  case case3 => exact trivial
  case case5 hb => exact slotBroken_stops_canonical hb hs
  case case6 hb _ _ hx =>
    show Canonical (State.setLast _ _ _).mem
    rw [setLast_mem]
    exact performed_of_eq hx (stepAll_canonical _ _ _ _ _ _ _ (slotBroken_goesOn_canonical hb hs))
  case case7 hb _ _ _ hx =>
    exact performed_of_eq hx (stepAll_canonical _ _ _ _ _ _ _ (slotBroken_goesOn_canonical hb hs))
  all_goals exact hs
@[simp] theorem gmeConfig_canonical (s : State) (hall : Nat) (c : Cmd) (hs : Canonical s.mem) :
    PerformedCanonical (gmeConfig s hall c) := by
  fun_cases gmeConfig <;> simp +zetaDelta [hs]
@[simp] theorem gmeStat_canonical (s : State) (hall : Nat) (c : Cmd) (hs : Canonical s.mem) : PerformedCanonical (gmeStat s hall c) := by
  fun_cases gmeStat <;> simp +zetaDelta [hs]
@[simp] theorem gmePerform_canonical (s : State) (hall : Nat) (c : Cmd) (hs : Canonical s.mem) :
    PerformedCanonical (gmePerform s hall c) := by
  fun_cases gmePerform <;> grind [gmeConfig_canonical, gmeLoad_canonical, gmeMask_canonical, gmeSample_canonical, gmeStat_canonical,
    gmeStep_canonical]
@[simp] theorem gmeFinish_canonical {s : State} (c : Cmd) {r : Performed} (hs : Canonical s.mem) (hr : PerformedCanonical r) :
    Canonical (gmeFinish s c r).mem := by
  cases r <;> simp only [PerformedCanonical] at hr <;> grind [gmeFinish, noteHold_mem, abort_mem, ownedBy_mem, complete_mem]
@[simp] theorem gmeAccept_canonical (s : State) (c : Cmd) (hs : Canonical s.mem) : WordCanonical (gmeAccept s c) := by simp [gmeAccept, hs]

/-! ### Vie -/

@[simp] theorem vieOpen_canonical (s : State) (c : Cmd) (hs : Canonical s.mem) : WordCanonical (vieOpen s c) := by
  fun_cases vieOpen <;> simp +zetaDelta [hs]
@[simp] theorem vieBind_canonical (s : State) (c : Cmd) (hs : Canonical s.mem) : WordCanonical (vieBind s c) := by
  fun_cases vieBind <;> simp +zetaDelta [hs]
@[simp] theorem vieClose_canonical (s : State) (c : Cmd) (hs : Canonical s.mem) : WordCanonical (vieClose s c) := by
  fun_cases vieClose <;> simp +zetaDelta [hs]
theorem writePlane_canonical {a : Access} {va pitch len n r : Nat} {bs : List Byte} {s t : State}
    (h : writePlane a va pitch len n r bs s = .done t) (hs : Canonical s.mem) : Canonical t.mem := by
  induction n generalizing r bs s with
  | zero => cases h; exact hs
  | succ n ih =>
    unfold writePlane at h
    split at h
    · next hw => exact ih h (writeVa_canonical hw hs)
    · next hn => exact absurd h (hn t)
theorem writeFrame_canonical (s : State) (n : Nat) (x : Stream) (f : Frame) (va : Nat) {t : State} (h : writeFrame s n x f va = .done t)
    (hs : Canonical s.mem) : Canonical t.mem := by
  revert h
  fun_cases writeFrame <;> grind [writePlane_canonical]
theorem placeFrame_canonical (s : State) (n : Nat) (x : Stream) (f : Frame) (lo hi : Nat) (disc : Bool) {t : State}
    (h : placeFrame s n x f lo hi disc = .ok t) (hs : Canonical s.mem) : Canonical t.mem := by
  revert h
  fun_cases placeFrame <;> grind [dropOwnReads_mem, ownedBy_mem, State.setStream_mem, frameFault_mem, queueFrame_mem, writeFrame_canonical]
theorem decodedFrame_canonical (s : State) (n : Nat) (x : Stream) (f : Frame) (disc : Bool) {t : State}
    (h : decodedFrame s n x f disc = .ok t) (hs : Canonical s.mem) : Canonical t.mem := by
  revert h
  fun_cases decodedFrame <;> grind [State.setStream_mem, placeFrame_canonical]

/-! ### Links -/

@[simp] theorem loseCollectives_canonical (k : Nat) (s : State) (p : Nat) (hs : Canonical s.mem) :
    Canonical (loseCollectives k s p).mem := by
  fun_cases loseCollectives <;> simp +zetaDelta [hs]
@[simp] theorem losePort_canonical {s : State} (k : Nat) (hs : Canonical s.mem) : Canonical (losePort s k).mem := by
  simp only [losePort, foldl_keeps State.mem _ (fun s (o : PeerOut) => sendNext_mem s o.part o.node), failAll_mem,
    foldl_keeps State.mem _ (tellLost_mem k)]
  exact foldl_canonical (loseCollectives_canonical k) _ hs
@[simp] theorem tryLose_canonical (s : State) (k : Nat) (hs : Canonical s.mem) : Canonical (tryLose s k).mem := by
  fun_cases tryLose <;> simp +zetaDelta [hs]
@[simp] theorem takeTsync_canonical (s : State) (k t1 t2 t3 : Nat) (hs : Canonical s.mem) : Canonical (takeTsync s k t1 t2 t3).mem := by
  fun_cases takeTsync <;> grind [State.setPort_mem, writeAt_canonical]
@[simp] theorem transaction_canonical (s : State) (k : Nat) (h cont : List Byte) (hs : Canonical s.mem) :
    Canonical (transaction s k h cont).mem := by
  fun_cases transaction <;> simp +zetaDelta [hs]
@[simp] theorem intactFlit_canonical (s : State) (k : Nat) (f : List Byte) (hs : Canonical s.mem) : Canonical (intactFlit s k f).mem := by
  fun_cases intactFlit <;> grind [State.setPort_mem, transaction_canonical]
@[simp] theorem putParts_canonical (ws : List ByteWrite) (got : List (Nat × Byte)) (ps : List (Nat × Nat × Nat)) {s : State}
    (hs : Canonical s.mem) : Canonical (putParts ws got s ps).mem := by
  induction ps generalizing s with
  | nil => exact hs
  | cons p ps ih => exact ih (writeAt_canonical _ _ hs)
@[simp] theorem performPeer_canonical {s : State} (h : FlitHeader) (f : StFmt) (ps : List (Nat × Nat × Nat)) (hs : Canonical s.mem) :
    PeerCanonical (performPeer s h f ps) := by
  have hr : (ps.foldl (fun s p => readUpset s p.1) s).mem = s.mem :=
    foldl_keeps State.mem _ (fun s (p : Nat × Nat × Nat) => readUpset_mem s p.1) _ _
  have hm (t : State) : (ps.foldl (fun s p => s.markGranule p.1 true) t).mem = t.mem :=
    foldl_keeps State.mem _ (fun s (p : Nat × Nat × Nat) => State.markGranule_mem s p.1 true) _ _
  fun_cases performPeer <;> grind [PeerCanonical, putParts_canonical]
@[simp] theorem passOn_canonical {s : State} (k : Nat) (h : FlitHeader) (f : StFmt) (bs : List Byte) (ps : List (Nat × Nat × Nat))
    (hs : Canonical s.mem) : PeerCanonical (passOn s k h f bs ps) := by
  have hp := performPeer_canonical h f (ps.filter fun p => !inPeer s (p.1, p.2.2)) hs
  unfold passOn
  dsimp only
  split
  · next s1 got bad e =>
    rw [e] at hp
    split
    · exact hp
    · show Canonical (List.foldl _ _ _ : State).mem
      rw [foldl_keeps State.mem _ (passPart_mem h f _)]
      exact hp
  · exact hp
@[simp] theorem servePeer_canonical (s : State) (k : Nat) (h : FlitHeader) (bs : List Byte) (hs : Canonical s.mem) :
    PeerCanonical (servePeer s k h bs) := by
  fun_cases servePeer <;> grind [passOn_canonical, PeerCanonical]
@[simp] theorem serveCru_canonical (s : State) (k : Nat) (h : FlitHeader) (bs : List Byte) (hs : Canonical s.mem) :
    PeerCanonical (serveCru s k h bs) := by
  fun_cases serveCru <;> grind [State.setPort_mem, takeNews_canonical, PeerCanonical]
@[simp] theorem serve_canonical (s : State) (k : Nat) (h : FlitHeader) (bs : List Byte) (hs : Canonical s.mem) :
    PeerCanonical (serve s k h bs) := by
  fun_cases serve <;> grind [serveCru_canonical, servePeer_canonical, PeerCanonical]
@[simp] theorem answerPeer_canonical (s : State) (k : Nat) (h : FlitHeader) (bs : List Byte) (hs : Canonical s.mem) :
    Canonical (answerPeer s k h bs).mem := by
  fun_cases answerPeer <;> grind [answer_mem, noteHold_mem, State.setPort_mem, serve_canonical, PeerCanonical]

/-! ### HostPort -/

@[simp] theorem pfAccess_canonical {s : State} (a : HostAcc) (hs : Canonical s.mem) : Canonical (pfAccess s a).mem := by
  fun_cases pfAccess
  case case3 => exact foldl_canonical (fun s a hs => writeAddr_canonical s a _ hs) _ hs
  all_goals simp +zetaDelta [hs]
theorem masterAccess_canonical (s : State) (a : Access) (va : Nat) (write : Option (List Byte)) (n : Nat) (o : PeerOwner)
    (data : List Byte → Msg) (refused : Nat → Msg) {t : State} (h : masterAccess s a va write n o data refused = .ok t)
    (hs : Canonical s.mem) : Canonical t.mem := by
  revert h
  fun_cases masterAccess <;> grind [dropReads_mem, State.emit_mem, ownedBy_mem, writeVa_canonical]
theorem windowAccess_canonical (s : State) (p off : Nat) (acc : HostAcc) {t : State} (h : windowAccess s p off acc = .ok t)
    (hs : Canonical s.mem) : Canonical t.mem := by
  revert h
  fun_cases windowAccess <;> grind [State.emit_mem, masterAccess_canonical]
theorem hostStep_canonical (s : State) (p : Nat) (x0 : HostPosted) {t : State} (h : hostStep s p x0 = .ok t) (hs : Canonical s.mem) :
    Canonical t.mem := by
  revert h
  fun_cases hostStep <;> grind [vfAccess_mem, windowAccess_canonical]
@[simp] theorem drainHost_canonical (p : Nat) (xs : List HostPosted) {s : State} (hs : Canonical s.mem) :
    Canonical (drainHost p xs s).mem := by
  induction xs generalizing s with
  | nil => exact hs
  | cons x xs ih =>
    unfold drainHost
    dsimp only
    split
    · exact hs
    · split
      · exact (noteHold_mem s _).symm ▸ hs
      · next h => exact ih (hostStep_canonical s p x h hs)
@[simp] theorem hostArrives_canonical (s : State) (p : Nat) (x : HostPosted) (hs : Canonical s.mem) :
    Canonical (hostArrives s p x).mem := by simp [hostArrives, hs]
@[simp] theorem drainHosts_canonical {s : State} (hs : Canonical s.mem) : Canonical (drainHosts s).mem :=
  foldl_canonical (fun _ e hs => drainHost_canonical e.1 e.2 hs) _ hs
@[simp] theorem coreAccess_canonical (s : State) (n p : Nat) (acc : HostAcc) (hs : Canonical s.mem) :
    Canonical (coreAccess s n p acc).mem := by
  fun_cases coreAccess
  grind [orElse_canonical, masterAccess_canonical]

/-! ### LaneOps -/

@[simp] theorem laneMove_canonical (i : Instr) (f : Fab) (s : State) (mv : Firing → Lanes → Lanes) (hs : Canonical s.mem) :
    OutCanonical (laneMove i f s mv) := by
  fun_cases laneMove
  grind [computeFire_canonical]

/-! ### Scalar -/

@[simp] theorem scalarWord_canonical (op : Nat) (h : Hdr) (o : OpA) (s : State) (f : Word64 → Word64 → Word64) (hs : Canonical s.mem) :
    OutCanonical (scalarWord op h o s f) := by
  fun_cases scalarWord
  grind [regWord_canonical]

/-! ### SystemWords -/

theorem systemWord_canonical {raw : Nat} {h : Hdr} {s : State} {f : State → Nat → Nat → Queue → WordResult}
    (hf : ∀ s lq q x, Canonical s.mem → WordCanonical (f s lq q x)) (hs : Canonical s.mem) : OutCanonical (systemWord raw h s f) := by
  refine runWord_canonical (fun lq q x => ?_) hs
  split
  · exact hf s lq q x hs
  · split
    · exact hs
    · exact hf _ lq q x (by rw [served_mem]; exact hs)

end Sys2Proof.Machine
end

section
/-! SUPPORT. Every instruction keeps the canonical form of memory. -/

namespace Sys2Proof.Machine

/-! ### MemOps -/

theorem execPublish_canonical (f : Fab) {s : State} (hs : Canonical s.mem) : OutCanonical (execPublish f s) := by
  refine fireWith_canonical (fun s rid slot ctx fr hs => ?_) (fun s rid slot fr t => ?_) (fun s rid slot t => ?_) hs
  all_goals grind [publishFor_mem, faultBy_mem, raiseToken_mem, toBoth_mem]
theorem execWptr_canonical (f : Fab) {s : State} (hs : Canonical s.mem) : OutCanonical (execWptr f s) := by
  refine fire_canonical (fun s rid slot ctx fr hs => ?_) hs
  grind [toBoth_mem]
theorem execWaitwp_canonical (f : Fab) {s : State} (hs : Canonical s.mem) : OutCanonical (execWaitwp f s) := by
  refine fire_canonical (fun s rid slot ctx fr hs => ?_) hs
  grind [toBoth_mem]

/-! ### MemTile -/

theorem execMemoryRequestAccept_canonical (lq mt : Nat) {s : State} (hs : Canonical s.mem) :
    OutCanonical (execMemoryRequestAccept lq mt s) := by
  fun_cases execMemoryRequestAccept <;> simp +zetaDelta [hs]
theorem execPageWalkComplete_canonical (pq n : Nat) {s : State} (hs : Canonical s.mem) : OutCanonical (execPageWalkComplete pq n s) := by
  have hl (w : Walked) (es : List (Nat × MissEntry)) :
    (es.foldl (landWalk w) s).mem = s.mem := foldl_keeps State.mem _ (landWalk_mem w) s es
  fun_cases execPageWalkComplete <;> simp [hs, hl]
theorem execAccessPerformAtHome_canonical (id : Nat) {s : State} (hs : Canonical s.mem) : OutCanonical (execAccessPerformAtHome id s) := by
  fun_cases execAccessPerformAtHome <;> simp +zetaDelta [hs]
theorem execRmwPipelineUpdate_canonical (id : Nat) {s : State} (hs : Canonical s.mem) : OutCanonical (execRmwPipelineUpdate id s) := by
  fun_cases execRmwPipelineUpdate <;> simp [hs]
theorem execMtReplyRelease_canonical (rid slot : Nat) {s : State} (hs : Canonical s.mem) :
    OutCanonical (execMtReplyRelease rid slot s) := by
  fun_cases execMtReplyRelease <;> grind [deliver_mem, State.setRegion_mem, OutCanonical]

/-! ### Pse -/

theorem execPseCommandPerform_canonical (hall tree : Nat) {s : State} (hs : Canonical s.mem) :
    OutCanonical (execPseCommandPerform hall tree s) := by
  fun_cases execPseCommandPerform <;> grind [pseFinish_canonical, psePerform_canonical, pseTake_mem, OutCanonical]
theorem execStstat_canonical (h : Hdr) (o : OpE) {s : State} (hs : Canonical s.mem) : OutCanonical (execStstat h o s) := by
  refine engineWord_canonical (fun s c hs => ?_) hs
  grind [State.setQueue_mem, awaitAnswer_canonical, pseEnqueue_mem, WordCanonical]

/-! ### Bce -/

theorem execBceCommandStart_canonical (lq ch : Nat) {s : State} (hs : Canonical s.mem) : OutCanonical (execBceCommandStart lq ch s) := by
  fun_cases execBceCommandStart <;> simp +zetaDelta [hs]
theorem execBceGranuleTransfer_canonical (lq ch : Nat) {s : State} (hs : Canonical s.mem) :
    OutCanonical (execBceGranuleTransfer lq ch s) := by
  fun_cases execBceGranuleTransfer <;> simp [hs]
theorem execBceCommandComplete_canonical (lq ch : Nat) {s : State} (hs : Canonical s.mem) :
    OutCanonical (execBceCommandComplete lq ch s) := by
  fun_cases execBceCommandComplete <;> simp +zetaDelta [hs]
theorem execBceResume_canonical (lq ch : Nat) {s : State} (hs : Canonical s.mem) : OutCanonical (execBceResume lq ch s) := by
  fun_cases execBceResume
  simp [hs]
theorem execBceDiscard_canonical (lq ch : Nat) {s : State} (hs : Canonical s.mem) : OutCanonical (execBceDiscard lq ch s) := by
  fun_cases execBceDiscard
  simp [hs]

/-! ### Stream -/

theorem execInput_canonical (f : Fab) {s : State} (hs : Canonical s.mem) : OutCanonical (execInput f s) := by
  refine atSlot_canonical (fun s rid slot ctx r hs => ?_) hs
  grind [State.setRegion_mem, checked_canonical, judgeFrame_mem, takeInput_canonical, unfedInput_mem]
theorem execOutput_canonical (f : Fab) {s : State} (hs : Canonical s.mem) : OutCanonical (execOutput f s) := by
  refine atSlot_canonical (fun s rid slot ctx r hs => ?_) hs
  grind [checked_canonical, outputToken_canonical, selectToken_mem]
theorem execSteer_canonical (f : Fab) {s : State} (hs : Canonical s.mem) : OutCanonical (execSteer f s) := by
  refine fire_canonical (fun s rid slot ctx fr hs => ?_) hs
  grind [toBoth_mem, toOne_mem]
theorem execLexit_canonical (f : Fab) {s : State} (hs : Canonical s.mem) : OutCanonical (execLexit f s) := by
  refine fire_canonical (fun s rid slot ctx fr hs => ?_) hs
  grind [toBoth_mem, toOne_mem]
theorem execMerge_canonical (f : Fab) {s : State} (hs : Canonical s.mem) : OutCanonical (execMerge f s) := by
  fun_cases execMerge <;> grind [atSlot_canonical, mergeStep_mem, pairedMerge_canonical]
theorem execBartok_canonical (f : Fab) {s : State} (hs : Canonical s.mem) : OutCanonical (execBartok f s) := by
  fun_cases execBartok <;> grind [atSlot_canonical, barrierArrive_mem, barrierStep_canonical, fireWith_canonical, toBoth_mem]
theorem execSpanset_canonical (f : Fab) {s : State} (hs : Canonical s.mem) : OutCanonical (execSpanset f s) := by
  refine fire_canonical (fun s rid slot ctx fr hs => ?_) hs
  simp [hs]
theorem execSpanshift_canonical (f : Fab) {s : State} (hs : Canonical s.mem) : OutCanonical (execSpanshift f s) := by
  refine fire_canonical (fun s rid slot ctx fr hs => ?_) hs
  simp [hs]
theorem execSpanclip_canonical (f : Fab) {s : State} (hs : Canonical s.mem) : OutCanonical (execSpanclip f s) := by
  refine fire_canonical (fun s rid slot ctx fr hs => ?_) hs
  simp [hs]
theorem execStale_canonical (f : Fab) {s : State} (hs : Canonical s.mem) : OutCanonical (execStale f s) := by
  refine fire_canonical (fun s rid slot ctx fr hs => ?_) hs
  grind [toBoth_mem]
/-- A firing that gives its token another span. -/
theorem fire_respan_canonical {i : Instr} {f : Fab} {ty : Port → LaneTy} {s : State} {k : Option Kind} {lo hi : Firing → Int} {o : Bool}
    (hs : Canonical s.mem) : OutCanonical (fire i f ty s fun s rid slot ctx fr => respan f k s rid slot ctx fr (lo fr) (hi fr) o) :=
  fire_canonical (fun s rid slot ctx fr hs => by rw [respan_mem]; exact hs) hs
theorem execRangeMake_canonical (f : Fab) {s : State} (hs : Canonical s.mem) : OutCanonical (execRangeMake f s) :=
  fire_respan_canonical (lo := fun fr => tickOf (fr.lanesOf .a) 0) (hi := fun fr => tickOf (fr.lanesOf .a) 2) hs
theorem execCtxnew_canonical (f : Fab) {s : State} (hs : Canonical s.mem) : OutCanonical (execCtxnew f s) := by
  refine fire_canonical (fun s rid slot ctx fr hs => ?_) hs
  grind [drawCtx_mem, toOne_mem]
theorem execCtxfree_canonical (f : Fab) {s : State} (hs : Canonical s.mem) : OutCanonical (execCtxfree f s) := by
  refine fire_canonical (fun s rid slot ctx fr hs => ?_) hs
  grind [returnCtx_mem, toBoth_mem]

/-! ### Trap -/

theorem execBrk_canonical (f : Fab) {s : State} (hs : Canonical s.mem) : OutCanonical (execBrk f s) := by
  fun_cases execBrk <;> grind [State.setRegion_mem, fireWith_canonical, holdFiring_mem, toBoth_mem, OutCanonical]
theorem execPeBrkRelease_canonical (pq pe : Nat) {s : State} (hs : Canonical s.mem) : OutCanonical (execPeBrkRelease pq pe s) := by
  fun_cases execPeBrkRelease
  simp [hs]
theorem execTokenArrival_canonical (rid slot port : Nat) {s : State} (hs : Canonical s.mem) :
    OutCanonical (execTokenArrival rid slot port s) := by
  fun_cases execTokenArrival <;> simp [hs]
theorem execSpillReturn_canonical (rid pe set : Nat) {s : State} (hs : Canonical s.mem) : OutCanonical (execSpillReturn rid pe set s) := by
  fun_cases execSpillReturn <;> simp [hs]

/-! ### Lifecycle -/

theorem execFaultRecordWrite_canonical (p : Nat) {s : State} (hs : Canonical s.mem) : OutCanonical (execFaultRecordWrite p s) := by
  fun_cases execFaultRecordWrite <;> grind [State.setPart_mem, writeRecord_canonical, afterRecord_canonical, OutCanonical]
theorem execReplayPoint_canonical (rid : Nat) {s : State} (hs : Canonical s.mem) : OutCanonical (execReplayPoint rid s) := by
  fun_cases execReplayPoint
  simp [hs]
theorem execPhaseEnd_canonical (rid : Nat) {s : State} (hs : Canonical s.mem) : OutCanonical (execPhaseEnd rid s) := by
  fun_cases execPhaseEnd <;> simp [hs]
theorem execDeadlockDetect_canonical (rid : Nat) {s : State} (hs : Canonical s.mem) : OutCanonical (execDeadlockDetect rid s) := by
  fun_cases execDeadlockDetect <;> simp +zetaDelta [hs]

/-! ### Launch -/

theorem execLaunchRecordTake_canonical (p k : Nat) {s : State} (hs : Canonical s.mem) : OutCanonical (execLaunchRecordTake p k s) := by
  fun_cases execLaunchRecordTake <;> grind [orElse_canonical, addEvent_mem, dropArbReads_mem, noteHold_mem, State.setLq_mem, struckIn_mem,
    submit_canonical, OutCanonical]
theorem execPriorityAging_canonical (n : Nat) {s : State} (hs : Canonical s.mem) : OutCanonical (execPriorityAging n s) := by
  fun_cases execPriorityAging <;> simp [hs]
theorem execLaunchStart_canonical (n : Nat) {s : State} (hs : Canonical s.mem) : OutCanonical (execLaunchStart n s) := by
  fun_cases execLaunchStart <;> simp [hs]
theorem execLaunchEnd_canonical (n : Nat) {s : State} (hs : Canonical s.mem) : OutCanonical (execLaunchEnd n s) := by
  unfold execLaunchEnd
  grind [orElse_canonical, endLaunch_canonical, mergeTasks_canonical, payRecord_canonical, OutCanonical]
theorem execReplicaAdd_canonical (n stage : Nat) {s : State} (hs : Canonical s.mem) : OutCanonical (execReplicaAdd n stage s) := by
  fun_cases execReplicaAdd <;> simp [hs]
theorem execReplicaRemove_canonical (n stage : Nat) {s : State} (hs : Canonical s.mem) : OutCanonical (execReplicaRemove n stage s) := by
  fun_cases execReplicaRemove <;> simp [hs]
theorem execRangeSplitRequest_canonical (rid slot : Nat) {s : State} (hs : Canonical s.mem) :
    OutCanonical (execRangeSplitRequest rid slot s) := by
  fun_cases execRangeSplitRequest <;> simp +zetaDelta [hs]
theorem execSpawn_canonical (f : Fab) {s : State} (hs : Canonical s.mem) : OutCanonical (execSpawn f s) := by
  fun_cases execSpawn <;> grind [noteHold_mem, fireWith_canonical, spawnAct_canonical, spawnOther_mem, OutCanonical]
theorem execLdq_canonical (h : Hdr) (o : OpA) {s : State} (hs : Canonical s.mem) : OutCanonical (execLdq h o s) := by
  refine runWord_canonical (fun lq q x => ?_) hs
  grind [freeValue_mem, noteHold_mem, State.setQueue_mem, struck_mem, staysAt_canonical, WordCanonical]
theorem execStq_canonical (h : Hdr) (o : OpA) {s : State} (hs : Canonical s.mem) : OutCanonical (execStq h o s) := by
  refine runWord_canonical (fun lq q x => ?_) hs
  grind [noteHold_mem, ownedBy_mem, writeVa_canonical, staysAt_canonical, WordCanonical]
theorem execLaunch_canonical (h : Hdr) (o : OpE) {s : State} (hs : Canonical s.mem) : OutCanonical (execLaunch h o s) := by
  refine runWord_canonical (fun lq q x => ?_) hs
  grind [noteHold_mem, State.setLq_mem, struckIn_mem, writeVa_canonical, markRecord_mem, stays_canonical, WordCanonical]
theorem execCfgload_canonical (h : Hdr) (o : OpE) {s : State} (hs : Canonical s.mem) : OutCanonical (execCfgload h o s) := by
  refine runWord_canonical (fun lq q x => ?_) hs
  grind [noteHold_mem, State.setQueue_mem, struckIn_mem, cfgPlace_mem, stays_canonical, WordCanonical]
theorem execQwait_canonical (h : Hdr) (o : OpE) {s : State} (hs : Canonical s.mem) : OutCanonical (execQwait h o s) := by
  refine runWord_canonical (fun lq q x => ?_) hs
  grind [State.setQueue_mem, stays_canonical, WordCanonical]

/-! ### Mxt -/

theorem execMxtCommandStart_canonical (lq m : Nat) {s : State} (hs : Canonical s.mem) : OutCanonical (execMxtCommandStart lq m s) := by
  fun_cases execMxtCommandStart <;> simp [hs]
theorem execMxtGroupApply_canonical (lq m : Nat) {s : State} (hs : Canonical s.mem) : OutCanonical (execMxtGroupApply lq m s) := by
  fun_cases execMxtGroupApply <;> simp [hs]
theorem execAccoutTokenEmit_canonical (lq m : Nat) {s : State} (hs : Canonical s.mem) : OutCanonical (execAccoutTokenEmit lq m s) := by
  fun_cases execAccoutTokenEmit <;> simp +zetaDelta [hs]

/-! ### Preempt -/

theorem execPreemptReadoutComplete_canonical (k lq : Nat) {s : State} (hs : Canonical s.mem) :
    OutCanonical (execPreemptReadoutComplete k lq s) := by
  fun_cases execPreemptReadoutComplete <;> simp [hs]
theorem execLateReplyIntoImage_canonical (k id : Nat) {s : State} (hs : Canonical s.mem) :
    OutCanonical (execLateReplyIntoImage k id s) := by
  fun_cases execLateReplyIntoImage <;> simp [hs]
theorem execPreemptionDecision_canonical (n : Nat) {s : State} (hs : Canonical s.mem) : OutCanonical (execPreemptionDecision n s) := by
  fun_cases execPreemptionDecision
  case case6 => exact foldl_canonical (fun s e hs => freezeLaunch_canonical e.1.1 e.1.2 1 e.2 hs) _ hs
  all_goals exact hs
theorem execLaunchRestore_canonical (n : Nat) {s : State} (hs : Canonical s.mem) : OutCanonical (execLaunchRestore n s) := by
  fun_cases execLaunchRestore <;> simp [hs]
theorem execTurnChange_canonical (pq : Nat) {s : State} (hs : Canonical s.mem) : OutCanonical (execTurnChange pq s) := by
  fun_cases execTurnChange <;> simp [hs]
theorem execYield_canonical (h : Hdr) (o : OpA) {s : State} (hs : Canonical s.mem) : OutCanonical (execYield h o s) := by
  refine runWord_canonical (fun lq q x => ?_) hs
  grind [changeTurn_mem, freezeLaunch_canonical, WordCanonical]
theorem execCtxsave_canonical (h : Hdr) (o : OpA) {s : State} (hs : Canonical s.mem) : OutCanonical (execCtxsave h o s) := by
  refine runWord_canonical (fun lq q x => ?_) hs
  grind [noteHold_mem, awaitSave_canonical, served_mem, startSave_canonical, stays_canonical, WordCanonical]
theorem execCtxload_canonical (h : Hdr) (o : OpA) {s : State} (hs : Canonical s.mem) : OutCanonical (execCtxload h o s) := by
  refine runWord_canonical (fun lq q x => ?_) hs
  grind [noteHold_mem, served_mem, stays_canonical, tryLoad_canonical, WordCanonical]

/-! ### Reset -/

theorem execPartitionResetDone_canonical (p : Nat) {s : State} (hs : Canonical s.mem) : OutCanonical (execPartitionResetDone p s) := by
  fun_cases execPartitionResetDone <;> simp [hs]

/-! ### Sync -/

theorem execWait_canonical (h : Hdr) (o : OpA) {s : State} (hs : Canonical s.mem) : OutCanonical (execWait h o s) := by
  refine runWord_canonical (fun lq q x => ?_) hs
  grind [WordCanonical]
theorem execSig_canonical (h : Hdr) (o : OpA) {s : State} (hs : Canonical s.mem) : OutCanonical (execSig h o s) := by
  refine runWord_canonical (fun lq q x => ?_) hs
  grind [State.setQuad_mem, WordCanonical]
theorem execSemset_canonical (h : Hdr) (o : OpA) {s : State} (hs : Canonical s.mem) : OutCanonical (execSemset h o s) := by
  refine runWord_canonical (fun lq q x => ?_) hs
  grind [semset_mem, WordCanonical]
theorem execNbarr_canonical (h : Hdr) (o : OpA) {s : State} (hs : Canonical s.mem) : OutCanonical (execNbarr h o s) := by
  refine runWord_canonical (fun lq q x => ?_) hs
  grind [State.setQuad_mem, WordCanonical]
theorem execNbwait_canonical (h : Hdr) (o : OpA) {s : State} (hs : Canonical s.mem) : OutCanonical (execNbwait h o s) := by
  refine runWord_canonical (fun lq q x => ?_) hs
  grind [stays_canonical, WordCanonical]
theorem execTaskdef_canonical (h : Hdr) (o : OpA) {s : State} (hs : Canonical s.mem) : OutCanonical (execTaskdef h o s) := by
  refine runWord_canonical (fun lq q x => ?_) hs
  grind [State.setQuad_mem, WordCanonical]
theorem execTaskdone_canonical (h : Hdr) (o : OpA) {s : State} (hs : Canonical s.mem) : OutCanonical (execTaskdone h o s) := by
  refine runWord_canonical (fun lq q x => ?_) hs
  grind [State.setQuad_mem, WordCanonical]
theorem execTasknext_canonical (h : Hdr) (o : OpA) {s : State} (hs : Canonical s.mem) : OutCanonical (execTasknext h o s) := by
  refine runWord_canonical (fun lq q x => ?_) hs
  grind [State.setQuad_mem, State.setQueue_mem, served_mem, stays_canonical, WordCanonical]

/-! ### Registers -/

theorem execQosWordWrite_canonical (a : Nat) (v : Word64) {s : State} (hs : Canonical s.mem) : OutCanonical (execQosWordWrite a v s) := by
  refine byCore_canonical (fun s hs => ?_) hs
  grind [writeQos_mem]

/-! ### Boot -/

/-! A loss of power and a boot begin with an empty memory. -/

theorem execThermalLimit_canonical (s : State) : OutCanonical (execThermalLimit s) := coldReset_canonical s false
theorem execModulePowerLoss_canonical (s : State) : OutCanonical (execModulePowerLoss s) := coldReset_canonical s false
theorem execPowerOnReset_canonical (writes : List RegWrite) (s : State) : OutCanonical (execPowerOnReset writes s) :=
  bootRom_canonical (s.coldReset true) writes (coldReset_canonical s true)

/-! ### Control -/

theorem execBrc_canonical (h : Hdr) (o : OpA) {s : State} (hs : Canonical s.mem) : OutCanonical (execBrc h o s) := by
  refine runWord_canonical (fun lq q x => ?_) hs
  grind [WordCanonical]
theorem execRet_canonical (h : Hdr) (o : OpA) {s : State} (hs : Canonical s.mem) : OutCanonical (execRet h o s) := by
  refine runWord_canonical (fun lq q x => ?_) hs
  grind [WordCanonical]
theorem execLoop_canonical (h : Hdr) (o : OpA) {s : State} (hs : Canonical s.mem) : OutCanonical (execLoop h o s) := by
  refine runWord_canonical (fun lq q x => ?_) hs
  grind [State.setQueue_mem, WordCanonical]

/-! ### Cru -/

theorem execCruLeafArrival_canonical (p n : Nat) {s : State} (hs : Canonical s.mem) : OutCanonical (execCruLeafArrival p n s) := by
  fun_cases execCruLeafArrival <;> grind [noteHold_mem, State.setPart_mem, fixArrives_canonical, leafArrives_canonical, startCred_mem,
    OutCanonical]
theorem execCruDeadline_canonical (p gid : Nat) {s : State} (hs : Canonical s.mem) : OutCanonical (execCruDeadline p gid s) := by
  fun_cases execCruDeadline <;> simp +zetaDelta [hs]

/-! ### Gme -/

theorem execGmeCommandPerform_canonical (hall : Nat) {s : State} (hs : Canonical s.mem) : OutCanonical (execGmeCommandPerform hall s) := by
  fun_cases execGmeCommandPerform <;> grind [State.setHall_mem, gmeFinish_canonical, gmePerform_canonical, gmeStruck_mem, OutCanonical]
theorem execGmstat_canonical (h : Hdr) (o : OpE) {s : State} (hs : Canonical s.mem) : OutCanonical (execGmstat h o s) := by
  refine engineWord_canonical (fun s c hs => ?_) hs
  grind [awaitAnswer_canonical, gmeEnqueue_mem]

/-! ### Vie -/

theorem execAccessUnitTaken_canonical (n : Nat) (decodes : Bool) {s : State} (hs : Canonical s.mem) :
    OutCanonical (execAccessUnitTaken n decodes s) := by
  fun_cases execAccessUnitTaken <;> simp +zetaDelta [hs]
theorem execVieFrameDecoded_canonical (n : Nat) (f : Frame) {s : State} (hs : Canonical s.mem) :
    OutCanonical (execVieFrameDecoded n f s) := by
  fun_cases execVieFrameDecoded
  case case3 =>
    refine orElse_canonical (fun t h => ?_) hs
    generalize hd : decodedFrame _ _ _ _ _ = r at h
    cases r with
    | error k => cases h
    | ok u =>
      cases h
      rw [closeEnded_mem]
      exact decodedFrame_canonical _ _ _ _ _ hd hs
  all_goals exact hs
theorem execVieFrameJudge_canonical (n : Nat) {s : State} (hs : Canonical s.mem) : OutCanonical (execVieFrameJudge n s) := by
  fun_cases execVieFrameJudge <;> simp [hs]

/-! ### Links -/

theorem execLinkRetrainTimeout_canonical (k : Nat) {s : State} (hs : Canonical s.mem) : OutCanonical (execLinkRetrainTimeout k s) := by
  refine unlessFailed_canonical (fun s hs => ?_) hs
  grind [tryLose_canonical]
theorem execLinkResendTimeout_canonical (k seq : Nat) {s : State} (hs : Canonical s.mem) :
    OutCanonical (execLinkResendTimeout k seq s) := by
  refine unlessFailed_canonical (fun s hs => ?_) hs
  repeat' split
  all_goals grind [sendFlits_mem, tryLose_canonical]
theorem execTsyncReply_canonical (k : Nat) (t1 t2 t3 : Word64) {s : State} (hs : Canonical s.mem) :
    OutCanonical (execTsyncReply k t1 t2 t3 s) := by
  refine unlessFailed_canonical (fun s hs => ?_) hs
  grind [takeTsync_canonical]
theorem execLinkFlitReceive_canonical (k : Nat) (f : List Byte) {s : State} (hs : Canonical s.mem) :
    OutCanonical (execLinkFlitReceive k f s) := by
  refine unlessFailed_canonical (fun s hs => ?_) hs
  grind [State.setPort_mem, intactFlit_canonical]
theorem execPeerRequestArrival_canonical (k : Nat) {s : State} (hs : Canonical s.mem) : OutCanonical (execPeerRequestArrival k s) := by
  refine unlessFailed_canonical (fun s hs => ?_) hs
  grind [sendFlits_mem, State.setPort_mem, answerPeer_canonical]

/-! ### HostPort -/

theorem execHostAccess_canonical (fn : HostFn) (acc : HostAcc) {s : State} (hs : Canonical s.mem) :
    OutCanonical (execHostAccess fn acc s) := by
  fun_cases execHostAccess <;> simp [hs]
theorem execCxlMemAccess_canonical (p off : Nat) (acc : HostAcc) {s : State} (hs : Canonical s.mem) :
    OutCanonical (execCxlMemAccess p off acc s) := by
  fun_cases execCxlMemAccess <;> simp [hs]
theorem execCoreAccess_canonical (n p : Nat) (acc : HostAcc) {s : State} (hs : Canonical s.mem) :
    OutCanonical (execCoreAccess n p acc s) := by
  refine byCore_canonical (fun s hs => ?_) hs
  grind [coreAccess_canonical]
theorem execHostMemory_canonical (off : Nat) (data : List Byte) {s : State} (hs : Canonical s.mem) :
    OutCanonical (execHostMemory off data s) := by
  fun_cases execHostMemory <;> simp [hs]
theorem execStairTransferFailure_canonical (pq bank : Nat) {s : State} (hs : Canonical s.mem) :
    OutCanonical (execStairTransferFailure pq bank s) := by
  refine unlessFailed_canonical (fun s hs => ?_) hs
  grind [State.emit_mem]
theorem execEvacuationComplete_canonical (hall slot : Nat) {s : State} (hs : Canonical s.mem) :
    OutCanonical (execEvacuationComplete hall slot s) := by
  fun_cases execEvacuationComplete <;> simp +zetaDelta [hs]

/-! ### LaneOps -/

theorem execCvt_canonical (f : Fab) {s : State} (hs : Canonical s.mem) : OutCanonical (execCvt f s) := by
  fun_cases execCvt
  grind [computeFire_canonical]

/-! ### SystemWords -/

theorem execSysrd_canonical (h : Hdr) (o : OpA) {s : State} (hs : Canonical s.mem) : OutCanonical (execSysrd h o s) := by
  refine systemWord_canonical (fun s lq q x hs => ?_) hs
  grind [State.setQueue_mem, afterRead_mem, WordCanonical]
theorem execSyswr_canonical (h : Hdr) (o : OpA) {s : State} (hs : Canonical s.mem) : OutCanonical (execSyswr h o s) := by
  refine systemWord_canonical (fun s lq q x hs => ?_) hs
  grind [writeReg_canonical, WordCanonical]
theorem execTlbInv_canonical (h : Hdr) (o : OpA) {s : State} (hs : Canonical s.mem) : OutCanonical (execTlbInv h o s) := by
  refine runWord_canonical (fun lq q x => ?_) hs
  grind [State.setQueue_mem, dropTranslations_mem, releaseHolds_mem, served_mem, WordCanonical]
theorem execQflush_canonical (h : Hdr) (o : OpA) {s : State} (hs : Canonical s.mem) : OutCanonical (execQflush h o s) := by
  refine systemWord_canonical (fun s lq q x hs => ?_) hs
  grind [flushQueues_mem, WordCanonical]
theorem execEvent_canonical (h : Hdr) (o : OpA) {s : State} (hs : Canonical s.mem) : OutCanonical (execEvent h o s) := by
  refine systemWord_canonical (fun s lq q x hs => ?_) hs
  grind [writeRecord_canonical, WordCanonical]

end Sys2Proof.Machine
end

section
/-! SUPPORT. Every instruction, every turn and so every step keeps the canonical form of memory. -/

namespace Sys2Proof.Machine

/-- Every instruction keeps the canonical form of memory: those made of a shared operation by the operation's lemma, the others by their own. -/
theorem exec_canonical (i : Instr) {s : State} (hs : Canonical s.mem) : OutCanonical (exec i s) := by
  cases i
  case attestationReport | dtimeAdjust | tsyncStart | launchDoorbell | partitionReset | qsqStart | qsqPcWrite | qsqQctlWrite | semWrite |
      qsqMxmodeWrite | sysLqpartWrite | sysCtxownWrite | sysSaveWrite | sysLqbaseWrite | registerWrite =>
    dsimp only [exec, execAttestationReport, execDtimeAdjust, execTsyncStart, execLaunchDoorbell, execPartitionReset, execQsqStart,
      execQsqPcWrite, execQsqQctlWrite, execSemWrite, execQsqMxmodeWrite, execSysLqpartWrite, execSysCtxownWrite, execSysSaveWrite,
      execSysLqbaseWrite, execRegisterWrite]
    exact byCore_canonical (fun s hs => by simp [hs]) hs
  case tsyncRequestArrival | portRetrained =>
    dsimp only [exec, execTsyncRequestArrival, execPortRetrained]
    exact unlessFailed_canonical (fun s hs => by simp [hs]) hs
  case const | mad | cmp | idx | fma | fcmp | fscale | fclass | lmax | flsum | fldot =>
    dsimp only [exec, execConst, execMad, execCmp, execIdx, execFma, execFcmp, execFscale, execFclass, execLmax, execFlsum, execFldot]
    exact computeFire_canonical hs
  case nullgen | copy | ends | gate | join | ord | fence =>
    dsimp only [exec, execNullgen, execCopy, execEnds, execGate, execJoin, execOrd, execFence]
    exact fire_canonical (fun s rid slot ctx fr hs => by simp [hs]) hs
  case drop | sel | pref | trap =>
    dsimp only [exec, execDrop, execSel, execPref, execTrap]
    exact fireWith_canonical (fun s rid slot ctx fr hs => by simp [hs]) (fun s rid slot fr t => by simp) (fun s rid slot t => by simp) hs
  case omerge | lcarry | rangeExpand =>
    dsimp only [exec, execOmerge, execLcarry, execRangeExpand]
    exact atSlot_canonical (fun s rid slot ctx r hs => by simp [hs]) hs
  case add | sub | mul | mulh | div | rem | min | max | adds | subs | avg =>
    dsimp only [exec, execAdd, execSub, execMul, execMulh, execDiv, execRem, execMin, execMax, execAdds, execSubs, execAvg]
    exact intVals_canonical (hs := hs) ..
  case neg | abs | not | bfe =>
    dsimp only [exec, execNeg, execAbs, execNot, execBfe]
    exact intOne_canonical (hs := hs) ..
  case and | or | xor =>
    dsimp only [exec, execAnd, execOr, execXor]
    exact intBits_canonical (hs := hs) ..
  case shl | shr | sar | rot | bfi =>
    dsimp only [exec, execShl, execShr, execSar, execRot, execBfi]
    exact intTwo_canonical (hs := hs) ..
  case popc | clz | ctz =>
    dsimp only [exec, execPopc, execClz, execCtz]
    exact intCount_canonical (hs := hs) ..
  case fadd | fsub | fmul | fmin | fmax | fdiv =>
    dsimp only [exec, execFadd, execFsub, execFmul, execFmin, execFmax, execFdiv]
    exact floatTwo_canonical (hs := hs) ..
  case fabs | fneg | frcp | fsqrt | frsq | fexp2 | flog2 | fsig | ftanh | frnd =>
    dsimp only [exec, execFabs, execFneg, execFrcp, execFsqrt, execFrsq, execFexp2, execFlog2, execFsig, execFtanh, execFrnd]
    exact floatOne_canonical (hs := hs) ..
  case perm | bcast | lrot | lsum | pack | unpack =>
    dsimp only [exec, execPerm, execBcast, execLrot, execLsum, execPack, execUnpack]
    exact laneMove_canonical (hs := hs) ..
  case ld | ldc | st | atom | red | acq =>
    dsimp only [exec, execLd, execLdc, execSt, execAtom, execRed, execAcq]
    exact accessFire_canonical hs
  case li | addi | scalarAdd | scalarSub | scalarAnd | scalarOr | scalarXor | scalarShl | scalarShr | scalarSar | scalarMul | slt | sltu =>
    dsimp only [exec, execLi, execAddi, execScalarAdd, execScalarSub, execScalarAnd, execScalarOr, execScalarXor, execScalarShl,
      execScalarShr, execScalarSar, execScalarMul, execSlt, execSltu]
    exact scalarWord_canonical (hs := hs) ..
  case br | call | halt | semrd =>
    dsimp only [exec, execBr, execCall, execHalt, execSemrd]
    exact runWord_canonical (fun lq q x => by simp [hs]) hs
  case bceCopy | copymx | copysh | gather | scatter | fill =>
    dsimp only [exec, execBceCopy, execCopymx, execCopysh, execGather, execScatter, execFill]
    exact engineWord_canonical bceAccept_canonical hs
  case mma | mmat | accinit | acccnt | accout | accdrain | accpart | mxcfgPolicy =>
    dsimp only [exec, execMma, execMmat, execAccinit, execAcccnt, execAccout, execAccdrain, execAccpart, execMxcfgPolicy]
    exact engineWord_canonical mxAccept_canonical hs
  case mxcfgMode | ovfstat | cred | crfix | crstat | vstat =>
    dsimp only [exec, execMxcfgMode, execOvfstat, execCred, execCrfix, execCrstat, execVstat]
    exact engineWord_canonical (fun s c hs => by simp [hs]) hs
  case stinit | stins | stdraw | stupd | stwgtBeta | stwgt =>
    dsimp only [exec, execStinit, execStins, execStdraw, execStupd, execStwgtBeta, execStwgt]
    exact engineWord_canonical pseAccept_canonical hs
  case pdaload | pdastep | mask | sample | gmcfg =>
    dsimp only [exec, execPdaload, execPdastep, execMask, execSample, execGmcfg]
    exact engineWord_canonical gmeAccept_canonical hs
  case vopen =>
    dsimp only [exec, execVopen]
    exact engineWord_canonical vieOpen_canonical hs
  case vbind =>
    dsimp only [exec, execVbind]
    exact engineWord_canonical vieBind_canonical hs
  case vclose =>
    dsimp only [exec, execVclose]
    exact engineWord_canonical vieClose_canonical hs
  case powerOnReset => exact execPowerOnReset_canonical _ s
  case thermalLimit => exact execThermalLimit_canonical s
  case tsyncReply => exact execTsyncReply_canonical (hs := hs) ..
  case launchRecordTake => exact execLaunchRecordTake_canonical (hs := hs) ..
  case launchStart => exact execLaunchStart_canonical (hs := hs) ..
  case priorityAging => exact execPriorityAging_canonical (hs := hs) ..
  case launchEnd => exact execLaunchEnd_canonical (hs := hs) ..
  case phaseEnd => exact execPhaseEnd_canonical (hs := hs) ..
  case replicaAdd => exact execReplicaAdd_canonical (hs := hs) ..
  case replicaRemove => exact execReplicaRemove_canonical (hs := hs) ..
  case rangeSplitRequest => exact execRangeSplitRequest_canonical (hs := hs) ..
  case turnChange => exact execTurnChange_canonical (hs := hs) ..
  case tokenArrival => exact execTokenArrival_canonical (hs := hs) ..
  case spillReturn => exact execSpillReturn_canonical (hs := hs) ..
  case deadlockDetect => exact execDeadlockDetect_canonical (hs := hs) ..
  case replayPoint => exact execReplayPoint_canonical (hs := hs) ..
  case faultRecordWrite => exact execFaultRecordWrite_canonical (hs := hs) ..
  case memoryRequestAccept => exact execMemoryRequestAccept_canonical (hs := hs) ..
  case pageWalkComplete => exact execPageWalkComplete_canonical (hs := hs) ..
  case accessPerformAtHome => exact execAccessPerformAtHome_canonical (hs := hs) ..
  case rmwPipelineUpdate => exact execRmwPipelineUpdate_canonical (hs := hs) ..
  case mtReplyRelease => exact execMtReplyRelease_canonical (hs := hs) ..
  case stairTransferFailure => exact execStairTransferFailure_canonical (hs := hs) ..
  case evacuationComplete => exact execEvacuationComplete_canonical (hs := hs) ..
  case preemptionDecision => exact execPreemptionDecision_canonical (hs := hs) ..
  case preemptReadoutComplete => exact execPreemptReadoutComplete_canonical (hs := hs) ..
  case lateReplyIntoImage => exact execLateReplyIntoImage_canonical (hs := hs) ..
  case launchRestore => exact execLaunchRestore_canonical (hs := hs) ..
  case bceCommandStart => exact execBceCommandStart_canonical (hs := hs) ..
  case bceGranuleTransfer => exact execBceGranuleTransfer_canonical (hs := hs) ..
  case bceCommandComplete => exact execBceCommandComplete_canonical (hs := hs) ..
  case mxtCommandStart => exact execMxtCommandStart_canonical (hs := hs) ..
  case mxtGroupApply => exact execMxtGroupApply_canonical (hs := hs) ..
  case accoutTokenEmit => exact execAccoutTokenEmit_canonical (hs := hs) ..
  case cruLeafArrival => exact execCruLeafArrival_canonical (hs := hs) ..
  case cruDeadline => exact execCruDeadline_canonical (hs := hs) ..
  case pseCommandPerform => exact execPseCommandPerform_canonical (hs := hs) ..
  case gmeCommandPerform => exact execGmeCommandPerform_canonical (hs := hs) ..
  case vieFrameDecoded => exact execVieFrameDecoded_canonical (hs := hs) ..
  case vieFrameJudge => exact execVieFrameJudge_canonical (hs := hs) ..
  case hostAccess => exact execHostAccess_canonical (hs := hs) ..
  case cxlMemAccess => exact execCxlMemAccess_canonical (hs := hs) ..
  case linkFlitReceive => exact execLinkFlitReceive_canonical (hs := hs) ..
  case peerRequestArrival => exact execPeerRequestArrival_canonical (hs := hs) ..
  case linkResendTimeout => exact execLinkResendTimeout_canonical (hs := hs) ..
  case linkRetrainTimeout => exact execLinkRetrainTimeout_canonical (hs := hs) ..
  case partitionResetDone => exact execPartitionResetDone_canonical (hs := hs) ..
  case bceResume => exact execBceResume_canonical (hs := hs) ..
  case bceDiscard => exact execBceDiscard_canonical (hs := hs) ..
  case peBrkRelease => exact execPeBrkRelease_canonical (hs := hs) ..
  case qosWordWrite => exact execQosWordWrite_canonical (hs := hs) ..
  case input => exact execInput_canonical (hs := hs) ..
  case output => exact execOutput_canonical (hs := hs) ..
  case steer => exact execSteer_canonical (hs := hs) ..
  case merge => exact execMerge_canonical (hs := hs) ..
  case lexit => exact execLexit_canonical (hs := hs) ..
  case bartok => exact execBartok_canonical (hs := hs) ..
  case spanset => exact execSpanset_canonical (hs := hs) ..
  case spanshift => exact execSpanshift_canonical (hs := hs) ..
  case spanclip => exact execSpanclip_canonical (hs := hs) ..
  case stale => exact execStale_canonical (hs := hs) ..
  case rangeMake => exact execRangeMake_canonical (hs := hs) ..
  case ctxnew => exact execCtxnew_canonical (hs := hs) ..
  case ctxfree => exact execCtxfree_canonical (hs := hs) ..
  case spawn => exact execSpawn_canonical (hs := hs) ..
  case cvt => exact execCvt_canonical (hs := hs) ..
  case publish => exact execPublish_canonical (hs := hs) ..
  case wptr => exact execWptr_canonical (hs := hs) ..
  case waitwp => exact execWaitwp_canonical (hs := hs) ..
  case brk => exact execBrk_canonical (hs := hs) ..
  case ldq => exact execLdq_canonical (hs := hs) ..
  case stq => exact execStq_canonical (hs := hs) ..
  case brc => exact execBrc_canonical (hs := hs) ..
  case ret => exact execRet_canonical (hs := hs) ..
  case loop => exact execLoop_canonical (hs := hs) ..
  case yield => exact execYield_canonical (hs := hs) ..
  case wait => exact execWait_canonical (hs := hs) ..
  case sig => exact execSig_canonical (hs := hs) ..
  case semset => exact execSemset_canonical (hs := hs) ..
  case nbarr => exact execNbarr_canonical (hs := hs) ..
  case nbwait => exact execNbwait_canonical (hs := hs) ..
  case taskdef => exact execTaskdef_canonical (hs := hs) ..
  case taskdone => exact execTaskdone_canonical (hs := hs) ..
  case tasknext => exact execTasknext_canonical (hs := hs) ..
  case launch => exact execLaunch_canonical (hs := hs) ..
  case cfgload => exact execCfgload_canonical (hs := hs) ..
  case qwait => exact execQwait_canonical (hs := hs) ..
  case ststat => exact execStstat_canonical (hs := hs) ..
  case gmstat => exact execGmstat_canonical (hs := hs) ..
  case sysrd => exact execSysrd_canonical (hs := hs) ..
  case syswr => exact execSyswr_canonical (hs := hs) ..
  case tlbInv => exact execTlbInv_canonical (hs := hs) ..
  case qflush => exact execQflush_canonical (hs := hs) ..
  case ctxsave => exact execCtxsave_canonical (hs := hs) ..
  case ctxload => exact execCtxload_canonical (hs := hs) ..
  case event => exact execEvent_canonical (hs := hs) ..
  case modulePowerLoss => exact execModulePowerLoss_canonical s
  case accessUnitTaken => exact execAccessUnitTaken_canonical (hs := hs) ..

/-- What the turn of a queue does before it runs a word, or instead of running one. -/
def TurnedCanonical : Turned → Prop
  | .idle => True
  | .done s => Canonical s.mem
  | .run _ s => Canonical s.mem

theorem queueTurn_canonical (lq q : Nat) {s : State} (hs : Canonical s.mem) : TurnedCanonical (queueTurn s lq q) := by
  fun_cases queueTurn <;> simp +zetaDelta [TurnedCanonical, hs]

/-- A queue's turn keeps it. -/
theorem queueStep_canonical (lq q : Nat) {s : State} (hs : Canonical s.mem) : OutCanonical (queueStep s lq q) := by
  have h := queueTurn_canonical lq q hs
  unfold queueStep
  split
  · exact hs
  · next e =>
    rw [e] at h
    exact h
  · next e =>
    rw [e] at h
    exact exec_canonical _ h

/-- A PE's turn keeps it. -/
theorem peStep_canonical (rid pe : Nat) {s : State} (hs : Canonical s.mem) : OutCanonical (peStep s rid pe) := by
  fun_cases peStep
  case case5 => exact exec_canonical _ (by simp [hs])
  all_goals exact hs

theorem actStep_canonical (a : Act) {s : State} (hs : Canonical s.mem) : OutCanonical (actStep s a) := by
  cases a with
  | queue lq q => exact queueStep_canonical lq q hs
  | pe rid pe => exact peStep_canonical rid pe hs
  | event i => exact exec_canonical i hs
  | core n p acc => exact execCoreAccess_canonical n p acc hs
  | host off data => exact execHostMemory_canonical off data hs
  | enablePf => simp [actStep, hs]

/-- The host's accesses go on at the end of a cycle; the rest of the boundary leaves memory as it was. -/
theorem endCycle_canonical {s : State} (hs : Canonical s.mem) : Canonical (endCycle s).mem := by
  have h : Canonical (drainHosts (s.flushLate lastPlace)).mem := drainHosts_canonical (by rw [flushLate_mem]; exact hs)
  simpa [endCycle] using h

theorem beginTurn_canonical (t : Turn) {s : State} (hs : Canonical s.mem) : Canonical (beginTurn t s).mem := by
  have hb (n : Nat) : Canonical (if n = 0 then s else endCycle s).mem := by
    split
    · exact hs
    · exact endCycle_canonical hs
  unfold beginTurn
  dsimp only
  rw [passTime_mem]
  split
  · rw [flushLate_mem]
    exact hb _
  · exact hb _

end Sys2Proof.Machine

namespace Sys2Proof.Claims

open Sys2Proof.Machine

/-- Settles O4: a turn begins in canonical memory, and every act of a turn keeps it. -/
theorem everyStepKeepsMemoryCanonical : Obligations.EveryStepKeepsMemoryCanonical := by
  intro s t hs h
  have ho : OutCanonical (step s) := by
    unfold step
    split
    · exact hs
    · next u s1 hu =>
      split
      · exact trivial
      · exact actStep_canonical u.act (beginTurn_canonical u (by rw [nextTurn_mem hu]; exact hs))
  rw [h] at ho
  exact ho

end Sys2Proof.Claims
end
